-- ==== Sys2Proof/Word.lean ====
section
/-! DEFINITION. The word types and the closed sets of names that operands are drawn from. -/

namespace Sys2Proof

/-- A 64-bit register or address (R73: XLEN 64). -/
abbrev Word := BitVec 64
/-- One byte of memory. -/
abbrev Byte := BitVec 8
/-- A register number 0 to 31. -/
abbrev Reg := BitVec 5
/-- The contents of one vector register: VLEN is at most 65,536 bits (R74). -/
abbrev VBits := BitVec 65536

/-- Privilege modes (R73). -/
inductive Mode where
  | u | s | m
deriving DecidableEq, Repr

/-- The form in which an instruction was decoded (R65, R80). -/
inductive Form where
  | native | lammel
deriving DecidableEq, Repr

/-- Standard scalar loads, integer and floating point (R73, R86). -/
inductive LoadOp where
  | lb | lh | lw | ld | lbu | lhu | lwu | flh | flw | fld
deriving DecidableEq, Repr

/-- Standard scalar stores (R73, R86). -/
inductive StoreOp where
  | sb | sh | sw | sd | fsh | fsw | fsd
deriving DecidableEq, Repr

/-- Operations on memory words: the standard AMOs, LR and SC, and amocas (R86, R236). -/
inductive AmoOp where
  | swap | add | xor | and | or | min | max | minu | maxu | cas | lr | sc
deriving DecidableEq, Repr

/-- Register-register integer operations of RV64I, M, Zba, Zbb, Zbs and Zicond (R73). -/
inductive AluOp where
  | add | sub | sll | slt | sltu | xor | srl | sra | or | and
  | addw | subw | sllw | srlw | sraw
  | mul | mulh | mulhsu | mulhu | div | divu | rem | remu | mulw | divw | divuw | remw | remuw
  | addUw | sh1add | sh1addUw | sh2add | sh2addUw | sh3add | sh3addUw
  | czeroEqz | czeroNez
  | bclr | bext | binv | bset
  | andn | orn | xnor | max | maxu | min | minu | rol | rolw | ror | rorw
deriving DecidableEq, Repr

/-- Register-immediate and one-source integer operations (R73). -/
inductive AluImmOp where
  | addi | slti | sltiu | xori | ori | andi | slli | srli | srai
  | addiw | slliw | srliw | sraiw | slliUw
  | bclri | bexti | binvi | bseti | rori | roriw
  | clz | clzw | ctz | ctzw | cpop | cpopw | sextB | sextH | zextH | orcB | rev8
deriving DecidableEq, Repr

/-- Conditional branches (R73). -/
inductive BranchOp where
  | beq | bne | blt | bge | bltu | bgeu
deriving DecidableEq, Repr

/-- CSR instructions (R73, Zicsr). -/
inductive CsrOp where
  | rw | rs | rc
deriving DecidableEq, Repr

/-- Scalar floating-point formats, in the order of R86. -/
inductive FpFmt where
  | s | d | h
deriving DecidableEq, Repr

/-- Scalar floating-point operations, in the order of the list under R86 (loads and stores apart). -/
inductive FpOp where
  | madd | msub | nmsub | nmadd
  | add | sub | mul | div | sqrt | sgnj | sgnjn | sgnjx | min | max | eq | lt | le | cls
  | toW | toWu | toL | toLu | ofW | ofWu | ofL | ofLu | mvX | mvF | ofS | ofD | ofH
deriving DecidableEq, Repr

/-- Fence kinds: the standard fence, fence.tso and fence.i (R86). -/
inductive FenceKind where
  | fence | tso | i
deriving DecidableEq, Repr

/-- The pairs of matrix operand formats (R184). -/
inductive MmaFmt where
  | e4e4 | e4e5 | e5e4 | e5e5 | e2e2 | e2e4 | e4e2 | i8i8 | bfbf | hfhf | dfdf
deriving DecidableEq, Repr

/-- The element formats of mst (R188). -/
inductive MstFmt where
  | f32 | bf16 | f16 | i32 | e4m3 | e5m2
deriving DecidableEq, Repr

/-- Rounding modes (R73, the pseudocode table of 00_scope); rod is the round-to-odd of vfncvt.rod. -/
inductive Rm where
  | rne | rtz | rdn | rup | rmm | rod
deriving DecidableEq, Repr

/-- The structure that an error inside a core strikes (R317), the matrix array's residue check among them (R192). -/
inductive SramUnit where
  | cache | scratch | beadLine | vectorFile | accumulator | array
deriving DecidableEq, Repr

/-- One frame as a port receives it (R321, R322): the port (0 the host port, 1 to 8 the scale-out ports), the source MAC and the VLAN, the UDP destination port, the
ECN CE mark, then the message's header and its payload. -/
structure FhtMsg where
  port    : Nat
  mac     : BitVec 48
  vlan    : BitVec 12
  udp     : Nat
  ce      : Bool
  ver     : Nat
  type    : Nat
  flags   : BitVec 16
  flow    : Nat
  len     : Nat
  seq     : Nat
  ack     : Nat
  addr    : Word
  arg     : Word
  payload : List Byte
deriving DecidableEq, Repr

/-- FLAGS (R322): RESP, ACKONLY, ECE, ROOT, OP and TAG. -/
def FhtMsg.resp (m : FhtMsg) : Bool := m.flags.getLsbD 0
def FhtMsg.ackOnly (m : FhtMsg) : Bool := m.flags.getLsbD 1
def FhtMsg.ece (m : FhtMsg) : Bool := m.flags.getLsbD 2
def FhtMsg.root (m : FhtMsg) : Bool := m.flags.getLsbD 3
def FhtMsg.op (m : FhtMsg) : Nat := m.flags.toNat / 256 % 16
def FhtMsg.tag (m : FhtMsg) : Nat := m.flags.toNat / 4096

/-- A header of a VER and a TYPE that FHT has. -/
def FhtMsg.known (m : FhtMsg) : Bool := m.ver == 1 && [1, 2, 3, 4].contains m.type

/-- A message of a TYPE that is no answer and more than an acknowledgement. -/
def FhtMsg.is (m : FhtMsg) (type : Nat) : Bool := m.type == type && !m.resp && !m.ackOnly

end Sys2Proof
end

