-- ==== Sys2Proof/Syntax.lean ====
section
/-! DEFINITION. The instructions and events of the FX8: one constructor per row of
spec/opcode_table.json, and after them the standard instructions of R73 that no row names.
Scopes are raw 2-bit fields (0 wg, 1 dev, 2 sys; 3 is reserved and raises cause 2, R87); tags and AMO
numbers are raw 4-bit fields for the same reason. `vm` is the vm bit: true means unmasked.
Offsets of control transfers are signed byte distances from the instruction (R65, R93, R115). -/

namespace Sys2Proof

inductive Instr where
  -- 07: hardware loops, interleaves, task and context control
  | loop (rs1 : Reg) (off : Word)
  | loopi (count : BitVec 10) (off : Word)
  | lidx (rd : Reg) (n : BitVec 5)
  | lcnt (rd : Reg) (n : BitVec 5)
  | lbrk (n : BitVec 5)
  | ldepth (rd : Reg)
  | bilv2 (rd rs1 rs2 : Reg)
  | bilv3 (rd rs1 rs2 : Reg)
  | bdlv2 (rd rs1 rs2 : Reg)
  | bdlv3 (rd rs1 rs2 : Reg)
  | clzx (rd rs1 rs2 : Reg)
  | fold (rd rs1 rs2 : Reg)
  | vregcfg (rd rs1 : Reg)
  | vsetvlz (rd rs1 : Reg) (vtypei : BitVec 8) (off : Word)
  | vsetvli (rd rs1 : Reg) (vtypei : BitVec 11)
  | vsetivli (rd : Reg) (avl : BitVec 5) (vtypei : BitVec 10)
  | vsetvl (rd rs1 rs2 : Reg)
  | ctxSave (rd rs1 rs2 : Reg)
  | ctxLoad (rd rs1 rs2 : Reg)
  | migrate (rd rs1 rs2 : Reg)
  | erack (rd : Reg)
  -- 10: scoped accesses, fences, copies, timelines, streams
  | ldAq (scope width : BitVec 2) (rd rs1 : Reg)
  | stRl (scope width : BitVec 2) (rs2 rs1 : Reg)
  | ldInv (width : BitVec 2) (rd rs1 : Reg)
  | fenceS (scope : BitVec 2)
  | cpG2s (rd rs1 rs2 rs3 : Reg)
  | cpS2g (rd rs1 rs2 rs3 : Reg)
  | cpG2g (rd rs1 rs2 rs3 : Reg)
  | cp2d (rd rs1 rs2 rs3 : Reg)
  | cpMma (rd rs1 : Reg)
  | cpChain (rd rs1 rs2 : Reg)
  | waitGe (rd rs1 rs2 rs3 : Reg)
  | waitEq (rd rs1 rs2 rs3 : Reg)
  | scfg (rd rs1 : Reg) (sid : BitVec 5)
  | swait (rd : Reg) (sid : BitVec 5)
  | sresume (sid : BitVec 5)
  | sstop (sid : BitVec 5)
  | tlwait (rd rs1 : Reg) (sel : BitVec 5)
  | tlread (rd : Reg) (sel : BitVec 5)
  -- 15: reductions, Bead updates, AMOs, rods, zero triggers, barriers
  | red (tag : BitVec 4) (scope : BitVec 2) (rs2 rs1 : Reg)
  | bupd (tag : BitVec 4) (rs2 rs1 : Reg)
  | amoScoped (op : BitVec 4) (dword : Bool) (scope : BitVec 2) (rd rs2 rs1 : Reg)
  | breckon (rs1 : Reg)
  | rodAcq (rd rs1 : Reg)
  | rodRel (rs1 : Reg)
  | bankArm (rd rs1 rs2 : Reg)
  | bankDisarm (rd rs1 : Reg)
  | barWg (rd : Reg)
  -- 16: messages, and launch and qsignal of 07
  | msend (rd rs1 rs2 : Reg)
  | mreply (rd rs1 rs2 : Reg)
  | aqpush (rd rs1 rs2 : Reg)
  | launch (rd rs1 rs2 : Reg)
  | qsignal (rd rs1 rs2 : Reg)
  | chsend (rd rs1 rs2 : Reg)
  | chrecv (rd rs1 : Reg)
  | chdone (rs1 : Reg)
  -- custom-2: 08, 11, 10, 18
  | vmpush (vs1 : Reg)
  | vmdepth (rd : Reg)
  | vidxc (vm : Bool) (rd vd vs2 : Reg)
  | vfcvtE2 (vm : Bool) (vd vs2 vs1 : Reg)
  | vfcvtE4 (vm : Bool) (vd vs2 vs1 : Reg)
  | vmxscale (vm : Bool) (vd vs2 : Reg) (fmt : BitVec 5)
  | vfwcvtE2 (vm : Bool) (vd vs2 vs1 : Reg)
  | vfwcvtE4 (vm : Bool) (vd vs2 vs1 : Reg)
  | vfwcvtE5 (vm : Bool) (vd vs2 vs1 : Reg)
  | vfcvtE5 (vm : Bool) (vd vs2 vs1 : Reg)
  | vwmulxE8 (vm : Bool) (vd vs2 vs1 : Reg)
  | vwmulxE16 (vm : Bool) (vd vs2 vs1 : Reg)
  | vwmulxE32 (vm : Bool) (vd vs2 vs1 : Reg)
  | vwmulxE64 (vm : Bool) (vd vs2 vs1 : Reg)
  | vle8Inv (vm : Bool) (vd rs1 : Reg)
  | vle16Inv (vm : Bool) (vd rs1 : Reg)
  | vle32Inv (vm : Bool) (vd rs1 : Reg)
  | vle64Inv (vm : Bool) (vd rs1 : Reg)
  | vsmx (vm : Bool) (vs3 rs1 vs2 : Reg)
  | spop (vd : Reg) (sid : BitVec 5)
  | vwait (vm : Bool) (vd vs2 rs1 : Reg)
  | msendv (vm : Bool) (vs3 vs2 rs1 : Reg)
  | edge (vm : Bool) (vd vs2 rs1 : Reg)
  | texdec (vm : Bool) (vd vs2 : Reg) (fmt : BitVec 5)
  | texw (vm : Bool) (vd vs2 rs1 : Reg)
  | texS (vm : Bool) (vd vs2 rs1 : Reg)
  | texSa (vm : Bool) (rd vs2 rs1 : Reg)
  | boxt (vm : Bool) (vd vs2 rs1 : Reg)
  | trit (vm : Bool) (vd vs2 rs1 : Reg)
  -- custom-3: 12
  | mmaE4e4 (acc : BitVec 2) (rs1 rs2 fs3 : Reg)
  | mmaE4e5 (acc : BitVec 2) (rs1 rs2 fs3 : Reg)
  | mmaE5e4 (acc : BitVec 2) (rs1 rs2 fs3 : Reg)
  | mmaE5e5 (acc : BitVec 2) (rs1 rs2 fs3 : Reg)
  | mmaE2e2 (acc : BitVec 2) (rs1 rs2 fs3 : Reg)
  | mmaE2e4 (acc : BitVec 2) (rs1 rs2 fs3 : Reg)
  | mmaE4e2 (acc : BitVec 2) (rs1 rs2 fs3 : Reg)
  | mmaI8i8 (acc : BitVec 2) (rs1 rs2 fs3 : Reg)
  | mmaBfbf (acc : BitVec 2) (rs1 rs2 : Reg)
  | mmaHfhf (acc : BitVec 2) (rs1 rs2 : Reg)
  | mmaDfdf (acc : BitVec 2) (rs1 rs2 : Reg)
  | mcfg (rd rs1 : Reg)
  | mzero (acc : BitVec 2)
  | mload (acc : BitVec 2) (rs1 rs2 : Reg)
  | merr (rd : Reg) (sel : BitVec 5)
  | mstF32 (acc : BitVec 2) (rs1 rs2 : Reg)
  | mstBf16 (acc : BitVec 2) (rs1 rs2 : Reg)
  | mstF16 (acc : BitVec 2) (rs1 rs2 : Reg)
  | mstI32 (acc : BitVec 2) (rs1 rs2 : Reg)
  | mstE4m3 (acc : BitVec 2) (rs1 rs2 fs3 : Reg)
  | mstE5m2 (acc : BitVec 2) (rs1 rs2 fs3 : Reg)
  -- 06, 07: the pair word and the hints
  | pair (g : Reg) (sense : Bool) (scalar vector : Instr)
  | hintPf (rs1 : Reg) (imm : BitVec 12)
  | hintUnroll (imm : BitVec 12)
  | hintAff (shamt : BitVec 6)
  | hintPair (shamt : BitVec 6)
  -- lanes (04, 08); `sup` is a cluster 0 to 63, `core` a core id, `hart` a hart id
  | lgrantWrite (sup : Nat) (value : Word)
  | laneRequestInterrupt (sup : Nat)
  | laneRotation (core : Nat)
  | laneHoldTimeout (hart : Nat)
  | laneRetire (core group : Nat)
  -- code (05)
  | pageFetchUnverified (obj page : Nat)
  | pageHashDone (obj page : Nat)
  | generationFree (part gen : Nat)
  -- pre-emption and migration (19)
  | haltRequest (hart : Nat)
  | haltLanding (hart : Nat)
  | itbudgetExpiry (hart : Nat)
  | forwardingExpiry (hart : Nat)
  -- messages (16)
  | messageArrival (idx : Nat)
  | handlerStart (hart : Nat)
  | channelItemArrival (idx : Nat)
  | channelClose (hart chan : Nat)
  | channelHandlerStart (hart : Nat)
  | pathTimeout (idx : Nat)
  -- waiting (15)
  | watchWake (hart : Nat)
  | waitTimeout (hart : Nat)
  | barrierComplete (launch wg : Nat)
  -- engines (10, 12, 18)
  | copyComplete (hart n : Nat)
  | chainEntryStart (hart n : Nat)
  | matrixOpComplete (hart : Nat)
  | streamFetch (hart sid : Nat)
  | texSaComplete (hart idx : Nat)
  | pageWalkComplete (hart : Nat) (va : Word) (store : Bool)
  -- coherence (14)
  | spanRead (core : Nat) (line word count : Nat)
  | homeWrite (core : Nat) (addr : Nat) (bytes : List Byte)
  | rodPass (region : Nat)
  | leaseExpiry (region : Nat)
  | reservationLapse (region : Nat)
  | rejoin (core : Nat)
  | retentionEnter (core : Nat)
  | retentionWake (core : Nat)
  -- failure (20)
  | sramError (unit : SramUnit) (core addr : Nat) (uncorrectable : Bool)
  | hbmError (addr : Nat) (uncorrectable : Bool)
  | linkFailure (boundary : Nat)
  | rerouteComplete (boundary : Nat)
  -- queue processor (03); `part` a partition, `qid` a queue of it
  | nop (part qid : Nat)
  | launchGrid (part qid : Nat)
  | launchPipe (part qid : Nat)
  | waitTl (part qid : Nat)
  | waitMem (part qid : Nat)
  | waitPacketTimeout (part qid : Nat)
  | signal (part qid : Nat)
  | copy (part qid : Nat)
  | hubCopyDone (idx : Nat)
  | marker (part qid : Nat)
  | invalidPacket (part qid : Nat)
  | barrierRelease (part qid : Nat)
  | killreq (part qid : Nat)
  | stopreq (part qid : Nat)
  | resumereq (part qid : Nat)
  | qcbConfigRead (part qid : Nat)
  | qpPost (hart : Nat)
  -- launches (02, 04, 20)
  | workgroupBind (launch : Nat)
  | runBind (launch : Nat)
  | pipelineBind (launch : Nat)
  | launchCompletion (launch : Nat)
  -- agents (17); `agent` is 16 * die + index
  | agentEnable (agent : Nat) (enable : Bool)
  | agentReset (agent : Nat)
  | agentTlbinv (agent : Nat)
  | agentNotify (agent : Nat) (slot : Word)
  | qtailReserve (agent : Nat) (n : Word)
  | agentRegisterWrite (agent offset : Nat) (value : Word)
  | agentNop (agent : Nat)
  | draw (agent : Nat)
  | meshletDispatch (agent : Nat)
  | mdone (agent : Nat) (value : Word)
  | tris (agent : Nat)
  | path (agent : Nat)
  | frag (agent : Nat)
  | cover (agent : Nat)
  | close (agent : Nat)
  -- host and root (21)
  | fhtWrite (msg : FhtMsg)
  | fhtRead (msg : FhtMsg)
  | fhtNotifyStore (msg : FhtMsg)
  | fhtNotifyFetchAdd (msg : FhtMsg)
  | fhtNotifyRed (tag : BitVec 4) (msg : FhtMsg)
  | fhtAck (part flow ack : Nat) (ece : Bool)
  | fhtRetransmitTimeout (part flow : Nat)
  | loadObject (part : Nat)
  | unload (part : Nat)
  | replace (part : Nat)
  | createQueue (part : Nat)
  | destroyQueue (part : Nat)
  | setLease (part : Nat)
  | setLog (part : Nat)
  | writeHomingEntry (part : Nat)
  | resetPartition (part : Nat)
  | attest (part : Nat)
  | activateFirmware (part : Nat)
  | createPartition (part : Nat)
  | destroyPartition (part : Nat)
  | setCodeKey (part : Nat)
  | setOwnerKey (part : Nat)
  | setParkPool (part : Nat)
  | setPeerEntry (part : Nat)
  | resetDevice (part : Nat)
  | plimitWrite (die : Nat) (watts : Word)
  | powerControlTick (die : Nat) (projected : List Nat)
  -- standard classes (06)
  | scalarLoad (op : LoadOp) (rd rs1 : Reg) (imm : BitVec 12)
  | scalarStore (op : StoreOp) (rs2 rs1 : Reg) (imm : BitVec 12)
  | standardAmo (op : AmoOp) (dword aq rl : Bool) (rd rs2 rs1 : Reg)
  | fence (kind : FenceKind) (pred succ : BitVec 4)
  | sfenceVma (rs1 rs2 : Reg)
  | csrAccess (op : CsrOp) (imm : Bool) (rd src : Reg) (csr : BitVec 12)
  | jalr (rd rs1 : Reg) (imm : BitVec 12)
  | vectorLoad (nf : BitVec 3) (mop : BitVec 2) (vm : Bool) (rs2 rs1 : Reg) (width : BitVec 2) (vd : Reg)
  | vectorStore (nf : BitVec 3) (mop : BitVec 2) (vm : Bool) (rs2 rs1 : Reg) (width : BitVec 2) (vs3 : Reg)
  | vectorArithmetic (funct6 : BitVec 6) (vm : Bool) (vs2 vs1 : Reg) (funct3 : BitVec 3) (vd : Reg)
  | sequencerResume (hart : Nat)
  | endTask (hart : Nat)
  | retranslate (part obj fn : Nat) (native : Word)
  | makeExecuteOnly (obj : Nat) (page : Nat)
  | fhtSeqDrop (part flow seq : Nat)
  | fhtResponse (hart : Nat) (payload : List Byte) (lost : Bool)
  -- the standard instructions of R73 without a row
  | lui (rd : Reg) (imm : BitVec 20)
  | auipc (rd : Reg) (imm : BitVec 20)
  | jal (rd : Reg) (off : Word)
  | branch (op : BranchOp) (rs1 rs2 : Reg) (off : Word)
  | aluImm (op : AluImmOp) (rd rs1 : Reg) (imm : BitVec 12)
  | alu (op : AluOp) (rd rs1 rs2 : Reg)
  | fpOp (op : FpOp) (fmt : FpFmt) (rd rs1 rs2 rs3 : Reg) (rm : BitVec 3)
  -- the constructors without fields stand last (Lean's runtime numbers the others up to 244)
  | vrelease
  | kexit
  | yield
  | vfenceSv
  | vfenceVs
  | vfenceVv
  | hret
  | vmelse
  | vmpop
  | patrolScrub
  | launchGrant
  | quantumEnd
  | runtimeWatchdog
  | frameDrop
  | deviceStart
  | startStageTimeout
  | startComplete
  | powerFault
  | thermalTrip
  | sret
  | illegalInstruction
  | runtimeKeepAlive
  | ecall
  | ebreak
  | mret
  | wfi
deriving DecidableEq, Repr

end Sys2Proof
end

