-- ==== Sys2Proof/WellFormed.lean ====
section
/-! DEFINITION. Which terms of Instr are well-formed: every field holds a value the spec assigns (R87), every
unused field is 0, and an event names parts that exist (R5). A reserved field value still decodes to its
instruction, whose meaning raises cause 2; such a term is ill-formed. -/

namespace Sys2Proof

/-- Does this scalar FP operation read a rounding mode? -/
def FpOp.hasRm : FpOp → Bool
  | .sgnj | .sgnjn | .sgnjx | .min | .max | .eq | .lt | .le | .cls | .mvX | .mvF => false
  | _ => true

/-- How many f or x sources a scalar FP operation names. -/
def FpOp.sources : FpOp → Nat
  | .madd | .msub | .nmsub | .nmadd => 3
  | .add | .sub | .mul | .div | .sgnj | .sgnjn | .sgnjx | .min | .max | .eq | .lt | .le => 2
  | _ => 1

/-- Is an integer immediate operation a shift by a 6-bit or a 5-bit amount, or without an immediate? -/
inductive ImmShape where
  | full | sh6 | sh5 | none
deriving DecidableEq, Repr

def AluImmOp.shape : AluImmOp → ImmShape
  | .addi | .slti | .sltiu | .xori | .ori | .andi | .addiw => .full
  | .slli | .srli | .srai | .slliUw | .bclri | .bexti | .binvi | .bseti | .rori => .sh6
  | .slliw | .srliw | .sraiw | .roriw => .sh5
  | .clz | .clzw | .ctz | .ctzw | .cpop | .cpopw | .sextB | .sextH | .zextH | .orcB | .rev8 => .none

/-- Does an immediate fit its shape? -/
def ImmShape.fits (sh : ImmShape) (imm : BitVec 12) : Bool :=
  match sh with
  | .full => true
  | .sh6 => decide (imm.toNat < 64)
  | .sh5 => decide (imm.toNat < 32)
  | .none => imm == 0

/-- Is a signed byte offset within 32 bits (R66)? -/
def fits32 (off : Word) : Bool := off == (off.setWidth 32).signExtend 64

def seqExists (hart : Nat) : Bool := decide (hart < 4096)
def hartExists (hart : Nat) : Bool := decide (hart < 4160)
def coreExists (core : Nat) : Bool := decide (core < 1024)
def agentExists (a : Nat) : Bool := decide (a < 64 ∧ a % 16 < 9)
def dieExists (d : Nat) : Bool := decide (d < 4)

/-- The well-formed instructions and events. -/
def Instr.wellFormed : Instr → Bool
  | .loop _ off => decide (5 ≤ off.toNat ∧ off.toNat < 2 ^ 31)
  | .loopi _ off => decide (5 ≤ off.toNat ∧ off.toNat < 2 ^ 31)
  | .lidx _ n | .lcnt _ n | .lbrk n => decide (n.toNat < 6)
  | .vsetvlz _ _ _ off => fits32 off && decide (off.toNat ≠ 0 ∧ off.toNat ≠ 2)
  | .ldAq scope .. | .stRl scope .. | .fenceS scope => scope != 3
  | .red tag scope _ _ => tag != 0 && scope != 3
  | .bupd tag _ _ => tag != 0
  | .amoScoped op _ scope _ _ _ => decide (op.toNat < 10) && scope != 3
  | .scfg _ _ sid | .swait _ sid | .sresume sid | .sstop sid | .spop _ sid => decide (sid.toNat < 4)
  | .pair g sense a b => !(g == 0 && !sense) && a.wellFormed && b.wellFormed
  | .standardAmo op _ _ _ _ rs2 _ => op != .cas && (op != .lr || rs2 == 0)
  | .fence kind p s =>
    match kind with
    | .fence => true
    | .tso => p == 3 && s == 3
    | .i => p == 0 && s == 0
  | .aluImm op rd rs1 imm =>
    op.shape.fits imm &&
    match op with
    | .slti => rd != 0
    | .sltiu | .slli | .srli => !(rd == 0 && rs1 == 0)
    | _ => true
  | .branch _ _ _ off | .jal _ off => fits32 off
  | .fpOp op fmt _ _ rs2 rs3 rm =>
    (decide (3 ≤ op.sources) || rs3 == 0) && (decide (2 ≤ op.sources) || rs2 == 0) && (op.hasRm || rm == 0) &&
    match op, fmt with
    | .ofS, .s | .ofD, .d | .ofH, .h => false
    | _, _ => true
  | .lgrantWrite sup _ | .laneRequestInterrupt sup => decide (sup < 64)
  | .rejoin party => coreExists party || party == 2048
  | .laneRotation core | .retentionEnter core | .retentionWake core | .spanRead core _ _ _
  | .homeWrite core _ _ => coreExists core
  | .laneRetire core group => coreExists core && decide (group < 8)
  | .laneHoldTimeout h | .haltRequest h | .haltLanding h | .itbudgetExpiry h | .forwardingExpiry h | .handlerStart h
  | .channelClose h _ | .channelHandlerStart h | .watchWake h | .waitTimeout h | .copyComplete h _ | .chainEntryStart h _
  | .matrixOpComplete h | .streamFetch h _ | .texSaComplete h _ | .qpPost h | .sequencerResume h | .endTask h =>
    seqExists h
  | .fhtResponse h _ _ => seqExists h || decide (8192 ≤ h)
  | .pageWalkComplete h _ _ => hartExists h
  | .agentEnable a _ | .agentReset a | .agentTlbinv a | .agentNotify a _ | .qtailReserve a _ | .agentRegisterWrite a _ _
  | .agentNop a | .draw a | .meshletDispatch a | .mdone a _ | .tris a | .path a | .frag a | .cover a | .close a =>
    agentExists a
  | .plimitWrite d _ | .powerControlTick d _ => dieExists d
  | .fhtWrite m => m.is 1 || !m.known
  | .fhtRead m => m.is 2
  | .fhtNotifyStore m => m.is 3 && m.op != 1 && m.op != 2
  | .fhtNotifyFetchAdd m => m.is 3 && m.op == 1
  | .fhtNotifyRed tag m => m.is 3 && m.op == 2 && m.tag == tag.toNat
  | _ => true

end Sys2Proof
end

