-- ==== Sys2Proof/Decode.lean ====
section
/-! DEFINITION. Native decoding (R73, R80 to R88), Lammel decoding (R65 to R67, R85, R86), and the native
encoder. A decoder is total: it answers an instruction and its length, an illegal instruction with the
number of bytes tval holds (R66, R87), or that the bytes end before the instruction does. -/

namespace Sys2Proof

/-- Why an encoding is refused (R87, R66). -/
inductive Reject where
  | unassigned | reservedKind | reservedLength | overlong | wrongFile | badIndex | badImmediate | badMask | tooLong
  | badGuard
deriving DecidableEq, Repr

/-- What a decoder answers. -/
inductive Decoded where
  | ok (i : Instr) (len : Nat)
  | illegal (why : Reject) (tvalBytes : Nat)
  | short
deriving DecidableEq, Repr

/-- Bits lo + n - 1 down to lo of a word. -/
def bits {k : Nat} (w : BitVec k) (lo n : Nat) : BitVec n := w.extractLsb' lo n

/-- The little-endian number of a list of bytes (R1). -/
def leNat : List Byte → Nat
  | [] => 0
  | b :: bs => b.toNat + 256 * leNat bs

/-- The n little-endian bytes of a number (R1). -/
def leBytes : Nat → Nat → List Byte
  | 0, _ => []
  | n + 1, v => BitVec.ofNat 8 v :: leBytes n (v / 256)

/-! ## Standard 32-bit instructions -/

/-- LOAD and the scalar part of LOAD-FP. -/
def loadOf (fp : Bool) (f3 : Nat) : Option LoadOp :=
  match fp, f3 with
  | false, 0 => some .lb | false, 1 => some .lh | false, 2 => some .lw | false, 3 => some .ld
  | false, 4 => some .lbu | false, 5 => some .lhu | false, 6 => some .lwu
  | true, 1 => some .flh | true, 2 => some .flw | true, 3 => some .fld
  | _, _ => none

/-- STORE and the scalar part of STORE-FP. -/
def storeOf (fp : Bool) (f3 : Nat) : Option StoreOp :=
  match fp, f3 with
  | false, 0 => some .sb | false, 1 => some .sh | false, 2 => some .sw | false, 3 => some .sd
  | true, 1 => some .fsh | true, 2 => some .fsw | true, 3 => some .fsd
  | _, _ => none

/-- The vector element width of a load's or store's funct3. -/
def vwidthOf (f3 : Nat) : Option (BitVec 2) :=
  match f3 with
  | 0 => some 0 | 5 => some 1 | 6 => some 2 | 7 => some 3 | _ => none

/-- OP-IMM. The hints of R88 are the forms of slti, sltiu, slli and srli with rd = x0. -/
def decodeOpImm (f3 : Nat) (rd rs1 : Reg) (imm : BitVec 12) : Option Instr :=
  let f6 := (bits imm 6 6).toNat
  let f7 := (bits imm 5 7).toNat
  let sh : BitVec 12 := (bits imm 0 6).setWidth 12
  let one (o : AluImmOp) : Option Instr := some (.aluImm o rd rs1 0)
  let shift (o : AluImmOp) : Option Instr := some (.aluImm o rd rs1 sh)
  match f3 with
  | 0 => some (.aluImm .addi rd rs1 imm)
  | 2 => if rd = 0 then some (.hintPf rs1 imm) else some (.aluImm .slti rd rs1 imm)
  | 3 => if rd = 0 ∧ rs1 = 0 then some (.hintUnroll imm) else some (.aluImm .sltiu rd rs1 imm)
  | 4 => some (.aluImm .xori rd rs1 imm)
  | 6 => some (.aluImm .ori rd rs1 imm)
  | 7 => some (.aluImm .andi rd rs1 imm)
  | 1 =>
    match f6 with
    | 0x00 => if rd = 0 ∧ rs1 = 0 then some (.hintAff (bits imm 0 6)) else shift .slli
    | 0x12 => shift .bclri
    | 0x0A => shift .bseti
    | 0x1A => shift .binvi
    | 0x18 =>
      if f7 = 0x30 then
        match (bits imm 0 5).toNat with
        | 0 => one .clz | 1 => one .ctz | 2 => one .cpop | 4 => one .sextB | 5 => one .sextH | _ => none
      else none
    | _ => none
  | _ =>
    match f6 with
    | 0x00 => if rd = 0 ∧ rs1 = 0 then some (.hintPair (bits imm 0 6)) else shift .srli
    | 0x10 => shift .srai
    | 0x12 => shift .bexti
    | 0x18 => shift .rori
    | _ => if imm = 0x287 then one .orcB else if imm = 0x6B8 then one .rev8 else none

/-- OP-IMM-32. -/
def decodeOpImm32 (f3 : Nat) (rd rs1 : Reg) (imm : BitVec 12) : Option Instr :=
  let f7 := (bits imm 5 7).toNat
  let sh : BitVec 12 := (bits imm 0 6).setWidth 12
  match f3 with
  | 0 => some (.aluImm .addiw rd rs1 imm)
  | 1 =>
    if f7 = 0x00 then some (.aluImm .slliw rd rs1 sh)
    else if bits imm 6 6 = 0x02 then some (.aluImm .slliUw rd rs1 sh)
    else if f7 = 0x30 then
      match (bits imm 0 5).toNat with
      | 0 => some (.aluImm .clzw rd rs1 0) | 1 => some (.aluImm .ctzw rd rs1 0)
      | 2 => some (.aluImm .cpopw rd rs1 0) | _ => none
    else none
  | 5 =>
    if f7 = 0x00 then some (.aluImm .srliw rd rs1 sh)
    else if f7 = 0x20 then some (.aluImm .sraiw rd rs1 (sh &&& 0x1F))
    else if f7 = 0x30 then some (.aluImm .roriw rd rs1 (sh &&& 0x1F))
    else none
  | _ => none

/-- OP: RV64I, M, Zba, Zbb, Zbs and Zicond. -/
def opOf (f7 f3 : Nat) : Option AluOp :=
  match f7, f3 with
  | 0x00, 0 => some .add | 0x00, 1 => some .sll | 0x00, 2 => some .slt | 0x00, 3 => some .sltu
  | 0x00, 4 => some .xor | 0x00, 5 => some .srl | 0x00, 6 => some .or | 0x00, 7 => some .and
  | 0x20, 0 => some .sub | 0x20, 5 => some .sra | 0x20, 4 => some .xnor | 0x20, 6 => some .orn | 0x20, 7 => some .andn
  | 0x01, 0 => some .mul | 0x01, 1 => some .mulh | 0x01, 2 => some .mulhsu | 0x01, 3 => some .mulhu
  | 0x01, 4 => some .div | 0x01, 5 => some .divu | 0x01, 6 => some .rem | 0x01, 7 => some .remu
  | 0x10, 2 => some .sh1add | 0x10, 4 => some .sh2add | 0x10, 6 => some .sh3add
  | 0x07, 5 => some .czeroEqz | 0x07, 7 => some .czeroNez
  | 0x24, 1 => some .bclr | 0x24, 5 => some .bext | 0x34, 1 => some .binv | 0x14, 1 => some .bset
  | 0x05, 4 => some .min | 0x05, 5 => some .minu | 0x05, 6 => some .max | 0x05, 7 => some .maxu
  | 0x30, 1 => some .rol | 0x30, 5 => some .ror
  | _, _ => none

/-- OP-32. -/
def op32Of (f7 f3 : Nat) : Option AluOp :=
  match f7, f3 with
  | 0x00, 0 => some .addw | 0x00, 1 => some .sllw | 0x00, 5 => some .srlw
  | 0x20, 0 => some .subw | 0x20, 5 => some .sraw
  | 0x01, 0 => some .mulw | 0x01, 4 => some .divw | 0x01, 5 => some .divuw | 0x01, 6 => some .remw | 0x01, 7 => some .remuw
  | 0x04, 0 => some .addUw
  | 0x10, 2 => some .sh1addUw | 0x10, 4 => some .sh2addUw | 0x10, 6 => some .sh3addUw
  | 0x30, 1 => some .rolw | 0x30, 5 => some .rorw
  | _, _ => none

/-- AMO funct5. -/
def amoOf (f5 : Nat) : Option AmoOp :=
  match f5 with
  | 0 => some .add | 1 => some .swap | 2 => some .lr | 3 => some .sc | 4 => some .xor | 8 => some .or
  | 12 => some .and | 16 => some .min | 20 => some .max | 24 => some .minu | 28 => some .maxu | _ => none

def branchOf (f3 : Nat) : Option BranchOp :=
  match f3 with
  | 0 => some .beq | 1 => some .bne | 4 => some .blt | 5 => some .bge | 6 => some .bltu | 7 => some .bgeu | _ => none

/-- The format field of OP-FP: 0 S, 1 D, 2 H. -/
def fmtOf (f2 : Nat) : Option FpFmt :=
  match f2 with
  | 0 => some .s | 1 => some .d | 2 => some .h | _ => none

/-- The source format of a float-to-float conversion, by the rs2 field. -/
def fcvtSrc (fmt : FpFmt) (n : Nat) : Option FpOp :=
  match n, fmt with
  | 0, .s => none | 0, _ => some .ofS
  | 1, .d => none | 1, _ => some .ofD
  | 2, .h => none | 2, _ => some .ofH
  | _, _ => none

/-- OP-FP. Forms whose funct3 or rs2 selects the operation carry 0 in the field. -/
def decodeFp (f5 : Nat) (fmt : FpFmt) (rd rs1 rs2 : Reg) (f3 : BitVec 3) : Option Instr :=
  let two (o : FpOp) : Option Instr := some (.fpOp o fmt rd rs1 rs2 0 f3)
  let twoN (o : FpOp) : Option Instr := some (.fpOp o fmt rd rs1 rs2 0 0)
  let one (o : FpOp) : Option Instr := some (.fpOp o fmt rd rs1 0 0 f3)
  let oneN (o : FpOp) : Option Instr := some (.fpOp o fmt rd rs1 0 0 0)
  match f5 with
  | 0 => two .add | 1 => two .sub | 2 => two .mul | 3 => two .div
  | 11 => if rs2 = 0 then one .sqrt else none
  | 4 => match f3.toNat with | 0 => twoN .sgnj | 1 => twoN .sgnjn | 2 => twoN .sgnjx | _ => none
  | 5 => match f3.toNat with | 0 => twoN .min | 1 => twoN .max | _ => none
  | 8 => match fcvtSrc fmt rs2.toNat with | some o => one o | none => none
  | 20 => match f3.toNat with | 0 => twoN .le | 1 => twoN .lt | 2 => twoN .eq | _ => none
  | 24 => match rs2.toNat with | 0 => one .toW | 1 => one .toWu | 2 => one .toL | 3 => one .toLu | _ => none
  | 26 => match rs2.toNat with | 0 => one .ofW | 1 => one .ofWu | 2 => one .ofL | 3 => one .ofLu | _ => none
  | 28 => if rs2 = 0 then (match f3.toNat with | 0 => oneN .mvX | 1 => oneN .cls | _ => none) else none
  | 30 => if rs2 = 0 ∧ f3 = 0 then oneN .mvF else none
  | _ => none

/-- SYSTEM. -/
def decodeSystem (w : BitVec 32) (f3 : Nat) (rd rs1 : Reg) (imm : BitVec 12) : Option Instr :=
  match f3 with
  | 0 =>
    if w = 0x00000073 then some .ecall
    else if w = 0x00100073 then some .ebreak
    else if w = 0x10200073 then some .sret
    else if w = 0x30200073 then some .mret
    else if w = 0x10500073 then some .wfi
    else if bits imm 5 7 = 0x09 ∧ rd = 0 then some (.sfenceVma rs1 (bits imm 0 5))
    else none
  | 1 => some (.csrAccess .rw false rd rs1 imm)
  | 2 => some (.csrAccess .rs false rd rs1 imm)
  | 3 => some (.csrAccess .rc false rd rs1 imm)
  | 5 => some (.csrAccess .rw true rd rs1 imm)
  | 6 => some (.csrAccess .rs true rd rs1 imm)
  | 7 => some (.csrAccess .rc true rd rs1 imm)
  | _ => none

/-- OP-V: configuration settings (funct3 111) and arithmetic, whose assignment VectorArith.lean
checks. -/
def decodeOpV (w : BitVec 32) (f3 : Nat) (rd rs1 rs2 : Reg) : Option Instr :=
  if f3 = 7 then
    if bits w 31 1 = 0 then some (.vsetvli rd rs1 (bits w 20 11))
    else if bits w 30 1 = 1 then some (.vsetivli rd rs1 (bits w 20 10))
    else if bits w 25 7 = 0x40 then some (.vsetvl rd rs1 rs2)
    else none
  else some (.vectorArithmetic (bits w 26 6) (bits w 25 1 = 1) rs2 rs1 (bits w 12 3) rd)

/-! ## Salica opcodes (R81 to R85) -/

/-- custom-0. Fields that a form does not name must be 0 (R87). -/
def decodeC0 (w : BitVec 32) (f3 f7 : Nat) (rd rs1 rs2 : Reg) : Option Instr :=
  let off : Word := 2 * (bits w 20 12).setWidth 64
  match f3 with
  | 0 => if rd = 0 then some (.loop rs1 off) else none
  | 1 => some (.loopi (rd ++ rs1) off)
  | 2 =>
    if rs1 = 0 then
      match f7 with
      | 0 => some (.lidx rd rs2)
      | 1 => some (.lcnt rd rs2)
      | 2 => if rd = 0 then some (.lbrk rs2) else none
      | 3 => if rs2 = 0 then some (.ldepth rd) else none
      | _ => none
    else none
  | 3 =>
    match f7 with
    | 0 => some (.bilv2 rd rs1 rs2) | 1 => some (.bilv3 rd rs1 rs2)
    | 2 => some (.bdlv2 rd rs1 rs2) | 3 => some (.bdlv3 rd rs1 rs2)
    | 4 => some (.clzx rd rs1 rs2) | 5 => some (.fold rd rs1 rs2) | _ => none
  | 4 =>
    match f7 with
    | 0 => if rs2 = 0 then some (.vregcfg rd rs1) else none
    | 1 => if rs2 = 0 ∧ rs1 = 0 ∧ rd = 0 then some .vrelease else none
    | _ => none
  | 5 => some (.vsetvlz rd rs1 (bits w 20 8) (2 * (bits w 28 4).setWidth 64))
  | 6 =>
    match f7 with
    | 0 => if rs2 = 0 ∧ rs1 = 0 ∧ rd = 0 then some .kexit else none
    | 1 => if rs2 = 0 ∧ rs1 = 0 ∧ rd = 0 then some .yield else none
    | 2 => some (.ctxSave rd rs1 rs2) | 3 => some (.ctxLoad rd rs1 rs2) | 4 => some (.migrate rd rs1 rs2)
    | 5 => if rs2 = 0 ∧ rs1 = 0 then some (.erack rd) else none
    | _ => none
  | _ => none

/-- custom-1. -/
def decodeC1 (w : BitVec 32) (f3 f7 : Nat) (rd rs1 rs2 : Reg) : Option Instr :=
  let rs3 : Reg := bits w 27 5
  let scope : BitVec 2 := bits w 27 2
  let width : BitVec 2 := bits w 25 2
  let z0 := rd = 0
  let z1 := rs1 = 0
  let z2 := rs2 = 0
  match f3 with
  | 0 =>
    match (bits w 29 3).toNat with
    | 0 => if z2 then some (.ldAq scope width rd rs1) else none
    | 1 => if z0 then some (.stRl scope width rs2 rs1) else none
    | 2 => if z2 ∧ scope = 0 then some (.ldInv width rd rs1) else none
    | 3 => if z0 ∧ z1 ∧ z2 ∧ width = 0 then some (.fenceS scope) else none
    | 4 =>
      if z0 ∧ z1 ∧ z2 ∧ width = 0 then
        match scope.toNat with | 0 => some .vfenceSv | 1 => some .vfenceVs | 2 => some .vfenceVv | _ => none
      else none
    | _ => none
  | 1 =>
    match width.toNat with
    | 0 => some (.cpG2s rd rs1 rs2 rs3) | 1 => some (.cpS2g rd rs1 rs2 rs3)
    | 2 => some (.cpG2g rd rs1 rs2 rs3) | _ => some (.cp2d rd rs1 rs2 rs3)
  | 2 =>
    match width.toNat with
    | 0 => if z2 ∧ rs3 = 0 then some (.cpMma rd rs1) else none
    | 1 => if rs3 = 0 then some (.cpChain rd rs1 rs2) else none
    | 2 => some (.waitGe rd rs1 rs2 rs3) | _ => some (.waitEq rd rs1 rs2 rs3)
  | 3 =>
    match f7 with
    | 0 => some (.scfg rd rs1 rs2)
    | 1 => if z1 then some (.swait rd rs2) else none
    | 2 => if z0 ∧ z1 then some (.sresume rs2) else none
    | 3 => if z0 ∧ z1 then some (.sstop rs2) else none
    | 4 => some (.tlwait rd rs1 rs2)
    | 5 => if z1 then some (.tlread rd rs2) else none
    | _ => none
  | 4 =>
    let tag : BitVec 4 := bits w 27 4
    if bits w 31 1 = 0 then (if z0 then some (.red tag width rs2 rs1) else none)
    else if z0 ∧ width = 0 then some (.bupd tag rs2 rs1) else none
  | 5 => some (.amoScoped (bits w 28 4) (bits w 27 1 = 1) width rd rs2 rs1)
  | 6 =>
    match f7 with
    | 0 => if z0 ∧ z2 then some (.breckon rs1) else none
    | 1 => if z2 then some (.rodAcq rd rs1) else none
    | 2 => if z0 ∧ z2 then some (.rodRel rs1) else none
    | 3 => some (.bankArm rd rs1 rs2)
    | 4 => if z2 then some (.bankDisarm rd rs1) else none
    | 5 => if z1 ∧ z2 then some (.barWg rd) else none
    | _ => none
  | _ =>
    match f7 with
    | 0 => some (.msend rd rs1 rs2) | 1 => some (.mreply rd rs1 rs2)
    | 2 => if z0 ∧ z1 ∧ z2 then some .hret else none
    | 3 => some (.aqpush rd rs1 rs2) | 4 => some (.launch rd rs1 rs2) | 5 => some (.qsignal rd rs1 rs2)
    | 6 => some (.chsend rd rs1 rs2)
    | 7 => if z2 then some (.chrecv rd rs1) else none
    | 8 => if z0 ∧ z2 then some (.chdone rs1) else none
    | _ => none

/-- custom-2: rd is bits 11:7 (vd, rd or vs3), rs1 bits 19:15, rs2 bits 24:20 (vs2). -/
def decodeC2 (w : BitVec 32) (f3 f6 : Nat) (rd rs1 rs2 : Reg) : Option Instr :=
  let vm : Bool := bits w 25 1 = 1
  let z0 := rd = 0
  let z1 := rs1 = 0
  let z2 := rs2 = 0
  match f3 with
  | 0 =>
    match f6 with
    | 0 => if vm ∧ z0 ∧ z2 then some (.vmpush rs1) else none
    | 1 => if vm ∧ z0 ∧ z1 ∧ z2 then some .vmelse else none
    | 2 => if vm ∧ z0 ∧ z1 ∧ z2 then some .vmpop else none
    | 3 => if vm ∧ z1 ∧ z2 then some (.vmdepth rd) else none
    | 4 => some (.vidxc vm rs1 rd rs2)
    | _ => none
  | 1 =>
    match f6 with
    | 0 => some (.vfcvtE2 vm rd rs2 rs1) | 1 => some (.vfcvtE4 vm rd rs2 rs1) | 2 => some (.vmxscale vm rd rs2 rs1)
    | 3 => some (.vfwcvtE2 vm rd rs2 rs1) | 4 => some (.vfwcvtE4 vm rd rs2 rs1) | 5 => some (.vfwcvtE5 vm rd rs2 rs1)
    | 6 => some (.vfcvtE5 vm rd rs2 rs1)
    | 16 => some (.vwmulxE8 vm rd rs2 rs1) | 17 => some (.vwmulxE16 vm rd rs2 rs1)
    | 18 => some (.vwmulxE32 vm rd rs2 rs1) | 19 => some (.vwmulxE64 vm rd rs2 rs1)
    | _ => none
  | 2 =>
    match f6 with
    | 0 => if z2 then some (.vle8Inv vm rd rs1) else none
    | 1 => if z2 then some (.vle16Inv vm rd rs1) else none
    | 2 => if z2 then some (.vle32Inv vm rd rs1) else none
    | 3 => if z2 then some (.vle64Inv vm rd rs1) else none
    | 4 => some (.vsmx vm rd rs1 rs2)
    | 5 => if vm ∧ z2 then some (.spop rd rs1) else none
    | 6 => some (.vwait vm rd rs2 rs1)
    | 7 => some (.msendv vm rd rs2 rs1)
    | _ => none
  | 3 =>
    match f6 with
    | 0 => some (.edge vm rd rs2 rs1) | 1 => some (.texdec vm rd rs2 rs1) | 2 => some (.texw vm rd rs2 rs1)
    | 3 => some (.texS vm rd rs2 rs1) | 4 => some (.texSa vm rd rs2 rs1) | 5 => some (.boxt vm rd rs2 rs1)
    | 6 => some (.trit vm rd rs2 rs1)
    | _ => none
  | _ => none

/-- custom-3 (R83): f7 is funct7 gathered from its three fields. -/
def decodeC3 (w : BitVec 32) : Option Instr :=
  let acc : BitVec 2 := bits w 7 2
  let rs1 : Reg := bits w 15 5
  let rs2 : Reg := bits w 20 5
  let rs3 : Reg := bits w 27 5
  let f7 : BitVec 7 := bits w 10 2 ++ bits w 12 3 ++ bits w 25 2
  if bits w 9 1 = 1 then none
  else
    match f7.toNat with
    | 0x00 => some (.mmaE4e4 acc rs1 rs2 rs3) | 0x01 => some (.mmaE4e5 acc rs1 rs2 rs3)
    | 0x02 => some (.mmaE5e4 acc rs1 rs2 rs3) | 0x03 => some (.mmaE5e5 acc rs1 rs2 rs3)
    | 0x04 => some (.mmaE2e2 acc rs1 rs2 rs3) | 0x05 => some (.mmaE2e4 acc rs1 rs2 rs3)
    | 0x06 => some (.mmaE4e2 acc rs1 rs2 rs3) | 0x08 => some (.mmaI8i8 acc rs1 rs2 rs3)
    | 0x10 => if rs3 = 0 then some (.mmaBfbf acc rs1 rs2) else none
    | 0x11 => if rs3 = 0 then some (.mmaHfhf acc rs1 rs2) else none
    | 0x18 => if rs3 = 0 then some (.mmaDfdf acc rs1 rs2) else none
    | 0x40 => if rs2 = 0 ∧ acc = 0 then some (.mcfg rs3 rs1) else none
    | 0x41 => if rs1 = 0 ∧ rs2 = 0 ∧ rs3 = 0 then some (.mzero acc) else none
    | 0x42 => if rs3 = 0 then some (.mload acc rs1 rs2) else none
    | 0x43 => if rs1 = 0 ∧ acc = 0 then some (.merr rs3 rs2) else none
    | 0x48 => if rs3 = 0 then some (.mstF32 acc rs1 rs2) else none
    | 0x49 => if rs3 = 0 then some (.mstBf16 acc rs1 rs2) else none
    | 0x4A => if rs3 = 0 then some (.mstF16 acc rs1 rs2) else none
    | 0x4B => if rs3 = 0 then some (.mstI32 acc rs1 rs2) else none
    | 0x4C => some (.mstE4m3 acc rs1 rs2 rs3)
    | 0x4D => some (.mstE5m2 acc rs1 rs2 rs3)
    | _ => none

/-- A 32-bit encoding (R80 to R85). -/
def decode32 (w : BitVec 32) : Option Instr :=
  let rd : Reg := bits w 7 5
  let f3b : BitVec 3 := bits w 12 3
  let f3 := f3b.toNat
  let rs1 : Reg := bits w 15 5
  let rs2 : Reg := bits w 20 5
  let f7 := (bits w 25 7).toNat
  let imm : BitVec 12 := bits w 20 12
  let simm : BitVec 12 := bits w 25 7 ++ rd
  let vm : Bool := bits w 25 1 = 1
  match (bits w 0 7).toNat with
  | 0x03 => (loadOf false f3).map fun o => .scalarLoad o rd rs1 imm
  | 0x07 =>
    match loadOf true f3 with
    | some o => some (.scalarLoad o rd rs1 imm)
    | none =>
      match vwidthOf f3 with
      | some vw => if bits w 28 1 = 0 then some (.vectorLoad (bits w 29 3) (bits w 26 2) vm rs2 rs1 vw rd) else none
      | none => none
  | 0x0B => decodeC0 w f3 f7 rd rs1 rs2
  | 0x0F =>
    match f3 with
    | 0 =>
      if bits w 28 4 = 8 ∧ bits w 24 4 = 3 ∧ rs2 &&& 0xF = 3 then some (.fence .tso 3 3)
      else some (.fence .fence (bits w 24 4) (bits w 20 4))
    | 1 => some (.fence .i 0 0)
    | _ => none
  | 0x13 => decodeOpImm f3 rd rs1 imm
  | 0x17 => some (.auipc rd (bits w 12 20))
  | 0x1B => decodeOpImm32 f3 rd rs1 imm
  | 0x23 => (storeOf false f3).map fun o => .scalarStore o rs2 rs1 simm
  | 0x27 =>
    match storeOf true f3 with
    | some o => some (.scalarStore o rs2 rs1 simm)
    | none =>
      match vwidthOf f3 with
      | some vw => if bits w 28 1 = 0 then some (.vectorStore (bits w 29 3) (bits w 26 2) vm rs2 rs1 vw rd) else none
      | none => none
  | 0x2B => decodeC1 w f3 f7 rd rs1 rs2
  | 0x2F =>
    if f3 = 2 ∨ f3 = 3 then
      match amoOf (bits w 27 5).toNat with
      | some .lr => if rs2 = 0 then some (.standardAmo .lr (f3 = 3) (bits w 26 1 = 1) (bits w 25 1 = 1) rd rs2 rs1) else none
      | some o => some (.standardAmo o (f3 = 3) (bits w 26 1 = 1) (bits w 25 1 = 1) rd rs2 rs1)
      | none => none
    else none
  | 0x33 => (opOf f7 f3).map fun o => .alu o rd rs1 rs2
  | 0x37 => some (.lui rd (bits w 12 20))
  | 0x3B =>
    if f7 = 0x04 ∧ f3 = 4 ∧ rs2 = 0 then some (.aluImm .zextH rd rs1 0)
    else (op32Of f7 f3).map fun o => .alu o rd rs1 rs2
  | 0x43 => (fmtOf (bits w 25 2).toNat).map fun f => .fpOp .madd f rd rs1 rs2 (bits w 27 5) f3b
  | 0x47 => (fmtOf (bits w 25 2).toNat).map fun f => .fpOp .msub f rd rs1 rs2 (bits w 27 5) f3b
  | 0x4B => (fmtOf (bits w 25 2).toNat).map fun f => .fpOp .nmsub f rd rs1 rs2 (bits w 27 5) f3b
  | 0x4F => (fmtOf (bits w 25 2).toNat).map fun f => .fpOp .nmadd f rd rs1 rs2 (bits w 27 5) f3b
  | 0x53 =>
    match fmtOf (bits w 25 2).toNat with
    | some f => decodeFp (bits w 27 5).toNat f rd rs1 rs2 f3b
    | none => none
  | 0x57 => decodeOpV w f3 rd rs1 rs2
  | 0x5B => decodeC2 w f3 (bits w 26 6).toNat rd rs1 rs2
  | 0x63 =>
    (branchOf f3).map fun o =>
      .branch o rs1 rs2 ((bits w 31 1 ++ bits w 7 1 ++ bits w 25 6 ++ bits w 8 4 ++ (0 : BitVec 1)).signExtend 64)
  | 0x67 => if f3 = 0 then some (.jalr rd rs1 imm) else none
  | 0x6F =>
    some (.jal rd ((bits w 31 1 ++ bits w 12 8 ++ bits w 20 1 ++ bits w 21 10 ++ (0 : BitVec 1)).signExtend 64))
  | 0x73 => decodeSystem w f3 rd rs1 imm
  | 0x7B => decodeC3 w
  | _ => none

/-! ## Compressed instructions (R73, C: the RV64 set) -/

/-- The register of a 3-bit field. -/
def creg (r : BitVec 3) : Reg := (1 : BitVec 2) ++ r

/-- A 16-bit encoding, expanded; none where it is reserved. -/
def decode16 (h : BitVec 16) : Option Instr :=
  let rd : Reg := bits h 7 5
  let rs2 : Reg := bits h 2 5
  let rd' := creg (bits h 2 3)
  let rs1' := creg (bits h 7 3)
  let imm6 : BitVec 6 := bits h 12 1 ++ bits h 2 5
  let i12 : BitVec 12 := imm6.signExtend 12
  let offW : BitVec 12 := (bits h 5 1 ++ bits h 10 3 ++ bits h 6 1 ++ (0 : BitVec 2)).setWidth 12
  let offD : BitVec 12 := (bits h 5 2 ++ bits h 10 3 ++ (0 : BitVec 3)).setWidth 12
  let spD : BitVec 12 := (bits h 2 3 ++ bits h 12 1 ++ bits h 5 2 ++ (0 : BitVec 3)).setWidth 12
  let spW : BitVec 12 := (bits h 2 2 ++ bits h 12 1 ++ bits h 4 3 ++ (0 : BitVec 2)).setWidth 12
  let spSD : BitVec 12 := (bits h 7 3 ++ bits h 10 3 ++ (0 : BitVec 3)).setWidth 12
  let spSW : BitVec 12 := (bits h 7 2 ++ bits h 9 4 ++ (0 : BitVec 2)).setWidth 12
  let jOff : Word :=
    (bits h 12 1 ++ bits h 8 1 ++ bits h 9 2 ++ bits h 6 1 ++ bits h 7 1 ++ bits h 2 1 ++ bits h 11 1 ++ bits h 3 3
      ++ (0 : BitVec 1)).signExtend 64
  let bOff : Word :=
    (bits h 12 1 ++ bits h 5 2 ++ bits h 2 1 ++ bits h 10 2 ++ bits h 3 2 ++ (0 : BitVec 1)).signExtend 64
  let sh : BitVec 12 := imm6.setWidth 12
  match (bits h 0 2).toNat, (bits h 13 3).toNat with
  | 0, 0 =>
    let imm : BitVec 12 := (bits h 7 4 ++ bits h 11 2 ++ bits h 5 1 ++ bits h 6 1 ++ (0 : BitVec 2)).setWidth 12
    if imm = 0 then none else some (.aluImm .addi rd' 2 imm)
  | 0, 1 => some (.scalarLoad .fld rd' rs1' offD)
  | 0, 2 => some (.scalarLoad .lw rd' rs1' offW)
  | 0, 3 => some (.scalarLoad .ld rd' rs1' offD)
  | 0, 5 => some (.scalarStore .fsd rd' rs1' offD)
  | 0, 6 => some (.scalarStore .sw rd' rs1' offW)
  | 0, 7 => some (.scalarStore .sd rd' rs1' offD)
  | 1, 0 => some (.aluImm .addi rd rd i12)
  | 1, 1 => if rd = 0 then none else some (.aluImm .addiw rd rd i12)
  | 1, 2 => some (.aluImm .addi rd 0 i12)
  | 1, 3 =>
    if rd = 2 then
      let imm : BitVec 12 :=
        (bits h 12 1 ++ bits h 3 2 ++ bits h 5 1 ++ bits h 2 1 ++ bits h 6 1 ++ (0 : BitVec 4)).signExtend 12
      if imm = 0 then none else some (.aluImm .addi 2 2 imm)
    else if imm6 = 0 then none else some (.lui rd (imm6.signExtend 20))
  | 1, 4 =>
    match (bits h 10 2).toNat with
    | 0 => some (.aluImm .srli rs1' rs1' sh)
    | 1 => some (.aluImm .srai rs1' rs1' sh)
    | 2 => some (.aluImm .andi rs1' rs1' i12)
    | _ =>
      match (bits h 12 1).toNat, (bits h 5 2).toNat with
      | 0, 0 => some (.alu .sub rs1' rs1' rd') | 0, 1 => some (.alu .xor rs1' rs1' rd')
      | 0, 2 => some (.alu .or rs1' rs1' rd') | 0, 3 => some (.alu .and rs1' rs1' rd')
      | 1, 0 => some (.alu .subw rs1' rs1' rd') | 1, 1 => some (.alu .addw rs1' rs1' rd')
      | _, _ => none
  | 1, 5 => some (.jal 0 jOff)
  | 1, 6 => some (.branch .beq rs1' 0 bOff)
  | 1, 7 => some (.branch .bne rs1' 0 bOff)
  | 2, 0 => if rd = 0 then some (.hintAff imm6) else some (.aluImm .slli rd rd sh)
  | 2, 1 => some (.scalarLoad .fld rd 2 spD)
  | 2, 2 => if rd = 0 then none else some (.scalarLoad .lw rd 2 spW)
  | 2, 3 => if rd = 0 then none else some (.scalarLoad .ld rd 2 spD)
  | 2, 4 =>
    if bits h 12 1 = 0 then
      if rs2 = 0 then (if rd = 0 then none else some (.jalr 0 rd 0)) else some (.alu .add rd 0 rs2)
    else if rs2 = 0 then (if rd = 0 then some .ebreak else some (.jalr 1 rd 0)) else some (.alu .add rd rd rs2)
  | 2, 5 => some (.scalarStore .fsd rs2 2 spSD)
  | 2, 6 => some (.scalarStore .sw rs2 2 spSW)
  | 2, 7 => some (.scalarStore .sd rs2 2 spSD)
  | _, _ => none

/-! ## The pair word (R84, R99) -/

/-- May this expanded compressed instruction be a scalar member (R99)? -/
def scalarMemberOk : Instr → Bool
  | .jal .. | .jalr .. | .branch .. | .ebreak => false
  | _ => true

/-- May this instruction be a vector member: OP-V but vset*, a vector load or store, or custom-2 (R84, R99)? -/
def vectorMemberOk : Instr → Bool
  | .vectorLoad .. | .vectorStore .. | .vectorArithmetic ..
  | .vmpush .. | .vmelse | .vmpop | .vmdepth .. | .vidxc .. | .vfcvtE2 .. | .vfcvtE4 .. | .vmxscale .. | .vfwcvtE2 ..
  | .vfwcvtE4 .. | .vfwcvtE5 .. | .vfcvtE5 .. | .vwmulxE8 .. | .vwmulxE16 .. | .vwmulxE32 .. | .vwmulxE64 ..
  | .vle8Inv .. | .vle16Inv .. | .vle32Inv .. | .vle64Inv .. | .vsmx .. | .spop .. | .vwait .. | .msendv ..
  | .edge .. | .texdec .. | .texw .. | .texS .. | .texSa .. | .boxt .. | .trit .. => true
  | _ => false

/-- Puts a pair together, refusing what R99 refuses by its members' form and its guard. -/
def mkPair (g : Reg) (s : Bool) (sc ve : Option Instr) : Option Instr :=
  match sc, ve with
  | some a, some b =>
    if (g = 0 ∧ s = false) ∨ scalarMemberOk a = false ∨ vectorMemberOk b = false then none else some (.pair g s a b)
  | _, _ => none

/-- The scalar member of a native pair: a 16-bit encoding. -/
def decodeMember16 (h : BitVec 16) : Option Instr := if bits h 0 2 = 3 then none else decode16 h

/-- A pair word. -/
def decodePair (w : BitVec 64) : Option Instr :=
  mkPair (bits w 7 5) (bits w 15 1 = 1) (decodeMember16 (bits w 16 16)) (decode32 (bits w 32 32))

/-- A native instruction at the head of a list of bytes (R80, R84, R87). An encoding of 80 bits or more has 80 + 16 * nnn bits, nnn in its bits 14:12 (the
standard's length rule; log 6), and needs them all. -/
def decodeNative (bs : List Byte) : Decoded :=
  if bs.length < 2 then .short
  else
    let h : BitVec 16 := BitVec.ofNat 16 (leNat (bs.take 2))
    if bits h 0 2 ≠ 3 then
      match decode16 h with | some i => .ok i 2 | none => .illegal .unassigned 2
    else if bits h 2 3 ≠ 7 then
      if bs.length < 4 then .short
      else
        match decode32 (BitVec.ofNat 32 (leNat (bs.take 4))) with
        | some i => .ok i 4 | none => .illegal .unassigned 4
    else if bits h 5 1 = 0 then
      if bs.length < 6 then .short else .illegal .reservedLength 6
    else if bs.length < 8 then .short
    else if bits h 6 1 = 0 then
      if bits h 12 3 = 0 then
        match decodePair (BitVec.ofNat 64 (leNat (bs.take 8))) with
        | some i => .ok i 8 | none => .illegal .unassigned 8
      else .illegal .reservedKind 8
    else if bs.length < 10 + 2 * (bits h 12 3).toNat then .short
    else .illegal .reservedLength 8

/-- The decoder on an opcode-table word: its bytes as the hardware stores them (R1), zeros above. -/
def decodeTableWord (nbits w : Nat) : Option Instr :=
  match decodeNative (leBytes (max 8 (nbits / 8)) (w % 2 ^ nbits)) with
  | .ok i _ => some i
  | _ => none

/-! ## The native encoder (R80 to R85, R73) -/

/-- Type R. -/
def encR (f7 : BitVec 7) (rs2 rs1 : Reg) (f3 : BitVec 3) (rd : Reg) (op : BitVec 7) : BitVec 32 :=
  f7 ++ rs2 ++ rs1 ++ f3 ++ rd ++ op

/-- Type I. -/
def encI (imm : BitVec 12) (rs1 : Reg) (f3 : BitVec 3) (rd : Reg) (op : BitVec 7) : BitVec 32 :=
  imm ++ rs1 ++ f3 ++ rd ++ op

/-- Type S. -/
def encS (imm : BitVec 12) (rs2 rs1 : Reg) (f3 : BitVec 3) (op : BitVec 7) : BitVec 32 :=
  bits imm 5 7 ++ rs2 ++ rs1 ++ f3 ++ bits imm 0 5 ++ op

/-- Type Q. -/
def encQ (rs3 : Reg) (f2 : BitVec 2) (rs2 rs1 : Reg) (f3 : BitVec 3) (rd : Reg) (op : BitVec 7) : BitVec 32 :=
  rs3 ++ f2 ++ rs2 ++ rs1 ++ f3 ++ rd ++ op

/-- The OP-V layout. -/
def encV (f6 : BitVec 6) (vm : Bool) (vs2 vs1 : Reg) (f3 : BitVec 3) (vd : Reg) (op : BitVec 7) : BitVec 32 :=
  f6 ++ BitVec.ofBool vm ++ vs2 ++ vs1 ++ f3 ++ vd ++ op

/-- custom-3 (R83). -/
def encC3 (f7 : BitVec 7) (rs3 rs2 rs1 : Reg) (acc : BitVec 2) : BitVec 32 :=
  rs3 ++ bits f7 0 2 ++ rs2 ++ rs1 ++ bits f7 2 3 ++ bits f7 5 2 ++ (0 : BitVec 1) ++ acc ++ (0x7B : BitVec 7)

def LoadOp.enc : LoadOp → BitVec 3 × BitVec 7
  | .lb => (0, 0x03) | .lh => (1, 0x03) | .lw => (2, 0x03) | .ld => (3, 0x03) | .lbu => (4, 0x03) | .lhu => (5, 0x03)
  | .lwu => (6, 0x03) | .flh => (1, 0x07) | .flw => (2, 0x07) | .fld => (3, 0x07)

def StoreOp.enc : StoreOp → BitVec 3 × BitVec 7
  | .sb => (0, 0x23) | .sh => (1, 0x23) | .sw => (2, 0x23) | .sd => (3, 0x23)
  | .fsh => (1, 0x27) | .fsw => (2, 0x27) | .fsd => (3, 0x27)

def AluOp.enc : AluOp → BitVec 7 × BitVec 3 × BitVec 7
  | .add => (0, 0, 0x33) | .sub => (0x20, 0, 0x33) | .sll => (0, 1, 0x33) | .slt => (0, 2, 0x33) | .sltu => (0, 3, 0x33)
  | .xor => (0, 4, 0x33) | .srl => (0, 5, 0x33) | .sra => (0x20, 5, 0x33) | .or => (0, 6, 0x33) | .and => (0, 7, 0x33)
  | .addw => (0, 0, 0x3B) | .subw => (0x20, 0, 0x3B) | .sllw => (0, 1, 0x3B) | .srlw => (0, 5, 0x3B)
  | .sraw => (0x20, 5, 0x3B)
  | .mul => (1, 0, 0x33) | .mulh => (1, 1, 0x33) | .mulhsu => (1, 2, 0x33) | .mulhu => (1, 3, 0x33)
  | .div => (1, 4, 0x33) | .divu => (1, 5, 0x33) | .rem => (1, 6, 0x33) | .remu => (1, 7, 0x33)
  | .mulw => (1, 0, 0x3B) | .divw => (1, 4, 0x3B) | .divuw => (1, 5, 0x3B) | .remw => (1, 6, 0x3B) | .remuw => (1, 7, 0x3B)
  | .addUw => (4, 0, 0x3B) | .sh1add => (0x10, 2, 0x33) | .sh1addUw => (0x10, 2, 0x3B) | .sh2add => (0x10, 4, 0x33)
  | .sh2addUw => (0x10, 4, 0x3B) | .sh3add => (0x10, 6, 0x33) | .sh3addUw => (0x10, 6, 0x3B)
  | .czeroEqz => (7, 5, 0x33) | .czeroNez => (7, 7, 0x33)
  | .bclr => (0x24, 1, 0x33) | .bext => (0x24, 5, 0x33) | .binv => (0x34, 1, 0x33) | .bset => (0x14, 1, 0x33)
  | .andn => (0x20, 7, 0x33) | .orn => (0x20, 6, 0x33) | .xnor => (0x20, 4, 0x33) | .max => (5, 6, 0x33)
  | .maxu => (5, 7, 0x33) | .min => (5, 4, 0x33) | .minu => (5, 5, 0x33) | .rol => (0x30, 1, 0x33) | .rolw => (0x30, 1, 0x3B)
  | .ror => (0x30, 5, 0x33) | .rorw => (0x30, 5, 0x3B)

/-- The fixed part of the immediate field, funct3 and the opcode. -/
def AluImmOp.enc : AluImmOp → BitVec 12 × BitVec 3 × BitVec 7
  | .addi => (0, 0, 0x13) | .slti => (0, 2, 0x13) | .sltiu => (0, 3, 0x13) | .xori => (0, 4, 0x13) | .ori => (0, 6, 0x13)
  | .andi => (0, 7, 0x13) | .slli => (0, 1, 0x13) | .srli => (0, 5, 0x13) | .srai => (0x400, 5, 0x13)
  | .addiw => (0, 0, 0x1B) | .slliw => (0, 1, 0x1B) | .srliw => (0, 5, 0x1B) | .sraiw => (0x400, 5, 0x1B)
  | .slliUw => (0x080, 1, 0x1B) | .bclri => (0x480, 1, 0x13) | .bexti => (0x480, 5, 0x13) | .binvi => (0x680, 1, 0x13)
  | .bseti => (0x280, 1, 0x13) | .rori => (0x600, 5, 0x13) | .roriw => (0x600, 5, 0x1B)
  | .clz => (0x600, 1, 0x13) | .clzw => (0x600, 1, 0x1B) | .ctz => (0x601, 1, 0x13) | .ctzw => (0x601, 1, 0x1B)
  | .cpop => (0x602, 1, 0x13) | .cpopw => (0x602, 1, 0x1B) | .sextB => (0x604, 1, 0x13) | .sextH => (0x605, 1, 0x13)
  | .zextH => (0x080, 4, 0x3B) | .orcB => (0x287, 5, 0x13) | .rev8 => (0x6B8, 5, 0x13)

def AmoOp.enc : AmoOp → BitVec 5
  | .add => 0 | .swap => 1 | .lr => 2 | .sc => 3 | .xor => 4 | .or => 8 | .and => 12 | .min => 16 | .max => 20
  | .minu => 24 | .maxu => 28 | .cas => 5

def BranchOp.enc : BranchOp → BitVec 3
  | .beq => 0 | .bne => 1 | .blt => 4 | .bge => 5 | .bltu => 6 | .bgeu => 7

def FpFmt.enc : FpFmt → BitVec 2
  | .s => 0 | .d => 1 | .h => 2

def CsrOp.enc : CsrOp → BitVec 3
  | .rw => 1 | .rs => 2 | .rc => 3

/-- A vector load's or store's funct3. -/
def vwidthEnc (w : BitVec 2) : BitVec 3 := if w = 0 then 0 else (4 : BitVec 3) + w.setWidth 3

/-- The selector of an OP-FP operation: funct5, the fixed rs2 and the fixed funct3, where there are such. -/
def FpOp.enc : FpOp → BitVec 5 × Option Reg × Option (BitVec 3)
  | .add => (0, none, none) | .sub => (1, none, none) | .mul => (2, none, none) | .div => (3, none, none)
  | .sqrt => (11, some 0, none)
  | .sgnj => (4, none, some 0) | .sgnjn => (4, none, some 1) | .sgnjx => (4, none, some 2)
  | .min => (5, none, some 0) | .max => (5, none, some 1)
  | .eq => (20, none, some 2) | .lt => (20, none, some 1) | .le => (20, none, some 0)
  | .cls => (28, some 0, some 1) | .mvX => (28, some 0, some 0) | .mvF => (30, some 0, some 0)
  | .toW => (24, some 0, none) | .toWu => (24, some 1, none) | .toL => (24, some 2, none) | .toLu => (24, some 3, none)
  | .ofW => (26, some 0, none) | .ofWu => (26, some 1, none) | .ofL => (26, some 2, none) | .ofLu => (26, some 3, none)
  | .ofS => (8, some 0, none) | .ofD => (8, some 1, none) | .ofH => (8, some 2, none)
  | .madd | .msub | .nmsub | .nmadd => (0, none, none)

def FpOp.encode (op : FpOp) (fmt : FpFmt) (rd rs1 rs2 rs3 : Reg) (rm : BitVec 3) : BitVec 32 :=
  match op with
  | .madd => encQ rs3 fmt.enc rs2 rs1 rm rd 0x43
  | .msub => encQ rs3 fmt.enc rs2 rs1 rm rd 0x47
  | .nmsub => encQ rs3 fmt.enc rs2 rs1 rm rd 0x4B
  | .nmadd => encQ rs3 fmt.enc rs2 rs1 rm rd 0x4F
  | _ => encQ op.enc.1 fmt.enc (op.enc.2.1.getD rs2) rs1 (op.enc.2.2.getD rm) rd 0x53

/-- Type B, of a signed byte offset. -/
def encB (off : BitVec 13) (rs2 rs1 : Reg) (f3 : BitVec 3) : BitVec 32 :=
  bits off 12 1 ++ bits off 5 6 ++ rs2 ++ rs1 ++ f3 ++ bits off 1 4 ++ bits off 11 1 ++ (0x63 : BitVec 7)

/-- Type J, of a signed byte offset. -/
def encJ (off : BitVec 21) (rd : Reg) : BitVec 32 :=
  bits off 20 1 ++ bits off 1 10 ++ bits off 11 1 ++ bits off 12 8 ++ rd ++ (0x6F : BitVec 7)

/-- A byte distance as a halfword immediate of n bits, where it is one (R82, R93, R115). -/
def halfImm (n : Nat) (off : Word) : Option (BitVec n) :=
  if 2 * (bits off 1 n).setWidth 64 = off then some (bits off 1 n) else none

/-- The 32-bit word of an instruction, where it has one. -/
def encode32 : Instr → Option (BitVec 32)
  | .loop rs1 off => (halfImm 12 off).map fun i => encI i rs1 0 0 0x0B
  | .loopi c off => (halfImm 12 off).map fun i => encI i (bits c 0 5) 1 (bits c 5 5) 0x0B
  | .lidx rd n => some (encR 0 n 0 2 rd 0x0B)
  | .lcnt rd n => some (encR 1 n 0 2 rd 0x0B)
  | .lbrk n => some (encR 2 n 0 2 0 0x0B)
  | .ldepth rd => some (encR 3 0 0 2 rd 0x0B)
  | .bilv2 rd a b => some (encR 0 b a 3 rd 0x0B)
  | .bilv3 rd a b => some (encR 1 b a 3 rd 0x0B)
  | .bdlv2 rd a b => some (encR 2 b a 3 rd 0x0B)
  | .bdlv3 rd a b => some (encR 3 b a 3 rd 0x0B)
  | .clzx rd a b => some (encR 4 b a 3 rd 0x0B)
  | .fold rd a b => some (encR 5 b a 3 rd 0x0B)
  | .vregcfg rd a => some (encR 0 0 a 4 rd 0x0B)
  | .vrelease => some (encR 1 0 0 4 0 0x0B)
  | .vsetvlz rd a vt off => (halfImm 4 off).map fun o => encI (o ++ vt) a 5 rd 0x0B
  | .kexit => some (encR 0 0 0 6 0 0x0B)
  | .yield => some (encR 1 0 0 6 0 0x0B)
  | .ctxSave rd a b => some (encR 2 b a 6 rd 0x0B)
  | .ctxLoad rd a b => some (encR 3 b a 6 rd 0x0B)
  | .migrate rd a b => some (encR 4 b a 6 rd 0x0B)
  | .erack rd => some (encR 5 0 0 6 rd 0x0B)
  | .ldAq s w rd a => some (encR ((0 : BitVec 3) ++ s ++ w) 0 a 0 rd 0x2B)
  | .stRl s w b a => some (encR ((1 : BitVec 3) ++ s ++ w) b a 0 0 0x2B)
  | .ldInv w rd a => some (encR ((8 : BitVec 5) ++ w) 0 a 0 rd 0x2B)
  | .fenceS s => some (encR ((3 : BitVec 3) ++ s ++ (0 : BitVec 2)) 0 0 0 0 0x2B)
  | .vfenceSv => some (encR 0x40 0 0 0 0 0x2B)
  | .vfenceVs => some (encR 0x44 0 0 0 0 0x2B)
  | .vfenceVv => some (encR 0x48 0 0 0 0 0x2B)
  | .cpG2s rd a b c => some (encQ c 0 b a 1 rd 0x2B)
  | .cpS2g rd a b c => some (encQ c 1 b a 1 rd 0x2B)
  | .cpG2g rd a b c => some (encQ c 2 b a 1 rd 0x2B)
  | .cp2d rd a b c => some (encQ c 3 b a 1 rd 0x2B)
  | .cpMma rd a => some (encQ 0 0 0 a 2 rd 0x2B)
  | .cpChain rd a b => some (encQ 0 1 b a 2 rd 0x2B)
  | .waitGe rd a b c => some (encQ c 2 b a 2 rd 0x2B)
  | .waitEq rd a b c => some (encQ c 3 b a 2 rd 0x2B)
  | .scfg rd a n => some (encR 0 n a 3 rd 0x2B)
  | .swait rd n => some (encR 1 n 0 3 rd 0x2B)
  | .sresume n => some (encR 2 n 0 3 0 0x2B)
  | .sstop n => some (encR 3 n 0 3 0 0x2B)
  | .tlwait rd a n => some (encR 4 n a 3 rd 0x2B)
  | .tlread rd n => some (encR 5 n 0 3 rd 0x2B)
  | .red t s b a => some (encR ((0 : BitVec 1) ++ t ++ s) b a 4 0 0x2B)
  | .bupd t b a => some (encR ((1 : BitVec 1) ++ t ++ (0 : BitVec 2)) b a 4 0 0x2B)
  | .amoScoped op d s rd b a => some (encR (op ++ BitVec.ofBool d ++ s) b a 5 rd 0x2B)
  | .breckon a => some (encR 0 0 a 6 0 0x2B)
  | .rodAcq rd a => some (encR 1 0 a 6 rd 0x2B)
  | .rodRel a => some (encR 2 0 a 6 0 0x2B)
  | .bankArm rd a b => some (encR 3 b a 6 rd 0x2B)
  | .bankDisarm rd a => some (encR 4 0 a 6 rd 0x2B)
  | .barWg rd => some (encR 5 0 0 6 rd 0x2B)
  | .msend rd a b => some (encR 0 b a 7 rd 0x2B)
  | .mreply rd a b => some (encR 1 b a 7 rd 0x2B)
  | .hret => some (encR 2 0 0 7 0 0x2B)
  | .aqpush rd a b => some (encR 3 b a 7 rd 0x2B)
  | .launch rd a b => some (encR 4 b a 7 rd 0x2B)
  | .qsignal rd a b => some (encR 5 b a 7 rd 0x2B)
  | .chsend rd a b => some (encR 6 b a 7 rd 0x2B)
  | .chrecv rd a => some (encR 7 0 a 7 rd 0x2B)
  | .chdone a => some (encR 8 0 a 7 0 0x2B)
  | .vmpush a => some (encV 0 true 0 a 0 0 0x5B)
  | .vmelse => some (encV 1 true 0 0 0 0 0x5B)
  | .vmpop => some (encV 2 true 0 0 0 0 0x5B)
  | .vmdepth rd => some (encV 3 true 0 0 0 rd 0x5B)
  | .vidxc vm rd vd b => some (encV 4 vm b rd 0 vd 0x5B)
  | .vfcvtE2 vm d b a => some (encV 0 vm b a 1 d 0x5B)
  | .vfcvtE4 vm d b a => some (encV 1 vm b a 1 d 0x5B)
  | .vmxscale vm d b a => some (encV 2 vm b a 1 d 0x5B)
  | .vfwcvtE2 vm d b a => some (encV 3 vm b a 1 d 0x5B)
  | .vfwcvtE4 vm d b a => some (encV 4 vm b a 1 d 0x5B)
  | .vfwcvtE5 vm d b a => some (encV 5 vm b a 1 d 0x5B)
  | .vfcvtE5 vm d b a => some (encV 6 vm b a 1 d 0x5B)
  | .vwmulxE8 vm d b a => some (encV 16 vm b a 1 d 0x5B)
  | .vwmulxE16 vm d b a => some (encV 17 vm b a 1 d 0x5B)
  | .vwmulxE32 vm d b a => some (encV 18 vm b a 1 d 0x5B)
  | .vwmulxE64 vm d b a => some (encV 19 vm b a 1 d 0x5B)
  | .vle8Inv vm d a => some (encV 0 vm 0 a 2 d 0x5B)
  | .vle16Inv vm d a => some (encV 1 vm 0 a 2 d 0x5B)
  | .vle32Inv vm d a => some (encV 2 vm 0 a 2 d 0x5B)
  | .vle64Inv vm d a => some (encV 3 vm 0 a 2 d 0x5B)
  | .vsmx vm d a b => some (encV 4 vm b a 2 d 0x5B)
  | .spop d n => some (encV 5 true 0 n 2 d 0x5B)
  | .vwait vm d b a => some (encV 6 vm b a 2 d 0x5B)
  | .msendv vm d b a => some (encV 7 vm b a 2 d 0x5B)
  | .edge vm d b a => some (encV 0 vm b a 3 d 0x5B)
  | .texdec vm d b a => some (encV 1 vm b a 3 d 0x5B)
  | .texw vm d b a => some (encV 2 vm b a 3 d 0x5B)
  | .texS vm d b a => some (encV 3 vm b a 3 d 0x5B)
  | .texSa vm d b a => some (encV 4 vm b a 3 d 0x5B)
  | .boxt vm d b a => some (encV 5 vm b a 3 d 0x5B)
  | .trit vm d b a => some (encV 6 vm b a 3 d 0x5B)
  | .mmaE4e4 acc a b c => some (encC3 0x00 c b a acc)
  | .mmaE4e5 acc a b c => some (encC3 0x01 c b a acc)
  | .mmaE5e4 acc a b c => some (encC3 0x02 c b a acc)
  | .mmaE5e5 acc a b c => some (encC3 0x03 c b a acc)
  | .mmaE2e2 acc a b c => some (encC3 0x04 c b a acc)
  | .mmaE2e4 acc a b c => some (encC3 0x05 c b a acc)
  | .mmaE4e2 acc a b c => some (encC3 0x06 c b a acc)
  | .mmaI8i8 acc a b c => some (encC3 0x08 c b a acc)
  | .mmaBfbf acc a b => some (encC3 0x10 0 b a acc)
  | .mmaHfhf acc a b => some (encC3 0x11 0 b a acc)
  | .mmaDfdf acc a b => some (encC3 0x18 0 b a acc)
  | .mcfg rd a => some (encC3 0x40 rd 0 a 0)
  | .mzero acc => some (encC3 0x41 0 0 0 acc)
  | .mload acc a b => some (encC3 0x42 0 b a acc)
  | .merr rd n => some (encC3 0x43 rd n 0 0)
  | .mstF32 acc a b => some (encC3 0x48 0 b a acc)
  | .mstBf16 acc a b => some (encC3 0x49 0 b a acc)
  | .mstF16 acc a b => some (encC3 0x4A 0 b a acc)
  | .mstI32 acc a b => some (encC3 0x4B 0 b a acc)
  | .mstE4m3 acc a b c => some (encC3 0x4C c b a acc)
  | .mstE5m2 acc a b c => some (encC3 0x4D c b a acc)
  | .hintPf a imm => some (encI imm a 2 0 0x13)
  | .hintUnroll imm => some (encI imm 0 3 0 0x13)
  | .hintAff sh => some (encI (sh.setWidth 12) 0 1 0 0x13)
  | .hintPair sh => some (encI (sh.setWidth 12) 0 5 0 0x13)
  | .scalarLoad op rd a imm => some (encI imm a op.enc.1 rd op.enc.2)
  | .scalarStore op b a imm => some (encS imm b a op.enc.1 op.enc.2)
  | .standardAmo op d aq rl rd b a =>
    some (encR (op.enc ++ BitVec.ofBool aq ++ BitVec.ofBool rl) b a (if d then 3 else 2) rd 0x2F)
  | .fence kind p s =>
    match kind with
    | .fence => some (encI ((0 : BitVec 4) ++ p ++ s) 0 0 0 0x0F)
    | .tso => some (encI 0x833 0 0 0 0x0F)
    | .i => some (encI 0 0 1 0 0x0F)
  | .sfenceVma a b => some (encR 0x09 b a 0 0 0x73)
  | .csrAccess op imm rd src csr => some (encI csr src (op.enc + if imm then 4 else 0) rd 0x73)
  | .jalr rd a imm => some (encI imm a 0 rd 0x67)
  | .vectorLoad nf mop vm b a w d => some (encR (nf ++ (0 : BitVec 1) ++ mop ++ BitVec.ofBool vm) b a (vwidthEnc w) d 0x07)
  | .vectorStore nf mop vm b a w d => some (encR (nf ++ (0 : BitVec 1) ++ mop ++ BitVec.ofBool vm) b a (vwidthEnc w) d 0x27)
  | .vectorArithmetic f6 vm b a f3 d => if f3 = 7 then none else some (encV f6 vm b a f3 d 0x57)
  | .vsetvli rd a vt => some (encI ((0 : BitVec 1) ++ vt) a 7 rd 0x57)
  | .vsetivli rd a vt => some (encI ((3 : BitVec 2) ++ vt) a 7 rd 0x57)
  | .vsetvl rd a b => some (encR 0x40 b a 7 rd 0x57)
  | .sret => some 0x10200073
  | .mret => some 0x30200073
  | .wfi => some 0x10500073
  | .ecall => some 0x00000073
  | .ebreak => some 0x00100073
  | .lui rd imm => some (imm ++ rd ++ (0x37 : BitVec 7))
  | .auipc rd imm => some (imm ++ rd ++ (0x17 : BitVec 7))
  | .jal rd off =>
    if (bits off 0 21).signExtend 64 = off ∧ bits off 0 1 = 0 then some (encJ (bits off 0 21) rd) else none
  | .branch op a b off =>
    if (bits off 0 13).signExtend 64 = off ∧ bits off 0 1 = 0 then some (encB (bits off 0 13) b a op.enc) else none
  | .aluImm op rd a imm => some (encI (imm ||| op.enc.1) a op.enc.2.1 rd op.enc.2.2)
  | .alu op rd a b => some (encR op.enc.1 b a op.enc.2.1 rd op.enc.2.2)
  | .fpOp op fmt rd a b c rm => some (op.encode fmt rd a b c rm)
  | _ => none

/-- The 3-bit field of a register x8 to x15 or f8 to f15. -/
def creg3 (r : Reg) : Option (BitVec 3) := if bits r 3 2 = 1 then some (bits r 0 3) else none

/-- The signed 6-bit immediate of CI forms. -/
def cimm6 (imm : BitVec 12) : Option (BitVec 6) :=
  if (bits imm 0 6).signExtend 12 = imm then some (bits imm 0 6) else none

/-- CI form. -/
def encCI (f3 : BitVec 3) (imm : BitVec 6) (rd : Reg) (op : BitVec 2) : BitVec 16 :=
  f3 ++ bits imm 5 1 ++ rd ++ bits imm 0 5 ++ op

/-- CL and CS forms of doublewords. -/
def encCLD (f3 : BitVec 3) (imm : BitVec 12) (r1 r2 : BitVec 3) : BitVec 16 :=
  f3 ++ bits imm 3 3 ++ r1 ++ bits imm 6 2 ++ r2 ++ (0 : BitVec 2)

/-- CL and CS forms of words. -/
def encCLW (f3 : BitVec 3) (imm : BitVec 12) (r1 r2 : BitVec 3) : BitVec 16 :=
  f3 ++ bits imm 3 3 ++ r1 ++ bits imm 2 1 ++ bits imm 6 1 ++ r2 ++ (0 : BitVec 2)

/-- A load's or store's compressed form, by its width in bytes: with sp as base, or with two low registers. -/
def encCMem (fsp fcl : BitVec 3) (store dword : Bool) (r base : Reg) (imm : BitVec 12) : Option (BitVec 16) :=
  let ok (k : Nat) : Bool := decide (imm.toNat < k) && decide (imm.toNat % (if dword then 8 else 4) = 0)
  if base = 2 ∧ ok (if dword then 512 else 256) then
    if store then
      some (fsp ++ (if dword then bits imm 3 3 ++ bits imm 6 3 else bits imm 2 4 ++ bits imm 6 2) ++ r ++ (2 : BitVec 2))
    else if dword then some (encCI fsp (bits imm 5 1 ++ bits imm 3 2 ++ bits imm 6 3) r 2)
    else some (encCI fsp (bits imm 5 1 ++ bits imm 2 3 ++ bits imm 6 2) r 2)
  else if ok (if dword then 256 else 128) then
    match creg3 base, creg3 r with
    | some b, some q => some (if dword then encCLD fcl imm b q else encCLW fcl imm b q)
    | _, _ => none
  else none

/-- CA form. -/
def encCA (b12 : BitVec 1) (f2 : BitVec 2) (rd rs1 rs2 : Reg) : Option (BitVec 16) :=
  match creg3 rd, creg3 rs2 with
  | some d, some q => if rd = rs1 then some ((4 : BitVec 3) ++ b12 ++ (3 : BitVec 2) ++ d ++ f2 ++ q ++ (1 : BitVec 2)) else none
  | _, _ => none

/-- CB form of shifts and andi. -/
def encCB (f2 : BitVec 2) (rd rs1 : Reg) (imm : BitVec 6) : Option (BitVec 16) :=
  match creg3 rd with
  | some d => if rd = rs1 then some ((4 : BitVec 3) ++ bits imm 5 1 ++ f2 ++ d ++ bits imm 0 5 ++ (1 : BitVec 2)) else none
  | none => none

/-- The compressed word of a scalar member (R84): one encoding that expands to it, where there is one. -/
def encode16 : Instr → Option (BitVec 16)
  | .scalarLoad .fld r b imm => encCMem 1 1 false true r b imm
  | .scalarLoad .lw r b imm => if b = 2 ∧ r = 0 then none else encCMem 2 2 false false r b imm
  | .scalarLoad .ld r b imm => if b = 2 ∧ r = 0 then none else encCMem 3 3 false true r b imm
  | .scalarStore .fsd r b imm => encCMem 5 5 true true r b imm
  | .scalarStore .sw r b imm => encCMem 6 6 true false r b imm
  | .scalarStore .sd r b imm => encCMem 7 7 true true r b imm
  | .aluImm .addi rd a imm =>
    match cimm6 imm, creg3 rd with
    | some i, _ =>
      if rd = a then some (encCI 0 i rd 1) else if a = 0 then some (encCI 2 i rd 1)
      else if a = 2 then
        match creg3 rd with
        | some d =>
          if imm ≠ 0 ∧ imm.toNat < 1024 ∧ imm.toNat % 4 = 0 then
            some ((0 : BitVec 3) ++ bits imm 4 2 ++ bits imm 6 4 ++ bits imm 2 1 ++ bits imm 3 1 ++ d ++ (0 : BitVec 2))
          else none
        | none => none
      else none
    | none, some d =>
      if a = 2 ∧ imm.toNat < 1024 ∧ imm.toNat % 4 = 0 then
        some ((0 : BitVec 3) ++ bits imm 4 2 ++ bits imm 6 4 ++ bits imm 2 1 ++ bits imm 3 1 ++ d ++ (0 : BitVec 2))
      else none
    | none, none =>
      if rd = 2 ∧ a = 2 ∧ (bits imm 0 10).signExtend 12 = imm ∧ bits imm 0 4 = 0 then
        some ((3 : BitVec 3) ++ bits imm 9 1 ++ (2 : BitVec 5) ++ bits imm 4 1 ++ bits imm 6 1 ++ bits imm 7 2 ++ bits imm 5 1
          ++ (1 : BitVec 2))
      else none
  | .aluImm .addiw rd a imm => if rd = a ∧ rd ≠ 0 then (cimm6 imm).map fun i => encCI 1 i rd 1 else none
  | .aluImm .slli rd a imm =>
    if rd = a ∧ rd ≠ 0 ∧ imm.toNat < 64 then some (encCI 0 (bits imm 0 6) rd 2) else none
  | .aluImm .srli rd a imm => if imm.toNat < 64 then encCB 0 rd a (bits imm 0 6) else none
  | .aluImm .srai rd a imm => if imm.toNat < 64 then encCB 1 rd a (bits imm 0 6) else none
  | .aluImm .andi rd a imm => match cimm6 imm with | some i => encCB 2 rd a i | none => none
  | .hintAff sh => some (encCI 0 sh 0 2)
  | .lui rd imm =>
    if rd ≠ 2 ∧ imm ≠ 0 ∧ (bits imm 0 6).signExtend 20 = imm then some (encCI 3 (bits imm 0 6) rd 1) else none
  | .alu .add rd a b =>
    if b = 0 then none
    else if a = 0 then some ((8 : BitVec 4) ++ rd ++ b ++ (2 : BitVec 2))
    else if rd = a then some ((9 : BitVec 4) ++ rd ++ b ++ (2 : BitVec 2)) else none
  | .alu .sub rd a b => encCA 0 0 rd a b
  | .alu .xor rd a b => encCA 0 1 rd a b
  | .alu .or rd a b => encCA 0 2 rd a b
  | .alu .and rd a b => encCA 0 3 rd a b
  | .alu .subw rd a b => encCA 1 0 rd a b
  | .alu .addw rd a b => encCA 1 1 rd a b
  | _ => none

/-- The native words of an instruction: its length in bytes and its bits, where it has a native form. -/
def encode : Instr → Option (Nat × Nat)
  | .pair g s a b =>
    match encode16 a, encode32 b with
    | some h, some w =>
      if (g = 0 ∧ s = false) ∨ scalarMemberOk a = false ∨ vectorMemberOk b = false then none
      else some (8, (w ++ h ++ BitVec.ofBool s ++ (0 : BitVec 3) ++ g ++ (0x3F : BitVec 7) : BitVec 64).toNat)
    | _, _ => none
  | i => (encode32 i).map fun w => (4, w.toNat)

end Sys2Proof
end

