-- ==== Sys2Proof/Config.lean ====
section
/-! DEFINITION. What the part fixes (R8 and the rules named), and the free values: constants without a
body, applied to a counter of State (or to the operands they depend on), for what the spec leaves open. -/

namespace Sys2Proof.Config

/-- Free 64-bit values, one per draw of the counter (log 8). -/
opaque freeWord : Nat → Word
/-- Free vector register contents, one per draw of the counter (log 8). -/
opaque freeVec : Nat → VBits
/-- Nanoseconds of the time base that pass at a step (log 3). -/
opaque elapsed : Nat → Nat
/-- Does an LMS signature (second) over a message (first) verify under a 56-byte public key (R57, R330;
RFC 8554 is not in the spec; log 10). -/
opaque lmsVerify : List Byte → List Byte → List Byte → Bool
/-- Does the boot ROM's or root's verification of an image slot succeed at a start (R333; log 10). -/
opaque imageVerifies : Nat → Nat → Bool
/-- The layout version a firmware image writes and those it can resume (R43), by the image's address; the image's format is not
in the spec (log 10). -/
opaque imageWrites : Word → Nat
opaque imageResumes : Word → List Nat
/-- Where the runtime starts again after the watchdog (R31); the address is not in the spec (log 10). -/
opaque runtimeEntry : Word
/-- The signature root writes over an attestation report (R329 code 10; log 10). -/
opaque attestSign : List Byte → List Byte

/-- The Lammel address that an address of a translated body belongs to, and the translated address of a Lammel
address: the runtime's translator makes them (R69, R70; log 16). -/
opaque lammelPc : Word → Word
opaque nativePc : Word → Word

/-- The bytes of a native body that the translator made at an address for a generation (R70; log 16). -/
opaque bodyBytes : Nat → Nat → Nat

/-- trit's result where a translated vertex leaves FP32's range, by the words of ray and node (R296; log 18). -/
opaque rayOverflow : List Nat → BitVec 32

/-- Does the traffic between two dies that share no boundary cross a given one (R318; the route is not in the spec; log 8)? -/
opaque diagonalVia : Nat → Nat → Nat → Bool
/-- Does the hub's traffic to a die that it has no link to enter by C1, and not by C0 (R6, R318; the route is not in the spec; log 8)? -/
opaque hubVia : Nat → Bool

/-- Lane groups of a core (R8). -/
def laneGroups : Nat := 8
/-- Bits of vector register file per lane: 2 KiB (R8). -/
def laneBits : Nat := 16384
/-- Depth of the loop stack (R91). -/
def loopDepth : Nat := 6
/-- Mask-stack entries held on chip (R117). -/
def maskOnChip : Nat := 8
/-- MINHOLD in ns (R212). -/
def minHold : Nat := 500
/-- The default LEASE in ns (R213). -/
def defaultLease : Nat := 20000
/-- WDT in ns: 10 ms (R31). -/
def wdt : Nat := 10000000
/-- Base of the scratch window, the rounded view, the debug rings and the agent blocks (R125). -/
def scratchBase : Nat := 0xF00000000000
def roundedBase : Nat := 0xF10000000000
def ringBase : Nat := 0xF60000000000
def agentBase : Nat := 0xF80000000000
/-- Bytes of scratch of one core (R130). -/
def scratchBytes : Nat := 196608
/-- Bytes of HBM: 768 GiB (R125). -/
def hbmBytes : Nat := 0xC000000000

end Sys2Proof.Config
end

