-- ==== Sys2Proof/Machine/Flags.lean ====
section
/-! DEFINITION. Floating-point values, one rounding, and every flag computation: fflags of the standard
formats (R73, R167, R170), the MX formats with MXSAT (R167 to R172), and the exact accumulator with XSOVF and
XSINV (R174, R175). Values are exact: a magnitude m at weight 2^e. -/

namespace Sys2Proof.Machine

/-- fflags bits. -/
def flagNX : BitVec 5 := 1
def flagUF : BitVec 5 := 2
def flagOF : BitVec 5 := 4
def flagDZ : BitVec 5 := 8
def flagNV : BitVec 5 := 16

/-- xsflags bits (R78). -/
def xsMXSAT : BitVec 4 := 1
def xsXSOVF : BitVec 4 := 2
def xsXSINV : BitVec 4 := 4
def xsLTRUNC : BitVec 4 := 8

/-- A binary format: widths of the exponent and mantissa fields (R167). -/
structure FFmt where
  e : Nat
  m : Nat
deriving DecidableEq, Repr

def fmt64 : FFmt := ⟨11, 52⟩
def fmt32 : FFmt := ⟨8, 23⟩
def fmt16 : FFmt := ⟨5, 10⟩
def fmtB16 : FFmt := ⟨8, 7⟩
def fmtE5M2 : FFmt := ⟨5, 2⟩
def fmtE4M3 : FFmt := ⟨4, 3⟩
def fmtE2M1 : FFmt := ⟨2, 1⟩

def FFmt.bias (f : FFmt) : Nat := 2 ^ (f.e - 1) - 1
def FFmt.width (f : FFmt) : Nat := 1 + f.e + f.m
/-- The weight of the lowest bit of a subnormal. -/
def FFmt.emin (f : FFmt) : Int := 1 - (f.bias : Int) - f.m
/-- The exponent field all ones, mantissa 0. -/
def FFmt.infBits (f : FFmt) : Nat := (2 ^ f.e - 1) * 2 ^ f.m
/-- The canonical NaN (R167). -/
def FFmt.nan (f : FFmt) : Nat := f.infBits + 2 ^ (f.m - 1)
def FFmt.signBit (f : FFmt) : Nat := 2 ^ (f.e + f.m)
/-- The largest finite magnitude's code. -/
def FFmt.maxBits (f : FFmt) : Nat := f.infBits - 1

/-- The scalar format of an FP element of w bits. -/
def fmtOfWidth (w : Nat) : FFmt := if w = 16 then fmt16 else if w = 32 then fmt32 else fmt64
def FpFmt.ffmt : FpFmt → FFmt
  | .s => fmt32 | .d => fmt64 | .h => fmt16

/-- A floating-point datum: NaN (signalling or not), infinity, or sign and m * 2^e. -/
inductive FVal where
  | nan (sig : Bool)
  | inf (neg : Bool)
  | fin (neg : Bool) (m : Nat) (e : Int)
deriving DecidableEq, Repr

/-- The datum of IEEE-style bits. -/
def FFmt.unpack (f : FFmt) (b : Nat) : FVal :=
  let neg := b / f.signBit % 2 = 1
  let ex := b / 2 ^ f.m % 2 ^ f.e
  let man := b % 2 ^ f.m
  if ex = 2 ^ f.e - 1 then
    if man = 0 then .inf neg else .nan (man < 2 ^ (f.m - 1))
  else if ex = 0 then .fin neg man f.emin
  else .fin neg (man + 2 ^ f.m) (f.emin + (ex : Int) - 1)

def FVal.isNan : FVal → Bool | .nan _ => true | _ => false
def FVal.isSnan : FVal → Bool | .nan s => s | _ => false
def FVal.isInf : FVal → Bool | .inf _ => true | _ => false
def FVal.isZero : FVal → Bool | .fin _ 0 _ => true | _ => false
def FVal.neg : FVal → Bool | .nan _ => false | .inf n => n | .fin n _ _ => n
def FVal.flip : FVal → FVal | .nan s => .nan s | .inf n => .inf !n | .fin n m e => .fin (!n) m e
def FVal.setNeg (n : Bool) : FVal → FVal | .nan s => .nan s | .inf _ => .inf n | .fin _ m e => .fin n m e

/-- Bit length. -/
def blen (m : Nat) : Nat := if m = 0 then 0 else m.log2 + 1

/-- Does a magnitude with kept part `k`, remainder `r` out of 2^d, round up? -/
def roundUp (rm : Rm) (neg : Bool) (k r d : Nat) : Bool :=
  let half := 2 ^ d / 2
  match rm with
  | .rne => decide (r > half ∨ (r = half ∧ r ≠ 0 ∧ k % 2 = 1))
  | .rmm => decide (r ≥ half ∧ r ≠ 0)
  | .rtz => false
  | .rdn => neg && decide (r ≠ 0)
  | .rup => !neg && decide (r ≠ 0)
  | .rod => decide (r ≠ 0 ∧ k % 2 = 0)

/-- m * 2^e as an integer multiple of 2^q, rounded: the multiple and whether it is inexact. -/
def roundAt (rm : Rm) (neg : Bool) (m : Nat) (e q : Int) : Nat × Bool :=
  if q ≤ e then (m * 2 ^ (e - q).toNat, false)
  else
    let d := (q - e).toNat
    let k := m / 2 ^ d
    let r := m % 2 ^ d
    (k + (if roundUp rm neg k r d then 1 else 0), r ≠ 0)

/-- One rounding of m * 2^e (plus a little, when sticky) to a format's precision and subnormal grid, with no
upper limit: the code of the magnitude on that grid, and the flags NX and UF (tininess after rounding, R170). -/
def roundGrid (f : FFmt) (rm : Rm) (neg : Bool) (m : Nat) (e : Int) (sticky : Bool) : Nat × BitVec 5 :=
  let m' := 4 * m + (if sticky then 1 else 0)
  let e' := e - 2
  if m' = 0 then (0, 0)
  else
    let qn : Int := e' + blen m' - (f.m + 1 : Nat)
    let q := max qn f.emin
    let (s, nx) := roundAt rm neg m' e' q
    let (sn, _) := roundAt rm neg m' e' qn
    let tiny := decide (qn + (blen sn : Int) - 1 < f.emin + f.m)
    let code := ((q - f.emin).toNat) * 2 ^ f.m + s
    (code, if nx then (if tiny then flagNX ||| flagUF else flagNX) else 0)

/-- RoundTo(fmt, value, mode) for IEEE formats, with its flags. -/
def FFmt.round (f : FFmt) (rm : Rm) (neg : Bool) (m : Nat) (e : Int) (sticky : Bool) : Nat × BitVec 5 :=
  let sg := if neg then f.signBit else 0
  let (code, fl) := roundGrid f rm neg m e sticky
  if code < f.infBits then (sg + code, fl)
  else
    let big := match rm with
      | .rne | .rmm => true
      | .rtz | .rod => false
      | .rdn => neg
      | .rup => !neg
    (sg + (if big then f.infBits else f.maxBits), flagOF ||| flagNX)

/-- The code of a datum in an IEEE format; NaNs become canonical, and a signalling one raises NV. -/
def FFmt.pack (f : FFmt) (rm : Rm) (v : FVal) : Nat × BitVec 5 :=
  match v with
  | .nan s => (f.nan, if s then flagNV else 0)
  | .inf n => ((if n then f.signBit else 0) + f.infBits, 0)
  | .fin n 0 _ => (if n then f.signBit else 0, 0)
  | .fin n m e => f.round rm n m e false

/-! ## Arithmetic on data: the exact result, a sticky mark, and the flags of the operation itself -/

/-- An exact result before rounding. -/
structure FRes where
  v      : FVal
  sticky : Bool
  fl     : BitVec 5
deriving DecidableEq, Repr

def FRes.nv : FRes := ⟨.nan false, false, flagNV⟩
def FRes.of (v : FVal) : FRes := ⟨v, false, 0⟩
/-- A quiet NaN result of NaN operands. -/
def FRes.ofNan (sig : Bool) : FRes := ⟨.nan false, false, if sig then flagNV else 0⟩

/-- Rounds an exact result into a format. -/
def FFmt.finish (f : FFmt) (rm : Rm) (r : FRes) : Nat × BitVec 5 :=
  match r.v with
  | .fin n m e =>
    if m = 0 ∧ r.sticky = false then (if n then f.signBit else 0, r.fl)
    else let (b, fl) := f.round rm n m e r.sticky; (b, fl ||| r.fl)
  | v => let (b, fl) := f.pack rm v; (b, fl ||| r.fl)

/-- The exact sum of two finite data; an exact zero of opposite signs is -0 only under RDN. -/
def exactAdd (rm : Rm) (n1 : Bool) (m1 : Nat) (e1 : Int) (n2 : Bool) (m2 : Nat) (e2 : Int) : FVal :=
  let e := min e1 e2
  let a : Int := (m1 * 2 ^ (e1 - e).toNat : Nat)
  let b : Int := (m2 * 2 ^ (e2 - e).toNat : Nat)
  let s := (if n1 then -a else a) + (if n2 then -b else b)
  if s = 0 then .fin (if n1 = n2 then n1 else rm == .rdn) 0 e
  else .fin (decide (s < 0)) s.natAbs e

def fAdd (rm : Rm) (a b : FVal) : FRes :=
  match a, b with
  | .nan s, y => .ofNan (s || y.isSnan)
  | x, .nan s => .ofNan (s || x.isSnan)
  | .inf n1, .inf n2 => if n1 = n2 then .of (.inf n1) else .nv
  | .inf n, _ => .of (.inf n)
  | _, .inf n => .of (.inf n)
  | .fin n1 m1 e1, .fin n2 m2 e2 => .of (exactAdd rm n1 m1 e1 n2 m2 e2)

def fSub (rm : Rm) (a b : FVal) : FRes := fAdd rm a b.flip

def fMul (a b : FVal) : FRes :=
  match a, b with
  | .nan s, y => .ofNan (s || y.isSnan)
  | x, .nan s => .ofNan (s || x.isSnan)
  | .inf n1, y => if y.isZero then .nv else .of (.inf (n1 ^^ y.neg))
  | x, .inf n2 => if x.isZero then .nv else .of (.inf (x.neg ^^ n2))
  | .fin n1 m1 e1, .fin n2 m2 e2 => .of (.fin (n1 ^^ n2) (m1 * m2) (e1 + e2))

/-- a * b + c, exact before one rounding. -/
def fMulAdd (rm : Rm) (a b c : FVal) : FRes :=
  let p := fMul a b
  match p.v, c with
  | .nan _, y => { p with fl := p.fl ||| (if y.isSnan then flagNV else 0) }
  | _, .nan s => .ofNan (s || a.isSnan || b.isSnan)
  | x, y => let r := fAdd rm x y; { r with fl := r.fl ||| p.fl }

def fDiv (a b : FVal) : FRes :=
  match a, b with
  | .nan s, y => .ofNan (s || y.isSnan)
  | x, .nan s => .ofNan (s || x.isSnan)
  | .inf n1, .inf _ => let _ := n1; .nv
  | .inf n1, y => .of (.inf (n1 ^^ y.neg))
  | x, .inf n2 => .of (.fin (x.neg ^^ n2) 0 0)
  | .fin n1 m1 e1, .fin n2 m2 e2 =>
    if m2 = 0 then (if m1 = 0 then .nv else ⟨.inf (n1 ^^ n2), false, flagDZ⟩)
    else if m1 = 0 then .of (.fin (n1 ^^ n2) 0 0)
    else
      let num := m1 * 2 ^ 128
      ⟨.fin (n1 ^^ n2) (num / m2) (e1 - e2 - 128), num % m2 ≠ 0, 0⟩

/-- The integer square root, bit by bit: `n` more result bits, `r` the root so far. -/
def isqrtLoop (x : Nat) : Nat → Nat → Nat
  | 0, r => r
  | n + 1, r => let t := r + 2 ^ n; isqrtLoop x n (if t * t ≤ x then t else r)

def isqrt (x : Nat) : Nat := isqrtLoop x (blen x / 2 + 1) 0

def fSqrt (a : FVal) : FRes :=
  match a with
  | .nan s => .ofNan s
  | .inf n => if n then .nv else .of (.inf false)
  | .fin n m e =>
    if m = 0 then .of (.fin n 0 0)
    else if n then .nv
    else
      let x := m * 2 ^ (if e % 2 = 0 then 128 else 129)
      let h := if e % 2 = 0 then (e - 128) / 2 else (e - 129) / 2
      let r := isqrt x
      ⟨.fin false r h, r * r ≠ x, 0⟩

/-- Exact comparison of two data that are no NaN. -/
def fCmp (a b : FVal) : Ordering :=
  match a, b with
  | .inf n1, .inf n2 => if n1 = n2 then .eq else if n1 then .lt else .gt
  | .inf n, _ => if n then .lt else .gt
  | _, .inf n => if n then .gt else .lt
  | .fin n1 m1 e1, .fin n2 m2 e2 =>
    let e := min e1 e2
    let x : Int := (m1 * 2 ^ (e1 - e).toNat : Nat)
    let y : Int := (m2 * 2 ^ (e2 - e).toNat : Nat)
    compare (if n1 then -x else x) (if n2 then -y else y)
  | _, _ => .eq

/-- feq, flt and fle: the truth value and NV. -/
def fEq (a b : FVal) : Bool × BitVec 5 :=
  if a.isNan ∨ b.isNan then (false, if a.isSnan ∨ b.isSnan then flagNV else 0) else (fCmp a b == .eq, 0)
def fLt (a b : FVal) : Bool × BitVec 5 :=
  if a.isNan ∨ b.isNan then (false, flagNV) else (fCmp a b == .lt, 0)
def fLe (a b : FVal) : Bool × BitVec 5 :=
  if a.isNan ∨ b.isNan then (false, flagNV) else (fCmp a b != .gt, 0)

/-- The ratified fmin and fmax on codes: -0 below +0, a NaN yields the other operand, two NaNs the canonical
NaN. -/
def FFmt.minmax (f : FFmt) (isMax : Bool) (x y : Nat) : Nat × BitVec 5 :=
  let a := f.unpack x
  let b := f.unpack y
  let fl := if a.isSnan ∨ b.isSnan then flagNV else 0
  if a.isNan ∧ b.isNan then (f.nan, fl)
  else if a.isNan then (y, fl)
  else if b.isNan then (x, fl)
  else
    let less := match fCmp a b with
      | .lt => true
      | .gt => false
      | .eq => a.neg && !b.neg
    (if less ^^ isMax then x else y, fl)

/-- fclass: the bit of the class. -/
def FFmt.classify (f : FFmt) (x : Nat) : Nat :=
  match f.unpack x with
  | .nan s => if s then 0x100 else 0x200
  | .inf n => if n then 0x001 else 0x080
  | .fin n m _ =>
    if m = 0 then (if n then 0x008 else 0x010)
    else if m < 2 ^ f.m then (if n then 0x004 else 0x020)
    else if n then 0x002 else 0x040

/-- Sign injection: 0 copy, 1 inverted, 2 exclusive or. -/
def FFmt.sgnj (f : FFmt) (k : Nat) (x y : Nat) : Nat :=
  let sx := x / f.signBit % 2
  let sy := y / f.signBit % 2
  let s := if k = 0 then sy else if k = 1 then 1 - sy else (sx + sy) % 2
  x % f.signBit + s * f.signBit

/-- A float to an integer of n bits: saturating, NaN to the largest, NV on a value out of range, NX else. -/
def fToInt (rm : Rm) (signed : Bool) (n : Nat) (a : FVal) : Nat × BitVec 5 :=
  let hi : Int := if signed then 2 ^ (n - 1) - 1 else 2 ^ n - 1
  let lo : Int := if signed then -(2 ^ (n - 1)) else 0
  let enc (v : Int) : Nat := (v % (2 ^ n : Int)).toNat
  match a with
  | .nan _ => (enc hi, flagNV)
  | .inf neg => (enc (if neg then lo else hi), flagNV)
  | .fin neg m e =>
    let (k, nx) := roundAt rm neg m e 0
    let v : Int := if neg then -(k : Int) else k
    if v < lo then (enc lo, flagNV) else if hi < v then (enc hi, flagNV) else (enc v, if nx then flagNX else 0)

/-- An integer of n bits to a float. -/
def intToF (f : FFmt) (rm : Rm) (signed : Bool) (n : Nat) (x : Nat) : Nat × BitVec 5 :=
  let neg := signed && decide (2 ^ (n - 1) ≤ x)
  let m := if neg then 2 ^ n - x else x
  f.pack rm (.fin (neg && decide (m ≠ 0)) m 0)

/-- A conversion between formats. -/
def fConv (src dst : FFmt) (rm : Rm) (x : Nat) : Nat × BitVec 5 := dst.pack rm (src.unpack x)

/-! ## vfrec7 and vfrsqrt7 (R73, V 1.0) -/

def recip7Table : List Nat :=
  [127, 125, 123, 121, 119, 117, 116, 114, 112, 110, 109, 107, 105, 104, 102, 100, 99, 97, 96, 94, 93, 91, 90, 88, 87, 85,
   84, 83, 81, 80, 79, 77, 76, 75, 74, 72, 71, 70, 69, 68, 66, 65, 64, 63, 62, 61, 60, 59, 58, 57, 56, 55, 54, 53, 52, 51,
   50, 49, 48, 47, 46, 45, 44, 43] ++
  [42, 41, 40, 40, 39, 38, 37, 36, 35, 35, 34, 33, 32, 31, 31, 30, 29, 28, 28, 27, 26, 25, 25, 24, 23, 23, 22, 21, 21, 20,
   19, 19, 18, 17, 17, 16, 15, 15, 14, 14, 13, 12, 12, 11, 11, 10, 9, 9, 8, 8, 7, 7, 6, 5, 5, 4, 4, 3, 3, 2, 2, 1, 1, 0]

def rsqrt7Table : List Nat :=
  [52, 51, 50, 48, 47, 46, 44, 43, 42, 41, 40, 39, 38, 36, 35, 34, 33, 32, 31, 30, 30, 29, 28, 27, 26, 25, 24, 23, 23, 22,
   21, 20, 19, 19, 18, 17, 16, 16, 15, 14, 14, 13, 12, 12, 11, 10, 10, 9, 9, 8, 7, 7, 6, 6, 5, 4, 4, 3, 3, 2, 2, 1, 1, 0] ++
  [127, 125, 123, 121, 119, 118, 116, 114, 113, 111, 109, 108, 106, 105, 103, 102, 100, 99, 97, 96, 95, 93, 92, 91, 90, 88,
   87, 86, 85, 84, 83, 82, 80, 79, 78, 77, 76, 75, 74, 73, 72, 71, 70, 70, 69, 68, 67, 66, 65, 64, 63, 63, 62, 61, 60, 59,
   59, 58, 57, 56, 56, 55, 54, 53]

def FFmt.recip7 (f : FFmt) (rm : Rm) (x : Nat) : Nat × BitVec 5 :=
  let sg := if x / f.signBit % 2 = 1 then f.signBit else 0
  let neg : Bool := decide (x / f.signBit % 2 = 1)
  match f.unpack x with
  | .nan s => (f.nan, if s then flagNV else 0)
  | .inf _ => (sg, 0)
  | .fin _ m _ =>
    if m = 0 then (sg + f.infBits, flagDZ)
    else
      let ex := x / 2 ^ f.m % 2 ^ f.e
      let man := x % 2 ^ f.m
      let lz := if ex = 0 then f.m - blen man else 0
      let nex : Int := if ex = 0 then -(lz : Int) else ex
      let nman := if ex = 0 then (man * 2 ^ (lz + 1)) % 2 ^ f.m else man
      if ex = 0 ∧ lz > 1 then
        let big := match rm with | .rdn => neg | .rup => !neg | .rtz | .rod => false | _ => true
        (sg + (if big then f.infBits else f.maxBits), flagOF ||| flagNX)
      else
        let idx := nman / 2 ^ (f.m - 7)
        let o := recip7Table.getD idx 0 * 2 ^ (f.m - 7)
        let oe : Int := 2 * f.bias - 1 - nex
        if oe ≤ 0 then
          let full := o / 2 + 2 ^ (f.m - 1)
          (sg + (if oe < 0 then full / 2 else full), 0)
        else (sg + oe.toNat * 2 ^ f.m + o, 0)

def FFmt.rsqrt7 (f : FFmt) (x : Nat) : Nat × BitVec 5 :=
  let neg := x / f.signBit % 2 = 1
  match f.unpack x with
  | .nan s => (f.nan, if s then flagNV else 0)
  | .inf n => if n then (f.nan, flagNV) else (0, 0)
  | .fin _ m _ =>
    if m = 0 then ((if neg then f.signBit else 0) + f.infBits, flagDZ)
    else if neg then (f.nan, flagNV)
    else
      let ex := x / 2 ^ f.m % 2 ^ f.e
      let man := x % 2 ^ f.m
      let lz := if ex = 0 then f.m - blen man else 0
      let nex : Int := if ex = 0 then -(lz : Int) else ex
      let nman := if ex = 0 then (man * 2 ^ (lz + 1)) % 2 ^ f.m else man
      let idx := (nex % 2).toNat * 64 + nman / 2 ^ (f.m - 6)
      let o := rsqrt7Table.getD idx 0 * 2 ^ (f.m - 7)
      let oe : Int := (3 * f.bias - 1 - nex) / 2
      (oe.toNat * 2 ^ f.m + o, 0)

/-! ## The narrow formats (R167 to R172) -/

/-- An E4M3 code: E = 15, M = 7 is NaN, no infinity (R167). -/
def e4m3Unpack (c : Nat) : FVal :=
  let neg := c / 128 % 2 = 1
  let ex := c / 8 % 16
  let man := c % 8
  if ex = 15 ∧ man = 7 then .nan false
  else if ex = 0 then .fin neg man (-9) else .fin neg (man + 8) ((ex : Int) - 10)

/-- An E5M2 code (R167). -/
def e5m2Unpack (c : Nat) : FVal :=
  match fmtE5M2.unpack c with
  | .nan _ => .nan false
  | v => v

/-- An E2M1 code, without the block's extra value (R167). -/
def e2m1Unpack (c : Nat) : FVal :=
  let neg := c / 8 % 2 = 1
  let ex := c / 2 % 4
  let man := c % 2
  if ex = 0 then .fin neg man (-1) else .fin neg (man + 2) ((ex : Int) - 2)

/-- Flags of a conversion: fflags and xsflags. -/
abbrev CFlags := BitVec 5 × BitVec 4

/-- A value into E4M3 (R170). -/
def toE4M3 (rm : Rm) (v : FVal) : Nat × CFlags :=
  match v with
  | .nan _ => (0x7F, (0, 0))
  | .inf n => ((if n then 0x80 else 0) + 0x7E, (0, xsMXSAT))
  | .fin n m e =>
    let (c, fl) := roundGrid fmtE4M3 rm n m e false
    let sg := if n then 0x80 else 0
    if c ≤ 0x7E then (sg + c, (fl &&& flagNX, 0)) else (sg + 0x7E, (flagNX, xsMXSAT))

/-- A value into E5M2 (R170). -/
def toE5M2 (rm : Rm) (v : FVal) : Nat × CFlags :=
  match v with
  | .nan _ => (0x7F, (0, 0))
  | .inf n => ((if n then 0x80 else 0) + 0x7C, (0, 0))
  | .fin n m e =>
    let (c, fl) := roundGrid fmtE5M2 rm n m e false
    let sg := if n then 0x80 else 0
    if c ≤ 0x7B then (sg + c, (fl &&& flagNX, 0)) else (sg + 0x7B, (flagNX, xsMXSAT))

/-- A value into BF16 (R170). -/
def toBF16 (rm : Rm) (v : FVal) : Nat × BitVec 5 :=
  match v with
  | .nan _ => (0x7FC0, 0)
  | _ => fmtB16.pack rm v

/-- v * 2^k. -/
def FVal.scale (k : Int) : FVal → FVal
  | .fin n m e => .fin n m (e + k)
  | v => v

/-- The distance of two finite data, as a magnitude at a weight. -/
def fDist (a b : FVal) : Nat × Int :=
  match exactAdd .rne a.neg (match a with | .fin _ m _ => m | _ => 0) (match a with | .fin _ _ e => e | _ => 0)
      (!b.neg) (match b with | .fin _ m _ => m | _ => 0) (match b with | .fin _ _ e => e | _ => 0) with
  | .fin _ m e => (m, e)
  | _ => (0, 0)

def distCmp (a b : Nat × Int) : Ordering :=
  let e := min a.2 b.2
  compare (a.1 * 2 ^ (a.2 - e).toNat) (b.1 * 2 ^ (b.2 - e).toNat)

def absCmp (a b : FVal) : Ordering := fCmp (a.setNeg false) (b.setNeg false)

/-- The member of C nearest q (R172): the codes other than 1000, in which a tie goes to M = 0, then X,
which loses ties. Answers the code, its value and the largest magnitude of C. -/
def nearestE2 (q : FVal) (x : Option FVal) : Nat × FVal × FVal :=
  let codes := [0, 1, 2, 3, 4, 5, 6, 7, 9, 10, 11, 12, 13, 14, 15]
  let best := codes.foldl (fun (acc : Nat × FVal) c =>
    let v := e2m1Unpack c
    match distCmp (fDist v q) (fDist acc.2 q) with
    | .lt => (c, v)
    | .eq => if c % 2 = 0 then (c, v) else acc
    | .gt => acc) (0, e2m1Unpack 0)
  let six : FVal := .fin false 6 0
  match x with
  | none => (best.1, best.2, six)
  | some xv =>
    let top := if absCmp xv six == .gt then xv.setNeg false else six
    if distCmp (fDist xv q) (fDist best.2 q) == .lt then (8, xv, top) else (best.1, best.2, top)

/-- Narrow(e2, v, s, X) of R172. -/
def narrowE2 (v : FVal) (s : Nat) (x : Nat) : Nat × CFlags :=
  if s = 0xFF then (0, (0, xsMXSAT))
  else
    let q := v.scale (127 - s)
    match q with
    | .nan _ => (0, (0, xsMXSAT))
    | .inf n => (if n then 15 else 7, (0, xsMXSAT))
    | .fin .. =>
      let xv := match e4m3Unpack x with | .nan _ => none | w => some w
      let (c, w, top) := nearestE2 q xv
      (c, (if fCmp w q == .eq then 0 else flagNX, if absCmp q top == .gt then xsMXSAT else 0))

/-- Narrow for e4 and e5 of R172. -/
def narrowE45 (e5 : Bool) (rm : Rm) (v : FVal) (s : Nat) : Nat × CFlags :=
  if s = 0xFF then (0x7F, (0, 0))
  else if e5 then toE5M2 rm (v.scale (127 - s)) else toE4M3 rm (v.scale (127 - s))

/-- A datum as a value of scale s: NaN when s is 0xFF. -/
def scaled (v : FVal) (s : Nat) : FVal := if s = 0xFF then .nan false else v.scale ((s : Int) - 127)

/-- An E2M1 code in a block whose extra value is X (R169). -/
def e2WithX (c x : Nat) : FVal := if c % 16 = 8 then e4m3Unpack x else e2m1Unpack c

/-! ## The exact accumulator (R174, R175) -/

/-- XsumAdd on ACC and FLAGS (bit 0 NAN, bit 1 PINF, bit 2 NINF). -/
def xsumAdd (acc : BitVec 320) (fl : BitVec 3) (v : Nat) : BitVec 320 × BitVec 3 :=
  match fmt32.unpack v with
  | .nan _ => (acc, fl ||| 1)
  | .inf n => (acc, fl ||| (if n then 4 else 2))
  | .fin n m e =>
    let x : Int := (m * 2 ^ (e + 149).toNat : Nat)
    (acc + BitVec.ofInt 320 (if n then -x else x), fl)

/-- XsumRead: the FP32 bits and the xsflags it sets. -/
def xsumRead (acc : BitVec 320) (fl : BitVec 3) : Nat × BitVec 4 :=
  let nan := fl.getLsbD 0
  let pinf := fl.getLsbD 1
  let ninf := fl.getLsbD 2
  if nan ∨ (pinf ∧ ninf) then (0x7FC00000, xsXSINV)
  else if pinf then (0x7F800000, xsXSINV)
  else if ninf then (0xFF800000, xsXSINV)
  else
    let n := acc.toInt
    let (b, _) := fmt32.pack .rne (.fin (decide (n < 0)) n.natAbs (-149))
    (b, if b % 2 ^ 31 = 0x7F800000 then xsXSOVF else 0)

end Sys2Proof.Machine
end

