-- ==== Sys2Proof/Machine/State.lean ====
section
/-! DEFINITION. The state of the FX8 as plain data, and the state after reset. Each structure's docstring
names the rules that give it. Lists keyed by a number are kept ascending by key. -/

namespace Sys2Proof.Machine

/-- Why a run stops with a fault: never. The spec stops the machine nowhere, and every value that it leaves open is a free value (log 8, 11), so
nothing raises a fault; this is safe. -/
inductive Fault where
deriving DecidableEq, Repr

/-- Why an instruction has no meaning. -/
inductive Refusal where
  /-- Raised by exec for an instruction not modelled yet. Safe. -/
  | notModelled (mnemonic : String)
deriving DecidableEq, Repr

/-- A context's identity: the launch and the LIN of its task (R18), or a hart that runs no task. -/
inductive Ctx where
  | task (launch lin : Nat)
  | bare (hart : Nat)
deriving DecidableEq, Repr

/-- A party that may hold a rod (R211). -/
inductive Party where
  | ctx (c : Ctx)
  | agent (a : Nat)
  | hub
  | queue (part qid : Nat)
deriving DecidableEq, Repr

/-- A loop-stack entry (R91). -/
structure LoopEntry where
  start : Word
  stop  : Word
  count : Word
  index : Word
  mode  : Mode
deriving DecidableEq, Repr

/-- A mask-stack entry: masks M and E, VLEN at the push, depth after the push (R117). -/
structure MaskEntry where
  m     : VBits
  e     : VBits
  vlene : Nat
  depth : Nat
deriving DecidableEq, Repr

/-- The vector state of a context (R74, R76, R78, R110, R117). `fresh` holds from task start and from vregcfg to the
next vset* (R26, R114), `setAt` is the time of the last vset* (R50). -/
structure Vec where
  regs     : Vector VBits 32
  nreg     : BitVec 2
  vlen     : Nat
  vtype    : Word
  vl       : Nat
  vstart   : Word
  vxrm     : BitVec 2
  vxsat    : Bool
  hmask    : BitVec 8
  grant    : Nat
  weight   : Nat
  wants    : Bool
  setAt    : Nat
  fresh    : Bool
  released : Bool
  mstack   : List MaskEntry
  mdepth   : Nat
deriving DecidableEq, Repr

/-- The Salica CSRs of a sequencer that no other part of State holds (R78), and SEQ of the debug ring (R309). -/
structure Ctl where
  msksp    : Word
  mprog    : Nat
  mstra    : Word
  mstrb    : Word
  xsflags  : BitVec 4
  vstrunc  : Bool
  htbase   : Word
  wid      : Word
  cgen     : Nat
  itbudget : BitVec 32
  fwdlife  : BitVec 32
  dbgEn    : Bool
  dbgHead  : BitVec 6
  dbgSeq   : BitVec 32
deriving DecidableEq, Repr

/-- The standard control and status registers (R73, Zicsr; log 6). -/
structure Priv where
  mstatus : Word
  medeleg : Word
  mideleg : Word
  mie : Word
  mip : Word
  mtvec : Word
  mscratch : Word
  mepc : Word
  mcause : Word
  mtval : Word
  menvcfg : Word
  mcounteren : Word
  stvec : Word
  sscratch : Word
  sepc : Word
  scause : Word
  stval : Word
  satp : Word
  senvcfg : Word
  scounteren : Word
  minstret : Word
  pmpcfg : Vector Word 16
  pmpaddr : Vector Word 64
deriving DecidableEq, Repr

/-- What a physical address names (R125); `desc` is the descriptor of an object, in root's own memory (R71), and `void` a place behind a failed boundary, where a
write is in flight and stays so (R318). -/
inductive Target where
  | hbm
  | host
  | peer (p : Nat)
  | scratch (core off : Nat)
  | rounded (core off : Nat)
  | ring (hart : Nat)
  | agent (a off : Nat)
  | desc (obj : Nat)
  | void
deriving DecidableEq, Repr

/-- Coherence kinds of a page (R135). -/
inductive PKind where
  | p | s | b | u
deriving DecidableEq, Repr

/-- Where bytes lie after all checks: the virtual address of the first, the physical address, target, kind (of HBM; U else),
home core, the core of the region's rod home (R211), and how many. -/
structure Loc where
  va   : Word
  pa   : Nat
  t    : Target
  kind : PKind
  home : Nat
  rhome : Nat
  len  : Nat
deriving DecidableEq, Repr

/-- The privilege and the translation of the context that issued an engine command (R140). -/
structure Issuer where
  mode : Mode
  satp : Word
  sum  : Bool
  mxr  : Bool
deriving DecidableEq, Repr

/-- A copy operation in flight, or an entry of a chain (R152 to R154, R304). `done` counts bytes, `failed` is the cause of a
command check, `follow` the number of its matrix command (R157). -/
structure CopyOp where
  n        : Nat
  dst      : Word
  src      : Word
  dstride  : Word
  sstride  : Word
  rows     : Nat
  rowBytes : Nat
  comb     : Nat
  form     : Nat
  tok      : Reg
  done     : Nat
  failed   : Option Nat
  follow   : Option Nat
  issuer   : Issuer
deriving DecidableEq, Repr

/-- A copy chain (R158, R159): the next entry's address and number, its word pair, its entries in
progress with their numbers, the numbers of completed entries above DONE + 1, the addresses of the entries
taken above DONE (R304), and TAIL as the engine has read it last. -/
structure Chain where
  n       : Nat
  next    : Word
  pair    : Word
  k       : Nat
  running : List (Nat × CopyOp)
  ended   : List Nat
  addrs   : List (Nat × Word)
  doneK   : Nat
  tail    : Option Nat
  tok     : Reg
  issuer  : Issuer
deriving DecidableEq, Repr

/-- The copy engine context (R153, R161, R162). `late` holds completed numbers above COUNT + 1. -/
structure CopyCtx where
  iss    : Nat
  count  : Nat
  late   : List Nat
  ops    : List CopyOp
  chains : List Chain
  failN  : Nat
  failVa : Word
  failCause : Nat
  failEntry : Nat
deriving DecidableEq, Repr

/-- What a matrix operation does (R180). -/
inductive MatKind where
  | mma (f : MmaFmt)
  | mzero
  | mload
  | mst (f : MstFmt)
deriving DecidableEq, Repr

/-- A numbered matrix operation (R180, R182, R186, R189). `rows` are the translated rows m0 to the last one of A or of the tile,
`brows` those of B, `w` the scales. A follow-on command (R191) keeps its addresses instead, and `copyN` names the copy it
waits for; `defer` is the cause that it leaves pending when it completes (R192). -/
structure MatOp where
  n     : Nat
  kind  : MatKind
  acc   : BitVec 2
  m0    : Nat
  rows  : List (List Loc)
  brows : List (List Loc)
  w     : BitVec 32
  a     : Word
  b     : Word
  stra  : Word
  strb  : Word
  follow : Bool
  copyN : Option Nat
  failed : Bool
  defer : Option Nat
  tok   : Reg
  issuer : Issuer
deriving DecidableEq, Repr

/-- The matrix engine context (R161, R180, R190, R192). -/
structure MatCtx where
  iss    : Nat
  count  : Nat
  ops    : List MatOp
  pend   : Option (Nat × Nat)
  report : Word
deriving DecidableEq, Repr

/-- STATE of a stream (R162). -/
inductive StreamSt where
  | idle | running | faulted | ended
deriving DecidableEq, Repr

/-- A stream (R163 to R166). -/
structure Stream where
  base   : Word
  stride : Word
  count  : Nat
  ew     : BitVec 2
  state  : StreamSt
  fcause : Nat
  next   : Nat
  marker : Option Nat
  queue  : List Word
  op     : Nat
  issuer : Issuer
deriving DecidableEq, Repr

/-- The stream engine context (R161, R163). `late` as in CopyCtx. -/
structure StreamCtx where
  iss     : Nat
  count   : Nat
  late    : List Nat
  streams : Vector Stream 4
deriving DecidableEq, Repr

/-- An asynchronous sampling operation (R292): descriptor, OUT, the samples not yet written with their coordinates, and how
many are written. -/
structure TexOp where
  desc   : List Byte
  out    : Word
  rtag   : Nat
  rhidx  : Nat
  count  : Nat
  coords : List (Nat × Word)
  issuer : Issuer
deriving DecidableEq, Repr

/-- The task a sequencer runs (R18, R23, R26, R52). -/
structure Task where
  launch  : Nat
  lin     : Nat
  wg      : Nat
  wglin   : Nat
  obj     : Nat
  part    : Nat
  hm      : Bool
  pipe    : Option (Nat × Nat)
  scrBase : Word
  scrLen  : Nat
  top     : Word
  tp      : Word
  gp      : Word
deriving DecidableEq, Repr

/-- A failed engine operation that the task has not observed (R315): engine (0 copy, 1 matrix, 2 stream), number, token
register (0: none), cause and address. -/
structure EngFail where
  eng   : Nat
  n     : Nat
  tok   : Reg
  cause : Nat
  va    : Word
deriving DecidableEq, Repr

/-- Handler state of a sequencer (R253, R256, R262, R303). `slot` is the channel slot a handler holds, `retry` the table entry whose
read faulted. -/
structure Handler where
  mode    : Bool
  inside  : Bool
  hidx    : Nat
  owed    : Bool
  reqHart : Nat
  rtag    : Nat
  rhidx   : Nat
  slot    : Option (Nat × Nat)
  retry   : Option Word
deriving DecidableEq, Repr

/-- An outstanding request: its tag, reply handler and kept state record (R251, R254). -/
structure Request where
  rtag  : Nat
  rhidx : Nat
  st    : Word
deriving DecidableEq, Repr

/-- What a sequencer is doing (R252, R257, R258, R300). -/
inductive Run where
  | free | running | idle | halted | held
deriving DecidableEq, Repr

/-- Why an instruction is waiting: `rod` is a store's wait, `rodAcq` that of rod.acq, `drain` the wait of mcfg,
ctx.save and aqpush for work of their own, `exit` that of kexit, `sample` that of tex.sa for a request slot, `link` that of an access across a failed boundary
(R318). -/
inductive Stall where
  | lanes | token | timeline | word | rod | rodAcq | barrier | request | stream | engine | message | channel | peer | hash | drain | exit | sample | link
deriving DecidableEq, Repr

/-- The model's own record of the instruction being executed: its length in bytes, its bits, its form. -/
structure Latch where
  len  : Nat
  bits : Word
  form : Form
deriving DecidableEq, Repr

/-- A sequencer or supervisor hart. `peerAsk` is a read through a peer window that waits (address and bytes), `peerGot` the
answers that the present instruction has received, `elems` the elements of it that are done (R246, R255), `armed` when a wait began and its parameter block (R244, R245), `fenced` whether fence.s.sys
stands before the next store (R327). `since` is when the
present wait began, or when a halted context was halted (R303). -/
structure Seq where
  x       : Vector Word 32
  f       : Vector Word 32
  pc      : Word
  mode    : Mode
  frm     : BitVec 3
  fflags  : BitVec 5
  loops   : List LoopEntry
  atEdge  : Bool
  latch   : Latch
  stall   : Option Stall
  since   : Option Nat
  run     : Run
  resv    : Option Nat
  pend    : List (Reg × Nat)
  epend   : Bool
  eraCount : Word
  halt    : Option Nat
  budget  : Bool
  priv    : Priv
  vec     : Vec
  ctl     : Ctl
  copy    : CopyCtx
  mat     : MatCtx
  strm    : StreamCtx
  tex     : List TexOp
  fails   : List EngFail
  task    : Option Task
  hs      : Handler
  reqs    : List Request
  barGen  : Option Nat
  peerAsk : Option (Nat × Nat)
  peerGot : List (Nat × List Byte)
  elems   : List Nat
  armed   : Option (Nat × List Byte)
  fenced  : Bool
deriving DecidableEq, Repr

/-- Message classes (R248). -/
inductive MsgClass where
  | ordinary | request | reply | trigger
deriving DecidableEq, Repr

/-- A message (R248), with LEN payload bytes. `chan` marks a pipeline channel item, `poison` a path that ended (R263). The model's own: `tex` the reply
of a sampling operation (R293), `gone` that it has left its sender's source buffer (R249), `owner` the save area whose context it waits for (R252), `bounced` that it
lies in a bounce record, in the runtime's hands (R308). -/
structure Msg where
  dest    : Nat
  src     : Nat
  hidx    : Nat
  cls     : MsgClass
  chan    : Bool
  payload : List Byte
  rhidx   : Nat
  rstat   : Nat
  rtag    : Nat
  part    : Nat
  inc     : Nat
  poison  : Bool
  tex     : Bool
  gone    : Bool
  owner   : Option Nat
  bounced : Bool
deriving DecidableEq, Repr

/-- An armed word (R134, R239): physical address, the address given, width, options and owner. -/
structure Armed where
  pa    : Nat
  va    : Word
  wide  : Bool
  tag   : BitVec 32
  hidx  : Nat
  owner : Ctx
deriving DecidableEq, Repr

/-- A filled or handed-out channel slot: its index, LEN and the sender's hart id (R259). -/
structure ChanItem where
  slot : Nat
  len  : Nat
  src  : Nat
deriving DecidableEq, Repr

/-- The slot buffer of one consumer task of a channel (R259); `hart` is where the task was bound. -/
structure ChanBuf where
  launch  : Nat
  chan    : Nat
  lin     : Nat
  hart    : Nat
  base    : Nat
  slots   : Nat
  size    : Nat
  filled  : List ChanItem
  handed  : List ChanItem
  closed  : Bool
  told    : Bool
deriving DecidableEq, Repr

/-- A scratch allocation, by its owner: a task, or a workgroup when `lin` is none (R52). -/
structure Alloc where
  launch : Nat
  wg     : Nat
  lin    : Option Nat
  off    : Nat
  len    : Nat
deriving DecidableEq, Repr

/-- A forwarding entry (R307). -/
structure Forward where
  old    : Nat
  new    : Nat
  expiry : Nat
deriving DecidableEq, Repr

/-- A TLB entry (R140): partition, ASID (none: global), virtual base, log2 of the size, physical base, the
leaf's permission byte and its PBMT and HOMEIDX. -/
structure TlbEntry where
  part  : Nat
  asid  : Option (BitVec 16)
  vbase : Nat
  bits  : Nat
  pbase : Nat
  perm  : BitVec 8
  pbmt  : BitVec 2
  home  : Nat
deriving DecidableEq, Repr

/-- A core (R5, R8, R78, R134, R178, R218, R223, R226, R251). `user` is the partition that last had scratch here
(R52), `corr` the lane groups and times of corrected register-file errors (R317), `dtlb` and `itlb` its L1 TLBs (R8, R140). -/
structure Core where
  dis     : BitVec 8
  rot     : Nat
  rotAt   : Nat
  holder  : Option Nat
  accs    : Vector (Vector (BitVec 2048) 64) 4
  marks   : List (Nat × Nat × Nat)
  fenced  : BitVec 2
  inbox   : List Msg
  armed   : List Armed
  heldMsg : List (Ctx × Msg)
  chans   : List ChanBuf
  allocs  : List Alloc
  fwd     : List Forward
  inc     : BitVec 8
  retain  : Bool
  lru     : List Nat
  user    : Nat
  corr    : List (Nat × Nat)
  dtlb    : List TlbEntry
  itlb    : List TlbEntry
deriving DecidableEq, Repr

/-- A cluster: lreq of its supervisor hart (R51) and its TLBs (R140). -/
structure Cluster where
  lreq : BitVec 64
  tlb  : List TlbEntry
deriving DecidableEq, Repr

/-- A directory entry of a line (R208): word masks by party, or cluster mode, and the core of its home. -/
structure DirLine where
  holders  : List (Nat × BitVec 32)
  clusters : Option (BitVec 64)
  union    : BitVec 32
  home     : Nat
deriving DecidableEq, Repr

/-- The rod of a region (R211 to R216): `lastW` is the time of the holder's last write, if any, `recalled` whether a recall has reached
the holder, `area` the save area of a reservation, `home` the core of its rod home, `atHalt` the expiry that the lease of a halted context had at the halt
(R214), `va` the region's address as the holder's last write gave it. -/
structure Rod where
  holder  : Option Party
  granted : Nat
  expiry  : Nat
  lastW   : Option Nat
  recalled : Bool
  waiters : List Party
  area    : Option Nat
  home    : Nat
  atHalt  : Option Nat
  va      : Word
deriving DecidableEq, Repr

/-- An xsum32 accumulator (R174). -/
structure Xsum where
  acc   : BitVec 320
  flags : BitVec 3
deriving DecidableEq, Repr

/-- The contents of a Bead partial (R217): a word, an accumulator, or one FP64 per sequencer. -/
inductive PVal where
  | word (v : Word)
  | xsum (a : Xsum)
  | osum (vs : List (Nat × Word))
deriving DecidableEq, Repr

/-- A core's partial of a Bead word, the entry of the park pool that holds it, if it is parked (R217, R222), and the launches whose tasks made it, with the
word's virtual address (R319). -/
structure Partial where
  core   : Nat
  inc    : BitVec 8
  parked : Option Nat
  val    : PVal
  owners : List (Nat × Word)
deriving DecidableEq, Repr

/-- A word in Bead state (R217), with the core of its home. -/
structure Bead where
  tag   : Nat
  parts : List Partial
  home  : Nat
deriving DecidableEq, Repr

/-- A write that a task has made across a die boundary, and that nothing yet tells it is performed (R318): the hart, the launch, the bytes and the die of their
home. -/
structure Unsure where
  hart   : Nat
  launch : Nat
  va     : Word
  len    : Nat
  die    : Nat
deriving DecidableEq, Repr

/-- What the homes and the L1 caches keep (14). `plocal` holds bytes of P lines written by a core and not written back (R136), `pclean` the cores and sectors
of which one such write held every byte, unpoisoned (R317), `copies`
the doublewords that a core holds as they stood at home earlier, of P lines and by invariant loads (R136, R143), `away` the lines whose Bead record a directory eviction put in
the park pool, and its entry (R222), `unsure` the writes that a failing boundary may find in flight (R318). -/
structure Coh where
  dir    : List (Nat × DirLine)
  rods   : List (Nat × Rod)
  beads  : List (Nat × Bead)
  poison : List Nat
  plocal : List ((Nat × Nat) × Byte)
  pclean : List (Nat × Nat)
  copies : List ((Nat × Nat) × Word)
  away   : List (Nat × Nat)
  unsure : List Unsure
deriving DecidableEq, Repr

/-- State of a code page (R58); `hashing` while a fetch unit hashes it. -/
inductive PageSt where
  | unverified | hashing | verified | failed
deriving DecidableEq, Repr

/-- A loaded code object (R10, R57, R60, R61, R71); `phys` holds the physical address of each code page (none
for a page of no executable section),
`lammel`, `native` and `kinfo` the address and bytes of a section, `names` the name of each kernel, `data` the address, bytes and physical
address of each read-only section that root maps, `dtabPa` and `tareaPa` where the dispatch table and the translation area lie. -/
structure Obj where
  part    : Nat
  cbase   : Nat
  phys    : List (Option Nat)
  hashes  : List (BitVec 256)
  pages   : List PageSt
  lammel  : Nat × Nat
  native  : Nat × Nat
  kinfo   : Nat × Nat
  names   : List (List Byte)
  gen     : Nat
  desc    : Nat
  dtab    : Nat
  ndtab   : Nat
  dtabPa  : Nat
  data    : List (Nat × Nat × Nat)
  tarea   : Nat
  tareaPa : Nat
  tsize   : Nat
  xonly   : List Nat
  quarantined : Bool
  retired : Option Nat
  newObj  : Option Nat
  freed   : Bool
deriving DecidableEq, Repr

/-- A native body retired by a retranslation (R61, R64): where it lies and its bytes. -/
structure OldBody where
  part  : Nat
  obj   : Nat
  addr  : Nat
  len   : Nat
  gen   : Nat
  freed : Bool
deriving DecidableEq, Repr

/-- A homing table entry (R54); `rsv`: a reserved byte is not 0. -/
structure HomeEntry where
  ctrl : BitVec 32
  mask : BitVec 256
  rsv  : Bool
deriving DecidableEq, Repr

/-- A peer table entry (R327). -/
structure PeerEntry where
  valid : Bool
  raw   : List Byte
deriving DecidableEq, Repr

/-- A partition (R27, R53, R61, R213, R222, R224, R316, R328 to R331). -/
structure Part where
  clusters : BitVec 64
  granules : BitVec 768
  agents   : BitVec 64
  mac      : BitVec 48
  vlan     : BitVec 12
  codeKey  : List Byte
  queues   : List (Nat × Nat)
  homing   : List (Nat × HomeEntry)
  lease    : Nat
  logBase  : Nat
  logLog2  : Nat
  parkBase : Nat
  parkLog2 : Nat
  peers    : List (Nat × PeerEntry)
  gen      : Nat
  mailbox  : List Host.Cell
  cmds     : List Nat
  isolated : Bool
deriving DecidableEq, Repr

/-- A valid QCB configuration (R28 to R30). -/
structure QCfg where
  prio     : Nat
  enable   : Bool
  devpost  : Bool
  ringBase : Nat
  ringLog2 : Nat
  quantum  : Nat
  errBase  : Nat
  errLog2  : Nat
  saveBase : Nat
deriving DecidableEq, Repr

/-- QSTATE (R28). -/
inductive QSt where
  | empty | ready | blocked | awaiting | stopped | error
deriving DecidableEq, Repr

/-- How far a thread is with the packet at RDIDX beyond what QSTATE says: not at all, taken and not finished, or its writes sent through a peer window and
not acknowledged (R35, R327). -/
inductive Hand where
  | none | begun | sent
deriving DecidableEq, Repr

/-- A queue as its thread holds it (R28, R36, R39 to R41). `bad` marks a QCB that cannot be read (R30), `seqword` is the SEQ of the
last read of the configuration that counted (R29), `postErr` holds the packets posted while DEVPOST was clear (R108), `grantEff` is EFFPRIO at the last grant and
`noHalt` bars the runtime's policy from halting its tasks (R348). -/
structure Queue where
  part     : Nat
  qid      : Nat
  qcb      : Nat
  thread   : Option Nat
  cfg      : Option QCfg
  cfgOk    : Bool
  bad      : Bool
  rdidx    : Nat
  qstate   : QSt
  effprio  : Nat
  age      : Nat
  lastGrant : Nat
  grantEff : Nat
  errcnt   : Nat
  seqword  : Option Nat
  waitFrom : Option Nat
  waiting  : Nat
  postErr  : List (Nat × Nat)
  granted  : Bool
  noHalt   : Bool
  hand     : Hand
deriving DecidableEq, Repr

/-- A COPY of the hub copy channel in flight (R34): `done` bytes are moved. `dead` marks one that is over and whose timeline could not be
written, behind which a held packet waits (R34, R35). -/
structure HubCopy where
  part  : Nat
  qid   : Nat
  pkt   : Nat
  utag  : Nat
  src   : Word
  dst   : Word
  bytes : Nat
  done  : Nat
  tl    : Word
  value : Word
  dead  : Bool
deriving DecidableEq, Repr

/-- The queue processor (R39 to R41): its queues, hub copies, the slot last granted at each level, when the present quantum began, and the incarnation number
of the hub copy channel (R226). -/
structure Qp where
  queues : List Queue
  hub    : List HubCopy
  rr     : List (Nat × Nat)
  qstart : Nat
  hubInc : BitVec 8
deriving DecidableEq, Repr

/-- An accepted launch (R15 to R25, R45 to R47, R313 to R320). `kernels` holds the object and entry of the kernel, or of each
stage; `eff` EFFPRIO at the grant (R348); `resume` the listed LIN ranges; `cursor` the next workgroup (for a pipeline the next task, then the next release); `homes`
the hart at which each task was bound; `wgLeft` the bound tasks of a workgroup not yet over; `lost` the tasks ended otherwise than
by kexit; `ranges` the write ranges of R319; `wrote` whether the completion record is written. -/
structure Launch where
  id       : Nat
  part     : Nat
  qid      : Nat
  pkt      : Nat
  utag     : Nat
  kind     : Nat
  eff      : Nat
  hdr      : Word
  header   : List Byte
  kernels  : List (Nat × Word)
  taccept  : Nat
  total    : Nat
  resume   : Option (List (Nat × Nat))
  die      : Option Nat
  lastCluster : Option Nat
  cursor   : Nat
  homes    : List (Nat × Nat)
  retired  : List Nat
  lost     : List Nat
  wgLeft   : List (Nat × Nat)
  status   : Nat
  faulted  : Bool
  killed   : Bool
  severed  : Bool
  reset    : Bool
  ranges   : List (Word × Nat)
  nrec     : Nat
  drop     : Nat
  wrote    : Bool
  done     : Bool
deriving DecidableEq, Repr

/-- A barrier of a workgroup (R242, R243): its generation, the LINs that have arrived in order, and for each
completed generation not yet left the participants with their results. -/
structure Barrier where
  launch  : Nat
  wg      : Nat
  gen     : Nat
  arrived : List Nat
  results : List (Nat × Nat)
deriving DecidableEq, Repr

/-- A context held in a save area (R103, R214, R241): the area's physical address and what is not in it. -/
structure Saved where
  area  : Nat
  hart  : Nat
  seq   : Seq
deriving DecidableEq, Repr

/-- A fragment or cover slot held in a blend unit's reorder window (R281). -/
structure HeldSlot where
  slot : Nat
  key  : Word
  body : List Byte
deriving DecidableEq, Repr

/-- A DRAW in progress (R269): next meshlet, acknowledged meshlets, highest close marker pushed, failures. -/
structure DrawSt where
  slot  : Nat
  body  : List Byte
  next  : Nat
  acked : List Nat
  run   : Nat
  failed : Bool
deriving DecidableEq, Repr

/-- What a slot has still to write (R267): its writes in order, then its RESULT and ERRADDR. -/
structure SlotWork where
  slot   : Nat
  writes : List (Word × List Byte)
  result : Nat
  addr   : Word
deriving DecidableEq, Repr

/-- An agent block (R264 to R269, R280). `doneLoc` keeps, by slot, where the completion signal goes. -/
structure Agent where
  inc     : BitVec 8
  en      : Bool
  errcnt  : Nat
  lastErr : Nat
  late    : Bool
  ordErr  : Bool
  err     : Bool
  atp     : Word
  qbase   : Word
  qsize   : Nat
  qhead   : Nat
  qtail   : Nat
  errAddr : Word
  errSlot : Nat
  ready   : List Nat
  broken  : List Nat
  finished : List (Nat × Nat × Word)
  doneLoc : List (Nat × Loc)
  draw    : Option DrawSt
  tbase   : Word
  tstride : Word
  tsize   : Word
  nextOpen : Word
  ord     : Bool
  window  : List HeldSlot
  work    : Option SlotWork
  tlb     : List TlbEntry
deriving DecidableEq, Repr

/-- A die's power controller (R336). `lowFor` counts 100 µs ticks spent below 95 % of the limit, `tickAt` is when it last decided. -/
structure Power where
  plimit : Nat
  pnow   : Nat
  cap    : Nat
  steps  : Nat
  whold  : Bool
  therm  : Bool
  lowFor : Nat
  tickAt : Nat
deriving DecidableEq, Repr

/-- A flow of FHT in one direction each (R325): SEQ expected, next SEQ to send, oldest unacknowledged, window, resends, and when the
wait for a rise of ACK began. -/
structure Flow where
  part    : Nat
  flow    : Nat
  expect  : Nat
  next    : Nat
  oldest  : Nat
  window  : Nat
  good    : Nat
  resends : Nat
  sentAt  : Nat
  lost    : Bool
deriving DecidableEq, Repr

/-- A message the device has sent to a host or peer (R323, R326, R327). -/
inductive Sent where
  | event (part code qid : Nat) (addr value : Word) (extra : List Word)
  | answer (part flow : Nat) (nak ece : Bool) (arg : Word) (payload : List Byte)
  | ack (part flow seq : Nat) (ece : Bool)
  | resend (part flow seq : Nat)
  | peerRead (part flow hart p : Nat) (addr : Word) (len : Nat)
  | peerWrite (part flow p : Nat) (addr : Word) (payload : List Byte)
  | peerNotify (part flow p : Nat) (op tag : Nat) (addr value : Word)
deriving DecidableEq, Repr

/-- A read through a peer window by a party that runs no instruction, or by an engine (R327): the place, and the answer once it is there
(no bytes: the read is lost). -/
structure PeerAsk where
  party : Party
  part  : Nat
  pa    : Nat
  len   : Nat
  got   : Option (List Byte)
deriving DecidableEq, Repr

/-- A write or red that a party has sent through a peer window and that is not acknowledged (R229, R327): its window, its flow and its place in
it. -/
structure PeerOut where
  party : Party
  part  : Nat
  p     : Nat
  flow  : Nat
  seq   : Nat
  red   : Bool
deriving DecidableEq, Repr

/-- What a write of the front end or of a queue thread is for, which says what its failure does: a live field of the QCB (R30), the slot of a packet
posted (R108; its index and UTAG), the error area or the completion record of a launch (R21; as TYPE 17 names them), or a record that is dropped (log 15). -/
inductive FrontWhy where
  | live
  | slot (pkt utag : Nat)
  | report (which : Nat)
  | record
deriving DecidableEq, Repr

/-- A write of the front end or of a queue thread that waits for the rod of its region (R211, R212). -/
structure FrontWork where
  part  : Nat
  qid   : Nat
  why   : FrontWhy
  va    : Word
  bytes : List Byte
deriving DecidableEq, Repr

/-- The host port and the scale-out ports (R321 to R327): flows, messages sent (newest last), messages that wait for room in their flow's window, frames dropped,
reads that wait, and writes that are not acknowledged. -/
structure HostPort where
  flows : List Flow
  sent  : List Sent
  later : List Sent
  drops : Nat
  asks  : List (Nat × PeerAsk)
  out   : List PeerOut
deriving DecidableEq, Repr

/-- Start-up, firmware and links (R31, R43, R318, R330, R333 to R335). `stageAt` is when the present stage began,
`bootFails` FAILS as the start found it (R78). `cut` is the model's own, and none between steps: the boundary whose failure a step works out, how many accesses across it
are still answered, and whether one is lost. -/
structure Dev where
  stage    : Nat
  stageAt  : Nat
  full     : Bool
  cause    : Nat
  fails    : Nat
  bootFails : Nat
  failCause : Nat
  minimal  : Bool
  ownerKey : Option (List Byte)
  ownerQ   : List (List Byte × Nat)
  fwWrites : Nat
  fwList   : List Nat
  alive    : Nat
  severed  : List Nat
  rerouted : List Nat
  cut      : Option (Nat × Nat × Bool)
deriving DecidableEq, Repr

/-- What the next step does: take an event, or run an instruction of a hart (log 2). -/
inductive Agenda where
  | event (i : Instr)
  | run (hart : Nat)
deriving DecidableEq, Repr

/-- The machine. `hart` is the running hart and `seq` its state; `seqs` holds the other harts; `front` the writes that wait at the front
end, oldest first; `moved` the sequencers that contexts have left, as the runtime knows them, latest last (R308). -/
structure State where
  hart     : Nat
  seq      : Seq
  seqs     : List (Nat × Seq)
  cores    : List (Nat × Core)
  clusters : List (Nat × Cluster)
  mem      : List Host.Cell
  coh      : Coh
  objs     : List Obj
  old      : List OldBody
  parts    : List (Nat × Part)
  qp       : Qp
  launches : List Launch
  barriers : List Barrier
  saved    : List Saved
  agents   : List (Nat × Agent)
  power    : List (Nat × Power)
  net      : List Msg
  moved    : List (Nat × Ctx)
  host     : HostPort
  dev      : Dev
  front    : List FrontWork
  agenda   : List Agenda
  time     : Nat
  draws    : Nat
deriving DecidableEq, Repr

/-- Vector state at task start (R26), the same after reset (log 5): 32 named registers, vill set. -/
def Vec.reset : Vec :=
  { regs := Vector.replicate 32 0, nreg := 2, vlen := 0, vtype := 0x8000000000000000, vl := 0, vstart := 0,
    vxrm := 0, vxsat := false, hmask := 0, grant := 0, weight := 1, wants := false, setAt := 0, fresh := true, released := false,
    mstack := [], mdepth := 0 }

/-- R78's Reset column. -/
def Ctl.reset : Ctl :=
  { msksp := 0, mprog := 0, mstra := 0, mstrb := 0, xsflags := 0, vstrunc := false, htbase := 0, wid := 0,
    cgen := 0, itbudget := 65536, fwdlife := 100000, dbgEn := false, dbgHead := 0, dbgSeq := 0 }

/-- The causes of R297 that a sequencer takes itself, which medeleg delegates to S mode (log 7). -/
def delegated : Word := 0x0001_0000_6F00_B1FE

/-- The ratified reset values, and zero where there is none (log 6, 7). -/
def Priv.reset : Priv :=
  { mstatus := 0x0000000A00002200, medeleg := delegated, mideleg := 0x10222, mie := 0, mip := 0, mtvec := 0,
    mscratch := 0, mepc := 0, mcause := 0, mtval := 0, menvcfg := 0, mcounteren := 2, stvec := 0,
    sscratch := 0, sepc := 0, scause := 0, stval := 0, satp := 0, senvcfg := 0, scounteren := 2,
    minstret := 0, pmpcfg := Vector.replicate 16 0, pmpaddr := Vector.replicate 64 0 }

/-- A U-mode issuer without translation, which stands where no command has been issued. -/
def Issuer.task : Issuer := { mode := .u, satp := 0, sum := false, mxr := false }

def CopyCtx.reset : CopyCtx :=
  { iss := 0, count := 0, late := [], ops := [], chains := [], failN := 0, failVa := 0, failCause := 0, failEntry := 0 }
def MatCtx.reset : MatCtx := { iss := 0, count := 0, ops := [], pend := none, report := 0 }
def Stream.reset : Stream :=
  { base := 0, stride := 0, count := 0, ew := 0, state := .idle, fcause := 0, next := 0, marker := none,
    queue := [], op := 0, issuer := .task }
def StreamCtx.reset : StreamCtx := { iss := 0, count := 0, late := [], streams := Vector.replicate 4 Stream.reset }
def Handler.reset : Handler :=
  { mode := false, inside := false, hidx := 0, owed := false, reqHart := 0, rtag := 0, rhidx := 0, slot := none, retry := none }

/-- A hart after reset: M mode (the family's, log 6), every register at its named value (log 5). -/
def Seq.reset : Seq :=
  { x := Vector.replicate 32 0, f := Vector.replicate 32 0, pc := 0, mode := .m, frm := 0, fflags := 0,
    loops := [], atEdge := false, latch := { len := 4, bits := 0, form := .native }, stall := none, since := none,
    run := .free, resv := none, pend := [], epend := false, eraCount := 0, halt := none, budget := false,
    priv := .reset, vec := .reset, ctl := .reset, copy := .reset, mat := .reset, strm := .reset, tex := [], fails := [],
    task := none, hs := .reset, reqs := [], barGen := none, peerAsk := none, peerGot := [], elems := [], armed := none, fenced := false }

/-- A core after die reset: DIS 0 (R78), nothing held. -/
def Core.reset : Core :=
  { dis := 0, rot := 0, rotAt := 0, holder := none, accs := Vector.replicate 4 (Vector.replicate 64 0), marks := [],
    fenced := 0, inbox := [], armed := [], heldMsg := [], chans := [], allocs := [], fwd := [],
    inc := 0, retain := false, lru := [], user := 0, corr := [], dtlb := [], itlb := [] }

def Cluster.reset : Cluster := { lreq := 0, tlb := [] }
def Coh.reset : Coh := { dir := [], rods := [], beads := [], poison := [], plocal := [], pclean := [], copies := [], away := [], unsure := [] }

/-- Partition 0 after the first start of a device holds every resource (R331). Its error log and park pool
are placed as R331 and R222 place a new partition's (log 13). -/
def Part.zero : Part :=
  { clusters := BitVec.allOnes 64, granules := BitVec.allOnes 768, agents := 0x01FF01FF01FF01FF, mac := 0, vlan := 0,
    codeKey := [], queues := [], homing := [], lease := Config.defaultLease,
    logBase := 0, logLog2 := 6, parkBase := 0xC000000000 - 0x800000, parkLog2 := 12, peers := [], gen := 1,
    mailbox := [], cmds := [], isolated := false }

/-- An agent block at reset (R265, R269, R280). -/
def Agent.reset : Agent :=
  { inc := 0, en := false, errcnt := 0, lastErr := 0, late := false, ordErr := false, err := false,
    atp := 0, qbase := 0, qsize := 0, qhead := 0, qtail := 0, errAddr := 0, errSlot := 0, ready := [], broken := [],
    finished := [], doneLoc := [], draw := none, tbase := 0, tstride := 0, tsize := 0, nextOpen := 0, ord := true, window := [],
    work := none, tlb := [] }

/-- A power controller at reset (R336). -/
def Power.reset : Power :=
  { plimit := 3200, pnow := 0, cap := 8, steps := 0, whold := false, therm := false, lowFor := 0, tickAt := 0 }

/-- The machine right after reset: the time base is 0 (R7), nothing is bound, memory lists nothing. -/
def State.reset : State :=
  { hart := 0, seq := { Seq.reset with run := .running }, seqs := [], cores := [], clusters := [], mem := [], coh := .reset, objs := [], old := [],
    parts := [(0, .zero)], qp := { queues := [], hub := [], rr := [], qstart := 0, hubInc := 0 }, launches := [], barriers := [], saved := [],
    agents := [], power := [], net := [], moved := [], host := { flows := [], sent := [], later := [], drops := 0, asks := [], out := [] },
    dev := { stage := 0, stageAt := 0, full := false, cause := 0, fails := 0, bootFails := 0, failCause := 0, minimal := false, ownerKey := none, ownerQ := [],
             fwWrites := 1, fwList := [1], alive := 0, severed := [], rerouted := [], cut := none },
    front := [], agenda := [], time := 0, draws := 0 }

end Sys2Proof.Machine
end

