-- ==== Sys2Proof/Machine/Base.lean ====
section
/-! DEFINITION. Accessors of the state: keyed lists, registers, harts, cores, memory bytes in their canonical
form, time and free values. Every read and write of a register or a byte of memory goes through these. -/

namespace Sys2Proof.Machine

/-! ## Lists keyed by a number -/

/-- The value under a key. -/
def aget {α : Type} (l : List (Nat × α)) (k : Nat) : Option α :=
  match l with
  | [] => none
  | (k', v) :: rest => if k' = k then some v else aget rest k

/-- Puts a value under a key, keeping the keys ascending. -/
def aput {α : Type} (l : List (Nat × α)) (k : Nat) (v : α) : List (Nat × α) :=
  match l with
  | [] => [(k, v)]
  | (k', v') :: rest =>
    if k' = k then (k, v) :: rest else if k < k' then (k, v) :: (k', v') :: rest else (k', v') :: aput rest k v

/-- Removes a key. -/
def adel {α : Type} (l : List (Nat × α)) (k : Nat) : List (Nat × α) := l.filter fun p => p.1 ≠ k

/-- Inserts a number into an ascending list, once. -/
def insNat (l : List Nat) (k : Nat) : List Nat :=
  match l with
  | [] => [k]
  | x :: xs => if k < x then k :: x :: xs else if k = x then x :: xs else x :: insNat xs k

/-! ## Numbering (R5, R6) -/

def coreOf (hart : Nat) : Nat := hart / 4
def clusterOf (core : Nat) : Nat := core / 16
def dieOf (core : Nat) : Nat := core / 256
/-- The cluster of a hart; supervisor hart 4096 + c belongs to cluster c. -/
def hartCluster (hart : Nat) : Nat := if hart < 4096 then hart / 64 else hart - 4096
def supervisorOf (cluster : Nat) : Nat := 4096 + cluster
def isSupervisor (hart : Nat) : Bool := decide (4096 ≤ hart)

/-- A cluster's supervisor hart; harts from 4,160 on are the threads of the queue processor (R39). -/
def isClusterSup (hart : Nat) : Bool := decide (4096 ≤ hart ∧ hart < 4160)

/-! ## Memory bytes (log 4): a sorted list with no entry equal to 0 -/

/-- The byte at a physical address. -/
def memGet (m : List Host.Cell) (a : Nat) : Byte :=
  match m with
  | [] => 0
  | (k, b) :: rest => if k = a then b else memGet rest a

/-- Writes a byte, keeping the canonical form. -/
def memSet (m : List Host.Cell) (a : Nat) (v : Byte) : List Host.Cell :=
  match m with
  | [] => if v = 0 then [] else [(a, v)]
  | (k, b) :: rest =>
    if k = a then (if v = 0 then rest else (a, v) :: rest)
    else if a < k then (if v = 0 then (k, b) :: rest else (a, v) :: (k, b) :: rest)
    else (k, b) :: memSet rest a v

/-- The canonical form: addresses strictly rising, no byte 0. -/
def Memory.wf : List Host.Cell → Bool
  | [] => true
  | [(_, b)] => b != 0
  | (k, b) :: (k', b') :: rest => b != 0 && decide (k < k') && Memory.wf ((k', b') :: rest)

/-- n bytes from an address. -/
def memRead (m : List Host.Cell) (a : Nat) : Nat → List Byte
  | 0 => []
  | n + 1 => memGet m a :: memRead m (a + 1) n

/-- Writes bytes from an address up. -/
def memWrite (m : List Host.Cell) (a : Nat) : List Byte → List Host.Cell
  | [] => m
  | b :: bs => memWrite (memSet m a b) (a + 1) bs

/-! ## Parts of the state -/

/-- The state of a hart. -/
def State.getSeq (s : State) (h : Nat) : Seq := if h = s.hart then s.seq else (aget s.seqs h).getD Seq.reset

/-- Sets the state of a hart. -/
def State.setSeq (s : State) (h : Nat) (q : Seq) : State :=
  if h = s.hart then { s with seq := q } else { s with seqs := aput s.seqs h q }

def State.modSeq (s : State) (h : Nat) (f : Seq → Seq) : State := s.setSeq h (f (s.getSeq h))

/-- Changes the running hart's state. -/
def State.upd (s : State) (f : Seq → Seq) : State := { s with seq := f s.seq }

/-- Makes another hart the running one. -/
def State.switch (s : State) (h : Nat) : State :=
  if h = s.hart then s
  else { s with hart := h, seq := s.getSeq h, seqs := adel (aput s.seqs s.hart s.seq) h }

/-- Every hart id with a state of its own. -/
def State.harts (s : State) : List Nat := s.hart :: s.seqs.map (·.1)

def State.core (s : State) (c : Nat) : Core := (aget s.cores c).getD Core.reset
def State.setCore (s : State) (c : Nat) (k : Core) : State := { s with cores := aput s.cores c k }
def State.modCore (s : State) (c : Nat) (f : Core → Core) : State := s.setCore c (f (s.core c))
def State.cluster (s : State) (c : Nat) : Cluster := (aget s.clusters c).getD Cluster.reset
def State.setCluster (s : State) (c : Nat) (k : Cluster) : State := { s with clusters := aput s.clusters c k }
def State.agent (s : State) (a : Nat) : Agent := (aget s.agents a).getD Agent.reset
def State.setAgent (s : State) (a : Nat) (g : Agent) : State := { s with agents := aput s.agents a g }
def State.modAgent (s : State) (a : Nat) (f : Agent → Agent) : State := s.setAgent a (f (s.agent a))
def State.powerOf (s : State) (d : Nat) : Power := (aget s.power d).getD Power.reset
def State.setPower (s : State) (d : Nat) (p : Power) : State := { s with power := aput s.power d p }
/-- CAP of a core: its die's controller applies one to all (R78, R336). -/
def State.capOf (s : State) (core : Nat) : Nat := (s.powerOf (dieOf core)).cap
def State.part (s : State) (p : Nat) : Option Part := aget s.parts p
def State.setPart (s : State) (p : Nat) (x : Part) : State := { s with parts := aput s.parts p x }
def State.modPart (s : State) (p : Nat) (f : Part → Part) : State :=
  match s.part p with | some x => s.setPart p (f x) | none => s

def State.launch? (s : State) (id : Nat) : Option Launch := s.launches.find? fun l => l.id == id

def State.queue? (s : State) (part qid : Nat) : Option Queue := s.qp.queues.find? fun q => q.part == part && q.qid == qid

def State.modQueue (s : State) (part qid : Nat) (f : Queue → Queue) : State :=
  { s with qp := { s.qp with queues := s.qp.queues.map fun x => if x.part = part ∧ x.qid = qid then f x else x } }
def State.setQueue (s : State) (q : Queue) : State := s.modQueue q.part q.qid fun _ => q

/-- PRIO of the queue of a launch. -/
def State.prioOf (s : State) (l : Launch) : Nat := (((s.queue? l.part l.qid).bind fun q => q.cfg).map (·.prio)).getD 0
def State.setLaunch (s : State) (l : Launch) : State :=
  { s with launches := s.launches.map fun x => if x.id = l.id then l else x }
def State.modLaunch (s : State) (id : Nat) (f : Launch → Launch) : State :=
  { s with launches := s.launches.map fun x => if x.id = id then f x else x }

def State.obj? (s : State) (i : Nat) : Option Obj := s.objs[i]?
def State.modObj (s : State) (i : Nat) (f : Obj → Obj) : State :=
  match s.objs[i]? with | some o => { s with objs := s.objs.set i (f o) } | none => s

/-- The partition that holds a cluster (R328); 0 where none does. -/
def State.partOfCluster (s : State) (c : Nat) : Nat :=
  match s.parts.find? (fun p => p.2.clusters.getLsbD c) with
  | some p => p.1
  | none => 0

/-- The partition of a hart: its task's, else its cluster's. -/
def State.partOf (s : State) (h : Nat) : Nat :=
  match (s.getSeq h).task with
  | some t => t.part
  | none => s.partOfCluster (hartCluster h)

/-- Is a partition isolated (R224)? -/
def State.isolatedPart (s : State) (p : Nat) : Bool := match aget s.parts p with | some x => x.isolated | none => false

/-- The context running on a hart. -/
def ctxOf (q : Seq) (h : Nat) : Ctx :=
  match q.task with
  | some t => .task t.launch t.lin
  | none => .bare h

/-- The hart on which a context runs, if it does. -/
def State.hartOf (s : State) (c : Ctx) : Option Nat :=
  s.harts.find? fun h => ctxOf (s.getSeq h) h == c

/-! ## Registers (R76, R2: x0 reads 0 and discards writes) -/

def Seq.rx (q : Seq) (r : Reg) : Word := if r = 0 then 0 else q.x[r.toNat]'(r.isLt)
def Seq.wx (q : Seq) (r : Reg) (v : Word) : Seq := if r = 0 then q else { q with x := q.x.set r.toNat v r.isLt }
def Seq.rf (q : Seq) (r : Reg) : Word := q.f[r.toNat]'(r.isLt)
def Seq.wf (q : Seq) (r : Reg) (v : Word) : Seq := { q with f := q.f.set r.toNat v r.isLt }
def Seq.rv (q : Seq) (r : Nat) : VBits := if h : r < 32 then q.vec.regs[r]'h else 0
def Seq.wv (q : Seq) (r : Nat) (v : VBits) : Seq :=
  if h : r < 32 then { q with vec := { q.vec with regs := q.vec.regs.set r v h } } else q

/-- x[r] of the running hart. -/
def State.x (s : State) (r : Reg) : Word := s.seq.rx r
/-- Writes x[r] of the running hart. -/
def State.setX (s : State) (r : Reg) (v : Word) : State := { s with seq := s.seq.wx r v }
def State.f (s : State) (r : Reg) : Word := s.seq.rf r
def State.setF (s : State) (r : Reg) (v : Word) : State := { s with seq := s.seq.wf r v }
/-- Accumulates fflags. -/
def State.flag (s : State) (fl : BitVec 5) : State := { s with seq := { s.seq with fflags := s.seq.fflags ||| fl } }
/-- Accumulates xsflags of the running hart. -/
def State.xflag (s : State) (fl : BitVec 4) : State :=
  { s with seq := { s.seq with ctl := { s.seq.ctl with xsflags := s.seq.ctl.xsflags ||| fl } } }
def State.setXV (s : State) (h : Nat) (fl : BitVec 4) : State :=
  s.modSeq h fun q => { q with ctl := { q.ctl with xsflags := q.ctl.xsflags ||| fl } }

/-- Named registers (R74 item 2, R78). -/
def Vec.nregs (v : Vec) : Nat := if v.nreg = 0 then 8 else if v.nreg = 1 then 16 else 32

/-- Lane groups of a mask. -/
def popcount (m : BitVec 8) : Nat := (List.range 8).foldl (fun n i => if m.getLsbD i then n + 1 else n) 0

/-! ## Free values and time -/

/-- A fresh free 64-bit value (log 8). -/
def State.draw (s : State) : Word × State := (Config.freeWord s.draws, { s with draws := s.draws + 1 })

/-- n bytes that the spec leaves open (log 8). -/
def State.freeBytes (s : State) : Nat → List Byte × State
  | 0 => ([], s)
  | n + 1 => let r := s.draw.2.freeBytes n; (s.draw.1.setWidth 8 :: r.1, r.2)

/-- Sign extension of the low n bytes of a number to a word. -/
def sextBytes (n v : Nat) : Word := (BitVec.ofNat 64 (v * 2 ^ (64 - 8 * n))).sshiftRight (64 - 8 * n)

/-- The low n bits of a word as a number. -/
def lowBits (w : Word) (n : Nat) : Nat := w.toNat % 2 ^ n

/-! ## Results of the parts of an instruction -/

/-- A part of an instruction answers a value and a state, a trap with the state in which it is taken, or a stall
that leaves a state behind. -/
inductive Res (α : Type) where
  | ok (a : α) (s : State)
  | trap (cause : Nat) (tval : Word) (s : State)
  | stall (why : Stall) (s : State)

/-- Sequencing. -/
def Res.bind {α β : Type} (r : Res α) (f : α → State → Res β) : Res β :=
  match r with
  | .ok a s => f a s
  | .trap c v s => .trap c v s
  | .stall w s => .stall w s

/-- The value if there is one; traps and stalls give none. -/
def Res.value? {α : Type} (r : Res α) : Option α :=
  match r with
  | .ok a _ => some a
  | _ => none

end Sys2Proof.Machine
end

