-- ==== Sys2Proof/Machine/Map.lean ====
section
/-! DEFINITION. The physical map (R125, R126), the parties that reach memory and what each access carries (R140, R211), homes and kinds (R53
to R55, R135), and the boundaries between dies (R318). -/

namespace Sys2Proof.Machine

/-! ## The physical map (R125) -/

/-- The map; none is unmapped. Agents are numbered 16 * die + index. -/
def physTarget (pa : Nat) : Option Target :=
  if pa < 0x00C000000000 then some .hbm
  else if pa < 0x100000000000 then none
  else if pa < 0x200000000000 then some .host
  else if pa < 0xE00000000000 then some (.peer ((pa - 0x200000000000) / 2 ^ 40))
  else if pa < Config.scratchBase then none
  else if pa < Config.scratchBase + 2 ^ 28 then
    let o := pa % 2 ^ 18
    if o < Config.scratchBytes then some (.scratch ((pa - Config.scratchBase) / 2 ^ 18) o) else none
  else if pa < Config.roundedBase then none
  else if pa < Config.roundedBase + 2 ^ 28 then
    let o := pa % 2 ^ 18
    if o < Config.scratchBytes then some (.rounded ((pa - Config.roundedBase) / 2 ^ 18) o) else none
  else if pa < Config.ringBase then none
  else if pa < Config.ringBase + 2 ^ 23 then some (.ring ((pa - Config.ringBase) / 2 ^ 11))
  else if pa < Config.agentBase then none
  else if pa < Config.agentBase + 2 ^ 22 then
    let d := (pa - Config.agentBase) / 2 ^ 20
    let a := pa / 2 ^ 12 % 2 ^ 8
    if a < 9 ∨ a = 15 then some (.agent (16 * d + a) (pa % 2 ^ 12)) else none
  else none

/-! ## Parties -/

/-- Through what an access is made: the party, its number in directories (a core id, 1024 + agent, 2048 the hub, 2049 a
queue thread), the hart whose xsflags a read sets, partition, privilege, satp, SUM, MXR, HOMEN, PBMTE, the cluster whose shared TLB and
the core whose L1 TLBs it uses (R140), whether an engine makes it, for which no instruction waits, and whether its addresses are physical (R323). -/
structure Via where
  party : Party
  num   : Nat
  hart  : Option Nat
  part  : Nat
  mode  : Mode
  satp  : Word
  sum   : Bool
  mxr   : Bool
  homen : Bool
  pbmte : Bool
  tlb   : Option Nat
  l1    : Option Nat
  eng   : Bool
  phys  : Bool
deriving DecidableEq, Repr

def Word.bit (w : Word) (i : Nat) : Bool := w.getLsbD i

/-- The accesses of a context with the state q on a hart (R140, R211). -/
def Seq.viaAt (q : Seq) (h part : Nat) : Via :=
  let st := q.priv.mstatus
  let mpp : Mode := if (st.toNat / 2 ^ 11) % 4 = 3 then .m else if (st.toNat / 2 ^ 11) % 4 = 1 then .s else .u
  { party := .ctx (ctxOf q h), num := if h < 4096 then coreOf h else 4096 + h, hart := some h, part := part,
    mode := if q.mode = .m ∧ st.getLsbD 17 then mpp else q.mode,
    satp := q.priv.satp, sum := st.getLsbD 18, mxr := st.getLsbD 19, homen := q.priv.menvcfg.getLsbD 57,
    pbmte := q.priv.menvcfg.getLsbD 62, tlb := if h < 4160 then some (hartCluster h) else none,
    l1 := if h < 4096 then some (coreOf h) else none, eng := false, phys := false }

def State.viaHart (s : State) (h : Nat) : Via := (s.getSeq h).viaAt h (s.partOf h)

def State.via (s : State) : Via := s.viaHart s.hart

/-- The fetches of a hart: MPRV does not act on them. -/
def State.viaFetch (s : State) (h : Nat) : Via := { s.viaHart h with mode := (s.getSeq h).mode }

/-- The fetch unit's own reads of the dispatch and LMAP tables (R70, R71), which the partition's S mode may read. -/
def State.viaTables (s : State) (h : Nat) : Via := { s.viaHart h with mode := .s, sum := true, mxr := true }

/-- The spills of a task run at its own privilege, whatever handler runs. -/
def State.viaTask (s : State) (h : Nat) : Via := { s.viaHart h with mode := .u }

/-- The privilege and the translation that a context gives an engine command (R140). -/
def State.issuer (s : State) (h : Nat) : Issuer :=
  let v := s.viaHart h
  { mode := v.mode, satp := v.satp, sum := v.sum, mxr := v.mxr }

/-- The accesses of an engine of a hart for a command of an issuer (R140): `copy` engines use the shared TLB alone. -/
def State.viaEng (s : State) (h : Nat) (i : Issuer) (copy : Bool) : Via :=
  { s.viaHart h with
    mode := i.mode, satp := i.satp, sum := i.sum, mxr := i.mxr, eng := true, l1 := if copy ∨ 4096 ≤ h then none else some (coreOf h) }

/-- The supervisor hart of a partition's lowest cluster. -/
def State.leadOf (s : State) (p : Nat) : Option Nat :=
  match s.part p with
  | none => none
  | some x => ((List.range 64).find? fun c => x.clusters.getLsbD c).map supervisorOf

/-- HOMEN and PBMTE of a partition (R53) and its translation: menvcfg and satp of that hart (log 20). -/
def State.envOf (s : State) (p : Nat) : Word :=
  match s.leadOf p with | some h => (s.getSeq h).priv.menvcfg | none => 0
def State.satpOf (s : State) (p : Nat) : Word :=
  match s.leadOf p with | some h => (s.getSeq h).priv.satp | none => 0

/-- The accesses of a party that is no hart, by a translation. -/
def State.viaOf (s : State) (party : Party) (num p : Nat) (mode : Mode) (satp : Word) : Via :=
  { party := party, num := num, hart := none, part := p, mode := mode, satp := satp, sum := true, mxr := false,
    homen := (s.envOf p).getLsbD 57, pbmte := (s.envOf p).getLsbD 62, tlb := none, l1 := none, eng := false, phys := false }

/-- A queue processor thread, in the partition's address space (R28, R32). -/
def State.viaQueue (s : State) (p qid : Nat) : Via := s.viaOf (.queue p qid) 2049 p .s (s.satpOf p)

/-- The hub copy channel, with physical addresses (R323) or in a partition's address space (R34). -/
def State.viaHub (s : State) (p : Nat) (phys : Bool) : Via := { s.viaOf .hub 2048 p .s (if phys then 0 else s.satpOf p) with phys := phys }

/-- The partition that owns an agent (R264). -/
def State.partOfAgent (s : State) (a : Nat) : Nat :=
  match s.parts.find? (fun p => p.2.agents.getLsbD a) with
  | some p => p.1
  | none => 0

/-- An agent's accesses (R264), by the translation in ATP. -/
def State.viaAgent (s : State) (a : Nat) : Via := s.viaOf (.agent a) (1024 + a) (s.partOfAgent a) .u (s.agent a).atp

/-- The partition that owns an HBM address. -/
def State.partOfHbm (s : State) (pa : Nat) : Nat :=
  match s.parts.find? (fun p => p.2.granules.getLsbD (pa / 2 ^ 30)) with
  | some p => p.1
  | none => 0

/-! ## Homing (R53 to R55) -/

/-- Number of set bits of a mask below n. -/
def countBits (m : BitVec 256) : Nat → Nat
  | 0 => 0
  | n + 1 => countBits m n + (if m.getLsbD n then 1 else 0)

/-- Index of the o-th set bit at or above i, within n more bits. -/
def nthSet (m : BitVec 256) (o : Nat) : Nat → Nat → Nat
  | _, 0 => 0
  | i, n + 1 =>
    if m.getLsbD i then (if o = 0 then i else nthSet m (o - 1) (i + 1) n) else nthSet m o (i + 1) n

/-- XOR of the b-bit groups of a number, n groups. -/
def foldGroups (l b : Nat) : Nat → Nat
  | 0 => 0
  | n + 1 => (l % 2 ^ b) ^^^ foldGroups (l / 2 ^ b) b n

/-- The ordinal of a line among n slices (R55). -/
def homeOrdinal (n pa : Nat) : Nat :=
  let l := pa / 128 % 2 ^ 41
  if n ≤ 1 then 0
  else if 2 ^ n.log2 = n then foldGroups l n.log2 41
  else (foldGroups l 8 6 * n) / 256

/-- Is an entry valid (R54)? Bits 7:0 of CORE are read in mode 0 alone, so that mode 1 takes an entry with any value there (log 20). -/
def HomeEntry.valid (h : HomeEntry) : Bool :=
  h.ctrl.getLsbD 31 && !h.rsv && !h.ctrl.getLsbD 30 && (h.ctrl.toNat / 2 ^ 10 % 2 ^ 17 == 0) &&
    (!h.ctrl.getLsbD 29 || h.mask != 0)

def HomeEntry.kind (h : HomeEntry) : PKind :=
  match h.ctrl.toNat / 2 ^ 27 % 4 with
  | 0 => .p | 1 => .s | 2 => .b | _ => .u

/-- The home core of a line through an entry (R55). -/
def HomeEntry.home (h : HomeEntry) (pa : Nat) : Nat :=
  if h.ctrl.getLsbD 29 = false then h.ctrl.toNat % 2 ^ 10
  else
    let n := countBits h.mask 256
    h.ctrl.toNat / 2 ^ 8 % 4 * 256 + nthSet h.mask (homeOrdinal n pa) 0 256

/-- The die whose stacks hold an HBM address (R126). -/
def dieOfHbm (pa : Nat) : Nat := pa / 0x3000000000

/-- The home of a line that no entry places: the hash over the slices of its die (R53). -/
def bareHome (pa : Nat) : Nat := dieOfHbm pa * 256 + homeOrdinal 256 pa

/-- The entry of a partition's homing table. -/
def State.homeEntry (s : State) (p idx : Nat) : Option HomeEntry :=
  match s.part p with
  | some x => aget x.homing idx
  | none => none

/-- Kind and home of an HBM line (R53); none is a page fault. A bare address, and one that root maps for a code object, has no HOMEIDX (128 here); it takes the hash, and kind S (log 20). -/
def State.kindOf (s : State) (via : Via) (pbmt : BitVec 2) (home pa : Nat) : Option (PKind × Nat) :=
  if via.homen ∧ home < 128 then
    match s.homeEntry via.part home with
    | some e => if e.valid then some (e.kind, e.home pa) else none
    | none => none
  else
    some (if pbmt = 0 then .s else .u, bareHome pa)

/-- The core of a region's rod home: the home of its first line (R211). -/
def State.rodHome (s : State) (via : Via) (pbmt : BitVec 2) (home pa : Nat) : Nat :=
  ((s.kindOf via pbmt home (pa / 4096 * 4096)).map (·.2)).getD 0

/-! ## Die boundaries (R318) -/

/-- The die on which a target is served; none is served by the hub. -/
def Target.die (t : Target) (home : Nat) : Option Nat :=
  match t with
  | .hbm => some (dieOf home)
  | .scratch c _ | .rounded c _ => some (dieOf c)
  | .ring h => some (hartCluster h / 16)
  | .agent a _ => some (a / 16)
  | .host | .peer _ | .desc _ | .void => none

/-- The C die by which the hub's traffic to a die enters: its own link, or C0 or C1. -/
def hubSide (e : Nat) : Nat := if e < 2 then e else if Config.hubVia e then 1 else 0

/-- The die from which a party's traffic to a die comes: that of its hart or agent block, else the hub's way in. -/
def Party.dieTo (p : Party) (hart : Option Nat) (e : Nat) : Nat :=
  match hart, p with
  | some h, _ => if h < 4160 then hartCluster h / 16 else hubSide e
  | none, .agent a => a / 16
  | none, _ => hubSide e

/-- The two dies that a boundary joins (0 C0–C1, 1 C2–C3, 2 C0–C2, 3 C1–C3). -/
def joins (b : Nat) : Nat × Nat := if b = 0 then (0, 1) else if b = 1 then (2, 3) else if b = 2 then (0, 2) else (1, 3)

/-- Does the traffic from one die to another cross a boundary? -/
def crosses (d e b : Nat) : Bool :=
  decide (d ≠ e) && (if d + e = 3 then Config.diagonalVia d e b else joins b == (min d e, max d e))

/-- Is a die cut off: have both its boundaries failed? -/
def Dev.cutOff (v : Dev) (d : Nat) : Bool :=
  ((List.range 4).filter fun b => (joins b).1 == d || (joins b).2 == d).all fun b => v.severed.contains b || v.rerouted.contains b

/-- What becomes of an access across a boundary that has failed: it waits for the new route, or on a die cut off it is
not answered. -/
inductive Path where
  | open | waits | lost
deriving DecidableEq, Repr

/-- The traffic from die d to die e. -/
def Dev.route (v : Dev) (d e : Nat) : Path :=
  if d = e then .open
  else if v.cutOff d ∨ v.cutOff e then .lost
  else if v.severed.any (crosses d e) then .waits
  else .open

def State.path (s : State) (via : Via) (t : Target) (home : Nat) : Path :=
  if s.dev.severed = [] ∧ s.dev.rerouted = [] then .open
  else
    match t.die home with
    | some e => s.dev.route (via.party.dieTo via.hart e) e
    | none => .open

end Sys2Proof.Machine
end

