-- ==== Sys2Proof/Machine/Home.lean ====
section
/-! DEFINITION. What a home and a bank do (R131, R209): the directory (R208), poison (R317), reservations of LR and SC, P lines and untracked
copies of a core (R136, R143), the writes performed there; the messages sent to host and peers (R326, R327) and the error log (R316); and the
reckoning of Bead words (R219). -/

namespace Sys2Proof.Machine

/-! ## The directory (R208) -/

/-- Invalidates words of a line in every holder but one (R209). -/
def DirLine.invalidate (d : DirLine) (mask : BitVec 32) (except : Option Nat) : DirLine :=
  { d with holders := (d.holders.map fun p => if some p.1 = except then p else (p.1, p.2 &&& ~~~mask)).filter fun p => p.2 != 0,
           clusters := if d.union &&& ~~~mask = 0 then none else d.clusters, union := d.union &&& ~~~mask }

/-- The word mask of bytes pa .. pa + n - 1 within the line of pa. -/
def spanMask (pa n : Nat) : BitVec 32 :=
  if n = 0 then 0
  else
    let w := pa % 128 / 4
    let w' := min 31 ((pa % 128 + n - 1) / 4)
    BitVec.ofNat 32 (2 ^ (w' + 1) - 2 ^ w)

/-- Adds words to a party's word mask, at a home; the ninth holder turns the line to cluster mode (R208). -/
def DirLine.add (d : DirLine) (party home : Nat) (mask : BitVec 32) : DirLine :=
  match d.clusters with
  | some cs => { d with clusters := some (cs ||| (1 : BitVec 64) <<< (clusterOf party % 64)), union := d.union ||| mask, home := home }
  | none =>
    let old := (aget d.holders party).getD 0
    let hs := aput d.holders party (old ||| mask)
    if hs.length ≤ 8 then { d with holders := hs, home := home }
    else
      { holders := [],
        clusters := some (hs.foldl (fun c p => c ||| (1 : BitVec 64) <<< (clusterOf p.1 % 64)) 0),
        union := hs.foldl (fun u p => u ||| p.2) 0, home := home }

def DirLine.empty : DirLine := { holders := [], clusters := none, union := 0, home := 0 }

/-- Does an entry say nothing? -/
def DirLine.isEmpty (d : DirLine) : Bool := d.holders.isEmpty && d.clusters.isNone

def State.modDir (s : State) (line : Nat) (f : DirLine → DirLine) : State :=
  let d := f ((aget s.coh.dir line).getD DirLine.empty)
  { s with coh := { s.coh with dir := if d.isEmpty then adel s.coh.dir line else aput s.coh.dir line d } }

/-- Changes the directory entry of each line that n bytes touch, by the mask of the words touched. -/
def State.modLines (s : State) (pa n : Nat) (f : BitVec 32 → DirLine → DirLine) : State :=
  if n = 0 then s
  else
    (List.range ((pa + n - 1) / 128 + 1 - pa / 128)).foldl (fun st i =>
      let a := if i = 0 then pa else (pa / 128 + i) * 128
      st.modDir (a / 128) (f (spanMask a (pa + n - a)))) s

/-! ## Poison (R317) -/

/-- Poison of the sectors of a range. -/
def State.poisoned (s : State) (pa n : Nat) : Bool :=
  s.coh.poison.any fun k => decide (pa / 32 ≤ k ∧ k ≤ (pa + n - 1) / 32)

def State.poisonSector (s : State) (k : Nat) : State :=
  { s with coh := { s.coh with poison := insNat s.coh.poison k, pclean := s.coh.pclean.filter fun p => p.2 != k } }

def State.poisonRange (s : State) (pa n : Nat) : State :=
  (List.range ((pa + n - 1) / 32 + 1 - pa / 32)).foldl (fun st i => st.poisonSector (pa / 32 + i)) s

/-- Sectors wholly inside a range lose their poison on a write of unpoisoned data (R317). -/
def State.clearPoison (s : State) (pa n : Nat) : State :=
  { s with coh := { s.coh with poison := s.coh.poison.filter fun k => !(decide (pa ≤ 32 * k ∧ 32 * k + 32 ≤ pa + n)) } }

/-- The first poisoned byte of a range. -/
def State.firstPoison (s : State) (pa : Nat) : Nat → Option Nat
  | 0 => none
  | n + 1 =>
    match s.firstPoison pa n with
    | some a => some a
    | none => if s.poisoned (pa + n) 1 then some (pa + n) else none

/-! ## Reservations of LR/SC (R73, R132) -/

/-- The reservation set of an address: its 128-byte line, or its 64-byte chunk of scratch. -/
def resvBase (pa : Nat) : Nat := if pa < Config.scratchBase then pa / 128 * 128 else pa / 64 * 64
def resvSize (base : Nat) : Nat := if base < Config.scratchBase then 128 else 64

/-- A write to bytes of another hart's reservation set breaks the reservation. -/
def Seq.breakResv (q : Seq) (pa n : Nat) : Seq :=
  match q.resv with
  | none => q
  | some b => if b < pa + n ∧ pa < b + resvSize b then { q with resv := none } else q

def State.breakResv (s : State) (pa n : Nat) (writer : Option Nat) : State :=
  { s with seq := if some s.hart = writer then s.seq else s.seq.breakResv pa n,
           seqs := s.seqs.map fun p => if some p.1 = writer then p else (p.1, p.2.breakResv pa n) }

/-! ## Code pages and the park pools (R59, R71, R222) -/

/-- Is a physical page a code page of a loaded object, or execute-only translation? -/
def State.isCodePage (s : State) (pa : Nat) : Bool :=
  s.objs.any fun o => !o.freed && (o.phys.contains (some (pa / 4096 * 4096)) || o.xonly.contains (pa / 4096 * 4096))

/-- Is an address in some partition's park pool? -/
def State.isParkPool (s : State) (pa : Nat) : Bool :=
  s.parts.any fun p => decide (p.2.parkBase ≤ pa ∧ pa < p.2.parkBase + 2048 * 2 ^ p.2.parkLog2)

/-! ## Copies that may be old (R136, R143) -/

/-- A core keeps copies of the doublewords that n bytes touch, as they stand at home. -/
def copiesIn (m : List Host.Cell) (core pa n : Nat) (copies : List ((Nat × Nat) × Word)) : List ((Nat × Nat) × Word) :=
  let ds := (List.range ((pa % 8 + n + 7) / 8)).map (pa / 8 + ·)
  ds.map (fun d => ((core, d), BitVec.ofNat 64 (leNat (memRead m (8 * d) 8)))) ++ copies.filter fun p => !(p.1.1 == core && ds.contains p.1.2)

/-- The line or lines of n bytes, whole: P lines are filled and held whole (R129). -/
def lineBase (pa : Nat) : Nat := pa / 128 * 128
def lineBytes (pa n : Nat) : Nat := (pa + n - 1) / 128 * 128 + 128 - lineBase pa

/-- The byte a core sees: its own store to a P line, else (`old`) a copy that it holds, else the byte at home. -/
def State.viewByte (s : State) (core pa : Nat) (old : Bool) : Byte :=
  match s.coh.plocal.find? fun p => p.1.1 == core && p.1.2 == pa with
  | some p => p.2
  | none =>
    match s.coh.copies.find? fun p => p.1.1 == core && p.1.2 == pa / 8 with
    | some p => if old then BitVec.ofNat 8 (p.2.toNat / 2 ^ (8 * (pa % 8))) else memGet s.mem pa
    | none => memGet s.mem pa

def State.viewBytes (s : State) (core pa : Nat) (old : Bool) : Nat → List Byte
  | 0 => []
  | n + 1 => s.viewByte core pa old :: s.viewBytes core (pa + 1) old n

/-- A core drops the copies that a test on their doublewords selects. -/
def State.copyDrop (s : State) (core : Nat) (sel : Nat → Bool) : State :=
  { s with coh := { s.coh with copies := s.coh.copies.filter fun p => !(p.1.1 == core && sel p.1.2) } }

/-! ## P lines (R136) -/

/-- The first poisoned byte of a range as a core finds it in a P page: a sector that it has written whole is clean. -/
def State.pPoison (s : State) (core pa : Nat) : Nat → Option Nat
  | 0 => none
  | n + 1 =>
    match s.pPoison core pa n with
    | some a => some a
    | none => if s.poisoned (pa + n) 1 && !s.coh.pclean.contains (core, (pa + n) / 32) then some (pa + n) else none

def State.pWrite (s : State) (core pa : Nat) : List Byte → State
  | [] => s
  | b :: bs =>
    let l := s.coh.plocal.filter fun p => !(p.1.1 == core && p.1.2 == pa)
    { s with coh := { s.coh with plocal := ((core, pa), b) :: l } }.pWrite core (pa + 1) bs

/-- One byte of a P line comes home. No byte of a code page is written (R59). -/
def State.pHome (s : State) (pa : Nat) (b : Byte) : State :=
  if s.isCodePage pa then s else { s with mem := memSet s.mem pa b }.breakResv pa 1 none

/-- Writes back the bytes of a core that a test selects, and drops their lines with any copy of them (R136, R228); sectors that one write made clean lose their poison. -/
def State.pFlush (s : State) (core : Nat) (sel : Nat → Bool) : State :=
  let mine (a : Nat × Nat) : Bool := a.1 == core && sel a.2
  let clean (k : Nat) : Bool := s.coh.pclean.contains (core, k) && sel (32 * k)
  let coh := { s.coh with plocal := s.coh.plocal.filter fun p => !mine p.1, pclean := s.coh.pclean.filter fun p => !mine (p.1, 32 * p.2),
                          copies := s.coh.copies.filter fun c => !(c.1.1 == core && s.coh.plocal.any fun p => mine p.1 && p.1.2 / 128 == c.1.2 / 16),
                          poison := s.coh.poison.filter fun k => !clean k }
  (s.coh.plocal.filter fun p => mine p.1).foldl (fun st p => st.pHome p.1.2 p.2) { s with coh := coh }

/-- The sectors wholly inside n bytes. -/
def wholeSectors (pa n : Nat) : List Nat := (List.range (n / 32 + 1)).filterMap fun i =>
  let k := (pa + 31) / 32 + i
  if 32 * k + 32 ≤ pa + n then some k else none

/-- Does a core hold the P line of an address: one that it has filled, or one that it has written? -/
def State.holdsLine (s : State) (core pa : Nat) : Bool :=
  s.coh.copies.any (fun p => p.1.1 == core && p.1.2 / 16 == pa / 128) || s.coh.plocal.any fun p => p.1.1 == core && p.1.2 / 128 == pa / 128

/-- A core writes bytes of a P line in its L1, where the line is held whole. -/
def State.pStore (s : State) (core pa : Nat) (bytes : List Byte) (hart : Option Nat) : State :=
  let fill := if s.holdsLine core pa then s.coh.copies else copiesIn s.mem core (lineBase pa) (lineBytes pa bytes.length) s.coh.copies
  let s1 := (({ s with coh := { s.coh with copies := fill } } : State).pWrite core pa bytes).breakResv pa bytes.length hart
  let whole := (wholeSectors pa bytes.length).filter fun k => s1.coh.poison.contains k && !s1.coh.pclean.contains (core, k)
  { s1 with coh := { s1.coh with pclean := s1.coh.pclean ++ whole.map fun k => (core, k) } }

/-! ## Reads and writes at the home or bank -/

/-- The home of a line, as its record has it; else by the hash over its die (R53). -/
def State.lineHome (s : State) (line : Nat) : Nat :=
  match aget s.coh.dir line, s.coh.beads.find? fun b => b.1 / 128 == line with
  | some d, _ => d.home
  | none, some b => b.2.home
  | none, none => bareHome (128 * line)

/-- A request for a line reaches its home: a slice in retention wakes (R223). -/
def State.wakeHome (s : State) (home : Nat) : State :=
  if (s.core home).retain then s.modCore home fun k => { k with retain := false } else s

/-- A write performed at home or at a bank: the bytes, invalidations, reservations, poison. A P line of a core is written in its L1. No byte of a code
page is written but by root (R59). -/
def State.putBytes (s : State) (via : Via) (l : Loc) (bytes : List Byte) : State :=
  let n := bytes.length
  if l.t = .hbm ∧ via.num ≠ 2050 ∧ s.isCodePage l.pa then s
  else if l.t = .hbm ∧ l.kind = .p ∧ via.num < 1024 then s.pStore via.num l.pa bytes via.hart
  else
    let s1 := { (if l.t = .hbm then s.wakeHome l.home else s) with mem := memWrite s.mem l.pa bytes }
    let s2 := (s1.breakResv l.pa n via.hart).clearPoison l.pa n
    if l.t = .hbm ∧ (l.kind = .s ∨ l.kind = .b) then
      s2.modLines l.pa n fun m d => d.invalidate m (some via.num)
    else s2

/-- The first poisoned byte of a location as the party finds it. -/
def State.poisonAt (s : State) (via : Via) (l : Loc) : Option Nat :=
  if l.t = .hbm ∧ l.kind = .p ∧ via.num < 1024 then s.pPoison via.num l.pa l.len else s.firstPoison l.pa l.len

/-- The bytes at a location as the party sees them, without a copy that may be old. -/
def State.getBytes (s : State) (via : Via) (l : Loc) : List Byte :=
  if l.t = .hbm ∧ l.kind = .p ∧ via.num < 1024 then s.viewBytes via.num l.pa false l.len else memRead s.mem l.pa l.len

/-! ## Messages to the host and to peers (R325 to R327) -/

/-- The fields of a peer table entry (R327), as the model lays out its 32 bytes (log 14): V in bit 0, PORT in bits 3:1 and the VLAN in bits 15:4 of the first two, the MAC
in the next six, then the IPv6 address, and the remote base with FLOW in its low six bits. -/
def PeerEntry.port (e : PeerEntry) : Nat := leNat (e.raw.take 2) / 2 % 8
def PeerEntry.vlan (e : PeerEntry) : Nat := leNat (e.raw.take 2) / 16 % 4096
def PeerEntry.mac (e : PeerEntry) : Nat := leNat ((e.raw.drop 2).take 6)
def PeerEntry.ipv6 (e : PeerEntry) : List Byte := (e.raw.drop 8).take 16
def PeerEntry.flow (e : PeerEntry) : Nat := leNat ((e.raw.drop 24).take 8) % 64
def PeerEntry.base (e : PeerEntry) : Nat := leNat ((e.raw.drop 24).take 8) / 64 * 64

/-- The number under which State keeps a flow of a scale-out port, by its port, the peer's MAC and VLAN, and FLOW; a partition's flows on the host port are 0 to 63. Windows that
name one flow share it. -/
def peerKey (port mac vlan flow : Nat) : Nat := 64 + ((mac * 4096 + vlan) * 8 + port) * 64 + flow
def PeerEntry.key (e : PeerEntry) : Nat := peerKey e.port e.mac e.vlan e.flow

/-- The entry of peer window p, and the number of its flow. -/
def State.peerEntry (s : State) (part p : Nat) : Option PeerEntry := (s.part part).bind fun x => aget x.peers p
def State.peerFlow (s : State) (part p : Nat) : Nat := ((s.peerEntry part p).map PeerEntry.key).getD 64

/-- The partition and flow a message travels on, where it takes a sequence number (R322, R326). -/
def Sent.flow : Sent → Option (Nat × Nat)
  | .event part _ _ _ _ _ => some (part, 63)
  | .answer part flow _ _ _ _ => some (part, flow)
  | .ack _ _ _ _ | .resend _ _ _ => none
  | .peerRead part flow _ _ _ _ => some (part, flow)
  | .peerWrite part flow _ _ _ => some (part, flow)
  | .peerNotify part flow _ _ _ _ _ => some (part, flow)

/-- A flow at its start (R325). -/
def Flow.start (part flow : Nat) : Flow :=
  { part := part, flow := flow, expect := 0, next := 0, oldest := 0, window := 512, good := 0, resends := 0, sentAt := 0, lost := false }

def State.flowOf (s : State) (part flow : Nat) : Flow :=
  (s.host.flows.find? fun f => f.part == part && f.flow == flow).getD (Flow.start part flow)

/-- Sets a flow, in place where it is listed. -/
def State.setFlow (s : State) (x : Flow) : State :=
  let same (f : Flow) : Bool := f.part == x.part && f.flow == x.flow
  let l := if s.host.flows.any same then s.host.flows.map fun f => if same f then x else f else s.host.flows ++ [x]
  { s with host := { s.host with flows := l } }

/-- The remote base of a peer window that is open: V = 1, and its flow not lost. -/
def State.peerBase (s : State) (part p : Nat) : Option Nat :=
  match s.peerEntry part p with
  | some e => if e.valid && !(s.host.flows.any fun f => f.part == part && f.flow == e.key && f.lost) then some e.base else none
  | none => none

/-- The messages of a flow that are not acknowledged, and how many more its window lets go (R325). -/
def Flow.unacked (f : Flow) : Nat := (f.next + 2 ^ 32 - f.oldest % 2 ^ 32) % 2 ^ 32
def Flow.room (f : Flow) : Nat := f.window - f.unacked

/-- A message goes out; it takes the next sequence number of its flow. The wait for a rise of ACK begins with the first one sent (R325). -/
def State.emit (s : State) (m : Sent) : State :=
  let s1 : State := { s with host := { s.host with sent := s.host.sent ++ [m] } }
  match m.flow with
  | some (part, flow) =>
    let f := s1.flowOf part flow
    s1.setFlow { f with next := (f.next + 1) % 2 ^ 32, sentAt := if f.next = f.oldest then s.time else f.sentAt }
  | none => s1

/-- The messages that wait for room in the window of a flow. -/
def State.laterOf (s : State) (k : Nat × Nat) : List Sent := s.host.later.filter fun m => m.flow == some k

/-- Sends a message: at once, or behind those that wait for room in the window of its flow (R325). -/
def State.send (s : State) (m : Sent) : State :=
  match m.flow with
  | none => s.emit m
  | some k =>
    if (s.flowOf k.1 k.2).room = 0 ∨ s.laterOf k ≠ [] then { s with host := { s.host with later := s.host.later ++ [m] } } else s.emit m

/-- Sends what waits on a flow, as far as its window lets it go. -/
def State.sendLater (s : State) (k : Nat × Nat) : State :=
  let n := (s.flowOf k.1 k.2).room
  let go := (s.laterOf k).take n
  let rest := (s.host.later.foldl (fun (p : Nat × List Sent) m =>
    if m.flow == some k ∧ p.1 < go.length then (p.1 + 1, p.2) else (p.1, p.2 ++ [m])) (0, [])).2
  go.foldl State.emit { s with host := { s.host with later := rest } }

/-! ## Writes and events of root (R326) -/

/-- A write of root or of the hub at a physical address: performed at home at once. -/
def State.rootPut (s : State) (pa : Nat) (bytes : List Byte) : State :=
  s.putBytes { s.viaHub 0 true with num := 2050, mode := .m } ⟨0, pa, .hbm, .s, bareHome pa, 0, bytes.length⟩ bytes

/-- Sends an EVENT of 32 payload bytes: CODE, QID, ADDR, VALUE, and what follows it. -/
def State.sendEvent (s : State) (part code qid : Nat) (addr value : Word) (extra : List Word := []) : State :=
  s.send (.event part code qid addr value extra)

/-! ## The partition error log (R316) -/

/-- An entry's fields but for TIME, FLAGS.RATE and COUNT. -/
structure LogEntry where
  type : Nat
  sev  : Nat
  ovr  : Bool
  cls  : Nat
  idx  : Nat
  addr : Word
  qid  : Nat
  data : List Byte
deriving DecidableEq, Repr

/-- The 64 bytes of an entry. -/
def LogEntry.bytes (e : LogEntry) (time count : Nat) (rate : Bool) : List Byte :=
  leBytes 2 e.type ++ leBytes 1 e.sev ++ leBytes 1 ((if e.ovr then 1 else 0) + (if rate then 2 else 0)) ++
    leBytes 4 (e.cls * 65536 + e.idx % 65536) ++ leBytes 8 e.addr.toNat ++ leBytes 8 time ++ leBytes 4 count ++
    leBytes 4 e.qid ++ (e.data ++ List.replicate 32 0).take 32

def noQid : Nat := 0xFFFFFFFF

/-- The address of entry n of a log. -/
def Part.logSlot (p : Part) (n : Nat) : Nat := p.logBase + 64 * (1 + n % 2 ^ p.logLog2)

/-- Among the last k entries before entry n, one of a type and source written after a time. -/
def State.recentEntry (s : State) (p : Part) (type src t0 : Nat) (n : Nat) : Nat → Option Nat
  | 0 => none
  | k + 1 =>
    if n < k + 1 then none
    else
      match s.recentEntry p type src t0 n k with
      | some m => some m
      | none =>
        let b := memRead s.mem (p.logSlot (n - (k + 1))) 64
        if leNat (b.take 2) = type ∧ leNat ((b.drop 4).take 4) = src ∧ t0 ≤ leNat ((b.drop 16).take 8) then some (n - (k + 1))
        else none

/-- Writes an entry whole, then raises the index; severities 2 and 3 send EVENT 3. Corrected errors of one source
are coalesced within 1 ms. -/
def State.logEntry (s : State) (part : Nat) (e : LogEntry) : State :=
  match s.part part with
  | none => s
  | some p =>
    let n := leNat (memRead s.mem p.logBase 8)
    let again := if e.type = 1 ∨ e.type = 2 then
        s.recentEntry p e.type (e.cls * 65536 + e.idx % 65536) (s.time + 1 - 1000000) n (2 ^ p.logLog2)
      else none
    match again with
    | some m =>
      let b := memRead s.mem (p.logSlot m) 64
      s.rootPut (p.logSlot m) (e.bytes (leNat ((b.drop 16).take 8)) (leNat ((b.drop 24).take 4) + 1) true)
    | none =>
      let s1 := (s.rootPut (p.logSlot n) (e.bytes s.time 1 false)).rootPut p.logBase (leBytes 8 (n + 1))
      if 2 ≤ e.sev then s1.sendEvent part 3 e.qid e.addr (BitVec.ofNat 64 n) else s1

/-! ## The operations of the tags (R231, R217) -/

def sgn (n v : Nat) : Int := if v < 2 ^ (n - 1) then v else (v : Int) - 2 ^ n

/-- Word bytes of a tag. -/
def tagBytes (tag : Nat) : Nat := if [1, 6, 7, 12, 13, 14].contains tag then 4 else 8

/-- Op(old, v) of R231 on words of the tag's width (xsum32 as the rounded addition). -/
def tagOp (tag old v : Nat) : Nat :=
  match tag with
  | 1 => (old + v) % 2 ^ 32
  | 2 => (old + v) % 2 ^ 64
  | 3 => old &&& v
  | 4 => old ||| v
  | 5 => old ^^^ v
  | 6 => if sgn 32 v < sgn 32 old then v else old
  | 7 => if sgn 32 old < sgn 32 v then v else old
  | 8 => min old v
  | 9 => max old v
  | 10 => if sgn 64 v < sgn 64 old then v else old
  | 11 => if sgn 64 old < sgn 64 v then v else old
  | 12 => (fmt32.minmax false old v).1
  | 13 => (fmt32.minmax true old v).1
  | 14 => (fmt32.finish .rne (fAdd .rne (fmt32.unpack old) (fmt32.unpack v))).1
  | 15 => (fmt64.finish .rne (fAdd .rne (fmt64.unpack old) (fmt64.unpack v))).1
  | _ => old

/-! ## Reckoning (R219) -/

/-- The combined value of the partials of one core. -/
def coreValue (tag : Nat) : PVal → Option PVal
  | .osum [] => none
  | .osum ((_, w) :: rest) => some (.word (BitVec.ofNat 64 (rest.foldl (fun a p => tagOp tag a p.2.toNat) w.toNat)))
  | v => some v

def Xsum.merge (a b : Xsum) : Xsum := ⟨a.acc + b.acc, a.flags ||| b.flags⟩

/-- Combine(T, a, b); none is empty. -/
def combine (tag : Nat) (a b : Option PVal) : Option PVal :=
  match a, b with
  | none, y => y
  | x, none => x
  | some (.xsum x), some (.xsum y) => some (.xsum (x.merge y))
  | some (.word x), some (.word y) => some (.word (BitVec.ofNat 64 (tagOp tag x.toNat y.toNat)))
  | x, _ => x

/-- Merges the partials, ascending core, cluster by cluster: `cur` is the running cluster and its value. -/
def mergeParts (tag : Nat) : List Partial → Option (Nat × Option PVal) → Option PVal → Option PVal
  | [], cur, v => match cur with | none => v | some (_, q) => combine tag v q
  | p :: ps, cur, v =>
    let x := coreValue tag p.val
    match cur with
    | none => mergeParts tag ps (some (clusterOf p.core, x)) v
    | some (c, q) =>
      if c = clusterOf p.core then mergeParts tag ps (some (c, combine tag q x)) v
      else mergeParts tag ps (some (clusterOf p.core, x)) (combine tag v q)

/-! ## Parked partials (R222) -/

/-- The physical address of an entry of a partition's park pool. -/
def State.poolEntry (s : State) (part e : Nat) : Nat := ((s.part part).map (·.parkBase)).getD 0 + 2048 * e

/-- The records that a partition's park pool holds: the entry, and the line, core and incarnation of the parked partials, or the line of a record
that a directory eviction put there. -/
def State.poolUse (s : State) (part : Nat) : List Nat :=
  (s.coh.beads.filter fun b => s.partOfHbm b.1 == part).foldl (fun acc b =>
      b.2.parts.foldl (fun l q => match q.parked with | some e => insNat l e | none => l) acc)
    ((s.coh.away.filter fun w => s.partOfHbm (128 * w.1) == part).foldl (fun l w => insNat l w.2) [])

/-- The lowest entry of a pool that holds nothing. -/
def freeEntry (used : List Nat) : Nat → Nat → Option Nat
  | _, 0 => none
  | e, n + 1 => if used.contains e then freeEntry used (e + 1) n else some e

/-- The pool entry that a park takes, if one is free. -/
def State.poolFree (s : State) (part : Nat) : Option Nat :=
  let used := s.poolUse part
  let size := 2 ^ ((s.part part).map (·.parkLog2)).getD 12
  if size ≤ used.length then none else freeEntry used 0 (used.length + 1)

/-! ## Reckoning (R219) -/

/-- Are a partial's bytes lost: is it parked, and is a sector of its pool entry poisoned (R222)? -/
def State.partialLost (s : State) (part : Nat) (p : Partial) : Bool :=
  match p.parked with
  | some e => s.poisoned (s.poolEntry part e) 2048
  | none => false

/-- Poisons a Bead word's sectors whose partial of a core is lost, and logs it (R221). -/
def State.losePartial (s : State) (word tag core : Nat) : State :=
  (s.poisonRange word (tagBytes tag)).logEntry (s.partOfHbm word)
    { type := 9, sev := 2, ovr := false, cls := 8, idx := core, addr := BitVec.ofNat 64 word, qid := noQid, data := leBytes 8 core ++ leBytes 8 tag }

/-- A request to a line brings its Bead record back from the pool (R222); from a poisoned entry nothing comes back, and the words' partials are
lost. -/
def State.bringBack (s : State) (line : Nat) : State :=
  match aget s.coh.away line with
  | none => s
  | some e =>
    let s1 : State := { s with coh := { s.coh with away := adel s.coh.away line } }
    if s.poisoned (s.poolEntry (s.partOfHbm (128 * line)) e) 2048 = false then s1
    else
      (s.coh.beads.filter fun b => b.1 / 128 == line).foldl (fun st b =>
        b.2.parts.foldl (fun st' p => st'.losePartial b.1 b.2.tag p.core)
          { st with coh := { st.coh with beads := adel st.coh.beads b.1 } }) s1

/-- The records of the lines that n bytes touch are back before a request is served. -/
def State.bringLines (s : State) (pa n : Nat) : State :=
  if s.coh.away = [] ∨ n = 0 then s
  else (List.range ((pa + n - 1) / 128 + 1 - pa / 128)).foldl (fun st i => st.bringBack (pa / 128 + i)) s

/-- Reckons one Bead word (R219). The reader, if a read caused it, takes XSOVF and XSINV. Every core that gives up a partial wakes (R223). -/
def State.reckonWord (s : State) (word : Nat) (reader : Option Nat) : State :=
  match aget s.coh.beads word with
  | none => s
  | some b =>
    let n := tagBytes b.tag
    let part := s.partOfHbm word
    let lost := b.parts.filter (s.partialLost part)
    let home := leNat (memRead s.mem word n)
    let v0 : PVal :=
      if b.tag = 14 then let (a, f) := xsumAdd 0 0 home; .xsum ⟨a, f⟩ else .word (BitVec.ofNat 64 home)
    let v := mergeParts b.tag (b.parts.filter fun p => !s.partialLost part p) none (some v0)
    let (bits, xf) : Nat × BitVec 4 := match v with
      | some (.xsum x) => xsumRead x.acc x.flags
      | some (.word w) => (w.toNat, 0)
      | _ => (home, 0)
    let s1 := { s with mem := if s.isCodePage word then s.mem else memWrite s.mem word (leBytes n bits), coh := { s.coh with beads := adel s.coh.beads word } }
    let s2 := (s1.breakResv word n none).modDir (word / 128) fun d => d.invalidate (spanMask word n) none
    let s3 := b.parts.foldl (fun st p => if p.parked.isNone then st.wakeHome p.core else st) s2
    let s4 := lost.foldl (fun st p => st.losePartial word b.tag p.core) s3
    match reader with
    | some h => if xf = 0 then s4 else s4.setXV h xf
    | none => s4

/-- The Bead words that overlap a range. -/
def State.beadsIn (s : State) (pa n : Nat) : List Nat :=
  (s.coh.beads.filter fun p => decide (p.1 < pa + n ∧ pa < p.1 + tagBytes p.2.tag)).map (·.1)

def State.reckonRange (s : State) (pa n : Nat) (reader : Option Nat) : State :=
  let s0 := s.bringLines pa n
  (s0.beadsIn pa n).foldl (fun st w => st.reckonWord w reader) s0

end Sys2Proof.Machine
end

