-- ==== Sys2Proof/Machine/Translate.lean ====
section
/-! DEFINITION. From a virtual address to where its bytes lie: what root maps of a code object (R57, R71), translation (R137 to R142), PMP and
ownership (R59, R73, R126, R127, R222), and the pieces of an access. -/

namespace Sys2Proof.Machine

/-! ## Access kinds and their causes (R297) -/

inductive AKind where
  | fetch | load | store
deriving DecidableEq, Repr

def AKind.accessFault : AKind → Nat | .fetch => 1 | .load => 5 | .store => 7
def AKind.pageFault : AKind → Nat | .fetch => 12 | .load => 13 | .store => 15

/-! ## What root maps of a code object (R57, R71) -/

/-- A place that root has mapped: a code page or an execute-only page of translation, the dispatch table, another section, a page of the
translation area that is still written, the descriptor of an object. -/
inductive RootMap where
  | code (pa : Nat)
  | table (pa : Nat)
  | data (pa : Nat)
  | area (pa : Nat)
  | desc (obj off : Nat)
deriving DecidableEq, Repr

/-- What an object maps at a virtual address. -/
def Obj.mapAt (o : Obj) (i va : Nat) : Option RootMap :=
  if o.freed then none
  else if o.cbase ≤ va ∧ va < o.cbase + 4096 * o.phys.length ∧ ((o.phys.getD ((va - o.cbase) / 4096) none).isSome) then
    ((o.phys.getD ((va - o.cbase) / 4096) none)).map fun p => .code (p + va % 4096)
  else if o.dtab ≤ va ∧ va < o.dtab + 32 * o.ndtab then some (.table (o.dtabPa + (va - o.dtab)))
  else if o.tarea ≤ va ∧ va < o.tarea + o.tsize then
    let pa := o.tareaPa + (va - o.tarea)
    some (if o.xonly.contains (pa / 4096 * 4096) then .code pa else .area pa)
  else if o.desc ≤ va ∧ va < o.desc + 64 then some (.desc i (va - o.desc))
  else (o.data.find? fun d => decide (d.1 ≤ va ∧ va < d.1 + d.2.1)).map fun d => .data (d.2.2 + (va - d.1))

/-- What the objects of a partition map at a virtual address, in every address space of the partition; where two overlap, the object loaded first
(log 62). -/
def State.rootMapFrom (s : State) (part va : Nat) : Nat → List Obj → Option RootMap
  | _, [] => none
  | i, o :: os =>
    if o.part = part then
      match o.mapAt i va with
      | some m => some m
      | none => s.rootMapFrom part va (i + 1) os
    else s.rootMapFrom part va (i + 1) os

def State.rootMap (s : State) (part va : Nat) : Option RootMap := s.rootMapFrom part va 0 s.objs

/-- The cause with which a mapped place refuses an access, if it does: code is execute-only and denied to writes (R57, R59), the dispatch table is
read by all and written in S mode, the area and the descriptor are of S mode. -/
def RootMap.refuses (m : RootMap) (ak : AKind) (mode : Mode) (mxr : Bool) : Option Nat :=
  match m, ak with
  | .code _, .fetch => if mode = .u then none else some 12
  | .code _, .load => if mxr then none else some 13
  | .code _, .store => some 7
  | .table _, .load => none
  | .table _, .store => if mode = .u then some 15 else none
  | .data _, .load => none
  | .area _, .load => if mode = .u then some 13 else none
  | .area _, .store => if mode = .u then some 15 else none
  | .desc _ _, .load => if mode = .u then some 13 else none
  | _, k => some k.pageFault

/-! ## Leaves and TLBs (R137 to R140) -/

/-- The size of a leaf, as log2, by level and N; none is a page fault (R137). -/
def leafBits (level : Nat) (n : Bool) (ppn : Nat) : Option Nat :=
  match level, n with
  | 0, false => some 12
  | 0, true => if ppn % 4 = 2 then some 14 else if ppn % 16 = 8 then some 16 else none
  | 1, false => if ppn % 2 ^ 9 = 0 then some 21 else none
  | 1, true => if ppn % 2 ^ 13 = 2 ^ 12 then some 25 else none
  | 2, false => if ppn % 2 ^ 18 = 0 then some 30 else none
  | 2, true => if ppn % 2 ^ 22 = 2 ^ 21 then some 34 else none
  | 3, false => if ppn % 2 ^ 27 = 0 then some 39 else none
  | _, _ => none

/-- A leaf that a walk finds: the PTE, its physical address, log2 of its size. -/
structure Leaf where
  pte  : Nat
  addr : Nat
  bits : Nat
deriving DecidableEq, Repr

/-- Do a leaf's permissions allow an access (V, R, W, X, U, A, D in bits 0 to 7, G in bit 5)? A and D apart. -/
def permOk (perm : Nat) (ak : AKind) (mode : Mode) (sum mxr : Bool) : Bool :=
  let r := perm / 2 % 2 = 1
  let w := perm / 4 % 2 = 1
  let x := perm / 8 % 2 = 1
  let u := perm / 16 % 2 = 1
  let priv : Bool := match mode with
    | .u => u
    | _ => !u || (sum && ak != .fetch)
  priv && match ak with
    | .fetch => x
    | .load => r || (mxr && x)
    | .store => w

/-- A and D of a leaf suffice for an access (R139)? -/
def adOk (perm : Nat) (ak : AKind) : Bool := perm / 64 % 2 = 1 && (ak != .store || perm / 128 % 2 = 1)

def TlbEntry.hits (e : TlbEntry) (part asid va : Nat) : Bool :=
  e.part == part && (match e.asid with | none => true | some a => a.toNat == asid) && (va / 2 ^ e.bits == e.vbase / 2 ^ e.bits)

/-- Does an entry allow the access? -/
def TlbEntry.serves (e : TlbEntry) (via : Via) (va : Nat) (ak : AKind) : Bool :=
  e.hits via.part (via.satp.toNat / 2 ^ 44 % 2 ^ 16) va && permOk e.perm.toNat ak via.mode via.sum via.mxr && adOk e.perm.toNat ak

/-- The L1 TLB of an access (R140): none for parties that have none. -/
def State.l1Tlb (s : State) (via : Via) (ak : AKind) : List TlbEntry :=
  match via.l1 with
  | some c => if ak = .fetch then (s.core c).itlb else (s.core c).dtlb
  | none => []

/-- The shared TLB of an access: the cluster's, or the agent's own 64 entries. -/
def State.tlbOf (s : State) (via : Via) : List TlbEntry :=
  match via.tlb with
  | some c => (s.cluster c).tlb
  | none => match via.party with | .agent a => (s.agent a).tlb | _ => []

/-- Enters a translation in the L1 TLB: 32 entries for fetches, 128 for loads and stores (R8, R140). -/
def State.l1Add (s : State) (via : Via) (ak : AKind) (e : TlbEntry) : State :=
  match via.l1 with
  | some c => s.modCore c fun k =>
      if ak = .fetch then { k with itlb := (e :: k.itlb).take 32 } else { k with dtlb := (e :: k.dtlb).take 128 }
  | none => s

/-- Enters a translation: 2,048 entries of a cluster's shared TLB, 64 of an agent's (R140, R264), and the L1 TLB. -/
def State.tlbAdd (s : State) (via : Via) (ak : AKind) (e : TlbEntry) : State :=
  let s1 := match via.tlb with
    | some c => let k := s.cluster c; s.setCluster c { k with tlb := (e :: k.tlb).take 2048 }
    | none =>
      match via.party with
      | .agent a => s.modAgent a fun g => { g with tlb := (e :: g.tlb).take 64 }
      | _ => s
  s1.l1Add via ak e

/-- The physical address in an entry's page. -/
def TlbEntry.pa (e : TlbEntry) (va : Nat) : Nat := e.pbase / 2 ^ e.bits * 2 ^ e.bits + va % 2 ^ e.bits

/-- A translated page: physical address, PBMT, HOMEIDX (128: none), and the object whose descriptor it is. -/
structure Xlated where
  pa   : Nat
  pbmt : BitVec 2
  home : Nat
  desc : Option Nat
deriving DecidableEq, Repr

/-! ## PMP (R73) -/

/-- Trailing one bits of a number, at most n. -/
def trailingOnes (a : Nat) : Nat → Nat
  | 0 => 0
  | n + 1 => if a % 2 = 1 then trailingOnes (a / 2) n + 1 else 0

/-- The configuration byte of PMP entry i (RV64: eight entries in each even register). -/
def Priv.pmpByte (p : Priv) (i : Nat) : Nat := (p.pmpcfg.toList.getD (i / 8 * 2) 0).toNat / 2 ^ (8 * (i % 8)) % 256

/-- The range of PMP entry i, if it is not off (the family's; log 6). -/
def Priv.pmpRange (p : Priv) (i : Nat) : Option (Nat × Nat) :=
  let a := (p.pmpaddr.toList.getD i 0).toNat % 2 ^ 54
  match p.pmpByte i / 8 % 4 with
  | 1 => some (if i = 0 then 0 else (p.pmpaddr.toList.getD (i - 1) 0).toNat % 2 ^ 54 * 4, a * 4)
  | 2 => some (a * 4, a * 4 + 4)
  | 3 => let t := trailingOnes a 54; some (a / 2 ^ t * 2 ^ t * 4, a / 2 ^ t * 2 ^ t * 4 + 2 ^ (t + 3))
  | _ => none

/-- Does the first of the entries from 64 - n on that touches n' bytes allow the access? None touching allows it: root's record of the
partition's granules is what decides then (R126; log 63). -/
def Priv.pmpFrom (p : Priv) (ak : AKind) (m : Bool) (pa len : Nat) : Nat → Bool
  | 0 => true
  | n + 1 =>
    match p.pmpRange (63 - n) with
    | some (lo, hi) =>
      if pa < hi ∧ lo < pa + len then
        let b := p.pmpByte (63 - n)
        decide (lo ≤ pa ∧ pa + len ≤ hi) && ((m && b / 128 % 2 == 0) || match ak with | .load => b % 2 == 1 | .store => b / 2 % 2 == 1 | .fetch => b / 4 % 2 == 1)
      else p.pmpFrom ak m pa len n
    | none => p.pmpFrom ak m pa len n

/-- May a hart make an access under its PMP registers? -/
def Priv.pmpOk (p : Priv) (ak : AKind) (mode : Mode) (pa len : Nat) : Bool :=
  (p.pmpcfg.toList.all fun c => c == 0) || p.pmpFrom ak (mode == .m) pa len 64

/-- May the walks of a hart touch a PTE under its PMP registers? They are S-mode accesses, as ratified. -/
def State.pmpTable (s : State) (via : Via) (a : Nat) (ak : AKind) : Bool :=
  match via.hart with | some h => (s.getSeq h).priv.pmpOk ak .s a 8 | none => true

/-! ## The walk (R137 to R139, R141) -/

/-- Does a partition own a target? -/
def State.owns (s : State) (p : Nat) (t : Target) (pa : Nat) : Bool :=
  match s.part p with
  | none => false
  | some x =>
    match t with
    | .hbm => x.granules.getLsbD (pa / 2 ^ 30)
    | .scratch c _ | .rounded c _ => x.clusters.getLsbD (clusterOf c)
    | .ring h => x.clusters.getLsbD (hartCluster h)
    | .agent a _ => if a % 16 = 15 then p = 0 else x.agents.getLsbD a
    | .host | .peer _ | .desc _ | .void => true

/-- A walker's read of a PTE at its home, an acquire at .sys that reckons a Bead word (R141, R220). A PTE outside the partition's HBM, or in a park
pool, is an access fault (R127, R222); a poisoned one is cause 30 (log 64). -/
def State.readPte (s : State) (via : Via) (va : Word) (ak : AKind) (a : Nat) : Res Nat :=
  if Config.hbmBytes ≤ a ∨ s.owns via.part .hbm a = false ∨ s.isParkPool a ∨ s.pmpTable via a .load = false then .trap ak.accessFault va s
  else
    let s1 := (s.wakeHome (bareHome a)).reckonRange a 8 none
    if s1.poisoned a 8 then .trap 30 va s1 else .ok (leNat (memRead s1.mem a 8)) s1

/-- Walks from the table at `base`, `n` levels left (level n - 1 first). A leaf with PBMT ≠ 0 needs PBMTE (R138). -/
def State.walk (s : State) (via : Via) (va : Word) (ak : AKind) : Nat → Nat → Res Leaf
  | _, 0 => .trap ak.pageFault va s
  | base, n + 1 =>
    let a := base + 8 * (va.toNat / 2 ^ (12 + 9 * n) % 512)
    (s.readPte via va ak a).bind fun pte s1 =>
      let r := pte / 2 % 2 = 1
      let w := pte / 4 % 2 = 1
      let x := pte / 8 % 2 = 1
      let ppn := pte / 2 ^ 10 % 2 ^ 44
      let pbmt := pte / 2 ^ 61 % 4
      let rsv := !via.homen && decide (pte / 2 ^ 54 % 2 ^ 7 ≠ 0)
      if pte % 2 = 0 ∨ (w ∧ ¬ r) ∨ rsv then .trap ak.pageFault va s1
      else if r ∨ x then
        if ppn / 2 ^ 36 ≠ 0 ∨ pbmt = 3 ∨ (pbmt ≠ 0 ∧ via.pbmte = false) then .trap ak.pageFault va s1
        else
          match leafBits n (decide (pte / 2 ^ 63 = 1)) ppn with
          | some b => .ok ⟨pte, a, b⟩ s1
          | none => .trap ak.pageFault va s1
      else if pte / 2 ^ 61 ≠ 0 ∨ pte / 2 ^ 4 % 2 = 1 ∨ pte / 2 ^ 6 % 4 ≠ 0 then .trap ak.pageFault va s1
      else s1.walk via va ak (ppn * 4096) n

/-- The walker's AMO on a PTE at its home (R139), refused on a code page (R59). -/
def State.writePte (s : State) (via : Via) (va : Word) (ak : AKind) (a pte : Nat) : Res Unit :=
  if s.isCodePage a ∨ s.pmpTable via a .store = false then .trap ak.accessFault va s
  else
    let s1 := { s.wakeHome (bareHome a) with mem := memWrite s.mem a (leBytes 8 pte) }
    .ok () ((s1.breakResv a 8 none).modLines a 8 fun m d => d.invalidate m none)

/-- The TLB entry of a leaf. -/
def Leaf.entry (l : Leaf) (via : Via) (va pte : Nat) : TlbEntry :=
  { part := via.part, asid := if pte / 32 % 2 = 1 then none else some (BitVec.ofNat 16 (via.satp.toNat / 2 ^ 44)), vbase := va / 2 ^ l.bits * 2 ^ l.bits,
    bits := l.bits, pbase := pte / 2 ^ 10 % 2 ^ 44 * 4096 / 2 ^ l.bits * 2 ^ l.bits, perm := BitVec.ofNat 8 pte,
    pbmt := BitVec.ofNat 2 (pte / 2 ^ 61), home := pte / 2 ^ 54 % 128 }

/-- A miss: the walk, its permissions, A (and D for a store) set in the PTE, and the entry in the TLBs. -/
def State.walkFill (s : State) (via : Via) (va : Word) (ak : AKind) : Res TlbEntry :=
  (s.walk via va ak (via.satp.toNat % 2 ^ 44 * 4096) 5).bind fun l s1 =>
    if permOk l.pte ak via.mode via.sum via.mxr = false then .trap ak.pageFault va s1
    else
      let pte := l.pte ||| (64 + (if ak = .store then 128 else 0))
      let e := l.entry via va.toNat pte
      if pte = l.pte then .ok e (s1.tlbAdd via ak e)
      else (s1.writePte via va ak l.addr pte).bind fun _ s2 => .ok e (s2.tlbAdd via ak e)

/-- The entry that translates an address: from the L1 TLB, the shared TLB or a walk (R140). -/
def State.tlbLookup (s : State) (via : Via) (va : Word) (ak : AKind) : Res TlbEntry :=
  match (s.l1Tlb via ak).find? fun e => e.serves via va.toNat ak with
  | some e => .ok e s
  | none =>
    match (s.tlbOf via).find? fun e => e.serves via va.toNat ak with
    | some e => .ok e (s.l1Add via ak e)
    | none => s.walkFill via va ak

/-- Translation of one address (R137 to R140); a physical one meets no mapping of root's. Bare (satp.MODE 0, or M mode) is the address itself. -/
def State.xlate (s : State) (via : Via) (va : Word) (ak : AKind) : Res Xlated :=
  let v := va.toNat
  let bare : Res Xlated := if v < 2 ^ 48 then .ok ⟨v, 0, 128, none⟩ s else .trap ak.accessFault va s
  if via.mode = .m then bare
  else
    match (if via.phys then none else s.rootMap via.part v) with
    | some m =>
      match m.refuses ak via.mode via.mxr with
      | some c => .trap c va s
      | none =>
        match m with
        | .code pa | .table pa | .data pa | .area pa => .ok ⟨pa, 0, 128, none⟩ s
        | .desc i off => .ok ⟨off, 0, 128, some i⟩ s
    | none =>
      if via.satp.toNat / 2 ^ 60 ≠ 10 then bare
      else if va ≠ (va.setWidth 57).signExtend 64 then .trap ak.pageFault va s
      else (s.tlbLookup via va ak).bind fun e s1 => .ok ⟨e.pa v, e.pbmt, e.home, none⟩ s1

/-! ## Protection (R59, R71, R126, R127, R222) -/

/-- What minimal mode leaves: cluster 0 of C0, the three stacks of C0 and the ports; no other core, stack or agent is brought up, and what is not there is
refused (R335; log 34). -/
def Target.inMinimal : Target → Nat → Bool
  | .hbm, pa => dieOfHbm pa == 0
  | .scratch core _, _ | .rounded core _, _ => core / 16 == 0
  | .ring hart, _ => hartCluster hart == 0
  | .agent .., _ => false
  | .host, _ | .peer _, _ | .desc _, _ | .void, _ => true

/-- May the access be made at all (R59, R73, R126, R127, R133, R222, R264, R335)? No mode reaches the park pool or writes a code page; ownership does not
hold root, in M mode. -/
def State.allowed (s : State) (via : Via) (t : Target) (pa len : Nat) (ak : AKind) : Bool :=
  !(t == .hbm && ((ak == .store && s.isCodePage pa) || s.isParkPool pa)) &&
  (via.mode = .m || s.owns via.part t pa) &&
  (!s.dev.minimal || t.inMinimal pa) &&
  (ak != .fetch || t == .hbm) &&
  (match via.hart with | some h => (s.getSeq h).priv.pmpOk ak via.mode pa len | none => true) &&
  match t with
  | .ring _ => !(ak == .store && via.mode == .u)
  | .rounded _ off => ak == .load && off % 64 == 0
  | _ => true

/-! ## Locating the bytes of an access -/

/-- The launch of a party's task has lost a transaction (R318). -/
def State.markLost (s : State) (via : Via) : State :=
  match via.hart.bind fun h => (s.getSeq h).task with
  | some t => s.modLaunch t.launch fun l => { l with severed := true }
  | none => s

/-- An access that a failed boundary loses: a load has no answer, and a store stays in flight (R318). -/
def State.unanswered (s : State) (via : Via) (ak : AKind) (l : Loc) : Res Loc :=
  let s1 := s.markLost via
  if ak = .store then .ok { l with t := .void, kind := .u } s1 else .trap 48 l.va s1

/-- Is an access one that the boundary whose failure is worked out carries? -/
def State.onCut (s : State) (via : Via) (l : Loc) : Option (Nat × Nat × Bool) :=
  match s.dev.cut, l.t.die l.home with
  | some c, some e => if crosses (via.party.dieTo via.hart e) e c.1 then some c else none
  | _, _ => none

/-- A located piece, once its path is open. -/
def State.reach (s : State) (via : Via) (ak : AKind) (l : Loc) : Res Loc :=
  match s.path via l.t l.home with
  | .open =>
    match s.onCut via l with
    | none => .ok l s
    | some (b, n + 1, hit) => .ok l { s with dev := { s.dev with cut := some (b, n, hit) } }
    | some (b, 0, _) => { s with dev := { s.dev with cut := some (b, 0, true) } }.unanswered via ak l
  | .waits => .stall .link s
  | .lost => s.unanswered via ak l

/-- One address after translation and access checks. -/
def State.locate1 (s : State) (via : Via) (va : Word) (len : Nat) (ak : AKind) : Res Loc :=
  (s.xlate via va ak).bind fun x s1 =>
    match x.desc with
    | some i => .ok ⟨va, x.pa, .desc i, .u, 0, 0, len⟩ s1
    | none =>
      match physTarget x.pa with
      | none => .trap ak.accessFault va s1
      | some t =>
        if s1.allowed via t x.pa len ak = false then .trap ak.accessFault va s1
        else
          match t with
          | .hbm =>
            match s1.kindOf via x.pbmt x.home x.pa with
            | none => .trap ak.pageFault va s1
            | some (k, h) => s1.reach via ak ⟨va, x.pa, t, k, h, s1.rodHome via x.pbmt x.home x.pa, len⟩
          | _ => s1.reach via ak ⟨va, x.pa, t, .u, 0, 0, len⟩

/-- The bytes of an access cut at 4 KiB boundaries (R73), at most `fuel` pieces. -/
def pieces : Nat → Word → Nat → List (Word × Nat)
  | 0, _, _ => []
  | f + 1, va, n =>
    let room := 4096 - va.toNat % 4096
    if n = 0 then [] else if n ≤ room then [(va, n)] else (va, room) :: pieces f (va + BitVec.ofNat 64 room) (n - room)

/-- Locates the pieces in order; the first that fails decides. -/
def State.locateAll (s : State) (via : Via) (ak : AKind) : List (Word × Nat) → Res (List Loc)
  | [] => .ok [] s
  | (va, n) :: rest =>
    (s.locate1 via va n ak).bind fun l s1 => (s1.locateAll via ak rest).bind fun ls s2 => .ok (l :: ls) s2

/-- All locations of an n-byte access. -/
def State.locate (s : State) (via : Via) (va : Word) (n : Nat) (ak : AKind) : Res (List Loc) :=
  s.locateAll via ak (pieces 3 va n)

end Sys2Proof.Machine
end

