-- ==== Sys2Proof/Machine/Mem.lean ====
section
/-! DEFINITION. The reads, writes and indivisible updates that every party makes: peer windows (R327), reads (R209, R210, R220), rods (R211 to R216),
writes, zero triggers (R134, R240). -/

namespace Sys2Proof.Machine

/-! ## Peer windows (R327) -/

/-- Has a party a write or red through a peer window that is not acknowledged? -/
def State.peerOwes (s : State) (party : Party) : Bool := s.host.out.any fun o => o.party == party

/-- The reds of a party through peer windows that are not acknowledged (R229). -/
def State.redsOut (s : State) (party : Party) : Nat := (s.host.out.filter fun o => o.party == party && o.red).length

/-- The messages that the window of a peer window's flow still lets go (R325). -/
def State.flowRoom (s : State) (part p : Nat) : Nat := (s.flowOf part (s.peerFlow part p)).room

/-- Is it full? -/
def State.flowFull (s : State) (part p : Nat) : Bool := s.flowRoom part p == 0

/-- Sends a write or red of a party through a peer window, and keeps it until it is acknowledged. -/
def State.peerSend (s : State) (via : Via) (p : Nat) (red : Bool) (m : Sent) : State :=
  let k := s.peerFlow via.part p
  let o : PeerOut :=
    { party := via.party, part := via.part, p := p, flow := k, seq := ((s.flowOf via.part k).next + (s.laterOf (via.part, k)).length) % 2 ^ 32, red := red }
  { s with host := { s.host with out := s.host.out ++ [o] } }.send m

/-- The remote address of a place in a window. -/
def remote (base pa : Nat) : Word := BitVec.ofNat 64 (base + pa % 2 ^ 40)

/-- A read of an instruction: the hart keeps the request and the answers. -/
def State.peerReadHart (s : State) (via : Via) (l : Loc) (p base h : Nat) : Res (List Byte) :=
  match (s.getSeq h).peerGot.find? (fun a => a.1 == l.pa && (a.2.length == l.len || a.2.length == 0)) with
  | some a => if a.2.length = 0 then .trap 5 l.va s else .ok a.2 s
  | none =>
    if (s.getSeq h).peerAsk.isSome ∨ s.flowFull via.part p then .stall .peer s
    else
      .stall .peer ((s.modSeq h fun q => { q with peerAsk := some (l.pa, l.len) }).send
        (.peerRead via.part (s.peerFlow via.part p) h p (remote base l.pa) l.len))

/-- The number of a new request, and the HART by which its answer finds it. -/
def State.askId (s : State) : Nat := match s.host.asks.getLast? with | some a => a.1 + 1 | none => 0
def askHart (id : Nat) : Nat := 8192 + id

/-- A read of an engine or of a party that runs no instruction: the host port keeps the request and its answer. -/
def State.peerReadAsk (s : State) (via : Via) (l : Loc) (p base : Nat) : Res (List Byte) :=
  match s.host.asks.find? fun a => a.2.party == via.party && a.2.part == via.part && a.2.pa == l.pa && a.2.len == l.len with
  | some a =>
    match a.2.got with
    | none => .stall .peer s
    | some b => if b.length = l.len then .ok b s else .trap 5 l.va s
  | none =>
    if s.flowFull via.part p then .stall .peer s
    else
      let a : PeerAsk := { party := via.party, part := via.part, pa := l.pa, len := l.len, got := none }
      .stall .peer ({ s with host := { s.host with asks := s.host.asks ++ [(s.askId, a)] } }.send
        (.peerRead via.part (s.peerFlow via.part p) (askHart s.askId) p (remote base l.pa) l.len))

/-- A read through a peer window: the request goes out and the reader waits for the answer. A closed window, and a lost answer, are cause 5. -/
def State.peerRead (s : State) (via : Via) (l : Loc) (p : Nat) : Res (List Byte) :=
  match s.peerBase via.part p with
  | none => .trap 5 l.va s
  | some base =>
    match via.hart, via.eng with
    | some h, false => s.peerReadHart via l p base h
    | _, _ => s.peerReadAsk via l p base

/-- A party has done with the answers it received: a later read asks again. -/
def State.dropAsks (s : State) (party : Party) : State :=
  if s.host.asks = [] then s
  else { s with host := { s.host with asks := s.host.asks.filter fun a => a.2.party != party } }

/-! ## Reads -/

/-- The 4-byte value of the rounded view at a slot (R133). -/
def State.roundedRead (s : State) (core off : Nat) : Nat × BitVec 4 :=
  let a := Config.scratchBase + core * 2 ^ 18 + off
  let acc := BitVec.ofNat 320 (leNat (memRead s.mem a 40))
  let fl := BitVec.ofNat 3 (leNat (memRead s.mem (a + 40) 4))
  xsumRead acc fl

/-- The 64 bytes of a descriptor (R71). -/
def Obj.descBytes (o : Obj) : List Byte :=
  leBytes 8 o.cbase ++ leBytes 8 o.gen ++ leBytes 8 o.dtab ++ leBytes 4 o.ndtab ++
    leBytes 4 ((if o.quarantined then 1 else 0) + (if o.retired.isSome then 2 else 0)) ++
    leBytes 8 o.tarea ++ leBytes 8 o.tsize ++ leBytes 8 o.kinfo.1 ++ leBytes 8 0

/-- A read of the rounded view (R133). -/
def State.readRounded (s : State) (via : Via) (l : Loc) (core off : Nat) : Res (List Byte) :=
  let a := Config.scratchBase + core * 2 ^ 18 + off
  if l.len = 4 ∧ off % 64 = 0 then
    match s.firstPoison a 48 with
    | some p => .trap 30 (l.va + BitVec.ofNat 64 (p - a)) s
    | none =>
      let (v, xf) := s.roundedRead core off
      .ok (leBytes 4 v) (match via.hart with | some h => if xf = 0 then s else s.setXV h xf | none => s)
  else .trap 5 l.va s

/-- A core's read of a P line (R136): one that the core holds answers from its copy, unless it has been given up meanwhile; else the line is filled whole
(R129), and held. Whether a line is given up and whether it is held are free (log 8). -/
def State.readLine (s : State) (via : Via) (l : Loc) : Res (List Byte) :=
  let (w, s1) := s.draw
  if s1.holdsLine via.num l.pa ∧ w.getLsbD 0 then .ok (s1.viewBytes via.num l.pa true l.len) s1
  else
    let lo := lineBase l.pa
    let n := lineBytes l.pa l.len
    let kept := if w.getLsbD 1 then copiesIn s1.mem via.num lo n s1.coh.copies
      else s1.coh.copies.filter fun p => !(p.1.1 == via.num && decide (lo ≤ 8 * p.1.2 ∧ 8 * p.1.2 < lo + n))
    .ok (s1.viewBytes via.num l.pa false l.len) { s1 with coh := { s1.coh with copies := kept } }

/-- A core's invariant read, which may find an untracked copy of its own (R143): whether it finds one and whether it keeps one are free (log 8). -/
def State.readCopy (s : State) (via : Via) (l : Loc) : Res (List Byte) :=
  let (w, s1) := s.draw
  let bs := s1.viewBytes via.num l.pa (w.getLsbD 0) l.len
  .ok bs { s1 with coh := { s1.coh with copies := if w.getLsbD 1 then copiesIn s1.mem via.num l.pa l.len s1.coh.copies else s1.coh.copies } }

/-- A read of an S or B line (R209, R210, R220): the home reckons the span's Bead words and adds the span to the party's word mask. -/
def State.readSpan (s : State) (via : Via) (l : Loc) : Res (List Byte) :=
  let s1 := s.reckonRange l.pa l.len via.hart
  match s1.firstPoison l.pa l.len with
  | some p => .trap 30 (l.va + BitVec.ofNat 64 (p - l.pa)) s1
  | none =>
    let s2 := if 2049 ≤ via.num then s1 else s1.modLines l.pa l.len fun m d => d.add via.num l.home m
    .ok (memRead s2.mem l.pa l.len) s2

/-- A read of an HBM line: poison first, then by its kind (R135). An invariant load neither reckons nor is tracked (R143). -/
def State.readHbm (s0 : State) (via : Via) (l : Loc) (inv : Bool) : Res (List Byte) :=
  let s := s0.wakeHome l.home
  let isP := l.kind = .p ∧ via.num < 1024
  match s.poisonAt via l with
  | some p => .trap 30 (l.va + BitVec.ofNat 64 (p - l.pa)) s
  | none =>
    if isP then s.readLine via l
    else
      match l.kind with
      | .s | .b =>
        if inv = false then s.readSpan via l
        else if via.num < 1024 then (s.bringLines l.pa l.len).readCopy via l
        else let s1 := s.bringLines l.pa l.len; .ok (memRead s1.mem l.pa l.len) s1
      | _ => .ok (memRead s.mem l.pa l.len) s

/-- A read at one location. What the host window answers is open (log 11). -/
def State.readLoc (s : State) (via : Via) (l : Loc) (inv : Bool) : Res (List Byte) :=
  match l.t with
  | .host => let r := s.freeBytes l.len; .ok r.1 r.2
  | .agent _ _ => .trap 5 l.va s
  | .peer p => s.peerRead via l p
  | .void => .trap 48 l.va s
  | .desc i => .ok (((((s.obj? i).map Obj.descBytes).getD []) ++ List.replicate (l.pa + l.len) 0).drop l.pa |>.take l.len) s
  | .rounded c off => s.readRounded via l c off
  | .hbm => s.readHbm via l inv
  | .scratch _ _ | .ring _ =>
    match s.firstPoison l.pa l.len with
    | some p => .trap 30 (l.va + BitVec.ofNat 64 (p - l.pa)) s
    | none => .ok (memRead s.mem l.pa l.len) s

def State.readLocs (s : State) (via : Via) (inv : Bool) : List Loc → Res (List Byte)
  | [] => .ok [] s
  | l :: ls =>
    (s.readLoc via l inv).bind fun b s1 => (s1.readLocs via inv ls).bind fun bs s2 => .ok (b ++ bs) s2

/-- Reads n bytes at a virtual address (agent registers apart). -/
def State.readBytes (s : State) (via : Via) (va : Word) (n : Nat) (inv : Bool := false) : Res (List Byte) :=
  (s.locate via va n .load).bind fun ls s1 => s1.readLocs via inv ls

/-- One instruction's reads of a line are one span (R129): the words between them are tracked, and their Bead words reckoned. -/
def State.mergeSpans (s : State) (via : Via) (ls : List Loc) : State :=
  let sb := ls.filter fun l => l.t == .hbm && (l.kind == .s || l.kind == .b)
  let lines := sb.foldl (fun acc l => insNat (insNat acc (l.pa / 128)) ((l.pa + l.len - 1) / 128)) []
  lines.foldl (fun st k =>
    let on := sb.filter fun l => decide (l.pa < 128 * k + 128 ∧ 128 * k < l.pa + l.len)
    let lo := on.foldl (fun a l => min a (max l.pa (128 * k))) (128 * k + 128)
    let hi := on.foldl (fun a l => max a (min (l.pa + l.len) (128 * k + 128))) (128 * k)
    if hi ≤ lo then st
    else
      let s1 := st.reckonRange lo (hi - lo) via.hart
      let home := (on.head?.map (·.home)).getD 0
      if 2049 ≤ via.num then s1 else s1.modLines lo (hi - lo) fun m d => d.add via.num home m) s

/-! ## Rods (R211 to R216) -/

/-- LEASE of the partition whose region it is (R213). -/
def State.lease (s : State) (region : Nat) : Nat := ((s.part (s.partOfHbm (region * 4096))).map (·.lease)).getD Config.defaultLease

def State.setRod (s : State) (region : Nat) (r : Rod) : State := { s with coh := { s.coh with rods := aput s.coh.rods region r } }

/-- The rod of a region is granted to a party. -/
def State.grantRod (s : State) (region : Nat) (party : Party) (waiters : List Party) (home : Nat) : State :=
  s.setRod region { holder := some party, granted := s.time, expiry := s.time + s.lease region, lastW := none, recalled := false,
                    waiters := waiters.filter (· != party), area := none, home := home, atHalt := none, va := 0 }

/-- A party queues for a rod. -/
def Rod.queue (r : Rod) (party : Party) : Rod := { r with waiters := if r.waiters.contains party then r.waiters else r.waiters ++ [party] }

/-- Asks for the rod of a region: with it held, or with the party among the waiters. A rod recalled from the party, or whose lease has run out, is
asked for behind the queue (R212, R213). -/
def State.askRod (s : State) (party : Party) (region home : Nat) : State × Bool :=
  match aget s.coh.rods region with
  | none =>
    if 4096 ≤ (s.coh.rods.filter fun p => p.2.home == home).length then (s, false)
    else (s.grantRod region party [] home, true)
  | some r =>
    if r.holder = some party ∧ r.area = none then
      if r.recalled then (s.setRod region (r.queue party), false)
      else if s.time < r.expiry then (s, true)
      else
        match r.waiters.filter (· != party) with
        | [] => (s.grantRod region party [] r.home, true)
        | w :: ws => (s.grantRod region w (ws ++ [party]) r.home, false)
    else if r.holder = none ∧ r.area = none ∧ (r.waiters = [] ∨ r.waiters.head? = some party) then
      (s.grantRod region party r.waiters r.home, true)
    else (s.setRod region (r.queue party), false)

/-- Is a party a context that is halted? -/
def State.haltedParty (s : State) (party : Party) : Bool :=
  match party with
  | .ctx c => match s.hartOf c with | some h => (s.getSeq h).run == .halted | none => false
  | _ => false

/-- A write, or rod.acq, renews the lease of a rod that a party holds (R213). An engine of a halted context renews it too, and the expiry at the halt is
kept (R214). -/
def State.renewRod (s : State) (party : Party) (region : Nat) (write : Bool) (va : Option Word := none) : State :=
  match aget s.coh.rods region with
  | some r =>
    if r.holder = some party ∧ r.area = none then
      s.setRod region { r with expiry := s.time + s.lease region, lastW := if write then some s.time else r.lastW, va := va.getD r.va,
                               atHalt := if s.haltedParty party then r.atHalt.or (some r.expiry) else none }
    else s
  | none => s

/-- Does a write to a location need a rod (R211)? -/
def Loc.needsRod (l : Loc) : Bool := l.t == .hbm && (l.kind == .s || l.kind == .b)

/-- Asks for the rods that a write needs, location by location. -/
def State.askRods (s : State) (via : Via) : List Loc → State × Bool
  | [] => (s, true)
  | l :: ls =>
    if l.needsRod then
      let (s1, ok) := s.askRod via.party (l.pa / 4096) l.rhome
      if ok then s1.askRods via ls else (s1, false)
    else s.askRods via ls

/-- The rods of a write: all of them held, and renewed, or the party waits. -/
def State.takeRods (s : State) (via : Via) (ls : List Loc) : State × Bool :=
  let r := s.askRods via ls
  if r.2 then (ls.foldl (fun st l => if l.needsRod then st.renewRod via.party (l.pa / 4096) true (l.va - BitVec.ofNat 64 (l.pa % 4096)) else st) r.1, true) else r

/-- A rod that nobody holds or reserves any more goes to its oldest waiter, or becomes free. -/
def State.passRod (s : State) (region : Nat) (r : Rod) : State :=
  match r.waiters with
  | [] => { s with coh := { s.coh with rods := adel s.coh.rods region } }
  | w :: ws => s.grantRod region w ws r.home

/-- Releases a rod held by a party. -/
def State.releaseRod (s : State) (region : Nat) (party : Party) : State :=
  match aget s.coh.rods region with
  | some r => if r.holder = some party ∧ r.area = none then s.passRod region r else s
  | none => s

/-- Releases every rod of a party (R213, R311), and withdraws its requests. -/
def State.releaseRods (s : State) (party : Party) : State :=
  let s1 := (s.coh.rods.map (·.1)).foldl (fun st g => st.releaseRod g party) s
  { s1 with coh := { s1.coh with rods := s1.coh.rods.map fun p => (p.1, { p.2 with waiters := p.2.waiters.filter (· != party) }) } }

/-! ## Writes -/

/-- A write behind a failed boundary is in flight: its bytes join the ranges of the task's launch (R318, R319). -/
def State.inFlight (s : State) (via : Via) (va : Word) (n : Nat) : State :=
  match via.hart.bind fun h => (s.getSeq h).task with
  | some t => s.modLaunch t.launch fun l => { l with severed := true, ranges := l.ranges ++ [(va, n)] }
  | none => s

/-- A write across a die boundary is one that nothing yet tells its task is performed (R318). -/
def State.noteWrite (s : State) (via : Via) (l : Loc) (n : Nat) : State :=
  match via.hart, l.t.die l.home with
  | some h, some e =>
    match (s.getSeq h).task with
    | some t => if via.party.dieTo (some h) e = e then s else { s with coh := { s.coh with unsure := s.coh.unsure ++ [⟨h, t.launch, l.va, n, e⟩] } }
    | none => s
  | _, _ => s

/-- Everything that a hart has written is performed. -/
def State.settled (s : State) (h : Nat) : State :=
  if s.coh.unsure = [] then s else { s with coh := { s.coh with unsure := s.coh.unsure.filter fun u => u.hart != h } }

/-- Writes one location: reckoning first (R220 item 2). What is written to the host window leaves the machine (log 11). -/
def State.writeLoc (s : State) (via : Via) (l : Loc) (bytes : List Byte) : State :=
  match l.t with
  | .peer p =>
    match s.peerBase via.part p with
    | some base => s.peerSend via p false (.peerWrite via.part (s.peerFlow via.part p) p (remote base l.pa) bytes)
    | none => s
  | .host => s
  | .void => s.inFlight via l.va bytes.length
  | _ => ((if l.needsRod then s.reckonRange l.pa l.len none else s).putBytes via l bytes).noteWrite via l bytes.length

def State.writeLocs (s : State) (via : Via) : List Loc → List Byte → State
  | [], _ => s
  | l :: ls, bs => (s.writeLoc via l (bs.take l.len)).writeLocs via ls (bs.drop l.len)

/-- What a store to these locations meets before any rod: a window that refuses it, at its first byte there, or a peer's flow that is full. -/
def State.storeCheck (s : State) (via : Via) : List Loc → Res Unit
  | [] => .ok () s
  | l :: ls =>
    match l.t with
    | .agent _ _ | .desc _ => .trap 7 l.va s
    | .peer p =>
      if (s.peerBase via.part p).isNone then .trap 7 l.va s
      else if s.flowFull via.part p then .stall .peer s
      else s.storeCheck via ls
    | _ => s.storeCheck via ls

/-- Everything a store to located bytes waits for: the windows that refuse it, then the rods. -/
def State.storeReady (s : State) (via : Via) (ls : List Loc) : Res Unit :=
  (s.storeCheck via ls).bind fun _ s1 =>
    let r := s1.takeRods via ls
    if r.2 then .ok () r.1 else .stall .rod r.1

/-- A store to located bytes. -/
def State.storeLocs (s : State) (via : Via) (ls : List Loc) (bytes : List Byte) : Res Unit :=
  (s.storeReady via ls).bind fun _ s1 => .ok () (s1.writeLocs via ls bytes)

/-- Writes bytes at a virtual address (agent registers apart): every check, then the rods, then the bytes. -/
def State.writeBytes (s : State) (via : Via) (va : Word) (bytes : List Byte) : Res Unit :=
  (s.locate via va bytes.length .store).bind fun ls s1 => s1.storeLocs via ls bytes

/-! ## Zero triggers (R134, R240) -/

/-- The bank of a scratch address (R130): core and bank. -/
def bankOf (pa : Nat) : Nat × Nat := ((pa - Config.scratchBase) / 2 ^ 18, pa % 2 ^ 18 / 64 % 96)

/-- A message from a sender to a hart, its other fields empty. -/
def Msg.blank (dest src part inc : Nat) : Msg :=
  { dest := dest, src := src, hidx := 0, cls := .ordinary, chan := false, payload := [], rhidx := 0, rstat := 0, rtag := 0, part := part, inc := inc,
    poison := false, tex := false, gone := false, owner := none, bounced := false }

/-- The message of a firing: SRC bit 15 and the core id (R240, R248). -/
def State.triggerMsg (s : State) (core dest : Nat) (a : Armed) : Msg :=
  { Msg.blank dest (0x8000 + core) (s.partOf dest) (s.core core).inc.toNat with
    hidx := a.hidx, cls := .trigger, payload := leBytes 8 a.va.toNat ++ leBytes 4 a.tag.toNat ++ leBytes 4 (a.hidx + (if a.wide then 256 else 0)) }

/-- Fires the armed words that an operation on pa .. pa + n - 1 left at 0. -/
def State.fireArmed (s : State) (pa n : Nat) : State :=
  let core := (bankOf pa).1
  let k := s.core core
  let hit (a : Armed) : Bool :=
    let w := if a.wide then 8 else 4
    decide (a.pa < pa + n ∧ pa < a.pa + w) && leNat (memRead s.mem a.pa w) == 0
  let fired := k.armed.filter hit
  if fired = [] then s
  else
    let s1 := s.setCore core { k with armed := k.armed.filter fun a => !hit a }
    fired.foldl (fun st a =>
      match st.hartOf a.owner with
      | some h => { st with net := st.net ++ [st.triggerMsg core h a] }
      | none => st.modCore core fun c => { c with heldMsg := c.heldMsg ++ [(a.owner, st.triggerMsg core 0 a)] }) s1

/-! ## Indivisible updates (R132, R228, R229) -/

/-- A location as its home works on it: a word of a P line is no core's own there (R228). -/
def Loc.homeLoc (l : Loc) : Loc := if l.t = .hbm ∧ l.kind = .p then { l with kind := .u } else l

/-- Before a word of a P line is worked on at its home, the core writes back and drops its copy of the line (R228). -/
def State.homeView (s : State) (via : Via) (l : Loc) : State :=
  let line (a : Nat) : Bool := a / 128 == l.pa / 128
  if l.t = .hbm ∧ l.kind = .p ∧ via.num < 1024 then (s.pFlush via.num line).copyDrop via.num fun d => line (8 * d) else s

/-- What a read-modify-write does before it looks at its word: a P line goes home, the slice wakes (R223), Bead words are reckoned (R220). `reads`: the
instruction reads the word, and takes the flags of a reckoning. -/
def State.rmwReady (s : State) (via : Via) (l : Loc) (reads : Bool) : State :=
  let v := s.homeView via l
  let w := if l.t = .hbm then v.wakeHome l.home else v
  if l.needsRod then w.reckonRange l.pa l.len (if reads then via.hart else none) else w

/-- The word of a read-modify-write, ready at its place, and its first poisoned byte, if there is one: found so, or left by a partial that its reckoning
lost (R221, R229). -/
def State.atHome (s : State) (via : Via) (l : Loc) (reads : Bool) : Option Nat × State :=
  match s.poisonAt via l with
  | some p => (some p, s)
  | none => let s1 := s.rmwReady via l reads; (s1.firstPoison l.pa l.len, s1)

/-- A word that is ready at its place takes what f gives of its old value, or stays where f gives none. Answers the old value. -/
def State.rmwDone (s : State) (via : Via) (l : Loc) (f : Nat → Option Nat) : Nat × State :=
  let old := leNat (memRead s.mem l.pa l.len)
  match f old with
  | none => (old, s)
  | some w =>
    let s1 := s.putBytes via l.homeLoc (leBytes l.len w)
    (old, match l.t with | .scratch _ _ => s1.fireArmed l.pa l.len | _ => s1)

/-- One read-modify-write of a location. -/
def State.rmw (s : State) (via : Via) (l : Loc) (reads : Bool) (f : Nat → Option Nat) : Nat × State := (s.rmwReady via l reads).rmwDone via l f

end Sys2Proof.Machine
end

