-- ==== Sys2Proof/Machine/Log.lean ====
section
/-! DEFINITION. The writes of the front end (R21, R42) and a launch's task error records (R315). -/

namespace Sys2Proof.Machine

/-! ## Writes of the front end -/

/-- Has the thread taken the packet at RDIDX: a wait that blocks, a held packet, a granted LAUNCH, or one that it has begun (log 68)? -/
def Queue.taken (q : Queue) : Bool := q.qstate == .blocked || q.qstate == .awaiting || q.granted || q.hand != .none

/-- Has a thread a packet in hand, with which its rods go (R213)? -/
def State.inPacket (s : State) (part qid : Nat) : Bool := s.qp.queues.any fun q => q.part == part && q.qid == qid && q.taken

/-- A write of the front end for a queue, once the rods it needs are held: they go with the packet in hand, or with the write where there is none (R213).
The number is the cause that skips it, `false` that it waits for a rod. -/
def State.frontTry (s : State) (w : FrontWork) : State × Bool × Option Nat :=
  let via := s.viaQueue w.part w.qid
  match s.locate via w.va w.bytes.length .store with
  | .ok ls s1 =>
    if ls.any (fun l => l.t == .void) then (s1, true, some 48)
    else if ls.all (fun l => l.t == .hbm) = false then (s1, true, some 7)
    else
      match s1.storeReady via ls with
      | .ok _ s2 =>
        let s3 := s2.writeLocs via ls w.bytes
        (if s3.inPacket w.part w.qid then s3 else s3.releaseRods via.party, true, none)
      | .stall _ s2 => (s2, false, none)
      | .trap c _ s2 => (s2, true, some c)
  | .trap c _ s1 => (s1, true, some c)
  | .stall _ s1 => (s1, false, none)

/-- Does a queue's front end have a write that waits? -/
def State.frontBusy (s : State) (part qid : Nat) : Bool := s.front.any fun w => w.part == part && w.qid == qid

/-- A write of the front end in a launch's own translation (R21), to the partition's HBM (R42): it waits behind the queue's earlier writes and for the
rods of its regions (R211). The number is the cause that skips it. -/
def State.frontWrite (s : State) (part qid : Nat) (why : FrontWhy) (va : Word) (bytes : List Byte) : State × Option Nat :=
  let w : FrontWork := { part := part, qid := qid, why := why, va := va, bytes := bytes }
  let wait (st : State) : State := { st with front := st.front ++ [w] }
  let r := s.frontTry w
  if r.2.2.isSome then (r.1, r.2.2)
  else if s.frontBusy part qid then (wait s, none)
  else if r.2.1 then (r.1, none)
  else (wait r.1, none)

/-- The bytes at an address as a reader finds them, without any effect of the read. -/
def State.peek (s : State) (via : Via) (va : Word) (n : Nat) : Option (List Byte) := (s.readBytes via va n).value?

/-! ## Task error records (R315) -/

/-- ERRREC, TLADDR, TLTARGET and CPLREC of a launch's header, by KIND (R16, R23); low 6 bits of two of them are ignored (R313). -/
def Launch.errrec (l : Launch) : Word := BitVec.ofNat 64 (leNat ((l.header.drop (if l.kind = 2 then 0x10 else 0x60)).take 8)) &&& ~~~63
def Launch.tladdr (l : Launch) : Word := BitVec.ofNat 64 (leNat ((l.header.drop (if l.kind = 2 then 0x18 else 0x68)).take 8))
def Launch.tltarget (l : Launch) : Nat := leNat ((l.header.drop (if l.kind = 2 then 0x20 else 0x70)).take 8)
def Launch.cplrec (l : Launch) : Word := BitVec.ofNat 64 (leNat ((l.header.drop (if l.kind = 2 then 0x28 else 0x78)).take 8)) &&& ~~~63

/-- The TYPE 17 entry of a write of completion or report that is skipped, with its cause (R21, R316). -/
def State.logSkip (s : State) (part qid which : Nat) (va : Word) (c : Nat) : State :=
  s.logEntry part { type := 17, sev := 3, ovr := false, cls := 0, idx := 0, addr := va, qid := qid, data := leBytes 8 which ++ leBytes 8 c }

/-- A write of the front end to the error area or the completion record; a skipped one is logged (R21). -/
def State.launchWrite (s : State) (l : Launch) (which : Nat) (va : Word) (bytes : List Byte) : State :=
  match s.frontWrite l.part l.qid (.report which) va bytes with
  | (s1, none) => s1
  | (s1, some c) => s1.logSkip l.part l.qid which va c

/-- The header of the error area: NREC, DROP, HCODE. -/
def State.errHeader (s : State) (l : Launch) (hcode : Nat) : State :=
  s.launchWrite l 2 l.errrec (leBytes 4 l.nrec ++ leBytes 4 l.drop ++ leBytes 4 hcode ++ List.replicate 52 0)

/-- One task error record: at ERRREC + 64 * (j + 1) while j < 63, else DROP rises. -/
def State.errRecord (s : State) (launch : Nat) (cause hart flags lin : Nat) (epc tval info0 info1 : Word) : State :=
  match s.launch? launch with
  | none => s
  | some l =>
    if l.errrec = 0 then s
    else if 63 ≤ l.nrec then
      let l' : Launch := { l with drop := l.drop + 1 }
      (s.setLaunch l').errHeader l' 0
    else
      let l' : Launch := { l with nrec := l.nrec + 1 }
      let b := leBytes 4 cause ++ leBytes 2 hart ++ leBytes 2 flags ++ leBytes 8 lin ++ leBytes 8 epc.toNat ++ leBytes 8 tval.toNat ++
        leBytes 8 s.time ++ leBytes 8 info0.toNat ++ leBytes 8 info1.toNat ++ leBytes 8 0
      ((s.setLaunch l').launchWrite l 2 (l.errrec + BitVec.ofNat 64 (64 * (l.nrec + 1))) b).errHeader l' 0

/-- The QID of the launch that a hart's task belongs to. -/
def State.qidOf (s : State) (h : Nat) : Nat :=
  match (s.getSeq h).task with
  | some t => match s.launch? t.launch with | some l => l.qid | none => noQid
  | none => noQid

end Sys2Proof.Machine
end

