-- ==== Sys2Proof/Machine/AgentRegs.lean ====
section
/-! DEFINITION. The register blocks of the agents (R264 to R268, R280) and of the power controller (R336), and how
a slot of an agent's ring ends (R267). -/

namespace Sys2Proof.Machine

/-- KIND of an agent: 0 mesh distributor, 1 rasteriser, 2 blend unit (R125, R265). -/
def agentKind (a : Nat) : Nat := if a % 16 = 0 then 0 else if a % 16 < 5 then 1 else 2

def b2n (b : Bool) : Nat := if b then 1 else 0

/-- The slots an agent has read and not ended (R268). -/
def Agent.inProgress (g : Agent) : List Nat :=
  let l := g.finished.map (·.1) ++ g.window.map (·.slot) ++ (match g.draw with | some d => [d.slot] | none => []) ++
    (match g.work with | some w => [w.slot] | none => [])
  l.foldl insNat []

/-- The 8-byte register at an 8-aligned offset of an agent block; unlisted offsets read 0. -/
def State.agentReg (s : State) (a off : Nat) : Word :=
  if a % 16 = 15 then
    let p := s.powerOf (a / 16)
    BitVec.ofNat 64 (match off with
      | 0x000 => p.plimit
      | 0x008 => p.pnow
      | 0x010 => p.cap
      | 0x018 => p.steps * 2 ^ 32 + b2n p.whold * 2 + b2n p.therm
      | _ => 0)
  else
    let g := s.agent a
    match off with
    | 0x000 => BitVec.ofNat 64 (g.inc.toNat * 2 ^ 24 + agentKind a * 2 ^ 16 + a / 16 * 2 ^ 8 + a % 16)
    | 0x008 => BitVec.ofNat 64 (b2n g.en)
    | 0x010 =>
      BitVec.ofNat 64 (g.errcnt % 2 ^ 32 * 2 ^ 32 + g.lastErr * 2 ^ 8 + b2n g.late * 8 + b2n g.ordErr * 4 + b2n g.err * 2 + b2n !g.inProgress.isEmpty)
    | 0x018 => g.atp
    | 0x020 => g.qbase
    | 0x028 => BitVec.ofNat 64 g.qsize
    | 0x030 => BitVec.ofNat 64 g.qhead
    | 0x038 => BitVec.ofNat 64 g.qtail
    | 0x048 => g.errAddr
    | 0x050 => BitVec.ofNat 64 g.errSlot
    | 0x080 => if agentKind a = 2 then g.tbase else 0
    | 0x088 =>
      if agentKind a = 2 then g.tstride
      else if agentKind a = 0 then match g.draw with | some d => BitVec.ofNat 64 (d.next - (d.acked.filter (· < d.next)).length) | none => 0
      else 0
    | 0x090 => if agentKind a = 2 then g.tsize else 0
    | 0x098 => if agentKind a = 2 then g.nextOpen else 0
    | 0x0A0 => if agentKind a = 2 then BitVec.ofNat 64 g.window.length else 0
    | 0x0A8 => if agentKind a = 2 then BitVec.ofNat 64 (b2n g.ord) else 0
    | _ => 0

/-- The virtual address of slot k (R266). -/
def Agent.slotVa (g : Agent) (k : Nat) : Word := g.qbase + BitVec.ofNat 64 (64 * (k % g.qsize))

/-- Applies an operation to an 8-byte word of HBM or scratch, as one AMO that answers the old value; other targets refuse it (R228, R327). -/
def State.amoWord (s : State) (via : Via) (l : Loc) (f : Nat → Nat) : Res Nat :=
  match l.t with
  | .hbm | .scratch _ _ =>
    match s.atHome via l false with
    | (some p, s1) => .trap 30 (l.va + BitVec.ofNat 64 (p - l.pa)) s1
    | (none, s1) => let r := s1.rmwDone via l fun old => some (f old); .ok r.1 r.2
  | .void => .trap 48 l.va s
  | _ => .trap 7 l.va s

/-- The same at a virtual address; `hbm`: the word must lie in HBM (R42). -/
def State.amoVa (s : State) (via : Via) (va : Word) (hbm : Bool) (f : Nat → Nat) : Res Nat :=
  (s.locate via va 8 .store).bind fun ls s1 =>
    match ls with
    | [l] => if hbm && l.t != .hbm && l.t != .void then .trap 7 va s1 else s1.amoWord via l f
    | _ => .trap 7 va s1

/-- Unsigned max of a value into a word. -/
def State.amoMax (s : State) (via : Via) (va : Word) (hbm : Bool) (v : Nat) : Res Unit :=
  (s.amoVa via va hbm fun old => max old v).bind fun _ s1 => .ok () s1

/-- Where a DONEADDR puts the completion signal (R267), or the RESULT that ends the slot. -/
def State.doneAt (s : State) (a : Nat) (va : Word) : Res (Loc ⊕ Nat) :=
  if va.toNat % 8 ≠ 0 then .ok (.inr 1) s
  else
    match s.locate (s.viaAgent a) va 8 .store with
    | .ok [l] s1 => match l.t with | .hbm | .scratch _ _ => .ok (.inl l) s1 | _ => .ok (.inr 2) s1
    | .ok _ s1 => .ok (.inr 2) s1
    | .trap c _ s1 => .ok (.inr (if c = 30 then 3 else 2)) s1
    | .stall w s1 => .stall w s1

/-- Records a failed slot: ERR, LASTERR, ERRSLOT, ERRADDR, ERRCNT (R267). -/
def Agent.fail (g : Agent) (k result : Nat) (addr : Word) : Agent :=
  { g with err := true, lastErr := result, errSlot := k, errAddr := addr, errcnt := g.errcnt + 1 }

/-- The completion signal of slot k, by the translation kept when the slot was taken; a poisoned word discards it. -/
def State.signalDone (s : State) (a k : Nat) : State :=
  match aget (s.agent a).doneLoc k with
  | none => s
  | some l =>
    match s.amoWord (s.viaAgent a) l (fun old => max old (k + 1)) with
    | .ok _ x => x
    | .trap 30 p x =>
      x.logEntry (x.partOfAgent a)
        { type := 8, sev := 2, ovr := false, cls := 3, idx := a, addr := p, qid := noQid,
          data := leBytes 8 a ++ leBytes 8 l.va.toNat ++ leBytes 8 0 }
    | _ => s

/-- Ends slot k with a result and its ERRADDR, by steps 2 to 4 of R267, and says whether it has ended: while the write of RESULT waits, the agent stands
among those that wait for the rod (R212). A slot that fails is counted as it ends (R265). -/
def State.agentEnd (s : State) (a k result : Nat) (addr : Word) : State × Bool :=
  match s.writeBytes (s.viaAgent a) ((s.agent a).slotVa k + 0x3C) (leBytes 4 result) with
  | .stall _ x => (x, false)
  | r =>
    let s2 := (match r with | .ok _ x => x | _ => s).signalDone a k
    let fin (g : Agent) : Agent :=
      { g with qhead := k + 1, finished := adel g.finished k, doneLoc := adel g.doneLoc k, ready := g.ready.filter (· ≠ k) }
    (((s2.modAgent a fun g => if result = 0 then fin g else (fin g).fail k result addr).releaseRods (.agent a)).dropAsks (.agent a), true)

/-- Ends the finished slots from QHEAD up, in index order. -/
def State.agentDrain (s : State) (a : Nat) : Nat → State
  | 0 => s
  | n + 1 =>
    let g := s.agent a
    match aget g.finished g.qhead with
    | none => s
    | some r =>
      match s.agentEnd a g.qhead r.1 r.2 with
      | (s1, true) => s1.agentDrain a n
      | (s1, false) => s1

/-- A slot's work is over: it waits to end in index order. -/
def State.agentFinish (s : State) (a k result : Nat) (addr : Word) : State :=
  let s1 := s.modAgent a fun g => { g with finished := aput g.finished k (result, addr) }
  s1.agentDrain a ((s1.agent a).finished.length)

/-- A store of 1 to CTRL.RESET (R268): the rods of the old incarnation go under R227. -/
def State.agentReset (s : State) (a : Nat) : State :=
  let mine := s.coh.rods.filter fun r => r.2.holder = some (.agent a) ∧ r.2.area = none
  let s1 := mine.foldl (fun st r =>
      match r.2.lastW with
      | some t => if s.time ≤ t + s.lease r.1 then st.poisonRange (r.1 * 4096) 4096 else st
      | none => st) s
  let s2 := s1.releaseRods (.agent a)
  let dir := s2.coh.dir.map fun (k, d) => (k, ({ d with holders := adel d.holders (1024 + a) } : DirLine))
  let s3 := { s2 with coh := { s2.coh with dir := dir } }
  s3.modAgent a fun g =>
    { g with en := false, inc := g.inc + 1, broken := (g.broken ++ g.inProgress).foldl insNat [], finished := [], window := [],
             draw := none, work := none, ready := [] }

/-- Sets EN; interrupted slots end at once with RESULT 0x04 (R268). -/
def State.agentEnable (s : State) (a : Nat) : State :=
  let g := s.agent a
  if g.qsize = 0 ∨ 65536 < g.qsize then s
  else
    let s1 := s.modAgent a fun g => { g with en := true, broken := [], finished := g.broken.foldl (fun l k => aput l k (4, 0)) g.finished }
    s1.agentDrain a (g.broken.length)

/-- Outcome of a store to a register block. -/
inductive RegStore where
  | done (s : State)
  | full

/-- NOTIFY (R266): the rows in order. -/
def State.agentNotify (s : State) (a k : Nat) : RegStore :=
  let g := s.agent a
  if k < g.qhead ∨ g.qtail ≤ k ∨ g.ready.contains k ∨ g.broken.contains k ∨ g.inProgress.contains k then
    .done (s.setAgent a { g with ordErr := true })
  else if g.qhead + g.qsize ≤ k then .full
  else .done (s.setAgent a { g with ready := insNat g.ready k })

/-- MBASE and NM of the current draw. -/
def DrawSt.mbase (d : DrawSt) : Nat := leNat ((d.body.drop 0x20).take 4)
def DrawSt.nm (d : DrawSt) : Nat := leNat ((d.body.drop 0x10).take 4)

/-- MDONE (R269): an acknowledgement outside the draw's range, or a repeated one, sets ORDERR. Meshlet numbers have 32 bits. -/
def State.agentMdone (s : State) (a m : Nat) : State :=
  let g := s.agent a
  match g.draw with
  | none => s.setAgent a { g with ordErr := true }
  | some d =>
    let i := (m + 2 ^ 32 - d.mbase) % 2 ^ 32
    if d.nm ≤ i ∨ d.acked.contains i then s.setAgent a { g with ordErr := true }
    else s.setAgent a { g with draw := some { d with acked := insNat d.acked i } }

/-- PLIMIT: the nearer bound outside 1,600 to 3,200; the four dies agree (R336). -/
def State.setPlimit (s : State) (w : Nat) : State :=
  let v := max 1600 (min 3200 w)
  [0, 1, 2, 3].foldl (fun st d => st.setPower d { st.powerOf d with plimit := v }) s

/-- Stores the bits of `mask` of v into the register at an 8-aligned offset (R127, R265, R280, R336). -/
def State.agentStore (s : State) (a off : Nat) (v mask : Word) (mode : Mode) : RegStore :=
  if a % 16 = 15 then
    if off = 0 ∧ mode = .m then
      .done (s.setPlimit (((BitVec.ofNat 64 (s.powerOf (a / 16)).plimit &&& ~~~mask) ||| (v &&& mask)).toNat % 65536))
    else .done s
  else
    let g := s.agent a
    let low := mask.getLsbD 0
    let mix (old : Word) : Word := (old &&& ~~~mask) ||| (v &&& mask)
    let set := v &&& mask
    match off with
    | 0x008 =>
      if !low then .done s
      else
        let s1 := if set.getLsbD 2 then s.setAgent a { g with tlb := [] } else s
        if set.getLsbD 1 then .done (s1.agentReset a)
        else if set.getLsbD 0 then .done (if g.en then s1 else s1.agentEnable a)
        else .done (s1.modAgent a fun g => { g with en := false })
    | 0x010 =>
      .done (s.setAgent a
        { g with late := g.late && !set.getLsbD 3, ordErr := g.ordErr && !set.getLsbD 2, err := g.err && !set.getLsbD 1 })
    | 0x018 => .done (if g.en then s else s.setAgent a { g with atp := mix g.atp })
    | 0x020 => .done (if g.en then s else s.setAgent a { g with qbase := mix g.qbase &&& ~~~63 })
    | 0x028 => .done (if g.en then s else s.setAgent a { g with qsize := (mix (BitVec.ofNat 64 g.qsize)).toNat % 2 ^ 17 })
    | 0x038 => .done (s.setAgent a { g with qtail := (mix (BitVec.ofNat 64 g.qtail)).toNat })
    | 0x040 => if low then s.agentNotify a set.toNat else .done s
    | 0x080 =>
      if agentKind a = 0 then (if low then .done (s.agentMdone a (set.toNat % 2 ^ 32)) else .done s)
      else if agentKind a = 2 ∧ !g.en then .done (s.setAgent a { g with tbase := mix g.tbase &&& ~~~3 })
      else .done s
    | 0x088 => .done (if agentKind a = 2 ∧ !g.en then s.setAgent a { g with tstride := mix g.tstride } else s)
    | 0x090 => .done (if agentKind a = 2 ∧ !g.en then s.setAgent a { g with tsize := mix g.tsize &&& 0xFFFFFFFF } else s)
    | 0x0A8 => .done (if agentKind a = 2 ∧ !g.en then s.setAgent a { g with ord := (mix (BitVec.ofNat 64 (b2n g.ord))).getLsbD 0 } else s)
    | _ => .done s

/-- May a store reach this register from a mode (R264)? -/
def agentStoreOk (a off : Nat) (mode : Mode) : Bool :=
  mode != .u || (a % 16 != 15 && (off / 8 * 8 == 0x040 || (off / 8 * 8 == 0x080 && agentKind a == 0)))

end Sys2Proof.Machine
end

