-- ==== Sys2Proof/Machine/Ops.lean ====
section
/-! DEFINITION. What every instruction shares: visible PCs and safe points (R63, R69, R70), the end check and
retirement (R92), taking a trap and returning from it (R106, R297, R298), loads and stores, stalls. -/

namespace Sys2Proof.Machine

/-! ## Fields of a word -/

/-- Replaces n bits from lo. -/
def putBits (w : Word) (lo n v : Nat) : Word :=
  (w &&& ~~~(BitVec.ofNat 64 ((2 ^ n - 1) * 2 ^ lo))) ||| BitVec.ofNat 64 (v % 2 ^ n * 2 ^ lo)

/-- n bits from lo as a number. -/
def getBits (w : Word) (lo n : Nat) : Nat := w.toNat / 2 ^ lo % 2 ^ n

/-! ## Visible PCs (R69) and the forms of code (R65, R71) -/

/-- The object of a hart's task. -/
def State.objOf (s : State) (h : Nat) : Option Obj :=
  match (s.getSeq h).task with
  | some t => s.obj? t.obj
  | none => none

def Obj.inTrans (o : Obj) (a : Word) : Bool := decide (o.tarea ≤ a.toNat ∧ a.toNat < o.tarea + o.tsize)

/-- The end of an object's last Lammel code page: code is mapped in whole pages (R66). -/
def Obj.lammelEnd (o : Obj) : Nat := (o.lammel.1 + o.lammel.2 + 4095) / 4096 * 4096
def Obj.inLammel (o : Obj) (a : Word) : Bool := decide (0 < o.lammel.2 ∧ o.lammel.1 ≤ a.toNat ∧ a.toNat < o.lammelEnd)

/-- Is a PC of a hart in translated code? -/
def State.inTrans (s : State) (h : Nat) (pc : Word) : Bool :=
  match s.objOf h with | some o => o.inTrans pc | none => false

/-- The address a program or debugger sees for a PC (R69). -/
def State.seePc (s : State) (h : Nat) (pc : Word) : Word := if s.inTrans h pc then Config.lammelPc pc else pc

/-- The same for the PC of a context that a save area holds. -/
def State.seeSaved (s : State) (q : Seq) : Word :=
  match q.task.bind fun t => s.obj? t.obj with
  | some o => if o.inTrans q.pc then Config.lammelPc q.pc else q.pc
  | none => q.pc

/-! ## Safe points (R62, R63, R70, R71) -/

/-- The generation a safe point takes: GEN, but below G while the task's object was retired at G above CGEN. -/
def State.safeGen (s : State) (h : Nat) : Nat :=
  let gen := ((s.part (s.partOf h)).map (·.gen)).getD 1
  let cg := (s.getSeq h).ctl.cgen
  match (s.objOf h).bind (·.retired) with
  | some g => if cg < g then min gen (g - 1) else gen
  | none => gen

def State.safePoint (s : State) (h : Nat) : State :=
  let g := s.safeGen h
  s.modSeq h fun q => { q with ctl := { q.ctl with cgen := g } }

/-- An entry of the dispatch table (R70). -/
structure DtabEntry where
  laddr : Word
  naddr : Word
  ngen  : Nat
  lmap  : Word
deriving DecidableEq, Repr

/-- Entry i of an object's dispatch table. -/
def State.dtabEntry (s : State) (h : Nat) (o : Obj) (i : Nat) : Option DtabEntry :=
  match s.peek (s.viaTables h) (BitVec.ofNat 64 (o.dtab + 32 * i)) 32 with
  | some b => some ⟨BitVec.ofNat 64 (leNat (b.take 8)), BitVec.ofNat 64 (leNat ((b.drop 8).take 8)), leNat ((b.drop 16).take 8),
      BitVec.ofNat 64 (leNat ((b.drop 24).take 8))⟩
  | none => none

/-- The last of the first n entries whose LADDR is at or below an address. -/
def State.functionOf (s : State) (h : Nat) (o : Obj) (a : Word) : Nat → Option DtabEntry
  | 0 => none
  | n + 1 =>
    match s.dtabEntry h o n with
    | some e => if e.laddr.toNat ≤ a.toNat then some e else s.functionOf h o a n
    | none => s.functionOf h o a n

/-- The native loop start of a Lammel loop start in an LMAP table, which ends at a pair of zeros (log 16). -/
def State.lmapFind (s : State) (h : Nat) (tab start : Word) : Nat → Option Word
  | 0 => none
  | n + 1 =>
    match s.peek (s.viaTables h) tab 16 with
    | some b =>
      let l := BitVec.ofNat 64 (leNat (b.take 8))
      if l = 0 then none
      else if l = start then some (BitVec.ofNat 64 (leNat (b.drop 8)))
      else s.lmapFind h (tab + 16) start n
    | none => none

/-- Does a PC lie in a body retired at or below a generation (R61, R70)? -/
def State.inOldBody (s : State) (h : Nat) (pc : Word) (gen : Nat) : Bool :=
  match (s.getSeq h).task with
  | none => false
  | some t => s.old.any fun b => b.obj == t.obj && decide (b.gen ≤ gen ∧ b.addr ≤ pc.toNat ∧ pc.toNat < b.addr + b.len)

/-- A control transfer to a function start is a safe point, and takes the native body if one is published. -/
def State.functionEntry (s : State) (h : Nat) (a : Word) : State × Word :=
  match s.objOf h with
  | none => (s, a)
  | some o =>
    match s.functionOf h o a o.ndtab with
    | some e => if e.laddr = a then (s.safePoint h, if e.naddr = 0 then a else e.naddr) else (s, a)
    | none => (s, a)

/-- A back edge taken at depth 1 to a loop start (a Lammel address where the code is Lammel or translated). -/
def State.loopSafe (s : State) (h : Nat) (start target : Word) : State × Word :=
  let s1 := s.safePoint h
  match s1.objOf h with
  | none => (s1, target)
  | some o =>
    match s1.functionOf h o start o.ndtab with
    | some e =>
      match (if e.lmap = 0 then none else s1.lmapFind h e.lmap start 4096) with
      | some n => (s1, n)
      | none => (s1, if s1.inOldBody h target (s1.getSeq h).ctl.cgen then start else target)
    | none => (s1, target)

/-! ## The end check (R92) -/

/-- What the end check leaves: the next PC, the stack, whether an iteration ended, and the START of a back edge
taken at depth 1. -/
structure EndCheck where
  next  : Word
  loops : List LoopEntry
  edge  : Bool
  safe  : Option Word
deriving DecidableEq, Repr

/-- `see` is the visible address of nextPC, `trans` whether it lies in translated code. -/
def endCheck (mode : Mode) (see : Word) (trans : Bool) (next : Word) : List LoopEntry → Bool → EndCheck
  | [], edge => ⟨next, [], edge, none⟩
  | e :: rest, edge =>
    if e.mode = mode ∧ see = e.stop then
      if e.index.toNat + 1 < e.count.toNat ∧ e.start ≠ e.stop then
        ⟨if trans then Config.nativePc e.start else e.start, { e with index := e.index + 1 } :: rest, true,
          if rest = [] then some e.start else none⟩
      else endCheck mode see trans next rest true
    else ⟨next, e :: rest, edge, none⟩

/-! ## Retirement -/

/-- The address after the instruction. -/
def State.nextPc (s : State) : Word := s.seq.pc + BitVec.ofNat 64 s.seq.latch.len

/-- The next instruction is fetched afresh, as after a safe point that may change the form (R70). -/
def Seq.anyForm (q : Seq) : Seq := { q with latch := { q.latch with form := .native } }

/-- An instruction completes without a trap and passes control to `next` (a control transfer if `jump`): the end
check, the safe points of a task, minstret. -/
def State.retire (s : State) (next : Word) (jump : Bool) : State :=
  let q := s.seq
  let r := endCheck q.mode (s.seePc s.hart next) (s.inTrans s.hart next) next q.loops false
  let s1 := { s with seq := { q with pc := r.next, loops := r.loops, atEdge := r.edge, stall := none, since := none, peerGot := [], elems := [], armed := none,
                                     priv := { q.priv with minstret := q.priv.minstret + 1 } } }
  if q.task.isNone ∨ q.mode ≠ .u then s1
  else
    let p := match r.safe with
      | some start => s1.loopSafe s.hart start r.next
      | none => if jump ∨ r.next ≠ next then s1.functionEntry s.hart r.next else (s1, r.next)
    p.1.upd fun q => if p.2 = r.next then q else { q with pc := p.2 }.anyForm

/-- The instruction waits: nothing else of it happens, and it is executed again (log 2). -/
def State.stalled (s : State) (w : Stall) : State :=
  s.upd fun q => { q with stall := some w, since := match q.since with | some t => some t | none => some s.time }

/-! ## Taking a trap (R106, R297, R298) -/

/-- The mode bits of MPP. -/
def modeCode : Mode → Nat | .u => 0 | .s => 1 | .m => 3
def modeOf (n : Nat) : Mode := if n = 3 then .m else if n = 1 then .s else .u

/-- Entry into S mode: sepc, scause, stval, SPP, SPIE, SIE; the pc at the base of stvec. -/
def Seq.enterS (q : Seq) (epc cause tval : Word) (offset : Nat) : Seq :=
  let st := q.priv.mstatus
  let st' := putBits (putBits (putBits st 5 1 (getBits st 1 1)) 1 1 0) 8 1 (if q.mode = .u then 0 else 1)
  { q with mode := .s, pc := (q.priv.stvec &&& ~~~3) + BitVec.ofNat 64 offset,
           priv := { q.priv with mstatus := st', sepc := epc, scause := cause, stval := tval } }

/-- Entry into M mode: mepc, mcause, mtval, MPP, MPIE, MIE; the pc at the base of mtvec. -/
def Seq.enterM (q : Seq) (epc cause tval : Word) (offset : Nat) : Seq :=
  let st := q.priv.mstatus
  let st' := putBits (putBits (putBits st 7 1 (getBits st 3 1)) 3 1 0) 11 2 (modeCode q.mode)
  { q with mode := .m, pc := (q.priv.mtvec &&& ~~~3) + BitVec.ofNat 64 offset,
           priv := { q.priv with mstatus := st', mepc := epc, mcause := cause, mtval := tval } }

/-- A hart takes an exception: in S mode where medeleg delegates it and the hart is not in M mode; vstart reads 0
afterwards (R74 item 6). -/
def Seq.trapTo (q : Seq) (epc : Word) (cause : Nat) (tval : Word) : Seq :=
  let q' := if q.mode ≠ .m ∧ q.priv.medeleg.getLsbD cause then q.enterS epc (BitVec.ofNat 64 cause) tval 0
    else q.enterM epc (BitVec.ofNat 64 cause) tval 0
  { q' with vec := { q'.vec with vstart := 0 }, stall := none, since := none, peerGot := [], elems := [], armed := none, atEdge := false }

/-- A hart takes an interrupt: scause or mcause has bit 63 set, and a vectored tvec adds 4 * code. -/
def Seq.interruptTo (q : Seq) (epc : Word) (code : Nat) : Seq :=
  let c := BitVec.ofNat 64 (2 ^ 63 + code)
  let q' := if q.mode ≠ .m ∧ q.priv.mideleg.getLsbD code then
      q.enterS epc c 0 (if q.priv.stvec.getLsbD 0 then 4 * code else 0)
    else q.enterM epc c 0 (if q.priv.mtvec.getLsbD 0 then 4 * code else 0)
  { q' with vec := { q'.vec with vstart := 0 }, stall := none, since := none, peerGot := [], elems := [], armed := none, atEdge := false }

/-- The causes that set EPEND (R106). -/
def setsEpend (cause : Nat) : Bool := cause == 24 || cause == 29 || cause == 30 || cause == 48

/-- INFO0 of a task's error record (R315). -/
def State.info0 (s : State) (t : Task) (cause : Nat) (tval : Word) : Word :=
  if cause = 24 then BitVec.ofNat 64 (((s.obj? t.obj).map (·.cbase)).getD 0) else if cause = 29 then tval else 0

/-- EPEND, the erack count, the log entry and the launch's error record of a trap (R106, R315). -/
def State.reportTrap (s : State) (h cause : Nat) (epc tval : Word) : State :=
  let q := s.getSeq h
  let ovr := q.epend
  let n := q.eraCount.toNat
  let s1 := s.setSeq h { q with epend := true, eraCount := BitVec.ofNat 64 (min (n + 1) (2 ^ 64 - 1)) }
  let s2 := s1.logEntry (s.partOf h)
    { type := if cause = 30 then 4 else 14, sev := 2, ovr := ovr, cls := 0, idx := h, addr := tval, qid := s.qidOf h,
      data := if cause = 30 then leBytes 8 h ++ leBytes 8 tval.toNat else leBytes 8 cause ++ leBytes 8 h ++ leBytes 8 tval.toNat }
  match q.task with
  | none => s2
  | some t =>
    if cause = 48 then s2.modLaunch t.launch fun l => { l with severed := true }
    else s2.errRecord t.launch cause h (if ovr then 4 else 0) t.lin epc tval (s.info0 t cause tval) 0

/-- Causes 28 and 49 are taken by the supervisor hart of a cluster, in S mode (R297). -/
def State.supTrap (s : State) (cluster : Nat) (epc : Word) (cause : Nat) (tval : Word) : State :=
  s.modSeq (supervisorOf cluster) fun q =>
    { q.enterS epc (BitVec.ofNat 64 cause) tval 0 with
      vec := { q.vec with vstart := 0 }, stall := none, since := none, peerGot := [], elems := [], armed := none, atEdge := false, run := .running }

/-- The running hart takes a trap: sepc holds the visible address of the instruction (R69, R298). -/
def State.takeTrap (s : State) (cause : Nat) (tval : Word) : State :=
  let epc := s.seePc s.hart s.seq.pc
  if cause = 28 ∨ cause = 49 then
    let s1 := s.supTrap (hartCluster s.hart) epc cause tval
    if isSupervisor s.hart then s1 else s1.upd fun q => { q with run := .halted, stall := none, since := some s.time }
  else
    let s1 := if setsEpend cause then s.reportTrap s.hart cause epc tval else s
    s1.upd fun q => q.trapTo epc cause tval

/-- The instruction bits in tval (R87), or the 8 bytes of a Lammel instruction (R66). -/
def State.tvalBits (s : State) : Word := s.seq.latch.bits

/-- Cause 2. -/
def State.illegal {α : Type} (s : State) : Res α := .trap 2 s.tvalBits s

/-! ## Returning from a trap -/

/-- The address an sret or mret goes to: bit 0 is cleared but for a Lammel address (R66, R69; log 16). -/
def State.returnPc (s : State) (a : Word) : Word :=
  match s.objOf s.hart with
  | some o => if o.inLammel a then a else a &&& ~~~1
  | none => a &&& ~~~1

/-- sret: the mode of SPP, SIE from SPIE, SPIE 1, SPP U, MPRV 0. -/
def Seq.leaveS (q : Seq) : Seq :=
  let st := q.priv.mstatus
  let st' := putBits (putBits (putBits (putBits st 1 1 (getBits st 5 1)) 5 1 1) 8 1 0) 17 1 0
  { q with mode := if getBits st 8 1 = 1 then .s else .u, priv := { q.priv with mstatus := st' } }

/-- mret: the mode of MPP, MIE from MPIE, MPIE 1, MPP U, MPRV 0 unless M mode remains. -/
def Seq.leaveM (q : Seq) : Seq :=
  let st := q.priv.mstatus
  let md := modeOf (getBits st 11 2)
  let st' := putBits (putBits (putBits st 3 1 (getBits st 7 1)) 7 1 1) 11 2 0
  { q with mode := md, priv := { q.priv with mstatus := if md = .m then st' else putBits st' 17 1 0 } }

/-! ## The outcome of an instruction -/

/-- Completes an instruction that goes on after itself. -/
def finish (r : Res Unit) : Host.Outcome State Fault Refusal :=
  match r with
  | .ok _ s => .next (s.retire s.nextPc false)
  | .trap c v s => .next (s.takeTrap c v)
  | .stall w s => .next (s.stalled w)

/-- Completes an instruction that answers where control goes, and whether by a transfer. -/
def finishAt (r : Res (Word × Bool)) : Host.Outcome State Fault Refusal :=
  match r with
  | .ok p s => .next (s.retire p.1 p.2)
  | .trap c v s => .next (s.takeTrap c v)
  | .stall w s => .next (s.stalled w)

/-- Ends an event: a part that traps or stalls leaves its state. -/
def finishEvent (r : Res Unit) : Host.Outcome State Fault Refusal :=
  match r with
  | .ok _ s => .next s
  | .trap _ _ s => .next s
  | .stall _ s => .next s

/-! ## FS and VS of mstatus (log 6) -/

def State.fpOn (s : State) : Bool := getBits s.seq.priv.mstatus 13 2 != 0
def State.vecOn (s : State) : Bool := getBits s.seq.priv.mstatus 9 2 != 0
def Seq.fpDirty (q : Seq) : Seq := { q with priv := { q.priv with mstatus := putBits q.priv.mstatus 13 2 3 } }
def Seq.vecDirty (q : Seq) : Seq := { q with priv := { q.priv with mstatus := putBits q.priv.mstatus 9 2 3 } }

/-- Writes f[r], marking FS dirty. -/
def State.putF (s : State) (r : Reg) (v : Word) : State := (s.setF r v).upd Seq.fpDirty

/-- Accumulates fflags of a scalar FP instruction. -/
def State.fpFlag (s : State) (fl : BitVec 5) : State := (s.flag fl).upd Seq.fpDirty

/-! ## Loads and stores of an instruction -/

/-- Bytes of an 8-byte register, n of them at offset off. -/
def regPart (w : Word) (off n : Nat) : List Byte := ((leBytes 8 w.toNat).drop (off % 8)).take n

/-- Is an access to a register block naturally aligned, of 4 or 8 bytes (R127)? -/
def regAligned (off n : Nat) : Bool := (n == 4 || n == 8) && off % n == 0

/-- A load of located bytes. One of a register block in another form than R127 gives takes cause 7 in U mode, as any access there that R264 does not
permit, and cause 5 in S and M mode (log 27). -/
def State.loadLocs (s : State) (via : Via) (inv : Bool) (ls : List Loc) : Res (List Byte) :=
  match ls with
  | [l] =>
    match l.t with
    | .agent a off => if regAligned off l.len then .ok (regPart (s.agentReg a (off / 8 * 8)) off l.len) s else .trap (if via.mode = .u then 7 else 5) l.va s
    | _ => s.readLocs via inv [l]
  | _ => s.readLocs via inv ls

/-- A load of n bytes, scalar or one vector element. -/
def State.loadAt (s : State) (via : Via) (va : Word) (n : Nat) (inv : Bool) : Res (List Byte) :=
  (s.locate via va n .load).bind fun ls s1 => s1.loadLocs via inv ls

/-- A store to one location of a register block; cause 28 names the block (R258, R266). -/
def State.storeReg (s : State) (via : Via) (va : Word) (a off : Nat) (bytes : List Byte) : Res Unit :=
  if regAligned off bytes.length && agentStoreOk a off via.mode then
    let m := (2 ^ (8 * bytes.length) - 1) * 2 ^ (8 * (off % 8))
    match s.agentStore a (off / 8 * 8) (BitVec.ofNat 64 (leNat bytes * 2 ^ (8 * (off % 8)))) (BitVec.ofNat 64 m) via.mode with
    | .done s1 => .ok () s1
    | .full => .trap 28 (va - BitVec.ofNat 64 off) s
  else .trap 7 va s

/-- A store of bytes, scalar or one vector element. -/
def State.storeAt (s : State) (via : Via) (va : Word) (bytes : List Byte) : Res Unit :=
  (s.locate via va bytes.length .store).bind fun ls s1 =>
    match ls with
    | [l] =>
      match l.t with
      | .agent a off => s1.storeReg via va a off bytes
      | _ => s1.storeLocs via [l] bytes
    | _ => s1.storeLocs via ls bytes

/-- Write-back of P lines by a core at its releases and fences (R136). -/
def State.flushP (s : State) (h : Nat) : State := if isSupervisor h then s else s.pFlush (coreOf h) fun _ => true

/-! ## The debug ring (R309) -/

/-- What a vector instruction leaves for its record. -/
structure VInfo where
  first  : Word
  last   : Word
  trunc  : Bool
  cls    : Nat
  ord    : Nat
  masked : Bool
  pop    : Nat
deriving DecidableEq, Repr

/-- vsew and vlmul of vtype. -/
def Vec.sewCode (v : Vec) : Nat := getBits v.vtype 3 3
def Vec.lmulCode (v : Vec) : Nat := getBits v.vtype 0 3

/-- The record and SEQ of a retired vector instruction. -/
def State.ringRecord (s : State) (i : VInfo) : State :=
  let q := s.seq
  let info := q.vec.sewCode + q.vec.lmulCode * 8 + b2n i.masked * 64 + b2n i.trunc * 128 + i.cls * 256 + i.ord * 4096
  let b := leBytes 8 i.first.toNat ++ leBytes 8 i.last.toNat ++ leBytes 4 q.vec.vl ++ leBytes 4 i.pop ++ leBytes 4 info ++
    leBytes 4 (q.ctl.dbgSeq + 1).toNat
  let s1 := if q.ctl.dbgEn then
      s.putBytes { s.viaHart s.hart with mode := .m } ⟨0, Config.ringBase + s.hart * 2048 + 32 * q.ctl.dbgHead.toNat, .ring s.hart, .u, 0, 0, 32⟩ b
    else s
  s1.upd fun q => { q with ctl := { q.ctl with dbgSeq := q.ctl.dbgSeq + 1,
                                               dbgHead := if q.ctl.dbgEn then q.ctl.dbgHead + 1 else q.ctl.dbgHead } }

/-- Completes a vector instruction: its record, VS dirty, then as `finish`. -/
def finishV (r : Res VInfo) : Host.Outcome State Fault Refusal :=
  finish (r.bind fun i s => .ok () ((s.ringRecord i).upd Seq.vecDirty))

/-! ## Engine operations and their tokens (R155) -/

/-- Is a register the pending token of an operation (R155)? -/
def Seq.pendingTok (q : Seq) (r : Reg) : Bool := q.pend.any fun p => p.1 == r

/-- When the present wait began (R244, R246). -/
def State.armedAt (s : State) : Nat := (s.seq.armed.map (·.1)).getD s.time

/-- Restricted to harts that run a task on a core: supervisor harts have no engines or lanes. -/
def State.onCore (s : State) : Bool := !isSupervisor s.hart

end Sys2Proof.Machine
end

