-- ==== Sys2Proof/Machine/Memory.lean ====
section
/-! DEFINITION. Scalar loads and stores (R73), the scoped and invariant accesses and the fences (R144 to R146), and
sfence.vma (R142). -/

namespace Sys2Proof.Machine

/-! ## Standard loads and stores -/

/-- Bytes of a load. -/
def loadSize : LoadOp → Nat
  | .lb | .lbu => 1
  | .lh | .lhu | .flh => 2
  | .lw | .lwu | .flw => 4
  | .ld | .fld => 8

def isFpLoad : LoadOp → Bool | .flh | .flw | .fld => true | _ => false

/-- NaN-boxing of an n-byte value (R73). -/
def nanBox (n v : Nat) : Word := BitVec.ofNat 64 (2 ^ 64 - 2 ^ (8 * n) + v % 2 ^ (8 * n))

/-- The value a load delivers from its bytes. -/
def loadValue (op : LoadOp) (v : Nat) : Word :=
  match op with
  | .lb => sextBytes 1 v
  | .lh => sextBytes 2 v
  | .lw => sextBytes 4 v
  | .ld | .lbu | .lhu | .lwu | .fld => BitVec.ofNat 64 v
  | .flh => nanBox 2 v
  | .flw => nanBox 4 v

/-- A scalar load; also a pair member's. -/
def doLoad (s : State) (op : LoadOp) (rd rs1 : Reg) (imm : BitVec 12) : Res Unit :=
  if isFpLoad op && !s.fpOn then s.illegal
  else
    (s.loadAt s.via (s.x rs1 + imm.signExtend 64) (loadSize op) false).bind fun bs s1 =>
      let v := loadValue op (leNat bs)
      .ok () (if isFpLoad op then s1.putF rd v else s1.setX rd v)

/-- Bytes of a store. -/
def storeSize : StoreOp → Nat
  | .sb => 1
  | .sh | .fsh => 2
  | .sw | .fsw => 4
  | .sd | .fsd => 8

def isFpStore : StoreOp → Bool | .fsh | .fsw | .fsd => true | _ => false

/-- A release at .sys (R136, R197, R327): it waits until the writes and reds of the party through peer windows are acknowledged, and writes back
the core's P lines. -/
def State.releaseSys (s : State) : Res Unit :=
  if s.peerOwes s.via.party then .stall .peer s else .ok () ((s.flushP s.hart).settled s.hart)

/-- A release at .wg or .dev: no peer is in its scope, but the reds of the party are waited for wherever they go (R232). -/
def State.releaseNear (s : State) : Res Unit := if 0 < s.redsOut s.via.party then .stall .peer s else .ok () s

/-- A store that a peer carries as NOTIFY OP 0 (R327): a release store, or an aligned 8-byte store after fence.s.sys (log 27). -/
def State.peerRelease (s : State) (l : Loc) (p v : Nat) : Res Unit :=
  match s.peerBase s.via.part p with
  | none => .trap 7 l.va s
  | some base =>
    s.releaseSys.bind fun _ s1 =>
      if s1.flowFull s1.via.part p then .stall .peer s1
      else .ok () (s1.peerSend s1.via p false (.peerNotify s1.via.part (s1.peerFlow s1.via.part p) p 0 0 (remote base l.pa) (BitVec.ofNat 64 v)))

/-- The peer window of a single location, if it is one. -/
def peerOf : List Loc → Option (Loc × Nat)
  | [l] => match l.t with | .peer p => some (l, p) | _ => none
  | _ => none

/-- A scalar store of bytes: through a peer window after fence.s.sys it goes as a release. -/
def State.scalarStore (s : State) (va : Word) (bytes : List Byte) : Res Unit :=
  if s.seq.fenced ∧ bytes.length = 8 ∧ va.toNat % 8 = 0 then
    (s.locate s.via va 8 .store).bind fun ls s1 =>
      let s2 := s1.upd fun q => { q with fenced := false }
      match peerOf ls with
      | some (l, p) => (s1.peerRelease l p (leNat bytes)).bind fun _ s3 => .ok () (s3.upd fun q => { q with fenced := false })
      | none => s2.storeAt s2.via va bytes
  else s.storeAt s.via va bytes

/-- A scalar store; also a pair member's. -/
def doStore (s : State) (op : StoreOp) (rs2 rs1 : Reg) (imm : BitVec 12) : Res Unit :=
  if isFpStore op && !s.fpOn then s.illegal
  else s.scalarStore (s.x rs1 + imm.signExtend 64) (leBytes (storeSize op) (if isFpStore op then s.f rs2 else s.x rs2).toNat)

def execScalarLoad (op : LoadOp) (rd rs1 : Reg) (imm : BitVec 12) (s : State) : Host.Outcome State Fault Refusal :=
  finish (doLoad s op rd rs1 imm)
def execScalarStore (op : StoreOp) (rs2 rs1 : Reg) (imm : BitVec 12) (s : State) : Host.Outcome State Fault Refusal :=
  finish (doStore s op rs2 rs1 imm)

/-! ## Scoped and invariant accesses (R145) -/

/-- Bytes of a width field: b, h, w, d. -/
def widthBytes (w : BitVec 2) : Nat := 2 ^ w.toNat

/-- ld.aq; below .sys a peer window refuses it with cause 7, as every scoped form (R327). -/
def execLdAq (scope width : BitVec 2) (rd rs1 : Reg) (s : State) : Host.Outcome State Fault Refusal :=
  finish (
    let a := s.x rs1
    let n := widthBytes width
    if scope = 3 then s.illegal
    else if a.toNat % n ≠ 0 then .trap 4 a s
    else
      (s.locate s.via a n .load).bind fun ls s0 =>
        if scope ≠ 2 ∧ (peerOf ls).isSome then .trap 7 a s0
        else
          (s0.loadLocs s0.via false ls).bind fun bs s1 =>
            .ok () ((if scope = 2 then s1.flushP s.hart else s1).setX rd (sextBytes n (leNat bs))))

/-- st.rl: at .sys a release, through a peer window NOTIFY OP 0; below .sys a peer window refuses it (R228, R327). -/
def execStRl (scope width : BitVec 2) (rs2 rs1 : Reg) (s : State) : Host.Outcome State Fault Refusal :=
  finish (
    let a := s.x rs1
    let n := widthBytes width
    if scope = 3 then s.illegal
    else if a.toNat % n ≠ 0 then .trap 6 a s
    else
      (s.locate s.via a n .store).bind fun ls s1 =>
        match peerOf ls with
        | some (l, p) => if scope = 2 then s1.peerRelease l p (lowBits (s.x rs2) (8 * n)) else .trap 7 a s1
        | none =>
          (if scope = 2 then s1.releaseSys else s1.releaseNear).bind fun _ s2 =>
            s2.storeAt s2.via a (leBytes n (s.x rs2).toNat))

def execLdInv (width : BitVec 2) (rd rs1 : Reg) (s : State) : Host.Outcome State Fault Refusal :=
  finish (
    let n := widthBytes width
    (s.loadAt s.via (s.x rs1) n true).bind fun bs s1 => .ok () (s1.setX rd (sextBytes n (leNat bs))))

/-! ## Fences (R136, R146) -/

/-- fence.s: at .dev and .sys the core's P lines are written back; at .sys the party's writes through peer windows are waited for, and the next store
is a release there (R327). -/
def execFenceS (scope : BitVec 2) (s : State) : Host.Outcome State Fault Refusal :=
  finish (
    if scope = 3 then s.illegal
    else if scope = 0 then s.releaseNear
    else if scope = 1 then s.releaseNear.bind fun _ s1 => .ok () (s1.flushP s.hart)
    else s.releaseSys.bind fun _ s1 => .ok () (s1.upd fun q => { q with fenced := true }))

/-- The sequencer's accesses are performed in program order here, so a local-order fence only goes on. -/
def execVfenceSv (s : State) : Host.Outcome State Fault Refusal := finish (.ok () s)
def execVfenceVs (s : State) : Host.Outcome State Fault Refusal := finish (.ok () s)
def execVfenceVv (s : State) : Host.Outcome State Fault Refusal := finish (.ok () s)

/-- The standard fence acts at .sys (R73): one that orders writes before anything is a release. With an empty predecessor or successor set it is a
hint (R88). fence.i orders fetches, which read memory as it stands. -/
def execFence (kind : FenceKind) (pred succ : BitVec 4) (s : State) : Host.Outcome State Fault Refusal :=
  finish (
    match kind with
    | .i => .ok () s
    | .tso => s.releaseSys
    | .fence =>
      if pred = 0 ∨ succ = 0 then .ok () s
      else if pred.getLsbD 0 ∨ pred.getLsbD 2 then s.releaseSys
      else .ok () (s.flushP s.hart))

/-! ## sfence.vma (R140, R142) -/

/-- Does an entry match: the address in its page (if one is given), the ASID (if one is given; global entries do not
match an ASID), and the partition? -/
def sfenceMatch (part : Nat) (va : Option Word) (asid : Option Nat) (e : TlbEntry) : Bool :=
  e.part == part &&
    (match va with | none => true | some v => v.toNat / 2 ^ e.bits == e.vbase / 2 ^ e.bits) &&
    (match asid with | none => true | some a => match e.asid with | some b => b.toNat == a | none => false)

/-- Does a matrix operation of a cluster hold rows that it translated when it was issued, in an address space that a fence matches (R142)? -/
def State.rowsHeld (s : State) (cluster part : Nat) (asid : Option Nat) : Bool :=
  s.harts.any fun h => hartCluster h == cluster && s.partOf h == part && (s.getSeq h).mat.ops.any fun o =>
    (o.rows != [] || o.brows != []) && match asid with | none => true | some a => o.issuer.satp.toNat / 2 ^ 44 % 2 ^ 16 == a

/-- Removes the entries that a test selects from the TLBs of a cluster and of its cores. -/
def State.tlbDrop (s : State) (cluster : Nat) (sel : TlbEntry → Bool) : State :=
  let k := s.cluster cluster
  let s1 := s.setCluster cluster { k with tlb := k.tlb.filter fun e => !sel e }
  { s1 with cores := s1.cores.map fun p =>
      if clusterOf p.1 = cluster then (p.1, { p.2 with dtlb := p.2.dtlb.filter fun e => !sel e, itlb := p.2.itlb.filter fun e => !sel e }) else p }

/-- Invalidates the matching entries of the hart's cluster, and waits for matrix operations that hold translated rows; copies, streams and samples
translate each part afresh. Cause 2 in U mode, and in S mode under TVM. -/
def execSfenceVma (rs1 rs2 : Reg) (s : State) : Host.Outcome State Fault Refusal :=
  finish (
    if s.seq.mode = .u ∨ (s.seq.mode = .s ∧ s.seq.priv.mstatus.getLsbD 20) then s.illegal
    else
      let c := hartCluster s.hart
      let va := if rs1 = 0 then none else some (s.x rs1)
      let asid := if rs2 = 0 then none else some ((s.x rs2).toNat % 65536)
      let s1 := s.tlbDrop c (sfenceMatch (s.partOf s.hart) va asid)
      if s1.rowsHeld c (s.partOf s.hart) asid then .stall .drain s1 else .ok () s1)

end Sys2Proof.Machine
end

