-- ==== Sys2Proof/Machine/Atomic.lean ====
section
/-! DEFINITION. Updates of words in memory (15): the standard AMOs, LR and SC (R73), scoped AMOs (R237), reductions
(R228 to R232), Bead updates and reckoning (R217 to R222, R234, R235), rods by hand (R238), zero triggers (R239). -/

namespace Sys2Proof.Machine

/-! ## AMOs -/

/-- The value an AMO writes; none where it writes nothing. `c` is the compare value of cas. -/
def amoOp (op : AmoOp) (n old v c : Nat) : Option Nat :=
  match op with
  | .swap | .lr | .sc => some v
  | .add => some ((old + v) % 2 ^ n)
  | .xor => some (old ^^^ v)
  | .and => some (old &&& v)
  | .or => some (old ||| v)
  | .min => some (if sgn n v < sgn n old then v else old)
  | .max => some (if sgn n old < sgn n v then v else old)
  | .minu => some (min old v)
  | .maxu => some (max old v)
  | .cas => if old = c then some v else none

/-- The scoped AMO of a field a (R236). -/
def scopedOp (a : BitVec 4) : Option AmoOp :=
  match a.toNat with
  | 0 => some .swap | 1 => some .add | 2 => some .xor | 3 => some .and | 4 => some .or | 5 => some .min
  | 6 => some .max | 7 => some .minu | 8 => some .maxu | 9 => some .cas | _ => none

/-- amoadd.d on QTAIL of an agent (R127, R264); anything else on a register block is cause 7. -/
def State.qtailAdd (s : State) (a off n : Nat) (op : AmoOp) (v : Nat) (va : Word) : Res Nat :=
  if a % 16 ≠ 15 ∧ off = 0x38 ∧ n = 8 ∧ op = .add then
    let g := s.agent a
    .ok g.qtail (s.setAgent a { g with qtail := (g.qtail + v) % 2 ^ 64 })
  else .trap 7 va s

/-- A read-modify-write at a virtual address: alignment, translation as a store, kind and poison, with nothing changed where they fail (R229); then what
its release and acquire do (`pre`), and one step. -/
def State.amoAt (s : State) (salica : Bool) (op : AmoOp) (n : Nat) (va : Word) (v c : Nat) (pre : State → Res Unit) : Res Nat :=
  if va.toNat % n ≠ 0 then .trap 6 va s
  else
    (s.locate s.via va n .store).bind fun ls s1 =>
      match ls with
      | [l] =>
        let update : Res Nat :=
          match s1.poisonAt s1.via l with
          | some p => .trap 30 (va + BitVec.ofNat 64 (p - l.pa)) s1
          | none =>
            (pre s1).bind fun _ s2 =>
              match s2.atHome s2.via l true with
              | (some p, s3) => .trap 30 (va + BitVec.ofNat 64 (p - l.pa)) s3
              | (none, s3) => let r := s3.rmwDone s3.via l fun old => amoOp op (8 * n) old v c; .ok r.1 r.2
        match l.t with
        | .agent a off => if salica then .trap 7 va s1 else s1.qtailAdd a off n op v va
        | .host | .peer _ | .rounded _ _ | .desc _ => .trap 7 va s1
        | .void => .trap 48 va s1
        | .ring _ => if salica then .trap 7 va s1 else update
        | .hbm | .scratch _ _ => update
      | _ => .trap 7 va s1

/-- LR: an aligned read at the home that sets the reservation (R73, R132). -/
def State.lrAt (s : State) (n : Nat) (va : Word) : Res Nat :=
  if va.toNat % n ≠ 0 then .trap 6 va s
  else
    (s.locate s.via va n .load).bind fun ls s1 =>
      match ls with
      | [l] =>
        match l.t with
        | .hbm | .scratch _ _ | .ring _ =>
          ((s1.homeView s1.via l).readLocs s1.via false [l.homeLoc]).bind fun bs s2 => .ok (leNat bs) (s2.upd fun q => { q with resv := some (resvBase l.pa) })
        | .agent _ _ => .trap (if s1.via.mode = .u then 7 else 5) va s1
        | _ => .trap 5 va s1
      | _ => .trap 5 va s1

/-- SC: writes if the reservation covers the word, and gives the reservation up; answers 0 where it wrote, else 1. -/
def State.scAt (s : State) (n : Nat) (va : Word) (v : Nat) : Res Nat :=
  if va.toNat % n ≠ 0 then .trap 6 va s
  else
    (s.locate s.via va n .store).bind fun ls s1 =>
      match ls with
      | [l] =>
        match l.t with
        | .hbm | .scratch _ _ | .ring _ =>
          let s2 := s1.upd fun q => { q with resv := none }
          if s1.seq.resv = some (resvBase l.pa) then .ok 0 (s2.rmw s2.via l false fun _ => some v).2 else .ok 1 s2
        | .void => .trap 48 va s1
        | _ => .trap 7 va s1
      | _ => .trap 7 va s1

/-- What a release or an acquire at .sys does before its access, and what an acquire does (R136, R197). -/
def State.ordered (s : State) (rl aq : Bool) : Res Unit :=
  if rl then s.releaseSys else .ok () (if aq then s.flushP s.hart else s)

/-- The standard AMOs, LR and SC at .sys scope (R73). -/
def execStandardAmo (op : AmoOp) (dword aq rl : Bool) (rd rs2 rs1 : Reg) (s : State) : Host.Outcome State Fault Refusal :=
  finish (
    let n := if dword then 8 else 4
    let a := s.x rs1
    let v := lowBits (s.x rs2) (8 * n)
    let r : Res Nat := match op with
      | .lr => (s.ordered rl aq).bind fun _ s0 => s0.lrAt n a
      | .sc => (s.ordered rl aq).bind fun _ s0 => s0.scAt n a v
      | .cas => s.illegal
      | op => s.amoAt false op n a v 0 fun s0 => s0.ordered rl aq
    r.bind fun old s1 => .ok () (s1.setX rd (if op = .sc then BitVec.ofNat 64 old else sextBytes n old)))

def execAmoScoped (op : BitVec 4) (dword : Bool) (scope : BitVec 2) (rd rs2 rs1 : Reg) (s : State) : Host.Outcome State Fault Refusal :=
  finish (
    let n := if dword then 8 else 4
    match scopedOp op with
    | none => s.illegal
    | some o =>
      if scope = 3 then s.illegal
      else
        (s.amoAt true o n (s.x rs1) (lowBits (s.x rs2) (8 * n)) (lowBits (s.x rd) (8 * n)) fun s0 =>
          if scope = 2 then s0.ordered true true else s0.releaseNear).bind fun old s1 => .ok () (s1.setX rd (sextBytes n old)))

/-! ## Reductions (R228 to R232) -/

/-- The log entry of an update discarded at a poisoned target. -/
def State.discarded (s : State) (va : Word) (code : Nat) : State :=
  s.logEntry (s.partOf s.hart)
    { type := 8, sev := 2, ovr := false, cls := 0, idx := s.hart, addr := va, qid := s.qidOf s.hart,
      data := leBytes 8 s.hart ++ leBytes 8 va.toNat ++ leBytes 8 code }

/-- An update with a tag at a bank: an xsum32 slot takes the accumulator (R133, R175). -/
def State.bankUpdate (s : State) (l : Loc) (tag v : Nat) : State :=
  if tag = 14 then
    let acc := BitVec.ofNat 320 (leNat (memRead s.mem l.pa 40))
    let fl := BitVec.ofNat 3 (leNat (memRead s.mem (l.pa + 40) 4))
    let r := xsumAdd acc fl v
    (s.putBytes s.via { l with len := 44 } (leBytes 40 r.1.toNat ++ leBytes 4 r.2.toNat)).fireArmed l.pa 48
  else (s.rmw s.via l false fun old => some (tagOp tag old v)).2

/-- The check of alignment that a tag needs at a located word. -/
def tagMisaligned (tag : Nat) (va : Word) (l : Loc) : Bool :=
  match l.t with
  | .scratch _ _ => decide (tag = 14 ∧ va.toNat % 64 ≠ 0)
  | _ => false

/-- A red or bupd on scratch. -/
def State.scratchTag (s : State) (l : Loc) (tag v : Nat) (va : Word) : Res Unit :=
  if tag = 15 then .trap 7 va s
  else if (s.firstPoison l.pa (if tag = 14 then 48 else tagBytes tag)).isSome then .ok () (s.discarded va tag)
  else .ok () (s.bankUpdate l tag v)

/-- A red at home on an HBM line (R228, R233): a word in Bead state under the same tag 1 to 13 is not reckoned. A poisoned word discards it (R229). -/
def State.homeTag (s0 : State) (l : Loc) (tag v : Nat) (va : Word) : State :=
  let s := (s0.homeView s0.via l).bringLines l.pa (tagBytes tag)
  if (s.firstPoison l.pa (tagBytes tag)).isSome then s.discarded va tag
  else if ((aget s.coh.beads l.pa).map (·.tag)) = some tag ∧ tag ≤ 13 ∧ s.beadsIn l.pa (tagBytes tag) = [l.pa] then
    (s.wakeHome l.home).putBytes { s.via with num := 2050 } l (leBytes (tagBytes tag) (tagOp tag (leNat (memRead s.mem l.pa (tagBytes tag))) v))
  else
    match s.atHome s.via l false with
    | (some _, s1) => s1.discarded va tag
    | (none, s1) => (s1.rmwDone s1.via l fun old => some (tagOp tag old v)).2

/-- A red through a peer window (R228, R327): at .sys, tags 1 to 13, sent once every earlier write of the party is acknowledged. -/
def State.peerRed (s : State) (l : Loc) (p tag v : Nat) (sys : Bool) : Res Unit :=
  match s.peerBase s.via.part p with
  | none => .trap 7 l.va s
  | some base =>
    if !sys ∨ 13 < tag then .trap 7 l.va s
    else if 32 ≤ s.redsOut s.via.party then .stall .peer s
    else
      s.releaseSys.bind fun _ s1 =>
        if s1.flowFull s1.via.part p then .stall .peer s1
        else .ok () (s1.peerSend s1.via p true (.peerNotify s1.via.part (s1.peerFlow s1.via.part p) p 2 tag (remote base l.pa) (BitVec.ofNat 64 v)))

def execRed (tag : BitVec 4) (scope : BitVec 2) (rs2 rs1 : Reg) (s : State) : Host.Outcome State Fault Refusal :=
  finish (
    let t := tag.toNat
    let n := tagBytes t
    let a := s.x rs1
    let v := lowBits (s.x rs2) (8 * n)
    if t = 0 ∨ scope = 3 then s.illegal
    else if a.toNat % n ≠ 0 then .trap 6 a s
    else
      (s.locate s.via a n .store).bind fun ls s1 =>
        match ls with
        | [l] =>
          if tagMisaligned t a l then .trap 6 a s1
          else
            let go (f : State → Res Unit) : Res Unit := (if scope = 2 then s1.releaseSys else s1.releaseNear).bind fun _ s2 => f s2
            match l.t with
            | .hbm => go fun s2 => .ok () ((s2.homeTag l t v a).noteWrite s2.via l n)
            | .void => go fun s2 => .ok () (s2.inFlight s2.via a n)
            | .scratch _ _ => if t = 15 then .trap 7 a s1 else go fun s2 => (s2.scratchTag l t v a).bind fun _ s3 => .ok () (s3.noteWrite s3.via l n)
            | .peer p => s1.peerRed l p t v (scope == 2)
            | _ => .trap 7 a s1
        | _ => .trap 7 a s1)

/-! ## Bead updates (R217, R218, R220, R222, R234) -/

/-- Puts a partial in place, ascending core. -/
def putPartial (p : Partial) : List Partial → List Partial
  | [] => [p]
  | q :: qs =>
    if q.core = p.core ∧ q.inc = p.inc then p :: qs
    else if p.core < q.core ∨ (p.core = q.core ∧ p.inc.toNat < q.inc.toNat) then p :: q :: qs
    else q :: putPartial p qs

/-- The lines, ascending, of the Bead words for which a core holds partials in its L1, of a class of tags. -/
def State.beadLines (s : State) (core : Nat) (cls : Nat → Bool) : List Nat :=
  (s.coh.beads.filter fun p => cls p.2.tag && p.2.parts.any fun q => q.core == core && q.parked.isNone).foldl (fun l p => insNat l (p.1 / 128)) []

/-- The entry of a park that found the pool full (R222, R316). -/
def State.poolFullLog (s : State) (core line tag : Nat) : State :=
  let part := s.partOfHbm (128 * line)
  s.logEntry part
    { type := 16, sev := 1, ovr := false, cls := 8, idx := core, addr := BitVec.ofNat 64 (128 * line), qid := noQid,
      data := leBytes 8 core ++ leBytes 8 tag ++ leBytes 8 (2 ^ ((s.part part).map (·.parkLog2)).getD 12) }

/-- Changes the partials of the Bead words of a line. -/
def State.modBeads (s : State) (line : Nat) (f : Bead → Bead) : State :=
  { s with coh := { s.coh with beads := s.coh.beads.map fun p => if p.1 / 128 = line then (p.1, f p.2) else p } }

/-- Gives up a Bead line of a core: tags 1 to 13 are reckoned, 14 and 15 parked, or reckoned when the pool is full. -/
def State.giveUpLine (s : State) (core line : Nat) : State :=
  let words := s.coh.beads.filter fun p => p.1 / 128 == line && p.2.parts.any fun q => q.core == core && q.parked.isNone
  let exact := words.filter fun p => p.2.tag < 14
  let s1 := exact.foldl (fun st p => st.reckonWord p.1 none) s
  let rest := words.filter fun p => 14 ≤ p.2.tag
  if rest = [] then s1
  else
    match s1.poolFree (s.partOfHbm (128 * line)) with
    | some e =>
      s1.modBeads line fun b =>
        if 14 ≤ b.tag then { b with parts := b.parts.map fun q => if q.core = core ∧ q.parked.isNone then { q with parked := some e } else q } else b
    | none =>
      (rest.foldl (fun st p => st.reckonWord p.1 none) s1).poolFullLog core line (((rest.head?).map (·.2.tag)).getD 0)

/-- The least recently updated line among some, by a core's list (oldest first). -/
def oldestOf (lru lines : List Nat) : Option Nat :=
  match lru.find? (fun l => lines.contains l) with
  | some l => some l
  | none => lines.head?

/-- Makes room for a line of a tag in a core (R218): at most 32 Bead lines, 8 of them with side storage. -/
def State.beadRoom (s : State) (core line tag : Nat) : State :=
  let side := s.beadLines core fun t => 14 ≤ t
  let s1 :=
    if 14 ≤ tag ∧ !side.contains line ∧ 8 ≤ side.length then
      match oldestOf (s.core core).lru side with | some l => s.giveUpLine core l | none => s
    else s
  let all := s1.beadLines core fun _ => true
  if !all.contains line ∧ 32 ≤ all.length then
    match oldestOf (s1.core core).lru all with | some l => s1.giveUpLine core l | none => s1
  else s1

/-- A bupd to a word whose partial its core has parked, under its tag, brings every parked partial of the core in the line back into the L1 (R222); from a
poisoned pool entry nothing comes back, and the words' partials are lost. -/
def State.unpark (s : State) (core pa tag : Nat) : State :=
  let inc := (s.core core).inc
  let part := s.partOfHbm pa
  let mine (q : Partial) : Bool := q.core == core && q.inc == inc
  let gone (q : Partial) : Bool := mine q && s.partialLost part q
  if (aget s.coh.beads pa).any fun b => b.tag == tag && b.parts.any fun q => mine q && q.parked.isSome then
    let words := s.coh.beads.filter fun b => b.1 / 128 == pa / 128 && b.2.parts.any gone
    words.foldl (fun st b => st.losePartial b.1 b.2.tag core)
      (s.modBeads (pa / 128) fun b =>
        { b with parts := (b.parts.filter fun q => !gone q).map fun q => if mine q then { q with parked := none } else q })
  else s

/-- An operand accumulated into a partial of a core (R217). -/
def accumulate (tag seq : Nat) (old : Option PVal) (v : Nat) : PVal :=
  match tag, old with
  | 14, some (.xsum x) => let r := xsumAdd x.acc x.flags v; .xsum ⟨r.1, r.2⟩
  | 14, _ => let r := xsumAdd 0 0 v; .xsum ⟨r.1, r.2⟩
  | 15, some (.osum l) =>
    .osum (aput l seq (match aget l seq with | some w => BitVec.ofNat 64 (tagOp 15 w.toNat v) | none => BitVec.ofNat 64 v))
  | 15, _ => .osum [(seq, BitVec.ofNat 64 v)]
  | _, some (.word w) => .word (BitVec.ofNat 64 (tagOp tag w.toNat v))
  | _, _ => .word (BitVec.ofNat 64 v)

/-- Reckons what stands under another tag in the way of a bupd: in its word, and in the line as its core holds it (R218, R220). -/
def State.clearTags (s : State) (pa tag : Nat) : State :=
  let core := coreOf s.hart
  let line := pa / 128
  let n := tagBytes tag
  let s0 := s.bringLines pa n
  let other := (s0.beadsIn pa n).filter fun w => w ≠ pa ∨ ((aget s0.coh.beads w).map (·.tag)) ≠ some tag
  let s1 := other.foldl (fun st w => st.reckonWord w none) s0
  let mine := (s1.coh.beads.filter fun p =>
    p.1 / 128 == line && p.2.tag != tag && p.2.parts.any fun q => q.core == core && q.parked.isNone).map (·.1)
  mine.foldl (fun st w => st.reckonWord w none) s1

/-- Places an operand into the partial of the running core for a word, once other tags are out of the way; it is a write of the word in coherence order
(R205). -/
def State.placeBead (s : State) (l : Loc) (tag v : Nat) : State :=
  let core := coreOf s.hart
  let pa := l.pa
  let line := pa / 128
  let s2 := s.breakResv pa (tagBytes tag) (some s.hart)
  let s3 := (s2.beadRoom core line tag).unpark core pa tag
  let inc := (s3.core core).inc
  let b := (aget s3.coh.beads pa).getD { tag := tag, parts := [], home := l.home }
  let old := b.parts.find? fun q => q.core == core && q.inc == inc
  let owners := (old.map (·.owners)).getD []
  let mine := match s.seq.task with | some t => [(t.launch, l.va)] | none => []
  let b' : Bead :=
    { b with tag := tag, parts := putPartial ⟨core, inc, none, accumulate tag (s.hart % 4) (old.map (·.val)) v, mine ++ owners.filter fun o => !mine.contains o⟩ b.parts }
  let s4 := { s3 with coh := { s3.coh with beads := aput s3.coh.beads pa b' } }
  s4.modCore core fun k => { k with lru := (k.lru.filter (· ≠ line)) ++ [line] }

def execBupd (tag : BitVec 4) (rs2 rs1 : Reg) (s : State) : Host.Outcome State Fault Refusal :=
  finish (
    let t := tag.toNat
    let n := tagBytes t
    let a := s.x rs1
    let v := lowBits (s.x rs2) (8 * n)
    if t = 0 then s.illegal
    else if a.toNat % n ≠ 0 then .trap 6 a s
    else
      (s.locate s.via a n .store).bind fun ls s1 =>
        match ls with
        | [l] =>
          if tagMisaligned t a l then .trap 6 a s1
          else
            match l.t with
            | .scratch _ _ => s1.scratchTag l t v a
            | .hbm =>
              if l.kind = .p ∨ l.kind = .u then .trap 7 a s1
              else if (s1.firstPoison l.pa n).isSome then .ok () (s1.discarded a t)
              else if isSupervisor s.hart then .ok () (s1.homeTag l t v a)
              else
                let s2 := s1.clearTags l.pa t
                .ok () (if (s2.firstPoison l.pa n).isSome then s2.discarded a t else s2.placeBead l t v)
            | .void => .ok () (s1.inFlight s1.via a n)
            | _ => .trap 7 a s1
        | _ => .trap 7 a s1)

/-- breckon reads the whole line, which reckons its Bead words; nothing on P and U lines and scratch (R235). -/
def execBreckon (rs1 : Reg) (s : State) : Host.Outcome State Fault Refusal :=
  finish (
    let a := s.x rs1 &&& ~~~127
    (s.locate s.via a 128 .load).bind fun ls s1 =>
      match ls with
      | [l] => .ok () (if l.t = .hbm ∧ (l.kind = .s ∨ l.kind = .b) then (s1.wakeHome l.home).reckonRange l.pa 128 (some s.hart) else s1)
      | _ => .ok () s1)

/-! ## Rods by hand (R238) -/

/-- The faults of a naturally aligned 8-byte store to an address, and where it lies. -/
def State.rodLoc (s : State) (va : Word) : Res Loc :=
  let a := va &&& ~~~7
  (s.locate s.via a 8 .store).bind fun ls s1 =>
    match ls with
    | [l] =>
      match l.t with
      | .agent g off => if agentStoreOk g off s1.via.mode then .ok l s1 else .trap 7 a s1
      | .desc _ => .trap 7 a s1
      | .void => .trap 48 a s1
      | .peer p => if (s1.peerBase s1.via.part p).isSome then .ok l s1 else .trap 7 a s1
      | _ => .ok l s1
    | _ => .trap 7 a s1

/-- Does a party hold the rod of a region under a lease that runs? -/
def State.holdsRod (s : State) (party : Party) (region : Nat) : Bool :=
  match aget s.coh.rods region with
  | some r => r.holder == some party && r.area.isNone && decide (s.time < r.expiry)
  | none => false

/-- rod.acq: a rod that is held, recalled or not, is renewed only; any other is asked for. -/
def execRodAcq (rd rs1 : Reg) (s : State) : Host.Outcome State Fault Refusal :=
  finish (
    (s.rodLoc (s.x rs1)).bind fun l s1 =>
      if l.t = .hbm ∧ (l.kind = .s ∨ l.kind = .b) then
        let r := if s1.holdsRod s1.via.party (l.pa / 4096) then (s1, true) else s1.askRod s1.via.party (l.pa / 4096) l.rhome
        if r.2 then .ok () ((r.1.renewRod s1.via.party (l.pa / 4096) false).setX rd (BitVec.ofNat 64 (s1.time + s1.lease (l.pa / 4096))))
        else .stall .rodAcq r.1
      else .ok () (s1.setX rd 0))

def execRodRel (rs1 : Reg) (s : State) : Host.Outcome State Fault Refusal :=
  finish (
    (s.rodLoc (s.x rs1)).bind fun l s1 =>
      .ok () (if l.t = .hbm ∧ (l.kind = .s ∨ l.kind = .b) then s1.releaseRod (l.pa / 4096) s1.via.party else s1))

/-! ## Zero triggers (R134, R239) -/

/-- What both zero-trigger instructions do first: translation and access faults of a word of n bytes (as a load; log 17). Answers the word's place if it
lies in the scratch window. -/
def State.bankLoc (s : State) (va : Word) (n : Nat) : Res (Option Loc) :=
  (s.locate s.via va n .load).bind fun ls s1 =>
    match ls.head? with
    | some l =>
      match l.t with
      | .scratch _ _ => .ok (some { l with len := n }) s1
      | .rounded _ _ => if n = 4 then .ok none s1 else .trap 5 l.va s1
      | .agent _ off => if regAligned off n then .ok none s1 else .trap 5 l.va s1
      | .peer p => if (s1.peerBase s1.via.part p).isSome then .ok none s1 else .trap 5 l.va s1
      | _ => .ok none s1
    | none => .ok none s1

def neg (n : Nat) : Word := BitVec.ofInt 64 (-(n : Int))

def execBankArm (rd rs1 rs2 : Reg) (s : State) : Host.Outcome State Fault Refusal :=
  finish (
    let a := s.x rs1
    let o := s.x rs2
    let w := o.getLsbD 8
    let n := if w then 8 else 4
    (s.bankLoc a n).bind fun l? s1 =>
      match l? with
      | none => .ok () (s1.setX rd (neg 3))
      | some l =>
        if getBits o 9 23 ≠ 0 then .ok () (s1.setX rd (neg 3))
        else if a.toNat % n ≠ 0 then .trap 6 a s1
        else
          match s1.firstPoison l.pa n with
          | some p => .trap 30 (a + BitVec.ofNat 64 (p - l.pa)) s1
          | none =>
            let c := (bankOf l.pa).1
            let k := s1.core c
            if k.armed.any fun x => decide (x.pa < l.pa + n ∧ l.pa < x.pa + (if x.wide then 8 else 4)) then .ok () (s1.setX rd (neg 2))
            else if leNat (memRead s1.mem l.pa n) = 0 then .ok () (s1.setX rd 1)
            else if 8 ≤ (k.armed.filter fun x => bankOf x.pa == bankOf l.pa).length then .ok () (s1.setX rd (neg 1))
            else
              let e : Armed := { pa := l.pa, va := a, wide := w, tag := BitVec.ofNat 32 (getBits o 32 32), hidx := getBits o 0 8,
                                 owner := ctxOf s.seq s.hart }
              .ok () ((s1.setCore c { k with armed := k.armed ++ [e] }).setX rd 0))

def execBankDisarm (rd rs1 : Reg) (s : State) : Host.Outcome State Fault Refusal :=
  finish (
    let a := s.x rs1
    (s.bankLoc a 4).bind fun l? s1 =>
      match l? with
      | none => .ok () (s1.setX rd (neg 3))
      | some l =>
        let c := (bankOf l.pa).1
        let k := s1.core c
        let mine (x : Armed) : Bool := x.pa == l.pa && x.owner == ctxOf s.seq s.hart
        if a.toNat % 4 ≠ 0 then .trap 6 a s1
        else if k.armed.any mine then .ok () ((s1.setCore c { k with armed := k.armed.filter fun x => !mine x }).setX rd 0)
        else .ok () (s1.setX rd (neg 1)))

/-! ## Waiting on a word (R244) -/

/-- A wait begins: its time and its parameter block are kept until it ends (R244, R245). -/
def State.arm (s : State) (block : List Byte) : State := s.upd fun q => { q with armed := some (s.time, block) }

/-- The effect of wait.ge and wait.eq: tested at each execution, the time base running from the first. The satisfying read is an acquire at .sys (R136);
a word of a peer window is read again for each test. -/
def waitWord (s : State) (ge : Bool) (rd rs1 rs2 rs3 : Reg) : Res Unit :=
  let a := s.x rs1
  if a.toNat % 8 ≠ 0 then .trap 4 a s
  else
    let s0 := if s.seq.armed.isSome then s else s.arm []
    (s0.loadAt s0.via a 8 false).bind fun bs s1 =>
      let u := leNat bs
      let v := (s.x rs2).toNat
      let limit := (s.x rs3).toNat
      if (if ge then decide (v ≤ u) else decide (u = v)) then .ok () ((s1.flushP s.hart).setX rd (BitVec.ofNat 64 u))
      else if limit ≠ 2 ^ 64 - 1 ∧ limit ≤ s.time - s0.armedAt then .ok () (s1.setX rd (BitVec.ofNat 64 u))
      else .stall .word (s1.upd fun q => { q with peerGot := [] })

def execWaitGe (rd rs1 rs2 rs3 : Reg) (s : State) : Host.Outcome State Fault Refusal := finish (waitWord s true rd rs1 rs2 rs3)
def execWaitEq (rd rs1 rs2 rs3 : Reg) (s : State) : Host.Outcome State Fault Refusal := finish (waitWord s false rd rs1 rs2 rs3)

/-! ## Workgroup barriers (R242, R243) -/

def State.barrier (s : State) (launch wg : Nat) : Barrier :=
  (s.barriers.find? fun b => b.launch == launch && b.wg == wg).getD { launch := launch, wg := wg, gen := 0, arrived := [], results := [] }

def State.setBarrier (s : State) (b : Barrier) : State :=
  { s with barriers := b :: s.barriers.filter fun x => !(x.launch == b.launch && x.wg == b.wg) }

/-- Tasks of a workgroup that have not executed kexit. -/
def State.wgTasks (s : State) (launch wg : Nat) : Nat :=
  match s.launch? launch with
  | some l => (aget l.wgLeft wg).getD 1
  | none => 1

/-- A generation completes: 1 for the last arrival, 0 for the others. -/
def Barrier.complete (b : Barrier) : Barrier :=
  { b with gen := b.gen + 1, arrived := [],
           results := (b.arrived.zipIdx.map fun p => (p.1, if p.2 + 1 = b.arrived.length then 1 else 0)).foldl
             (fun r p => aput r p.1 p.2) b.results }

/-- One execution of bar.wg by a task: arrival, waiting, or leaving a completed generation. -/
def State.barStep (s : State) (t : Task) (rd : Reg) : Res Unit :=
  let b := s.barrier t.launch t.wg
  match s.seq.barGen with
  | some g =>
    if g < b.gen then
      let v := (aget b.results t.lin).getD 0
      .ok () (((s.setBarrier { b with results := adel b.results t.lin }).upd fun q => { q with barGen := none }).setX rd (BitVec.ofNat 64 v))
    else .stall .barrier s
  | none =>
   s.releaseNear.bind fun _ s =>
    let b1 := { b with arrived := b.arrived ++ [t.lin] }
    if s.wgTasks t.launch t.wg ≤ b1.arrived.length then
      let b2 := b1.complete
      .ok () ((s.setBarrier { b2 with results := adel b2.results t.lin }).setX rd 1)
    else .stall .barrier ((s.setBarrier b1).upd fun q => { q with barGen := some b.gen })

def execBarWg (rd : Reg) (s : State) : Host.Outcome State Fault Refusal :=
  finish (match s.seq.task with | none => .ok () (s.setX rd 1) | some t => s.barStep t rd)

/-- A task leaves its workgroup's barrier, by kexit or because it is ended (R242): its own arrival goes with it. -/
def State.depart (s : State) (launch wg lin left : Nat) : State :=
  let b0 := s.barrier launch wg
  let b := { b0 with arrived := b0.arrived.filter (· ≠ lin), results := adel b0.results lin }
  if left = 0 then { s with barriers := s.barriers.filter fun x => !(x.launch == launch && x.wg == wg) }
  else if b.arrived ≠ [] ∧ left ≤ b.arrived.length then s.setBarrier b.complete
  else if b = b0 then s
  else s.setBarrier b

end Sys2Proof.Machine
end

