-- ==== Sys2Proof/Machine/Engine.lean ====
section
/-! DEFINITION. What the engines of a sequencer share: timelines (R161), tokens (R155), failures (R154, R315), reads that go on
at poison, the matrix report (R190), and tlwait and tlread (R160 to R162). -/

namespace Sys2Proof.Machine

/-! ## Timelines -/

/-- COUNT after the completed numbers that follow it, and the numbers that remain above. -/
def popLate (c : Nat) : List Nat → Nat × List Nat
  | [] => (c, [])
  | x :: xs => if x ≤ c + 1 then popLate (max c x) xs else (c, x :: xs)

/-- Operation n of a timeline completes. -/
def tlComplete (count : Nat) (late : List Nat) (n : Nat) : Nat × List Nat := popLate count (insNat late n)

/-! ## Tokens and failures -/

/-- A token register becomes pending. -/
def Seq.pendTok (q : Seq) (r : Reg) (n : Nat) : Seq := if r = 0 then q else { q with pend := q.pend ++ [(r, n)] }

/-- A token is written: bit 63 marks a failure. -/
def Seq.setTok (q : Seq) (r : Reg) (n : Nat) (fail : Bool) : Seq :=
  if r = 0 then q
  else { q.wx r (BitVec.ofNat 64 (n % 2 ^ 63 + (if fail then 2 ^ 63 else 0))) with pend := q.pend.filter fun p => p.1 != r }

/-- Notes a failed operation that nothing has observed yet (R315). -/
def Seq.noteFail (q : Seq) (f : EngFail) : Seq := { q with fails := q.fails ++ [f] }

/-- How a copy operation failed: cause, address, chain entry. -/
structure CopyFail where
  cause : Nat
  va    : Word
  entry : Nat
deriving DecidableEq, Repr

/-- Copy operation n completes, with its token unless a matrix command carries it. -/
def Seq.copyEnd (q : Seq) (n : Nat) (tok : Reg) (writes : Bool) (fail : Option CopyFail) : Seq :=
  let r := tlComplete q.copy.count q.copy.late n
  let c : CopyCtx :=
    { q.copy with count := r.1, late := r.2, ops := q.copy.ops.filter (·.n ≠ n), chains := q.copy.chains.filter (·.n ≠ n) }
  match fail with
  | none => let q1 : Seq := { q with copy := c }; if writes then q1.setTok tok n false else q1
  | some f =>
    let q1 : Seq := { q with copy := { c with failN := n, failVa := f.va, failCause := f.cause, failEntry := f.entry } }
    let q2 := q1.noteFail ⟨0, n, tok, f.cause, f.va⟩
    if writes then q2.setTok tok n true else q2

/-! ## Reads of an engine -/

/-- The bytes at a location, and whether a poisoned sector lies under them. The home reckons Bead words and records the
reader (R153, R181). -/
def State.rawRead (s : State) (via : Via) (l : Loc) : Res (List Byte × Bool) :=
  match l.t with
  | .hbm | .scratch _ _ | .ring _ =>
    let s0 := if l.t = .hbm then s.wakeHome l.home else s
    let s1 := if l.needsRod then (s0.reckonRange l.pa l.len via.hart).modLines l.pa l.len fun m d => if 2049 ≤ via.num then d else d.add via.num l.home m else s0
    let bad := if l.t = .hbm ∧ l.kind = .p ∧ via.num < 1024 then (s1.pPoison via.num l.pa l.len).isSome else s1.poisoned l.pa l.len
    .ok (s1.getBytes via l, bad) s1
  | _ => (s.readLoc via l false).bind fun b s1 => .ok (b, false) s1

def State.rawReads (s : State) (via : Via) : List Loc → Res (List Byte × Bool)
  | [] => .ok ([], false) s
  | l :: ls =>
    (s.rawRead via l).bind fun a s1 => (s1.rawReads via ls).bind fun b s2 => .ok (a.1 ++ b.1, a.2 || b.2) s2

/-! ## Writes of an engine -/

/-- Bytes that a party wrote to P lines go home at once (R155). -/
def State.homeLocs (s : State) (via : Via) (ls : List Loc) : State :=
  if ls.any fun l => l.t == .hbm && l.kind == .p then
    s.pFlush via.num fun a => ls.any fun l => decide (l.pa / 32 ≤ a / 32 ∧ a / 32 ≤ (l.pa + l.len - 1) / 32)
  else s

/-- A write of an engine to located bytes, performed at .dev. -/
def State.engStore (s : State) (via : Via) (ls : List Loc) (bytes : List Byte) : Res Unit :=
  (s.storeLocs via ls bytes).bind fun _ s1 => .ok () (s1.homeLocs via ls)

/-- The same at a virtual address. -/
def State.engWrite (s : State) (via : Via) (va : Word) (bytes : List Byte) : Res Unit :=
  (s.locate via va bytes.length .store).bind fun ls s1 => s1.engStore via ls bytes

/-! ## The matrix report (R190) -/

def reportKind (w : Word) : Nat := getBits w 60 4

/-- Severity of a report in the error log, by KIND. -/
def reportSev (kind : Nat) : Nat := match kind with | 2 | 3 => 0 | 5 | 7 => 1 | _ => 2

/-- A report replaces the one that stands, with OVR if that was not read, and is logged (TYPE 6). -/
def State.matReport (s : State) (h kind acc group src elem n : Nat) : State :=
  let q := s.getSeq h
  let ovr := reportKind q.mat.report != 0
  let w := BitVec.ofNat 64 (kind * 2 ^ 60 + b2n ovr * 2 ^ 59 + acc * 2 ^ 50 + group * 2 ^ 49 + src * 2 ^ 48 + elem % 2 ^ 12 * 2 ^ 36 + n % 2 ^ 36)
  (s.setSeq h { q with mat := { q.mat with report := w } }).logEntry (s.partOf h)
    { type := 6, sev := reportSev kind, ovr := false, cls := 2, idx := coreOf h, addr := 0, qid := s.qidOf h, data := leBytes 8 w.toNat }

/-! ## tlwait and tlread -/

/-- COUNT and ISS of the copy, matrix or stream context. -/
def Seq.tlCount (q : Seq) (sel : Nat) : Nat := match sel with | 0 => q.copy.count | 1 => q.mat.count | _ => q.strm.count
def Seq.tlIss (q : Seq) (sel : Nat) : Nat := match sel with | 0 => q.copy.iss | 1 => q.mat.iss | _ => q.strm.iss

/-- A deferred matrix error is taken as a trap, and is pending no more (R192). -/
def State.takePend (s : State) (c n : Nat) {α : Type} : Res α :=
  .trap c (BitVec.ofNat 64 n) (s.upd fun q => { q with mat := { q.mat with pend := none } })

def execTlwait (rd rs1 : Reg) (sel : BitVec 5) (s : State) : Host.Outcome State Fault Refusal :=
  finish (
    let k := sel.toNat
    let m := min (s.x rs1).toNat (s.seq.tlIss k)
    if 2 < k ∨ !s.onCore then s.illegal
    else if s.seq.tlCount k < m then .stall .timeline s
    else
      match (if k = 1 then s.seq.mat.pend else none) with
      | some (c, n) => if n ≤ m then s.takePend c n else .ok () (s.setX rd (BitVec.ofNat 64 (s.seq.tlCount k)))
      | none => .ok () (s.setX rd (BitVec.ofNat 64 (s.seq.tlCount k))))

/-- STATE as a number. -/
def StreamSt.code : StreamSt → Nat | .idle => 0 | .running => 1 | .faulted => 2 | .ended => 3

/-- The status word of a stream. -/
def Stream.status (t : Stream) : Word := BitVec.ofNat 64 (t.next % 2 ^ 40 * 2 ^ 24 + t.fcause % 256 * 2 ^ 16 + t.state.code)

def Seq.stream (q : Seq) (i : Nat) : Stream := q.strm.streams.toArray.getD i Stream.reset

/-- What tlread reads; none is a selector of no meaning. -/
def Seq.tlValue (q : Seq) (sel : Nat) : Option Word :=
  if sel < 3 then some (BitVec.ofNat 64 (q.tlCount sel))
  else if sel < 6 then some (BitVec.ofNat 64 (q.tlIss (sel - 3)))
  else if sel = 6 then some (BitVec.ofNat 64 q.copy.failN)
  else if sel = 7 then some q.copy.failVa
  else if sel = 8 then some (BitVec.ofNat 64 q.copy.failCause)
  else if sel = 9 then some (BitVec.ofNat 64 q.copy.failEntry)
  else if 12 ≤ sel ∧ sel ≤ 15 then some (q.stream (sel - 12)).status
  else if 16 ≤ sel ∧ sel ≤ 19 then some (BitVec.ofNat 64 ((q.stream (sel - 16)).marker.getD 0))
  else none

/-- The failures that a tlread has shown the task: the copy fault record's, or that of a stream whose status shows it faulted (R315). -/
def Seq.tlSeen (q : Seq) (sel : Nat) : Seq :=
  if sel = 6 then { q with fails := q.fails.filter fun f => !(f.eng == 0 && f.n == q.copy.failN) }
  else if 12 ≤ sel ∧ sel ≤ 15 ∧ (q.stream (sel - 12)).state = .faulted then { q with fails := q.fails.filter fun f => !(f.eng == 2 && f.n == (q.stream (sel - 12)).op) }
  else q

def execTlread (rd : Reg) (sel : BitVec 5) (s : State) : Host.Outcome State Fault Refusal :=
  finish (
    match (if s.onCore then s.seq.tlValue sel.toNat else none) with
    | none => s.illegal
    | some v => .ok () ((s.upd fun q => q.tlSeen sel.toNat).setX rd v))

end Sys2Proof.Machine
end

