-- ==== Sys2Proof/Machine/Matrix.lean ====
section
/-! DEFINITION. The matrix engine (R178 to R192): operand rows and their translation pass, the arithmetic of cells, issue and
performance of operations, mcfg and merr. -/

namespace Sys2Proof.Machine

/-! ## Accumulators (R179) -/

/-- Row m of accumulator a of a core. -/
def Core.accRow (k : Core) (a m : Nat) : BitVec 2048 := (k.accs.toArray.getD a (Vector.replicate 64 0)).toArray.getD m 0
def Core.setAccRow (k : Core) (a m : Nat) (v : BitVec 2048) : Core :=
  { k with accs := k.accs.setIfInBounds a ((k.accs.toArray.getD a (Vector.replicate 64 0)).setIfInBounds m v) }

/-- A row of n-bit elements. -/
def packRow (n : Nat) (l : List Nat) : BitVec 2048 := BitVec.ofNat 2048 (l.foldr (fun v r => v % 2 ^ n + 2 ^ n * r) 0)
/-- Element j of a row of n-bit elements. -/
def rowElem (n : Nat) (v : BitVec 2048) (j : Nat) : Nat := v.toNat / 2 ^ (n * j) % 2 ^ n

/-! ## Operand formats and shapes (R184) -/

inductive ElemFmt where
  | e2 | e4 | e5 | i8 | bf | hf | df
deriving DecidableEq, Repr

def fmtsOf : MmaFmt → ElemFmt × ElemFmt
  | .e4e4 => (.e4, .e4) | .e4e5 => (.e4, .e5) | .e5e4 => (.e5, .e4) | .e5e5 => (.e5, .e5) | .e2e2 => (.e2, .e2)
  | .e2e4 => (.e2, .e4) | .e4e2 => (.e4, .e2) | .i8i8 => (.i8, .i8) | .bfbf => (.bf, .bf) | .hfhf => (.hf, .hf) | .dfdf => (.df, .df)

/-- M, K, N. -/
def shapeOf (f : MmaFmt) : Nat × Nat × Nat := if f = .dfdf then (32, 8, 32) else (64, 32, 64)

def ElemFmt.bits : ElemFmt → Nat | .e2 => 4 | .e4 | .e5 | .i8 => 8 | .bf | .hf => 16 | .df => 64
/-- The alignment of an element in bytes. -/
def ElemFmt.align (e : ElemFmt) : Nat := max 1 (e.bits / 8)

/-- Element i of packed bytes (R168); x is the extra value of an E2M1 operand. -/
def ElemFmt.get (e : ElemFmt) (row : List Byte) (i x : Nat) : FVal :=
  let b (n : Nat) : Nat := leNat ((row.drop (n * i)).take n)
  match e with
  | .e2 => e2WithX ((row.getD (i / 2) 0).toNat / 2 ^ (4 * (i % 2)) % 16) x
  | .e4 => e4m3Unpack (b 1)
  | .e5 => e5m2Unpack (b 1)
  | .i8 => let v := b 1; if v < 128 then .fin false v 0 else .fin true (256 - v) 0
  | .bf => fmtB16.unpack (b 2)
  | .hf => fmt16.unpack (b 2)
  | .df => fmt64.unpack (b 8)

/-! ## Cells (R186) -/

/-- RoundTo(FP32, value, RNE) as a datum. -/
def r32 (v : FVal) : FVal := fmt32.unpack (fmt32.pack .rne v).1

/-- The exact sum of data. -/
def sumExact : List FVal → FVal
  | [] => .fin false 0 0
  | v :: vs => vs.foldl (fun a b => (fAdd .rne a b).v) v

/-- An exact sum of integers has no negative zero. -/
def FVal.posZero : FVal → FVal
  | .fin s 0 e => .fin (s && false) 0 e
  | v => v

/-- p of the FP8, E2M1 and INT8 pairs. -/
def dotScaled (int : Bool) (sA sB : Nat) (a b : List FVal) : FVal :=
  if sA = 255 ∨ sB = 255 then .nan false
  else
    let p := sumExact (List.zipWith (fun x y => (fMul x y).v) a b)
    r32 ((if int then p.posZero else p).scale (((sA : Int) - 127) + ((sB : Int) - 127)))

/-- One level of the pairwise tree. -/
def treeLevel : List FVal → List FVal
  | x :: y :: rest => r32 (fAdd .rne x y).v :: treeLevel rest
  | l => l

/-- t[0] of the BF16 and FP16 forms. -/
def dotTree (a b : List FVal) : FVal :=
  let t := List.zipWith (fun x y => r32 (fMul x y).v) a b
  (treeLevel (treeLevel (treeLevel (treeLevel (treeLevel t))))).headD (.fin false 0 0)

/-- The fused chain of the FP64 form. -/
def dotFused (a b : List FVal) (c : Nat) : Nat :=
  (List.zip a b).foldl (fun c p => (fmt64.finish .rne (fMulAdd .rne p.1 p.2 (fmt64.unpack c))).1) c

/-- The new code of a cell from its old code, its A row and its B column. -/
def cell (f : MmaFmt) (w : BitVec 32) (a b : List FVal) (old : Nat) : Nat :=
  match f with
  | .dfdf => dotFused a b old
  | .bfbf | .hfhf => (fmt32.finish .rne (fAdd .rne (fmt32.unpack old) (dotTree a b))).1
  | _ => (fmt32.finish .rne (fAdd .rne (fmt32.unpack old) (dotScaled (f == .i8i8) (w.toNat % 256) (w.toNat / 2 ^ 8 % 256) a b))).1

/-- The columns of a B tile. -/
def columns (f : MmaFmt) (w : BitVec 32) (b : List (List Byte)) : List (List FVal) :=
  let n := (shapeOf f).2.2
  (List.range n).map fun j => b.map fun row => (fmtsOf f).2.get row j (w.toNat / 2 ^ 24)

/-- Width of a cell: FP64 for dfdf (R179). -/
def cellBits (f : MmaFmt) : Nat := if f = .dfdf then 64 else 32

/-- A row of an accumulator after an mma row. -/
def mmaRow (f : MmaFmt) (w : BitVec 32) (cols : List (List FVal)) (a : List Byte) (old : BitVec 2048) : BitVec 2048 :=
  let av := (List.range (shapeOf f).2.1).map fun k => (fmtsOf f).1.get a k (w.toNat / 2 ^ 16 % 256)
  packRow (cellBits f) (cols.zipIdx.map fun p => cell f w av p.1 (rowElem (cellBits f) old p.2))

/-- A row of canonical NaNs. -/
def nanRow (f : MmaFmt) : BitVec 2048 :=
  if f = .dfdf then packRow 64 (List.replicate 32 fmt64.nan) else packRow 32 (List.replicate 64 fmt32.nan)

/-! ## The translation pass (R182) -/

/-- What an engine may not reach although a translation exists. -/
def State.loadCheck (s : State) (via : Via) : List Loc → Res Unit
  | [] => .ok () s
  | l :: ls =>
    match l.t with
    | .agent _ _ | .rounded _ _ => .trap 5 l.va s
    | .peer p => if (s.peerBase via.part p).isNone then .trap 5 l.va s else s.loadCheck via ls
    | _ => s.loadCheck via ls

/-- One operand row of n bytes with elements of e bytes. -/
def State.passRow (s : State) (via : Via) (store : Bool) (va : Word) (n e : Nat) : Res (List Loc) :=
  if va.toNat % e ≠ 0 then .trap (if store then 6 else 4) va s
  else
    (s.locate via va n (if store then .store else .load)).bind fun ls s1 =>
      (if store then s1.storeCheck via ls else s1.loadCheck via ls).bind fun _ s2 => .ok ls s2

/-- What a pass finds: all rows, or the rows before the first that faults; or an access of it waits (R318). -/
inductive Pass where
  | all (rows : List (List Loc)) (s : State)
  | fault (cause : Nat) (va : Word) (row : Nat) (rows : List (List Loc)) (s : State)
  | waits (w : Stall) (s : State)

/-- Passes over `count` rows from row m on; `acc` holds the rows passed. -/
def passRows (via : Via) (store : Bool) (addr : Nat → Word) (n e : Nat) : Nat → Nat → List (List Loc) → State → Pass
  | 0, _, acc, s => .all acc s
  | k + 1, m, acc, s =>
    match s.passRow via store (addr m) n e with
    | .ok ls s1 => passRows via store addr n e k (m + 1) (acc ++ [ls]) s1
    | .trap c v s1 => .fault c v m acc s1
    | .stall w s1 => .waits w s1

/-- Bytes of an A row and of a B row (R184). -/
def aBytes (f : MmaFmt) : Nat := (shapeOf f).2.1 * (fmtsOf f).1.bits / 8
def bBytes (f : MmaFmt) : Nat := (shapeOf f).2.2 * (fmtsOf f).2.bits / 8

/-- The pass over B of an mma, then A from row m0: `fault`'s row is none where B faulted. -/
def passB (via : Via) (f : MmaFmt) (b strb : Word) (s : State) : Pass :=
  passRows via false (fun k => b + BitVec.ofNat 64 k * strb) (bBytes f) (fmtsOf f).2.align (shapeOf f).2.1 0 [] s
def passA (via : Via) (f : MmaFmt) (a stra : Word) (m0 : Nat) (s : State) : Pass :=
  passRows via false (fun m => a + BitVec.ofNat 64 m * stra) (aBytes f) (fmtsOf f).1.align ((shapeOf f).1 - m0) m0 [] s

/-- Bytes of an element of mload and mst (R188). -/
def mstBytes : MstFmt → Nat | .f32 | .i32 => 4 | .bf16 | .f16 => 2 | .e4m3 | .e5m2 => 1

/-! ## Reading rows -/

/-- Is each byte of some locations poisoned, as the party finds it (R136)? -/
def State.poisonOf (s : State) (via : Via) (ls : List Loc) : List Bool :=
  ls.flatMap fun l => (List.range l.len).map fun i => (s.poisonAt via { l with pa := l.pa + i, len := 1 }).isSome

/-- The bytes of rows, with the poison of each. -/
def readRows (via : Via) : List (List Loc) → State → Res (List (List Byte × List Bool))
  | [], s => .ok [] s
  | ls :: rest, s =>
    (s.rawReads via ls).bind fun r s1 =>
      let p := if r.2 then s1.poisonOf via ls else []
      (readRows via rest s1).bind fun rs s2 => .ok ((r.1, p) :: rs) s2

/-- A tile's rows, whose reads of one line are one span (R129). -/
def readTile (via : Via) (rows : List (List Loc)) (s : State) : Res (List (List Byte × List Bool)) :=
  (readRows via rows s).bind fun rs s1 => .ok rs (s1.mergeSpans via rows.flatten)

/-- The first poisoned element among rows from row m on, of elements of n bits: row and element. -/
def firstBad (n : Nat) : List (List Byte × List Bool) → Nat → Option (Nat × Nat)
  | [], _ => none
  | r :: rs, m =>
    match r.2.findIdx? (· == true) with
    | some i => some (m, 8 * i / n)
    | none => firstBad n rs (m + 1)

/-! ## Performing an operation -/

/-- How an operation ended: for a poisoned operand the report's SRC and ELEM, and whether the operation failed. -/
structure MatEnd where
  poison : Option (Nat × Nat)
  failed : Bool
deriving DecidableEq, Repr

def MatEnd.good : MatEnd := ⟨none, false⟩

/-- Changes the accumulators of a hart's core, row by row from m0. -/
def Core.putRows (k : Core) (acc : Nat) : Nat → List (BitVec 2048) → Core
  | _, [] => k
  | m, v :: vs => (k.setAccRow acc m v).putRows acc (m + 1) vs

/-- An mma over translated rows: the whole computation, or NaN rows where a sector is poisoned. -/
def State.runMma (s : State) (h : Nat) (f : MmaFmt) (op : MatOp) : Res MatEnd :=
  let via := s.viaEng h op.issuer false
  let c := coreOf h
  (readTile via op.brows s).bind fun bs s1 =>
    (readTile via op.rows s1).bind fun as s2 =>
      let badB := firstBad (fmtsOf f).2.bits bs 0
      let badA := firstBad (fmtsOf f).1.bits as op.m0
      let cols := columns f op.w (bs.map (·.1))
      let k := s2.core c
      let rows := as.zipIdx.map fun p =>
        if badB.isSome ∨ p.1.2.contains true then nanRow f
        else mmaRow f op.w cols p.1.1 (k.accRow op.acc.toNat (op.m0 + p.2))
      let poison := match badB, badA with
        | some (m, i), _ => some (1, 64 * m + i)
        | none, some (m, i) => some (0, 32 * m + i)
        | none, none => none
      .ok ⟨poison, poison.isSome⟩ (s2.setCore c (k.putRows op.acc.toNat op.m0 rows))

def State.runMzero (s : State) (h : Nat) (op : MatOp) : Res MatEnd :=
  .ok .good (s.modCore (coreOf h) fun k =>
    { k.putRows op.acc.toNat 0 (List.replicate 64 0) with marks := k.marks.filter fun x => x.1 != op.acc.toNat })

/-- Poison marks of an accumulator row replaced by those of its cells. -/
def remark (marks : List (Nat × Nat × Nat)) (acc m : Nat) (cells : List Nat) : List (Nat × Nat × Nat) :=
  (marks.filter fun x => !(x.1 == acc && x.2.1 == m)) ++ cells.map fun j => (acc, m, j)

/-- The cells of a row of 32-bit memory words that touch poison. -/
def badCells (p : List Bool) : List Nat := (List.range 64).filter fun j => ((p.drop (4 * j)).take 4).contains true

/-- One row of mload into the accumulators. -/
def Core.loadRow (k : Core) (acc m : Nat) (r : List Byte × List Bool) : Core :=
  let bad := badCells r.2
  let vals := (List.range 64).map fun j => if bad.contains j then fmt32.nan else leNat ((r.1.drop (4 * j)).take 4)
  { k.setAccRow acc m (packRow 32 vals) with marks := remark k.marks acc m bad }

def State.runMload (s : State) (h : Nat) (op : MatOp) : Res MatEnd :=
  (readTile (s.viaEng h op.issuer false) op.rows s).bind fun rs s1 =>
    let poison := (firstBad 32 rs op.m0).map fun p => (0, 64 * p.1 + p.2)
    .ok ⟨poison, false⟩ (s1.modCore (coreOf h) fun k => rs.zipIdx.foldl (fun k p => k.loadRow op.acc.toNat (op.m0 + p.2) p.1) k)

/-- Conv(fmt, cell) of R189 and MXSAT. -/
def mstConv (f : MstFmt) (sc c : Nat) : Nat × BitVec 4 :=
  let v := fmt32.unpack c
  match f with
  | .f32 => (c, 0)
  | .bf16 => ((toBF16 .rne v).1, 0)
  | .f16 => ((fmt16.pack .rne v).1, 0)
  | .i32 => ((fToInt .rne true 32 v).1, 0)
  | .e4m3 => let r := narrowE45 false .rne v sc; (r.1, r.2.2 &&& xsMXSAT)
  | .e5m2 => let r := narrowE45 true .rne v sc; (r.1, r.2.2 &&& xsMXSAT)

/-- The location and offset of byte i of a row. -/
def byteAt : List Loc → Nat → Option Nat
  | [], _ => none
  | l :: ls, i => if i < l.len then some (l.pa + i) else byteAt ls (i - l.len)

/-- Stores rows of an accumulator; a row that waits for its rod leaves the rest to be done again. -/
def State.mstRow (s : State) (h : Nat) (f : MstFmt) (op : MatOp) (ls : List Loc) (m : Nat) : Res Unit :=
  let k := s.core (coreOf h)
  let e := mstBytes f
  let rs := (List.range 64).map fun j => mstConv f (op.w.toNat % 256) (rowElem 32 (k.accRow op.acc.toNat m) j)
  (s.engStore (s.viaEng h op.issuer false) ls (rs.flatMap fun r => leBytes e r.1)).bind fun _ s1 =>
    let marks := (k.marks.filter fun x => x.1 == op.acc.toNat && x.2.1 == m).map (·.2.2)
    let s2 := marks.foldl (fun st j => match byteAt ls (e * j) with | some pa => if st.isCodePage pa then st else st.poisonRange pa e | none => st) s1
    .ok () (if rs.any fun r => r.2 != 0 then s2.setXV h xsMXSAT else s2)

/-- Stores rows from row m on, each once: answers the first row that is not yet stored. -/
def State.mstRows (h : Nat) (f : MstFmt) (op : MatOp) : List (List Loc) → Nat → State → Nat × Res Unit
  | [], m, s => (m, .ok () s)
  | ls :: rest, m, s =>
    match s.mstRow h f op ls m with
    | .ok _ s1 => State.mstRows h f op rest (m + 1) s1
    | r => (m, r)

/-- How far an operation came: to its end, or it waits with the rows below `row` done. -/
inductive MatRun where
  | ended (e : MatEnd) (s : State)
  | waits (row : Nat) (w : Stall) (s : State)
  | faults (cause : Nat) (va : Word) (s : State)

/-- A part that changes no row before its end. -/
def MatRun.of (m0 : Nat) : Res MatEnd → MatRun
  | .ok e s => .ended e s
  | .stall w s => .waits m0 w s
  | .trap c v s => .faults c v s

/-- An mst is over once its writes through peer windows are acknowledged (R181). -/
def State.runMst (s : State) (h : Nat) (f : MstFmt) (op : MatOp) : MatRun :=
  match State.mstRows h f op op.rows op.m0 s with
  | (m, .ok _ s1) => if s1.peerOwes (s1.viaHart h).party then .waits m .peer s1 else .ended .good s1
  | (m, .stall w s1) => .waits m w s1
  | (_, .trap c v s1) => .faults c v s1

/-- Performs an operation whose rows are translated. -/
def State.runMat (s : State) (h : Nat) (op : MatOp) : MatRun :=
  match op.kind with
  | .mma f => .of op.m0 (s.runMma h f op)
  | .mzero => .of op.m0 (s.runMzero h op)
  | .mload => .of op.m0 (s.runMload h op)
  | .mst f => s.runMst h f op

/-- Leaves an error pending, unless one is (R192). -/
def MatCtx.leave (m : MatCtx) (c : Option Nat) (n : Nat) : MatCtx :=
  match m.pend, c with
  | none, some c => { m with pend := some (c, n) }
  | _, _ => m

/-- The report and the deferred error of a poisoned operand, behind an error met in the operation before (R192). -/
def State.matPoison (s : State) (h : Nat) (op : MatOp) (n : Nat) (p : Nat × Nat) : State :=
  (s.matReport h 1 op.acc.toNat 0 p.1 p.2 n).modSeq h fun q => { q with mat := (q.mat.leave op.defer n).leave (some 30) n }

/-- The operation at the head completes, and leaves the error pending that was met in it. -/
def Seq.matEnd (q : Seq) (op : MatOp) (fail : Option (Nat × Word)) : Seq :=
  let q1 : Seq := { q with mat := ({ q.mat with count := op.n, ops := q.mat.ops.drop 1 } : MatCtx).leave op.defer op.n }
  match fail with
  | none => q1.setTok op.tok op.n false
  | some (c, v) => (q1.noteFail ⟨1, op.n, op.tok, c, v⟩).setTok op.tok op.n true

/-- An operation is performed and completes; one that waits for a rod or a peer stays. -/
def State.doMat (s : State) (h : Nat) (op : MatOp) : Host.Outcome State Fault Refusal :=
  let me := (s.viaHart h).party
  match s.runMat h op with
  | .ended r s1 =>
    let s2 := match r.poison with | some p => s1.matPoison h op op.n p | none => s1
    .next ((s2.dropAsks me).modSeq h fun q => q.matEnd op (if r.failed then some (30, BitVec.ofNat 64 op.n) else none))
  | .faults c v s1 => .next ((s1.dropAsks me).modSeq h fun q => q.matEnd op (some (c, v)))
  | .waits m _ s1 =>
    .next (if m = op.m0 then s1 else s1.modSeq h fun q =>
      { q with mat := { q.mat with ops := { op with rows := op.rows.drop (m - op.m0), m0 := m } :: q.mat.ops.drop 1 } })

/-- The array has failed under an operation, in a cell 64 * m + j: the rows that it would have computed become canonical NaN, KIND 6 is reported with the
cell's row group, and cause 29 is left pending (R190, R192). -/
def State.failArray (s : State) (h cell : Nat) (op : MatOp) : State :=
  let s1 := match op.kind with
    | .mma f => s.modCore (coreOf h) fun k => k.putRows op.acc.toNat op.m0 (List.replicate ((shapeOf f).1 - op.m0) (nanRow f))
    | _ => s
  (s1.matReport h 6 op.acc.toNat (cell / 64 % 2) 0 (cell % 4096) op.n).modSeq h fun q => q.matEnd { op with defer := op.defer.or (some 29) } (some (29, 3))

/-- A follow-on command: its own pass ends before any row is computed (R191). -/
def State.doFollow (s : State) (h : Nat) (f : MmaFmt) (op : MatOp) : Host.Outcome State Fault Refusal :=
  let via := s.viaEng h op.issuer false
  let lose (st : State) (c src elem : Nat) (v : Word) : Host.Outcome State Fault Refusal :=
    .next ((st.matReport h 5 op.acc.toNat 0 src elem op.n).modSeq h fun q => q.matEnd op (some (c, v)))
  if (s.core (coreOf h)).fenced = 3 then
    .next (s.failArray h (64 * op.m0) op)
  else
    match passB via f op.b op.strb s with
    | .fault c v m _ s1 => lose s1 c 1 (64 * m) v
    | .waits _ s1 => .next s1
    | .all bs s1 =>
      match passA via f op.a op.stra 0 s1 with
      | .fault c v m _ s2 => lose s2 c 0 (32 * m) v
      | .waits _ s2 => .next s2
      | .all as s2 => s2.doMat h { op with brows := bs, rows := as }

/-- The engine performs the oldest operation of a hart's matrix context (R180). -/
def execMatrixOpComplete (hart : Nat) (s : State) : Host.Outcome State Fault Refusal :=
  match (s.getSeq hart).mat.ops with
  | [] => .next s
  | op :: _ =>
    if op.copyN.isSome then .next s
    else if op.failed then .next (s.modSeq hart fun q => q.matEnd op (some (0, 0)))
    else
      match op.follow, op.kind with
      | true, .mma f => s.doFollow hart f op
      | _, _ => s.doMat hart op

/-! ## Issue -/

/-- Does the running context hold the matrix context? -/
def State.holdsMat (s : State) : Bool := s.onCore && (s.core (coreOf s.hart)).holder == some s.hart

/-- What every matrix operation checks first: the holder, a deferred error, the array, room (R178, R186, R192). -/
def State.matGuard (s : State) (r : Res Unit) : Res Unit :=
  if !s.holdsMat then s.illegal
  else
    match s.seq.mat.pend with
    | some (c, n) => s.takePend c n
    | none =>
      if (s.core (coreOf s.hart)).fenced = 3 then .trap 29 3 s
      else if 4 ≤ s.seq.mat.ops.length then .stall .engine s
      else r

def State.setMprog (s : State) (n : Nat) : State := s.upd fun q => { q with ctl := { q.ctl with mprog := n } }

/-- An operation of the sequencer with its rows, before it has a number. -/
def newMat (issuer : Issuer) (kind : MatKind) (acc : BitVec 2) (m0 : Nat) (w : BitVec 32) (brows : List (List Loc)) : MatOp :=
  { n := 0, kind := kind, acc := acc, m0 := m0, rows := [], brows := brows, w := w, a := 0, b := 0, stra := 0, strb := 0,
    follow := false, copyN := none, failed := false, defer := none, tok := 0, issuer := issuer }

/-- The instruction retires: its operation takes its number. -/
def State.matRetire (s : State) (op : MatOp) (zeroProg : Bool) : Res Unit :=
  let n := s.seq.mat.iss + 1
  let s1 := s.upd fun q => { q with mat := { q.mat with iss := n, ops := q.mat.ops ++ [{ op with n := n }] } }
  .ok () (if zeroProg then s1.setMprog 0 else s1)

/-- A fault in a row at or above m0: the rows before it complete, after every earlier operation, and mprog names it. -/
def State.matFault (s : State) (op : MatOp) (row c : Nat) (v : Word) : Res Unit :=
  if op.rows = [] then .trap c v (s.setMprog row)
  else if s.seq.mat.ops ≠ [] then .stall .drain s
  else
    let n := s.seq.mat.iss + 1
    match s.runMat s.hart op with
    | .ended r s1 =>
      let s2 := match r.poison with | some p => s1.matPoison s.hart op n p | none => s1
      .trap c v ((s2.dropAsks s.via.party).setMprog row)
    | .waits m w s1 => .stall w (s1.setMprog m)
    | .faults c' v' s1 => .trap c' v' s1

/-- What follows the pass over A or over a tile. -/
def State.matPass (op : MatOp) : Pass → Res Unit
  | .all rows s => s.matRetire { op with rows := rows } true
  | .fault c v m rows s => s.matFault { op with rows := rows } m c v
  | .waits w s => .stall w s

/-- An mma of the sequencer (R186). -/
def State.mma (s : State) (f : MmaFmt) (acc : BitVec 2) (rs1 rs2 : Reg) (fs3 : Option Reg) : Res Unit :=
  let w : BitVec 32 := match fs3 with | some r => (s.f r).setWidth 32 | none => 0
  let m0 := s.seq.ctl.mprog
  let i := s.issuer s.hart
  let via := s.viaEng s.hart i false
  if fs3.isSome ∧ !s.fpOn then s.illegal
  else
    s.matGuard (
      match passB via f (s.x rs2) s.seq.ctl.mstrb s with
      | .fault c v _ _ s1 => .trap c v (s1.setMprog m0)
      | .waits w s1 => .stall w s1
      | .all bs s1 => State.matPass (newMat i (.mma f) acc m0 w bs) (passA via f (s.x rs1) s.seq.ctl.mstra m0 s1))

def execMmaE4e4 (acc : BitVec 2) (rs1 rs2 fs3 : Reg) (s : State) : Host.Outcome State Fault Refusal := finish (s.mma .e4e4 acc rs1 rs2 (some fs3))
def execMmaE4e5 (acc : BitVec 2) (rs1 rs2 fs3 : Reg) (s : State) : Host.Outcome State Fault Refusal := finish (s.mma .e4e5 acc rs1 rs2 (some fs3))
def execMmaE5e4 (acc : BitVec 2) (rs1 rs2 fs3 : Reg) (s : State) : Host.Outcome State Fault Refusal := finish (s.mma .e5e4 acc rs1 rs2 (some fs3))
def execMmaE5e5 (acc : BitVec 2) (rs1 rs2 fs3 : Reg) (s : State) : Host.Outcome State Fault Refusal := finish (s.mma .e5e5 acc rs1 rs2 (some fs3))
def execMmaE2e2 (acc : BitVec 2) (rs1 rs2 fs3 : Reg) (s : State) : Host.Outcome State Fault Refusal := finish (s.mma .e2e2 acc rs1 rs2 (some fs3))
def execMmaE2e4 (acc : BitVec 2) (rs1 rs2 fs3 : Reg) (s : State) : Host.Outcome State Fault Refusal := finish (s.mma .e2e4 acc rs1 rs2 (some fs3))
def execMmaE4e2 (acc : BitVec 2) (rs1 rs2 fs3 : Reg) (s : State) : Host.Outcome State Fault Refusal := finish (s.mma .e4e2 acc rs1 rs2 (some fs3))
def execMmaI8i8 (acc : BitVec 2) (rs1 rs2 fs3 : Reg) (s : State) : Host.Outcome State Fault Refusal := finish (s.mma .i8i8 acc rs1 rs2 (some fs3))
def execMmaBfbf (acc : BitVec 2) (rs1 rs2 : Reg) (s : State) : Host.Outcome State Fault Refusal := finish (s.mma .bfbf acc rs1 rs2 none)
def execMmaHfhf (acc : BitVec 2) (rs1 rs2 : Reg) (s : State) : Host.Outcome State Fault Refusal := finish (s.mma .hfhf acc rs1 rs2 none)
def execMmaDfdf (acc : BitVec 2) (rs1 rs2 : Reg) (s : State) : Host.Outcome State Fault Refusal := finish (s.mma .dfdf acc rs1 rs2 none)

def execMzero (acc : BitVec 2) (s : State) : Host.Outcome State Fault Refusal :=
  finish (s.matGuard (s.matRetire (newMat (s.issuer s.hart) .mzero acc 0 0 []) false))

/-- mload and mst: the row-control word, then the pass over rows mprog to LAST (R189). -/
def State.tile (s : State) (kind : MatKind) (store : Bool) (e : Nat) (acc : BitVec 2) (rs1 rs2 : Reg) (w : BitVec 32) : Res Unit :=
  let c := s.x rs2
  let m0 := s.seq.ctl.mprog
  let str := (c.setWidth 48).signExtend 64
  if getBits c 48 10 ≠ 0 then s.illegal
  else
    s.matGuard (State.matPass (newMat (s.issuer s.hart) kind acc m0 w [])
      (passRows (s.viaEng s.hart (s.issuer s.hart) false) store (fun m => s.x rs1 + BitVec.ofNat 64 m * str) (64 * e) e (getBits c 58 6 + 1 - m0) m0 [] s))

def execMload (acc : BitVec 2) (rs1 rs2 : Reg) (s : State) : Host.Outcome State Fault Refusal := finish (s.tile .mload false 4 acc rs1 rs2 0)

/-- An mst without a scale. -/
def State.mst (s : State) (f : MstFmt) (acc : BitVec 2) (rs1 rs2 : Reg) : Res Unit := s.tile (.mst f) true (mstBytes f) acc rs1 rs2 0

def execMstF32 (acc : BitVec 2) (rs1 rs2 : Reg) (s : State) : Host.Outcome State Fault Refusal := finish (s.mst .f32 acc rs1 rs2)
def execMstBf16 (acc : BitVec 2) (rs1 rs2 : Reg) (s : State) : Host.Outcome State Fault Refusal := finish (s.mst .bf16 acc rs1 rs2)
def execMstF16 (acc : BitVec 2) (rs1 rs2 : Reg) (s : State) : Host.Outcome State Fault Refusal := finish (s.mst .f16 acc rs1 rs2)
def execMstI32 (acc : BitVec 2) (rs1 rs2 : Reg) (s : State) : Host.Outcome State Fault Refusal := finish (s.mst .i32 acc rs1 rs2)

/-- An mst with its output scale in f[fs3]. -/
def State.mstScaled (s : State) (f : MstFmt) (acc : BitVec 2) (rs1 rs2 fs3 : Reg) : Res Unit :=
  if !s.fpOn then s.illegal else s.tile (.mst f) true 1 acc rs1 rs2 ((s.f fs3).setWidth 32)

def execMstE4m3 (acc : BitVec 2) (rs1 rs2 fs3 : Reg) (s : State) : Host.Outcome State Fault Refusal := finish (s.mstScaled .e4m3 acc rs1 rs2 fs3)
def execMstE5m2 (acc : BitVec 2) (rs1 rs2 fs3 : Reg) (s : State) : Host.Outcome State Fault Refusal := finish (s.mstScaled .e5m2 acc rs1 rs2 fs3)

/-! ## mcfg and merr -/

/-- A claim: the context takes the matrix context with every cell 0. -/
def State.claim (s : State) : State :=
  s.modCore (coreOf s.hart) fun k =>
    { k with holder := some s.hart, accs := Vector.replicate 4 (Vector.replicate 64 0), marks := [] }

def execMcfg (rd rs1 : Reg) (s : State) : Host.Outcome State Fault Refusal :=
  finish (
    let c := s.x rs1
    let holder := (s.core (coreOf s.hart)).holder
    let minus (n : Nat) : Word := BitVec.ofInt 64 (-(n : Int))
    if !s.onCore then s.illegal
    else
      match c.toNat with
      | 0 => .ok () (s.setX rd (match holder with | some h => BitVec.ofNat 64 h | none => minus 1))
      | 1 =>
        if holder = some s.hart then .ok () (s.setX rd 1)
        else if holder.isSome then .ok () (s.setX rd (minus 1))
        else .ok () (s.claim.setX rd 0)
      | 2 =>
        if holder ≠ some s.hart then .ok () (s.setX rd (minus 2))
        else
          match s.seq.mat.pend with
          | some (p, n) => s.takePend p n
          | none =>
            if s.seq.mat.ops ≠ [] then .stall .drain s
            else .ok () ((s.modCore (coreOf s.hart) fun k => { k with holder := none }).setX rd 0)
      | _ => .ok () (s.setX rd (minus 3)))

/-- A report read by the task observes the failure it names (R315). -/
def Seq.seeReport (q : Seq) : Seq :=
  if reportKind q.mat.report = 0 then q
  else { q with fails := q.fails.filter fun f => !(f.eng == 1 && f.n % 2 ^ 36 == getBits q.mat.report 0 36), mat := { q.mat with report := 0 } }

def execMerr (rd : Reg) (sel : BitVec 5) (s : State) : Host.Outcome State Fault Refusal :=
  finish (
    if 1 < sel.toNat ∨ !s.onCore then s.illegal
    else if sel = 1 then .ok () (s.setX rd ((s.core (coreOf s.hart)).fenced.setWidth 64))
    else if s.holdsMat then .ok () ((s.upd Seq.seeReport).setX rd s.seq.mat.report)
    else .ok () (s.setX rd 0))

end Sys2Proof.Machine
end

