-- ==== Sys2Proof/Machine/Integer.lean ====
section
/-! DEFINITION. The standard integer instructions, jumps and branches (R73: RV64I, M, Zba, Zbb, Zbs, Zicond; R66, R69
for links and indirect jumps) and the scheduling hints (R88). -/

namespace Sys2Proof.Machine

/-! ## Arithmetic -/

def sext32 (v : BitVec 32) : Word := v.signExtend 64
def lo32 (a : Word) : BitVec 32 := a.setWidth 32
def zext32 (a : Word) : Word := (a.setWidth 32).setWidth 64
def ofBool (b : Bool) : Word := if b then 1 else 0

/-- Leading zeros of an n-bit number. -/
def clzN (n v : Nat) : Nat := n - blen v
/-- Trailing zeros of an n-bit number. -/
def ctzN (n v : Nat) : Nat := if v = 0 then n else (v &&& (2 ^ n - v)).log2
/-- Bits set among the low n. -/
def popN (v : Nat) : Nat → Nat
  | 0 => 0
  | n + 1 => popN v n + v / 2 ^ n % 2
/-- The bytes of a word in reverse order. -/
def rev8 (a : Word) : Word := BitVec.ofNat 64 (leNat (leBytes 8 a.toNat).reverse)
/-- Each byte all ones where it is not 0. -/
def orcB (a : Word) : Word :=
  BitVec.ofNat 64 (leNat ((leBytes 8 a.toNat).map fun b => if b = 0 then (0 : Byte) else 0xFF))

/-- Signed and unsigned division with the ratified corners. -/
def divS {n : Nat} (a b : BitVec n) : BitVec n := if b = 0 then BitVec.allOnes n else a.sdiv b
def divU {n : Nat} (a b : BitVec n) : BitVec n := if b = 0 then BitVec.allOnes n else a.udiv b
def remS {n : Nat} (a b : BitVec n) : BitVec n := if b = 0 then a else a.srem b
def remU {n : Nat} (a b : BitVec n) : BitVec n := if b = 0 then a else a.umod b

def shAmt (b : Word) : Nat := b.toNat % 64
def shAmt32 (b : Word) : Nat := b.toNat % 32

/-- A register-register operation. -/
def evalAlu (op : AluOp) (a b : Word) : Word :=
  match op with
  | .add => a + b
  | .sub => a - b
  | .sll => a <<< shAmt b
  | .slt => ofBool (a.slt b)
  | .sltu => ofBool (a.ult b)
  | .xor => a ^^^ b
  | .srl => a >>> shAmt b
  | .sra => a.sshiftRight (shAmt b)
  | .or => a ||| b
  | .and => a &&& b
  | .addw => sext32 (lo32 a + lo32 b)
  | .subw => sext32 (lo32 a - lo32 b)
  | .sllw => sext32 (lo32 a <<< shAmt32 b)
  | .srlw => sext32 (lo32 a >>> shAmt32 b)
  | .sraw => sext32 ((lo32 a).sshiftRight (shAmt32 b))
  | .mul => a * b
  | .mulh => (a.signExtend 128 * b.signExtend 128).extractLsb' 64 64
  | .mulhsu => (a.signExtend 128 * b.setWidth 128).extractLsb' 64 64
  | .mulhu => (a.setWidth 128 * b.setWidth 128).extractLsb' 64 64
  | .div => divS a b
  | .divu => divU a b
  | .rem => remS a b
  | .remu => remU a b
  | .mulw => sext32 (lo32 a * lo32 b)
  | .divw => sext32 (divS (lo32 a) (lo32 b))
  | .divuw => sext32 (divU (lo32 a) (lo32 b))
  | .remw => sext32 (remS (lo32 a) (lo32 b))
  | .remuw => sext32 (remU (lo32 a) (lo32 b))
  | .addUw => zext32 a + b
  | .sh1add => (a <<< 1) + b
  | .sh1addUw => (zext32 a <<< 1) + b
  | .sh2add => (a <<< 2) + b
  | .sh2addUw => (zext32 a <<< 2) + b
  | .sh3add => (a <<< 3) + b
  | .sh3addUw => (zext32 a <<< 3) + b
  | .czeroEqz => if b = 0 then 0 else a
  | .czeroNez => if b = 0 then a else 0
  | .bclr => a &&& ~~~((1 : Word) <<< shAmt b)
  | .bext => (a >>> shAmt b) &&& 1
  | .binv => a ^^^ ((1 : Word) <<< shAmt b)
  | .bset => a ||| ((1 : Word) <<< shAmt b)
  | .andn => a &&& ~~~b
  | .orn => a ||| ~~~b
  | .xnor => ~~~(a ^^^ b)
  | .max => if a.slt b then b else a
  | .maxu => if a.ult b then b else a
  | .min => if a.slt b then a else b
  | .minu => if a.ult b then a else b
  | .rol => a.rotateLeft (shAmt b)
  | .rolw => sext32 ((lo32 a).rotateLeft (shAmt32 b))
  | .ror => a.rotateRight (shAmt b)
  | .rorw => sext32 ((lo32 a).rotateRight (shAmt32 b))

/-- A register-immediate or one-source operation; shift amounts are the immediate's low bits. -/
def evalAluImm (op : AluImmOp) (a : Word) (imm : BitVec 12) : Word :=
  let i := imm.signExtend 64
  match op with
  | .addi => a + i
  | .slti => ofBool (a.slt i)
  | .sltiu => ofBool (a.ult i)
  | .xori => a ^^^ i
  | .ori => a ||| i
  | .andi => a &&& i
  | .slli => a <<< shAmt i
  | .srli => a >>> shAmt i
  | .srai => a.sshiftRight (shAmt i)
  | .addiw => sext32 (lo32 a + lo32 i)
  | .slliw => sext32 (lo32 a <<< shAmt32 i)
  | .srliw => sext32 (lo32 a >>> shAmt32 i)
  | .sraiw => sext32 ((lo32 a).sshiftRight (shAmt32 i))
  | .slliUw => zext32 a <<< shAmt i
  | .bclri => evalAlu .bclr a i
  | .bexti => evalAlu .bext a i
  | .binvi => evalAlu .binv a i
  | .bseti => evalAlu .bset a i
  | .rori => a.rotateRight (shAmt i)
  | .roriw => sext32 ((lo32 a).rotateRight (shAmt32 i))
  | .clz => BitVec.ofNat 64 (clzN 64 a.toNat)
  | .clzw => BitVec.ofNat 64 (clzN 32 (lo32 a).toNat)
  | .ctz => BitVec.ofNat 64 (ctzN 64 a.toNat)
  | .ctzw => BitVec.ofNat 64 (ctzN 32 (lo32 a).toNat)
  | .cpop => BitVec.ofNat 64 (popN a.toNat 64)
  | .cpopw => BitVec.ofNat 64 (popN a.toNat 32)
  | .sextB => (a.setWidth 8).signExtend 64
  | .sextH => (a.setWidth 16).signExtend 64
  | .zextH => (a.setWidth 16).setWidth 64
  | .orcB => orcB a
  | .rev8 => rev8 a

/-- Does a branch take its target? -/
def evalBranch (op : BranchOp) (a b : Word) : Bool :=
  match op with
  | .beq => a == b
  | .bne => a != b
  | .blt => a.slt b
  | .bge => !a.slt b
  | .bltu => a.ult b
  | .bgeu => !a.ult b

/-! ## Meanings -/

/-- The effect of a register-register operation; also a pair member's. -/
def doAlu (s : State) (op : AluOp) (rd rs1 rs2 : Reg) : Res Unit := .ok () (s.setX rd (evalAlu op (s.x rs1) (s.x rs2)))
def doAluImm (s : State) (op : AluImmOp) (rd rs1 : Reg) (imm : BitVec 12) : Res Unit :=
  .ok () (s.setX rd (evalAluImm op (s.x rs1) imm))
def doLui (s : State) (rd : Reg) (imm : BitVec 20) : Res Unit := .ok () (s.setX rd ((imm ++ (0 : BitVec 12)).signExtend 64))

/-- The visible address after the instruction: what link registers take (R69). -/
def State.linkPc (s : State) : Word := s.seePc s.hart s.nextPc

def execAlu (op : AluOp) (rd rs1 rs2 : Reg) (s : State) : Host.Outcome State Fault Refusal := finish (doAlu s op rd rs1 rs2)
def execAluImm (op : AluImmOp) (rd rs1 : Reg) (imm : BitVec 12) (s : State) : Host.Outcome State Fault Refusal :=
  finish (doAluImm s op rd rs1 imm)
def execLui (rd : Reg) (imm : BitVec 20) (s : State) : Host.Outcome State Fault Refusal := finish (doLui s rd imm)
def execAuipc (rd : Reg) (imm : BitVec 20) (s : State) : Host.Outcome State Fault Refusal :=
  finish (.ok () (s.setX rd (s.seePc s.hart s.seq.pc + (imm ++ (0 : BitVec 12)).signExtend 64)))
def execJal (rd : Reg) (off : Word) (s : State) : Host.Outcome State Fault Refusal :=
  finishAt (.ok (s.seq.pc + off, true) (s.setX rd s.linkPc))

/-- An indirect jump; bit 0 of the target is cleared in native code only (R66). -/
def execJalr (rd rs1 : Reg) (imm : BitVec 12) (s : State) : Host.Outcome State Fault Refusal :=
  let t := s.x rs1 + imm.signExtend 64
  finishAt (.ok (if s.seq.latch.form = .lammel then t else t &&& ~~~1, true) (s.setX rd s.linkPc))

def execBranch (op : BranchOp) (rs1 rs2 : Reg) (off : Word) (s : State) : Host.Outcome State Fault Refusal :=
  if evalBranch op (s.x rs1) (s.x rs2) then finishAt (.ok (s.seq.pc + off, true) s) else finish (.ok () s)

/-- A hint changes no architectural state (R88). -/
def execHintPf (_rs1 : Reg) (_imm : BitVec 12) (s : State) : Host.Outcome State Fault Refusal := finish (.ok () s)
def execHintUnroll (_imm : BitVec 12) (s : State) : Host.Outcome State Fault Refusal := finish (.ok () s)
def execHintAff (_shamt : BitVec 6) (s : State) : Host.Outcome State Fault Refusal := finish (.ok () s)
def execHintPair (_shamt : BitVec 6) (s : State) : Host.Outcome State Fault Refusal := finish (.ok () s)

end Sys2Proof.Machine
end

