-- ==== Sys2Proof/Machine/System.lean ====
section
/-! DEFINITION. Control and status registers (R73, R77 to R79; log 6), system calls, breakpoints, returns from traps,
waits, and the error acknowledgement of R106. -/

namespace Sys2Proof.Machine

/-! ## Fields -/

/-- The writable bits of a CSR that is stored as a word, by number; none where it is stored otherwise. -/
def mstatusMask : Word := 0x7E7FAA
def sstatusMask : Word := 0xC6722
def medelegMask : Word := delegated ||| 0x200
def interruptMask : Word := 0x10AAA
def menvcfgMask : Word := 0x4200000000000001
def misaValue : Word := 0x8000000000000000 ||| 0x34112F

/-- Bits of `mask` from v, the others from old. -/
def mixBits (old v mask : Word) : Word := (old &&& ~~~mask) ||| (v &&& mask)

/-- mstatus as read: SD is set while FS or VS is dirty. -/
def Priv.readStatus (p : Priv) : Word :=
  if getBits p.mstatus 13 2 = 3 ∨ getBits p.mstatus 9 2 = 3 then p.mstatus ||| 0x8000000000000000 else p.mstatus

/-- A write of mstatus; MPP keeps its value when 2 is written. -/
def Priv.writeStatus (p : Priv) (v mask : Word) : Priv :=
  let m := if getBits v 11 2 = 2 then mask &&& ~~~0x1800 else mask
  { p with mstatus := mixBits p.mstatus v m }

/-- mip with the lane-request bit of a supervisor hart (R51). -/
def State.readMip (s : State) : Word :=
  let m := s.seq.priv.mip &&& ~~~0x10000
  if isClusterSup s.hart ∧ (s.cluster (hartCluster s.hart)).lreq ≠ 0 then m ||| 0x10000 else m

/-- The fields of vshare (R78). -/
def Vec.vshare (v : Vec) : Word :=
  BitVec.ofNat 64 (v.hmask.toNat * 2 ^ 24 + v.weight % 256 * 2 ^ 16 + popcount v.hmask * 2 ^ 8 + v.grant)

/-- vlenb (R74 item 1). -/
def Vec.vlenb (v : Vec) : Nat := v.vlen / 8

/-- NREG of vrcfg. -/
def Vec.vrcfg (v : Vec) : Word := v.nreg.setWidth 64

/-- A write of GRANT above 8 stores 8 (R78). -/
def capGrant (n : Nat) : Nat := min 8 n

/-- lgrant (R51, R78): the grant, and where WW is set the weight, of one sequencer of a cluster. -/
def State.lgrant (s : State) (cluster : Nat) (v : Word) : State :=
  s.modSeq (cluster * 64 + getBits v 0 6) fun q =>
    { q with vec := { q.vec with grant := capGrant (getBits v 8 4),
                                 weight := if v.getLsbD 7 then getBits v 16 8 else q.vec.weight } }

/-- One byte of a pmpcfg register: a locked entry keeps its value, and W without R is not stored. -/
def pmpByteWrite (old v : Nat) : Nat :=
  if old / 128 % 2 = 1 then old else if v % 4 = 2 then old else v &&& 0x9F

/-- A pmpcfg register after a write. -/
def pmpCfgWrite (old v : Word) : Word :=
  BitVec.ofNat 64 (leNat (((leBytes 8 old.toNat).zip (leBytes 8 v.toNat)).map fun p => BitVec.ofNat 8 (pmpByteWrite p.1.toNat p.2.toNat)))

/-- Is pmpaddr i locked, by its own entry or by a locked top-of-range entry above it? -/
def Priv.pmpLocked (p : Priv) (i : Nat) : Bool :=
  p.pmpByte i / 128 % 2 == 1 || (i < 63 && p.pmpByte (i + 1) / 128 % 2 == 1 && p.pmpByte (i + 1) / 8 % 4 == 1)

/-! ## Reading -/

/-- The U, S and M counters, and time, as the counter-enable registers open them. -/
def State.counterOk (s : State) (i : Nat) : Bool :=
  match s.seq.mode with
  | .m => true
  | .s => s.seq.priv.mcounteren.getLsbD i
  | .u => s.seq.priv.mcounteren.getLsbD i && s.seq.priv.scounteren.getLsbD i

/-- The Salica CSRs (R77, R78). -/
def State.salicaCsr (s : State) (n : Nat) : Option Word :=
  let q := s.seq
  match n with
  | 0x800 => some q.ctl.msksp
  | 0x801 => some (BitVec.ofNat 64 q.ctl.mprog)
  | 0x802 => some q.ctl.mstra
  | 0x803 => some q.ctl.mstrb
  | 0x804 => some (q.ctl.xsflags.setWidth 64)
  | 0x805 => some (ofBool q.ctl.vstrunc)
  | 0x806 => some q.ctl.htbase
  | 0xCC0 => some q.ctl.wid
  | 0xCC1 => some q.vec.vrcfg
  | 0xCC2 => some q.vec.vshare
  | 0xCC3 => some (BitVec.ofNat 64 (s.capOf (coreOf s.hart)))
  | 0xCC4 => some ((s.core (coreOf s.hart)).dis.setWidth 64)
  | 0xCC5 => some (BitVec.ofNat 64 q.ctl.cgen)
  | 0xCC6 => some (BitVec.ofNat 64 q.copy.count)
  | 0xCC7 => some (BitVec.ofNat 64 q.mat.count)
  | 0xCC8 => some (BitVec.ofNat 64 q.strm.count)
  | 0x5C0 => some q.vec.vshare
  | 0x5C1 => some (q.ctl.itbudget.setWidth 64)
  | 0x5C2 => some (q.ctl.fwdlife.setWidth 64)
  | 0x5C3 => some (BitVec.ofNat 64 (b2n q.ctl.dbgEn * 2 ^ 63 + q.ctl.dbgHead.toNat))
  | 0x5C4 => if isClusterSup s.hart then some (s.cluster (hartCluster s.hart)).lreq else none
  | 0x5C5 => if isClusterSup s.hart then some 0 else none
  | 0xDC0 => some (BitVec.ofNat 64 (Config.ringBase + 2048 * s.hart))
  | 0xFC0 => some (BitVec.ofNat 64 (b2n s.dev.minimal * 2 ^ 16 + s.dev.bootFails % 256 * 2 ^ 8 + s.dev.cause % 256))
  | _ => none

/-- The standard CSRs of F, D, V and the counters. time is one counter for all dies: R7 lets two dies differ by up to 4, and the model's choice is that they
do not (log 70). -/
def State.userCsr (s : State) (n : Nat) : Option Word :=
  let q := s.seq
  let fcsr : Word := (q.frm ++ q.fflags).setWidth 64
  let fp (v : Word) : Option Word := if s.fpOn then some v else none
  let vec (v : Word) : Option Word := if s.vecOn then some v else none
  match n with
  | 0x001 => fp (q.fflags.setWidth 64)
  | 0x002 => fp (q.frm.setWidth 64)
  | 0x003 => fp fcsr
  | 0x008 => vec q.vec.vstart
  | 0x009 => vec (ofBool q.vec.vxsat)
  | 0x00A => vec (q.vec.vxrm.setWidth 64)
  | 0x00F => vec (BitVec.ofNat 64 (q.vec.vxrm.toNat * 2 + b2n q.vec.vxsat))
  | 0xC00 => if s.counterOk 0 then some (Config.freeWord s.draws) else none
  | 0xC01 => if s.counterOk 1 then some (BitVec.ofNat 64 s.time) else none
  | 0xC02 => if s.counterOk 2 then some q.priv.minstret else none
  | 0xC20 => vec (BitVec.ofNat 64 q.vec.vl)
  | 0xC21 => vec q.vec.vtype
  | 0xC22 => vec (BitVec.ofNat 64 q.vec.vlenb)
  | _ => if 0xC03 ≤ n ∧ n ≤ 0xC1F ∧ s.counterOk (n - 0xC00) then some 0 else none

/-- The standard supervisor and machine CSRs. -/
def State.privCsr (s : State) (n : Nat) : Option Word :=
  let p := s.seq.priv
  match n with
  | 0x100 => some (p.readStatus &&& 0x80000003000DE762)
  | 0x104 => some (p.mie &&& p.mideleg)
  | 0x105 => some p.stvec
  | 0x106 => some p.scounteren
  | 0x10A => some p.senvcfg
  | 0x140 => some p.sscratch
  | 0x141 => some p.sepc
  | 0x142 => some p.scause
  | 0x143 => some p.stval
  | 0x144 => some (s.readMip &&& p.mideleg)
  | 0x180 => if s.seq.mode = .s ∧ p.mstatus.getLsbD 20 then none else some p.satp
  | 0x300 => some p.readStatus
  | 0x301 => some misaValue
  | 0x302 => some p.medeleg
  | 0x303 => some p.mideleg
  | 0x304 => some p.mie
  | 0x305 => some p.mtvec
  | 0x306 => some p.mcounteren
  | 0x30A => some p.menvcfg
  | 0x320 => some 0
  | 0x340 => some p.mscratch
  | 0x341 => some p.mepc
  | 0x342 => some p.mcause
  | 0x343 => some p.mtval
  | 0x344 => some s.readMip
  | 0xB00 => some (Config.freeWord s.draws)
  | 0xB02 => some p.minstret
  | 0xF11 | 0xF12 | 0xF13 | 0xF15 => some 0
  | 0xF14 => some (BitVec.ofNat 64 s.hart)
  | _ =>
    if 0x3A0 ≤ n ∧ n ≤ 0x3AE ∧ n % 2 = 0 then some (p.pmpcfg.toArray.getD (n - 0x3A0) 0)
    else if 0x3B0 ≤ n ∧ n ≤ 0x3EF then some (p.pmpaddr.toArray.getD (n - 0x3B0) 0)
    else if (0x323 ≤ n ∧ n ≤ 0x33F) ∨ (0xB03 ≤ n ∧ n ≤ 0xB1F) then some 0
    else none

/-- A CSR's value; none where the number names nothing here. -/
def State.csrRead (s : State) (n : Nat) : Option Word :=
  match s.salicaCsr n with
  | some v => some v
  | none => match s.userCsr n with | some v => some v | none => s.privCsr n

/-! ## Writing -/

def State.updPriv (s : State) (f : Priv → Priv) : State := s.upd fun q => { q with priv := f q.priv }
def State.updCtl (s : State) (f : Ctl → Ctl) : State := s.upd fun q => { q with ctl := f q.ctl }
def State.updVec (s : State) (f : Vec → Vec) : State := s.upd fun q => { q with vec := f q.vec }

/-- A write of a Salica CSR (R4, R78). -/
def State.salicaWrite (s : State) (n : Nat) (v : Word) : State :=
  match n with
  | 0x800 => s.updCtl fun c => { c with msksp := v &&& ~~~7 }
  | 0x801 => s.updCtl fun c => { c with mprog := getBits v 0 6 }
  | 0x802 => s.updCtl fun c => { c with mstra := v }
  | 0x803 => s.updCtl fun c => { c with mstrb := v }
  | 0x804 => s.updCtl fun c => { c with xsflags := c.xsflags &&& ~~~(v.setWidth 4) }
  | 0x805 => s.updCtl fun c => { c with vstrunc := c.vstrunc && !v.getLsbD 0 }
  | 0x806 => s.updCtl fun c => { c with htbase := v &&& ~~~7 }
  | 0x5C0 => s.updVec fun x => { x with grant := capGrant (getBits v 0 4), weight := if getBits v 16 8 = 0 then x.weight else getBits v 16 8 }
  | 0x5C1 => s.updCtl fun c => { c with itbudget := v.setWidth 32 }
  | 0x5C2 => s.updCtl fun c => { c with fwdlife := v.setWidth 32 }
  | 0x5C3 => s.updCtl fun c => { c with dbgEn := v.getLsbD 63 }
  | 0x5C4 =>
    let c := hartCluster s.hart
    let k := s.cluster c
    s.setCluster c { k with lreq := k.lreq &&& ~~~v }
  | 0x5C5 => s.lgrant (hartCluster s.hart) v
  | _ => s

/-- A write of an F or V CSR. -/
def State.userWrite (s : State) (n : Nat) (v : Word) : State :=
  let fp (s : State) := s.upd Seq.fpDirty
  let vec (s : State) := s.upd Seq.vecDirty
  match n with
  | 0x001 => fp (s.upd fun q => { q with fflags := v.setWidth 5 })
  | 0x002 => fp (s.upd fun q => { q with frm := v.setWidth 3 })
  | 0x003 => fp (s.upd fun q => { q with fflags := v.setWidth 5, frm := (v >>> 5).setWidth 3 })
  | 0x008 => vec (s.updVec fun x => { x with vstart := v &&& 0xFFFF })
  | 0x009 => vec (s.updVec fun x => { x with vxsat := v.getLsbD 0 })
  | 0x00A => vec (s.updVec fun x => { x with vxrm := v.setWidth 2 })
  | 0x00F => vec (s.updVec fun x => { x with vxsat := v.getLsbD 0, vxrm := (v >>> 1).setWidth 2 })
  | _ => s

/-- A write of a supervisor or machine CSR; fields that the FX8 does not have keep their values. -/
def State.privWrite (s : State) (n : Nat) (v : Word) : State :=
  match n with
  | 0x100 => s.updPriv fun p => p.writeStatus v sstatusMask
  | 0x104 => s.updPriv fun p => { p with mie := mixBits p.mie v (p.mideleg &&& interruptMask) }
  | 0x105 => s.updPriv fun p => { p with stvec := v &&& ~~~2 }
  | 0x106 => s.updPriv fun p => { p with scounteren := v &&& 0xFFFFFFFF }
  | 0x10A => s.updPriv fun p => { p with senvcfg := v &&& 1 }
  | 0x140 => s.updPriv fun p => { p with sscratch := v }
  | 0x141 => s.updPriv fun p => { p with sepc := v }
  | 0x142 => s.updPriv fun p => { p with scause := v }
  | 0x143 => s.updPriv fun p => { p with stval := v }
  | 0x144 => s.updPriv fun p => { p with mip := mixBits p.mip v (p.mideleg &&& 2) }
  | 0x180 => if getBits v 60 4 = 0 ∨ getBits v 60 4 = 10 then s.updPriv fun p => { p with satp := v } else s
  | 0x300 => s.updPriv fun p => p.writeStatus v mstatusMask
  | 0x302 => s.updPriv fun p => { p with medeleg := v &&& medelegMask }
  | 0x303 => s.updPriv fun p => { p with mideleg := v &&& 0x10222 }
  | 0x304 => s.updPriv fun p => { p with mie := v &&& interruptMask }
  | 0x305 => s.updPriv fun p => { p with mtvec := v &&& ~~~2 }
  | 0x306 => s.updPriv fun p => { p with mcounteren := v &&& 0xFFFFFFFF }
  | 0x30A => s.updPriv fun p => { p with menvcfg := v &&& menvcfgMask }
  | 0x340 => s.updPriv fun p => { p with mscratch := v }
  | 0x341 => s.updPriv fun p => { p with mepc := v &&& ~~~1 }
  | 0x342 => s.updPriv fun p => { p with mcause := v }
  | 0x343 => s.updPriv fun p => { p with mtval := v }
  | 0x344 => s.updPriv fun p => { p with mip := mixBits p.mip v 0x222 }
  | 0xB02 => s.updPriv fun p => { p with minstret := v - 1 }
  | _ =>
    if 0x3A0 ≤ n ∧ n ≤ 0x3AE ∧ n % 2 = 0 then
      s.updPriv fun p => { p with pmpcfg := p.pmpcfg.setIfInBounds (n - 0x3A0) (pmpCfgWrite (p.pmpcfg.toArray.getD (n - 0x3A0) 0) v) }
    else if 0x3B0 ≤ n ∧ n ≤ 0x3EF then
      s.updPriv fun p => if p.pmpLocked (n - 0x3B0) then p else { p with pmpaddr := p.pmpaddr.setIfInBounds (n - 0x3B0) (v &&& 0x3FFFFFFFFFFFFF) }
    else s

/-- The written value of minstret is read by the next instruction: the instruction that writes does not count. -/
def State.csrWrite (s : State) (n : Nat) (v : Word) : State := ((s.salicaWrite n v).userWrite n v).privWrite n v

/-- May a CSR instruction name a number here: its privilege (bits 9:8), a write to a read-only number (bits 11:10), and
vstart after vrelease (R77, R124)? -/
def State.csrOk (s : State) (n : Nat) (write : Bool) : Bool :=
  decide (n / 256 % 4 ≤ modeCode s.seq.mode) && !(write && n / 1024 == 3) && !(write && n == 8 && s.seq.vec.released)

/-- A CSR instruction (Zicsr): csrrs and csrrc write unless their source field is 0. -/
def execCsrAccess (op : CsrOp) (imm : Bool) (rd src : Reg) (csr : BitVec 12) (s : State) : Host.Outcome State Fault Refusal :=
  finish (
    let n := csr.toNat
    let v : Word := if imm then src.setWidth 64 else s.x src
    let write := op == .rw || src != 0
    match (if s.csrOk n write then s.csrRead n else none) with
    | none => s.illegal
    | some old =>
      let new := match op with | .rw => v | .rs => old ||| v | .rc => old &&& ~~~v
      .ok () ((if write then s.csrWrite n new else s).setX rd old))

/-! ## Environment calls, breakpoints, returns -/

def execEcall (s : State) : Host.Outcome State Fault Refusal :=
  finish (.trap (match s.seq.mode with | .u => 8 | .s => 9 | .m => 11) 0 s)

/-- tval holds the address of the ebreak (R297). -/
def execEbreak (s : State) : Host.Outcome State Fault Refusal := finish (.trap 3 (s.seePc s.hart s.seq.pc) s)

/-- A boundary at which a pending halt lands whatever the loop stack holds (R102, R300). -/
def State.openEdge (s : State) : State := if s.seq.halt.isSome then s.upd fun q => { q with atEdge := true } else s

/-- The sequencer is halted by pre-emption; an abandoned instruction will be executed again. -/
def Seq.land (q : Seq) (time : Nat) : Seq :=
  { q with run := .halted, halt := none, budget := false, stall := none, since := some time, peerGot := [], elems := [], armed := none }

/-- A sequencer that falls idle in handler mode halts at once where a request waits (R300). -/
def Seq.haltIdle (q : Seq) (time : Nat) : Seq := if q.halt.isSome then q.land time else q

/-- A return to the task: an sret to the handler table entry whose read faulted leaves it idle, to try the handler start again (R253). -/
def Seq.afterSret (q : Seq) (sepc : Word) (time : Nat) : Seq :=
  match q.mode, q.hs.retry with
  | .u, some a =>
    let q1 : Seq := { q with hs := { q.hs with retry := none } }
    if sepc = a then ({ q1 with run := .idle } : Seq).haltIdle time else q1
  | _, _ => q

/-- sret: cause 2 in U mode, and in S mode under TSR. -/
def execSret (s : State) : Host.Outcome State Fault Refusal :=
  let q := s.seq
  if q.mode = .u ∨ (q.mode = .s ∧ q.priv.mstatus.getLsbD 22) then finish s.illegal
  else .next ((((s.upd Seq.leaveS).retire (s.returnPc q.priv.sepc) true).openEdge).upd fun x => x.afterSret q.priv.sepc s.time)

def execMret (s : State) : Host.Outcome State Fault Refusal :=
  if s.seq.mode ≠ .m then finish s.illegal
  else .next (((s.upd Seq.leaveM).retire (s.returnPc s.seq.priv.mepc) true).openEdge)

/-- wfi ends at once; TW makes it cause 2 below M mode. -/
def execWfi (s : State) : Host.Outcome State Fault Refusal :=
  finish (if s.seq.mode ≠ .m ∧ s.seq.priv.mstatus.getLsbD 21 then s.illegal else .ok () s)

/-- The event of an encoding that nothing assigns: cause 2 (R87). -/
def execIllegalInstruction (s : State) : Host.Outcome State Fault Refusal := finish s.illegal

/-- yield changes nothing; a pending pre-emption lands after it (R102). -/
def execYield (s : State) : Host.Outcome State Fault Refusal := .next (s.retire s.nextPc false).openEdge

/-- erack clears EPEND and reads the count (R106). -/
def execErack (rd : Reg) (s : State) : Host.Outcome State Fault Refusal :=
  finish (.ok () ((s.upd fun q => { q with epend := false }).setX rd s.seq.eraCount))

end Sys2Proof.Machine
end

