-- ==== Sys2Proof/Machine/Issue.lean ====
section
/-! DEFINITION. When an instruction may issue: pending tokens (R155), and where a halt request lands (R300, R301), and which interrupt is taken. -/

namespace Sys2Proof.Machine

/-! ## Pending tokens (R155) -/

/-- The x register a scalar FP operation writes, and those it reads. -/
def fpDst (op : FpOp) (rd : Reg) : List Reg :=
  match op with
  | .eq | .lt | .le | .cls | .toW | .toWu | .toL | .toLu | .mvX => [rd]
  | _ => []
def fpSrc (op : FpOp) (rs1 : Reg) : List Reg :=
  match op with
  | .ofW | .ofWu | .ofL | .ofLu | .mvF => [rs1]
  | _ => []

/-- The x registers an instruction writes. -/
def dstOf : Instr → List Reg
  | .lidx rd _ | .lcnt rd _ | .ldepth rd | .erack rd | .swait rd _ | .tlread rd _ | .barWg rd | .vmdepth rd | .merr rd _
  | .lui rd _ | .auipc rd _ | .jal rd _ | .vsetivli rd _ _ | .vidxc _ rd _ _ | .texSa _ rd _ _
  | .bilv2 rd _ _ | .bilv3 rd _ _ | .bdlv2 rd _ _ | .bdlv3 rd _ _ | .clzx rd _ _ | .fold rd _ _ | .vsetvl rd _ _
  | .ctxSave rd _ _ | .ctxLoad rd _ _ | .migrate rd _ _ | .cpChain rd _ _ | .bankArm rd _ _ | .msend rd _ _ | .mreply rd _ _
  | .aqpush rd _ _ | .launch rd _ _ | .qsignal rd _ _ | .chsend rd _ _ | .alu _ rd _ _
  | .vregcfg rd _ | .vsetvlz rd _ _ _ | .vsetvli rd _ _ | .ldAq _ _ rd _ | .ldInv _ rd _ | .cpMma rd _ | .scfg rd _ _
  | .tlwait rd _ _ | .rodAcq rd _ | .bankDisarm rd _ | .chrecv rd _ | .mcfg rd _ | .jalr rd _ _ | .aluImm _ rd _ _
  | .cpG2s rd _ _ _ | .cpS2g rd _ _ _ | .cpG2g rd _ _ _ | .cp2d rd _ _ _ | .waitGe rd _ _ _ | .waitEq rd _ _ _
  | .amoScoped _ _ _ rd _ _ | .standardAmo _ _ _ _ rd _ _ | .csrAccess _ _ rd _ _ => [rd]
  | .scalarLoad op rd _ _ => match op with | .flh | .flw | .fld => [] | _ => [rd]
  | .vectorArithmetic f6 _ _ _ f3 vd => if f3 = 2 ∧ f6 = 0x10 then [vd] else []
  | .fpOp op _ rd _ _ _ _ => fpDst op rd
  | .pair _ _ a b => dstOf a ++ dstOf b
  | _ => []

/-- The x registers an instruction reads. -/
def srcOf : Instr → List Reg
  | .loop rs1 _ | .hintPf rs1 _ => [rs1]
  | .clzx rd a b | .msend rd a b => [rd, a, b]
  | .fold _ a b | .bilv2 _ a b | .bilv3 _ a b | .bdlv2 _ a b | .bdlv3 _ a b | .vsetvl _ a b
  | .ctxSave _ a b | .ctxLoad _ a b | .migrate _ a b | .cpChain _ a b | .bankArm _ a b | .mreply _ a b
  | .aqpush _ a b | .launch _ a b | .qsignal _ a b | .chsend _ a b | .alu _ _ a b
  | .stRl _ _ b a | .red _ _ b a | .bupd _ b a | .sfenceVma a b | .branch _ a b _ | .standardAmo _ _ _ _ _ b a => [a, b]
  | .vregcfg _ a | .vsetvlz _ a _ _ | .vsetvli _ a _ | .ldAq _ _ _ a | .ldInv _ _ a | .cpMma _ a | .scfg _ a _
  | .tlwait _ a _ | .rodAcq _ a | .bankDisarm _ a | .chrecv _ a | .mcfg _ a | .jalr _ a _ | .aluImm _ _ a _
  | .breckon a | .rodRel a | .chdone a | .scalarLoad _ _ a _ => [a]
  | .cpG2s _ a b c | .cpS2g _ a b c | .cpG2g _ a b c | .cp2d _ a b c | .waitGe _ a b c | .waitEq _ a b c => [a, b, c]
  | .amoScoped op _ _ rd b a => if op = 9 then [rd, a, b] else [a, b]
  | .vle8Inv _ _ a | .vle16Inv _ _ a | .vle32Inv _ _ a | .vle64Inv _ _ a | .vsmx _ _ a _ | .vwait _ _ _ a | .msendv _ _ _ a
  | .edge _ _ _ a | .texw _ _ _ a | .texS _ _ _ a | .boxt _ _ _ a | .trit _ _ _ a | .texSa _ _ _ a => [a]
  | .mmaE4e4 _ a b _ | .mmaE4e5 _ a b _ | .mmaE5e4 _ a b _ | .mmaE5e5 _ a b _ | .mmaE2e2 _ a b _ | .mmaE2e4 _ a b _
  | .mmaE4e2 _ a b _ | .mmaI8i8 _ a b _ | .mmaBfbf _ a b | .mmaHfhf _ a b | .mmaDfdf _ a b | .mload _ a b | .mstF32 _ a b
  | .mstBf16 _ a b | .mstF16 _ a b | .mstI32 _ a b | .mstE4m3 _ a b _ | .mstE5m2 _ a b _ => [a, b]
  | .pair g _ a b => g :: (srcOf a ++ srcOf b)
  | .scalarStore op b a _ => match op with | .fsh | .fsw | .fsd => [a] | _ => [b, a]
  | .csrAccess _ imm _ src _ => if imm then [] else [src]
  | .vectorLoad _ mop _ b a _ _ | .vectorStore _ mop _ b a _ _ => if mop = 2 then [a, b] else [a]
  | .vectorArithmetic _ _ _ v1 f3 _ => if f3 = 4 ∨ f3 = 6 then [v1] else []
  | .fpOp op _ _ rs1 _ _ _ => fpSrc op rs1
  | _ => []

/-- The x registers an instruction reads or writes. -/
def regsOf (i : Instr) : List Reg := dstOf i ++ srcOf i

/-- Does an instruction name a register whose token is pending? -/
def State.mustWait (s : State) (i : Instr) : Bool :=
  s.seq.pend.any fun p => (regsOf i).contains p.1

/-- What an instruction waits for while a register that it names has a pending token: R301 has tlwait, the wait instructions, bar.wg and rod.acq abandoned
whatever they wait for. -/
def tokenStall : Instr → Stall
  | .tlwait .. => .timeline
  | .waitGe .. | .waitEq .. | .vwait .. => .word
  | .barWg .. => .barrier
  | .rodAcq .. => .rodAcq
  | _ => .token

/-- A read of a failed operation's token observes the failure; a token overwritten unread never will be (R315). -/
def Seq.observe (q : Seq) (i : Instr) : Seq :=
  if q.fails = [] then q
  else
    let seen := q.fails.filter fun f => f.tok == 0 || !(srcOf i).contains f.tok
    { q with fails := seen.map fun f => if (dstOf i).contains f.tok then { f with tok := 0 } else f }

/-! ## Landing (R300, R301) -/

/-- May a halt land on an instruction that waits for this? The others complete first (R301), among them one that waits for a token and tex.sa. -/
def Stall.abandoned : Stall → Bool
  | .rod | .peer | .drain | .exit | .link | .token | .sample => false
  | _ => true

/-- Does a pending halt request of a hart land at this boundary? -/
def Seq.lands (q : Seq) : Bool :=
  q.halt.isSome && q.mode == .u && (match q.stall with | some w => w.abandoned | none => true) &&
    (q.loops.isEmpty || q.atEdge || q.budget || q.ctl.itbudget == 0)

/-- The landing on a hart; an abandoned rod.acq withdraws its requests (R238). -/
def State.landAt (s : State) (h : Nat) : State :=
  let q := s.getSeq h
  let s1 := s.setSeq h (q.land s.time)
  if q.stall = some .rodAcq then
    let me : Party := .ctx (ctxOf q h)
    let rods := s.coh.rods.map fun (k, r) => (k, ({ r with waiters := r.waiters.filter (· != me) } : Rod))
    { s1 with coh := { s1.coh with rods := rods } }
  else s1

/-! ## Interrupts (R73, R297; log 61) -/

/-- The standard interrupts in their ratified order of priority. -/
def interruptOrder : List Nat := [11, 3, 7, 9, 1, 5]

/-- The standard interrupt that the running hart takes at this boundary: pending, enabled in mie, and open in the mode it goes to. None enters a
running handler (R253). -/
def State.pendingInterrupt (s : State) : Option Nat :=
  let q := s.seq
  let m := s.readMip &&& q.priv.mie
  let mOpen := match q.mode with | .m => q.priv.mstatus.getLsbD 3 | _ => true
  let sOpen := match q.mode with | .u => true | .s => q.priv.mstatus.getLsbD 1 | .m => false
  if !(match q.stall with | some w => w.abandoned | none => true) || (q.hs.inside && q.mode == .u) then none
  else
    interruptOrder.find? (fun c => m.getLsbD c && !q.priv.mideleg.getLsbD c && mOpen)
      |>.or (interruptOrder.find? fun c => m.getLsbD c && q.priv.mideleg.getLsbD c && sOpen)

/-- The running hart takes an interrupt; sepc or mepc holds the visible address of the instruction it stands at (R69). -/
def State.takeInterrupt (s : State) (code : Nat) : State := s.upd fun q => q.interruptTo (s.seePc s.hart q.pc) code

/-! ## Who issues -/

/-- May a hart execute an instruction? -/
def Seq.canRun (q : Seq) (h : Nat) : Bool := q.run == .running || (isSupervisor h && q.run == .free)

/-- May the running hart issue: it can run, the device is not left to the boot ROM (R333), the hart is of cluster 0 in minimal mode (R335), its core's partition is not isolated (R224), and, where it is thread t of the queue
processor (hart 4160 + t, log 1), no queue is mapped to it (R39)? -/
def State.mayIssue (s : State) : Bool :=
  s.seq.canRun s.hart && s.dev.stage != 6 && (!s.dev.minimal || hartCluster s.hart == 0 || decide (4160 ≤ s.hart)) && (isSupervisor s.hart || !s.isolatedPart (s.partOf s.hart)) &&
    !s.qp.queues.any fun q => q.thread == some (s.hart - 4160) && decide (4160 ≤ s.hart)

/-- Is an event the work of an agent of R125? -/
def agentEvent : Instr → Bool
  | .agentNop .. | .draw .. | .meshletDispatch .. | .mdone .. | .tris .. | .path .. | .frag .. | .cover .. | .close .. => true
  | _ => false

/-- The hart whose core's engines, inbox or sequencer an event sets to work. -/
def issuerOf : Instr → Option Nat
  | .copyComplete h _ | .chainEntryStart h _ | .matrixOpComplete h | .streamFetch h _ | .texSaComplete h _ | .handlerStart h | .channelHandlerStart h
  | .sequencerResume h => some h
  | .spanRead c _ _ _ | .homeWrite c _ _ => some (4 * c)
  | _ => none

/-- Does an event not happen: its core's partition is isolated (R224), or in minimal mode its core or agent does not run (R335)? -/
def State.held (s : State) (i : Instr) : Bool :=
  match issuerOf i with
  | some h => (!isSupervisor h && s.isolatedPart (s.partOf h)) || (s.dev.minimal && hartCluster h != 0)
  | none => s.dev.minimal && agentEvent i

end Sys2Proof.Machine
end

