-- ==== Sys2Proof/Machine/Copy.lean ====
section
/-! DEFINITION. Asynchronous copies (R151 to R157) and copy chains (R158, R159). -/

namespace Sys2Proof.Machine

/-! ## Performing a copy -/

/-- The operation of a combining copy, and its bytes (R152). -/
def combOp (comb old v : Nat) : Nat :=
  if comb = 14 then (fmt64.minmax false old v).1 else if comb = 15 then (fmt64.minmax true old v).1 else tagOp comb old v
def combBytes (comb : Nat) : Nat := if 14 ≤ comb then 8 else tagBytes comb

/-- The first location outside the scratch window. -/
def notScratch : List Loc → Option Word
  | [] => none
  | l :: ls => match l.t with | .scratch _ _ => notScratch ls | _ => some l.va

/-- A fault at an address, if there is one. -/
def State.failAt (s : State) (cause : Nat) (a : Option Word) : Res Unit :=
  match a with
  | some v => .trap cause v s
  | none => .ok () s

/-- Poison of the sectors under locations of HBM or scratch. -/
def State.poisonLocs (s : State) : List Loc → State
  | [] => s
  | l :: ls =>
    (match l.t with | .hbm | .scratch _ _ => s.poisonRange l.pa l.len | _ => s).poisonLocs ls

/-- Discards a combined element at a poisoned target (R153). -/
def State.discardComb (s : State) (h : Nat) (va : Word) (comb : Nat) : State :=
  s.logEntry (s.partOf h)
    { type := 8, sev := 2, ovr := false, cls := 0, idx := h, addr := va, qid := s.qidOf h,
      data := leBytes 8 h ++ leBytes 8 va.toNat ++ leBytes 8 comb }

/-- Copies or combines n bytes from one address to another; the source is read first. -/
def State.copyChunk (s : State) (h : Nat) (op : CopyOp) (d a : Word) (n : Nat) : Res Unit :=
  let via := s.viaEng h op.issuer true
  (s.locate via a n .load).bind fun src s1 =>
    (s1.failAt 5 (if op.form = 1 then notScratch src else none)).bind fun _ s2 =>
      (s2.rawReads via src).bind fun r s3 =>
        (s3.locate via d n .store).bind fun dst s4 =>
          (s4.failAt 7 (if op.form = 0 ∨ op.comb ≠ 0 then notScratch dst else none)).bind fun _ s5 =>
            if op.comb = 0 then
              (s5.engStore via dst r.1).bind fun _ s6 => .ok () ((if r.2 then s6.poisonLocs dst else s6).dropAsks via.party)
            else
              match dst with
              | [l] =>
                match s5.atHome via l false with
                | (some _, s6) => .ok () ((s6.discardComb h d op.comb).dropAsks via.party)
                | (none, s6) =>
                  let s7 := (s6.rmwDone via l fun old => some (combOp op.comb old (leNat r.1))).2
                  .ok () ((if r.2 then s7.poisonLocs dst else s7).dropAsks via.party)
              | _ => .trap 7 d s5

/-- How far a copy came. -/
inductive CopyRun where
  | finished (s : State)
  | failed (cause : Nat) (va : Word) (s : State)
  | waits (done : Nat) (s : State)

/-- Moves the bytes of a copy from `done` on, in ascending order, a destination sector or an element at a time. -/
def State.copyRun (h : Nat) (op : CopyOp) : Nat → Nat → State → CopyRun
  | 0, done, s => .waits done s
  | f + 1, done, s =>
    if op.rows * op.rowBytes ≤ done then .finished s
    else
      let r := BitVec.ofNat 64 (done / op.rowBytes)
      let b := done % op.rowBytes
      let d := op.dst + r * op.dstride + BitVec.ofNat 64 b
      let a := op.src + r * op.sstride + BitVec.ofNat 64 b
      let n := if op.comb = 0 then min (op.rowBytes - b) (32 - d.toNat % 32) else combBytes op.comb
      match s.copyChunk h op d a n with
      | .ok _ s1 => State.copyRun h op f (done + n) s1
      | .trap c v s1 => .failed c v (s1.dropAsks (s1.viaHart h).party)
      | .stall _ s1 => .waits done s1

/-- Runs a copy as far as it can go: it is over once its writes through peer windows are acknowledged (R155). -/
def State.copyAll (s : State) (h : Nat) (op : CopyOp) : CopyRun :=
  match op.failed with
  | some c => .failed c 0 s
  | none =>
    match State.copyRun h op (op.rows * op.rowBytes + 1 - op.done) op.done s with
    | .finished s1 => if s1.peerOwes (s1.viaHart h).party then .waits (op.rows * op.rowBytes) s1 else .finished s1
    | r => r

/-! ## Issue -/

/-- The checks on a command: reserved bits and limits (cause 2), then the alignment of a combining copy (cause 6). -/
def CopyOp.check (op : CopyOp) (ok : Bool) : CopyOp :=
  let w := combBytes op.comb
  let mis := op.dst.toNat % w != 0 || op.src.toNat % w != 0 || op.rowBytes % w != 0 ||
    (op.form == 3 && (op.dstride.toNat % w != 0 || op.sstride.toNat % w != 0))
  { op with failed := if !ok then some 2 else if op.comb ≠ 0 ∧ mis then some 6 else none }

/-- A linear copy of a command word. -/
def linearOp (form : Nat) (dst src cmd : Word) : CopyOp :=
  ({ n := 0, dst := dst, src := src, dstride := 0, sstride := 0, rows := 1, rowBytes := getBits cmd 0 41, comb := getBits cmd 48 4,
     form := form, tok := 0, done := 0, failed := none, follow := none, issuer := .task } : CopyOp).check
    (getBits cmd 52 12 == 0 && getBits cmd 41 7 == 0 && decide (getBits cmd 0 41 ≤ 2 ^ 40))

/-- A copy of rows. -/
def rowsOp (dst src dstride sstride : Word) (rows rowBytes comb : Nat) (ok : Bool) : CopyOp :=
  ({ n := 0, dst := dst, src := src, dstride := dstride, sstride := sstride, rows := rows, rowBytes := rowBytes, comb := comb,
     form := 3, tok := 0, done := 0, failed := none, follow := none, issuer := .task } : CopyOp).check
    (ok && decide (rowBytes ≤ 2 ^ 24 ∧ rows ≤ 2 ^ 20))

/-- A field of a descriptor. -/
def fld (b : List Byte) (off n : Nat) : Nat := leNat ((b.drop off).take n)
def fldW (b : List Byte) (off : Nat) : Word := BitVec.ofNat 64 (fld b off 8)

/-- A copy of a 32-byte descriptor (R152). -/
def descOp (dst src : Word) (b : List Byte) : CopyOp :=
  rowsOp dst src (fldW b 0x08) (fldW b 0x10) (fld b 0x04 4) (fld b 0x00 4) (fld b 0x18 4 % 16)
    (decide (fld b 0x18 4 < 16) && fld b 0x1C 4 == 0)

/-- Has the copy context 16 operations not yet complete? -/
def CopyCtx.full (c : CopyCtx) : Bool := decide (16 ≤ c.ops.length + c.chains.length)

/-- Issues a copy; one that moves nothing completes at once. -/
def State.issueCopy (s : State) (rd : Reg) (op : CopyOp) : Res Unit :=
  let n := s.seq.copy.iss + 1
  let op' : CopyOp := { op with n := n, tok := rd, issuer := s.issuer s.hart }
  .ok () (s.upd fun q =>
    let q1 : Seq := { q with copy := { q.copy with iss := n, ops := q.copy.ops ++ [op'] } }
    let q2 := q1.pendTok rd n
    if op.failed = none ∧ op.rows * op.rowBytes = 0 then q2.copyEnd n rd true none else q2)

/-- The three linear forms. -/
def State.linearCopy (s : State) (form : Nat) (rd rs1 rs2 rs3 : Reg) : Res Unit :=
  if !s.onCore then s.illegal
  else if s.seq.copy.full then .stall .engine s
  else s.issueCopy rd (linearOp form (s.x rs1) (s.x rs2) (s.x rs3))

def execCpG2s (rd rs1 rs2 rs3 : Reg) (s : State) : Host.Outcome State Fault Refusal := finish (s.linearCopy 0 rd rs1 rs2 rs3)
def execCpS2g (rd rs1 rs2 rs3 : Reg) (s : State) : Host.Outcome State Fault Refusal := finish (s.linearCopy 1 rd rs1 rs2 rs3)
def execCpG2g (rd rs1 rs2 rs3 : Reg) (s : State) : Host.Outcome State Fault Refusal := finish (s.linearCopy 2 rd rs1 rs2 rs3)

/-- Reads an aligned block of n bytes at issue; a misaligned address is cause 4. -/
def State.readCmd (s : State) (va : Word) (n : Nat) : Res (List Byte) :=
  if va.toNat % n ≠ 0 then .trap 4 va s else s.loadAt s.via va n false

def execCp2d (rd rs1 rs2 rs3 : Reg) (s : State) : Host.Outcome State Fault Refusal :=
  finish (
    if !s.onCore then s.illegal
    else if s.seq.copy.full then .stall .engine s
    else (s.readCmd (s.x rs3) 32).bind fun b s1 => s1.issueCopy rd (descOp (s.x rs1) (s.x rs2) b))

/-! ## Copies with a follow-on matrix command (R157) -/

/-- The format and accumulator of an mma word whose register fields are 0. -/
def mmaWord (w : BitVec 32) : Option (MmaFmt × BitVec 2) :=
  match decodeNative (leBytes 4 w.toNat) with
  | .ok (.mmaE4e4 a 0 0 0) _ => some (.e4e4, a)
  | .ok (.mmaE4e5 a 0 0 0) _ => some (.e4e5, a)
  | .ok (.mmaE5e4 a 0 0 0) _ => some (.e5e4, a)
  | .ok (.mmaE5e5 a 0 0 0) _ => some (.e5e5, a)
  | .ok (.mmaE2e2 a 0 0 0) _ => some (.e2e2, a)
  | .ok (.mmaE2e4 a 0 0 0) _ => some (.e2e4, a)
  | .ok (.mmaE4e2 a 0 0 0) _ => some (.e4e2, a)
  | .ok (.mmaI8i8 a 0 0 0) _ => some (.i8i8, a)
  | .ok (.mmaBfbf a 0 0) _ => some (.bfbf, a)
  | .ok (.mmaHfhf a 0 0) _ => some (.hfhf, a)
  | .ok (.mmaDfdf a 0 0) _ => some (.dfdf, a)
  | _ => none

/-- cp.mma takes a copy number and a matrix number; the matrix command carries the token. -/
def State.issueCpMma (s : State) (rd : Reg) (b : List Byte) (f : MmaFmt) (acc : BitVec 2) : Res Unit :=
  let nc := s.seq.copy.iss + 1
  let nm := s.seq.mat.iss + 1
  let cmd := fldW b 0x10
  let op := linearOp 2 (fldW b 0x00) (fldW b 0x08) cmd
  let op' : CopyOp :=
    { op with n := nc, tok := rd, follow := some nm, issuer := s.issuer s.hart,
              failed := if getBits cmd 48 4 ≠ 0 ∨ fld b 0x1C 4 ≠ 0 then some 2 else op.failed }
  let m : MatOp :=
    { n := nm, kind := .mma f, acc := acc, m0 := 0, rows := [], brows := [], w := BitVec.ofNat 32 (fld b 0x30 4),
      a := fldW b 0x20, b := fldW b 0x28, stra := (BitVec.ofNat 32 (fld b 0x38 4)).signExtend 64,
      strb := (BitVec.ofNat 32 (fld b 0x3C 4)).signExtend 64, follow := true, copyN := some nc, failed := false, defer := none, tok := rd,
      issuer := s.issuer s.hart }
  .ok () (s.upd fun q =>
    Seq.pendTok { q with copy := { q.copy with iss := nc, ops := q.copy.ops ++ [op'] },
                         mat := { q.mat with iss := nm, ops := q.mat.ops ++ [m] } } rd nm)

def execCpMma (rd rs1 : Reg) (s : State) : Host.Outcome State Fault Refusal :=
  finish (
    if !s.onCore then s.illegal
    else if s.seq.copy.full ∨ 4 ≤ s.seq.mat.ops.length then .stall .engine s
    else
      (s.readCmd (s.x rs1) 64).bind fun b s1 =>
        let w := BitVec.ofNat 32 (fld b 0x18 4)
        match mmaWord w with
        | none => .trap 2 (w.setWidth 64) s1
        | some (f, acc) => s1.issueCpMma rd b f acc)

/-- What becomes of a copy's matrix command when the copy ends (R157, R191): released if the context holds the matrix
context, else failed. -/
def State.followOn (s : State) (h : Nat) (op : CopyOp) (copied : Bool) : State :=
  match op.follow with
  | none => s
  | some nm =>
    let q := s.getSeq h
    let holds := (s.core (coreOf h)).holder == some h
    let ok := copied && holds
    let acc := ((q.mat.ops.find? fun m => m.n == nm).map (·.acc)).getD 0
    let s1 := s.setSeq h { q with mat := { q.mat with ops := q.mat.ops.map fun m =>
      if m.n = nm then { m with copyN := none, failed := !ok } else m } }
    if copied && !holds then s1.matReport h 7 acc.toNat 0 0 0 nm else s1

/-! ## Chains -/

/-- cp.chain reads its word pair at issue, whose fault is precise (R154, R299; log 39). -/
def execCpChain (rd rs1 rs2 : Reg) (s : State) : Host.Outcome State Fault Refusal :=
  finish (
    let a := s.x rs1
    let p := s.x rs2
    if !s.onCore then s.illegal
    else if a.toNat % 64 ≠ 0 then .trap 4 a s
    else if p.toNat % 16 ≠ 0 then .trap 4 p s
    else if s.seq.copy.full ∨ 2 ≤ s.seq.copy.chains.length then .stall .engine s
    else (s.readCmd p 16).bind fun _ s =>
      let n := s.seq.copy.iss + 1
      let c : Chain :=
        { n := n, next := a, pair := p, k := 1, running := [], ended := [], addrs := [], doneK := 0, tail := none, tok := rd, issuer := s.issuer s.hart }
      .ok () (s.upd fun q => Seq.pendTok { q with copy := { q.copy with iss := n, chains := q.copy.chains ++ [c] } } rd n))

/-- Replaces a chain of a hart. -/
def State.setChain (s : State) (h : Nat) (c : Chain) : State :=
  s.modSeq h fun q => { q with copy := { q.copy with chains := q.copy.chains.map fun x => if x.n = c.n then c else x } }

/-- A chain's operation ends. -/
def State.endChain (s : State) (h : Nat) (c : Chain) (fail : Option CopyFail) : State :=
  s.modSeq h fun q => q.copyEnd c.n c.tok true fail

/-- Writes DONE where it rises. -/
def State.chainDone (s : State) (h : Nat) (c : Chain) (k : Nat) : Res Unit :=
  s.engWrite (s.viaEng h c.issuer true) (c.pair + 8) (leBytes 8 k)

/-- Entry k of a chain is complete. -/
def State.endEntry (s : State) (h : Nat) (c : Chain) (k : Nat) (op : CopyOp) : Host.Outcome State Fault Refusal :=
  let r := tlComplete c.doneK c.ended k
  let c' : Chain :=
    { c with running := c.running.filter (·.1 ≠ k), ended := r.2, doneK := r.1, addrs := c.addrs.filter fun e => decide (r.1 < e.1) }
  if r.1 = c.doneK then .next (s.setChain h c')
  else
    match s.chainDone h c r.1 with
    | .ok _ s1 => .next (s1.setChain h c')
    | .trap x v s1 => .next (s1.endChain h c (some ⟨x, v, k⟩))
    | .stall _ s1 =>
      let full : CopyOp := { op with done := op.rows * op.rowBytes }
      .next (s1.setChain h { c with running := c.running.map fun e => if e.1 = k then (k, full) else e })

/-- Performs one entry in progress of a chain. -/
def State.runEntry (s : State) (h : Nat) (c : Chain) (k : Nat) (op : CopyOp) : Host.Outcome State Fault Refusal :=
  match s.copyAll h op with
  | .finished s1 => s1.endEntry h c k op
  | .failed x v s1 => .next (s1.endChain h c (some ⟨x, v, k⟩))
  | .waits d s1 => .next (s1.setChain h { c with running := c.running.map fun e => if e.1 = k then (k, { op with done := d }) else e })

/-- The engine works on a copy, or on one entry of a chain (which one, the spec leaves open). -/
def execCopyComplete (hart n : Nat) (s : State) : Host.Outcome State Fault Refusal :=
  let q := s.getSeq hart
  match q.copy.ops.find? (fun o => o.n == n) with
  | some op =>
    match s.copyAll hart op with
    | .finished s1 => .next ((s1.modSeq hart fun q => q.copyEnd n op.tok op.follow.isNone none).followOn hart op true)
    | .failed c v s1 => .next ((s1.modSeq hart fun q => q.copyEnd n op.tok op.follow.isNone (some ⟨c, v, 0⟩)).followOn hart op false)
    | .waits d s1 =>
      .next (s1.modSeq hart fun q =>
        { q with copy := { q.copy with ops := q.copy.ops.map fun o => if o.n = n then { o with done := d } else o } })
  | none =>
    match q.copy.chains.find? (fun c => c.n == n) with
    | some c =>
      let d := s.draw
      match c.running[d.1.toNat % c.running.length]? with
      | some (k, op) => d.2.runEntry hart c k op
      | none => .next s
    | none => .next s

/-- An entry as the engine reads it; none is ill formed. -/
def chainEntry (b : List Byte) (k : Nat) : Option (Nat × Bool × CopyOp × Word) :=
  let ctrl := fld b 0x00 4
  let kind := ctrl % 4
  let comb := ctrl / 16 % 16
  if fld b 0x38 8 ≠ k ∨ kind = 3 ∨ ctrl / 4 % 4 ≠ 0 ∨ 512 ≤ ctrl ∨ fld b 0x30 8 % 64 ≠ 0 then none
  else
    let len := fld b 0x18 8
    let op : CopyOp := if kind = 1 then
        ({ n := k, dst := fldW b 0x08, src := fldW b 0x10, dstride := 0, sstride := 0, rows := 1, rowBytes := len, comb := comb,
           form := 2, tok := 0, done := 0, failed := none, follow := none, issuer := .task } : CopyOp).check (decide (len ≤ 2 ^ 40))
      else rowsOp (fldW b 0x08) (fldW b 0x10) (fldW b 0x20) (fldW b 0x28) (fld b 0x04 4) len comb true
    some (kind, ctrl / 256 % 2 == 1, op, fldW b 0x30)

/-- The chain engine takes the entry it has read; it passes over one that a restored context has taken already (R304). -/
def State.takeEntry (s : State) (h : Nat) (c : Chain) (e : Option (Nat × Bool × CopyOp × Word)) : Host.Outcome State Fault Refusal :=
  match e with
  | none => .next (s.endChain h c (some ⟨2, c.next, c.k⟩))
  | some (kind, fence, op, next) =>
    let step : Chain := { c with addrs := c.addrs ++ [(c.k, c.next)], next := next, k := c.k + 1 }
    if c.ended.contains c.k ∨ c.running.any (fun e => e.1 == c.k) then .next (s.setChain h step)
    else if (fence ∨ kind = 0) ∧ c.running ≠ [] then .next s
    else if kind = 0 then
      match s.chainDone h c c.k with
      | .ok _ s1 => .next (s1.endChain h c none)
      | .trap x v s1 => .next (s1.endChain h c (some ⟨x, v, c.k⟩))
      | .stall _ s1 => .next s1
    else if 4 ≤ c.running.length then .next s
    else .next (s.setChain h { step with running := c.running ++ [(c.k, { op with issuer := c.issuer })] })

/-- The chain engine reads TAIL, and the next entry once it is published (R159). -/
def execChainEntryStart (hart n : Nat) (s : State) : Host.Outcome State Fault Refusal :=
  match (s.getSeq hart).copy.chains.find? (fun c => c.n == n) with
  | none => .next s
  | some c =>
    let via := s.viaEng hart c.issuer true
    match s.readBytes via c.pair 8 with
    | .trap x v s1 => .next ((s1.dropAsks via.party).endChain hart c (some ⟨x, v, c.k⟩))
    | .stall _ s1 => .next s1
    | .ok t s1 =>
      if leNat t < c.k then .next ((s1.dropAsks via.party).setChain hart { c with tail := some (leNat t) })
      else
        match s1.readBytes via c.next 64 with
        | .trap x v s2 => .next ((s2.dropAsks via.party).endChain hart c (some ⟨x, v, c.k⟩))
        | .stall _ s2 => .next s2
        | .ok b s2 => (s2.dropAsks via.party).takeEntry hart c (chainEntry b c.k)

end Sys2Proof.Machine
end

