-- ==== Sys2Proof/Machine/Float.lean ====
section
/-! DEFINITION. Scalar floating point: F, D and Zfh (R73), with NaN-boxing. -/

namespace Sys2Proof.Machine

/-- A rounding mode field; dynamic rounding reads frm. None is reserved. -/
def rmOf (frm rm : BitVec 3) : Option Rm :=
  match (if rm = 7 then frm else rm).toNat with
  | 0 => some .rne | 1 => some .rtz | 2 => some .rdn | 3 => some .rup | 4 => some .rmm | _ => none

/-- The value of a boxed register in a format: the canonical NaN where the box is broken. -/
def unbox (f : FFmt) (w : Word) : Nat :=
  if f.width = 64 then w.toNat
  else if w.toNat / 2 ^ f.width = 2 ^ (64 - f.width) - 1 then w.toNat % 2 ^ f.width else f.nan

/-- A value NaN-boxed. -/
def box (f : FFmt) (v : Nat) : Word := nanBox (f.width / 8) v

/-- What a scalar FP operation delivers: an f value, an x value, and flags. -/
inductive FpOut where
  | f (v : Nat) (fl : BitVec 5)
  | x (v : Word) (fl : BitVec 5)
  | bad

/-- Sign extension of an n-bit number. -/
def sextN (n v : Nat) : Word := (BitVec.ofNat 64 (v * 2 ^ (64 - n))).sshiftRight (64 - n)

/-- The operation on the values a, b, c of its format and the x source; `rm` is the rounding mode, none reserved. -/
def evalFp (op : FpOp) (fmt : FpFmt) (rm : Option Rm) (w1 w2 w3 x1 : Word) : FpOut :=
  let f := FpFmt.ffmt fmt
  let a := unbox f w1
  let b := unbox f w2
  let c := unbox f w3
  let ua := f.unpack a
  let ub := f.unpack b
  let uc := f.unpack c
  let arith (g : Rm → FRes) : FpOut := match rm with
    | some r => let p := f.finish r (g r); .f p.1 p.2
    | none => .bad
  let toInt (signed : Bool) (n : Nat) : FpOut := match rm with
    | some r => let p := fToInt r signed n ua; .x (sextN n p.1) p.2
    | none => .bad
  let ofInt (signed : Bool) (n : Nat) : FpOut := match rm with
    | some r => let p := intToF f r signed n (x1.toNat % 2 ^ n); .f p.1 p.2
    | none => .bad
  let conv (src : FFmt) : FpOut := match rm with
    | some r => let p := fConv src f r (unbox src w1); .f p.1 p.2
    | none => .bad
  match op with
  | .madd => arith fun r => fMulAdd r ua ub uc
  | .msub => arith fun r => fMulAdd r ua ub uc.flip
  | .nmsub => arith fun r => fMulAdd r ua.flip ub uc
  | .nmadd => arith fun r => fMulAdd r ua.flip ub uc.flip
  | .add => arith fun r => fAdd r ua ub
  | .sub => arith fun r => fSub r ua ub
  | .mul => arith fun _ => fMul ua ub
  | .div => arith fun _ => fDiv ua ub
  | .sqrt => arith fun _ => fSqrt ua
  | .sgnj => .f (f.sgnj 0 a b) 0
  | .sgnjn => .f (f.sgnj 1 a b) 0
  | .sgnjx => .f (f.sgnj 2 a b) 0
  | .min => let p := f.minmax false a b; .f p.1 p.2
  | .max => let p := f.minmax true a b; .f p.1 p.2
  | .eq => let p := fEq ua ub; .x (ofBool p.1) p.2
  | .lt => let p := fLt ua ub; .x (ofBool p.1) p.2
  | .le => let p := fLe ua ub; .x (ofBool p.1) p.2
  | .cls => .x (BitVec.ofNat 64 (f.classify a)) 0
  | .toW => toInt true 32
  | .toWu => toInt false 32
  | .toL => toInt true 64
  | .toLu => toInt false 64
  | .ofW => ofInt true 32
  | .ofWu => ofInt false 32
  | .ofL => ofInt true 64
  | .ofLu => ofInt false 64
  | .mvX => .x (sextN f.width (w1.toNat % 2 ^ f.width)) 0
  | .mvF => .f (x1.toNat % 2 ^ f.width) 0
  | .ofS => conv fmt32
  | .ofD => conv fmt64
  | .ofH => conv fmt16

/-- A scalar FP instruction: cause 2 where FS is off or the rounding mode is reserved. -/
def execFpOp (op : FpOp) (fmt : FpFmt) (rd rs1 rs2 rs3 : Reg) (rm : BitVec 3) (s : State) : Host.Outcome State Fault Refusal :=
  finish (
    if !s.fpOn then s.illegal
    else
      match evalFp op fmt (rmOf s.seq.frm rm) (s.f rs1) (s.f rs2) (s.f rs3) (s.x rs1) with
      | .f v fl => .ok () ((s.fpFlag fl).setF rd (box (FpFmt.ffmt fmt) v))
      | .x v fl => .ok () ((if fl = 0 then s else s.fpFlag fl).setX rd v)
      | .bad => s.illegal)

end Sys2Proof.Machine
end

