-- ==== Sys2Proof/Machine/Operands.lean ====
section
/-! DEFINITION. Vector operands: elements of register groups (R111), vtype, register groups and their legality
(R73, R74 items 2 and 6, R87), masks, and what every vector instruction checks first (R113, R116, R124). -/

namespace Sys2Proof.Machine

/-! ## vtype -/

def Vec.vill (v : Vec) : Bool := v.vtype.getLsbD 63
/-- SEW in bits. -/
def Vec.sew (v : Vec) : Nat := 8 * 2 ^ v.sewCode
/-- Eight times LMUL by its code; the reserved code 4 gives 0. -/
def lmul8 (code : Nat) : Nat := match code with | 0 => 8 | 1 => 16 | 2 => 32 | 3 => 64 | 5 => 1 | 6 => 2 | 7 => 4 | _ => 0
def Vec.lmul (v : Vec) : Nat := lmul8 v.lmulCode
/-- VLMAX (R112). -/
def Vec.vlmax (v : Vec) : Nat := v.vlen * v.lmul / (8 * v.sew)

/-! ## Elements -/

/-- w bits of a register from bit off. -/
def getSlice (r : VBits) (off w : Nat) : Nat := r.toNat / 2 ^ off % 2 ^ w

/-- Replaces w bits of a register from bit off. -/
def setSlice (r : VBits) (off w v : Nat) : VBits :=
  (r &&& ~~~(BitVec.ofNat 65536 ((2 ^ w - 1) * 2 ^ off))) ||| BitVec.ofNat 65536 (v % 2 ^ w * 2 ^ off)

def Vec.reg (v : Vec) (r : Nat) : VBits := if h : r < 32 then v.regs[r]'h else 0
def Vec.setReg (v : Vec) (r : Nat) (x : VBits) : Vec := if h : r < 32 then { v with regs := v.regs.set r x h } else v

/-- Element j, w bits wide, of the group whose first register is vb (R111). -/
def Vec.get (v : Vec) (vb w j : Nat) : Nat := getSlice (v.reg (vb + j * w / v.vlen)) (j * w % v.vlen) w
def Vec.put (v : Vec) (vb w j x : Nat) : Vec :=
  let r := vb + j * w / v.vlen
  v.setReg r (setSlice (v.reg r) (j * w % v.vlen) w x)

/-- Mask(r, i). -/
def Vec.bit (v : Vec) (r i : Nat) : Bool := (v.reg r).getLsbD i
/-- Is element i active? -/
def Vec.active (v : Vec) (vm : Bool) (i : Nat) : Bool := vm || v.bit 0 i

/-- Active elements below n. -/
def Vec.popActive (v : Vec) (vm : Bool) : Nat → Nat
  | 0 => 0
  | n + 1 => v.popActive vm n + (if v.active vm n then 1 else 0)

/-- An element result: its value, fflags and vxsat. -/
structure Elem where
  val : Nat
  fl  : BitVec 5
  sat : Bool
deriving DecidableEq, Repr

def Elem.of (v : Nat) : Elem := ⟨v, 0, false⟩

/-- A vector state with the flags gathered on the way. -/
structure VAcc where
  vec : Vec
  fl  : BitVec 5
  sat : Bool
deriving DecidableEq, Repr

/-- Writes elements 0 .. n - 1 for which f has a result, in ascending order. -/
def VAcc.fill (a : VAcc) (vb w : Nat) (f : Nat → Option Elem) : Nat → VAcc
  | 0 => a
  | n + 1 =>
    let b := a.fill vb w f n
    match f n with
    | some e => { vec := b.vec.put vb w n e.val, fl := b.fl ||| e.fl, sat := b.sat || e.sat }
    | none => b

/-- The running hart with the vector state and flags that an instruction leaves. -/
def State.putV (s : State) (a : VAcc) : State :=
  let s1 := s.upd fun q => { q with vec := { a.vec with vxsat := a.vec.vxsat || a.sat } }
  if a.fl = 0 then s1 else s1.fpFlag a.fl

/-! ## Register groups -/

/-- A register group: first register, element width in bits (1 for a mask), and eight times EMUL. -/
structure Grp where
  reg  : Nat
  eew  : Nat
  emul : Nat
deriving DecidableEq, Repr

/-- Registers of a group. -/
def Grp.count (g : Grp) : Nat := max 1 (g.emul / 8)
/-- A group of elements of a width under the current vtype. -/
def Vec.grp (v : Vec) (reg eew : Nat) : Grp := ⟨reg, eew, if v.lmul * eew % v.sew = 0 then v.lmul * eew / v.sew else 0⟩
/-- A mask register, or a register that holds one scalar element. -/
def maskGrp (reg : Nat) : Grp := ⟨reg, 1, 8⟩

def Grp.ok (g : Grp) (nreg : Nat) : Bool :=
  [1, 2, 4, 8, 16, 32, 64].contains g.emul && decide (g.reg % g.count = 0 ∧ g.reg + g.count ≤ nreg)

def Grp.overlaps (a b : Grp) : Bool := decide (a.reg < b.reg + b.count ∧ b.reg < a.reg + a.count)

/-- May a destination group share registers with a source group as it does? -/
def Grp.over (d s : Grp) : Bool :=
  !d.overlaps s || d.eew == s.eew || (decide (d.eew < s.eew) && d.reg == s.reg) ||
    (decide (s.eew < d.eew ∧ 8 ≤ s.emul) && s.reg + s.count == d.reg + d.count)

/-- No register is read with two element widths. -/
def srcsAgree : List Grp → Bool
  | [] => true
  | g :: gs => gs.all (fun h => g.eew == h.eew || !g.overlaps h) && srcsAgree gs

/-- Are the groups of an instruction legal: a destination vector group and its sources? -/
def Vec.legal (v : Vec) (vm : Bool) (d : Grp) (srcs : List Grp) : Bool :=
  let all := if vm then srcs else maskGrp 0 :: srcs
  d.ok v.nregs && srcs.all (·.ok v.nregs) && srcs.all (d.over ·) && srcsAgree all &&
    (vm || d.eew == 1 || d.reg != 0)

/-- The same for sources alone. -/
def Vec.legalSrcs (v : Vec) (vm : Bool) (srcs : List Grp) : Bool :=
  srcs.all (·.ok v.nregs) && srcsAgree (if vm then srcs else maskGrp 0 :: srcs)

/-! ## What every vector instruction checks first -/

/-- Lane groups held and retired (R113). -/
def State.lostLanes (s : State) : BitVec 8 := s.seq.vec.hmask &&& (s.core (coreOf s.hart)).dis

/-- Cause 2 where the instruction or the vector state is not in order, then cause 29, then the instruction. `typed`:
does it depend on vtype? -/
def State.vguard {α : Type} (s : State) (typed legal : Bool) (r : Res α) : Res α :=
  let v := s.seq.vec
  if !s.onCore || !s.vecOn || v.released || v.fresh || v.vstart != 0 || (typed && v.vill) || !legal then s.illegal
  else if s.lostLanes ≠ 0 then .trap 29 (s.lostLanes.setWidth 64) s
  else r

/-- The record of an instruction that accesses no memory. -/
def State.vinfo (s : State) (cls ord : Nat) (vm : Bool) : VInfo :=
  { first := 0, last := 0, trunc := false, cls := cls, ord := ord, masked := !vm, pop := s.seq.vec.popActive vm s.seq.vec.vl }

end Sys2Proof.Machine
end

