-- ==== Sys2Proof/Machine/VectorConfig.lean ====
section
/-! DEFINITION. Vector configuration (R74, R110 to R115), vrelease (R124), the mask stack (R116 to R119), vidxc (R120)
and vwmulx (R123). -/

namespace Sys2Proof.Machine

/-! ## Lanes (R49 to R51, R110, R111) -/

/-- Lane groups that the other contexts of a core hold. -/
def State.otherLanes (s : State) (hart : Nat) : BitVec 8 :=
  (List.range 4).foldl (fun m i =>
    let h := 4 * coreOf hart + i
    if h = hart then m else m ||| (s.getSeq h).vec.hmask) 0

/-- The lowest n groups of a mask, looking at groups i and up, k more. -/
def lowestGroups (m : BitVec 8) : Nat → Nat → Nat → BitVec 8
  | _, _, 0 => 0
  | n, i, k + 1 =>
    if n = 0 then 0
    else if m.getLsbD i then ((1 : BitVec 8) <<< i) ||| lowestGroups m (n - 1) (i + 1) k
    else lowestGroups m n (i + 1) k

/-- The grant that a vset* takes (R110). -/
def State.laneGrant (s : State) : Nat :=
  let k := s.core (coreOf s.hart)
  min (min s.seq.vec.grant (s.capOf (coreOf s.hart))) (8 - popcount k.dis)

/-- Bits of a register below n. -/
def lowMask (n : Nat) : VBits := BitVec.ofNat 65536 (2 ^ n - 1)

/-- Free contents of register r within VLEN bits (log 8). -/
def freeReg (draws r vlen : Nat) : VBits := Config.freeVec (32 * draws + r) &&& lowMask vlen

/-- The registers after a change of VLEN: what keeps its value, and free bits elsewhere (R111). -/
def Vec.resize (v : Vec) (lost : Bool) (vlen draws : Nat) : Vec :=
  let kept := if lost then 0 else min v.vlen vlen
  if kept = vlen ∧ v.vlen = vlen then v
  else
    { v with vlen := vlen, regs := Vector.ofFn fun r : Fin 32 => (v.regs[r] &&& lowMask kept) ||| (freeReg draws r vlen &&& ~~~lowMask kept) }

/-- R110 and R111: takes the lane groups of the grant, or waits; the lane request is recorded once, as the wait begins (R51). -/
def State.takeLanes (s : State) : Res Unit :=
  let v := s.seq.vec
  let k := s.core (coreOf s.hart)
  let g := s.laneGrant
  let s1 := s.updVec fun v => { v with wants := true }
  if g = 0 then
    if v.grant = 0 ∧ s.seq.stall ≠ some .lanes then
      let c := hartCluster s.hart
      let cl := s.cluster c
      .stall .lanes (s1.setCluster c { cl with lreq := cl.lreq ||| (1 : BitVec 64) <<< (s.hart % 64) })
    else .stall .lanes s1
  else
    let mine := lowestGroups (v.hmask &&& ~~~k.dis) g 0 8
    let free := ~~~(s.otherLanes s.hart ||| k.dis ||| v.hmask)
    let keep := mine ||| lowestGroups free (g - popcount mine) 0 8
    if popcount keep < g then .stall .lanes s1
    else
      let lost : Bool := v.hmask &&& k.dis != 0
      .ok () (s1.updVec fun v => { v.resize lost (4 * g * Config.laneBits / v.nregs) s.draws with hmask := keep, fresh := false, setAt := s.time })

/-! ## vtype and vl (R112) -/

/-- The length asked for. -/
inductive Avl where
  | n (k : Nat)
  | max
  | keep
deriving DecidableEq, Repr

def Vec.setIll (v : Vec) : Vec := { v with vtype := 0x8000000000000000, vl := 0 }

/-- Is a vtype value reserved? -/
def badVtype (t : Word) : Bool :=
  decide (256 ≤ t.toNat) || decide (4 ≤ getBits t 3 3) || lmul8 (getBits t 0 3) == 0 ||
    decide (lmul8 (getBits t 0 3) < 2 ^ getBits t 3 3)

/-- Sets vtype and vl under the VLEN in force. -/
def Vec.setType (v : Vec) (t : Word) (avl : Avl) : Vec :=
  if badVtype t then v.setIll
  else
    let v1 := { v with vtype := t }
    match avl with
    | .n k => { v1 with vl := min k v1.vlmax }
    | .max => { v1 with vl := v1.vlmax }
    | .keep => if v.vill ∨ v.lmul * v1.sew ≠ v1.lmul * v.sew then v.setIll else { v1 with vl := min v.vl v1.vlmax }

/-- A vset*: the lanes, then vtype and vl, then rd. -/
def State.vset (s : State) (rd : Reg) (t : Word) (avl : Avl) (ord : Nat) : Res VInfo :=
  let v := s.seq.vec
  if !s.onCore || !s.vecOn || v.released || v.vstart != 0 then s.illegal
  else
    s.takeLanes.bind fun _ s1 =>
      let s2 := s1.updVec fun v => v.setType t avl
      .ok (s2.vinfo 11 ord true) (s2.setX rd (BitVec.ofNat 64 s2.seq.vec.vl))

/-- AVL of vsetvli and vsetvl. -/
def avlOf (s : State) (rd rs1 : Reg) : Avl := if rs1 ≠ 0 then .n (s.x rs1).toNat else if rd ≠ 0 then .max else .keep

def execVsetvli (rd rs1 : Reg) (vtypei : BitVec 11) (s : State) : Host.Outcome State Fault Refusal :=
  finishV (s.vset rd (vtypei.setWidth 64) (avlOf s rd rs1) 1004)
def execVsetivli (rd : Reg) (avl : BitVec 5) (vtypei : BitVec 10) (s : State) : Host.Outcome State Fault Refusal :=
  finishV (s.vset rd (vtypei.setWidth 64) (.n avl.toNat) 1005)
def execVsetvl (rd rs1 rs2 : Reg) (s : State) : Host.Outcome State Fault Refusal :=
  finishV (s.vset rd (s.x rs2) (avlOf s rd rs1) 1006)

/-- vsetvlz branches where the length asked for is 0 (R115). -/
def execVsetvlz (rd rs1 : Reg) (vtypei : BitVec 8) (off : Word) (s : State) : Host.Outcome State Fault Refusal :=
  if s.seq.latch.form = .native ∧ off.toNat < 4 then finish s.illegal
  else
    let avl := (s.x rs1).toNat
    finishAt ((s.vset rd (vtypei.setWidth 64) (.n avl) 4110).bind fun i s1 =>
      .ok (if avl = 0 then s.seq.pc + off else s.nextPc, avl = 0) ((s1.ringRecord i).upd Seq.vecDirty))

/-! ## vregcfg and vrelease (R114, R124) -/

/-- The record of vregcfg and vrelease; the spec gives their CLASS no value (log 8). -/
def State.vinfoCfg (s : State) (ord : Nat) : VInfo := s.vinfo ((Config.freeWord s.draws).toNat % 16) ord true

def execVregcfg (rd rs1 : Reg) (s : State) : Host.Outcome State Fault Refusal :=
  finishV (
    let v := s.seq.vec
    let c := (s.x rs1).toNat
    if !s.onCore || !s.vecOn || v.released || v.vstart != 0 || v.mdepth != 0 then s.illegal
    else if c ≠ 8 ∧ c ≠ 16 ∧ c ≠ 32 then .ok (s.vinfoCfg 4108) (s.setX rd 0)
    else
      let s1 := s.updVec fun v =>
        { v.setIll with nreg := if c = 8 then 0 else if c = 16 then 1 else 2, fresh := true,
                        regs := Vector.ofFn fun r : Fin 32 => freeReg s.draws r v.vlen }
      .ok (s1.vinfoCfg 4108) (s1.setX rd (BitVec.ofNat 64 v.nregs)))

/-- The vector state of a context without lanes. -/
def Vec.dead (v : Vec) : Vec :=
  { v.setIll with regs := Vector.replicate 32 0, mstack := [], mdepth := 0, vlen := 0, hmask := 0, wants := false }

/-- vrelease: cause 2 between a vregcfg and the next vset* (R114), but not before the first vset* (R124), while vlenb is 0. -/
def execVrelease (s : State) : Host.Outcome State Fault Refusal :=
  finishV (
    let v := s.seq.vec
    if !s.onCore || !s.vecOn || v.released || v.vstart != 0 || (v.fresh && v.vlen != 0) then s.illegal
    else
      let s1 := s.updVec fun v => { v.dead with released := true }
      .ok (s1.vinfoCfg 4109) s1)

/-! ## The mask stack (R117 to R119) -/

/-- Stores the bytes of an entry: every check and rod comes before the first byte. -/
def State.storeRun (s : State) (via : Via) (va : Word) (bs : List Byte) : Res Unit :=
  (s.locateAll via .store (pieces 8 va bs.length)).bind fun ls s1 => s1.storeLocs via ls bs

/-- Loads n bytes in runs of at most 64, ascending. -/
def State.loadRun (s : State) (via : Via) : Nat → Word → Nat → Res (List Byte)
  | 0, _, _ => .ok [] s
  | k + 1, va, n =>
    if n = 0 then .ok [] s
    else
      (s.loadAt via va (min 64 n) false).bind fun b s1 =>
        (s1.loadRun via k (va + 64) (n - 64)).bind fun bs s2 => .ok (b ++ bs) s2

/-- Cause 25 in place of a translation or access fault or of poison in a spill or a fill. -/
def Res.spillFault {α : Type} (r : Res α) : Res α :=
  match r with
  | .trap c v s => .trap (if [5, 7, 13, 15, 30].contains c then 25 else c) v s
  | r => r

/-- A spilled entry's bytes (R117). -/
def MaskEntry.bytes (e : MaskEntry) : List Byte :=
  let n := e.vlene / 8
  leBytes n e.m.toNat ++ leBytes n e.e.toNat ++ leBytes 4 e.vlene ++ leBytes 4 (2 * n + 64) ++ leBytes 4 e.depth ++ List.replicate 52 0

/-- Spills the oldest entry on chip. -/
def State.spill (s : State) : Res Unit :=
  match s.seq.vec.mstack.getLast? with
  | none => .ok () s
  | some e =>
    let b := e.bytes
    ((s.storeRun s.via s.seq.ctl.msksp b).spillFault).bind fun _ s1 =>
      .ok () ((s1.updVec fun v => { v with mstack := v.mstack.dropLast }).updCtl fun c => { c with msksp := (c.msksp + BitVec.ofNat 64 b.length) &&& ~~~7 })

/-- Fills the newest spilled entry, and answers its address; bits 2:0 of msksp stay 0 (R78). -/
def State.fillMask (s : State) : Res Word :=
  let p := s.seq.ctl.msksp
  ((s.loadRun s.via 1 (p - 64) 64).spillFault).bind fun t s1 =>
    let vlene := min 65536 (leNat (t.take 4))
    let size := leNat ((t.drop 4).take 4)
    let a := p - BitVec.ofNat 64 size
    ((s1.loadRun s.via 130 a (vlene / 8)).spillFault).bind fun m s2 =>
      ((s2.loadRun s.via 130 (a + BitVec.ofNat 64 (vlene / 8)) (vlene / 8)).spillFault).bind fun e s3 =>
        let entry : MaskEntry := { m := BitVec.ofNat 65536 (leNat m), e := BitVec.ofNat 65536 (leNat e), vlene := vlene, depth := s.seq.vec.mdepth }
        .ok a ((s3.updVec fun v => { v with mstack := [entry] }).updCtl fun c => { c with msksp := a &&& ~~~7 })

/-- The record of an instruction that also accesses n bytes at an address (R309). -/
def VInfo.covers (i : VInfo) (va : Word) (n : Nat) : VInfo :=
  let last := va + BitVec.ofNat 64 (n - 1)
  if n = 0 then i
  else if i.first = 0 ∧ i.last = 0 then { i with first := va, last := last }
  else { i with first := if va.toNat < i.first.toNat then va else i.first, last := if i.last.toNat < last.toNat then last else i.last }

/-- The effect of vmpush; also a pair member's. -/
def doVmpush (s : State) (vs1 : Reg) : Res VInfo :=
  let v := s.seq.vec
  s.vguard true (decide (vs1.toNat < v.nregs)) (
    if v.mdepth = 2 ^ 32 - 1 then s.illegal
    else
      (if 8 ≤ v.mstack.length then s.spill else .ok () s).bind fun _ s1 =>
        let v0 := v.reg 0
        let c := v.reg vs1.toNat
        let e : MaskEntry := { m := v0 &&& lowMask v.vlen, e := v0 &&& ~~~c &&& lowMask v.vl, vlene := v.vlen, depth := v.mdepth + 1 }
        let spilt := if 8 ≤ v.mstack.length then (v.mstack.getLast?.map fun o => o.bytes.length).getD 0 else 0
        .ok ((s.vinfo 9 4320 true).covers s.seq.ctl.msksp spilt)
          (s1.updVec fun w => { w.setReg 0 (v0 &&& (c ||| ~~~lowMask v.vl)) with mstack := e :: w.mstack, mdepth := v.mdepth + 1 }))

/-- The top entry, filled if need be; with it the record of the instruction, which covers the bytes filled (R309). -/
def State.topMask (s : State) (i : VInfo) : Res (MaskEntry × VInfo) :=
  let v := s.seq.vec
  if v.mdepth = 0 then s.illegal
  else
    match v.mstack with
    | e :: _ => .ok (e, i) s
    | [] =>
      s.fillMask.bind fun a s1 =>
        match s1.seq.vec.mstack with
        | e :: _ => .ok (e, (i.covers (s.seq.ctl.msksp - 64) 64).covers a (e.vlene / 8 * 2)) s1
        | [] => s1.illegal

def doVmelse (s : State) : Res VInfo :=
  s.vguard true true ((s.topMask (s.vinfo 9 4321 true)).bind fun (e, i) s1 =>
    .ok i
      (s1.updVec fun w => w.setReg 0 ((w.reg 0 &&& ~~~lowMask w.vl) ||| (e.e &&& lowMask e.vlene &&& lowMask w.vl))))

def doVmpop (s : State) : Res VInfo :=
  s.vguard true true ((s.topMask (s.vinfo 9 4322 true)).bind fun (e, i) s1 =>
    .ok i
      (s1.updVec fun w =>
        { w.setReg 0 ((w.reg 0 &&& ~~~lowMask w.vlen) ||| (e.m &&& lowMask e.vlene &&& lowMask w.vlen)) with
            mstack := w.mstack.drop 1, mdepth := w.mdepth - 1 }))

def doVmdepth (s : State) (rd : Reg) : Res VInfo :=
  s.vguard true true (.ok (s.vinfo 9 4323 true) (s.setX rd (BitVec.ofNat 64 s.seq.vec.mdepth)))

def execVmpush (vs1 : Reg) (s : State) : Host.Outcome State Fault Refusal := finishV (doVmpush s vs1)
def execVmelse (s : State) : Host.Outcome State Fault Refusal := finishV (doVmelse s)
def execVmpop (s : State) : Host.Outcome State Fault Refusal := finishV (doVmpop s)
def execVmdepth (rd : Reg) (s : State) : Host.Outcome State Fault Refusal := finishV (doVmdepth s rd)

/-! ## vidxc (R120) -/

/-- Packs the indices of the active set bits among the first n elements: the vector state and the count. -/
def packIdx (v0 : Vec) (vm : Bool) (vd vs2 w : Nat) : Nat → Vec × Nat
  | 0 => (v0, 0)
  | n + 1 =>
    let r := packIdx v0 vm vd vs2 w n
    if v0.bit vs2 n && v0.active vm n then (r.1.put vd w r.2 n, r.2 + 1) else r

def doVidxc (s : State) (vm : Bool) (rd vd vs2 : Reg) : Res VInfo :=
  let v := s.seq.vec
  let d := v.grp vd.toNat v.sew
  let m := maskGrp vs2.toNat
  let ok := d.ok v.nregs && m.ok v.nregs && !d.overlaps m && (vm || vd.toNat != 0)
  s.vguard true ok (
    let r := packIdx v vm vd.toNat vs2.toNat v.sew v.vl
    .ok (s.vinfo 9 4324 vm) ((s.updVec fun _ => r.1).setX rd (BitVec.ofNat 64 r.2)))

def execVidxc (vm : Bool) (rd vd vs2 : Reg) (s : State) : Host.Outcome State Fault Refusal := finishV (doVidxc s vm rd vd vs2)

/-! ## vwmulx (R123) -/

/-- A number of w bits as a signed integer. -/
def toS (w x : Nat) : Int := sgn w x
/-- The low w bits of an integer. -/
def ofS (w : Nat) (x : Int) : Nat := (x % (2 ^ w : Int)).toNat

/-- The effect of vwmulx with elements of W bits in vs1. -/
def doVwmulx (s : State) (w : Nat) (vm : Bool) (vd vs2 vs1 : Reg) (ord : Nat) : Res VInfo :=
  let v := s.seq.vec
  let dw := 2 * max v.sew w
  let d := v.grp vd.toNat dw
  let a := v.grp vs2.toNat v.sew
  let b := v.grp vs1.toNat w
  let ok := decide (dw ≤ 64) && d.ok v.nregs && a.ok v.nregs && b.ok v.nregs && !d.overlaps a && !d.overlaps b && (vm || vd.toNat != 0)
  s.vguard true ok (
    let r := VAcc.fill ⟨v, 0, false⟩ vd.toNat dw (fun i =>
      if v.active vm i then some (.of (ofS dw (toS v.sew (v.get vs2.toNat v.sew i) * toS w (v.get vs1.toNat w i)))) else none) v.vl
    .ok (s.vinfo 9 ord vm) (s.putV r))

def execVwmulxE8 (vm : Bool) (vd vs2 vs1 : Reg) (s : State) : Host.Outcome State Fault Refusal := finishV (doVwmulx s 8 vm vd vs2 vs1 4332)
def execVwmulxE16 (vm : Bool) (vd vs2 vs1 : Reg) (s : State) : Host.Outcome State Fault Refusal := finishV (doVwmulx s 16 vm vd vs2 vs1 4333)
def execVwmulxE32 (vm : Bool) (vd vs2 vs1 : Reg) (s : State) : Host.Outcome State Fault Refusal := finishV (doVwmulx s 32 vm vd vs2 vs1 4334)
def execVwmulxE64 (vm : Bool) (vd vs2 vs1 : Reg) (s : State) : Host.Outcome State Fault Refusal := finishV (doVwmulx s 64 vm vd vs2 vs1 4335)

end Sys2Proof.Machine
end

