-- ==== Sys2Proof/Machine/VectorInt.lean ====
section
/-! DEFINITION. Elementwise integer vector operations: OPIVV, OPIVX, OPIVI, OPMVV and OPMVX of V 1.0 and Zvbb (R73). -/

namespace Sys2Proof.Machine

/-! ## Element functions on w-bit numbers -/

/-- The rounding increment of a right shift by d (vxrm 0 rnu, 1 rne, 2 rdn, 3 rod). -/
def roundInc (vxrm : BitVec 2) (v : Int) (d : Nat) : Int :=
  if d = 0 then 0
  else
    let r := v % (2 ^ d : Int)
    let half : Int := 2 ^ (d - 1)
    let odd : Bool := v / (2 ^ d : Int) % 2 == 1
    match vxrm.toNat with
    | 0 => if half ≤ r then 1 else 0
    | 1 => if half < r ∨ (r = half ∧ odd) then 1 else 0
    | 2 => 0
    | _ => if r ≠ 0 ∧ !odd then 1 else 0

/-- v shifted right by d with the rounding of vxrm. -/
def roundoff (vxrm : BitVec 2) (v : Int) (d : Nat) : Int := v / (2 ^ d : Int) + roundInc vxrm v d

/-- An integer saturated to w bits. -/
def satS (w : Nat) (x : Int) : Elem :=
  if 2 ^ (w - 1) ≤ x then ⟨2 ^ (w - 1) - 1, 0, true⟩ else if x < -(2 ^ (w - 1) : Int) then ⟨2 ^ (w - 1), 0, true⟩ else .of (ofS w x)
def satU (w : Nat) (x : Int) : Elem :=
  if 2 ^ w ≤ x then ⟨2 ^ w - 1, 0, true⟩ else if x < 0 then ⟨0, 0, true⟩ else .of x.toNat

def divUN (w a b : Nat) : Nat := if b = 0 then 2 ^ w - 1 else a / b
def remUN (a b : Nat) : Nat := if b = 0 then a else a % b
def divSN (w a b : Nat) : Nat := if b = 0 then 2 ^ w - 1 else ofS w (Int.tdiv (toS w a) (toS w b))
def remSN (w a b : Nat) : Nat := if b = 0 then a else ofS w (Int.tmod (toS w a) (toS w b))

def rotR (w a n : Nat) : Nat := (a / 2 ^ (n % w) + a * 2 ^ (w - n % w)) % 2 ^ w
def rotL (w a n : Nat) : Nat := rotR w a (w - n % w)

/-- The low n bits in reverse order. -/
def revBits (x : Nat) : Nat → Nat
  | 0 => 0
  | n + 1 => revBits (x / 2) n + x % 2 * 2 ^ n

/-- The bits of each byte reversed. -/
def brev8 (w x : Nat) : Nat := leNat ((leBytes (w / 8) x).map fun b => BitVec.ofNat 8 (revBits b.toNat 8))
def rev8N (w x : Nat) : Nat := leNat (leBytes (w / 8) x).reverse

/-! ## Plans -/

/-- An elementwise operation: element widths of the destination (1 for a mask), of vs2 and of vs1 (0 where the second
operand is a scalar or there is none), whether vd is a source, whether v0 is an operand and no mask, its CLASS and ordinal, and the
result from the elements of vs2, of vs1, of vd, and the bit of v0. -/
structure EPlan where
  d    : Nat
  a    : Nat
  b    : Nat
  useD : Bool
  all  : Bool
  cls  : Nat
  ord  : Nat
  f    : Nat → Nat → Nat → Bool → Elem

/-- Lammel ordinal of an OP-V instruction outside the unary groups (R86). -/
def opvOrd (f3 f6 : Nat) : Nat := 236 + 64 * f3 + f6

/-- The binary operations of OPI that have one width: by funct6, the forms that exist (vv, vx, vi) and the function. -/
def opiBin (f6 w : Nat) (vxrm : BitVec 2) : Option ((Bool × Bool × Bool) × (Nat → Nat → Elem)) :=
  let u (g : Nat → Nat → Nat) : Nat → Nat → Elem := fun a b => .of (g a b)
  match f6 with
  | 0x00 => some ((true, true, true), u fun a b => (a + b) % 2 ^ w)
  | 0x01 => some ((true, true, false), u fun a b => a &&& (2 ^ w - 1 - b))
  | 0x02 => some ((true, true, false), u fun a b => (a + 2 ^ w - b) % 2 ^ w)
  | 0x03 => some ((false, true, true), u fun a b => (b + 2 ^ w - a) % 2 ^ w)
  | 0x04 => some ((true, true, false), u min)
  | 0x05 => some ((true, true, false), u fun a b => if toS w a < toS w b then a else b)
  | 0x06 => some ((true, true, false), u max)
  | 0x07 => some ((true, true, false), u fun a b => if toS w a < toS w b then b else a)
  | 0x09 => some ((true, true, true), u (· &&& ·))
  | 0x0A => some ((true, true, true), u (· ||| ·))
  | 0x0B => some ((true, true, true), u (· ^^^ ·))
  | 0x14 => some ((true, true, true), u fun a b => rotR w a b)
  | 0x15 => some ((true, true, false), u fun a b => rotL w a b)
  | 0x20 => some ((true, true, true), fun a b => satU w (a + b))
  | 0x21 => some ((true, true, true), fun a b => satS w (toS w a + toS w b))
  | 0x22 => some ((true, true, false), fun a b => satU w ((a : Int) - b))
  | 0x23 => some ((true, true, false), fun a b => satS w (toS w a - toS w b))
  | 0x25 => some ((true, true, true), u fun a b => a * 2 ^ (b % w) % 2 ^ w)
  | 0x27 => some ((true, true, false), fun a b => satS w (roundoff vxrm (toS w a * toS w b) (w - 1)))
  | 0x28 => some ((true, true, true), u fun a b => a / 2 ^ (b % w))
  | 0x29 => some ((true, true, true), u fun a b => ofS w (toS w a / (2 ^ (b % w) : Int)))
  | 0x2A => some ((true, true, true), u fun a b => (roundoff vxrm a (b % w)).toNat % 2 ^ w)
  | 0x2B => some ((true, true, true), u fun a b => ofS w (roundoff vxrm (toS w a) (b % w)))
  | _ => none

/-- The compares of OPI. -/
def opiCmp (f6 w : Nat) : Option ((Bool × Bool × Bool) × (Nat → Nat → Bool)) :=
  match f6 with
  | 0x18 => some ((true, true, true), fun a b => a == b)
  | 0x19 => some ((true, true, true), fun a b => a != b)
  | 0x1A => some ((true, true, false), fun a b => decide (a < b))
  | 0x1B => some ((true, true, false), fun a b => decide (toS w a < toS w b))
  | 0x1C => some ((true, true, true), fun a b => decide (a ≤ b))
  | 0x1D => some ((true, true, true), fun a b => decide (toS w a ≤ toS w b))
  | 0x1E => some ((false, true, true), fun a b => decide (b < a))
  | 0x1F => some ((false, true, true), fun a b => decide (toS w b < toS w a))
  | _ => none

/-- Is a form (funct3 0 vv, 4 vx, 3 vi) among those that exist? -/
def hasForm (fs : Bool × Bool × Bool) (f3 : Nat) : Bool := match f3 with | 0 => fs.1 | 4 => fs.2.1 | 3 => fs.2.2 | _ => false

/-- OPIVV, OPIVX, OPIVI but for the permutations and the widening sums. vror.vi holds bit 5 of its amount in bit 0 of funct6. -/
def opiPlan (f6 f3 w : Nat) (vm : Bool) (vxrm : BitVec 2) : Option EPlan :=
  let bw := if f3 = 0 then w else 0
  let ord := opvOrd f3 f6
  let mask (all : Bool) (g : Nat → Nat → Bool → Bool) : Option EPlan :=
    some ⟨1, w, bw, false, all, 0, ord, fun a b _ c => .of (if g a b c then 1 else 0)⟩
  let wide (g : Nat → Nat → Elem) : Option EPlan := some ⟨w, 2 * w, bw, false, false, 0, ord, fun a b _ _ => g a b⟩
  let carry (c : Bool) : Nat := if c then 1 else 0
  match (if f6 = 0x15 ∧ f3 = 3 then opiBin 0x14 w vxrm else opiBin f6 w vxrm) with
  | some (fs, g) => if hasForm fs f3 then some ⟨w, w, bw, false, false, 0, ord, fun a b _ _ => g a b⟩ else none
  | none =>
    match opiCmp f6 w with
    | some (fs, g) => if hasForm fs f3 then mask false fun a b _ => g a b else none
    | none =>
      match f6 with
      | 0x10 => if vm then none else some ⟨w, w, bw, false, true, 0, ord, fun a b _ c => .of ((a + b + carry c) % 2 ^ w)⟩
      | 0x11 => mask true fun a b c => decide (2 ^ w ≤ a + b + (if vm then 0 else carry c))
      | 0x12 => if vm ∨ f3 = 3 then none else some ⟨w, w, bw, false, true, 0, ord, fun a b _ c => .of ((a + 2 * 2 ^ w - b - carry c) % 2 ^ w)⟩
      | 0x13 => if f3 = 3 then none else mask true fun a b c => decide (a < b + (if vm then 0 else carry c))
      | 0x17 =>
        if vm then none
        else some ⟨w, w, bw, false, true, 0, ord, fun a b _ c => .of (if c then b else a)⟩
      | 0x2C => wide fun a b => .of (a / 2 ^ (b % (2 * w)) % 2 ^ w)
      | 0x2D => wide fun a b => .of (ofS w (toS (2 * w) a / (2 ^ (b % (2 * w)) : Int)))
      | 0x2E => wide fun a b => satU w (roundoff vxrm a (b % (2 * w)))
      | 0x2F => wide fun a b => satS w (roundoff vxrm (toS (2 * w) a) (b % (2 * w)))
      | 0x35 => some ⟨2 * w, w, bw, false, false, 0, ord, fun a b _ _ => .of (a * 2 ^ (b % (2 * w)) % 2 ^ (2 * w))⟩
      | _ => none

/-- The unary operations of VXUNARY0, by the vs1 field. -/
def xunary (sel w : Nat) : Option EPlan :=
  let ord := 748 + 32 * 2 + sel
  let ext (k : Nat) (signed : Bool) : Option EPlan :=
    if w / k < 8 then none
    else some ⟨w, w / k, 0, false, false, 0, ord, fun a _ _ _ => .of (if signed then ofS w (toS (w / k) a) else a)⟩
  let one (g : Nat → Nat) : Option EPlan := some ⟨w, w, 0, false, false, 0, ord, fun a _ _ _ => .of (g a)⟩
  match sel with
  | 2 => ext 8 false | 3 => ext 8 true | 4 => ext 4 false | 5 => ext 4 true | 6 => ext 2 false | 7 => ext 2 true
  | 8 => one (brev8 w) | 9 => one (rev8N w) | 10 => one (revBits · w)
  | 12 => one (clzN w) | 13 => one (ctzN w) | 14 => one (popN · w)
  | _ => none

/-- OPMVV and OPMVX but for reductions, mask operations and permutations. -/
def opmPlan (f6 f3 sel w : Nat) (vxrm : BitVec 2) : Option EPlan :=
  let bw := if f3 = 2 then w else 0
  let ord := opvOrd f3 f6
  let bin (g : Nat → Nat → Nat) : Option EPlan := some ⟨w, w, bw, false, false, 0, ord, fun a b _ _ => .of (g a b)⟩
  let mac (g : Int → Int → Int → Int) : Option EPlan :=
    some ⟨w, w, bw, true, false, 0, ord, fun a b d _ => .of (ofS w (g (toS w a) (toS w b) (toS w d)))⟩
  let wide (aw : Nat) (g : Nat → Nat → Int) : Option EPlan := some ⟨2 * w, aw, bw, false, false, 0, ord, fun a b _ _ => .of (ofS (2 * w) (g a b))⟩
  let wmac (g : Nat → Nat → Int) : Option EPlan :=
    some ⟨2 * w, w, bw, true, false, 0, ord, fun a b d _ => .of (ofS (2 * w) (g a b + d))⟩
  let s := toS w
  match f6 with
  | 0x08 => bin fun a b => (roundoff vxrm (a + b : Nat) 1).toNat % 2 ^ w
  | 0x09 => bin fun a b => ofS w (roundoff vxrm (s a + s b) 1)
  | 0x0A => bin fun a b => ofS w (roundoff vxrm ((a : Int) - b) 1)
  | 0x0B => bin fun a b => ofS w (roundoff vxrm (s a - s b) 1)
  | 0x12 => if f3 = 2 then xunary sel w else none
  | 0x20 => bin (divUN w)
  | 0x21 => bin (divSN w)
  | 0x22 => bin remUN
  | 0x23 => bin (remSN w)
  | 0x24 => bin fun a b => a * b / 2 ^ w
  | 0x25 => bin fun a b => a * b % 2 ^ w
  | 0x26 => bin fun a b => ofS w (s a * b / (2 ^ w : Int))
  | 0x27 => bin fun a b => ofS w (s a * s b / (2 ^ w : Int))
  | 0x29 => mac fun a b d => b * d + a
  | 0x2B => mac fun a b d => -(b * d) + a
  | 0x2D => mac fun a b d => b * a + d
  | 0x2F => mac fun a b d => -(b * a) + d
  | 0x30 => wide w fun a b => a + b
  | 0x31 => wide w fun a b => s a + s b
  | 0x32 => wide w fun a b => (a : Int) - b
  | 0x33 => wide w fun a b => s a - s b
  | 0x34 => wide (2 * w) fun a b => a + b
  | 0x35 => wide (2 * w) fun a b => toS (2 * w) a + s b
  | 0x36 => wide (2 * w) fun a b => (a : Int) - b
  | 0x37 => wide (2 * w) fun a b => toS (2 * w) a - s b
  | 0x38 => wide w fun a b => a * b
  | 0x3A => wide w fun a b => s a * b
  | 0x3B => wide w fun a b => s a * s b
  | 0x3C => wmac fun a b => b * a
  | 0x3D => wmac fun a b => s b * s a
  | 0x3E => if f3 = 6 then wmac fun a b => b * s a else none
  | 0x3F => wmac fun a b => s b * a
  | _ => none

end Sys2Proof.Machine
end

