-- ==== Sys2Proof/Machine/VectorFloat.lean ====
section
/-! DEFINITION. Elementwise floating-point vector operations: OPFVV and OPFVF of V 1.0 and Zvfh (R73). -/

namespace Sys2Proof.Machine

/-- A value with its flags as an element. -/
def Elem.fl2 (p : Nat × BitVec 5) : Elem := ⟨p.1, p.2, false⟩
/-- A truth value with its flags as a mask element. -/
def Elem.cmp (p : Bool × BitVec 5) : Elem := ⟨if p.1 then 1 else 0, p.2, false⟩

/-- Is w a floating-point element width? -/
def fpWidth (w : Nat) : Bool := w == 16 || w == 32 || w == 64

/-- A code as the vector operations read it: outside the standard F, D and Zfh instructions a signalling NaN counts as
a quiet one (R167). -/
def FFmt.quieted (f : FFmt) (x : Nat) : Nat := if (f.unpack x).isNan then x ||| 2 ^ (f.m - 1) else x

/-- The datum of a code, its NaN quiet (R167). -/
def FFmt.datum (f : FFmt) (x : Nat) : FVal := f.unpack (f.quieted x)

/-- The conversions of VFUNARY0, by the vs1 field, under SEW w. -/
def funary0 (sel w : Nat) (rm : Rm) : Option EPlan :=
  let ord := 748 + 32 * 6 + sel
  let plan (d a : Nat) (ok : Bool) (g : Nat → Nat × BitVec 5) : Option EPlan :=
    if ok then some ⟨d, a, 0, false, false, 0, ord, fun a _ _ _ => .fl2 (g a)⟩ else none
  let toI (d a : Nat) (sg : Bool) (r : Rm) : Option EPlan := plan d a (fpWidth a) fun x => fToInt r sg d ((fmtOfWidth a).datum x)
  let ofI (d a : Nat) (sg : Bool) : Option EPlan := plan d a (fpWidth d) fun x => intToF (fmtOfWidth d) rm sg a x
  let ofF (d a : Nat) (r : Rm) : Option EPlan := plan d a (fpWidth d && fpWidth a) fun x => (fmtOfWidth d).pack r ((fmtOfWidth a).datum x)
  match sel with
  | 0 => toI w w false rm | 1 => toI w w true rm | 2 => ofI w w false | 3 => ofI w w true
  | 6 => toI w w false .rtz | 7 => toI w w true .rtz
  | 8 => toI (2 * w) w false rm | 9 => toI (2 * w) w true rm | 10 => ofI (2 * w) w false | 11 => ofI (2 * w) w true
  | 12 => ofF (2 * w) w rm | 14 => toI (2 * w) w false .rtz | 15 => toI (2 * w) w true .rtz
  | 16 => toI w (2 * w) false rm | 17 => toI w (2 * w) true rm | 18 => ofI w (2 * w) false | 19 => ofI w (2 * w) true
  | 20 => ofF w (2 * w) rm | 21 => ofF w (2 * w) .rod | 22 => toI w (2 * w) false .rtz | 23 => toI w (2 * w) true .rtz
  | _ => none

/-- VFUNARY1. -/
def funary1 (sel w : Nat) (rm : Rm) : Option EPlan :=
  let f := fmtOfWidth w
  let ord := 748 + 32 * 7 + sel
  let one (g : Nat → Nat × BitVec 5) : Option EPlan :=
    if fpWidth w then some ⟨w, w, 0, false, false, 0, ord, fun a _ _ _ => .fl2 (g (f.quieted a))⟩ else none
  match sel with
  | 0 => one fun x => f.finish rm (fSqrt (f.unpack x))
  | 4 => one f.rsqrt7
  | 5 => one (f.recip7 rm)
  | 16 => one fun x => (f.classify x, 0)
  | _ => none

/-- OPFVV and OPFVF but for reductions and permutations. -/
def opfPlan (f6 f3 sel w : Nat) (vm : Bool) (rm : Rm) : Option EPlan :=
  let vv := f3 == 1
  let bw := if vv then w else 0
  let f := fmtOfWidth w
  let g := fmtOfWidth (2 * w)
  let ord := opvOrd f3 f6
  let bin (op : FVal → FVal → FRes) : Option EPlan :=
    some ⟨w, w, bw, false, false, 0, ord, fun a b _ _ => .fl2 (f.finish rm (op (f.datum a) (f.datum b)))⟩
  let raw (op : Nat → Nat → Nat × BitVec 5) : Option EPlan := some ⟨w, w, bw, false, false, 0, ord, fun a b _ _ => .fl2 (op a b)⟩
  let pick (mx : Bool) : Option EPlan := raw fun a b => f.minmax mx (f.quieted a) (f.quieted b)
  let cmp (op : FVal → FVal → Bool × BitVec 5) : Option EPlan :=
    some ⟨1, w, bw, false, false, 0, ord, fun a b _ _ => .cmp (op (f.datum a) (f.datum b))⟩
  let fma (op : FVal → FVal → FVal → FRes) : Option EPlan :=
    some ⟨w, w, bw, true, false, 0, ord, fun a b d _ => .fl2 (f.finish rm (op (f.datum a) (f.datum b) (f.datum d)))⟩
  let wide (aw : Nat) (op : FVal → FVal → FRes) : Option EPlan :=
    if w = 64 then none
    else some ⟨2 * w, aw, bw, false, false, 0, ord, fun a b _ _ => .fl2 (g.finish rm (op ((fmtOfWidth aw).datum a) (f.datum b)))⟩
  let wfma (op : FVal → FVal → FVal → FRes) : Option EPlan :=
    if w = 64 then none
    else some ⟨2 * w, w, bw, true, false, 0, ord, fun a b d _ => .fl2 (g.finish rm (op (f.datum a) (f.datum b) (g.datum d)))⟩
  let fOnly (p : Option EPlan) : Option EPlan := if vv then none else p
  if f6 = 0x12 then (if vv then funary0 sel w rm else none)
  else if !fpWidth w then none
  else
    match f6 with
    | 0x00 => bin (fAdd rm)
    | 0x02 => bin (fSub rm)
    | 0x04 => pick false
    | 0x06 => pick true
    | 0x08 => raw fun a b => (f.sgnj 0 a b, 0)
    | 0x09 => raw fun a b => (f.sgnj 1 a b, 0)
    | 0x0A => raw fun a b => (f.sgnj 2 a b, 0)
    | 0x13 => if vv then funary1 sel w rm else none
    | 0x17 => if vm then none else fOnly (some ⟨w, w, bw, false, true, 0, ord, fun a b _ c => .of (if c then b else a)⟩)
    | 0x18 => cmp fEq
    | 0x19 => cmp fLe
    | 0x1B => cmp fLt
    | 0x1C => cmp fun a b => let r := fEq a b; (!r.1, r.2)
    | 0x1D => fOnly (cmp fun a b => fLt b a)
    | 0x1F => fOnly (cmp fun a b => fLe b a)
    | 0x20 => bin fDiv
    | 0x21 => fOnly (bin fun a b => fDiv b a)
    | 0x24 => bin fMul
    | 0x27 => fOnly (bin fun a b => fSub rm b a)
    | 0x28 => fma fun a b d => fMulAdd rm b d a
    | 0x29 => fma fun a b d => fMulAdd rm b.flip d a.flip
    | 0x2A => fma fun a b d => fMulAdd rm b d a.flip
    | 0x2B => fma fun a b d => fMulAdd rm b.flip d a
    | 0x2C => fma fun a b d => fMulAdd rm b a d
    | 0x2D => fma fun a b d => fMulAdd rm b.flip a d.flip
    | 0x2E => fma fun a b d => fMulAdd rm b a d.flip
    | 0x2F => fma fun a b d => fMulAdd rm b.flip a d
    | 0x30 => wide w (fAdd rm)
    | 0x32 => wide w (fSub rm)
    | 0x34 => wide (2 * w) (fAdd rm)
    | 0x36 => wide (2 * w) (fSub rm)
    | 0x38 => wide w fMul
    | 0x3C => wfma fun a b d => fMulAdd rm b a d
    | 0x3D => wfma fun a b d => fMulAdd rm b.flip a d.flip
    | 0x3E => wfma fun a b d => fMulAdd rm b a d.flip
    | 0x3F => wfma fun a b d => fMulAdd rm b.flip a d
    | _ => none

end Sys2Proof.Machine
end

