-- ==== Sys2Proof/Machine/VectorArith.lean ====
section
/-! DEFINITION. OP-V arithmetic (R73 to R75, R122): elementwise plans, reductions, mask operations, permutations, moves. -/

namespace Sys2Proof.Machine

/-! ## Elementwise operations -/

/-- Runs a plan; `sc` is the scalar second operand. -/
def State.runPlan (s : State) (p : EPlan) (vm : Bool) (vd vs2 vs1 sc : Nat) : Res VInfo :=
  let v := s.seq.vec
  let d : Grp := if p.d = 1 then maskGrp vd else v.grp vd p.d
  let srcs := v.grp vs2 p.a :: ((if p.b ≠ 0 then [v.grp vs1 p.b] else []) ++ (if p.useD then [v.grp vd p.d] else []))
  s.vguard true (decide (p.d ≤ 64 ∧ p.a ≤ 64) && v.legal vm d srcs) (
    let a := VAcc.fill ⟨v, 0, false⟩ vd p.d (fun i =>
      if p.all || v.active vm i then
        some (p.f (v.get vs2 p.a i) (if p.b ≠ 0 then v.get vs1 p.b i else sc) (if p.useD then v.get vd p.d i else 0) (v.bit 0 i))
      else none) v.vl
    .ok (s.vinfo p.cls p.ord vm) (s.putV a))

/-! ## Reductions (R75, R122) -/

/-- The active elements below n, ascending. -/
def Vec.activeElems (v : Vec) (vm : Bool) (r w : Nat) : Nat → List Nat
  | 0 => []
  | n + 1 => v.activeElems vm r w n ++ (if v.active vm n then [v.get r w n] else [])

/-- One level of the tree of R75. -/
def pairUp (add : Nat → Nat → Nat × BitVec 5) : List Nat → List Nat × BitVec 5
  | a :: b :: rest => let p := add a b; let q := pairUp add rest; (p.1 :: q.1, p.2 ||| q.2)
  | l => (l, 0)

/-- The tree of R75, at most n levels. -/
def treeSum (add : Nat → Nat → Nat × BitVec 5) : Nat → List Nat → BitVec 5 → List Nat × BitVec 5
  | 0, l, fl => (l, fl)
  | n + 1, l, fl =>
    match l with
    | _ :: _ :: _ => let p := pairUp add l; treeSum add n p.1 (fl ||| p.2)
    | _ => (l, fl)

/-- The sequential order, from the scalar. -/
def seqSum (add : Nat → Nat → Nat × BitVec 5) (x : Nat) (l : List Nat) : Nat × BitVec 5 :=
  l.foldl (fun a e => let p := add a.1 e; (p.1, a.2 ||| p.2)) (x, 0)

def treeTotal (add : Nat → Nat → Nat × BitVec 5) (x : Nat) (l : List Nat) : Nat × BitVec 5 :=
  let t := treeSum add 20 l 0
  match t.1 with
  | [] => (x, t.2)
  | e :: _ => let p := add x e; (p.1, t.2 ||| p.2)

/-- A reduction: width of vs2's elements, of the result, and the result from vs1[0] and the active elements. -/
def State.reduce (s : State) (vm : Bool) (vd vs2 vs1 a d ord : Nat) (g : Nat → List Nat → Nat × BitVec 5) : Res VInfo :=
  let v := s.seq.vec
  let one (r : Nat) : Grp := ⟨r, d, 8⟩
  s.vguard true (decide (d ≤ 64) && (one vd).ok v.nregs && v.legalSrcs vm [v.grp vs2 a, one vs1]) (
    if v.vl = 0 then .ok (s.vinfo 8 ord vm) s
    else
      let r := g (v.get vs1 d 0) (v.activeElems vm vs2 a v.vl)
      .ok (s.vinfo 8 ord vm) (s.putV ⟨v.put vd d 0 r.1, r.2, false⟩))

/-- The integer reductions of OPMVV, by funct6 0 to 7. -/
def redOp (f6 w a b : Nat) : Nat :=
  match f6 with
  | 0 => (a + b) % 2 ^ w
  | 1 => a &&& b
  | 2 => a ||| b
  | 3 => a ^^^ b
  | 4 => min a b
  | 5 => if toS w a < toS w b then a else b
  | 6 => max a b
  | _ => if toS w a < toS w b then b else a

/-- The floating-point reductions, by funct6. -/
def State.fpReduce (s : State) (f6 : Nat) (rm : Rm) (vm : Bool) (vd vs2 vs1 : Nat) : Res VInfo :=
  let w := s.seq.vec.sew
  let ord := opvOrd 1 f6
  let f := fmtOfWidth w
  let g := fmtOfWidth (2 * w)
  let add (k : FFmt) : Nat → Nat → Nat × BitVec 5 := fun a b => k.finish rm (fAdd rm (k.datum a) (k.datum b))
  let pick (mx : Bool) : Nat → Nat → Nat × BitVec 5 := fun a b => f.minmax mx (f.quieted a) (f.quieted b)
  let widen (l : List Nat) : List Nat := l.map fun x => (g.pack .rne (f.datum x)).1
  if !fpWidth w then s.illegal
  else
    match f6 with
    | 0x01 => s.reduce vm vd vs2 vs1 w w ord (treeTotal (add f))
    | 0x03 => s.reduce vm vd vs2 vs1 w w ord (seqSum (add f))
    | 0x05 => s.reduce vm vd vs2 vs1 w w ord (seqSum (pick false))
    | 0x07 => s.reduce vm vd vs2 vs1 w w ord (seqSum (pick true))
    | 0x31 => s.reduce vm vd vs2 vs1 w (2 * w) ord fun x l => treeTotal (add g) x (widen l)
    | _ => s.reduce vm vd vs2 vs1 w (2 * w) ord fun x l => seqSum (add g) x (widen l)

/-! ## Permutations -/

/-- A permutation: legal when vd shares no register with its sources, and writes the elements that g gives. -/
def State.permute (s : State) (apart : Bool) (vm : Bool) (vd : Nat) (srcs : List Grp) (ord : Nat) (g : Nat → Option Nat) : Res VInfo :=
  let v := s.seq.vec
  let d := v.grp vd v.sew
  s.vguard true (v.legal vm d srcs && (!apart || srcs.all fun x => !d.overlaps x)) (
    let a := VAcc.fill ⟨v, 0, false⟩ vd v.sew (fun i => if v.active vm i then (g i).map Elem.of else none) v.vl
    .ok (s.vinfo 7 ord vm) (s.putV a))

/-- Element k of vs2, or 0 at or above VLMAX. -/
def Vec.pick (v : Vec) (vs2 k : Nat) : Nat := if v.vlmax ≤ k then 0 else v.get vs2 v.sew k

/-- Slides up by an offset; elements below it are left. -/
def State.slideUp (s : State) (vm : Bool) (vd vs2 off ord : Nat) : Res VInfo :=
  let v := s.seq.vec
  s.permute true vm vd [v.grp vs2 v.sew] ord fun i => if i < off then none else some (v.get vs2 v.sew (i - off))
def State.slideDown (s : State) (vm : Bool) (vd vs2 off ord : Nat) : Res VInfo :=
  let v := s.seq.vec
  s.permute false vm vd [v.grp vs2 v.sew] ord fun i => some (v.pick vs2 (i + off))
/-- Slides by one, with a scalar in the place that opens. -/
def State.slide1Up (s : State) (vm : Bool) (vd vs2 x ord : Nat) : Res VInfo :=
  let v := s.seq.vec
  s.permute true vm vd [v.grp vs2 v.sew] ord fun i => some (if i = 0 then x else v.get vs2 v.sew (i - 1))
def State.slide1Down (s : State) (vm : Bool) (vd vs2 x ord : Nat) : Res VInfo :=
  let v := s.seq.vec
  s.permute false vm vd [v.grp vs2 v.sew] ord fun i => some (if i + 1 = v.vl then x else v.get vs2 v.sew (i + 1))

/-- Packs the elements of vs2 whose bit of vs1 is set, below n. -/
def compressN (v : Vec) (vd vs2 vs1 : Nat) : Nat → Vec × Nat
  | 0 => (v, 0)
  | n + 1 =>
    let r := compressN v vd vs2 vs1 n
    if v.bit vs1 n then (r.1.put vd v.sew r.2 (v.get vs2 v.sew n), r.2 + 1) else r

def State.compress (s : State) (vd vs2 vs1 ord : Nat) : Res VInfo :=
  let v := s.seq.vec
  let d := v.grp vd v.sew
  let m := maskGrp vs1
  let a := v.grp vs2 v.sew
  s.vguard true (v.legal true d [a, m] && !d.overlaps a && !d.overlaps m) (
    .ok (s.vinfo 7 ord true) (s.updVec fun _ => (compressN v vd vs2 vs1 v.vl).1))

/-- vmv<nr>r.v: nr whole registers. -/
def State.moveRegs (s : State) (vd vs2 nr : Nat) : Res VInfo :=
  let v := s.seq.vec
  let g (r : Nat) : Grp := ⟨r, 8, 8 * nr⟩
  let ord := match nr with | 1 => 1011 | 2 => 1012 | 4 => 1013 | _ => 1014
  s.vguard true ((g vd).ok v.nregs && (g vs2).ok v.nregs) (
    .ok (s.vinfo 7 ord true) (s.updVec fun _ => (List.range nr).foldl (fun w i => w.setReg (vd + i) (v.reg (vs2 + i))) v))

/-- Splats a scalar, or copies a group: vmv.v.* and vfmv.v.f. -/
def State.splat (s : State) (vd : Nat) (src : Option Nat) (x ord : Nat) : Res VInfo :=
  let v := s.seq.vec
  let srcs := match src with | some r => [v.grp r v.sew] | none => []
  s.vguard true (v.legal true (v.grp vd v.sew) srcs) (
    let a := VAcc.fill ⟨v, 0, false⟩ vd v.sew (fun i => some (.of (match src with | some r => v.get r v.sew i | none => x))) v.vl
    .ok (s.vinfo 0 ord true) (s.putV a))

/-- Writes element 0 where vl is not 0: vmv.s.x and vfmv.s.f. -/
def State.moveIn (s : State) (vd x ord : Nat) : Res VInfo :=
  let v := s.seq.vec
  s.vguard true (decide (vd < v.nregs)) (
    .ok (s.vinfo 7 ord true) (if v.vl = 0 then s else s.updVec fun _ => v.put vd v.sew 0 x))

/-! ## Mask operations -/

/-- The logical operations of OPMVV, funct6 0x18 to 0x1F. -/
def maskLogic (f6 : Nat) (a b : Bool) : Bool :=
  match f6 with
  | 0x18 => a && !b
  | 0x19 => a && b
  | 0x1A => a || b
  | 0x1B => a ^^ b
  | 0x1C => a || !b
  | 0x1D => !(a && b)
  | 0x1E => !(a || b)
  | _ => !(a ^^ b)

def State.maskOp (s : State) (f6 vd vs2 vs1 : Nat) : Res VInfo :=
  let v := s.seq.vec
  s.vguard true (decide (vd < v.nregs ∧ vs2 < v.nregs ∧ vs1 < v.nregs)) (
    let a := VAcc.fill ⟨v, 0, false⟩ vd 1 (fun i => some (.of (if maskLogic f6 (v.bit vs2 i) (v.bit vs1 i) then 1 else 0))) v.vl
    .ok (s.vinfo 7 (opvOrd 2 f6) true) (s.putV a))

/-- Active set bits of a mask below n. -/
def Vec.countSet (v : Vec) (vm : Bool) (r : Nat) : Nat → Nat
  | 0 => 0
  | n + 1 => v.countSet vm r n + (if v.bit r n && v.active vm n then 1 else 0)

/-- The first active set bit below n. -/
def Vec.firstSet (v : Vec) (vm : Bool) (r : Nat) : Nat → Option Nat
  | 0 => none
  | n + 1 =>
    match v.firstSet vm r n with
    | some i => some i
    | none => if v.bit r n && v.active vm n then some n else none

/-- vmsbf, vmsof and vmsif (sel 1, 2, 3). -/
def State.maskSet (s : State) (sel : Nat) (vm : Bool) (vd vs2 : Nat) : Res VInfo :=
  let v := s.seq.vec
  s.vguard true (decide (vd < v.nregs ∧ vs2 < v.nregs ∧ vd ≠ vs2) && (vm || vd != 0)) (
    let p := v.firstSet vm vs2 v.vl
    let g (i : Nat) : Bool := match p with
      | none => sel != 2
      | some k => match sel with | 1 => decide (i < k) | 2 => i == k | _ => decide (i ≤ k)
    let a := VAcc.fill ⟨v, 0, false⟩ vd 1 (fun i => if v.active vm i then some (.of (if g i then 1 else 0)) else none) v.vl
    .ok (s.vinfo 7 (748 + 32 * 3 + sel) vm) (s.putV a))

/-- viota.m and vid.v. -/
def State.iota (s : State) (id vm : Bool) (vd vs2 : Nat) : Res VInfo :=
  let v := s.seq.vec
  let d := v.grp vd v.sew
  let m := maskGrp vs2
  s.vguard true (v.legal vm d [] && (id || (decide (vs2 < v.nregs) && !d.overlaps m))) (
    let a := VAcc.fill ⟨v, 0, false⟩ vd v.sew (fun i => if v.active vm i then some (.of (if id then i else v.countSet vm vs2 i)) else none) v.vl
    .ok (s.vinfo 7 (748 + 32 * 3 + (if id then 17 else 16)) vm) (s.putV a))

/-! ## Moves to scalar registers -/

/-- vmv.x.s, vcpop.m and vfirst.m (sel 0, 16, 17). -/
def State.moveOut (s : State) (sel : Nat) (vm : Bool) (rd : Reg) (vs2 : Nat) : Res VInfo :=
  let v := s.seq.vec
  let x : Word := match sel with
    | 0 => sextN v.sew (v.get vs2 v.sew 0)
    | 16 => BitVec.ofNat 64 (v.countSet vm vs2 v.vl)
    | _ => match v.firstSet vm vs2 v.vl with | some i => BitVec.ofNat 64 i | none => BitVec.allOnes 64
  s.vguard true (decide (vs2 < v.nregs)) (.ok (s.vinfo 7 (748 + sel) vm) (s.setX rd x))

def State.moveOutF (s : State) (rd : Reg) (vs2 : Nat) : Res VInfo :=
  let v := s.seq.vec
  s.vguard true (decide (vs2 < v.nregs) && fpWidth v.sew) (
    .ok (s.vinfo 7 (748 + 32 * 4) true) (s.putF rd (nanBox (v.sew / 8) (v.get vs2 v.sew 0))))

/-! ## OP-V by funct3 and funct6 -/

/-- The scalar second operand of OPI: the x register's low SEW bits, or the immediate (unsigned for shifts and permutations). -/
def opiScalar (f6 f3 w : Nat) (vs1 : Reg) (x : Word) : Nat :=
  if f3 = 4 then x.toNat % 2 ^ w
  else if [0x14, 0x25, 0x28, 0x29, 0x2A, 0x2B, 0x2C, 0x2D, 0x2E, 0x2F, 0x35].contains f6 then vs1.toNat
  else if f6 = 0x15 then 32 + vs1.toNat
  else ofS w vs1.toInt

/-- OPIVV (0), OPIVX (4), OPIVI (3). -/
def doOpi (s : State) (f6 : Nat) (vm : Bool) (vs2 vs1 : Reg) (f3 : Nat) (vd : Reg) : Res VInfo :=
  let v := s.seq.vec
  let w := v.sew
  let d := vd.toNat
  let a := vs2.toNat
  let b := vs1.toNat
  let ord := opvOrd f3 f6
  let k := if f3 = 4 then (s.x vs1).toNat else b
  match f6 with
  | 0x0C =>
    if f3 = 0 then
      s.permute true vm d [v.grp a w, v.grp b w] ord fun i => some (v.pick a (v.get b w i))
    else s.permute true vm d [v.grp a w] ord fun _ => some (v.pick a k)
  | 0x0E =>
    if f3 = 0 then s.permute true vm d [v.grp a w, v.grp b 16] ord fun i => some (v.pick a (v.get b 16 i))
    else s.slideUp vm d a k ord
  | 0x0F => if f3 = 0 then s.illegal else s.slideDown vm d a k ord
  | 0x17 =>
    if vm then
      if a ≠ 0 then s.illegal
      else
        match f3 with
        | 0 => s.splat d (some b) 0 1007
        | 4 => s.splat d none (opiScalar f6 f3 w vs1 (s.x vs1)) 1008
        | _ => s.splat d none (opiScalar f6 f3 w vs1 (s.x vs1)) 1009
    else
      match opiPlan f6 f3 w vm v.vxrm with
      | some p => s.runPlan p vm d a b (opiScalar f6 f3 w vs1 (s.x vs1))
      | none => s.illegal
  | 0x30 =>
    if f3 = 0 then s.reduce vm d a b w (2 * w) ord fun x l => ((l.foldl (· + ·) x) % 2 ^ (2 * w), 0)
    else s.illegal
  | 0x31 =>
    if f3 = 0 then s.reduce vm d a b w (2 * w) ord fun x l => (ofS (2 * w) (l.foldl (fun (t : Int) e => t + toS w e) x), 0)
    else s.illegal
  | _ =>
    if f6 = 0x27 ∧ f3 = 3 then
      if vm ∧ (b = 0 ∨ b = 1 ∨ b = 3 ∨ b = 7) then s.moveRegs d a (b + 1) else s.illegal
    else
      match opiPlan f6 f3 w vm v.vxrm with
      | some p => s.runPlan p vm d a b (opiScalar f6 f3 w vs1 (s.x vs1))
      | none => s.illegal

/-- OPMVV (2) and OPMVX (6). -/
def doOpm (s : State) (f6 : Nat) (vm : Bool) (vs2 vs1 : Reg) (f3 : Nat) (vd : Reg) : Res VInfo :=
  let v := s.seq.vec
  let w := v.sew
  let d := vd.toNat
  let a := vs2.toNat
  let b := vs1.toNat
  let ord := opvOrd f3 f6
  let sc := (s.x vs1).toNat % 2 ^ w
  if f3 = 2 ∧ f6 ≤ 7 then s.reduce vm d a b w w ord fun x l => (l.foldl (redOp f6 w) x, 0)
  else if f3 = 2 ∧ 0x18 ≤ f6 ∧ f6 ≤ 0x1F then (if vm then s.maskOp f6 d a b else s.illegal)
  else
    match f6 with
    | 0x0E => if f3 = 6 then s.slide1Up vm d a sc ord else s.illegal
    | 0x0F => if f3 = 6 then s.slide1Down vm d a sc ord else s.illegal
    | 0x10 =>
      if f3 = 2 then
        (if (b = 0 ∧ vm) ∨ b = 16 ∨ b = 17 then s.moveOut b vm vd a else s.illegal)
      else if vm ∧ a = 0 then s.moveIn d sc (748 + 32) else s.illegal
    | 0x14 =>
      if f3 ≠ 2 then s.illegal
      else if 1 ≤ b ∧ b ≤ 3 then s.maskSet b vm d a
      else if b = 16 then s.iota false vm d a
      else if b = 17 ∧ a = 0 then s.iota true vm d a
      else s.illegal
    | 0x17 => if f3 = 2 ∧ vm then s.compress d a b ord else s.illegal
    | _ =>
      match opmPlan f6 f3 b w v.vxrm with
      | some p => s.runPlan p vm d a b sc
      | none => s.illegal

/-- OPFVV (1) and OPFVF (5): a reserved frm, or FS off, is cause 2. -/
def doOpf (s : State) (f6 : Nat) (vm : Bool) (vs2 vs1 : Reg) (f3 : Nat) (vd : Reg) : Res VInfo :=
  let v := s.seq.vec
  let w := v.sew
  let d := vd.toNat
  let a := vs2.toNat
  let b := vs1.toNat
  let ord := opvOrd f3 f6
  let sc := unbox (fmtOfWidth w) (s.f vs1)
  match rmOf s.seq.frm 7 with
  | none => s.illegal
  | some rm =>
    if !s.fpOn then s.illegal
    else if f3 = 1 ∧ [0x01, 0x03, 0x05, 0x07, 0x31, 0x33].contains f6 then s.fpReduce f6 rm vm d a b
    else
      match f6 with
      | 0x0E => if f3 = 5 ∧ fpWidth w then s.slide1Up vm d a sc ord else s.illegal
      | 0x0F => if f3 = 5 ∧ fpWidth w then s.slide1Down vm d a sc ord else s.illegal
      | 0x10 =>
        if f3 = 1 then (if vm ∧ b = 0 then s.moveOutF vd a else s.illegal)
        else if vm ∧ a = 0 ∧ fpWidth w then s.moveIn d sc (748 + 32 * 5) else s.illegal
      | 0x17 =>
        if vm then (if f3 = 5 ∧ a = 0 ∧ fpWidth w then s.splat d none sc 1010 else s.illegal)
        else
          match opfPlan f6 f3 b w vm rm with
          | some p => s.runPlan p vm d a b sc
          | none => s.illegal
      | _ =>
        match opfPlan f6 f3 b w vm rm with
        | some p => s.runPlan p vm d a b sc
        | none => s.illegal

/-- The effect of an OP-V arithmetic instruction; also a pair member's. -/
def doVArith (s : State) (funct6 : BitVec 6) (vm : Bool) (vs2 vs1 : Reg) (funct3 : BitVec 3) (vd : Reg) : Res VInfo :=
  match funct3.toNat with
  | 0 | 3 | 4 => doOpi s funct6.toNat vm vs2 vs1 funct3.toNat vd
  | 2 | 6 => doOpm s funct6.toNat vm vs2 vs1 funct3.toNat vd
  | 1 | 5 => doOpf s funct6.toNat vm vs2 vs1 funct3.toNat vd
  | _ => s.illegal

def execVectorArithmetic (funct6 : BitVec 6) (vm : Bool) (vs2 vs1 : Reg) (funct3 : BitVec 3) (vd : Reg) (s : State) :
    Host.Outcome State Fault Refusal := finishV (doVArith s funct6 vm vs2 vs1 funct3 vd)

end Sys2Proof.Machine
end

