-- ==== Sys2Proof/Machine/VectorMemory.lean ====
section
/-! DEFINITION. Vector loads and stores (R73, R74 items 3 and 4, R148), invariant vector loads (R147) and the MX segment
store (R149, R150). -/

namespace Sys2Proof.Machine

/-! ## Elements in ascending order with a first fault -/

/-- Performs f for the active elements below n in ascending order. A trap at element i > 0 ends the run with `some i` and nothing of the element;
one at element 0 is taken (R74, R148). -/
def runElems (act : Nat → Bool) (f : Nat → State → Res Unit) : Nat → State → Res (Option Nat)
  | 0, s => .ok none s
  | n + 1, s =>
    match runElems act f n s with
    | .ok none s1 =>
      if act n then
        match f n s1 with
        | .ok _ s2 => .ok none s2
        | .trap c v _ => if n = 0 then .trap c v s else .ok (some n) s1
        | .stall w s2 => .stall w s2
      else .ok none s1
    | r => r

/-- Performs f for elements 0 .. n - 1; any trap is taken. -/
def runAll (f : Nat → State → Res Unit) : Nat → State → Res Unit
  | 0, s => .ok () s
  | n + 1, s => (runAll f n s).bind fun _ s1 => f n s1

/-- The bytes of an access: base address of element i and its bytes; lowest and highest address over active elements below n. -/
def addrRange (act : Nat → Bool) (addr : Nat → Word) (bytes : Nat) : Nat → Option (Nat × Nat)
  | 0 => none
  | n + 1 =>
    let r := addrRange act addr bytes n
    if act n then
      let lo := (addr n).toNat
      let hi := (addr n + BitVec.ofNat 64 (bytes - 1)).toNat
      match r with
      | none => some (lo, hi)
      | some (l, h) => some (min l lo, max h hi)
    else r

/-- The record of an access that performed n elements. -/
def vmemInfo (cls ord : Nat) (vm trunc : Bool) (act : Nat → Bool) (addr : Nat → Word) (bytes n pop : Nat) : VInfo :=
  let r := (addrRange act addr bytes n).getD (0, 0)
  { first := BitVec.ofNat 64 r.1, last := BitVec.ofNat 64 r.2, trunc := trunc, cls := cls, ord := ord, masked := !vm, pop := pop }

/-- Fields 0 .. n - 1 of a segment, each of b bytes, read before any is written. -/
def State.loadFields (s : State) (via : Via) (inv : Bool) (va : Word) (b : Nat) : Nat → Res (List Nat)
  | 0 => .ok [] s
  | n + 1 =>
    (s.loadFields via inv va b n).bind fun l s1 =>
      (s1.loadAt via (va + BitVec.ofNat 64 (n * b)) b inv).bind fun bs s2 => .ok (l ++ [leNat bs]) s2

/-- A load that waits has written no register. -/
def Res.keepVec {α : Type} (v : Vec) (r : Res α) : Res α :=
  match r with
  | .stall w s => .stall w (s.updVec fun _ => v)
  | r => r

/-- Where the active elements below n lie, as the access has just found them. -/
def State.elemLocs (s : State) (via : Via) (ak : AKind) (act : Nat → Bool) (addr : Nat → Word) (bytes : Nat) : Nat → List Loc
  | 0 => []
  | n + 1 =>
    let l := s.elemLocs via ak act addr bytes n
    if act n then l ++ ((s.locate via (addr n) bytes ak).value?).getD [] else l

/-- A load of segments of nf fields of w bits into groups of `step` registers from vd. -/
def State.loadSegs (s : State) (inv vm : Bool) (addr : Nat → Word) (w nf vd step cls ord : Nat) : Res VInfo :=
  let v := s.seq.vec
  let via := s.via
  let act := v.active vm
  ((runElems act (fun i st =>
      (st.loadFields via inv (addr i) (w / 8) nf).bind fun l st1 =>
        .ok () (st1.updVec fun x => (l.zipIdx).foldl (fun x p => x.put (vd + p.2 * step) w i p.1) x)) v.vl s).keepVec v).bind fun k s1 =>
    let n := k.getD v.vl
    let s0 := if inv then s1 else s1.mergeSpans via (s1.elemLocs via .load act addr (nf * (w / 8)) n)
    let s2 := if k.isSome then (s0.updVec fun x => { x with vl := n }).xflag xsLTRUNC else s0
    .ok (vmemInfo cls ord vm k.isSome act addr (nf * (w / 8)) n (v.popActive vm n)) s2

/-! ## Stores: every check and every rod before the first byte -/

/-- Locates a store and takes its rods. -/
def State.prepStore (s : State) (via : Via) (va : Word) (n : Nat) : Res Unit :=
  (s.locate via va n .store).bind fun ls s1 =>
    match ls with
    | [l] =>
      match l.t with
      | .agent a off => if regAligned off n && agentStoreOk a off via.mode then .ok () s1 else .trap 7 va s1
      | _ => s1.storeReady via [l]
    | _ => s1.storeReady via ls

/-- The same for consecutive pieces. -/
def State.prepFields (s : State) (via : Via) (va : Word) : List Nat → Res Unit
  | [] => .ok () s
  | n :: ns => (s.prepStore via va n).bind fun _ s1 => s1.prepFields via (va + BitVec.ofNat 64 n) ns

/-- A store whose checks are made and whose rods are held. -/
def State.storeNow (s : State) (via : Via) (va : Word) (bytes : List Byte) : Res Unit :=
  (s.locate via va bytes.length .store).bind fun ls s1 =>
    match ls with
    | [l] =>
      match l.t with
      | .agent a off => s1.storeReg via va a off bytes
      | _ => .ok () (s1.writeLocs via [l] bytes)
    | _ => .ok () (s1.writeLocs via ls bytes)

/-- Stores consecutive pieces, ascending. -/
def State.storeFields (s : State) (via : Via) (va : Word) : List (List Byte) → Res Unit
  | [] => .ok () s
  | b :: bs => (s.storeNow via va b).bind fun _ s1 => s1.storeFields via (va + BitVec.ofNat 64 b.length) bs

/-- A vector store that has written all 32 bytes of a sector clears its poison (R317). -/
def State.cleanSectors (s : State) (via : Via) (ls : List Loc) : State :=
  if s.coh.poison = [] then s
  else
    let on := ls.filter fun l => (match l.t with | .hbm => !s.isCodePage l.pa | .scratch _ _ => true | _ => false)
    let whole (k : Nat) : Bool := (List.range 32).all fun i => on.any fun l => decide (l.pa ≤ 32 * k + i ∧ 32 * k + i < l.pa + l.len)
    let ks := (s.coh.poison.filter whole)
    let inL1 (k : Nat) : Bool := decide (via.num < 1024) && on.any fun l => l.t == .hbm && l.kind == .p && decide (l.pa / 32 = k)
    { s with coh := { s.coh with poison := s.coh.poison.filter fun k => !(whole k && !inL1 k),
                                 pclean := s.coh.pclean ++ (ks.filter fun k => inL1 k && !s.coh.pclean.contains (via.num, k)).map fun k => (via.num, k) } }

/-- A store of one segment per active element; `data i` gives its pieces and `bytes` its length. -/
def State.storeSegs (s : State) (vm : Bool) (addr : Nat → Word) (data : Nat → List (List Byte)) (bytes cls ord : Nat) : Res VInfo :=
  let v := s.seq.vec
  let via := s.via
  let act := v.active vm
  (runElems act (fun i st => st.prepFields via (addr i) ((data i).map List.length)) v.vl s).bind fun k s1 =>
    (runElems act (fun i st => st.storeFields via (addr i) (data i)) (k.getD v.vl) s1).bind fun k' s2 =>
      let stop := match k' with | some i => some i | none => k
      let n := stop.getD v.vl
      let s0 := s2.cleanSectors via (s2.elemLocs via .store act addr bytes n)
      let s3 := if stop.isSome then (s0.updVec fun x => { x with vl := n }).updCtl fun c => { c with vstrunc := true } else s0
      .ok (vmemInfo cls ord vm stop.isSome act addr bytes n (v.popActive vm n)) s3

/-! ## Addresses -/

def unitAddr (base : Word) (bytes : Nat) (i : Nat) : Word := base + BitVec.ofNat 64 (i * bytes)
def stridedAddr (base stride : Word) (i : Nat) : Word := base + BitVec.ofNat 64 i * stride
def indexedAddr (v : Vec) (base : Word) (vs2 w : Nat) (i : Nat) : Word := base + BitVec.ofNat 64 (v.get vs2 w i)

/-- Fields' groups of a segment access: legal as data? -/
def Vec.segOk (v : Vec) (vd w nf : Nat) : Bool :=
  let g := v.grp vd w
  g.ok v.nregs && decide (g.emul * nf ≤ 64 ∧ vd + g.count * nf ≤ v.nregs)

/-- CLASS of an access by its mop field. -/
def memClass (st : Bool) (mop : Nat) : Nat := (if st then 4 else 1) + (match mop with | 0 => 0 | 2 => 1 | _ => 2)

/-- Lammel ordinal of a vector load or store (R86). -/
def memOrd (st : Bool) (mop nf w k : Nat) : Nat := 1024 + (if st then 512 else 0) + 128 * mop + 16 * nf + 4 * w + k

/-- Unit-stride and strided data of w bits. -/
def State.loadPlain (s : State) (inv vm : Bool) (addr : Nat → Word) (w nf vd cls ord : Nat) : Res VInfo :=
  let v := s.seq.vec
  s.vguard true (v.segOk vd w nf && (vm || vd != 0)) (s.loadSegs inv vm addr w nf vd (v.grp vd w).count cls ord)

/-- The register groups of the fields of a segment. -/
def Vec.segGrps (v : Vec) (vs3 w nf : Nat) : List Grp :=
  let g := v.grp vs3 w
  (List.range nf).map fun f => { g with reg := vs3 + f * g.count }

/-- The pieces of element i of a segment store. -/
def Vec.segData (v : Vec) (vs3 w nf step : Nat) (i : Nat) : List (List Byte) :=
  (List.range nf).map fun f => leBytes (w / 8) (v.get (vs3 + f * step) w i)

/-! ## Whole registers and masks: every fault is taken (R148) -/

def State.loadWhole (s : State) (typed legal : Bool) (base : Word) (w n vd ord : Nat) : Res VInfo :=
  let via := s.via
  let addr := unitAddr base (w / 8)
  s.vguard typed legal (
    match (runAll (fun i st => (st.loadAt via (addr i) (w / 8) false).bind fun bs st1 => .ok () (st1.updVec fun x => x.put vd w i (leNat bs))) n s).keepVec s.seq.vec with
    | .ok _ s1 =>
      .ok (vmemInfo 1 ord true false (fun _ => true) addr (w / 8) n (s.seq.vec.popActive true s.seq.vec.vl))
        (s1.mergeSpans via (s1.elemLocs via .load (fun _ => true) addr (w / 8) n))
    | .trap c v _ => .trap c v s
    | .stall p s1 => .stall p s1)

def State.storeWhole (s : State) (typed legal : Bool) (base : Word) (n vs3 ord : Nat) : Res VInfo :=
  let via := s.via
  let v := s.seq.vec
  let addr := unitAddr base 1
  s.vguard typed legal (
    (runAll (fun i st => st.prepStore via (addr i) 1) n s).bind fun _ s1 =>
      (runAll (fun i st => st.storeNow via (addr i) (leBytes 1 (v.get vs3 8 i))) n s1).bind fun _ s2 =>
        .ok (vmemInfo 4 ord true false (fun _ => true) addr 1 n (v.popActive true v.vl))
          (s2.cleanSectors via (s2.elemLocs via .store (fun _ => true) addr 1 n)))

/-! ## The standard loads and stores -/

/-- Element width of a width code. -/
def eewOf (width : BitVec 2) : Nat := 8 * 2 ^ width.toNat

/-- A vector load; also a pair member's. -/
def doVLoad (s : State) (nf : BitVec 3) (mop : BitVec 2) (vm : Bool) (rs2 rs1 : Reg) (width : BitVec 2) (vd : Reg) : Res VInfo :=
  let v := s.seq.vec
  let w := eewOf width
  let n := nf.toNat + 1
  let d := vd.toNat
  let base := s.x rs1
  let cls := memClass false mop.toNat
  let ord := memOrd false mop.toNat nf.toNat width.toNat
  match mop.toNat with
  | 0 =>
    match rs2.toNat with
    | 0 => s.loadPlain false vm (unitAddr base (n * (w / 8))) w n d cls (ord 0)
    | 16 => s.loadPlain false vm (unitAddr base (n * (w / 8))) w n d cls (ord 3)
    | 8 =>
      s.loadWhole false (vm && (⟨d, 8, 8 * n⟩ : Grp).ok v.nregs && [1, 2, 4, 8].contains n) base w (n * v.vlen / w) d (ord 1)
    | 11 => s.loadWhole true (vm && n == 1 && w == 8 && decide (d < v.nregs)) base 8 ((v.vl + 7) / 8) d (ord 2)
    | _ => s.illegal
  | 2 => s.loadPlain false vm (stridedAddr base (s.x rs2)) w n d cls (ord 0)
  | _ =>
    let x := v.grp rs2.toNat w
    let g := v.grp d v.sew
    let apart : Bool := decide (x.reg + x.count ≤ d ∨ d + g.count * n ≤ x.reg)
    s.vguard true (v.segOk d v.sew n && v.legal vm g [x] && (n == 1 || apart))
      (s.loadSegs false vm (indexedAddr v base rs2.toNat w) v.sew n d g.count cls (ord 0))

/-- A vector store; also a pair member's. -/
def doVStore (s : State) (nf : BitVec 3) (mop : BitVec 2) (vm : Bool) (rs2 rs1 : Reg) (width : BitVec 2) (vs3 : Reg) : Res VInfo :=
  let v := s.seq.vec
  let w := eewOf width
  let n := nf.toNat + 1
  let d := vs3.toNat
  let base := s.x rs1
  let cls := memClass true mop.toNat
  let ord := memOrd true mop.toNat nf.toNat width.toNat
  let plain (addr : Nat → Word) : Res VInfo :=
    let g := v.grp d w
    s.vguard true (v.segOk d w n && v.legalSrcs vm (v.segGrps d w n)) (s.storeSegs vm addr (v.segData d w n g.count) (n * (w / 8)) cls (ord 0))
  match mop.toNat with
  | 0 =>
    match rs2.toNat with
    | 0 => plain (unitAddr base (n * (w / 8)))
    | 8 => s.storeWhole false (vm && w == 8 && (⟨d, 8, 8 * n⟩ : Grp).ok v.nregs && [1, 2, 4, 8].contains n) base (n * v.vlen / 8) d (ord 1)
    | 11 => s.storeWhole true (vm && n == 1 && w == 8 && decide (d < v.nregs)) base ((v.vl + 7) / 8) d (ord 2)
    | _ => s.illegal
  | 2 => plain (stridedAddr base (s.x rs2))
  | _ =>
    let x := v.grp rs2.toNat w
    let g := v.grp d v.sew
    s.vguard true (v.segOk d v.sew n && v.legalSrcs vm (x :: v.segGrps d v.sew n))
      (s.storeSegs vm (indexedAddr v base rs2.toNat w) (v.segData d v.sew n g.count) (n * (v.sew / 8)) cls (ord 0))

def execVectorLoad (nf : BitVec 3) (mop : BitVec 2) (vm : Bool) (rs2 rs1 : Reg) (width : BitVec 2) (vd : Reg) (s : State) :
    Host.Outcome State Fault Refusal := finishV (doVLoad s nf mop vm rs2 rs1 width vd)
def execVectorStore (nf : BitVec 3) (mop : BitVec 2) (vm : Bool) (rs2 rs1 : Reg) (width : BitVec 2) (vs3 : Reg) (s : State) :
    Host.Outcome State Fault Refusal := finishV (doVStore s nf mop vm rs2 rs1 width vs3)

/-! ## Invariant vector loads (R147) -/

def doVleInv (s : State) (vm : Bool) (vd rs1 : Reg) (w ord : Nat) : Res VInfo :=
  s.loadPlain true vm (unitAddr (s.x rs1) (w / 8)) w 1 vd.toNat 1 ord

def execVle8Inv (vm : Bool) (vd rs1 : Reg) (s : State) : Host.Outcome State Fault Refusal := finishV (doVleInv s vm vd rs1 8 4336)
def execVle16Inv (vm : Bool) (vd rs1 : Reg) (s : State) : Host.Outcome State Fault Refusal := finishV (doVleInv s vm vd rs1 16 4337)
def execVle32Inv (vm : Bool) (vd rs1 : Reg) (s : State) : Host.Outcome State Fault Refusal := finishV (doVleInv s vm vd rs1 32 4338)
def execVle64Inv (vm : Bool) (vd rs1 : Reg) (s : State) : Host.Outcome State Fault Refusal := finishV (doVleInv s vm vd rs1 64 4339)

/-! ## vsmx (R149, R150) -/

def doVsmx (s : State) (vm : Bool) (vs3 rs1 vs2 : Reg) : Res VInfo :=
  let v := s.seq.vec
  let g2 := v.grp vs2.toNat 16
  let g3 : Grp := ⟨vs3.toNat, 128, 8 * v.lmul⟩
  let ok := v.sew == 16 && decide (v.lmul ≤ 8) && g2.ok v.nregs && g3.ok v.nregs && !g3.overlaps g2 &&
    (vm || (vs2 != 0 && vs3 != 0))
  s.vguard true ok (
    s.storeSegs vm (unitAddr (s.x rs1) 18)
      (fun i => [leBytes 16 (v.get vs3.toNat 128 i) ++ leBytes 2 (v.get vs2.toNat 16 i)]) 18 4 4340)

def execVsmx (vm : Bool) (vs3 rs1 vs2 : Reg) (s : State) : Host.Outcome State Fault Refusal := finishV (doVsmx s vm vs3 rs1 vs2)

end Sys2Proof.Machine
end

