-- ==== Sys2Proof/Machine/Stream.lean ====
section
/-! DEFINITION. Streams (R163 to R166): scfg, spop, swait, sresume, sstop and the access side. -/

namespace Sys2Proof.Machine

def Seq.setStream (q : Seq) (i : Nat) (t : Stream) : Seq := { q with strm := { q.strm with streams := q.strm.streams.setIfInBounds i t } }

/-- Has the stream an operation that is not complete? -/
def Stream.open (t : Stream) : Bool := t.state == .running || t.state == .faulted

/-- Stream operation n completes. -/
def Seq.streamEnd (q : Seq) (n : Nat) : Seq :=
  let r := tlComplete q.strm.count q.strm.late n
  { q with strm := { q.strm with count := r.1, late := r.2 } }

/-- Stops a stream as sstop does. -/
def Seq.stopStream (q : Seq) (i : Nat) : Seq :=
  let t := q.stream i
  let q1 := q.setStream i { t with queue := [], marker := none, fcause := 0, state := .idle }
  if t.open then q1.streamEnd t.op else q1

/-- Bytes of an element, and how many elements the queue holds. -/
def Stream.bytes (t : Stream) : Nat := 2 ^ t.ew.toNat
def Stream.room (t : Stream) : Nat := 2048 / t.bytes

/-- A stream of a descriptor; none is ill formed. -/
def streamOf (b : List Byte) (n : Nat) (issuer : Issuer) : Option Stream :=
  let count := fld b 0x10 8
  if 2 ^ 40 < count ∨ 4 ≤ fld b 0x18 4 ∨ fld b 0x1C 4 ≠ 0 then none
  else
    some { base := fldW b 0x00, stride := fldW b 0x08, count := count, ew := BitVec.ofNat 2 (fld b 0x18 4),
           state := if count = 0 then .ended else .running, fcause := 0, next := 0, marker := none, queue := [],
           op := n, issuer := issuer }

/-- Configures a stream: the one at sid is stopped, and an operation is taken. -/
def State.startStream (s : State) (rd : Reg) (i : Nat) (b : List Byte) : State :=
  let n := s.seq.strm.iss + 1
  match streamOf b n (s.issuer s.hart) with
  | none => s.setX rd 0
  | some t =>
    (s.upd fun q =>
      let q1 := (q.stopStream i).setStream i t
      let q2 : Seq := { q1 with strm := { q1.strm with iss := n } }
      if t.count = 0 then q2.streamEnd n else q2).setX rd (BitVec.ofNat 64 n)

def execScfg (rd rs1 : Reg) (sid : BitVec 5) (s : State) : Host.Outcome State Fault Refusal :=
  finish (
    if 3 < sid.toNat ∨ !s.onCore then s.illegal
    else (s.readCmd (s.x rs1) 32).bind fun b s1 => .ok () (s1.startStream rd sid.toNat b))

def execSwait (rd : Reg) (sid : BitVec 5) (s : State) : Host.Outcome State Fault Refusal :=
  finish (
    let t := s.seq.stream sid.toNat
    if 3 < sid.toNat ∨ !s.onCore then s.illegal
    else if t.queue ≠ [] ∨ t.marker.isSome ∨ !t.open then .ok () (s.setX rd (BitVec.ofNat 64 t.queue.length))
    else .stall .stream s)

/-- Entries read before it are read again: R164 has each popped value be one held after the last sresume (log 75). -/
def execSresume (sid : BitVec 5) (s : State) : Host.Outcome State Fault Refusal :=
  finish (
    let t := s.seq.stream sid.toNat
    if 3 < sid.toNat ∨ !s.onCore then s.illegal
    else if t.state ≠ .faulted then .ok () s
    else
      .ok () (s.upd fun q =>
        { q.setStream sid.toNat { t with queue := [], marker := none, fcause := 0, state := .running } with
          fails := q.fails.filter fun f => !(f.eng == 2 && f.n == t.op) }))

def execSstop (sid : BitVec 5) (s : State) : Host.Outcome State Fault Refusal :=
  finish (if 3 < sid.toNat ∨ !s.onCore then s.illegal else .ok () (s.upd fun q => q.stopStream sid.toNat))

/-! ## The access side (R164) -/

/-- The access side reads its next element into the queue, or places a fault marker. -/
def execStreamFetch (hart sid : Nat) (s : State) : Host.Outcome State Fault Refusal :=
  let t := (s.getSeq hart).stream sid
  let e := t.next + t.queue.length
  if 3 < sid ∨ t.state ≠ .running ∨ t.count ≤ e ∨ t.room ≤ t.queue.length then .next s
  else
    let va := t.base + t.stride * BitVec.ofNat 64 e
    let via := s.viaEng hart t.issuer false
    match s.loadAt via va t.bytes false with
    | .ok b s1 =>
      .next ((s1.dropAsks via.party).modSeq hart fun q => q.setStream sid { q.stream sid with queue := (q.stream sid).queue ++ [BitVec.ofNat 64 (leNat b)] })
    | .trap c v s1 =>
      .next ((s1.dropAsks via.party).modSeq hart fun q =>
        (q.setStream sid { q.stream sid with state := .faulted, fcause := c, marker := some e }).noteFail ⟨2, t.op, 0, c, v⟩)
    | .stall _ s1 => .next s1

/-! ## spop (R165) -/

/-- The pop: n elements into vd, the rest of the queue left. -/
def State.popInto (s : State) (vd sid n : Nat) (short : Bool) : State :=
  let t := s.seq.stream sid
  let w := 8 * t.bytes
  let s1 := s.updVec fun v => ((t.queue.take n).zipIdx).foldl (fun v p => v.put vd w p.2 p.1.toNat) { v with vl := n }
  let t1 : Stream := { t with queue := t.queue.drop n, next := t.next + n }
  let s2 := s1.upd fun q => if t1.next = t1.count then (q.setStream sid { t1 with state := .ended }).streamEnd t1.op else q.setStream sid t1
  if short then s2.xflag xsLTRUNC else s2

def doSpop (s : State) (vd : Reg) (sid : BitVec 5) : Res VInfo :=
  let v := s.seq.vec
  let i := sid.toNat
  let t := s.seq.stream i
  s.vguard true (decide (i ≤ 3 ∧ v.sew = 8 * t.bytes) && (v.grp vd.toNat v.sew).ok v.nregs) (
    if !t.open then .ok { s.vinfo 10 4341 true with pop := 0 } (s.updVec fun v => { v with vl := 0 })
    else
      let avail := t.queue.length
      if v.vl ≤ avail ∨ t.marker.isSome ∨ t.next + avail = t.count then
        if avail = 0 ∧ t.marker.isSome then
          .trap 26 (BitVec.ofNat 64 (i * 2 ^ 62 + t.marker.getD 0 % 2 ^ 62))
            (s.upd fun q => { q with fails := q.fails.filter fun f => !(f.eng == 2 && f.n == t.op) })
        else
          let n := min v.vl avail
          let short := t.marker.isSome && decide (n < v.vl)
          let addr (k : Nat) : Word := t.base + t.stride * BitVec.ofNat 64 (t.next + k)
          let r := (addrRange (fun _ => true) addr t.bytes n).getD (0, 0)
          .ok { first := BitVec.ofNat 64 r.1, last := BitVec.ofNat 64 r.2, trunc := short, cls := 10, ord := 4341, masked := false, pop := n }
            (s.popInto vd.toNat i n short)
      else .stall .stream s)

def execSpop (vd : Reg) (sid : BitVec 5) (s : State) : Host.Outcome State Fault Refusal := finishV (doSpop s vd sid)

end Sys2Proof.Machine
end

