-- ==== Sys2Proof/Machine/Messages.lean ====
section
/-! DEFINITION. Messages (R248 to R258, R263), pipeline channels (R259 to R262), vwait (R245, R246), and how a message arrives, bounces
and starts a handler. -/

namespace Sys2Proof.Machine

/-! ## The message on the wire (R248) -/

def MsgClass.code : MsgClass → Nat | .ordinary => 0 | .request => 1 | .reply => 2 | .trigger => 3

/-- The head flit. -/
def Msg.head (m : Msg) : List Byte :=
  leBytes 2 m.dest ++ leBytes 2 m.src ++ leBytes 1 m.hidx ++
    leBytes 1 ((m.payload.length + 63) / 64 + 8 * m.cls.code + 32 * b2n m.poison + 64 * b2n m.chan) ++ leBytes 2 m.payload.length ++ leBytes 1 m.rhidx ++
    leBytes 1 m.rstat ++ leBytes 1 m.part ++ leBytes 1 m.inc ++ leBytes 4 m.rtag ++ List.replicate 48 0

/-- Puts a message on its way. -/
def State.inject (s : State) (m : Msg) : State := { s with net := s.net ++ [m] }

/-- Is the source buffer of a hart's core full: 8 messages of its harts that have not left it (R249)? -/
def State.sourceFull (s : State) (h : Nat) : Bool :=
  decide (8 ≤ (s.net.filter fun m => decide (m.src < 4096) && coreOf m.src == coreOf h && !m.gone).length)

/-- The context saved from a hart on its core, if there is one. -/
def State.savedFrom (s : State) (h : Nat) : Option Saved := s.saved.find? fun x => x.hart == h

/-- Slots of a core's inbox reserved for replies (R251): those of its sequencers and of the contexts saved on it. -/
def State.reservedSlots (s : State) (c : Nat) : Nat :=
  ((List.range 4).foldl (fun n i => n + (s.getSeq (4 * c + i)).reqs.length) 0) +
    (s.saved.filter fun x => coreOf x.hart == c).foldl (fun n x => n + x.seq.reqs.length) 0

/-- Must a new request wait: 8 of the sequencer are outstanding, or 32 slots of the core are reserved (R251)? -/
def State.requestsFull (s : State) : Bool := decide (8 ≤ s.seq.reqs.length) || decide (32 ≤ s.reservedSlots (coreOf s.hart))

/-! ## Launch headers of pipelines (R23) -/

def Launch.nstage (l : Launch) : Nat := leNat ((l.header.drop 0x04).take 1)
def Launch.nchan (l : Launch) : Nat := leNat ((l.header.drop 0x05).take 1)
/-- The 16 bytes of a stage record. -/
def Launch.stage (l : Launch) (i : Nat) : List Byte := (l.header.drop (0x30 + 16 * i)).take 16
def Launch.cores (l : Launch) (i : Nat) : Nat := leNat (((l.stage i).drop 8).take 2)
def Launch.isHandlerStage (l : Launch) (i : Nat) : Bool := leNat (((l.stage i).drop 10).take 1) % 2 == 1
/-- A channel word. -/
def Launch.chan (l : Launch) (i : Nat) : Nat := leNat ((l.header.drop (0xB0 + 4 * i)).take 4)
def chanProd (w : Nat) : Nat := w % 8
def chanCons (w : Nat) : Nat := w / 8 % 8
def chanSlot (w : Nat) : Nat := w / 2 ^ 8 % 256
def chanAllow (w : Nat) : Nat := w / 2 ^ 16 % 256
def chanHidx (w : Nat) : Nat := w / 2 ^ 24

/-- The LIN of a pipeline task: the CORES of the lower stages and its rank (R313). -/
def Launch.pipeLin (l : Launch) (stage rank : Nat) : Nat := (List.range stage).foldl (fun n i => n + l.cores i) 0 + rank

/-! ## Reading a payload -/

/-- Bytes read eight at a time, n of them. -/
def State.readWords (s : State) (via : Via) (va : Word) : Nat → Nat → Res (List Byte)
  | 0, _ => .ok [] s
  | f + 1, n =>
    if n = 0 then .ok [] s
    else
      (s.loadAt via va (min n 8) false).bind fun b s1 =>
        (s1.readWords via (va + 8) f (n - 8)).bind fun bs s2 => .ok (b ++ bs) s2

/-- A payload of n bytes at an address: aligned to 8 unless it is empty. -/
def State.readPayload (s : State) (p : Word) (n : Nat) : Res (List Byte) :=
  if n = 0 then .ok [] s else if p.toNat % 8 ≠ 0 then .trap 4 p s else s.readWords s.via p ((n + 7) / 8) n

/-! ## msend, mreply, msendv -/

/-- A message of the running hart. RTAG is a number of the model's own, one per request (log 19). -/
def State.newMsg (s : State) (dest hidx : Nat) (cls : MsgClass) (payload : List Byte) (rhidx rtag : Nat) : Msg :=
  { Msg.blank dest s.hart (s.partOf s.hart) (s.core (coreOf s.hart)).inc.toNat with hidx := hidx, cls := cls, payload := payload, rhidx := rhidx, rtag := rtag }

/-- Reserved bits of msend's control word, and LEN. -/
def sendBad (c : Word) : Bool := getBits c 48 16 != 0 || getBits c 34 6 != 0 || getBits c 13 3 != 0 || decide (448 < getBits c 24 9)

/-- Is a hart id a sequencer of the running hart's partition? -/
def State.destOk (s : State) (d : Nat) : Bool := decide (d ≤ 4095) && s.partOfCluster (d / 64) == s.partOf s.hart

def minus (n : Nat) : Word := BitVec.ofInt 64 (-(n : Int))

def execMsend (rd rs1 rs2 : Reg) (s : State) : Host.Outcome State Fault Refusal :=
  finish (
    let c := s.x rs2
    let req := c.getLsbD 33
    let dest := getBits c 0 13
    if sendBad c then .ok () (s.setX rd (minus 3))
    else if !s.destOk dest then .ok () (s.setX rd (minus 1))
    else if getBits c 24 9 ≠ 0 ∧ (s.x rs1).toNat % 8 ≠ 0 then .trap 4 (s.x rs1) s
    else if req ∧ s.requestsFull then .stall .request s
    else if s.sourceFull s.hart then .stall .message s
    else
      (s.readPayload (s.x rs1) (getBits c 24 9)).bind fun b s0 => s0.releaseNear.bind fun _ s1 =>
        let tag := s1.draws % 2 ^ 32
        let s2 := if req then s1.upd fun q => { q with reqs := q.reqs ++ [⟨tag, getBits c 40 8, s.x rd⟩] } else s1
        .ok () ((s2.inject (s.newMsg dest (getBits c 16 8) (if req then .request else .ordinary) b (if req then getBits c 40 8 else 0)
          (if req then tag else 0))).setX rd 0))

/-- A reply to a request: its LEN 0 form with RSTAT 1 ends a handler that did not reply (R257). -/
def State.replyMsg (s : State) (b : List Byte) (rstat : Nat) : Msg :=
  { s.newMsg s.seq.hs.reqHart s.seq.hs.rhidx .reply b 0 s.seq.hs.rtag with rstat := rstat }

def execMreply (rd rs1 rs2 : Reg) (s : State) : Host.Outcome State Fault Refusal :=
  finish (
    let c := s.x rs2
    if !(s.seq.hs.inside && s.seq.hs.owed) then .ok () (s.setX rd (minus 4))
    else if getBits c 9 55 ≠ 0 ∨ 448 < getBits c 0 9 then .ok () (s.setX rd (minus 3))
    else if getBits c 0 9 ≠ 0 ∧ (s.x rs1).toNat % 8 ≠ 0 then .trap 4 (s.x rs1) s
    else if s.sourceFull s.hart then .stall .message s
    else
      (s.readPayload (s.x rs1) (getBits c 0 9)).bind fun b s0 => s0.releaseNear.bind fun _ s1 =>
        .ok () (((s1.inject (s.replyMsg b 0)).upd fun q => { q with hs := { q.hs with owed := false } }).setX rd 0))

/-- Element i of msendv: one message, unless an earlier execution of the instruction has sent it. -/
def State.sendElem (s : State) (c : Word) (vs3 vs2 i : Nat) : Res Unit :=
  let v := s.seq.vec
  let dest := v.get vs2 64 i
  let p := BitVec.ofNat 64 (v.get vs3 64 i)
  if s.seq.elems.contains i then .ok () s
  else if !s.destOk dest then .trap 7 (BitVec.ofNat 64 dest) s
  else if getBits c 24 9 ≠ 0 ∧ p.toNat % 8 ≠ 0 then .trap 4 p s
  else if s.sourceFull s.hart then .stall .drain s
  else
    (s.readPayload p (getBits c 24 9)).bind fun b s1 =>
      .ok () ((s1.inject (s.newMsg dest (getBits c 16 8) .ordinary b 0 0)).upd fun q => { q with elems := q.elems ++ [i] })

def doMsendv (s : State) (vm : Bool) (vs3 vs2 rs1 : Reg) : Res VInfo :=
  let v := s.seq.vec
  let c := s.x rs1
  let g3 := v.grp vs3.toNat 64
  let g2 := v.grp vs2.toNat 64
  let len := getBits c 24 9
  s.vguard true (!sendBad c && getBits c 0 13 == 0 && !c.getLsbD 33 && v.sew == 64 && v.legalSrcs vm [g3, g2]) (
    s.releaseNear.bind fun _ s0 => (runElems (v.active vm) (fun i st => st.sendElem c vs3.toNat vs2.toNat i) v.vl s0).bind fun k s1 =>
      let n := k.getD v.vl
      let s2 := if k.isSome then (s1.updVec fun x => { x with vl := n }).updCtl fun y => { y with vstrunc := true } else s1
      let elemAt (i : Nat) : Word := BitVec.ofNat 64 (v.get vs3.toNat 64 i)
      .ok (vmemInfo 9 4343 vm k.isSome (fun i => v.active vm i && len != 0) elemAt len n (v.popActive vm n)) s2)

def execMsendv (vm : Bool) (vs3 vs2 rs1 : Reg) (s : State) : Host.Outcome State Fault Refusal := finishV (doMsendv s vm vs3 vs2 rs1)

/-! ## aqpush (R258) -/

/-- The agent whose block lies at an address. An address without one is cause 7; a block behind a failed boundary is cause 48 (R318). -/
def State.agentAt (s : State) (b : Word) : Res Nat :=
  if b.toNat % 4096 ≠ 0 then .trap 7 b s
  else
    match s.locate s.via b 8 .store with
    | .ok [l] s1 =>
      (match l.t with
       | .agent a off => if off = 0 ∧ a % 16 ≠ 15 then .ok a s1 else .trap 7 b s
       | .void => .trap 48 b s1
       | _ => .trap 7 b s)
    | .stall w s1 => .stall w s1
    | .trap 48 _ s1 => .trap 48 b s1
    | _ => .trap 7 b s

/-- Slot k, which is reserved, is written and then made ready. While the write waits, `elems` keeps k. -/
def State.pushSlot (s : State) (rd : Reg) (a k : Nat) (buf : List Byte) : Res Unit :=
  match s.writeBytes s.via ((s.agent a).slotVa k) buf with
  | .ok _ s1 => .ok () ((match s1.agentNotify a k with | .done s2 => s2 | .full => s1).setX rd (BitVec.ofNat 64 k))
  | .trap c v s1 => .trap c v s1
  | .stall w s1 => .stall w (s1.upd fun q => { q with elems := [k] })

/-- The agent block reserves the next slot in one step, or the queue is full (cause 28). An aqpush whose slot write waited has its slot. -/
def State.reserveSlot (s : State) (b : Word) (a : Nat) : Res Nat :=
  match s.seq.elems with
  | k :: _ => .ok k s
  | [] =>
    let g := s.agent a
    if g.qsize ≤ (g.qtail + 2 ^ 64 - g.qhead) % 2 ^ 64 then .trap 28 b s
    else .ok g.qtail (s.modAgent a fun g => { g with qtail := (g.qtail + 1) % 2 ^ 64 })

def execAqpush (rd rs1 rs2 : Reg) (s : State) : Host.Outcome State Fault Refusal :=
  finish (
    let b := s.x rs1
    let p := s.x rs2
    (s.agentAt b).bind fun a s1 =>
      if p.toNat % 8 ≠ 0 then .trap 4 p s1
      else
        (s1.readWords s1.via p 8 64).bind fun buf s0 => s0.releaseNear.bind fun _ s2 =>
          (s2.reserveSlot b a).bind fun k s3 => s3.pushSlot rd a k buf)

/-! ## Handlers end (R257) -/

/-- Changes the channel buffers of a core. -/
def State.modChan (s : State) (c : Nat) (f : ChanBuf → ChanBuf) : State :=
  s.modCore c fun k => { k with chans := k.chans.map f }

/-- The hart at which a task of a launch was bound, for a pipeline. -/
def State.homeOf (s : State) (t : Task) : Nat := (((s.launch? t.launch).bind fun l => aget l.homes t.lin)).getD 0

/-- Is a buffer that of a task's channel? -/
def ChanBuf.isOf (b : ChanBuf) (t : Task) (chan : Nat) : Bool := b.launch == t.launch && b.chan == chan && b.lin == t.lin

/-- The slot that a channel handler held is free again (R262). -/
def State.freeHandlerSlot (s : State) : State :=
  match s.seq.task, s.seq.hs.slot with
  | some t, some (chan, slot) =>
    s.modChan (coreOf (s.homeOf t)) fun b => if b.isOf t chan then { b with handed := b.handed.filter fun x => x.slot != slot } else b
  | _, _ => s

/-- The sequencer idles in handler mode. -/
def Seq.idle (time : Nat) (q : Seq) : Seq :=
  ({ q with loops := [], run := .idle, hs := { q.hs with mode := true, inside := false, owed := false, slot := none, retry := none } } : Seq).haltIdle time

/-- hret: the sequencer idles in handler mode, where it follows GEN (R63). -/
def execHret (s : State) : Host.Outcome State Fault Refusal :=
  let hm := match s.seq.task with | some t => t.hm | none => false
  if s.seq.mode ≠ .u ∨ !hm ∨ s.seq.vec.mdepth ≠ 0 then finish s.illegal
  else if 0 < s.redsOut s.via.party then .next (s.stalled .peer)
  else if s.seq.hs.inside ∧ s.seq.hs.owed then
    if s.sourceFull s.hart then .next (s.stalled .drain)
    else .next ((((s.inject (s.replyMsg [] 1)).freeHandlerSlot.upd fun q => { q with loops := [] }).retire s.nextPc false).safePoint s.hart |>.upd (Seq.idle s.time))
  else .next (((s.freeHandlerSlot.upd fun q => { q with loops := [] }).retire s.nextPc false).safePoint s.hart |>.upd (Seq.idle s.time))

/-! ## Arrival (R250 to R252, R307) -/

/-- Do messages travel on the same plane from one sender to one destination? -/
def Msg.sameWay (a b : Msg) : Bool := a.src == b.src && a.dest == b.dest && (a.cls == .reply) == (b.cls == .reply)

/-- Is message idx the first of its sender, destination and plane? One that has bounced is out of that order (R308). -/
def State.inOrder (s : State) (idx : Nat) (m : Msg) : Bool := !((s.net.take idx).any fun x => !x.bounced && x.sameWay m)

def State.dropMsg (s : State) (idx : Nat) : State := { s with net := s.net.eraseIdx idx }

/-- The log's entry of a bounced message (R273, R316). -/
def State.logBounce (s : State) (m : Msg) (cls idx : Nat) : State :=
  s.logEntry m.part { type := 13, sev := 2, ovr := false, cls := cls, idx := idx, addr := 0, qid := noQid, data := m.head.take 16 }

/-- A bounced message: the supervisor hart takes cause 49 with the 512-byte record, at an address the spec leaves open, and a sequencer that runs a
task is held, one that idles as it leaves idle (R63, R252, R297, R308). One from an agent is also logged (R273). The runtime keeps the message. -/
def State.bounce (s : State) (m : Msg) : State :=
  let s0 := if 0xC000 ≤ m.src then s.logBounce m 3 (m.src - 0xC000) else s
  let d := s0.draw
  let a := d.1.toNat % (Config.hbmBytes / 512) * 512
  let s1 := d.2.rootPut a (m.head ++ (m.payload ++ List.replicate 448 0).take 448)
  let c := hartCluster m.dest
  let s2 := s1.supTrap c (s1.getSeq (supervisorOf c)).pc 49 (BitVec.ofNat 64 a)
  let s3 := if (s2.getSeq m.dest).run = .idle then s2.safePoint m.dest else s2
  ({ s3 with net := s3.net ++ [{ m with bounced := true, gone := true }] } : State).modSeq m.dest fun q =>
    let q1 : Seq := if m.cls = .reply then { q with reqs := q.reqs.filter fun r => r.rtag != m.rtag } else q
    if q1.task.isSome ∧ (q1.run = .running ∨ q1.run = .idle) then { q1 with run := .halted, stall := none, since := some s.time } else q1

/-- Who takes a message (R252): the task in handler mode on the sequencer of DEST (`some none`), or a context saved from there, whose save area it
waits for. A reply goes to the context whose request it answers. -/
def State.taker (s : State) (m : Msg) : Option (Option Nat) :=
  let q := s.getSeq m.dest
  let fits (t : Option Task) (reqs : List Request) : Bool :=
    (match t with | some t => t.hm | none => false) && (m.cls != .reply || reqs.any fun r => r.rtag == m.rtag)
  if 4096 ≤ m.dest ∨ s.partOfCluster (m.dest / 64) ≠ m.part then none
  else if fits q.task q.reqs then some none
  else if m.cls = .reply ∨ q.task.isNone then (s.saved.find? fun x => x.hart == m.dest && fits x.seq.task x.seq.reqs).map fun x => some x.area
  else none

/-- Has the inbox a free slot for a plane 0 message? -/
def State.inboxRoom (s : State) (c : Nat) : Bool :=
  decide (((s.core c).inbox.filter fun m => !m.chan && m.cls != .reply).length + s.reservedSlots c < 64)

/-- The hart to which a forwarding entry sends messages for a hart (R307). -/
def State.forwardOf (s : State) (h : Nat) : Option Nat :=
  ((s.core (coreOf h)).fwd.find? fun f => f.old == h && decide (s.time < f.expiry)).map (·.new)

/-- Message idx leaves its sender's source buffer and waits in the network (R249, R251). -/
def State.waitsInNet (s : State) (idx : Nat) (m : Msg) : State := { s with net := s.net.set idx { m with gone := true } }

/-- The die from which a message comes: that of a hart, of a core or of an agent. -/
def Msg.srcDie (m : Msg) : Nat :=
  if m.src < 0x8000 then hartCluster m.src / 16 else if m.src < 0xC000 then dieOf (m.src - 0x8000) else (m.src - 0xC000) / 16

/-- The way of a message: a boundary that has failed holds it or loses it (R318). The reply that reports a loss is made at the requester. -/
def State.msgPath (s : State) (m : Msg) : Path :=
  if m.rstat = 2 then .open else s.dev.route m.srcDie (hartCluster m.dest / 16)

/-- The requester learns that its request, or the reply to it, is lost: RSTAT 2, and no reserved slot is lost (R263, R308). -/
def State.requestLost (s : State) (m : Msg) : State :=
  let lost (dest src hidx : Nat) : Msg :=
    { Msg.blank dest src m.part (if src < 4096 then (s.core (coreOf src)).inc.toNat else m.inc) with
      hidx := hidx, cls := .reply, rstat := 2, rtag := m.rtag, tex := m.tex, gone := true }
  match m.cls with
  | .request => s.inject (lost m.src m.dest m.rhidx)
  | .reply => s.inject (lost m.dest m.src m.hidx)
  | _ => s

/-- A dead path ends in a poisoned tail: the receiver discards the message, which has left the network, and logs it (R263). -/
def State.pathDead (s : State) (m : Msg) : State :=
  (s.logEntry (s.partOfCluster (hartCluster m.dest))
    { type := 11, sev := 2, ovr := false, cls := 6, idx := coreOf m.dest, addr := 0, qid := noQid,
      data := Msg.head { m with poison := true } |>.take 16 }).requestLost m

/-- Does a message wait on its destination alone, on a full inbox or behind an earlier one: cycles in which downstream stops never time out (R263)? -/
def State.waitsOnGo (s : State) (m : Msg) : Bool := m.gone && s.msgPath m == .open

/-- A router ends a dead path with a poisoned tail (R263; log 66). A message that stands in the network on a way that holds is not on a dead path, nor
is one that has bounced. -/
def execPathTimeout (idx : Nat) (s : State) : Host.Outcome State Fault Refusal :=
  .next (
    match s.net[idx]? with
    | none => s
    | some m => if m.bounced ∨ s.waitsOnGo m then s else (s.dropMsg idx).pathDead m)

/-- The hart that now runs the context for which a message came: where the context that has left DEST runs, else DEST if it runs a task. -/
def State.newHome (s : State) (m : Msg) : Option Nat :=
  (((s.moved.filter fun p => p.1 == m.dest).getLast?).bind fun p => s.hartOf p.2)

/-- The runtime's act on a bounced message (R308): it sends the message again, in no order against any other, to the hart that now runs the context,
and otherwise to DEST if that hart takes it now, or discards and logs it. A request that it discards is answered as lost. -/
def State.reinject (s : State) (idx : Nat) (m : Msg) : State :=
  let d := s.draw
  let s1 := d.2.dropMsg idx
  let m1 : Msg := { m with bounced := false }
  let again (h : Nat) : State :=
    let k := d.1.toNat / 2 % (s1.net.length + 1)
    { s1 with net := s1.net.take k ++ { m1 with dest := h } :: s1.net.drop k }
  match s.newHome m with
  | some h => again h
  | none =>
    if (s.taker m).isSome ∧ d.1.getLsbD 0 then again m.dest
    else
      let s2 := if 0xC000 ≤ m.src then s1 else s1.logBounce m (if m.src < 0x8000 then 0 else 1) (m.src % 0x8000)
      if m.cls = .request then s2.requestLost m1 else s2

/-- A zero trigger that reaches a task during its kexit is discarded (R311). -/
def State.spent (s : State) (m : Msg) : Bool := m.cls == .trigger && (s.getSeq m.dest).stall == some .exit

/-- A message arrives: it is forwarded, queued, bounced, or waits in the network for a slot, behind an earlier one or for a new
route; one to or from a die that is cut off is lost (R318). On one that has bounced, the runtime acts. -/
def execMessageArrival (idx : Nat) (s : State) : Host.Outcome State Fault Refusal :=
  .next (
    match s.net[idx]? with
    | none => s
    | some m =>
      if m.bounced then s.reinject idx m
      else if m.chan then s
      else if !s.inOrder idx m then s.waitsInNet idx m
      else
        match s.msgPath m with
        | .waits => s.waitsInNet idx m
        | .lost => (s.dropMsg idx).pathDead m
        | .open =>
          match s.forwardOf m.dest with
          | some d => { s with net := s.net.set idx { m with dest := d, gone := true } }
          | none =>
            let c := coreOf m.dest
            if s.spent m then s.dropMsg idx
            else match s.taker m with
            | none => (s.dropMsg idx).bounce m
            | some o =>
              if m.cls = .reply ∨ s.inboxRoom c then (s.dropMsg idx).modCore c fun k => { k with inbox := k.inbox ++ [{ m with gone := true, owner := o }] }
              else s.waitsInNet idx m)

/-! ## Handler starts (R253, R262) -/

/-- A hart takes a trap at a handler start. -/
def State.trapHart (s : State) (h cause : Nat) (epc tval : Word) : State :=
  let s1 := if setsEpend cause then s.reportTrap h cause epc tval else s
  s1.modSeq h fun q => { q.trapTo epc cause tval with run := .running }

/-- May a hart start a handler? -/
def Seq.mayStart (q : Seq) : Bool := q.task.isSome && q.hs.mode && !q.hs.inside && q.run == .idle

/-- The oldest entry of the inbox for a hart. -/
def State.firstFor (s : State) (h : Nat) : Option Msg := (s.core (coreOf h)).inbox.find? fun m => m.dest == h && m.owner.isNone

def State.takeFirst (s : State) (h : Nat) : State :=
  s.modCore (coreOf h) fun k => { k with inbox := k.inbox.eraseP fun m => m.dest == h && m.owner.isNone }

/-- Writes bytes of the core's own scratch by its network interface. -/
def State.nicPut (s : State) (pa : Nat) (bytes : List Byte) : State :=
  s.putBytes { s.viaHub 0 true with mode := .m } ⟨0, pa, .scratch ((pa - Config.scratchBase) / 2 ^ 18) (pa % 2 ^ 18), .u, 0, 0, bytes.length⟩ bytes

/-- The registers of a handler start, and the jump to the entry: a safe point; an entry of 0 is cause 1. -/
def State.enterHandler (s : State) (h : Nat) (t : Task) (entry a0 a1 a2 a3 : Word) (hs : Handler) : State :=
  let s1 := s.modSeq h fun q0 =>
    let q := q0.anyForm
    let q1 := (((((((q.wx 10 a0).wx 11 a1).wx 12 a2).wx 13 a3).wx 2 (t.top - 512)).wx 4 t.tp).wx 3 t.gp)
    { q1 with loops := [], vec := { q1.vec with mstack := [], mdepth := 0 }, mode := .u, run := .running, stall := none, since := none,
              elems := [], armed := none, atEdge := true, hs := hs }
  if entry = 0 then (s1.modSeq h fun q => { q with pc := 0 }).trapHart h 1 0 0
  else
    let p := (s1.safePoint h).functionEntry h entry
    p.1.modSeq h fun q => { q with pc := p.2 }

/-- Reads handler table entry i of a hart that leaves idle, a safe point (R63); a fault is taken there, and an sret to its address tries again. -/
def State.withEntry (s : State) (h i : Nat) (f : Word → State → State) : Host.Outcome State Fault Refusal :=
  let a := (s.getSeq h).ctl.htbase + BitVec.ofNat 64 (8 * i)
  match (s.safePoint h).loadAt (s.viaTask h) a 8 false with
  | .ok b s1 => .next (f (BitVec.ofNat 64 (leNat b)) s1)
  | .trap c _ s1 => .next ((s1.trapHart h c a a).modSeq h fun q => { q with hs := { q.hs with retry := some a } })
  | .stall _ s1 => .next s1

/-- a1 of a handler start: the sender (R240, R248, R253). -/
def senderWord (src : Nat) : Word :=
  if 0xC000 ≤ src then BitVec.ofNat 64 (2 ^ 62 + (src - 0xC000)) else if 0x8000 ≤ src then BitVec.ofNat 64 (2 ^ 63 + (src - 0x8000)) else BitVec.ofNat 64 src

/-- The handler of a message starts: the slot is freed, and with a reply its reservation. -/
def State.startMsg (s : State) (h : Nat) (t : Task) (m : Msg) (entry : Word) : State :=
  let base := t.top - 512
  let st := ((s.getSeq h).reqs.find? fun r => r.rtag == m.rtag).map (·.st)
  let s1 := (s.takeFirst h).nicPut base.toNat m.payload
  let s2 := if m.cls = .reply then s1.modSeq h fun q => { q with reqs := q.reqs.filter fun r => r.rtag != m.rtag } else s1
  s2.enterHandler h t entry base (senderWord m.src)
    (match m.cls with | .reply => st.getD 0 | .trigger => base | _ => 0)
    (BitVec.ofNat 64 (if m.cls = .reply then m.rstat else m.payload.length))
    { mode := true, inside := true, hidx := m.hidx, owed := m.cls == .request, reqHart := m.src, rtag := m.rtag, rhidx := m.rhidx, slot := none,
      retry := none }

/-- The sequencer starts the handler of its oldest waiting message (R253). -/
def execHandlerStart (hart : Nat) (s : State) : Host.Outcome State Fault Refusal :=
  let q := s.getSeq hart
  match q.task, s.firstFor hart with
  | some t, some m =>
    if q.mayStart ∧ !m.chan then s.withEntry hart m.hidx fun e s1 => s1.startMsg hart t m e else .next s
  | _, _ => .next s

/-! ## Channels -/

/-- The task of a pipeline that the running hart runs: launch, task, stage. -/
def State.pipeTask (s : State) : Option (Launch × Task × Nat) :=
  match s.seq.task with
  | some t => match t.pipe, s.launch? t.launch with | some (st, _), some l => some (l, t, st) | _, _ => none
  | none => none

/-- The launch and channel word if the running task may send LEN bytes to a rank (R260). -/
def State.sendChan (s : State) (c : Word) : Option (Launch × Nat) :=
  match s.pipeTask with
  | none => none
  | some (l, _, st) =>
    let i := getBits c 0 4
    let w := l.chan i
    if i < l.nchan ∧ chanProd w = st ∧ getBits c 16 9 ≤ 64 * chanSlot w ∧ getBits c 32 16 < l.cores (chanCons w) then some (l, w) else none

def execChsend (rd rs1 rs2 : Reg) (s : State) : Host.Outcome State Fault Refusal :=
  finish (
    let c := s.x rs2
    let len := getBits c 16 9
    if getBits c 48 16 ≠ 0 ∨ getBits c 25 7 ≠ 0 ∨ getBits c 4 12 ≠ 0 ∨ 448 < len then .ok () (s.setX rd (minus 3))
    else
      match s.sendChan c with
      | none => .ok () (s.setX rd (minus 1))
      | some (l, w) =>
        if len ≠ 0 ∧ (s.x rs1).toNat % 8 ≠ 0 then .trap 4 (s.x rs1) s
        else if s.sourceFull s.hart then .stall .message s
        else
          (s.readPayload (s.x rs1) len).bind fun b s0 => s0.releaseNear.bind fun _ s1 =>
            let dest := (aget l.homes (l.pipeLin (chanCons w) (getBits c 32 16))).getD 0
            .ok () ((s1.inject { s.newMsg dest (getBits c 0 4) .ordinary b 0 0 with chan := true }).setX rd 0))

/-- The buffer of a task's channel. -/
def State.chanBuf (s : State) (t : Task) (chan : Nat) : Option ChanBuf :=
  (s.core (coreOf (s.homeOf t))).chans.find? fun b => b.isOf t chan

/-- The task and channel that chrecv or chdone names, if its stage is the consumer. -/
def State.consumes (s : State) (c : Word) : Option (Launch × Task × Nat) :=
  match s.pipeTask with
  | none => none
  | some (l, t, st) => if c.toNat < l.nchan ∧ chanCons (l.chan c.toNat) = st then some (l, t, c.toNat) else none

def execChrecv (rd rs1 : Reg) (s : State) : Host.Outcome State Fault Refusal :=
  finish (
    match s.consumes (s.x rs1) with
    | none => s.illegal
    | some (l, t, chan) =>
      if l.isHandlerStage (chanCons (l.chan chan)) then s.illegal
      else
        match s.chanBuf t chan with
        | none => .ok () (s.setX rd 0)
        | some b =>
          match b.filled with
          | [] => if b.closed then .ok () (s.setX rd 0) else .stall .channel s
          | e :: rest =>
            let a := BitVec.ofNat 64 (e.len * 2 ^ 48 + (b.base + e.slot * b.size) % 2 ^ 48)
            .ok () ((s.modChan (coreOf (s.homeOf t)) fun x => if x.isOf t chan then { x with filled := rest, handed := x.handed ++ [e] } else x).setX rd a))

def execChdone (rs1 : Reg) (s : State) : Host.Outcome State Fault Refusal :=
  finish (
    match s.consumes (s.x rs1) with
    | none => s.illegal
    | some (_, t, chan) =>
      .ok () (s.modChan (coreOf (s.homeOf t)) fun x => if x.isOf t chan then { x with handed := x.handed.drop 1 } else x))

/-- Are two buffers those of one task's channel? -/
def ChanBuf.same (x b : ChanBuf) : Bool := x.launch == b.launch && x.chan == b.chan && x.lin == b.lin

/-- The lowest free slot of a buffer. -/
def ChanBuf.free (b : ChanBuf) : Option Nat :=
  (List.range b.slots).find? fun i => !((b.filled ++ b.handed).any fun e => e.slot == i)

/-- The task of a channel buffer, where it runs now, or the save area that holds it. -/
def State.consumerOf (s : State) (b : ChanBuf) : Option (Nat × Task × Option Nat) :=
  match s.hartOf (.task b.launch b.lin) with
  | some h => (s.getSeq h).task.map fun t => (h, t, none)
  | none => (s.saved.find? fun x => match x.seq.task with | some t => t.launch == b.launch && t.lin == b.lin | none => false).bind fun x =>
      x.seq.task.map fun t => (x.hart, t, some x.area)

/-- For a handler stage, an entry in the consumer's inbox keeps the order of items and messages (R262). It takes no slot; a class
of trigger marks the start at close. -/
def State.markItem (s : State) (b : ChanBuf) (src : Nat) (close : Bool) : State :=
  match s.consumerOf b with
  | some (h, t, o) =>
    if t.hm then
      s.modCore (coreOf h) fun k => { k with inbox := k.inbox ++
        [{ Msg.blank h src t.part 0 with hidx := b.chan, cls := if close then .trigger else .ordinary, chan := true, gone := true, owner := o }] }
    else s
  | none => s

/-- An item lands in the lowest free slot, waits for one, or bounces when its consumer is gone (R259). -/
def execChannelItemArrival (idx : Nat) (s : State) : Host.Outcome State Fault Refusal :=
  .next (
    match s.net[idx]? with
    | none => s
    | some m =>
      if m.bounced ∨ !m.chan then s
      else if !s.inOrder idx m then s.waitsInNet idx m
      else
        match s.msgPath m with
        | .waits => s.waitsInNet idx m
        | .lost => (s.dropMsg idx).pathDead m
        | .open =>
          match (s.core (coreOf m.dest)).chans.find? fun b => b.hart == m.dest && b.chan == m.hidx with
          | none => (s.dropMsg idx).bounce m
          | some b =>
            match b.free with
            | none => s.waitsInNet idx m
            | some i =>
              let s1 := (s.dropMsg idx).nicPut (b.base + i * b.size) m.payload
              (s1.modChan (coreOf m.dest) fun x =>
                if x.same b then { x with filled := x.filled ++ [⟨i, m.payload.length, m.src⟩] } else x).markItem b m.src false)

/-- Has every task of a stage executed kexit? -/
def Launch.stageOver (l : Launch) (st : Nat) : Bool := (List.range (l.cores st)).all fun r => l.retired.contains (l.pipeLin st r)

/-- A channel closes for the consumer bound at a hart (R259). -/
def execChannelClose (hart chan : Nat) (s : State) : Host.Outcome State Fault Refusal :=
  .next (
    match (s.core (coreOf hart)).chans.find? fun b => b.hart == hart && b.chan == chan with
    | none => s
    | some b =>
      match s.launch? b.launch with
      | none => s
      | some l =>
        if b.closed ∨ !l.stageOver (chanProd (l.chan chan)) ∨ s.net.any (fun m => !m.bounced && m.chan && m.dest == hart && m.hidx == chan) then s
        else (s.modChan (coreOf hart) fun x => if x.same b then { x with closed := true } else x).markItem b 0 true)

/-- The handler of a landed item, or the start at close. -/
def State.startItem (s : State) (h : Nat) (t : Task) (m : Msg) (hidx : Nat) (entry : Word) : State :=
  let hs : Handler := { mode := true, inside := true, hidx := hidx, owed := false, reqHart := 0, rtag := 0, rhidx := 0, slot := none, retry := none }
  let s1 := s.takeFirst h
  if m.cls = .trigger then
    let d := s1.draw
    (d.2.modChan (coreOf (s.homeOf t)) fun b => if b.isOf t m.hidx then { b with told := true } else b).enterHandler h t entry 0 d.1
      (BitVec.ofNat 64 m.hidx) 0 hs
  else
    match (s.chanBuf t m.hidx).bind fun b => b.filled.head?.map fun e => (b, e) with
    | some (b, e) =>
      (s1.modChan (coreOf (s.homeOf t)) fun x => if x.isOf t m.hidx then { x with filled := x.filled.drop 1, handed := x.handed ++ [e] } else x).enterHandler
        h t entry (BitVec.ofNat 64 (b.base + e.slot * b.size)) (BitVec.ofNat 64 e.src) (BitVec.ofNat 64 m.hidx) (BitVec.ofNat 64 e.len)
        { hs with slot := some (m.hidx, e.slot) }
    | none => s1

/-- A handler-stage consumer starts the handler of its oldest item, or of a close (R262). -/
def execChannelHandlerStart (hart : Nat) (s : State) : Host.Outcome State Fault Refusal :=
  let q := s.getSeq hart
  match q.task, s.firstFor hart with
  | some t, some m =>
    if q.mayStart ∧ m.chan then
      let hidx := ((s.launch? t.launch).map fun l => chanHidx (l.chan m.hidx)).getD 0
      s.withEntry hart hidx fun e s1 => s1.startItem hart t m hidx e
    else .next s
  | _, _ => .next s

/-! ## vwait (R245, R246) -/

/-- Tests element i, unless an earlier test satisfied it; a satisfying read is an acquire at .sys (R136, R246). -/
def State.testWord (s : State) (ge : Bool) (value a i : Nat) : Res Unit :=
  if s.seq.elems.contains i then .ok () s
  else if a % 8 ≠ 0 then .trap 4 (BitVec.ofNat 64 a) s
  else
    (s.loadAt s.via (BitVec.ofNat 64 a) 8 false).bind fun b s1 =>
      let u := leNat b
      .ok () (if (if ge then decide (value ≤ u) else u == value) then (s1.flushP s.hart).upd fun q => { q with elems := q.elems ++ [i] } else s1)

/-- Tests element i again: a fault met now leaves it unsatisfied (log 66). -/
def State.testAgain (s : State) (ge : Bool) (value a i : Nat) : Res Unit :=
  match s.testWord ge value a i with
  | .trap _ _ _ => .ok () s
  | r => r

/-- Ends vwait over n elements: the mask of the unsatisfied ones. -/
def State.endWait (s : State) (vm : Bool) (vd n : Nat) (short : Bool) : State :=
  let v := s.seq.vec
  let s1 := s.updVec fun x => (List.range n).foldl (fun x i =>
    x.put vd 1 i (b2n (v.active vm i && !s.seq.elems.contains i))) { x with vl := n }
  if short then s1.xflag xsLTRUNC else s1

/-- A parameter block with a reserved bit set. -/
def waitBad (b : List Byte) : Bool := decide (2 ≤ fld b 0x10 4) || fld b 0x14 8 != 0 || fld b 0x1C 4 != 0

/-- vwait with its block and the number of elements it watches, after a pass over them. -/
def State.waitOn (s : State) (vm : Bool) (vd vs2 : Nat) (blk : Word) (b : List Byte) (n : Nat) (short : Bool) : Res VInfo :=
  let v := s.seq.vec
  let limit := fld b 0x08 8
  let all := (List.range n).all fun i => !v.active vm i || s.seq.elems.contains i
  if all ∨ (limit ≠ 2 ^ 64 - 1 ∧ limit ≤ s.time - s.armedAt) then
    let addr (i : Nat) : Word := BitVec.ofNat 64 (v.get vs2 64 i)
    .ok ((vmemInfo 9 4342 vm short (v.active vm) addr 8 n (v.popActive vm n)).covers blk 32) (s.endWait vm vd n short)
  else .stall .word (s.upd fun q => { q with peerGot := [], armed := some (s.armedAt, b ++ leBytes 8 n) })

/-- vwait. At issue the time base begins to run, the block is read, and each element is tested once, where a fault stops it as a load; `armed` then
keeps the block and the number of elements, which are tested again at each execution. -/
def doVwait (s : State) (vm : Bool) (vd vs2 rs1 : Reg) : Res VInfo :=
  let v := s.seq.vec
  let g := v.grp vs2.toNat 64
  let test (f : State → Nat → Res Unit) (n : Nat) (st : State) : Res (Option Nat) := runElems (v.active vm) (fun i u => f u i) n st
  let word (i : Nat) : Nat := v.get vs2.toNat 64 i
  s.vguard true (v.sew == 64 && v.legalSrcs vm [g] && !(maskGrp vd.toNat).overlaps g && decide (vd.toNat < v.nregs) && (vm || vd != 0)) (
    if v.vl = 0 then .ok (s.vinfo 9 4342 vm) s
    else
      match s.seq.armed with
      | some (_, b :: bs) =>
        let blk := b :: bs
        let n := fld blk 0x20 8
        (test (fun u i => u.testAgain (fld blk 0x10 4 == 0) (fld blk 0x00 8) (word i) i) n s).bind fun _ s1 =>
          s1.waitOn vm vd.toNat vs2.toNat (s.x rs1) (blk.take 32) n (decide (n < v.vl))
      | _ =>
        ((if s.seq.armed.isSome then s else s.upd fun q => { q with armed := some (s.time, []) }).readCmd (s.x rs1) 32).bind fun b s1 =>
          if waitBad b then s1.illegal
          else
            (test (fun u i => u.testWord (fld b 0x10 4 == 0) (fld b 0x00 8) (word i) i) v.vl s1).bind fun k s2 =>
              s2.waitOn vm vd.toNat vs2.toNat (s.x rs1) b (k.getD v.vl) k.isSome)

def execVwait (vm : Bool) (vd vs2 rs1 : Reg) (s : State) : Host.Outcome State Fault Refusal := finishV (doVwait s vm vd vs2 rs1)

end Sys2Proof.Machine
end

