-- ==== Sys2Proof/Machine/Shade.lean ====
section
/-! DEFINITION. Edge, texel, sampling and ray instructions (18): edge, texdec, texw, tex.s, boxt and trit. tex.sa is in
TexAsync.lean. -/

namespace Sys2Proof.Machine

/-! ## Blocks and groups -/

/-- n bytes of a block as a number. -/
def field (b : List Byte) (off n : Nat) : Nat := leNat ((b.drop off).take n)

/-- Reads a parameter block at issue: cause 4 where it is not aligned to its size (R284). -/
def State.readBlock (s : State) (va : Word) (align n : Nat) : Res (List Byte) :=
  if va.toNat % align ≠ 0 then .trap 4 va s else s.loadAt s.via va n false

/-- A group of elements of eew bits with k times LMUL. -/
def Vec.grpK (v : Vec) (reg eew k : Nat) : Grp := ⟨reg, eew, k * v.lmul⟩

/-- The checks of R284 on groups: sew, destination and source. -/
def Vec.shadeOk (v : Vec) (sew : Nat) (vm same : Bool) (d x : Grp) : Bool :=
  v.sew == sew && d.ok v.nregs && x.ok v.nregs && (!d.overlaps x || (same && d.reg == x.reg)) && (vm || d.reg != 0)

/-- The record of an instruction that read a block and, maybe, more bytes. -/
def shadeInfo (ord : Nat) (vm trunc : Bool) (r : Option (Nat × Nat)) (pop : Nat) : VInfo :=
  let r := r.getD (0, 0)
  { first := BitVec.ofNat 64 r.1, last := BitVec.ofNat 64 r.2, trunc := trunc, cls := 9, ord := ord, masked := !vm, pop := pop }

/-- The union of two address ranges. -/
def joinRange (a b : Option (Nat × Nat)) : Option (Nat × Nat) :=
  match a, b with
  | none, y => y
  | x, none => x
  | some (l, h), some (l', h') => some (min l l', max h h')

def blockRange (va : Word) (n : Nat) : Option (Nat × Nat) := some (va.toNat, va.toNat + n - 1)

/-! ## edge (R285) -/

/-- The edge value of pixel (x, y) for an edge from p to q, in 24.8 (R274, R285). -/
def edgeValue (xp yp xq yq : Int) (bias : Bool) (px py : Int) : Int :=
  let x := 256 * px + 128
  let y := 256 * py + 128
  let e := (x - xp) * (yq - yp) - (y - yp) * (xq - xp)
  let tl : Bool := decide (yp < yq ∨ (yq = yp ∧ xq < xp))
  if bias && !tl then e - 1 else e

/-- An integer saturated to a signed 64-bit number. -/
def sat64 (e : Int) : Nat := ofS 64 (min (2 ^ 63 - 1) (max (-(2 ^ 63)) e))

def doEdge (s : State) (vm : Bool) (vd vs2 rs1 : Reg) : Res VInfo :=
  let v := s.seq.vec
  let d := v.grp vd.toNat 64
  let g := v.grp vs2.toNat 64
  s.vguard true (v.shadeOk 64 vm true d g) (
    (s.readBlock (s.x rs1) 32 32).bind fun b s1 =>
      if field b 0x10 4 / 2 ≠ 0 ∨ field b 0x14 12 ≠ 0 then s1.illegal
      else
        let c (o : Nat) : Int := sgn 32 (field b o 4)
        let bias : Bool := field b 0x10 4 % 2 == 1
        let a := VAcc.fill ⟨v, 0, false⟩ vd.toNat 64 (fun i =>
          if v.active vm i then
            let e := v.get vs2.toNat 64 i
            some (.of (sat64 (edgeValue (c 0) (c 4) (c 8) (c 12) bias (sgn 24 (e % 2 ^ 24)) (sgn 24 (e / 2 ^ 32 % 2 ^ 24)))))
          else none) v.vl
        .ok (shadeInfo 4344 vm false (blockRange (s.x rs1) 32) (v.popActive vm v.vl)) (s1.putV a))

def execEdge (vm : Bool) (vd vs2 rs1 : Reg) (s : State) : Host.Outcome State Fault Refusal := finishV (doEdge s vm vd vs2 rs1)

/-! ## Texels (R286, R287) -/

/-- num / den rounded once to FP32. -/
def ratF32 (num den : Nat) : Nat :=
  if num = 0 then 0
  else
    let k := 64 + blen den
    (fmt32.round .rne false (num * 2 ^ k / den) (-(k : Int)) (num * 2 ^ k % den != 0)).1

/-- The integer fifth root, bit by bit. -/
def root5 (x : Nat) : Nat → Nat → Nat
  | 0, r => r
  | n + 1, r => let t := r + 2 ^ n; root5 x n (if t ^ 5 ≤ x then t else r)

/-- Entry c of the sRGB table: the correctly rounded value of R287. -/
def srgb (c : Nat) : Nat :=
  if c ≤ 10 then ratF32 (10 * c) 32946
  else
    let num := (1000 * c + 14025) ^ 12 * 2 ^ 240
    let den := 269025 ^ 12
    let r := root5 (num / den) 50 0
    (fmt32.round .rne false r (-48) (r ^ 5 * den != num)).1

/-- The unsigned 11-bit and 10-bit formats of R11G11B10F. -/
def fmtE5M6 : FFmt := ⟨5, 6⟩
def fmtE5M5 : FFmt := ⟨5, 5⟩

/-- A channel: an integer over a divisor, or a float. -/
inductive Chan where
  | unorm (u q : Nat)
  | flt (v : FVal)
deriving DecidableEq, Repr

/-- Channel ch of a texel in a format. -/
def texChan (fmt t ch : Nat) : Chan :=
  match fmt with
  | 0 => .unorm (t / 2 ^ (8 * ch) % 256) 255
  | 1 => if ch < 3 then .unorm (t / 2 ^ (10 * ch) % 1024) 1023 else .unorm (t / 2 ^ 30 % 4) 3
  | 2 =>
    match ch with
    | 0 => .flt (fmtE5M6.unpack (t % 2 ^ 11))
    | 1 => .flt (fmtE5M6.unpack (t / 2 ^ 11 % 2 ^ 11))
    | 2 => .flt (fmtE5M5.unpack (t / 2 ^ 22 % 2 ^ 10))
    | _ => .flt (.fin false 1 0)
  | 3 => .flt (fmt16.unpack (t / 2 ^ (16 * ch) % 2 ^ 16))
  | _ => if ch < 3 then .flt (fmt32.unpack (srgb (t / 2 ^ (8 * ch) % 256))) else .unorm (t / 2 ^ 24 % 256) 255

/-- A channel decoded to FP32. -/
def Chan.f32 (c : Chan) : Nat :=
  match c with
  | .unorm u q => ratF32 u q
  | .flt v => (fmt32.pack .rne v).1

/-- Bytes of a texel. -/
def texelBytes (fmt : Nat) : Nat := if fmt = 3 then 8 else 4

/-- Writes four channels at element 4i of a group of 32-bit elements. -/
def Vec.put4 (v : Vec) (vd i : Nat) (f : Nat → Nat) : Vec :=
  (((v.put vd 32 (4 * i) (f 0)).put vd 32 (4 * i + 1) (f 1)).put vd 32 (4 * i + 2) (f 2)).put vd 32 (4 * i + 3) (f 3)

/-- Applies a change of the vector state for each active element below n, in ascending order. -/
def eachElem (act : Nat → Bool) (f : Vec → Nat → Vec) : Nat → Vec → Vec
  | 0, v => v
  | n + 1, v => let u := eachElem act f n v; if act n then f u n else u

def doTexdec (s : State) (vm : Bool) (vd vs2 : Reg) (fmt : BitVec 5) : Res VInfo :=
  let v := s.seq.vec
  let k := fmt.toNat
  let w := if k = 3 then 64 else 32
  let g := v.grpK vs2.toNat w (if k = 3 then 2 else 1)
  let d := v.grpK vd.toNat 32 4
  s.vguard true (decide (k ≤ 4) && v.shadeOk 32 vm false d g) (
    let u := eachElem (v.active vm) (fun u i => u.put4 vd.toNat i fun ch => (texChan k (v.get vs2.toNat w i) ch).f32) v.vl v
    .ok (shadeInfo 4345 vm false none (v.popActive vm v.vl)) (s.updVec fun _ => u))

def execTexdec (vm : Bool) (vd vs2 : Reg) (fmt : BitVec 5) (s : State) : Host.Outcome State Fault Refusal := finishV (doTexdec s vm vd vs2 fmt)

/-! ## Textures (R288, R289) -/

/-- A texture descriptor. -/
structure Texture where
  base  : Word
  pitch : Nat
  width : Nat
  height : Nat
  fmt   : Nat
  filt  : Nat
  mu    : Nat
  mv    : Nat
deriving DecidableEq, Repr

/-- The descriptor in 32 bytes; none where a field is reserved or beyond its limit. -/
def textureOf (b : List Byte) : Option Texture :=
  let t : Texture :=
    { base := BitVec.ofNat 64 (field b 0 8), pitch := field b 8 4, width := field b 0x0C 2, height := field b 0x0E 2, fmt := field b 0x10 1,
      filt := field b 0x11 1, mu := field b 0x12 1 % 4, mv := field b 0x12 1 / 4 % 4 }
  let ts := texelBytes t.fmt
  if t.fmt ≤ 4 ∧ t.filt ≤ 1 ∧ t.mu ≤ 1 ∧ t.mv ≤ 1 ∧ field b 0x12 1 < 16 ∧ field b 0x13 13 = 0 ∧ 1 ≤ t.width ∧ t.width ≤ 32768 ∧
      1 ≤ t.height ∧ t.height ≤ 32768 ∧ t.base.toNat % ts = 0 ∧ t.pitch % ts = 0 ∧ t.width * ts ≤ t.pitch then some t else none

/-- Reads the descriptor at an address (R284, R288). -/
def State.readTexture (s : State) (va : Word) : Res Texture :=
  (s.readBlock va 32 32).bind fun b s1 => match textureOf b with | some t => .ok t s1 | none => s1.illegal

/-- floor(v) of m * 2^e. -/
def floorI (neg : Bool) (m : Nat) (e : Int) : Int :=
  let x : Int := if neg then -(m : Int) else m
  if 0 ≤ e then x * 2 ^ e.toNat else x / (2 ^ (-e).toNat : Int)

/-- m * 2^e rounded half to even. -/
def roundI (neg : Bool) (m : Nat) (e : Int) : Int :=
  let k := (roundAt .rne neg m e 0).1
  if neg then -(k : Int) else k

/-- A coordinate as a finite datum (R289). -/
def coordOf (c : Nat) : Bool × Nat × Int :=
  match fmt32.unpack c with
  | .nan _ => (false, 0, 0)
  | .inf n => (n, 2 ^ 24, 0)
  | .fin n m e => (n, m, e)

/-- Foot of R289: the two indices and the fraction. -/
def foot (c n md filt : Nat) : Nat × Nat × Nat :=
  let (neg, m, e) := coordOf c
  let p := roundI neg (m * n * 256) e - 128
  let t : Int := if filt = 0 then floorI neg (m * n) e else p / 256
  let f : Nat := if filt = 0 then 0 else (p - 256 * t).toNat
  let clamp (x : Int) : Nat := (min ((n : Int) - 1) (max 0 x)).toNat
  let wrap (x : Int) : Nat := (x % (n : Int)).toNat
  if md = 0 then (clamp t, clamp (t + 1), f) else (wrap t, wrap (t + 1), f)

/-- The footprint of a coordinate pair: i0, i1, fu, j0, j1, fv. -/
structure Foot where
  i0 : Nat
  i1 : Nat
  fu : Nat
  j0 : Nat
  j1 : Nat
  fv : Nat
deriving DecidableEq, Repr

def Texture.foot (t : Texture) (uv : Nat) : Foot :=
  let u := Machine.foot (uv % 2 ^ 32) t.width t.mu t.filt
  let w := Machine.foot (uv / 2 ^ 32) t.height t.mv t.filt
  ⟨u.1, u.2.1, u.2.2, w.1, w.2.1, w.2.2⟩

/-- The four texels of a footprint with their weights, in the order of R289. -/
def Foot.texels (f : Foot) : List (Nat × Nat × Nat) :=
  [(f.i0, f.j0, (256 - f.fu) * (256 - f.fv)), (f.i1, f.j0, f.fu * (256 - f.fv)), (f.i0, f.j1, (256 - f.fu) * f.fv), (f.i1, f.j1, f.fu * f.fv)]

/-- The address of a texel. -/
def Texture.addr (t : Texture) (i j : Nat) : Word := t.base + BitVec.ofNat 64 (j * t.pitch + i * texelBytes t.fmt)

/-! ## texw (R290) -/

def doTexw (s : State) (vm : Bool) (vd vs2 rs1 : Reg) : Res VInfo :=
  let v := s.seq.vec
  let d := v.grpK vd.toNat 64 2
  let g := v.grpK vs2.toNat 64 1
  s.vguard true (v.shadeOk 64 vm false d g) (
    (s.readTexture (s.x rs1)).bind fun t s1 =>
      let u := eachElem (v.active vm) (fun u i =>
        let f := t.foot (v.get vs2.toNat 64 i)
        (u.put vd.toNat 64 (2 * i) (f.i0 + f.i1 * 2 ^ 16 + f.j0 * 2 ^ 32 + f.j1 * 2 ^ 48)).put vd.toNat 64 (2 * i + 1)
          (f.fu + f.fv * 2 ^ 8 + t.filt * 2 ^ 16)) v.vl v
      .ok (shadeInfo 4346 vm false (blockRange (s.x rs1) 32) (v.popActive vm v.vl)) (s1.updVec fun _ => u))

def execTexw (vm : Bool) (vd vs2 rs1 : Reg) (s : State) : Host.Outcome State Fault Refusal := finishV (doTexw s vm vd vs2 rs1)

/-! ## Sampling (R291) -/

/-- Reads the texels of non-zero weight; a texel of zero weight stands as 0. -/
def State.readTexels (s : State) (via : Via) (t : Texture) : List (Nat × Nat × Nat) → Res (List (Nat × Nat))
  | [] => .ok [] s
  | (i, j, w) :: rest =>
    if w = 0 then (s.readTexels via t rest).bind fun l s1 => .ok ((0, 0) :: l) s1
    else
      (s.loadAt via (t.addr i j) (texelBytes t.fmt) false).bind fun b s1 =>
        (s1.readTexels via t rest).bind fun l s2 => .ok ((leNat b, w) :: l) s2

/-- The term of a float channel: t * w / 65,536 rounded, +0 for weight 0. -/
def floatTerm (fmt ch : Nat) (p : Nat × Nat) : Nat :=
  if p.2 = 0 then 0
  else
    match texChan fmt p.1 ch with
    | .flt (.fin n m e) => (fmt32.pack .rne (.fin n (m * p.2) (e - 16))).1
    | .flt v => (fmt32.pack .rne v).1
    | .unorm _ _ => 0

def addF32 (a b : Nat) : Nat := (fmt32.finish .rne (fAdd .rne (fmt32.unpack a) (fmt32.unpack b))).1

/-- One channel of a sample from its four texels and weights (R291). -/
def sampleChan (fmt ch : Nat) (ps : List (Nat × Nat)) : Nat :=
  match texChan fmt 0 ch with
  | .unorm _ q =>
    ratF32 (ps.foldl (fun a p => a + p.2 * (match texChan fmt p.1 ch with | .unorm u _ => u | .flt _ => 0)) 0) (q * 65536)
  | .flt _ =>
    match ps.map (floatTerm fmt ch) with
    | [p00, p10, p01, p11] => addF32 (addF32 p00 p10) (addF32 p01 p11)
    | _ => 0

/-- A sample's four channels. Under FILT = 0 they are the texel as texdec decodes it. -/
def State.sample (s : State) (via : Via) (t : Texture) (uv : Nat) : Res (List Nat) :=
  (s.readTexels via t (t.foot uv).texels).bind fun ps s1 =>
    .ok ((List.range 4).map fun ch => match t.filt, ps with | 0, p :: _ => (texChan t.fmt p.1 ch).f32 | _, _ => sampleChan t.fmt ch ps) s1

/-- Where the texels of non-zero weight of a sample lie: its reads of one line are one span (R129, R291). -/
def State.texelLocs (s : State) (via : Via) (t : Texture) (uv : Nat) : List Loc :=
  (t.foot uv).texels.flatMap fun p => if p.2.2 = 0 then [] else ((s.locate via (t.addr p.1 p.2.1) (texelBytes t.fmt) .load).value?).getD []

/-- The bytes of a sample's texels. -/
def Texture.range (t : Texture) (uv : Nat) : Option (Nat × Nat) :=
  (t.foot uv).texels.foldl (fun r p => if p.2.2 = 0 then r else joinRange r (blockRange (t.addr p.1 p.2.1) (texelBytes t.fmt))) none

/-- The union of the ranges of the active elements below n. -/
def unionRange (act : Nat → Bool) (f : Nat → Option (Nat × Nat)) : Nat → Option (Nat × Nat)
  | 0 => none
  | n + 1 => let r := unionRange act f n; if act n then joinRange r (f n) else r

/-- Ends a truncating read: vl and LTRUNC where element k faulted. -/
def State.truncLoad (s : State) (k : Option Nat) : State :=
  match k with
  | some n => (s.updVec fun x => { x with vl := n }).xflag xsLTRUNC
  | none => s

def doTexS (s : State) (vm : Bool) (vd vs2 rs1 : Reg) : Res VInfo :=
  let v := s.seq.vec
  let d := v.grpK vd.toNat 32 4
  let g := v.grpK vs2.toNat 64 2
  s.vguard true (v.shadeOk 32 vm false d g) (
    (s.readTexture (s.x rs1)).bind fun t s1 =>
      let uv (i : Nat) : Nat := v.get vs2.toNat 64 i
      ((runElems (v.active vm) (fun i st =>
          (st.sample st.via t (uv i)).bind fun l st1 => .ok () (st1.updVec fun u => u.put4 vd.toNat i fun ch => l.getD ch 0)) v.vl s1).keepVec v).bind fun k s2 =>
        let n := k.getD v.vl
        let r := joinRange (blockRange (s.x rs1) 32) (unionRange (v.active vm) (fun i => t.range (uv i)) n)
        let locs := (List.range n).flatMap fun i => if v.active vm i then s2.texelLocs s.via t (uv i) else []
        .ok (shadeInfo 4347 vm k.isSome r (v.popActive vm n)) ((s2.mergeSpans s.via locs).truncLoad k))

def execTexS (vm : Bool) (vd vs2 rs1 : Reg) (s : State) : Host.Outcome State Fault Refusal := finishV (doTexS s vm vd vs2 rs1)

/-! ## Rays (R294 to R296) -/

def missCode : Nat := 0x7FC00000
def nodeErrorCode : Nat := 0x7FC00001

def subF32 (a b : Nat) : Nat := (fmt32.finish .rne (fSub .rne (fmt32.unpack a) (fmt32.unpack b))).1
def mulF32 (a b : Nat) : Nat := (fmt32.finish .rne (fMul (fmt32.unpack a) (fmt32.unpack b))).1
def isNan32 (a : Nat) : Bool := (fmt32.unpack a).isNan

/-- The interval of one axis: lo and hi, none where both t are NaN (R295). -/
def slab (mn mx o i : Nat) : Option (Nat × Nat) :=
  let t1 := mulF32 (subF32 mn o) i
  let t2 := mulF32 (subF32 mx o) i
  if isNan32 t1 ∧ isNan32 t2 then none
  else some ((fmt32.minmax false t1 t2).1, (fmt32.minmax true t1 t2).1)

/-- boxt's result from the ray (words 0 to 11) and the box (words 0 to 5); of zeros of both signs the greater is +0 (log 18). -/
def boxHit (ray node : Nat → Nat) : Nat :=
  let sl := (List.range 3).filterMap fun a => slab (node a) (node (3 + a)) (ray a) (ray (6 + a))
  let tmin := ray 9
  let tmax := ray 10
  if isNan32 tmin ∨ isNan32 tmax then missCode
  else
    let near := sl.foldl (fun m p => (fmt32.minmax true m p.1).1) tmin
    let far := sl.foldl (fun m p => (fmt32.minmax false m p.2).1) tmax
    if fCmp (fmt32.unpack near) (fmt32.unpack far) == .gt then missCode else near

/-- A dyadic number m * 2^e. -/
structure Dy where
  m : Int
  e : Int
deriving DecidableEq, Repr

def Dy.align (a : Dy) (e : Int) : Int := a.m * 2 ^ (a.e - e).toNat
def Dy.add (a b : Dy) : Dy := let e := min a.e b.e; ⟨a.align e + b.align e, e⟩
def Dy.neg (a : Dy) : Dy := ⟨-a.m, a.e⟩
def Dy.mul (a b : Dy) : Dy := ⟨a.m * b.m, a.e + b.e⟩
def Dy.le (a b : Dy) : Bool := let e := min a.e b.e; decide (a.align e ≤ b.align e)

/-- A finite FP32 number as a dyadic. -/
def dyOf (a : Nat) : Option Dy :=
  match fmt32.unpack a with
  | .fin n m e => some ⟨if n then -(m : Int) else m, e⟩
  | _ => none

/-- Three components. -/
abbrev Vec3 := Dy × Dy × Dy
def dot3 (a b : Vec3) : Dy := ((a.1.mul b.1).add (a.2.1.mul b.2.1)).add (a.2.2.mul b.2.2)
def cross3 (a b : Vec3) : Vec3 :=
  ((a.2.1.mul b.2.2).add (a.2.2.mul b.2.1).neg, (a.2.2.mul b.1).add (a.1.mul b.2.2).neg, (a.1.mul b.2.1).add (a.2.1.mul b.1).neg)

/-- Three FP32 numbers as dyadics, if all are finite. -/
def vec3Of (a b c : Nat) : Option Vec3 :=
  match dyOf a, dyOf b, dyOf c with
  | some x, some y, some z => some (x, y, z)
  | _, _, _ => none

/-- T / D rounded once to FP32; the exact number 0 is +0 (log 18). -/
def quotF32 (t d : Dy) : Nat :=
  let neg : Bool := decide ((t.m < 0) ≠ (d.m < 0))
  let num := t.m.natAbs * 2 ^ (64 + blen d.m.natAbs)
  let e : Int := t.e - d.e - (64 + blen d.m.natAbs : Nat)
  if t.m = 0 then 0
  else (fmt32.round .rne neg (num / d.m.natAbs) e (num % d.m.natAbs != 0)).1

/-- trit's result from the ray (words 0 to 10) and the vertices (words 0 to 8 of the node). A word of either that is not finite misses; where a
translated vertex leaves FP32's range, R296 states no result (log 18). -/
def triHit (ray node : Nat → Nat) : Nat :=
  let finite (f : Nat → Nat) (ks : List Nat) : Bool := ks.all fun k => (dyOf (f k)).isSome
  let vtx (k : Nat) : Option Vec3 := vec3Of (subF32 (node (3 * k)) (ray 0)) (subF32 (node (3 * k + 1)) (ray 1)) (subF32 (node (3 * k + 2)) (ray 2))
  if !(finite ray (List.range 11) && finite node (List.range 9)) then missCode
  else
    match vtx 0, vtx 1, vtx 2, vec3Of (ray 3) (ray 4) (ray 5), dyOf (ray 9), dyOf (ray 10) with
    | some a, some b, some c, some d, some lo, some hi =>
      let u := dot3 d (cross3 b c)
      let v := dot3 d (cross3 c a)
      let w := dot3 d (cross3 a b)
      let dd := (u.add v).add w
      let t := dot3 a (cross3 b c)
      let same : Bool := decide ((0 ≤ u.m ∧ 0 ≤ v.m ∧ 0 ≤ w.m) ∨ (u.m ≤ 0 ∧ v.m ≤ 0 ∧ w.m ≤ 0))
      -- lo <= T / D <= hi, multiplied by D
      let inside : Bool := if 0 < dd.m then (lo.mul dd).le t && t.le (hi.mul dd) else t.le (lo.mul dd) && (hi.mul dd).le t
      if dd.m ≠ 0 ∧ same ∧ inside then quotF32 t dd else missCode
    | _, _, _, _, _, _ => (Config.rayOverflow ((List.range 11).map ray ++ (List.range 9).map node)).toNat

/-- Word k of a record. -/
def wordOf (b : List Byte) (k : Nat) : Nat := field b (4 * k) 4

/-- The log entry of the poisoned node of element i (R294, R316 type 10): one, however often the instruction is executed again. -/
def State.nodeError (s : State) (i : Nat) (va : Word) : State :=
  if s.seq.elems.contains i then s
  else
    (s.logEntry (s.partOf s.hart)
      { type := 10, sev := 2, ovr := false, cls := 0, idx := s.hart, addr := va, qid := s.qidOf s.hart, data := leBytes 8 s.hart ++ leBytes 8 va.toNat }).upd
      fun q => { q with elems := q.elems ++ [i] }

/-- Element i of boxt or trit: the ray record, then the node. -/
def State.rayElem (s : State) (i : Nat) (ray node : Word) (n : Nat) (f : (Nat → Nat) → (Nat → Nat) → Nat) : Res Nat :=
  if ray.toNat % 16 ≠ 0 then .trap 4 ray s
  else
    (s.loadAt s.via ray 48 false).bind fun r s1 =>
      if node.toNat % 16 ≠ 0 then .trap 4 node s1
      else
        match s1.loadAt s1.via node n false with
        | .ok b s2 => .ok (f (wordOf r) (wordOf b)) s2
        | .trap 30 _ s2 => .ok nodeErrorCode (s2.nodeError i node)
        | .trap c v s2 => .trap c v s2
        | .stall w s2 => .stall w s2

/-- boxt and trit. -/
def doRay (s : State) (vm : Bool) (vd vs2 rs1 : Reg) (n ord : Nat) (f : (Nat → Nat) → (Nat → Nat) → Nat) : Res VInfo :=
  let v := s.seq.vec
  let d := v.grpK vd.toNat 32 1
  let g := v.grpK vs2.toNat 64 2
  let ray (i : Nat) : Word := s.x rs1 + BitVec.ofNat 64 (48 * i)
  let node (i : Nat) : Word := BitVec.ofNat 64 (v.get vs2.toNat 64 i)
  s.vguard true (v.shadeOk 32 vm false d g) (
    ((runElems (v.active vm) (fun i st =>
        (st.rayElem i (ray i) (node i) n f).bind fun x st1 => .ok () (st1.updVec fun u => u.put vd.toNat 32 i x)) v.vl s).keepVec v).bind fun k s1 =>
      let m := k.getD v.vl
      let r := unionRange (v.active vm) (fun i => joinRange (blockRange (ray i) 48) (blockRange (node i) n)) m
      let locs := s1.elemLocs s.via .load (v.active vm) ray 48 m ++ s1.elemLocs s.via .load (v.active vm) node n m
      .ok (shadeInfo ord vm k.isSome r (v.popActive vm m)) ((s1.mergeSpans s.via locs).truncLoad k))

def doBoxt (s : State) (vm : Bool) (vd vs2 rs1 : Reg) : Res VInfo := doRay s vm vd vs2 rs1 32 4349 boxHit
def doTrit (s : State) (vm : Bool) (vd vs2 rs1 : Reg) : Res VInfo := doRay s vm vd vs2 rs1 48 4350 triHit
def execBoxt (vm : Bool) (vd vs2 rs1 : Reg) (s : State) : Host.Outcome State Fault Refusal := finishV (doBoxt s vm vd vs2 rs1)
def execTrit (vm : Bool) (vd vs2 rs1 : Reg) (s : State) : Host.Outcome State Fault Refusal := finishV (doTrit s vm vd vs2 rs1)

end Sys2Proof.Machine
end

