-- ==== Sys2Proof/Machine/TexAsync.lean ====
section
/-! DEFINITION. Asynchronous sampling: tex.sa and its completion (R292, R293). -/

namespace Sys2Proof.Machine

/-- The coordinates of the active samples below n. -/
def Vec.coords (v : Vec) (vm : Bool) (vs2 n : Nat) : List (Nat × Word) :=
  (List.range n).filterMap fun i => if v.active vm i then some (i, BitVec.ofNat 64 (v.get vs2 64 i)) else none

def doTexSa (s : State) (vm : Bool) (rd vs2 rs1 : Reg) : Res VInfo :=
  let v := s.seq.vec
  let hm := match s.seq.task with | some t => t.hm | none => false
  let g := v.grpK vs2.toNat 64 2
  s.vguard true (hm && v.sew == 32 && g.ok v.nregs) (
    (s.readBlock (s.x rs1) 32 32).bind fun b s1 =>
      (s1.readBlock (fldW b 0x00) 32 32).bind fun d s2 =>
        if (textureOf d).isNone ∨ fld b 0x08 8 % 16 ≠ 0 ∨ fld b 0x19 7 ≠ 0 then s2.illegal
        else if s2.requestsFull then .stall .sample s2
        else
          let tag := s2.draws % 2 ^ 32
          let cs := v.coords vm vs2.toNat v.vl
          let op : TexOp :=
            { desc := d, out := fldW b 0x08, rtag := tag, rhidx := fld b 0x18 1, count := 0, coords := cs, issuer := s.issuer s.hart }
          let r := joinRange (blockRange (s.x rs1) 32) (blockRange (fldW b 0x00) 32)
          .ok (shadeInfo 4348 vm false r cs.length)
            ((s2.upd fun q => { q with tex := q.tex ++ [op], reqs := q.reqs ++ [⟨tag, fld b 0x18 1, fldW b 0x10⟩] }).setX rd
              (BitVec.ofNat 64 cs.length)))

def execTexSa (vm : Bool) (rd vs2 rs1 : Reg) (s : State) : Host.Outcome State Fault Refusal := finishV (doTexSa s vm rd vs2 rs1)

/-- How sampling went on: the operation with what is left, and the fault that ended it. -/
inductive TexRun where
  | ended (op : TexOp) (fault : Option (Nat × Word)) (s : State)
  | waits (op : TexOp) (s : State)

/-- The four channels of a sample are written; a store that a failed boundary loses ends the work as a load does (R292). -/
def State.texPut (s : State) (via : Via) (va : Word) (l : List Nat) : Res Unit :=
  (s.locate via va 16 .store).bind fun ls s1 =>
    if ls.any fun l => l.t == .void then .trap 48 va s1 else s1.storeLocs via ls (l.flatMap fun c => leBytes 4 c)

/-- Samples and writes the coordinates in order; what a sample read through a peer window is kept until it is written. -/
def texRun (via : Via) (t : Texture) (op : TexOp) : List (Nat × Word) → State → TexRun
  | [], s => .ended { op with coords := [] } none s
  | (i, uv) :: rest, s =>
    let here : TexOp := { op with coords := (i, uv) :: rest }
    let r := (s.sample via t uv.toNat).bind fun l s1 =>
      (s1.mergeSpans via (s1.texelLocs via t uv.toNat)).texPut via (op.out + BitVec.ofNat 64 (16 * i)) l
    match r with
    | .ok _ s1 => texRun via t { op with count := op.count + 1 } rest (s1.dropAsks via.party)
    | .trap c v s1 => .ended here (some (c, v)) (s1.dropAsks via.party)
    | .stall _ s1 => .waits here s1

/-- Changes the sampling operations of the context on a hart, or of the one whose save area it is. -/
def State.modTex (s : State) (h : Nat) (area : Option Nat) (f : List TexOp → List TexOp) : State :=
  match area with
  | some a => { s with saved := s.saved.map fun x => if x.hart = h ∧ x.area = a then { x with seq := { x.seq with tex := f x.seq.tex } } else x }
  | none => s.modSeq h fun q => { q with tex := f q.tex }

/-- Operation idx among those of contexts saved from a hart: its save area, and its place there. -/
def texSaved (h : Nat) : List Saved → Nat → Option (Nat × Nat × TexOp)
  | [], _ => none
  | x :: xs, i =>
    if x.hart ≠ h then texSaved h xs i
    else
      match x.seq.tex[i]? with
      | some op => some (x.area, i, op)
      | none => texSaved h xs (i - x.seq.tex.length)

/-- Operation idx of a hart: of the context on it, and then of the contexts saved from it. -/
def State.texAt (s : State) (h idx : Nat) : Option (Option Nat × Nat × TexOp) :=
  let own := (s.getSeq h).tex
  match own[idx]? with
  | some op => some (none, idx, op)
  | none => (texSaved h s.saved (idx - own.length)).map fun p => (some p.1, p.2)

/-- The reply of a sampling operation; work that a failed die or link has lost has RSTAT 2 and LEN 0 (R292). -/
def State.texReply (s : State) (h part : Nat) (op : TexOp) (fault : Option (Nat × Word)) : Msg :=
  let f := fault.getD (0, 0)
  let m : Msg := { Msg.blank h h part (s.core (coreOf h)).inc.toNat with hidx := op.rhidx, cls := .reply, rtag := op.rtag, tex := true, gone := true }
  if f.1 = 48 then { m with rstat := 2 } else { m with payload := leBytes 4 op.count ++ leBytes 4 f.1 ++ leBytes 8 f.2.toNat }

/-- The load pipes perform sampling operation idx of a hart, or of a context saved from it, and send the reply once the writes are
acknowledged. -/
def execTexSaComplete (hart idx : Nat) (s : State) : Host.Outcome State Fault Refusal :=
  match s.texAt hart idx with
  | none => .next s
  | some (area, i, op) =>
    match textureOf op.desc with
    | none => .next s
    | some t =>
      let via := s.viaEng hart op.issuer false
      match texRun via t op op.coords s with
      | .ended op1 f s1 =>
        if s1.peerOwes via.party then .next (s1.modTex hart area fun l => l.set i op1)
        else .next ((s1.modTex hart area fun l => l.eraseIdx i).inject (s1.texReply hart (s1.partOfCluster (hartCluster hart)) op1 f))
      | .waits op1 s1 => .next (s1.modTex hart area fun l => l.set i op1)

end Sys2Proof.Machine
end

