-- ==== Sys2Proof/Machine/Tasks.lean ====
section
/-! DEFINITION. How a task ends and what it gives back (R52, R101, R311, R315): kexit, ending a faulted task, and discarding
contexts. -/

namespace Sys2Proof.Machine

/-! ## What a context holds outside its registers -/

/-- A hart without a task (R311); what belongs to the sequencer stays. -/
def Seq.freed (q : Seq) : Seq :=
  { Seq.reset with x := q.x, f := q.f, pc := q.pc, priv := q.priv, run := .free,
                   ctl := { Ctl.reset with cgen := q.ctl.cgen, itbudget := q.ctl.itbudget, fwdlife := q.ctl.fwdlife, dbgEn := q.ctl.dbgEn,
                                           dbgHead := q.ctl.dbgHead, dbgSeq := q.ctl.dbgSeq } }

/-- The core's matrix context is free if this hart held it. -/
def State.freeMatrix (s : State) (h : Nat) : State :=
  s.modCore (coreOf h) fun k => if k.holder = some h then { k with holder := none } else k

/-- A context's armed words and held messages are discarded (R241). -/
def State.disarmAll (s : State) (c : Ctx) : State :=
  { s with cores := s.cores.map fun p =>
      (p.1, { p.2 with armed := p.2.armed.filter (·.owner != c), heldMsg := p.2.heldMsg.filter (·.1 != c) }) }

/-- Frees scratch allocations and the channel buffers in them, on any core. -/
def State.freeScratch (s : State) (sel : Alloc → Bool) : State :=
  { s with cores := s.cores.map fun p => (p.1, { p.2 with allocs := p.2.allocs.filter fun a => !sel a }) }

def State.freeBuffers (s : State) (launch lin : Nat) : State :=
  { s with cores := s.cores.map fun p => (p.1, { p.2 with chans := p.2.chans.filter fun b => !(b.launch == launch && b.lin == lin) }) }

/-- The messages waiting for the task on a hart (`owner` none) or for a context saved from it bounce; entries of channel items are dropped
(R252, R311). -/
def State.bounceWaiting (s : State) (h : Nat) (owner : Option Nat) : State :=
  let sel (m : Msg) : Bool := m.dest == h && m.owner == owner
  let mine := (s.core (coreOf h)).inbox.filter sel
  let s1 := s.modCore (coreOf h) fun k => { k with inbox := k.inbox.filter fun m => !sel m }
  mine.foldl (fun st m => if m.chan then st else st.bounce m) s1

/-- A task leaves its workgroup: its barrier, and with the last task the workgroup's scratch (R52, R242, R243). -/
def State.leaveGroup (s : State) (t : Task) : State :=
  let left := s.wgTasks t.launch t.wg - 1
  let s1 := (s.modLaunch t.launch fun l => { l with wgLeft := aput l.wgLeft t.wg left }).depart t.launch t.wg t.lin left
  if left = 0 then s1.freeScratch fun a => a.launch == t.launch && a.wg == t.wg && a.lin.isNone else s1

/-- What a task gives back however it ends (R311). -/
def State.giveBack (s : State) (t : Task) : State :=
  let c : Ctx := .task t.launch t.lin
  let s1 := (s.releaseRods (.ctx c)).disarmAll c
  let s2 := (s1.freeScratch fun a => a.launch == t.launch && a.lin == some t.lin).freeBuffers t.launch t.lin
  s2.leaveGroup t

/-- The sequencer of a task is freed and its waiting messages bounce. -/
def State.freeHart (s : State) (h : Nat) : State := (((s.freeMatrix h).settled h).modSeq h Seq.freed).bounceWaiting h none

/-- A task of a launch has retired, or is lost. -/
def Launch.retire (l : Launch) (lin : Nat) : Launch := { l with retired := insNat l.retired lin }
def Launch.lose (l : Launch) (lin : Nat) : Launch := { l with lost := insNat l.lost lin }

/-! ## kexit (R101) -/

/-- Does a chain wait on TAIL with no entry in progress? TAIL is read as the chain's own reads are; behind a peer window the engine's last read of it counts. -/
def State.chainWaits (s : State) (h : Nat) (c : Chain) : Bool :=
  c.running.isEmpty &&
    match ((s.peek (s.viaEng h c.issuer true) c.pair 8).map leNat).or c.tail with
    | some t => decide (t < c.k)
    | none => false

/-- Ends the chains that wait on TAIL with no entry in progress; each completes as failed with cause 0 (R159). -/
def State.endIdleChains (s : State) (h : Nat) : List Chain → State
  | [] => s
  | c :: cs =>
    (if s.chainWaits h c then s.endChain h c (some ⟨0, 0, c.k⟩) else s).endIdleChains h cs

/-- Stops the streams and ends the waiting chains of a hart. -/
def State.windDown (s : State) (h : Nat) : State :=
  let s1 := s.modSeq h fun q => (List.range 4).foldl (fun q i => q.stopStream i) q
  s1.endIdleChains h (s1.getSeq h).copy.chains

/-- Has a context no engine operation that is not complete (R101, R293)? -/
def Seq.engineIdle (q : Seq) : Bool := q.copy.ops.isEmpty && q.copy.chains.isEmpty && q.mat.ops.isEmpty && q.tex.isEmpty

/-- One record with DRAIN for each failed operation that the task has not observed (R315). -/
def State.drainRecords (s : State) (h : Nat) (t : Task) : List EngFail → State
  | [] => s
  | f :: fs =>
    ((s.errRecord t.launch f.cause h 1 t.lin (s.seePc h (s.getSeq h).pc) f.va (BitVec.ofNat 64 f.n) (BitVec.ofNat 64 f.eng)).modLaunch t.launch
      fun l => { l with faulted := true }).drainRecords h t fs

/-- kexit discards the zero triggers that reach the task during it: those on their way (R311; log 74). -/
def State.dropTriggers (s : State) (h : Nat) : State :=
  { s with net := s.net.filter fun m => m.bounced || !(m.dest == h && m.cls == .trigger) }

/-- kexit discards the replies of the task's sampling operations (R293). -/
def State.dropTex (s : State) (h : Nat) : State :=
  let mine := (s.getSeq h).reqs
  let keep (m : Msg) : Bool := m.bounced || !(m.dest == h && m.tex && mine.any fun r => r.rtag == m.rtag)
  { s.modCore (coreOf h) fun k => { k with inbox := k.inbox.filter keep } with net := s.net.filter keep }

/-- Steps 2 to 4 of R101. -/
def State.exitTask (s : State) (h : Nat) (t : Task) : State :=
  let s1 := (s.flushP h).drainRecords h t (s.getSeq h).fails
  let s2 := (s1.giveBack t).modLaunch t.launch fun l => l.retire t.lin
  (((s2.dropTriggers h).dropTex h).freeHart h).safePoint h

/-- kexit waits until the engines are idle and every store and red through a peer window is acknowledged (R101, R232). -/
def execKexit (s : State) : Host.Outcome State Fault Refusal :=
  match s.seq.task with
  | none => finish s.illegal
  | some t =>
    if isSupervisor s.hart ∨ s.seq.mode ≠ .u then finish s.illegal
    else
      let s1 := s.windDown s.hart
      if s1.seq.engineIdle ∧ !s1.peerOwes s1.via.party then .next (s1.exitTask s.hart t) else .next (s1.stalled .exit)

/-! ## Ending tasks (R297, R315) -/

/-- Discards the context that a hart runs. -/
def State.discardHart (s : State) (h : Nat) (t : Task) : State :=
  ((s.giveBack t).modLaunch t.launch fun l => l.lose t.lin).freeHart h

/-- A reservation ends: the rod goes to the oldest waiter (R214). -/
def State.lapse (s : State) (region : Nat) : State :=
  match aget s.coh.rods region with
  | none => s
  | some r => if r.area.isNone then s else s.passRod region r

/-- Discards a saved context; its reservations are released (R214). -/
def State.discardSaved (s : State) (x : Saved) : State :=
  let mine := (s.coh.rods.filter fun p => p.2.area == some x.area).map (·.1)
  let s1 := mine.foldl (fun st g => st.lapse g) { s with saved := s.saved.filter (· != x) }
  match x.seq.task with
  | none => s1
  | some t => ((s1.giveBack t).modLaunch t.launch fun l => l.lose t.lin).bounceWaiting x.hart (some x.area)

/-- The fault that a hart in its trap handler has taken: cause, epc and tval. -/
def Seq.taken (q : Seq) : Nat × Word × Word :=
  if q.mode = .m then (lowBits q.priv.mcause 16, q.priv.mepc, q.priv.mtval) else (lowBits q.priv.scause 16, q.priv.sepc, q.priv.stval)

/-- An error record with ENDED. -/
def State.endedRecord (s : State) (h : Nat) (t : Task) (cause : Nat) (epc tval : Word) : State :=
  (s.errRecord t.launch cause h 2 t.lin epc tval (s.info0 t cause tval) 0).modLaunch t.launch fun l => { l with faulted := true }

/-- The fault for which a hart was halted in its task: that which the supervisor hart of its cluster has taken (R297), else none. -/
def State.haltFault (s : State) (h : Nat) : Nat × Word × Word :=
  let f := (s.getSeq (supervisorOf (hartCluster h))).taken
  if f.1 = 28 then f else (0, s.seePc h (s.getSeq h).pc, 0)

/-- The runtime ends the task of a hart that is in its trap handler or halted, or discards the context saved from a hart. -/
def execEndTask (hart : Nat) (s : State) : Host.Outcome State Fault Refusal :=
  .next (
    let q := s.getSeq hart
    match q.task with
    | some t =>
      if q.mode = .u ∧ q.run ≠ .halted then s
      else
        let f := if q.mode = .u then s.haltFault hart else q.taken
        (s.endedRecord hart t f.1 f.2.1 f.2.2).discardHart hart t
    | none =>
      match s.savedFrom hart with
      | none => s
      | some x =>
        match x.seq.task with
        | some t => (s.endedRecord hart t 0 (s.seeSaved x.seq) 0).discardSaved x
        | none => s.discardSaved x)

end Sys2Proof.Machine
end

