-- ==== Sys2Proof/Machine/Place.lean ====
section
/-! DEFINITION. Where a context may stand (R19, R52, R104, R105, R307): free sequencers, EXC, scratch and lanes. -/

namespace Sys2Proof.Machine

/-! ## Flags of a header (R19) -/

def Launch.flags (l : Launch) : Nat := leNat ((l.header.drop 2).take 2)
def Launch.os (l : Launch) : Bool := l.flags % 2 == 1
def Launch.span (l : Launch) : Bool := l.flags / 2 % 2 == 1
def Launch.exc (l : Launch) : Bool := l.flags / 4 % 2 == 1
def Launch.hmFlag (l : Launch) : Bool := l.flags / 8 % 2 == 1

/-- The launches whose tasks are bound on a core. -/
def State.coreLaunches (s : State) (core : Nat) : List Nat :=
  (List.range 4).filterMap fun i => ((s.getSeq (4 * core + i)).task).map (·.launch)

/-- Would a task of a launch on a core break EXC? -/
def State.excBreaks (s : State) (core launch : Nat) : Bool :=
  let exc (id : Nat) : Bool := match s.launch? id with | some l => l.exc | none => false
  (s.coreLaunches core).any fun id => id != launch && (exc launch || exc id)

/-! ## Free sequencers -/

/-- Was the task of a channel buffer saved where it was bound? -/
def State.consumerSaved (s : State) (b : ChanBuf) : Bool :=
  s.saved.any fun x => x.hart == b.hart && match x.seq.task with | some t => t.launch == b.launch && t.lin == b.lin | none => false

/-- Is a sequencer free: does it hold no task (R46)? One left by a migrated context is not while its forwarding entry lasts (R307), nor while its
channel buffers stand (R259). In minimal mode only cluster 0 runs (R335). -/
def State.seqFree (s : State) (h : Nat) : Bool :=
  let q := s.getSeq h
  let k := s.core (coreOf h)
  decide (h < 4096) && (!s.dev.minimal || hartCluster h == 0) && q.task.isNone && !(k.fwd.any fun f => f.old == h && decide (s.time < f.expiry)) &&
    !(k.chans.any fun b => b.hart == h && !s.consumerSaved b)

/-- Is a sequencer offered to a launch? One that a saved task left is not to a launch of a queue whose PRIO is not above that of the saved task's queue,
and where that is of an EXC launch only while its core is empty (R348). -/
def State.offers (s : State) (l : Launch) (h : Nat) : Bool :=
  s.saved.all fun x => x.hart != h || match x.seq.task.bind fun t => s.launch? t.launch with
    | some k => decide (s.prioOf k < s.prioOf l) && (!k.exc || s.coreLaunches (coreOf h) == [])
    | none => true

/-- The translation, HOMEN and PBMTE of a partition, which a sequencer takes with a context of it (log 20). -/
def State.privOf (s : State) (part : Nat) (p : Priv) : Priv :=
  let e := s.envOf part
  { p with satp := s.satpOf part, menvcfg := putBits (putBits p.menvcfg 57 1 (getBits e 57 1)) 62 1 (getBits e 62 1) }

/-! ## Scratch (R52) -/

/-- A length or an offset in whole units of 128 bytes. -/
def up128 (n : Nat) : Nat := (n + 127) / 128 * 128

/-- Is a range of a core's scratch free of allocations? -/
def Core.rangeFree (k : Core) (off len : Nat) : Bool :=
  decide (off + len ≤ Config.scratchBytes) && k.allocs.all fun a => decide (off + len ≤ a.off ∨ a.off + a.len ≤ off ∨ len = 0)

/-- The lowest place for len bytes: offset 0 or the first unit past an allocation. -/
def Core.lowestRoom (k : Core) (len : Nat) : Option Nat :=
  let starts := (k.allocs.map fun a => up128 (a.off + a.len)).foldl insNat [0]
  starts.find? fun o => k.rangeFree o len

/-! ## Lanes regained (R104) -/

/-- Can a core give this many lane groups at all, and now (status −5)? -/
def State.lanesFor (s : State) (h held : Nat) : Bool :=
  let k := s.core (coreOf h)
  decide (held ≤ min (s.capOf (coreOf h)) (8 - popcount k.dis) ∧ held ≤ popcount (~~~(s.otherLanes h ||| k.dis)))

/-- The groups that a context takes: of those it held the free ones, then the lowest free ones. -/
def State.regain (s : State) (h held : Nat) (old : BitVec 8) : BitVec 8 :=
  let free := ~~~(s.otherLanes h ||| (s.core (coreOf h)).dis)
  let keep := lowestGroups (old &&& free) held 0 8
  keep ||| lowestGroups (free &&& ~~~keep) (held - popcount keep) 0 8

end Sys2Proof.Machine
end

