-- ==== Sys2Proof/Machine/Save.lean ====
section
/-! DEFINITION. ctx.save (R103, R156, R166, R183, R214, R303 to R305). -/

namespace Sys2Proof.Machine

/-! ## Engine records (R304) -/

/-- A record: 32 bytes, the doubleword at 0x20 and the one at 0x28 with V. -/
def engRec (b : List Byte) (d20 d28 : Nat) : List Byte := (b ++ List.replicate 32 0).take 32 ++ leBytes 8 d20 ++ leBytes 8 (d28 + 2 ^ 63)

/-- FORM of a copy operation. -/
def CopyOp.formCode (op : CopyOp) : Nat := if op.form = 0 then 1 else if op.form = 1 then 2 else 0

/-- KIND 0; `late` is ISS − n, with n the chain's number for an entry of a chain. -/
def copyRec (op : CopyOp) (late : Nat) (chain : Bool) : List Byte :=
  engRec (leBytes 8 op.dst.toNat ++ leBytes 8 op.src.toNat ++ leBytes 8 op.dstride.toNat ++ leBytes 8 op.sstride.toNat)
    (op.rowBytes % 2 ^ 41 + (if op.form = 3 then op.rows else 0) % 2 ^ 21 * 2 ^ 41)
    (op.done % 2 ^ 46 + op.formCode * 2 ^ 46 + op.comb % 16 * 2 ^ 48 + late % 16 * 2 ^ 52 + op.tok.toNat * 2 ^ 56 +
      b2n op.follow.isSome * 2 ^ 61 + b2n chain * 2 ^ 62)

/-- The address of a chain's lowest entry not complete. -/
def Chain.lowest (c : Chain) : Word := ((c.addrs.find? fun e => e.1 == c.doneK + 1).map (·.2)).getD c.next

/-- KIND 1. -/
def chainRec (c : Chain) (late : Nat) : List Byte :=
  engRec (leBytes 8 c.lowest.toNat ++ leBytes 8 c.pair.toNat ++ leBytes 8 (c.doneK + 1)) (2 ^ 62) (late % 16 * 2 ^ 52 + c.tok.toNat * 2 ^ 56)

/-- An mma of a format with register fields 0. -/
def mmaBare (f : MmaFmt) (acc : BitVec 2) : Instr :=
  match f with
  | .e4e4 => .mmaE4e4 acc 0 0 0 | .e4e5 => .mmaE4e5 acc 0 0 0 | .e5e4 => .mmaE5e4 acc 0 0 0 | .e5e5 => .mmaE5e5 acc 0 0 0
  | .e2e2 => .mmaE2e2 acc 0 0 0 | .e2e4 => .mmaE2e4 acc 0 0 0 | .e4e2 => .mmaE4e2 acc 0 0 0 | .i8i8 => .mmaI8i8 acc 0 0 0
  | .bfbf => .mmaBfbf acc 0 0 | .hfhf => .mmaHfhf acc 0 0 | .dfdf => .mmaDfdf acc 0 0

/-- MWORD of a follow-on command. -/
def MatOp.mword (m : MatOp) : Nat :=
  match m.kind with
  | .mma f => ((encode (mmaBare f m.acc)).map (·.2)).getD 0
  | _ => 0

/-- KIND 2. -/
def followRec (m : MatOp) (late : Nat) : List Byte :=
  engRec (leBytes 8 m.a.toNat ++ leBytes 8 m.b.toNat ++ leBytes 8 m.w.toNat ++ leBytes 4 m.stra.toNat ++ leBytes 4 m.strb.toNat)
    (2 ^ 63 + m.mword) (late % 16 * 2 ^ 52)

/-- The records of a context, each with the distance its late field holds the low bits of. -/
def Seq.engRecs (q : Seq) : List (Nat × List Byte) :=
  (q.copy.ops.flatMap fun op =>
    let d := q.copy.iss - op.n
    (d, copyRec op d false) ::
      match op.follow.bind fun nm => q.mat.ops.find? fun m => m.n == nm with
      | some m => let d' := q.mat.iss - m.n; [(d', followRec m d')]
      | none => []) ++
    q.copy.chains.flatMap fun c =>
      let d := q.copy.iss - c.n
      (d, chainRec c d) :: c.running.map fun e => (d, copyRec e.2 d true)

/-- Has a copy written nothing, or does what it has written end at a line boundary of its destination (R156, R304)? -/
def CopyOp.atLine (op : CopyOp) : Bool :=
  let last := op.done - 1
  op.done == 0 ||
    (op.dst + BitVec.ofNat 64 (last / op.rowBytes) * op.dstride + BitVec.ofNat 64 (last % op.rowBytes + 1)).toNat % 128 == 0

/-- May a copy pause: it moves bytes, no check of it failed, and it stands at a boundary? -/
def CopyOp.pausable (op : CopyOp) : Bool := op.failed.isNone && decide (op.rows * op.rowBytes ≠ 0) && op.atLine

/-- Have the engines come to where a context can be saved: matrix operations done but those that wait for a copy
(R183), copies paused, at most 16 records (R304)? -/
def Seq.drained (q : Seq) : Bool :=
  q.mat.ops.all (fun m => m.copyN.isSome) && q.copy.ops.all CopyOp.pausable && q.copy.chains.all (fun c => c.running.all fun e => e.2.pausable)

/-! ## The parts of the layout (R303) -/

/-- A stream's 48 bytes; the unpopped entries are discarded (R166). -/
def Stream.bytes48 (t : Stream) : List Byte :=
  leBytes 8 t.base.toNat ++ leBytes 8 t.stride.toNat ++ leBytes 8 t.count ++ leBytes 4 t.ew.toNat ++ leBytes 4 (t.state.code + t.fcause % 256 * 256) ++
    leBytes 8 t.next ++ leBytes 8 (t.marker.getD 0)

def LoopEntry.bytes40 (e : LoopEntry) : List Byte :=
  leBytes 8 e.start.toNat ++ leBytes 8 e.stop.toNat ++ leBytes 8 e.count.toNat ++ leBytes 8 e.index.toNat ++ leBytes 8 (modeCode e.mode)

/-- n bytes, zeros past the end. -/
def padTo (n : Nat) (b : List Byte) : List Byte := (b ++ List.replicate n 0).take n

/-- The 32 doublewords of control state. -/
def Seq.ctlWords (q : Seq) (held : Bool) : List Nat :=
  [(q.frm ++ q.fflags).toNat, q.vec.vl, q.vec.vtype.toNat, q.vec.vshare.toNat, q.vec.vrcfg.toNat, q.ctl.msksp.toNat,
   q.vec.mdepth % 2 ^ 32 + q.vec.mstack.length * 2 ^ 32, q.ctl.mprog, q.ctl.mstra.toNat, q.ctl.mstrb.toNat, q.ctl.xsflags.toNat,
   b2n q.ctl.vstrunc, q.ctl.htbase.toNat, q.ctl.wid.toNat, q.ctl.cgen, q.eraCount.toNat, q.copy.iss, q.copy.count, q.mat.iss, q.mat.count,
   q.strm.iss, q.strm.count, q.copy.failN, q.copy.failVa.toNat, q.copy.failCause, q.copy.failEntry,
   b2n held + (match q.mat.pend with | some p => p.1 % 256 * 256 | none => 0), (match q.mat.pend with | some p => p.2 | none => 0),
   q.barGen.getD 0, b2n q.hs.mode + b2n q.hs.inside * 2 + q.hs.hidx % 256 * 256 + b2n q.hs.owed * 65536,
   if q.hs.owed then q.hs.reqHart % 65536 + q.hs.rtag % 2 ^ 32 * 2 ^ 32 else 0, 0]

/-- Bytes 0x040 to 0x7FF. -/
def Seq.scalarPart (q : Seq) (pc : Word) (held : Bool) : List Byte :=
  leBytes 8 pc.toNat ++ (List.range 31).flatMap (fun i => leBytes 8 (q.rx (BitVec.ofNat 5 (i + 1))).toNat) ++
    (List.range 32).flatMap (fun i => leBytes 8 (q.rf (BitVec.ofNat 5 i)).toNat) ++ (q.ctlWords held).flatMap (leBytes 8) ++
    padTo 240 (q.loops.flatMap LoopEntry.bytes40) ++ leBytes 8 q.loops.length ++ leBytes 8 0 ++
    (List.range 4).flatMap (fun i => (q.stream i).bytes48) ++ padTo 768 (q.engRecs.flatMap (·.2))

/-- The vector part. -/
def Vec.savedRegs (v : Vec) : List Byte :=
  (List.range v.nregs).flatMap fun r => leBytes (8192 * popcount v.hmask / v.nregs) (v.reg r).toNat

/-- The matrix part: the four accumulators in cell order. -/
def Core.savedAccs (k : Core) : List Byte := (List.range 4).flatMap fun a => (List.range 64).flatMap fun m => leBytes 256 (k.accRow a m).toNat

/-! ## Rods (R214) -/

/-- The expiry that a rod's lease had at the halt of its holder. -/
def Rod.kept (r : Rod) : Nat := r.atHalt.getD r.expiry

/-- The halt of a context is over: the leases of its rods are those they have. -/
def State.endHaltRods (s : State) (c : Ctx) : State :=
  { s with coh := { s.coh with rods := s.coh.rods.map fun p => if p.2.holder = some (.ctx c) then (p.1, { p.2 with atHalt := none }) else p } }

/-- Inserts a rod, latest expiry first, the lower region first among equals. -/
def insRod (r : Nat × Rod) : List (Nat × Rod) → List (Nat × Rod)
  | [] => [r]
  | x :: xs => if x.2.kept < r.2.kept then r :: x :: xs else x :: insRod r xs

/-- The rods a context keeps, and those it releases. -/
def State.keptRods (s : State) (c : Ctx) : List (Nat × Rod) × List (Nat × Rod) :=
  let mine := (s.coh.rods.filter fun p => p.2.holder == some (.ctx c) && p.2.area.isNone).foldl (fun l r => insRod r l) []
  (mine.take 16, mine.drop 16)

def rodRecord (r : Nat × Rod) : List Byte := leBytes 8 (r.1 * 4096 + 1) ++ leBytes 8 r.2.kept

/-! ## The save area -/

/-- Bytes of a task's scratch below its channel buffers, which stay (R259). -/
def State.scratchMain (s : State) (t : Task) : Nat :=
  let bufs := ((s.core ((t.scrBase.toNat - Config.scratchBase) / 2 ^ 18)).chans.filter fun b => b.launch == t.launch && b.lin == t.lin).map (·.base)
  bufs.foldl (fun n b => min n (b - t.scrBase.toNat)) t.scrLen

/-- The parts of a save area and the offsets of mask part, accumulators, scratch image and rod records. -/
structure Area where
  bytes : List Byte
  acc   : Nat
  scr   : Nat
deriving DecidableEq, Repr

/-- The save area of the context on a hart. -/
def State.saveArea (s : State) (h : Nat) : Area :=
  let q := s.getSeq h
  let k := s.core (coreOf h)
  let live := k.holder == some h
  let scrBase := match q.task with | some t => t.scrBase | none => 0
  let scrLen := match q.task with | some t => t.scrLen | none => 0
  let rods := (s.keptRods (ctxOf q h)).1
  let vec := q.vec.savedRegs
  let msk := q.vec.mstack.reverse.flatMap MaskEntry.bytes
  let acc := if live then k.savedAccs else []
  let mskOff := 2048 + vec.length
  let accOff := mskOff + msk.length
  let scrOff := accOff + acc.length
  let rodOff := scrOff + scrLen
  let size := rodOff + 16 * rods.length
  let flags := b2n live + (match q.task with | some t => b2n t.hm * 2 + b2n t.pipe.isSome * 8 | none => 0) + b2n q.epend * 4
  let header := leBytes 4 s.dev.fwWrites ++ leBytes 4 size ++ leBytes 2 h ++ leBytes 1 (popcount q.vec.hmask) ++ leBytes 1 q.vec.mstack.length ++
    leBytes 1 rods.length ++ leBytes 1 flags ++ leBytes 2 0 ++ leBytes 8 scrBase.toNat ++ leBytes 4 scrLen ++ leBytes 4 0 ++
    leBytes 8 (q.since.getD s.time) ++ leBytes 4 mskOff ++ leBytes 4 (if live then accOff else 0) ++ leBytes 4 scrOff ++ leBytes 4 rodOff ++ leBytes 8 0
  ⟨header ++ q.scalarPart (s.seePc h q.pc) live ++ vec ++ msk ++ acc ++ memRead s.mem scrBase.toNat scrLen ++ rods.flatMap rodRecord, accOff, scrOff⟩

/-- Poison of the saved scratch and accumulators goes with the data (R192, R317). -/
def State.poisonArea (s0 s : State) (h : Nat) (ls : List Loc) (a : Area) : State :=
  let q := s0.getSeq h
  let mark (st : State) (off : Nat) : State := match byteAt ls off with | some pa => st.poisonRange pa 1 | none => st
  let s1 := if (s0.core (coreOf h)).holder = some h then
      (s0.core (coreOf h)).marks.foldl (fun st m => mark st (a.acc + m.1 * 16384 + m.2.1 * 256 + 4 * m.2.2)) s
    else s
  match q.task with
  | none => s1
  | some t =>
    (List.range (t.scrLen / 32)).foldl (fun st i => if s0.poisoned (t.scrBase.toNat + 32 * i) 1 then mark st (a.scr + 32 * i) else st) s1

/-! ## The instruction -/

/-- The kept rods are reserved to the save area, the others released; what the context asked for is withdrawn. -/
def State.reserveRods (s : State) (c : Ctx) (pa : Nat) : State :=
  let k := s.keptRods c
  let s1 := k.2.foldl (fun st r => st.releaseRod r.1 (.ctx c)) s
  let kept := k.1.map (·.1)
  { s1 with coh := { s1.coh with rods := s1.coh.rods.map fun p =>
      let r : Rod := { p.2 with waiters := p.2.waiters.filter (· != .ctx c), recalled := p.2.recalled && !kept.contains p.1 }
      (p.1, if kept.contains p.1 then { r with holder := none, area := some pa, expiry := p.2.kept, atHalt := none } else r) } }

/-- A saved task's scratch is released but for its channel buffers. -/
def State.releaseScratch (s : State) (t : Task) : State :=
  let core := (t.scrBase.toNat - Config.scratchBase) / 2 ^ 18
  let off := t.scrBase.toNat % 2 ^ 18
  let main := s.scratchMain t
  s.modCore core fun k =>
    { k with allocs := k.allocs.filterMap fun a =>
        if a.launch = t.launch ∧ a.lin = some t.lin then
          (if main < a.len then some { a with off := off + main, len := a.len - main } else none)
        else some a }

/-- The context is saved: what the sequencer held goes, the area holds it, and its messages wait for it (R252). -/
def State.toArea (s : State) (h pa : Nat) : State :=
  let q := s.getSeq h
  let s1 := s.reserveRods (ctxOf q h) pa
  let s2 := match q.task with | some t => s1.releaseScratch t | none => s1
  let s3 := (s2.freeMatrix h).modSeq h Seq.freed
  let s4 := s3.modCore (coreOf h) fun k =>
    { k with inbox := k.inbox.map fun m => if m.dest = h ∧ m.owner = none then { m with owner := some pa } else m }
  { s4 with saved := s4.saved.filter (·.area ≠ pa) ++ [{ area := pa, hart := h, seq := q }] }

/-- Lets the lowest-numbered copy operation that can go on work, where the records would be more than 16 (R304). -/
def State.runLowest (s : State) (h : Nat) : State :=
  let c := (s.getSeq h).copy
  let nums := (c.ops.map (·.n)) ++ (c.chains.filter fun k => k.running ≠ []).map (·.n)
  match nums.min? with
  | none => s
  | some n => match execCopyComplete h n s with | .next t => t | _ => s

/-- The virtual address at which the runtime's policy saves the context of a hart: SAVEBASE of its task's queue + 512 KiB × hart id (R348). -/
def State.saveSlot (s : State) (h : Nat) : Option Word :=
  ((s.getSeq h).task.bind fun t => (s.launch? t.launch).bind fun l => (s.queue? l.part l.qid).bind fun q => q.cfg).map fun c => BitVec.ofNat 64 (c.saveBase + 0x80000 * h)

/-- A save of the runtime's policy that traps on its area bars the policy from halting tasks of that queue, until its configuration changes (R348). -/
def State.barHalts (s : State) (h : Nat) (a : Word) : State :=
  match (s.getSeq h).task.bind fun t => s.launch? t.launch with
  | some l => if s.saveSlot h = some a then s.modQueue l.part l.qid fun q => { q with noHalt := true } else s
  | none => s

def Res.barHalts {α : Type} (r : Res α) (h : Nat) (a : Word) : Res α :=
  match r with
  | .trap c v s => .trap c v (s.barHalts h a)
  | r => r

def execCtxSave (rd rs1 rs2 : Reg) (s : State) : Host.Outcome State Fault Refusal :=
  finish (
    let h := (s.x rs1).toNat
    let a := s.x rs2
    let q := s.getSeq h
    if s.seq.mode = .u then s.illegal
    else if 4096 ≤ h ∨ hartCluster h ≠ hartCluster s.hart ∨ q.run ≠ .halted then .ok () (s.setX rd (minus 1))
    else if a.toNat % 128 ≠ 0 then .ok () (s.setX rd (minus 2))
    else if 16 < q.engRecs.length then .stall .drain (s.runLowest h)
    else if !q.drained then .stall .drain s
    else
      let r := s.saveArea h
      s.releaseSys.bind fun _ s0 =>
        ((s0.locateAll s0.via .store (pieces 200 a r.bytes.length)).bind fun ls s1 =>
          (s1.storeLocs s1.via ls r.bytes).bind fun _ s2 =>
            let s3 := (State.poisonArea s1 s2 h ls r).flushP s.hart
            .ok () ((s3.toArea h ((byteAt ls 0).getD 0)).setX rd (BitVec.ofNat 64 r.bytes.length))).barHalts h a)

end Sys2Proof.Machine
end

