-- ==== Sys2Proof/Machine/Restore.lean ====
section
/-! DEFINITION. ctx.load (R104, R215, R303 to R305) and migrate (R105, R241, R307). -/

namespace Sys2Proof.Machine

/-! ## Engine records read back (R304) -/

/-- What the records give. -/
structure Recs where
  ops    : List CopyOp
  chains : List Chain
  mats   : List MatOp
deriving DecidableEq, Repr

/-- A copy operation of a record; it translates for its context again (log 31). -/
def copyOfRec (i : Issuer) (r : List Byte) (n : Nat) (follow : Option Nat) : CopyOp :=
  let d20 := fld r 0x20 8
  let d28 := fld r 0x28 8
  let rows := d20 / 2 ^ 41 % 2 ^ 21
  { n := n, dst := fldW r 0x00, src := fldW r 0x08, dstride := fldW r 0x10, sstride := fldW r 0x18, rows := if rows = 0 then 1 else rows,
    rowBytes := d20 % 2 ^ 41, comb := d28 / 2 ^ 48 % 16,
    form := if rows ≠ 0 then 3 else match d28 / 2 ^ 46 % 4 with | 1 => 0 | 2 => 1 | _ => 2,
    tok := BitVec.ofNat 5 (d28 / 2 ^ 56), done := d28 % 2 ^ 46, failed := none, follow := follow, issuer := i }

/-- The number of a copy's follow-on command. -/
def lastFollow (ops : List CopyOp) : Option (CopyOp × List CopyOp) := ops.getLast?.map fun o => (o, ops.dropLast)

/-- One record; `late` is the whole distance of which the record holds the low 4 bits. -/
def restoreRec (i : Issuer) (iss miss : Nat) (a : Recs) (r : List Byte) (late : Nat) : Recs :=
  let d28 := fld r 0x28 8
  match fld r 0x20 8 / 2 ^ 62 with
  | 0 =>
    if d28 / 2 ^ 62 % 2 = 1 then
      match a.chains.getLast? with
      | none => a
      | some c =>
        let k := c.k + c.running.length
        { a with chains := a.chains.dropLast ++ [{ c with running := c.running ++ [(k, copyOfRec i r k none)] }] }
    else { a with ops := a.ops ++ [copyOfRec i r (iss - late) none] }
  | 1 =>
    let c : Chain :=
      { n := iss - late, next := fldW r 0x00, pair := fldW r 0x08, k := fld r 0x10 8, running := [], ended := [], addrs := [],
        doneK := fld r 0x10 8 - 1, tail := none, tok := BitVec.ofNat 5 (d28 / 2 ^ 56), issuer := i }
    { a with chains := a.chains ++ [c] }
  | 2 =>
    match mmaWord (BitVec.ofNat 32 (fld r 0x20 4)), lastFollow a.ops with
    | some (f, acc), some (op, rest) =>
      let nm := miss - late
      let m : MatOp :=
        { n := nm, kind := .mma f, acc := acc, m0 := 0, rows := [], brows := [], w := BitVec.ofNat 32 (fld r 0x10 4), a := fldW r 0x00,
          b := fldW r 0x08, stra := (BitVec.ofNat 32 (fld r 0x18 4)).signExtend 64, strb := (BitVec.ofNat 32 (fld r 0x1C 4)).signExtend 64,
          follow := true, copyN := some op.n, failed := false, defer := none, tok := op.tok, issuer := i }
      { a with ops := rest ++ [{ op with follow := some nm }], mats := a.mats ++ [m] }
    | _, _ => a
  | _ => a

/-- All sixteen records. `whole` holds the distances at the save, where they are known (log 31). -/
def restoreRecs (i : Issuer) (iss miss : Nat) : List (List Byte) → List Nat → Recs → Recs
  | [], _, a => a
  | r :: rs, whole, a =>
    if fld r 0x28 8 / 2 ^ 63 = 0 then restoreRecs i iss miss rs whole a
    else
      let low := fld r 0x28 8 / 2 ^ 52 % 16
      let late := match whole.head? with | some d => if d % 16 = low then d else low | none => low
      restoreRecs i iss miss rs (whole.drop 1) (restoreRec i iss miss a r late)

/-- The pending tokens of restored operations (R155, R156). -/
def Recs.pend (a : Recs) : List (Reg × Nat) :=
  let l := (a.ops.map fun o => (o.tok, match o.follow with | some nm => nm | none => o.n)) ++ a.chains.map fun c => (c.tok, c.n)
  l.filter fun p => p.1 != 0

/-- The completed numbers above COUNT + 1: those issued that no record names. -/
def lateOf (iss count : Nat) (live : List Nat) : List Nat :=
  ((List.range (min (iss - count) 4096)).map (fun i => count + 1 + i)).filter fun n => !live.contains n

/-- The completed entries above a chain's lowest one, and the numbers of those in progress, as they stood at the save, where that is known (log 31). -/
def Chain.withEnded (c : Chain) (old : List Chain) : Chain :=
  match old.find? fun x => x.n == c.n with
  | some x =>
    let nums := x.running.map (·.1)
    { c with ended := x.ended, running := if nums.length = c.running.length then nums.zip (c.running.map (·.2)) else c.running }
  | none => c

/-- The cause that a restored operation leaves pending, as it stood at the save, where that is known (R192). -/
def MatOp.withDefer (m : MatOp) (old : List MatOp) : MatOp :=
  match old.find? fun x => x.n == m.n with | some x => { m with defer := x.defer } | none => m

/-! ## The area read back -/

/-- A mask entry of its spilled form. -/
def maskOfBytes (b : List Byte) : MaskEntry :=
  let t := b.drop (b.length - 64)
  let n := min 65536 (leNat (t.take 4)) / 8
  { m := BitVec.ofNat 65536 (leNat (b.take n)), e := BitVec.ofNat 65536 (leNat ((b.drop n).take n)), vlene := min 65536 (leNat (t.take 4)),
    depth := leNat ((t.drop 8).take 4) }

/-- n entries that end at the end of some bytes, newest first; none where they do not fit, or a reserved byte is not 0 (R104, R117). -/
def maskParts : Nat → List Byte → Option (List MaskEntry × Nat)
  | 0, b => some ([], b.length)
  | n + 1, b =>
    let size := 2 * (leNat ((b.drop (b.length - 64)).take 4) / 8) + 64
    if b.length < 64 ∨ b.length < size ∨ leNat (b.drop (b.length - 52)) ≠ 0 then none
    else
      match maskParts n (b.take (b.length - size)) with
      | some (es, left) => some (maskOfBytes (b.drop (b.length - size)) :: es, left)
      | none => none

def loopOfBytes (b : List Byte) : LoopEntry :=
  { start := fldW b 0, stop := fldW b 8, count := fldW b 16, index := fldW b 24, mode := modeOf (fld b 32 1) }

def streamOfBytes (i : Issuer) (b : List Byte) (op : Nat) : Stream :=
  let w := fld b 0x1C 4
  let st : StreamSt := match w % 4 with | 0 => .idle | 1 => .running | 2 => .running | _ => .ended
  { base := fldW b 0, stride := fldW b 8, count := fld b 16 8, ew := BitVec.ofNat 2 (fld b 0x18 4), state := st, fcause := 0,
    next := fld b 0x20 8, marker := none, queue := [], op := op, issuer := i }

/-- Is an engine record free of reserved values (R304)? -/
def engClean (r : List Byte) : Bool :=
  let d20 := fld r 0x20 8
  let d28 := fld r 0x28 8
  d28 / 2 ^ 63 == 0 ||
    match d20 / 2 ^ 62 with
    | 0 => d28 / 2 ^ 46 % 4 != 3
    | 1 => d20 % 2 ^ 62 == 0 && fld r 0x18 8 == 0
    | 2 => true
    | _ => false

/-- Are the reserved bits of a stream's record 0 (R163, R303)? -/
def streamClean (t : List Byte) : Bool :=
  let w := fld t 0x1C 4
  fld t 0x18 4 / 4 == 0 && w / 4 % 64 == 0 && w / 2 ^ 16 == 0

/-- Are the bits of the control state that hold nothing 0 (R303)? -/
def ctlClean (b : List Byte) : Bool :=
  let m := fld b 0x310 8
  let h := fld b 0x328 8
  fld b 0x270 8 / 2 ^ 36 == 0 && m / 2 % 128 == 0 && m / 2 ^ 16 == 0 && h / 4 % 64 == 0 && h / 2 ^ 17 == 0 && fld b 0x330 8 / 2 ^ 16 % 2 ^ 16 == 0

/-- Are the reserved fields of the header and of the scalar part 0 (R104)? -/
def reservedZero (b : List Byte) : Bool :=
  fld b 0x0E 2 == 0 && fld b 0x1C 4 == 0 && fld b 0x38 8 == 0 && fld b 0x0D 1 / 16 == 0 && fld b 0x338 8 == 0 && fld b 0x438 8 == 0 &&
    ctlClean b && ((List.range 6).all fun i => fld b (0x340 + 40 * i + 33) 7 == 0) &&
    ((List.range 4).all fun i => streamClean ((b.drop (0x440 + 48 * i)).take 48)) &&
    (List.range 16).all fun i => engClean ((b.drop (0x500 + 48 * i)).take 48)

/-- Is a rod record's reserved field 0 (R214)? -/
def rodClean (r : List Byte) : Bool := fld r 0 8 / 2 % 2 ^ 11 == 0

/-- Control state of an area: doubleword at an offset. -/
def w64 (b : List Byte) (off : Nat) : Word := fldW b off

/-- Vector state from the area; `base` supplies what the layout does not hold (log 31). -/
def restoreVec (b : List Byte) (held : Nat) (masks : List MaskEntry) (hmask : BitVec 8) (base : Vec) : Vec :=
  let nreg := BitVec.ofNat 2 (fld b 0x260 8)
  let n := if nreg = 0 then 8 else if nreg = 1 then 16 else 32
  let len := 8192 * held / n
  let body := b.drop 2048
  { base with
    regs := Vector.ofFn fun r : Fin 32 => if r < n then BitVec.ofNat 65536 (leNat ((body.drop (len * r)).take len)) else 0,
    nreg := nreg, vlen := if base.fresh then base.vlen else 8 * len, vtype := w64 b 0x250, vl := fld b 0x248 8,
    grant := capGrant (getBits (w64 b 0x258) 0 4), weight := getBits (w64 b 0x258) 16 8, hmask := hmask, wants := base.wants || decide (held ≠ 0),
    mstack := masks, mdepth := fld b 0x270 4 }

/-- The context of an area on a free sequencer `q`; `base` is the sequencer as it was saved, where that is known. -/
def restoreSeq (b : List Byte) (q base : Seq) (vec : Vec) : Seq :=
  let iss := fld b 0x2C0 8
  let miss := fld b 0x2D0 8
  let recs := (List.range 16).map fun i => (b.drop (0x500 + 48 * i)).take 48
  let i : Issuer := { mode := .u, satp := q.priv.satp, sum := q.priv.mstatus.getLsbD 18, mxr := q.priv.mstatus.getLsbD 19 }
  let a := restoreRecs i iss miss recs (base.engRecs.map (·.1)) ⟨[], [], []⟩
  let streams : Vector Stream 4 := Vector.ofFn fun k : Fin 4 => streamOfBytes i ((b.drop (0x440 + 48 * k)).take 48) (base.stream k).op
  let opens := (streams.toList.filter Stream.open).map (·.op)
  let hsw := w64 b 0x328
  let req := w64 b 0x330
  { base with
    x := Vector.ofFn fun i : Fin 32 => if i = 0 then 0 else fldW b (0x40 + 8 * i),
    f := Vector.ofFn fun i : Fin 32 => fldW b (0x140 + 8 * i),
    pc := fldW b 0x40, mode := .u, frm := BitVec.ofNat 3 (fld b 0x240 8 / 32), fflags := BitVec.ofNat 5 (fld b 0x240 8),
    loops := (List.range (min 6 (fld b 0x430 8))).map fun i => loopOfBytes ((b.drop (0x340 + 40 * i)).take 40),
    atEdge := false, stall := none, since := none, resv := none, pend := a.pend, epend := fld b 0x0D 1 / 4 % 2 == 1, eraCount := w64 b 0x2B8,
    halt := none, budget := false, priv := q.priv, vec := vec,
    ctl := { q.ctl with
      msksp := w64 b 0x268 &&& ~~~7, mprog := fld b 0x278 8 % 64, mstra := w64 b 0x280, mstrb := w64 b 0x288, xsflags := BitVec.ofNat 4 (fld b 0x290 8),
      vstrunc := fld b 0x298 8 % 2 == 1, htbase := w64 b 0x2A0 &&& ~~~7, wid := w64 b 0x2A8, cgen := fld b 0x2B0 8 },
    copy :=
      { iss := iss, count := fld b 0x2C8 8, late := lateOf iss (fld b 0x2C8 8) ((a.ops.map (·.n)) ++ a.chains.map (·.n)), ops := a.ops,
        chains := a.chains.map fun c => c.withEnded base.copy.chains, failN := fld b 0x2F0 8, failVa := w64 b 0x2F8, failCause := fld b 0x300 8,
        failEntry := fld b 0x308 8 },
    mat :=
      { base.mat with
        iss := miss, count := fld b 0x2D8 8, ops := a.mats.map fun m => m.withDefer base.mat.ops,
        pend := if fld b 0x310 8 / 256 % 256 = 0 then none else some (fld b 0x310 8 / 256 % 256, fld b 0x318 8) },
    strm := { iss := fld b 0x2E0 8, count := fld b 0x2E8 8, late := lateOf (fld b 0x2E0 8) (fld b 0x2E8 8) opens, streams := streams },
    hs := { base.hs with
      mode := hsw.getLsbD 0, inside := hsw.getLsbD 1, hidx := getBits hsw 8 8, owed := hsw.getLsbD 16, reqHart := getBits req 0 16,
      rtag := getBits req 32 32 },
    barGen := if base.barGen.isSome ∨ fld b 0x320 8 ≠ 0 then some (fld b 0x320 8) else none,
    peerAsk := none, peerGot := [], elems := [], armed := none, fenced := false,
    run := if hsw.getLsbD 0 ∧ !hsw.getLsbD 1 then .idle else .running }

/-! ## ctx.load -/

/-- What ctx.load finds out before it changes anything: `bad` are the offsets of the poisoned sectors of accumulators and scratch. -/
structure LoadPlan where
  target : Nat
  area   : Nat
  bytes  : List Byte
  masks  : List MaskEntry
  saved  : Option Saved
  bad    : List Nat
deriving DecidableEq, Repr

/-- The saved context an area stands for. -/
def State.savedAt (s : State) (pa hart : Nat) : Option Saved :=
  match s.saved.find? fun x => x.area == pa with
  | some x => some x
  | none => s.saved.find? fun x => x.hart == hart

def LoadPlan.base (p : LoadPlan) : Seq := match p.saved with | some x => x.seq | none => Seq.reset
def LoadPlan.live (p : LoadPlan) : Bool := fld p.bytes 0x0D 1 % 2 == 1
def LoadPlan.held (p : LoadPlan) : Nat := fld p.bytes 0x0A 1
def LoadPlan.scrBase (p : LoadPlan) : Nat := fld p.bytes 0x10 8
def LoadPlan.scrLen (p : LoadPlan) : Nat := fld p.bytes 0x18 4

/-- The scratch that is restored: all but the channel buffers, which stayed (R259). -/
def State.loadScratch (s : State) (p : LoadPlan) : Nat :=
  match p.base.task with | some t => min p.scrLen (s.scratchMain t) | none => p.scrLen

/-- Statuses −4, −5 and −6. -/
def State.loadRoom (s : State) (p : LoadPlan) : Option Nat :=
  let k := s.core (coreOf p.target)
  let off := p.scrBase % 2 ^ 18
  let here := decide (p.scrBase = Config.scratchBase + coreOf p.target * 2 ^ 18 + off)
  if p.scrLen ≠ 0 ∧ !(here && k.rangeFree off (s.loadScratch p)) then some 4
  else if !s.lanesFor p.target p.held then some 5
  else if p.live ∧ k.holder.isSome then some 6
  else none

/-- The rods of the records whose reservation by this area stands go back to the context (R215). -/
def State.regainRods (s : State) (c : Ctx) (pa : Nat) : List (List Byte) → State
  | [] => s
  | r :: rs =>
    let g := fld r 0 8 / 4096 % 2 ^ 36
    let s1 := match aget s.coh.rods g with
      | some x =>
        if fld r 0 8 % 2 = 1 ∧ x.area = some pa ∧ s.time < x.expiry then
          let y : Rod := { x with holder := some (.ctx c), granted := s.time, expiry := s.time + s.lease g, lastW := none, recalled := false, area := none, atHalt := none }
          { s with coh := { s.coh with rods := aput s.coh.rods g y } }
        else s
      | none => s
    s1.regainRods c pa rs

/-- The accumulators of the matrix part; the cells of its poisoned sectors get a poison mark (R192, R317; log 67). -/
def Core.loadAccs (k : Core) (b : List Byte) (bad : List Nat) : Core :=
  { k with
    accs := Vector.ofFn fun a : Fin 4 => Vector.ofFn fun m : Fin 64 => BitVec.ofNat 2048 (leNat ((b.drop (16384 * a + 256 * m)).take 256)),
    marks := bad.flatMap fun o => (List.range 8).map fun j => (o / 16384, o / 256 % 64, o / 4 % 64 + j) }

/-- Held messages of a context are sent to where it now runs (R241). -/
def State.sendHeld (s : State) (c : Ctx) (h : Nat) : State :=
  let mine := s.cores.flatMap fun p => (p.2.heldMsg.filter fun m => m.1 == c).map (·.2)
  let drop (k : Core) : Core := { k with heldMsg := k.heldMsg.filter fun m => m.1 != c }
  { s with cores := s.cores.map fun p => (p.1, drop p.2), net := s.net ++ mine.map fun m => ({ m with dest := h, part := s.partOf h } : Msg) }

/-- Messages that waited for a saved context wait for it where it now runs on its core (R252). -/
def State.redirect (s : State) (core area new : Nat) : State :=
  s.modCore core fun k => { k with inbox := k.inbox.map fun m => if m.owner = some area then { m with dest := new, owner := none } else m }

/-- The runtime notes that a context has left a sequencer (R308). -/
def State.noteMove (s : State) (old new : Nat) (c : Ctx) : State := if old = new then s else { s with moved := s.moved ++ [(old, c)] }

/-- The context stands on the target again. -/
def State.fromArea (s : State) (p : LoadPlan) : State :=
  let h := p.target
  let core := coreOf h
  let b := p.bytes
  let hmask := s.regain h p.held (BitVec.ofNat 8 (fld b 0x258 8 / 2 ^ 24))
  let rodOff := fld b 0x04 4 - 16 * fld b 0x0C 1
  let scrOff := rodOff - p.scrLen
  let s1 := s.modSeq h fun q => restoreSeq b { q with priv := s.privOf (s.partOf h) q.priv } p.base (restoreVec b p.held p.masks hmask p.base.vec)
  let s2 := if p.live then s1.modCore core fun k => { k.loadAccs (b.drop (scrOff - 65536)) (p.bad.filterMap fun o => if scrOff ≤ o ∨ o < scrOff - 65536 then none else some (o - (scrOff - 65536))) with holder := some h } else s1
  let n := s.loadScratch p
  let s3 := if n = 0 then s2 else
    p.bad.foldl (fun st o => if scrOff ≤ o ∧ o < scrOff + n then st.poisonRange (p.scrBase + (o - scrOff)) 32 else st)
      (s2.nicPut p.scrBase ((b.drop scrOff).take n))
  let s4 := match p.base.task with
    | some t =>
      if n = 0 then s3 else s3.modCore core fun k => { k with allocs := k.allocs ++ [({ launch := t.launch, wg := t.wg, lin := some t.lin, off := p.scrBase % 2 ^ 18, len := n } : Alloc)] }
    | none => s3
  let s5 := { s4 with saved := s4.saved.filter fun x => some x ≠ p.saved }
  let c := ctxOf (s5.getSeq h) h
  let recs := (List.range (fld b 0x0C 1)).map fun i => (b.drop (rodOff + 16 * i)).take 16
  (((s5.regainRods c p.area recs).sendHeld c h).redirect core ((p.saved.map (·.area)).getD p.area) h).noteMove (fld b 0x08 2) h c

/-- The target is free, on the core that saved the context, in the caller's partition, and EXC allows it (status −2). -/
def State.loadPlace (s : State) (h hart : Nat) (base : Option Saved) : Bool :=
  decide (coreOf hart = coreOf h ∧ h ≠ s.hart) && s.seqFree h && s.partOfCluster (hartCluster h) == s.partOf s.hart &&
    match base.bind (·.seq.task) with | some t => !s.excBreaks (coreOf h) t.launch | none => true

/-- Reads n bytes of an area in sectors. The accumulators and the scratch image (`carry`) keep their poison, which the offsets of the poisoned
sectors tell; poison elsewhere traps. -/
def State.loadArea (s : State) (a : Word) (carry : Bool) : Nat → Nat → Nat → Res (List Byte × List Nat)
  | 0, _, _ => .ok ([], []) s
  | k + 1, off, n =>
    if n = 0 then .ok ([], []) s
    else
      (s.locate s.via (a + BitVec.ofNat 64 off) (min 32 n) .load).bind fun ls s1 =>
        (if carry then s1.rawReads s1.via ls else (s1.readLocs s1.via false ls).bind fun b s2 => .ok (b, false) s2).bind fun r s2 =>
          (s2.loadArea a carry k (off + 32) (n - 32)).bind fun q s3 => .ok (r.1 ++ q.1, if r.2 then off :: q.2 else q.2) s3

/-- Reads the rest of an area, and checks SIZE and the reserved fields against the area's own fields (R104, R305), then its scratch against a core's. -/
def State.loadRest (s : State) (h pa : Nat) (a : Word) (hd : List Byte) (base : Option Saved) : Res (LoadPlan ⊕ Nat) :=
  let nrod := fld hd 0x0C 1
  let size := fld hd 0x04 4
  let held := fld hd 0x0A 1
  let live := fld hd 0x0D 1 % 2
  let scr := fld hd 0x18 4
  let fixed := 2048 + 8192 * held + 65536 * live + scr + 16 * nrod
  let get (st : State) (carry : Bool) (off n : Nat) := st.loadArea a carry (n / 32 + 1) off n
  if s.dev.fwList.contains (fld hd 0 4) = false ∨ 8 < held ∨ 8 < fld hd 0x0B 1 ∨ 16 < nrod ∨ !reservedZero hd ∨ size < fixed ∨
      fixed + 8 * 16448 < size then .ok (.inr 3) s
  else
    let accOff := 2048 + 8192 * held + (size - fixed)
    let rodOff := size - 16 * nrod
    (get s false 0 accOff).bind fun b1 s1 =>
      (get s1 false rodOff (16 * nrod)).bind fun b3 s2 =>
        match maskParts (fld hd 0x0B 1) ((b1.1.drop (2048 + 8192 * held)).take (size - fixed)) with
        | some (masks, 0) =>
          if !(List.range nrod).all (fun i => rodClean ((b3.1.drop (16 * i)).take 16)) then .ok (.inr 3) s2
          else if Config.scratchBytes < scr then .ok (.inr 4) s2
          else (get s2 true accOff (rodOff - accOff)).bind fun b2 s3 => .ok (.inl ⟨h, pa, b1.1 ++ b2.1 ++ b3.1, masks, base, b2.2⟩) s3
        | _ => .ok (.inr 3) s2

def execCtxLoad (rd rs1 rs2 : Reg) (s : State) : Host.Outcome State Fault Refusal :=
  finish (
    let h := (s.x rs1).toNat
    let a := s.x rs2
    if s.seq.mode = .u then s.illegal
    else if a.toNat % 128 ≠ 0 then .ok () (s.setX rd (minus 2))
    else
      (s.locate s.via a 64 .load).bind fun ls s0 =>
        (s0.loadRun s0.via 32 a 2048).bind fun hd s1 =>
          let pa := (byteAt ls 0).getD 0
          let base := s1.savedAt pa (fld hd 0x08 2)
          if !s1.loadPlace h (fld hd 0x08 2) base then .ok () (s1.setX rd (minus 2))
          else
            (s1.loadRest h pa a hd base).bind fun r s2 =>
              match r with
              | .inr n => .ok () (s2.setX rd (minus n))
              | .inl p =>
                match s2.loadRoom p with
                | some n => .ok () (s2.setX rd (minus n))
                | none => .ok () ((s2.fromArea p).setX rd 0))

/-! ## migrate -/

/-- Status −2, −5 or −6 of a destination. -/
def State.moveStatus (s : State) (src dst : Nat) : Option Nat :=
  let q := s.getSeq src
  let live := (s.core (coreOf src)).holder == some src
  let exc : Bool := match q.task with | some t => s.excBreaks (coreOf dst) t.launch | none => false
  if !s.seqFree dst ∨ dst = s.hart ∨ s.partOfCluster (hartCluster dst) ≠ s.partOf src ∨ exc then some 2
  else if !s.lanesFor dst (popcount q.vec.hmask) then some 5
  else if live ∧ (s.core (coreOf dst)).holder.any (· ≠ src) then some 6
  else none

/-- Has the destination core room for the context's reply slots (R251, R307)? -/
def State.replyRoom (s : State) (src dst : Nat) : Bool :=
  coreOf src == coreOf dst || decide (s.reservedSlots (coreOf dst) + (s.getSeq src).reqs.length ≤ 32)

/-- A running or faulted stream starts again at NEXT (R166). -/
def Stream.restart (t : Stream) : Stream :=
  { t with queue := [], marker := none, fcause := 0, state := if t.open then .running else t.state }

/-- The context of `src` as it stands on a free sequencer `d`. -/
def Seq.moved (q d : Seq) (hmask : BitVec 8) : Seq :=
  { q with
    priv := d.priv, fenced := false, vec := { q.vec with hmask := hmask }, halt := none, budget := false, stall := none, since := none, resv := none,
    strm := { q.strm with streams := q.strm.streams.map Stream.restart },
    ctl := { q.ctl with itbudget := d.ctl.itbudget, fwdlife := d.ctl.fwdlife, dbgEn := d.ctl.dbgEn, dbgHead := d.ctl.dbgHead, dbgSeq := d.ctl.dbgSeq },
    run := if q.hs.mode ∧ !q.hs.inside then .idle else .running }

/-- The accumulators and the hold on them move with the context. -/
def State.moveMatrix (s : State) (src dst : Nat) : State :=
  let k := s.core (coreOf src)
  if k.holder = some src then (s.setCore (coreOf src) { k with holder := none }).modCore (coreOf dst) fun d =>
    { d with holder := some dst, accs := k.accs, marks := k.marks }
  else s

/-- The inbox entries of the context go first at the destination (R307). -/
def State.moveInbox (s : State) (src dst : Nat) : State :=
  let sel (m : Msg) : Bool := m.dest == src && m.owner.isNone
  let mine := (s.core (coreOf src)).inbox.filter sel
  (s.modCore (coreOf src) fun k => { k with inbox := k.inbox.filter fun m => !sel m }).modCore (coreOf dst) fun k =>
    { k with inbox := k.inbox ++ mine.map fun m => { m with dest := dst } }

/-- The context moves: its halt ends, and the destination core drops its untracked copies, as at a binding (R143, R207). -/
def State.moveContext (s : State) (src dst : Nat) : State :=
  let q := s.getSeq src
  let hmask := s.regain dst (popcount q.vec.hmask) q.vec.hmask
  let s1 := (s.modSeq dst fun d => q.moved { d with priv := s.privOf (s.partOf dst) d.priv } hmask).modSeq src Seq.freed
  let f : Forward := { old := src, new := dst, expiry := s.time + q.ctl.fwdlife.toNat }
  let s2 := ((s1.moveMatrix src dst).moveInbox src dst).modCore (coreOf src) fun k => { k with fwd := k.fwd ++ [f] }
  ((s2.copyDrop (coreOf dst) fun _ => true).endHaltRods (ctxOf q src)).noteMove src dst (ctxOf q src)

def execMigrate (rd rs1 rs2 : Reg) (s : State) : Host.Outcome State Fault Refusal :=
  finish (
    let src := (s.x rs1).toNat
    let dst := (s.x rs2).toNat
    let q := s.getSeq src
    if s.seq.mode = .u then s.illegal
    else if 4096 ≤ src ∨ hartCluster src ≠ hartCluster s.hart ∨ q.run ≠ .halted then .ok () (s.setX rd (minus 1))
    else
      match s.moveStatus src dst with
      | some n => .ok () (s.setX rd (minus n))
      | none =>
        if !q.drained ∨ !s.replyRoom src dst then .stall .drain s
        else .ok () ((s.moveContext src dst).setX rd 0))

end Sys2Proof.Machine
end

