-- ==== Sys2Proof/Machine/Lanes.lean ====
section
/-! DEFINITION. Events of lanes (R49 to R51, R113), of pre-emption (R300, R301, R307), of waiting (R242, R244) and of page walks
(R141). -/

namespace Sys2Proof.Machine

/-! ## Lanes -/

/-- May a hart take supervisor interrupt 16 now? -/
def Seq.takesLrip (q : Seq) : Bool :=
  q.priv.mie.getLsbD 16 &&
    if q.priv.mideleg.getLsbD 16 then
      match q.mode with | .u => true | .s => q.priv.mstatus.getLsbD 1 | .m => false
    else
      match q.mode with | .m => q.priv.mstatus.getLsbD 3 | _ => true

/-- The supervisor hart of a cluster takes the lane-request interrupt while lreq is not 0. -/
def execLaneRequestInterrupt (sup : Nat) (s : State) : Host.Outcome State Fault Refusal :=
  .next (
    let h := supervisorOf sup
    let q := s.getSeq h
    if sup < 64 ∧ (s.cluster sup).lreq ≠ 0 ∧ q.takesLrip then s.setSeq h { q.interruptTo (s.seePc h q.pc) 16 with run := .running } else s)

/-- A context that wants lanes: its hart, the weight that the division counts (0 counts as 1), and whether it is saved. -/
structure Want where
  hart   : Nat
  weight : Nat
  saved  : Bool
deriving DecidableEq, Repr

/-- The contexts of a core that want lanes, ascending by sequencer; a saved one goes on counting (R348), behind the one that runs where it ran. -/
def State.wanting (s : State) (core : Nat) : List Want :=
  (List.range 4).flatMap fun i =>
    let h := 4 * core + i
    (if (s.getSeq h).vec.wants then [⟨h, max 1 (s.getSeq h).vec.weight, false⟩] else []) ++
      (s.saved.filter fun x => x.hart == h && x.seq.vec.wants).map fun x => ⟨h, max 1 x.seq.vec.weight, true⟩

/-- The lane groups that a core can give (R49). -/
def State.usable (s : State) (core : Nat) : Nat := min (s.capOf core) (8 - popcount (s.core core).dis)

/-- Inserts a context behind those of at least its weight. -/
def insWeight (w : Want) : List Want → List Want
  | [] => [w]
  | x :: xs => if x.weight < w.weight then w :: x :: xs else x :: insWeight w xs

/-- The groups that rotation r gives to place i of n contexts: one each for u of them in turn. -/
def turnOf (u n r i : Nat) : Nat := if (i + n - r) % n < u then 1 else 0

/-- The division of u groups among contexts (R49). -/
def divide (ws : List Want) (u rot : Nat) : List (Want × Nat) :=
  let c := ws.length
  let w := (ws.map (·.weight)).sum
  if c ≤ u then
    let first := ws.map fun x => (x, 1 + (u - c) * x.weight / w)
    let more := (ws.foldl (fun l x => insWeight x l) []).take (u - (first.map (·.2)).sum)
    first.map fun p => (p.1, if more.contains p.1 then p.2 + 1 else p.2)
  else ws.zipIdx.map fun p => (p.1, turnOf u c (rot % c) p.2)

/-- The division of a core's lane groups, as grants of the contexts that stand on its sequencers. -/
def State.division (s : State) (core : Nat) : List (Nat × Nat) :=
  (divide (s.wanting core) (s.usable core) (s.core core).rot).filterMap fun p => if p.1.saved then none else some (p.1.hart, p.2)

/-- The runtime writes lgrant on the supervisor hart of a cluster: the weight where WW asks for it, and as the grant of a context that wants lanes what
the division gives it (R49, R51); another sequencer's grant is the value's (log 49). -/
def execLgrantWrite (sup : Nat) (value : Word) (s : State) : Host.Outcome State Fault Refusal :=
  .next (
    if sup < 64 then
      let h := sup * 64 + getBits value 0 6
      let s1 := s.lgrant sup value
      match aget (s1.division (coreOf h)) h with
      | some g => s1.modSeq h fun q => { q with vec := { q.vec with grant := g } }
      | none => s1
    else s)

/-- With fewer groups than contexts, each group moves to the next context every 65,536 core cycles of 1/3 ns. -/
def execLaneRotation (core : Nat) (s : State) : Host.Outcome State Fault Refusal :=
  .next (
    let k := s.core core
    let ws := s.wanting core
    if ws.length ≤ s.usable core ∨ 3 * (s.time - k.rotAt) < 65536 then s
    else
      let s1 := s.setCore core { k with rot := (k.rot + 1) % ws.length, rotAt := s.time }
      (s1.division core).foldl (fun st p => st.modSeq p.1 fun q => { q with vec := { q.vec with grant := p.2 } }) s1)

/-- The task of a killed launch is discarded once it is halted (R37). -/
def State.killHalted (s : State) (h : Nat) : State :=
  match (s.getSeq h).task with
  | some t => if (s.getSeq h).run = .halted ∧ ((s.launch? t.launch).any fun l => l.killed) then s.discardHart h t else s
  | none => s

/-- A halt request lands on a hart. -/
def State.landOn (s : State) (h : Nat) : State := (s.landAt h).killHalted h

/-- A halt request is raised for a sequencer; one that idles in handler mode follows GEN (R63) and halts at once (R300). -/
def State.askHalt (s : State) (h : Nat) : State :=
  ((if (s.getSeq h).run = .idle then s.safePoint h else s).modSeq h fun q =>
    if q.task.isNone ∨ q.halt.isSome then q
    else if q.run = .idle then q.land s.time
    else if q.run = .running then { q with halt := some s.time, budget := false }
    else q).killHalted h

/-- The runtime pre-empts a holder of lanes that another context is stalled on, with a grant that these groups would meet, where the holder has reached no
vset* for 1 ms (R50). -/
def execLaneHoldTimeout (hart : Nat) (s : State) : Host.Outcome State Fault Refusal :=
  .next (
    let others := ((List.range 4).map fun i => 4 * coreOf hart + i).filter fun h => h ≠ hart
    let stuck := others.any fun h =>
      let q := s.getSeq h
      q.stall == some .lanes && decide (0 < q.vec.grant ∧ popcount q.vec.hmask < q.vec.grant) &&
        match q.since with | some t => decide (t + 1000000 ≤ s.time) | none => false
    let v := (s.getSeq hart).vec
    if hart < 4096 ∧ min v.grant (s.usable (coreOf hart)) < popcount v.hmask ∧ v.setAt + 1000000 ≤ s.time ∧ stuck then s.askHalt hart else s)

/-- A lane group is retired into DIS, and the log says so. -/
def State.retireGroup (s : State) (core group : Nat) : State :=
  let k := s.core core
  if k.dis.getLsbD group ∨ 8 ≤ group then s
  else
    let dis := k.dis ||| (1 : BitVec 8) <<< group
    (s.setCore core { k with dis := dis }).logEntry (s.partOfCluster (clusterOf core))
      { type := 5, sev := 1, ovr := false, cls := 1, idx := core, addr := 0, qid := noQid, data := leBytes 8 dis.toNat }

def execLaneRetire (core group : Nat) (s : State) : Host.Outcome State Fault Refusal := .next (s.retireGroup core group)

/-! ## Pre-emption -/

/-- A pending halt request lands where R300 lets it. -/
def execHaltLanding (hart : Nat) (s : State) : Host.Outcome State Fault Refusal :=
  .next (
    let q := s.getSeq hart
    if q.run = .running ∧ q.lands then s.landOn hart else s.killHalted hart)

/-- Once itbudget core cycles of 1/3 ns have passed since a request, it lands at the next boundary. -/
def execItbudgetExpiry (hart : Nat) (s : State) : Host.Outcome State Fault Refusal :=
  .next (
    let q := s.getSeq hart
    match q.halt with
    | some t => if q.ctl.itbudget.toNat ≤ 3 * (s.time - t) then s.setSeq hart { q with budget := true } else s
    | none => s)

/-- The forwarding entries of a vacated sequencer end (R307). -/
def execForwardingExpiry (hart : Nat) (s : State) : Host.Outcome State Fault Refusal :=
  .next (s.modCore (coreOf hart) fun k => { k with fwd := k.fwd.filter fun f => !(f.old == hart && decide (f.expiry ≤ s.time)) })

/-- The runtime lets a halted sequencer continue where it halted. -/
def execSequencerResume (hart : Nat) (s : State) : Host.Outcome State Fault Refusal :=
  .next (
    let q := s.getSeq hart
    if q.run = .halted then
      (s.setSeq hart { q with run := if q.hs.mode ∧ !q.hs.inside then .idle else .running, since := none, atEdge := false }).endHaltRods (ctxOf q hart)
    else s)

/-! ## Waiting -/

/-- A hart that waits on a word runs next, and tests its condition again. -/
def State.wake (s : State) (h : Nat) : State :=
  if (s.getSeq h).stall = some .word then { s with agenda := s.agenda ++ [.run h] } else s

def execWatchWake (hart : Nat) (s : State) : Host.Outcome State Fault Refusal := .next (s.wake hart)
def execWaitTimeout (hart : Nat) (s : State) : Host.Outcome State Fault Refusal := .next (s.wake hart)

/-- A barrier generation completes when every task that remains has arrived (R242). -/
def execBarrierComplete (launch wg : Nat) (s : State) : Host.Outcome State Fault Refusal :=
  .next (
    let b := s.barrier launch wg
    if b.arrived ≠ [] ∧ s.wgTasks launch wg ≤ b.arrived.length then s.setBarrier b.complete else s)

/-- A walk of a hart's translation ends: A and D are set and the TLB filled; a walk that faults leaves nothing. -/
def execPageWalkComplete (hart : Nat) (va : Word) (store : Bool) (s : State) : Host.Outcome State Fault Refusal :=
  .next (match s.xlate (s.viaHart hart) va (if store then .store else .load) with | .ok _ s1 => s1 | _ => s)

end Sys2Proof.Machine
end

