-- ==== Sys2Proof/Machine/Coherence.lean ====
section
/-! DEFINITION. Events of the homes (14): span reads and writes performed at home (R209), rods that pass and leases that end (R212 to
R214), parties that rejoin (R226, R227) and retention (R223). -/

namespace Sys2Proof.Machine

/-! ## Directory evictions (R208, R222) -/

/-- A directory evicts a line: its Bead words of tags 1 to 13 are reckoned, the record of those of tags 14 and 15 goes to the park pool, or they are
reckoned when it is full, and every holder's words are invalidated. -/
def State.evictLine (s : State) (line : Nat) : State :=
  let words : List (Nat × Bead) := s.coh.beads.filter fun b => b.1 / 128 == line
  let s1 : State := (words.filter fun b => b.2.tag < 14).foldl (fun st b => st.reckonWord b.1 none) s
  let rest : List (Nat × Bead) := words.filter fun b => 14 ≤ b.2.tag
  let s2 : State :=
    match rest with
    | [] => s1
    | (b : Nat × Bead) :: _ =>
      match s1.poolFree (s.partOfHbm (128 * line)) with
      | some e => { s1 with coh := { s1.coh with away := (line, e) :: adel s1.coh.away line } }
      | none => (rest.foldl (fun (st : State) (b : Nat × Bead) => st.reckonWord b.1 none) s1).poolFullLog ((b.2.parts.head?.map fun (p : Partial) => p.core).getD 0) line b.2.tag
  s2.modDir line fun _ => DirLine.empty

/-- Whether the slice's directory was full, and which line it evicts to hold another one, is a free choice (log 50). -/
def State.mayEvict (s : State) (line : Nat) : State :=
  let lines : List Nat := (s.coh.beads.map (fun (b : Nat × Bead) => b.1 / 128) ++ s.coh.dir.map (fun (p : Nat × DirLine) => p.1)).filter
    fun k => k ≠ line ∧ aget s.coh.away k = none
  let d := s.draw
  match lines[d.1.toNat % (lines.length + 1)]? with
  | some k => d.2.evictLine k
  | none => d.2

/-! ## Requests at the home (R209) -/

/-- The sequencer of a core that reads: a free choice among those that run a task. -/
def State.readerOn (s : State) (core : Nat) : Option Nat × State :=
  let hs := ((List.range 4).map fun i => 4 * core + i).filter fun h => (s.getSeq h).task.isSome
  let d := s.draw
  (hs[d.1.toNat % (hs.length + 1)]?, d.2)

/-- The home answers a span read of a core for an HBM line: a slice in retention wakes, the line's record comes back and another line may be evicted, Bead
words are reckoned, and the reader's words recorded. -/
def execSpanRead (core line word count : Nat) (s : State) : Host.Outcome State Fault Refusal :=
  .next (
    let pa := 128 * line + 4 * word
    if 32 < word + count ∨ count = 0 ∨ 1024 ≤ core ∨ physTarget pa ≠ some .hbm then s
    else
      let home := s.lineHome line
      let r := ((s.wakeHome home).mayEvict line).readerOn core
      (r.2.reckonRange pa (4 * count) r.1).modLines pa (4 * count) fun m d => d.add core home m)

/-- Does a context running on a core hold the rod of a region, under a lease that runs and not recalled? -/
def State.coreHolds (s : State) (core region : Nat) : Bool :=
  match aget s.coh.rods region with
  | some r =>
    r.area.isNone && !r.recalled && decide (s.time < r.expiry) && match r.holder with
      | some (.ctx c) => match s.hartOf c with | some h => decide (h < 4096 ∧ coreOf h = core) | none => false
      | _ => false
  | none => false

/-- The home performs a write of a core whose context holds the rod, which renews the lease (R213), and invalidates the words in other holders. -/
def execHomeWrite (core addr : Nat) (bytes : List Byte) (s : State) : Host.Outcome State Fault Refusal :=
  .next (
    if physTarget addr ≠ some .hbm ∨ 128 < addr % 128 + bytes.length ∨ s.isCodePage addr ∨ s.isParkPool addr then s
    else
      match (if s.coreHolds core (addr / 4096) then (aget s.coh.rods (addr / 4096)).bind (·.holder) else none) with
      | none => s
      | some p =>
        ((s.renewRod p (addr / 4096) true).reckonRange addr bytes.length none).putBytes { s.viaHub 0 true with num := core }
          ⟨0, addr, .hbm, .s, s.lineHome (addr / 128), 0, bytes.length⟩ bytes)

/-! ## Rods (R212 to R214) -/

/-- A rod that is waited for: the recall reaches its holder, which from then on asks anew; then, once the rod has been held for MINHOLD, it passes. The
holder's writes are performed as they are issued. -/
def execRodPass (region : Nat) (s : State) : Host.Outcome State Fault Refusal :=
  .next (
    match aget s.coh.rods region with
    | some r =>
      match r.holder with
      | some p =>
        if r.waiters = [] then s
        else if !r.recalled then s.setRod region { r with recalled := true }
        else if r.granted + Config.minHold ≤ s.time then s.releaseRod region p
        else s
      | none => s
    | none => s)

/-- A holder's lease expires, and the rod is released. -/
def execLeaseExpiry (region : Nat) (s : State) : Host.Outcome State Fault Refusal :=
  .next (
    match aget s.coh.rods region with
    | some r =>
      match r.holder with
      | some p => if r.expiry ≤ s.time then s.releaseRod region p else s
      | none => s
    | none => s)

/-- A saved context's reservation lapses at its expiry. -/
def execReservationLapse (region : Nat) (s : State) : Host.Outcome State Fault Refusal :=
  .next (
    match aget s.coh.rods region with
    | some r => if r.expiry ≤ s.time then s.lapse region else s
    | none => s)

/-! ## Parties that are lost (R221, R227) -/

/-- Has a write of the holder reached the home within the last LEASE? -/
def State.rodWritten (s : State) (p : Nat × Rod) : Bool := match p.2.lastW with | some t => decide (s.time ≤ t + s.lease p.1) | none => false

/-- Takes a rod from a party that is lost: a region with a write within the last LEASE is poisoned. -/
def State.reclaim (s : State) (p : Nat × Rod) : State :=
  match p.2.holder with
  | none => s
  | some h => (if s.rodWritten p then s.poisonRange (p.1 * 4096) 4096 else s).releaseRod p.1 h

/-- The partials of a core's words that a test selects are lost with its L1: their sectors are poisoned, and the log says so. -/
def State.losePartials (s : State) (core : Nat) (sel : Nat → Bool) : State :=
  let mine (q : Partial) : Bool := q.core == core && q.parked.isNone
  let lost := s.coh.beads.filter fun b => sel b.1 && b.2.parts.any mine
  lost.foldl (fun st b =>
    let parts := b.2.parts.filter fun q => !mine q
    let beads := if parts.isEmpty then adel st.coh.beads b.1 else aput st.coh.beads b.1 { b.2 with parts := parts }
    ({ st with coh := { st.coh with beads := beads } }).losePartial b.1 b.2.tag core) s

/-- The read copies of a party are dropped from the word masks. -/
def State.dropCopies (s : State) (party : Nat) : State :=
  let clear (p : Nat × DirLine) : Nat × DirLine := (p.1, { p.2 with holders := adel p.2.holders party })
  { s with coh := { s.coh with dir := (s.coh.dir.map clear).filter fun p => !p.2.isEmpty } }

/-- The rods that contexts running on a core hold. -/
def State.rodsOfCore (s : State) (core : Nat) : List (Nat × Rod) :=
  s.coh.rods.filter fun p => p.2.area.isNone && match p.2.holder with
    | some (.ctx c) => (match s.hartOf c with | some h => decide (h < 4096 ∧ coreOf h = core) | none => false)
    | _ => false

/-- What a core's L1 held is gone: bytes of P lines, and copies that may be old. -/
def State.clearL1 (s : State) (core : Nat) : State :=
  { s with coh := { s.coh with plocal := s.coh.plocal.filter fun p => p.1.1 != core, pclean := s.coh.pclean.filter fun p => p.1 != core,
                               copies := s.coh.copies.filter fun p => p.1.1 != core } }

/-- The homes' records of a core's old incarnation end as R227 says. -/
def State.rejoinCore (s : State) (core : Nat) : State :=
  let s1 := (s.rodsOfCore core).foldl (fun st p => st.reclaim p) s
  ((s1.losePartials core fun _ => true).dropCopies core).clearL1 core

/-- The homes' records of the hub copy channel end as R227 says. -/
def State.rejoinHub (s : State) : State :=
  ((s.coh.rods.filter fun p => p.2.area.isNone && p.2.holder == some .hub).foldl (fun st p => st.reclaim p) s).dropCopies 2048

/-- A core (below 1,024) or the hub copy channel (2,048) that was reset rejoins at the homes under a new incarnation. The homes' records need no number
beside the party: the rejoin ends those of the old incarnation in this step, before any request of the new one (R226); an agent block rejoins in its reset. -/
def execRejoin (party : Nat) (s : State) : Host.Outcome State Fault Refusal :=
  .next (
    if party = 2048 then let s1 := s.rejoinHub; { s1 with qp := { s1.qp with hubInc := s1.qp.hubInc + 1 } }
    else (s.rejoinCore party).modCore party fun k => { k with inc := k.inc + 1, lru := [], dtlb := [], itlb := [], retain := false })

/-! ## Retention (R223) -/

/-- The power controller may put the cache arrays of an idle core into retention. -/
def execRetentionEnter (core : Nat) (s : State) : Host.Outcome State Fault Refusal :=
  .next (
    if (List.range 4).all fun i => (s.getSeq (4 * core + i)).task.isNone then s.modCore core fun k => { k with retain := true } else s)

/-- A probe that needs data wakes them. -/
def execRetentionWake (core : Nat) (s : State) : Host.Outcome State Fault Refusal :=
  .next (s.modCore core fun k => { k with retain := false })

end Sys2Proof.Machine
end

