-- ==== Sys2Proof/Machine/Lammel.lean ====
section
/-! DEFINITION. The Lammel decoder (R65 to R67) over the ordinals of R85 and R86. A row names the native
word with its operand fields 0 and the operands in assembly order, each with the place of its field. -/

namespace Sys2Proof

/-- A Lammel operand (R65): a register of a file (0 x, 1 f, 2 v, 3 acc), an immediate with its range, a
branch target, a mask byte, or a mask byte that must be 1 (vmerge, whose unmasked word is a vmv). -/
inductive LKind where
  | reg (file : Nat)
  | imm (lo hi : Int)
  | target
  | mask
  | masked
deriving DecidableEq, Repr

/-- Where an operand's field stands in the native word: at a bit with a width, as the split immediate of
type S, as the mask bit, or nowhere. -/
inductive LPlace where
  | at (lo width : Nat)
  | store
  | vm
  | nowhere
deriving DecidableEq, Repr

/-- A row of the ordinal table: the native word with empty fields, and the operands. -/
structure LRow where
  base : BitVec 32
  ops  : List (LKind × LPlace)
deriving DecidableEq, Repr

/-- The outcome of reading a part of an instruction. -/
inductive LParse (α : Type) where
  | ok (a : α) (rest : List Byte)
  | bad (why : Reject)
  | short

/-- An unsigned varint (R66); it is overlong when its last byte of several is 0. -/
def readUvarint : Nat → Nat → Nat → List Byte → LParse Nat
  | 0, _, _, _ => .bad .tooLong
  | _ + 1, _, _, [] => .short
  | n + 1, sh, acc, b :: bs =>
    let v := acc + (b.toNat % 128) * 2 ^ sh
    if b.toNat < 128 then (if b = 0 ∧ sh ≠ 0 then .bad .overlong else .ok v bs)
    else readUvarint n (sh + 7) v bs

/-- The value of a zigzag code (R66). -/
def unzigzag (z : Nat) : Int := if z % 2 = 0 then (z / 2 : Int) else -((z + 1) / 2 : Int)

/-- Reads one operand. `nreg` is the named-register count. -/
def readOperand (nreg : Nat) (k : LKind) (bs : List Byte) : LParse Int :=
  let vint (lo hi : Int) : LParse Int :=
    match readUvarint 24 0 0 bs with
    | .ok z rest => let v := unzigzag z; if lo ≤ v ∧ v ≤ hi then .ok v rest else .bad .badImmediate
    | .bad r => .bad r
    | .short => .short
  match k with
  | .imm lo hi => vint lo hi
  | .target => vint (-2 ^ 31) (2 ^ 31 - 1)
  | .reg file =>
    match bs with
    | [] => .short
    | b :: rest =>
      let idx := b.toNat % 64
      if b.toNat / 64 ≠ file then .bad .wrongFile
      else if idx < (if file = 3 then 4 else if file = 2 then nreg else 32) then .ok idx rest
      else .bad .badIndex
  | .mask =>
    match bs with
    | [] => .short
    | b :: rest => if b.toNat ≤ 1 then .ok b.toNat rest else .bad .badMask
  | .masked =>
    match bs with
    | [] => .short
    | b :: rest => if b = 1 then .ok 1 rest else .bad .badMask

/-- Reads the operands in order. -/
def readOperands (nreg : Nat) : List LKind → List Byte → LParse (List Int)
  | [], bs => .ok [] bs
  | k :: ks, bs =>
    match readOperand nreg k bs with
    | .ok v rest =>
      match readOperands nreg ks rest with
      | .ok vs rest' => .ok (v :: vs) rest'
      | .bad r => .bad r
      | .short => .short
    | .bad r => .bad r
    | .short => .short

/-- An operand's bits in the native word. A mask byte of 0 (unmasked) sets vm. -/
def LPlace.put (p : LPlace) (v : Int) : BitVec 32 :=
  match p with
  | .at lo width => ((BitVec.ofInt 32 v) &&& (BitVec.ofNat 32 (2 ^ width - 1))) <<< lo
  | .store => (((BitVec.ofInt 32 v) >>> 5 &&& 0x7F) <<< 25) ||| (((BitVec.ofInt 32 v) &&& 0x1F) <<< 7)
  | .vm => if v = 0 then 0x02000000 else 0
  | .nowhere => 0

def putAll : List (LKind × LPlace) → List Int → BitVec 32
  | (_, p) :: ps, v :: vs => p.put v ||| putAll ps vs
  | _, _ => 0

/-- The target operand's value, if the row has one. -/
def targetOf : List (LKind × LPlace) → List Int → Option Int
  | (.target, _) :: _, v :: _ => some v
  | _ :: ps, _ :: vs => targetOf ps vs
  | _, _ => none

/-- Puts a target into a control transfer; the loops need one beyond their own length (R93). -/
def withTarget (i : Instr) (t : Int) (len : Nat) : Option Instr :=
  let off : Word := BitVec.ofInt 64 t
  match i with
  | .jal rd _ => some (.jal rd off)
  | .branch o a b _ => some (.branch o a b off)
  | .loop a _ => if (len : Int) < t then some (.loop a off) else none
  | .loopi c _ => if (len : Int) < t then some (.loopi c off) else none
  | .vsetvlz rd a vt _ => some (.vsetvlz rd a vt off)
  | _ => none

/-! ## The rows -/

def oRd : LKind × LPlace := (.reg 0, .at 7 5)
def oRs1 : LKind × LPlace := (.reg 0, .at 15 5)
def oRs2 : LKind × LPlace := (.reg 0, .at 20 5)
def oRs3 : LKind × LPlace := (.reg 0, .at 27 5)
def oFd : LKind × LPlace := (.reg 1, .at 7 5)
def oFs1 : LKind × LPlace := (.reg 1, .at 15 5)
def oFs2 : LKind × LPlace := (.reg 1, .at 20 5)
def oFs3 : LKind × LPlace := (.reg 1, .at 27 5)
def oVd : LKind × LPlace := (.reg 2, .at 7 5)
def oVs1 : LKind × LPlace := (.reg 2, .at 15 5)
def oVs2 : LKind × LPlace := (.reg 2, .at 20 5)
def oAcc : LKind × LPlace := (.reg 3, .at 7 2)
def oImm : LKind × LPlace := (.imm (-2048) 2047, .at 20 12)
def oImmS : LKind × LPlace := (.imm (-2048) 2047, .store)
def oUimm (lo width : Nat) : LKind × LPlace := (.imm 0 (2 ^ width - 1), .at lo width)
/-- The immediate of a memory operand written (rs1): 0 only. -/
def oZero : LKind × LPlace := (.imm 0 0, .nowhere)
def oTgt : LKind × LPlace := (.target, .nowhere)
def oVm : LKind × LPlace := (.mask, .vm)
def oRm : LKind × LPlace := oUimm 12 3

/-- The words and operands of the operations that the constructors' encodings give. -/
def rowR (f7 : BitVec 7) (f3 : BitVec 3) (op : BitVec 7) (ops : List (LKind × LPlace)) : LRow := ⟨encR f7 0 0 f3 0 op, ops⟩

def rowAlu (o : AluOp) : LRow := rowR o.enc.1 o.enc.2.1 o.enc.2.2 [oRd, oRs1, oRs2]

def rowImm (o : AluImmOp) : LRow :=
  ⟨encI o.enc.1 0 o.enc.2.1 0 o.enc.2.2,
    match o.shape with
    | .full => [oRd, oRs1, oImm]
    | .sh6 => [oRd, oRs1, oUimm 20 6]
    | .sh5 => [oRd, oRs1, oUimm 20 5]
    | .none => [oRd, oRs1]⟩

def rowLoad (o : LoadOp) : LRow :=
  ⟨encI 0 0 o.enc.1 0 o.enc.2, [if o.enc.2 = 0x07 then oFd else oRd, oImm, oRs1]⟩

def rowStore (o : StoreOp) : LRow :=
  ⟨encS 0 0 0 o.enc.1 o.enc.2, [if o.enc.2 = 0x27 then oFs2 else oRs2, oImmS, oRs1]⟩

/-- Ordinals 1 to 48. -/
def lamBase (n : Nat) : Option LRow :=
  let loads : List LoadOp := [.lb, .lh, .lw, .ld, .lbu, .lhu, .lwu]
  let stores : List StoreOp := [.sb, .sh, .sw, .sd]
  let imms : List AluImmOp :=
    [.addi, .slti, .sltiu, .xori, .ori, .andi, .slli, .srli, .srai, .addiw, .slliw, .srliw, .sraiw]
  let alus : List AluOp := [.add, .sub, .sll, .slt, .sltu, .xor, .srl, .sra, .or, .and, .addw, .subw, .sllw, .srlw, .sraw]
  if n = 1 then some ⟨0x37, [oRd, oUimm 12 20]⟩
  else if n = 2 then some ⟨0x17, [oRd, oUimm 12 20]⟩
  else if n = 3 then some ⟨0x6F, [oRd, oTgt]⟩
  else if n = 4 then some ⟨0x67, [oRd, oImm, oRs1]⟩
  else if n < 12 then loads[n - 5]?.map rowLoad
  else if n < 16 then stores[n - 12]?.map rowStore
  else if n = 16 then some ⟨0x0F, [oUimm 24 4, oUimm 20 4]⟩
  else if n = 17 then some ⟨0x73, []⟩
  else if n = 18 then some ⟨0x100073, []⟩
  else if n < 32 then imms[n - 19]?.map rowImm
  else if n < 47 then alus[n - 32]?.map rowAlu
  else if n = 47 then some ⟨0x100F, []⟩
  else some ⟨0x8330000F, []⟩

/-- Ordinals 50 to 84. -/
def lamMid (n : Nat) : Option LRow :=
  let brs : List BranchOp := [.beq, .bne, .blt, .bge, .bltu, .bgeu]
  let muls : List AluOp :=
    [.mul, .mulh, .mulhsu, .mulhu, .div, .divu, .rem, .remu, .mulw, .divw, .divuw, .remw, .remuw,
     .addUw, .sh1add, .sh1addUw, .sh2add, .sh2addUw, .sh3add, .sh3addUw]
  if n < 50 then none
  else if n < 56 then brs[n - 50]?.map fun o => ⟨encB 0 0 0 o.enc, [oRs1, oRs2, oTgt]⟩
  else if n < 59 then
    some ⟨encI 0 0 (BitVec.ofNat 3 (n - 55)) 0 0x73, [oRd, (.imm 0 4095, .at 20 12), oRs1]⟩
  else if n < 62 then
    some ⟨encI 0 0 (BitVec.ofNat 3 (n - 54)) 0 0x73, [oRd, (.imm 0 4095, .at 20 12), oUimm 15 5]⟩
  else if n < 82 then muls[n - 62]?.map rowAlu
  else if n = 82 then some (rowImm .slliUw)
  else if n = 83 then some (rowAlu .czeroEqz)
  else if n = 84 then some (rowAlu .czeroNez)
  else none

/-- Ordinals 128 to 223: i of format fmt. -/
def lamFp (fmt : FpFmt) (i : Nat) : Option LRow :=
  let ops : List FpOp :=
    [.madd, .msub, .nmsub, .nmadd, .add, .sub, .mul, .div, .sqrt, .sgnj, .sgnjn, .sgnjx, .min, .max, .eq, .lt, .le, .cls,
     .toW, .toWu, .toL, .toLu, .ofW, .ofWu, .ofL, .ofLu, .mvX, .mvF]
  let last : List FpOp := match fmt with | .s => [.ofD, .ofH] | .d => [.ofS, .ofH] | .h => [.ofS, .ofD]
  let ldOp : LoadOp := match fmt with | .s => .flw | .d => .fld | .h => .flh
  let stOp : StoreOp := match fmt with | .s => .fsw | .d => .fsd | .h => .fsh
  if i = 0 then some (rowLoad ldOp)
  else if i = 1 then some (rowStore stOp)
  else
    (ops ++ last)[i - 2]?.map fun o =>
      let dest := match o with | .eq | .lt | .le | .cls | .toW | .toWu | .toL | .toLu | .mvX => oRd | _ => oFd
      let src := match o with | .ofW | .ofWu | .ofL | .ofLu | .mvF => oRs1 | _ => oFs1
      let more := if o.sources = 3 then [oFs2, oFs3] else if o.sources = 2 then [oFs2] else []
      ⟨o.encode fmt 0 0 0 0 0, [dest, src] ++ more ++ (if o.hasRm then [oRm] else [])⟩

/-- Is an OPIVI immediate unsigned? -/
def opiviUnsigned (f6 : Nat) : Bool :=
  [0x0C, 0x0E, 0x0F, 0x14, 0x15, 0x25, 0x28, 0x29, 0x2A, 0x2B, 0x2C, 0x2D, 0x2E, 0x2F, 0x35].contains f6

/-- Does an arithmetic form take its operands in the order vd, vs1, vs2 (the multiply-adds)? -/
def vMulAddOrder (f3 f6 : Nat) : Bool :=
  ((f3 = 1 ∨ f3 = 5) ∧ (0x28 ≤ f6 ∧ f6 < 0x30 ∨ 0x3C ≤ f6)) ∨
  ((f3 = 2 ∨ f3 = 6) ∧ (f6 = 0x29 ∨ f6 = 0x2B ∨ f6 = 0x2D ∨ f6 = 0x2F ∨ 0x3C ≤ f6))

/-- Is the vm field of an arithmetic form fixed at 1, so that it has no mask byte? -/
def vFixedVm (f3 f6 : Nat) : Bool := f3 = 2 ∧ (f6 = 0x17 ∨ 0x18 ≤ f6 ∧ f6 < 0x20)

/-- Ordinals 236 to 747: the third source is a vector, an immediate, an x or an f register. -/
def lamOpV (f3 f6 : Nat) : Option LRow :=
  let third : LKind × LPlace :=
    if f3 = 3 then
      if f6 = 0x15 then (.imm 32 63, .at 15 5)
      else if opiviUnsigned f6 then oUimm 15 5 else (.imm (-16) 15, .at 15 5)
    else if f3 = 4 ∨ f3 = 6 then oRs1 else if f3 = 5 then oFs1 else oVs1
  let srcs := if vMulAddOrder f3 f6 then [oVd, third, oVs2] else [oVd, oVs2, third]
  let unary := (f3 = 2 ∧ (f6 = 0x10 ∨ f6 = 0x12 ∨ f6 = 0x14)) ∨ (f3 = 6 ∧ f6 = 0x10) ∨ (f3 = 5 ∧ f6 = 0x10) ∨
    (f3 = 1 ∧ (f6 = 0x10 ∨ f6 = 0x12 ∨ f6 = 0x13)) ∨ (f3 = 3 ∧ f6 = 0x27)
  if unary ∨ f3 = 7 then none
  else
    some ⟨encV (BitVec.ofNat 6 f6) (vFixedVm f3 f6) 0 0 (BitVec.ofNat 3 f3) 0 0x57,
      srcs ++ (if vFixedVm f3 f6 then []
               else if f6 = 0x17 then [(LKind.masked, LPlace.nowhere)] else [oVm])⟩

/-- Ordinals 748 to 1,003: group u, selector sel. -/
def lamUnary (u sel : Nat) : Option LRow :=
  let s : Reg := BitVec.ofNat 5 sel
  match u with
  | 0 =>
    if sel = 0 then some ⟨encV 0x10 true 0 0 2 0 0x57, [oRd, oVs2]⟩
    else some ⟨encV 0x10 false 0 s 2 0 0x57, [oRd, oVs2, oVm]⟩
  | 1 => some ⟨encV 0x10 true s 0 6 0 0x57, [oVd, oRs1]⟩
  | 2 => some ⟨encV 0x12 false 0 s 2 0 0x57, [oVd, oVs2, oVm]⟩
  | 3 =>
    if sel = 17 then some ⟨encV 0x14 false 0 s 2 0 0x57, [oVd, oVm]⟩
    else some ⟨encV 0x14 false 0 s 2 0 0x57, [oVd, oVs2, oVm]⟩
  | 4 => some ⟨encV 0x10 true 0 s 1 0 0x57, [oFd, oVs2]⟩
  | 5 => some ⟨encV 0x10 true s 0 5 0 0x57, [oVd, oFs1]⟩
  | 6 => some ⟨encV 0x12 false 0 s 1 0 0x57, [oVd, oVs2, oVm]⟩
  | _ => some ⟨encV 0x13 false 0 s 1 0 0x57, [oVd, oVs2, oVm]⟩

/-- Ordinals 1,004 to 1,014. -/
def lamVset (n : Nat) : Option LRow :=
  match n with
  | 1004 => some ⟨0x00007057, [oRd, oRs1, oUimm 20 11]⟩
  | 1005 => some ⟨0xC0007057, [oRd, oUimm 15 5, oUimm 20 10]⟩
  | 1006 => some ⟨0x80007057, [oRd, oRs1, oRs2]⟩
  | 1007 => some ⟨encV 0x17 true 0 0 0 0 0x57, [oVd, oVs1]⟩
  | 1008 => some ⟨encV 0x17 true 0 0 4 0 0x57, [oVd, oRs1]⟩
  | 1009 => some ⟨encV 0x17 true 0 0 3 0 0x57, [oVd, (.imm (-16) 15, .at 15 5)]⟩
  | 1010 => some ⟨encV 0x17 true 0 0 5 0 0x57, [oVd, oFs1]⟩
  | 1011 => some ⟨encV 0x27 true 0 0 3 0 0x57, [oVd, oVs2]⟩
  | 1012 => some ⟨encV 0x27 true 0 1 3 0 0x57, [oVd, oVs2]⟩
  | 1013 => some ⟨encV 0x27 true 0 3 3 0 0x57, [oVd, oVs2]⟩
  | 1014 => some ⟨encV 0x27 true 0 7 3 0 0x57, [oVd, oVs2]⟩
  | _ => none

/-- Ordinals 1,024 to 2,047, less 1,024. -/
def lamVmem (n : Nat) : Option LRow :=
  let st := n / 512
  let mop := n / 128 % 4
  let nf := n / 16 % 8
  let w := n / 4 % 4
  let k := n % 4
  let lumop : Reg := match k with | 0 => 0 | 1 => 8 | 2 => 11 | _ => 16
  let op : BitVec 7 := if st = 1 then 0x27 else 0x07
  let noVm := mop = 0 ∧ (k = 1 ∨ k = 2)
  if mop ≠ 0 ∧ k ≠ 0 then none
  else
    some ⟨encR (BitVec.ofNat 3 nf ++ (0 : BitVec 1) ++ BitVec.ofNat 2 mop ++ (if noVm then (1 : BitVec 1) else 0))
        (if mop = 0 then lumop else 0) 0 (vwidthEnc (BitVec.ofNat 2 w)) 0 op,
      [oVd, oZero, oRs1] ++ (if mop = 0 then [] else if mop = 2 then [oRs2] else [oVs2]) ++ (if noVm then [] else [oVm])⟩

/-- Ordinals 2,048 to 2,135, less 2,048. -/
def lamAmo (n : Nat) : Option LRow :=
  let ops : List AmoOp := [.lr, .sc, .swap, .add, .xor, .and, .or, .min, .max, .minu, .maxu]
  ops[n / 8]?.map fun o =>
    ⟨encR (o.enc ++ BitVec.ofNat 2 (n % 4)) 0 0 (if n / 4 % 2 = 1 then 3 else 2) 0 0x2F,
      if o = .lr then [oRd, oZero, oRs1] else [oRd, oRs2, oZero, oRs1]⟩

/-- Ordinals 2,136 to 2,163, less 2,136. -/
def lamZbb (n : Nat) : Option LRow :=
  match n with
  | 0 => some (rowAlu .andn) | 1 => some (rowAlu .orn) | 2 => some (rowAlu .xnor)
  | 3 => some (rowImm .clz) | 4 => some (rowImm .clzw) | 5 => some (rowImm .ctz) | 6 => some (rowImm .ctzw)
  | 7 => some (rowImm .cpop) | 8 => some (rowImm .cpopw)
  | 9 => some (rowAlu .max) | 10 => some (rowAlu .maxu) | 11 => some (rowAlu .min) | 12 => some (rowAlu .minu)
  | 13 => some (rowImm .sextB) | 14 => some (rowImm .sextH) | 15 => some (rowImm .zextH)
  | 16 => some (rowAlu .rol) | 17 => some (rowAlu .rolw) | 18 => some (rowAlu .ror)
  | 19 => some (rowImm .rori) | 20 => some (rowImm .roriw) | 21 => some (rowAlu .rorw)
  | 22 => some (rowImm .orcB) | 23 => some (rowImm .rev8)
  | 24 => some ⟨0x10200073, []⟩ | 25 => some ⟨0x30200073, []⟩ | 26 => some ⟨0x10500073, []⟩
  | 27 => some ⟨0x12000073, [oRs1, oRs2]⟩
  | _ => none

/-- Ordinals 224 to 231, less 224. -/
def lamZbs (n : Nat) : Option LRow :=
  match n with
  | 0 => some (rowAlu .bclr) | 1 => some (rowImm .bclri) | 2 => some (rowAlu .bext) | 3 => some (rowImm .bexti)
  | 4 => some (rowAlu .binv) | 5 => some (rowImm .binvi) | 6 => some (rowAlu .bset) | 7 => some (rowImm .bseti)
  | _ => none

/-- custom-0: ordinals 4,096 to 4,116. -/
def lamC0 (n : Nat) : Option LRow :=
  match n with
  | 4096 => some ⟨0x0B, [oRs1, oTgt]⟩
  | 4097 => some ⟨0x100B, [(.imm 0 1023, .nowhere), oTgt]⟩
  | 4098 => some ⟨0x0000200B, [oRd, oUimm 20 5]⟩
  | 4099 => some ⟨0x0200200B, [oRd, oUimm 20 5]⟩
  | 4100 => some ⟨0x0400200B, [oUimm 20 5]⟩
  | 4101 => some ⟨0x0600200B, [oRd]⟩
  | 4108 => some ⟨0x0000400B, [oRd, oRs1]⟩
  | 4109 => some ⟨0x0200400B, []⟩
  | 4110 => some ⟨0x0000500B, [oRd, oRs1, oUimm 20 8, oTgt]⟩
  | 4111 => some ⟨0x0000600B, []⟩
  | 4112 => some ⟨0x0200600B, []⟩
  | 4113 | 4114 | 4115 => some ⟨BitVec.ofNat 32 (0x0000600B + 0x02000000 * (n - 4111)), [oRd, oRs1, oRs2]⟩
  | 4116 => some ⟨0x0A00600B, [oRd]⟩
  | _ =>
    if 4102 ≤ n ∧ n < 4108 then some ⟨BitVec.ofNat 32 (0x300B + 0x02000000 * (n - 4102)), [oRd, oRs1, oRs2]⟩ else none

/-- custom-1: ordinals 4,128 to 4,310. -/
def lamC1 (n : Nat) : Option LRow :=
  let r (f7 f3 : Nat) (ops : List (LKind × LPlace)) : Option LRow :=
    some ⟨encR (BitVec.ofNat 7 f7) 0 0 (BitVec.ofNat 3 f3) 0 0x2B, ops⟩
  let mem := [oZero, oRs1]
  if n < 4128 then none
  else if n < 4140 then r (n - 4128) 0 ([oRd] ++ mem)
  else if n < 4152 then r (0x10 + (n - 4140)) 0 ([oRs2] ++ mem)
  else if n < 4156 then r (0x20 + (n - 4152)) 0 ([oRd] ++ mem)
  else if n < 4159 then r (0x30 + 4 * (n - 4156)) 0 []
  else if n < 4162 then r (0x40 + 4 * (n - 4159)) 0 []
  else if n < 4166 then r (n - 4162) 1 [oRd, oRs1, oRs2, oRs3]
  else if n = 4166 then r 0 2 [oRd, oRs1]
  else if n = 4167 then r 1 2 [oRd, oRs1, oRs2]
  else if n < 4170 then r (n - 4166) 2 ([oRd] ++ mem ++ [oRs2, oRs3])
  else if n = 4170 then r 0 3 [oRd, oRs1, oUimm 20 5]
  else if n = 4171 then r 1 3 [oRd, oUimm 20 5]
  else if n = 4172 then r 2 3 [oUimm 20 5]
  else if n = 4173 then r 3 3 [oUimm 20 5]
  else if n = 4174 then r 4 3 [oRd, oRs1, oUimm 20 5]
  else if n = 4175 then r 5 3 [oRd, oUimm 20 5]
  else if n < 4221 then r (4 * ((n - 4176) / 3 + 1) + (n - 4176) % 3) 4 ([oRs2] ++ mem)
  else if n < 4236 then r (0x40 + 4 * (n - 4220)) 4 ([oRs2] ++ mem)
  else if n < 4296 then
    r (8 * ((n - 4236) / 6) + 4 * ((n - 4236) / 3 % 2) + (n - 4236) % 3) 5 ([oRd, oRs2] ++ mem)
  else if n = 4296 then r 0 6 mem
  else if n = 4297 then r 1 6 ([oRd] ++ mem)
  else if n = 4298 then r 2 6 mem
  else if n = 4299 then r 3 6 ([oRd] ++ mem ++ [oRs2])
  else if n = 4300 then r 4 6 ([oRd] ++ mem)
  else if n = 4301 then r 5 6 [oRd]
  else if n = 4304 then r 2 7 []
  else if n < 4309 then r (n - 4302) 7 [oRd, oRs1, oRs2]
  else if n = 4309 then r 7 7 [oRd, oRs1]
  else if n = 4310 then r 8 7 [oRs1]
  else none

/-- custom-2: ordinals 4,320 to 4,350. -/
def lamC2 (n : Nat) : Option LRow :=
  let v (f6 f3 : Nat) (vm : Bool) (ops : List (LKind × LPlace)) : Option LRow :=
    some ⟨encV (BitVec.ofNat 6 f6) vm 0 0 (BitVec.ofNat 3 f3) 0 0x5B, ops⟩
  if n < 4320 then none
  else if n = 4320 then v 0 0 true [oVs1]
  else if n = 4321 then v 1 0 true []
  else if n = 4322 then v 2 0 true []
  else if n = 4323 then v 3 0 true [oRd]
  else if n = 4324 then v 4 0 false [oRs1, oVd, oVs2, oVm]
  else if n = 4327 then v 2 1 false [oVd, oVs2, oUimm 15 5, oVm]
  else if n < 4332 then v (n - 4325) 1 false [oVd, oVs2, oVs1, oVm]
  else if n < 4336 then v (16 + (n - 4332)) 1 false [oVd, oVs2, oVs1, oVm]
  else if n < 4340 then v (n - 4336) 2 false [oVd, oZero, oRs1, oVm]
  else if n = 4340 then v 4 2 false [oVd, oZero, oRs1, oVs2, oVm]
  else if n = 4341 then v 5 2 false [oVd, oUimm 15 5, oVm]
  else if n < 4344 then v (n - 4336) 2 false [oVd, oVs2, oRs1, oVm]
  else if n = 4345 then v 1 3 false [oVd, oVs2, oUimm 15 5, oVm]
  else if n = 4348 then v 4 3 false [oRd, oVs2, oRs1, oVm]
  else if n < 4351 then v (n - 4344) 3 false [oVd, oVs2, oRs1, oVm]
  else none

/-- custom-3: ordinals 4,352 + funct7. -/
def lamC3 (n : Nat) : Option LRow :=
  let c (f7 : Nat) (ops : List (LKind × LPlace)) : Option LRow := some ⟨encC3 (BitVec.ofNat 7 f7) 0 0 0 0, ops⟩
  if n < 4352 then none
  else
    let f7 := n - 4352
    if f7 ≤ 6 ∨ f7 = 8 then c f7 [oAcc, oRs1, oRs2, oFs3]
    else if f7 = 0x10 ∨ f7 = 0x11 ∨ f7 = 0x18 then c f7 [oAcc, oRs1, oRs2]
    else if f7 = 0x40 then c f7 [oRs3, oRs1]
    else if f7 = 0x41 then c f7 [oAcc]
    else if f7 = 0x42 then c f7 [oAcc, oRs1, oRs2]
    else if f7 = 0x43 then c f7 [oRs3, oUimm 20 5]
    else if 0x48 ≤ f7 ∧ f7 ≤ 0x4B then c f7 [oAcc, oRs1, oRs2]
    else if f7 = 0x4C ∨ f7 = 0x4D then c f7 [oAcc, oRs1, oRs2, oFs3]
    else none

/-- The row of an ordinal, compressed instructions apart. -/
def lamRow (n : Nat) : Option LRow :=
  if n = 0 then none
  else if n ≤ 48 then lamBase n
  else if n < 91 then lamMid n
  else if n < 128 then none
  else if n < 224 then
    lamFp (if n < 160 then .s else if n < 192 then .d else .h) ((n - 128) % 32)
  else if n < 232 then lamZbs (n - 224)
  else if n < 236 then none
  else if n < 748 then lamOpV ((n - 236) / 64) ((n - 236) % 64)
  else if n < 1004 then lamUnary ((n - 748) / 32) ((n - 748) % 32)
  else if n < 1015 then lamVset n
  else if n < 1024 then none
  else if n < 2048 then lamVmem (n - 1024)
  else if n < 2136 then lamAmo (n - 2048)
  else if n < 2164 then lamZbb (n - 2136)
  else if n < 4096 then none
  else if n < 4117 then lamC0 n
  else if n < 4320 then lamC1 n
  else if n < 4352 then lamC2 n
  else if n < 4480 then lamC3 n
  else none

/-! ## Compressed instructions in Lammel: ordinals 91 to 127 -/

/-- A 3-bit register's operand check. -/
def isLow (v : Int) : Bool := decide (8 ≤ v ∧ v ≤ 15)

def regOf (v : Int) : Reg := BitVec.ofInt 5 v
def immOf (v : Int) : BitVec 12 := BitVec.ofInt 12 v

/-- The operands of a compressed instruction, in assembly order. An sp operand is written as a register. -/
def lamCKinds (n : Nat) : Option (List LKind) :=
  let x : LKind := .reg 0
  let f : LKind := .reg 1
  let off (hi : Int) : LKind := .imm 0 hi
  let i6 : LKind := .imm (-32) 31
  match n with
  | 91 => some [x, x, off 1020]
  | 92 => some [f, off 248, x] | 93 => some [x, off 124, x] | 94 => some [x, off 248, x]
  | 95 => some [f, off 248, x] | 96 => some [x, off 124, x] | 97 => some [x, off 248, x]
  | 98 => some []
  | 99 | 100 | 101 => some [x, i6]
  | 102 => some [x, .imm (-512) 496]
  | 103 => some [x, i6]
  | 104 | 105 => some [x, .imm 0 63]
  | 106 => some [x, i6]
  | 107 | 108 | 109 | 110 | 111 | 112 => some [x, x]
  | 113 => some [.target]
  | 114 | 115 => some [x, .target]
  | 116 => some [x, .imm 0 63]
  | 117 => some [f, off 504, x] | 118 => some [x, off 252, x] | 119 => some [x, off 504, x]
  | 120 => some [x] | 121 => some [x, x] | 122 => some [] | 123 => some [x] | 124 => some [x, x]
  | 125 => some [f, off 504, x] | 126 => some [x, off 252, x] | 127 => some [x, off 504, x]
  | _ => none

/-- The expanded instruction; none where no native compressed encoding has these operands. -/
def lamCBuild (n : Nat) (vs : List Int) : Option Instr :=
  let mul (v k : Int) : Bool := decide (v % k = 0)
  match n, vs with
  | 91, [d, s, v] => if isLow d ∧ s = 2 ∧ v ≠ 0 ∧ mul v 4 then some (.aluImm .addi (regOf d) 2 (immOf v)) else none
  | 92, [d, v, b] => if isLow d ∧ isLow b ∧ mul v 8 then some (.scalarLoad .fld (regOf d) (regOf b) (immOf v)) else none
  | 93, [d, v, b] => if isLow d ∧ isLow b ∧ mul v 4 then some (.scalarLoad .lw (regOf d) (regOf b) (immOf v)) else none
  | 94, [d, v, b] => if isLow d ∧ isLow b ∧ mul v 8 then some (.scalarLoad .ld (regOf d) (regOf b) (immOf v)) else none
  | 95, [d, v, b] => if isLow d ∧ isLow b ∧ mul v 8 then some (.scalarStore .fsd (regOf d) (regOf b) (immOf v)) else none
  | 96, [d, v, b] => if isLow d ∧ isLow b ∧ mul v 4 then some (.scalarStore .sw (regOf d) (regOf b) (immOf v)) else none
  | 97, [d, v, b] => if isLow d ∧ isLow b ∧ mul v 8 then some (.scalarStore .sd (regOf d) (regOf b) (immOf v)) else none
  | 98, [] => some (.aluImm .addi 0 0 0)
  | 99, [d, v] => some (.aluImm .addi (regOf d) (regOf d) (immOf v))
  | 100, [d, v] => if d = 0 then none else some (.aluImm .addiw (regOf d) (regOf d) (immOf v))
  | 101, [d, v] => some (.aluImm .addi (regOf d) 0 (immOf v))
  | 102, [d, v] => if d = 2 ∧ v ≠ 0 ∧ mul v 16 then some (.aluImm .addi 2 2 (immOf v)) else none
  | 103, [d, v] => if d = 2 ∨ v = 0 then none else some (.lui (regOf d) (BitVec.ofInt 20 v))
  | 104, [d, v] => if isLow d then some (.aluImm .srli (regOf d) (regOf d) (immOf v)) else none
  | 105, [d, v] => if isLow d then some (.aluImm .srai (regOf d) (regOf d) (immOf v)) else none
  | 106, [d, v] => if isLow d then some (.aluImm .andi (regOf d) (regOf d) (immOf v)) else none
  | 107, [d, s] => if isLow d ∧ isLow s then some (.alu .sub (regOf d) (regOf d) (regOf s)) else none
  | 108, [d, s] => if isLow d ∧ isLow s then some (.alu .xor (regOf d) (regOf d) (regOf s)) else none
  | 109, [d, s] => if isLow d ∧ isLow s then some (.alu .or (regOf d) (regOf d) (regOf s)) else none
  | 110, [d, s] => if isLow d ∧ isLow s then some (.alu .and (regOf d) (regOf d) (regOf s)) else none
  | 111, [d, s] => if isLow d ∧ isLow s then some (.alu .subw (regOf d) (regOf d) (regOf s)) else none
  | 112, [d, s] => if isLow d ∧ isLow s then some (.alu .addw (regOf d) (regOf d) (regOf s)) else none
  | 113, [t] => some (.jal 0 (BitVec.ofInt 64 t))
  | 114, [s, t] => if isLow s then some (.branch .beq (regOf s) 0 (BitVec.ofInt 64 t)) else none
  | 115, [s, t] => if isLow s then some (.branch .bne (regOf s) 0 (BitVec.ofInt 64 t)) else none
  | 116, [d, v] => if d = 0 then some (.hintAff (BitVec.ofInt 6 v)) else some (.aluImm .slli (regOf d) (regOf d) (immOf v))
  | 117, [d, v, b] => if b = 2 ∧ mul v 8 then some (.scalarLoad .fld (regOf d) 2 (immOf v)) else none
  | 118, [d, v, b] => if d ≠ 0 ∧ b = 2 ∧ mul v 4 then some (.scalarLoad .lw (regOf d) 2 (immOf v)) else none
  | 119, [d, v, b] => if d ≠ 0 ∧ b = 2 ∧ mul v 8 then some (.scalarLoad .ld (regOf d) 2 (immOf v)) else none
  | 120, [s] => if s = 0 then none else some (.jalr 0 (regOf s) 0)
  | 121, [d, s] => if s = 0 then none else some (.alu .add (regOf d) 0 (regOf s))
  | 122, [] => some .ebreak
  | 123, [s] => if s = 0 then none else some (.jalr 1 (regOf s) 0)
  | 124, [d, s] => if s = 0 then none else some (.alu .add (regOf d) (regOf d) (regOf s))
  | 125, [d, v, b] => if b = 2 ∧ mul v 8 then some (.scalarStore .fsd (regOf d) 2 (immOf v)) else none
  | 126, [d, v, b] => if b = 2 ∧ mul v 4 then some (.scalarStore .sw (regOf d) 2 (immOf v)) else none
  | 127, [d, v, b] => if b = 2 ∧ mul v 8 then some (.scalarStore .sd (regOf d) 2 (immOf v)) else none
  | _, _ => none

/-! ## The decoder -/

/-- A count of loopi in its two fields (R82). -/
def loopiFields (vs : List Int) : BitVec 32 :=
  match vs with
  | c :: _ => let n := BitVec.ofInt 10 c; (((bits n 0 5).setWidth 32) <<< 15) ||| (((bits n 5 5).setWidth 32) <<< 7)
  | [] => 0

/-- One instruction but a pair: its ordinal, the instruction and what follows it. -/
def readLammel (nreg : Nat) (bs : List Byte) : LParse (Nat × Instr) :=
  match readUvarint 24 0 0 bs with
  | .bad r => .bad r
  | .short => .short
  | .ok n rest =>
    match lamCKinds n with
    | some ks =>
      match readOperands nreg ks rest with
      | .ok vs rest' => match lamCBuild n vs with | some i => .ok (n, i) rest' | none => .bad .badImmediate
      | .bad r => .bad r
      | .short => .short
    | none =>
      match lamRow n with
      | none => .bad .unassigned
      | some row =>
        match readOperands nreg (row.ops.map (·.1)) rest with
        | .bad r => .bad r
        | .short => .short
        | .ok vs rest' =>
          match decode32 (row.base ||| putAll row.ops vs ||| (if n = 4097 then loopiFields vs else 0)) with
          | none => .bad .unassigned
          | some i =>
            match targetOf row.ops vs with
            | none => .ok (n, i) rest'
            | some t =>
              match withTarget i t (bs.length - rest'.length) with
              | some j => .ok (n, j) rest'
              | none => .bad .badImmediate

/-- A Lammel instruction at the head of a list of bytes (R65 to R67); tval holds 8 bytes. -/
def decodeLammel (nreg : Nat) (bs : List Byte) : Decoded :=
  let fin (r : LParse (Nat × Instr)) (cap : Nat) : Decoded :=
    match r with
    | .ok (_, i) rest => if bs.length - rest.length ≤ cap then .ok i (bs.length - rest.length) else .illegal .tooLong 8
    | .bad r => .illegal r 8
    | .short => if cap ≤ bs.length then .illegal .tooLong 8 else .short
  match bs with
  | [] => .short
  | b0 :: rest0 =>
    if b0 = 0 then
      match rest0 with
      | [] => .short
      | gb :: rest1 =>
        if 64 ≤ gb.toNat then .illegal .badGuard 8
        else
          match readLammel nreg rest1 with
          | .bad r => .illegal r 8
          | .short => .short
          | .ok (n, a) rest2 =>
            if n < 91 ∨ 128 ≤ n then .illegal .unassigned 8
            else
              match readLammel nreg rest2 with
              | .bad r => .illegal r 8
              | .short => .short
              | .ok (_, v) rest3 =>
                match mkPair (bits gb 0 5) (bits gb 5 1 = 1) (some a) (some v) with
                | some p => .ok p (bs.length - rest3.length)
                | none => .illegal .badGuard 8
    else fin (readLammel nreg bs) 24

end Sys2Proof
end

