-- ==== Sys2Proof/Machine/Fetch.lean ====
section
/-! DEFINITION. Fetching an instruction: code pages and their states (R58 to R60), the form a PC selects (R65), the
translation area (R71), and decoding. -/

namespace Sys2Proof.Machine

/-! ## Code pages (R58 to R60) -/

/-- The page index of an address within an object's code pages: pages of no executable section are none (R11). -/
def Obj.pageOf (o : Obj) (va : Nat) : Option Nat :=
  let i := (va - o.cbase) / 4096
  if o.cbase ≤ va ∧ i < o.pages.length ∧ (o.phys.getD i none).isSome then some i else none

def Obj.pageSt (o : Obj) (i : Nat) : PageSt := o.pages.getD i .unverified
def Obj.pagePa (o : Obj) (i : Nat) : Nat := (o.phys.getD i none).getD 0

/-- A fetch unit starts to hash an unverified page of an object that is not quarantined. -/
def State.startHash (s : State) (obj page : Nat) : State :=
  s.modObj obj fun o =>
    if o.pageSt page = .unverified ∧ !o.quarantined then { o with pages := o.pages.set page .hashing } else o

/-- A code page of the task's own object as a place of memory: PMP and ownership hold for it as for any other (R73, R126). -/
def State.codeLoc (s : State) (via : Via) (va : Word) (pa : Nat) : Res Loc :=
  if s.allowed via .hbm pa 1 .fetch then s.reach via .fetch ⟨va, pa, .hbm, .u, bareHome pa, 0, 1⟩ else .trap 1 va s

/-- A fetch from a code page: an unverified page is hashed first, a failed one traps (R58, R60). -/
def State.codeFetch (s : State) (via : Via) (obj : Nat) (o : Obj) (i : Nat) (va : Word) : Res Loc :=
  let first := BitVec.ofNat 64 (o.cbase + 4096 * i)
  match o.pageSt i with
  | .verified => s.codeLoc via va (o.pagePa i + va.toNat % 4096)
  | .failed => .trap 24 first s
  | .unverified => if o.quarantined then .trap 24 first s else .stall .hash (s.startHash obj i)
  | .hashing => .stall .hash s

/-- A fetch from the translation area: the page must be execute-only (R71). A fault names the Lammel address (R69). -/
def State.areaFetch (s : State) (via : Via) (o : Obj) (va : Word) : Res Loc :=
  match s.locate via va 1 .fetch with
  | .ok [l] s1 => if o.xonly.contains (l.pa / 4096 * 4096) then .ok l s1 else .trap 1 (s.seePc s.hart va) s1
  | .ok _ s1 => .trap 1 (s.seePc s.hart va) s1
  | .trap c _ s1 => .trap c (s.seePc s.hart va) s1
  | .stall w s1 => .stall w s1

/-- Where a byte that the running hart fetches lies: a task in U mode fetches only from the code pages and the translation area of its
object (R59). -/
def State.fetchLoc (s : State) (va : Word) : Res Loc :=
  let via := s.viaFetch s.hart
  match s.seq.task, s.seq.mode with
  | some t, .u =>
    match s.obj? t.obj with
    | none => .trap 1 va s
    | some o =>
      match o.pageOf va.toNat with
      | some i => s.codeFetch via t.obj o i va
      | none => if o.inTrans va then s.areaFetch via o va else .trap 1 va s
  | _, _ =>
    (s.locate via va 1 .fetch).bind fun ls s1 => match ls with | [l] => .ok l s1 | _ => .trap 1 va s1

/-- Reads up to n bytes of a page that a fetch finds from an address on, as far as they are not poisoned: the line wakes its home, its Bead words are
reckoned; a poisoned first byte is cause 30. -/
def State.fetchBytes (s : State) (va : Word) (n : Nat) : Res (List Byte) :=
  (s.fetchLoc va).bind fun l s1 =>
    let s2 := s1.wakeHome l.home
    let s3 := if l.needsRod then s2.reckonRange (l.pa / 128 * 128) 128 none else s2
    let m := min n (4096 - va.toNat % 4096)
    match s3.firstPoison l.pa m with
    | none => .ok (s3.getBytes (s3.viaFetch s3.hart) { l with len := m }) s3
    | some p =>
      if p = l.pa then .trap 30 (s3.seePc s3.hart va) s3
      else .ok (s3.getBytes (s3.viaFetch s3.hart) { l with len := p - l.pa }) s3

/-- n bytes of Lammel code as they stand from an address on, for tval: bytes past the object's last Lammel code page read 0 (R66). -/
def State.tvalAt (s : State) (va : Word) : Nat → List Byte
  | 0 => []
  | n + 1 =>
    let b : Byte := match s.objOf s.hart with
      | some o => match o.pageOf va.toNat with
        | some i => if va.toNat < o.lammelEnd then memGet s.mem (o.pagePa i + va.toNat % 4096) else 0
        | none => 0
      | none => 0
    b :: s.tvalAt (va + 1) n

/-- The form of the code at a PC (R65). -/
def State.formAt (s : State) (pc : Word) : Form :=
  match s.seq.mode, s.objOf s.hart with
  | .u, some o => if o.inLammel pc then .lammel else .native
  | _, _ => .native

/-- Decodes bytes in a form. -/
def State.decodeAs (s : State) (f : Form) (bs : List Byte) : Decoded :=
  match f with
  | .native => decodeNative bs
  | .lammel => decodeLammel s.seq.vec.nregs bs

/-- The bytes that tval shows of an instruction of n bytes: 8 bytes of the Lammel instruction, whichever form runs (R66, R69, R72), or the
native instruction's own, at most 8 (R87). -/
def State.shownBytes (s : State) (f : Form) (pc : Word) (bs : List Byte) (n : Nat) : List Byte :=
  if f = .lammel then s.tvalAt pc 8
  else if s.seq.mode = .u ∧ s.inTrans s.hart pc then s.tvalAt (Config.lammelPc pc) 8
  else bs.take (min n 8)

/-- Sets the latch: the length, the bits for tval and the form. -/
def State.latchAs (s : State) (f : Form) (len : Nat) (bytes : List Byte) : State :=
  s.upd fun q => { q with latch := { len := len, bits := BitVec.ofNat 64 (leNat bytes), form := f } }

/-- What decoding answers, with the latch set: the instruction, or cause 2. -/
def State.decoded (s : State) (f : Form) (pc : Word) (bs : List Byte) (d : Decoded) : Option (Res Instr) :=
  match d with
  | .ok i len => some (.ok i (s.latchAs f len (s.shownBytes f pc bs len)))
  | .illegal _ n =>
    let s1 := s.latchAs f n (s.shownBytes f pc bs n)
    some (.trap 2 s1.tvalBits s1)
  | .short => none

/-- The address at which the running hart's Lammel code ends. -/
def State.lammelEnd (s : State) : Nat := ((s.objOf s.hart).map Obj.lammelEnd).getD 0

/-- Fetches on after the bytes it has and decodes, in at most `fuel` pieces: a fetch fault is taken at the instruction's address, and Lammel code ends
with its last page (R58, R66, R87). -/
def State.fetchMore (s : State) (f : Form) (pc : Word) (bs : List Byte) : Nat → Res Instr
  | 0 => .trap 1 (s.seePc s.hart pc) s
  | n + 1 =>
    if f = .lammel ∧ s.lammelEnd ≤ pc.toNat + bs.length then .trap 1 (s.seePc s.hart pc) s
    else
      match s.fetchBytes (pc + BitVec.ofNat 64 bs.length) (80 - bs.length) with
      | .ok more s1 =>
        match s1.decoded f pc (bs ++ more) (s1.decodeAs f (bs ++ more)) with
        | some r => r
        | none => s1.fetchMore f pc (bs ++ more) n
      | .trap 1 _ s1 => .trap 1 (s1.seePc s1.hart pc) s1
      | .trap c v s1 => .trap c v s1
      | .stall w s1 => .stall w s1

/-- Has a task that runs Lammel code left the Lammel code pages at no safe point that changes the form (R66, R70)? -/
def State.strays (s : State) : Bool :=
  s.seq.latch.form == .lammel && s.seq.mode == .u && match s.objOf s.hart with | some o => !o.inLammel s.seq.pc | none => false

/-- Fetches and decodes the instruction at the pc of the running hart; a target of Lammel code outside the Lammel code pages is cause 1 at the target. -/
def State.fetch (s : State) : Res Instr :=
  if s.strays then .trap 1 (s.seePc s.hart s.seq.pc) s else s.fetchMore (s.formAt s.seq.pc) s.seq.pc [] 5

end Sys2Proof.Machine
end

