-- ==== Sys2Proof/Machine/Failure.lean ====
section
/-! DEFINITION. Data errors (R192, R317) and a die boundary that fails (R318, R319). -/

namespace Sys2Proof.Machine

/-! ## Data errors -/

/-- A corrected SRAM or HBM error is logged; the structure code is the model's (log 23). -/
def State.logCorrected (s : State) (part type cls idx addr code : Nat) : State :=
  s.logEntry part
    { type := type, sev := 0, ovr := false, cls := cls, idx := idx, addr := BitVec.ofNat 64 addr, qid := noQid, data := leBytes 8 code }

/-- An uncorrectable error poisons its sector. -/
def State.poisonError (s : State) (part cls idx addr code : Nat) : State :=
  (s.poisonSector (addr / 32)).logEntry part
    { type := 3, sev := 1, ovr := false, cls := cls, idx := idx, addr := BitVec.ofNat 64 addr, qid := noQid, data := leBytes 8 code }

/-- Structure codes (log 23): those of a core's SRAMs, and 6 for an HBM stack. -/
def sramCode : SramUnit → Nat | .cache => 0 | .scratch => 1 | .beadLine => 2 | .vectorFile => 3 | .accumulator => 4 | .array => 5

def hbmCode : Nat := 6

/-- An error in an accumulator cell: corrected (KIND 3), or both cells of its 8-byte word become NaN with a mark (KIND 4), and cause 29 is pending
from the running operation's completion, or now where none runs. `cell` is 4096 * acc + 64 * m + j. -/
def State.accError (s : State) (core cell : Nat) (uncorrectable : Bool) : State :=
  let k := s.core core
  let acc := cell / 4096 % 4
  let m := cell / 64 % 64
  let j := cell % 64 / 2 * 2
  match k.holder with
  | none => s
  | some h =>
    let op := (s.getSeq h).mat.ops.head?
    let n := (op.map (·.n)).getD (s.getSeq h).mat.count
    if !uncorrectable then s.matReport h 3 acc 0 0 (cell % 4096) n
    else
      let row := setSlice (setSlice ((k.accRow acc m).setWidth 65536) (32 * j) 32 fmt32.nan) (32 * (j + 1)) 32 fmt32.nan
      let old := (k.marks.filter fun x => x.1 == acc && x.2.1 == m).map (·.2.2)
      let k1 := { k.setAccRow acc m (row.setWidth 2048) with marks := remark k.marks acc m ((old.filter fun x => x / 2 * 2 != j) ++ [j, j + 1]) }
      ((s.setCore core k1).matReport h 4 acc 0 0 (cell % 4096) n).modSeq h fun q =>
        match q.mat.ops with
        | o :: os => { q with mat := { q.mat with ops := { o with defer := o.defer.or (some 29) } :: os } }
        | [] => { q with mat := { q.mat with pend := q.mat.pend.or (some (29, n)) } }

/-- A residue mismatch in cell 64 * m + j of a core's array: the row group of row m, even or odd, is fenced; with both fenced the running operation
fails. The report names the cell (R190). -/
def State.arrayError (s : State) (core cell : Nat) : State :=
  let k := s.core core
  let g := cell / 64 % 2
  let both := k.fenced ||| (1 : BitVec 2) <<< g
  let s1 := s.setCore core { k with fenced := both }
  match k.holder with
  | none => s1
  | some h =>
    match (s.getSeq h).mat.ops with
    | [] => s1.matReport h (if both = 3 then 6 else 2) 0 g 0 (cell % 4096) (s.getSeq h).mat.count
    | op :: _ => if both = 3 then s1.failArray h cell op else s1.matReport h 2 op.acc.toNat g 0 (cell % 4096) op.n

/-- A lane group with 16 corrected errors within 1 s is retired (R317). -/
def State.countCorrected (s : State) (core group : Nat) : State :=
  let k := s.core core
  let recent := (k.corr.filter fun p => s.time ≤ p.2 + 1000000000) ++ [(group, s.time)]
  let s1 := s.setCore core { k with corr := recent }
  if 16 ≤ (recent.filter fun p => p.1 == group).length then s1.retireGroup core group else s1

/-- An error in an SRAM of a core, or in its matrix array. `addr` is a physical address, a lane group, an accumulator cell or a cell
of the array, by the structure. -/
def execSramError (unit : SramUnit) (core addr : Nat) (uncorrectable : Bool) (s : State) : Host.Outcome State Fault Refusal :=
  .next (
    let part := s.partOfCluster (clusterOf core)
    if 1024 ≤ core then s
    else
      match unit with
      | .accumulator => s.accError core addr uncorrectable
      | .array => s.arrayError core addr
      | _ =>
        if !uncorrectable then
          let s1 := s.logCorrected part 1 1 core addr (sramCode unit)
          if unit = .vectorFile then s1.countCorrected core (addr % 8) else s1
        else
          match unit with
          | .vectorFile => s.retireGroup core (addr % 8)
          | .beadLine => s.losePartials core fun w => w / 128 == addr / 128
          | _ => s.poisonError part 1 core addr (sramCode unit))

/-- An error in an HBM sector. 256-byte blocks rotate over the three stacks of a die (R126). -/
def execHbmError (addr : Nat) (uncorrectable : Bool) (s : State) : Host.Outcome State Fault Refusal :=
  .next (
    let stack := 3 * dieOfHbm addr + addr % 0x3000000000 / 256 % 3
    let part := s.partOfHbm addr
    if physTarget addr ≠ some .hbm then s
    else if uncorrectable then s.poisonError part 4 stack addr hbmCode
    else
      s.logEntry part
        { type := 2, sev := 0, ovr := false, cls := 4, idx := stack, addr := BitVec.ofNat 64 addr, qid := noQid,
          data := leBytes 8 stack ++ leBytes 8 (addr / 32) })

/-- The patrol scrub reads and corrects; what it finds is an HBM error. -/
def execPatrolScrub (s : State) : Host.Outcome State Fault Refusal := .next s

/-! ## A die boundary that fails (R318, R319) -/

def State.addRange (s : State) (launch : Nat) (va : Word) (n : Nat) : State :=
  s.modLaunch launch fun l => { l with ranges := l.ranges ++ [(va, n)] }

/-- A rod held across the boundary, by a context, an agent, a queue's thread or the hub, goes as that of a party that is lost (R227); what this poisons joins
the ranges of the context's launch (R319). -/
def State.loseRod (s : State) (b : Nat) (p : Nat × Rod) : State :=
  match p.2.holder with
  | none => s
  | some party =>
    let hart := match party with | .ctx c => s.hartOf c | _ => none
    let e := dieOf p.2.home
    if p.2.area.isSome ∨ crosses (party.dieTo hart e) e b = false then s
    else
      let s1 := s.reclaim p
      match party with
      | .ctx (.task launch _) => if s.rodWritten p then s1.addRange launch p.2.va 4096 else s1
      | _ => s1

/-- The die from which a party of the word masks reaches another: a core, an agent block or the hub. -/
def maskDie (party e : Nat) : Nat := if party < 1024 then dieOf party else if party < 2048 then (party - 1024) / 16 else hubSide e

/-- The copies of every party of lines homed across the boundary are lost. -/
def State.loseCopies (s : State) (b : Nat) : State :=
  let cut (p : Nat × DirLine) : Nat × DirLine :=
    let e := dieOf p.2.home
    let near (party : Nat) : Bool := !crosses (maskDie party e) e b
    (p.1, { p.2 with
      holders := p.2.holders.filter fun x => near x.1
      clusters := p.2.clusters.map fun m => (List.range 64).foldl (fun a c => if near (16 * c) then a else a &&& ~~~((1 : BitVec 64) <<< c)) m })
  { s with coh := { s.coh with dir := (s.coh.dir.map cut).filter fun p => !p.2.isEmpty } }

/-- The partials of a core, of words homed across the boundary, are lost; the sectors that this poisons join the ranges of the launches whose tasks made
them (R319). -/
def State.loseCore (s : State) (b core : Nat) : State :=
  let cut (x : Bead) : Bool := crosses (dieOf core) (dieOf x.home) b
  let parts := (s.coh.beads.filter fun x => cut x.2).flatMap fun x => x.2.parts.filter fun q => q.core == core && q.parked.isNone
  let s1 := s.losePartials core fun w => match aget s.coh.beads w with | some x => cut x | none => false
  (parts.flatMap Partial.owners).foldl (fun st o => st.addRange o.1 (o.2 &&& ~~~31) 32) s1

/-- The writes across the boundary that nothing tells are performed are in flight, or not, as the instant finds them. -/
def State.loseWrites (s : State) (b : Nat) : List Unsure → State
  | [] => { s with coh := { s.coh with unsure := s.coh.unsure.filter fun u => !crosses (hartCluster u.hart / 16) u.die b } }
  | u :: us =>
    let d := s.draw
    let lost := crosses (hartCluster u.hart / 16) u.die b && d.1.getLsbD 0
    (if lost then d.2.modLaunch u.launch fun l => { l with severed := true, ranges := l.ranges ++ [(u.va, u.len)] } else d.2).loseWrites b us

/-- Messages on their way across the boundary end as on a dead path (R263). -/
def State.loseMsgs (s : State) (b : Nat) : List Msg → State
  | [] => s
  | m :: ms =>
    let d := s.draw
    let lost := !m.bounced && crosses m.srcDie (hartCluster m.dest / 16) b && d.1.getLsbD 0
    let s1 := if lost then
        ({ d.2 with net := d.2.net.erase m } : State).pathDead m
      else d.2
    s1.loseMsgs b ms

/-- The cause 48 record of a task that the failure ends, with the tval of its own lost load. -/
def State.severTask (s : State) (h : Nat) (t : Task) : State :=
  let q := s.getSeq h
  let own := q.mode ≠ .u ∧ q.taken.1 = 48
  (s.endedRecord h t 48 (if own then q.taken.2.1 else s.seePc h q.pc) (if own then q.taken.2.2 else 0)).discardHart h t

/-- A launch that lost a transaction: every bound task is halted and ended, and the log says so. -/
def State.severLaunch (s : State) (b : Nat) (l : Launch) : State :=
  let s1 := s.harts.foldl (fun st h =>
    match (st.getSeq h).task with
    | some t => if t.launch = l.id then st.severTask h t else st
    | none => st) s
  let s2 := s1.saved.foldl (fun st x =>
    match x.seq.task with
    | some t => if t.launch = l.id then (st.endedRecord x.hart t 48 (st.seeSaved x.seq) 0).discardSaved x else st
    | none => st) s1
  s2.logEntry l.part
    { type := 12, sev := 3, ovr := false, cls := 5, idx := b, addr := 0, qid := l.qid, data := leBytes 8 b }

end Sys2Proof.Machine
end

