-- ==== Sys2Proof/Machine/Queue.lean ====
section
/-! DEFINITION. Queues as the queue processor holds them (R28 to R30, R38 to R41): QCB reads and writes, errors, taking a packet. -/

namespace Sys2Proof.Machine

/-! ## Access to queues -/

def Queue.va (q : Queue) (off : Nat) : Word := BitVec.ofNat 64 (q.qcb + off)

/-- Does a queue have an enabled configuration? -/
def Queue.enabled (q : Queue) : Bool := match q.cfg with | some c => c.enable | none => false

/-- A read of a thread in the queue's translation. -/
def State.qpRead (s : State) (q : Queue) (va : Word) (n : Nat) : Res (List Byte) := s.readBytes (s.viaQueue q.part q.qid) va n

/-- QSTATE as a number. -/
def QSt.code : QSt → Nat | .empty => 0 | .ready => 1 | .blocked => 2 | .awaiting => 3 | .stopped => 4 | .error => 5
def QSt.ofCode (n : Nat) : QSt := match n with | 1 => .ready | 2 => .blocked | 3 => .awaiting | 4 => .stopped | 5 => .error | _ => .empty

/-! ## Live fields (R28, R41) -/

/-- A QCB that cannot be read or written: no record, and the EVENT names the QCB (R30). A queue that is not enabled leaves its thread (R30, R39). -/
def State.queueBad (s : State) (q : Queue) : State :=
  if q.bad then s
  else
    (s.setQueue { q with qstate := .error, bad := true, cfgOk := false, granted := false, hand := .none, thread := if q.enabled then q.thread else none }).sendEvent
      q.part 2 q.qid (q.va 0) 0x44

/-- A live field written through to the QCB; the QP writes no field of a bad one. -/
def State.putLive (s : State) (q : Queue) (off : Nat) (bytes : List Byte) : State :=
  if q.bad then s
  else
    match s.frontWrite q.part q.qid .live (q.va off) bytes with
    | (s1, none) => s1
    | (s1, some _) => match s1.queue? q.part q.qid with | some q1 => s1.queueBad q1 | none => s1

/-- A queue leaves its thread: its live fields are written to the QCB. -/
def State.leaveThread (s : State) (q : Queue) : State :=
  let q1 : Queue := { q with thread := none, granted := false, hand := .none, waiting := s.time }
  ((s.setQueue q1).putLive q1 0x48 (leBytes 8 q.rdidx)).putLive q1 0x54
    (leBytes 1 q.qstate.code ++ leBytes 1 q.effprio ++ leBytes 2 q.age ++ leBytes 8 q.errcnt ++ leBytes 8 q.lastGrant)

/-! ## Errors (R30, R38) -/

/-- Do the errors of a code stop the queue? -/
def stopsQueue (code : Nat) : Bool := code != 0x46 && code != 0x47

/-- The 64 bytes of an error record. -/
def errorRecord (code qid pkt utag time : Nat) (args : List Word) : List Byte :=
  leBytes 4 code ++ leBytes 2 qid ++ leBytes 2 0 ++ leBytes 8 pkt ++ leBytes 4 utag ++ leBytes 4 0 ++ leBytes 8 time ++
    (args.flatMap (fun (w : Word) => leBytes 8 w.toNat) ++ List.replicate 32 0).take 32

/-- The address of a queue's next error record, once it has a configuration. -/
def Queue.errorAt (q : Queue) : Option Word := q.cfg.map fun c => BitVec.ofNat 64 (c.errBase + 64 * (q.errcnt % 2 ^ c.errLog2))

def State.putRecord (s : State) (q : Queue) (bytes : List Byte) : State :=
  match q.errorAt with
  | some a => (s.frontWrite q.part q.qid .record a bytes).1
  | none => s

/-- A queue that has met an error of a code: ERRCNT rises, and all but codes 0x46 and 0x47 stop it. -/
def Queue.failed (q : Queue) (code : Nat) : Queue :=
  let stops := stopsQueue code
  { q with errcnt := q.errcnt + 1, qstate := if stops then .error else q.qstate, granted := !stops && q.granted, hand := if stops then .none else q.hand }

/-- What follows an error of a queue: one that is not resident has QSTATE 5 written to its QCB, where swap-in finds it (log 68); one that is not enabled, or has
never had a valid configuration, is swapped out (R30, R39). -/
def State.afterError (s : State) (part qid : Nat) (stops : Bool) : State :=
  match s.queue? part qid with
  | none => s
  | some q =>
    if q.thread.isSome ∧ !q.enabled ∧ !q.granted then s.leaveThread q
    else if q.thread.isNone ∧ stops then s.putLive q 0x54 (leBytes 1 q.qstate.code)
    else s

/-- An error record of a queue, ERRCNT, the EVENT, and QSTATE 5 but for codes 0x46 and 0x47. A record whose slot refuses the write is dropped, and
ERRCNT counts it (log 68). -/
def State.queueError (s : State) (part qid code pkt utag : Nat) (args : List Word) : State :=
  match s.queue? part qid with
  | none => s
  | some q =>
    let s1 := (s.putRecord q (errorRecord code qid pkt utag s.time args)).setQueue (q.failed code)
    ((s1.putLive (q.failed code) 0x58 (leBytes 8 (q.errcnt + 1))).sendEvent part 2 qid (q.errorAt.getD 0) (BitVec.ofNat 64 code)).afterError part qid
      (stopsQueue code)

/-! ## Writes that wait (R21, R30, R108, R211) -/

/-- What the failure of a write that has waited does: as it would have done at once (R21, R30, R108). -/
def State.frontFault (s : State) (w : FrontWork) (c : Nat) : State :=
  match w.why with
  | .live => match s.queue? w.part w.qid with | some q => s.queueBad q | none => s
  | .slot pkt utag => s.queueError w.part w.qid 0x44 pkt utag [w.va]
  | .report which => s.logSkip w.part w.qid which w.va c
  | .record => s

/-- Is a waiting write one of a live field of a QCB that cannot be written any more (R30)? -/
def State.frontVoid (s : State) (w : FrontWork) : Bool :=
  w.why == .live && match s.queue? w.part w.qid with | some q => q.bad | none => true

/-- At most n of the writes that wait are tried in order from place i on, each queue's one after the other. -/
def State.frontDrain (s : State) : Nat → Nat → State
  | 0, _ => s
  | n + 1, i =>
    match s.front[i]? with
    | none => s
    | some w =>
      let drop (st : State) : State := { st with front := st.front.eraseIdx i }
      if s.frontVoid w then (drop s).frontDrain n i
      else if (s.front.take i).any fun k => k.part == w.part && k.qid == w.qid then s.frontDrain n (i + 1)
      else
        let r := s.frontTry w
        match r.2 with
        | (_, some c) => ((drop r.1).frontFault w c).frontDrain n i
        | (true, none) => (drop r.1).frontDrain n i
        | (false, none) => r.1.frontDrain n (i + 1)

/-! ## The configuration (R29, R30) -/

/-- A configuration of bytes 0x00 to 0x3F. -/
def cfgOf (b : List Byte) : QCfg :=
  { prio := fld b 0x06 1, enable := fld b 0x07 1 % 2 == 1, devpost := fld b 0x07 1 / 2 % 2 == 1, ringBase := fld b 0x08 8, ringLog2 := fld b 0x10 1,
    quantum := if fld b 0x14 4 = 0 then 500 else fld b 0x14 4, errBase := fld b 0x18 8, errLog2 := fld b 0x20 4, saveBase := fld b 0x28 8 }

/-- The offset of the first invalid field but QID. -/
def cfgBad (b : List Byte) : Option Nat :=
  ([(0x06, decide (7 < fld b 0x06 1)), (0x07, decide (4 ≤ fld b 0x07 1)), (0x08, fld b 0x08 8 % 4096 != 0),
    (0x10, decide (fld b 0x10 1 < 4 ∨ 16 < fld b 0x10 1)), (0x11, fld b 0x11 3 != 0),
    (0x14, decide (fld b 0x14 4 ≠ 0 ∧ (fld b 0x14 4 < 50 ∨ 100000 < fld b 0x14 4))), (0x18, fld b 0x18 8 % 64 != 0),
    (0x20, decide (12 < fld b 0x20 4)), (0x24, fld b 0x24 4 != 0), (0x30, fld b 0x30 16 != 0)].find? (·.2)).map (·.1)

/-- A valid configuration is taken over. The first one sets EFFPRIO to no less than PRIO, and a later one leaves it (log 68). A queue whose ENABLE is clear
leaves its thread, a granted LAUNCH first (R39, R41). -/
def State.takeConfig (s : State) (q : Queue) (c : QCfg) : State :=
  let q1 : Queue := { q with cfg := some c, cfgOk := true, noHalt := false, effprio := if q.cfg.isNone then max q.effprio c.prio else q.effprio }
  let s1 := s.setQueue q1
  if c.enable ∨ q1.granted ∨ q1.thread.isNone then s1 else s1.leaveThread q1

/-- A read of the configuration: SEQ, the fields, SEQ again, as one reading here. An odd SEQ keeps what was read last; a resident queue's is read again when
SEQ has changed (`force`: at swap-in), and an invalid one is reported once. The records name RDIDX and no UTAG (log 68). -/
def State.readConfig (s : State) (q : Queue) (force : Bool) : State :=
  match s.qpRead q (q.va 0) 64 with
  | .ok b s1 =>
    let seq := fld b 0 4
    let seen := q.seqword == some seq && !q.bad
    let q0 : Queue := { q with seqword := some seq, bad := false }
    let refuse (code : Nat) (args : List Word) : State :=
      if seen && !q.cfgOk then s1 else (s1.setQueue { q0 with cfgOk := false }).queueError q.part q.qid code q.rdidx 0 args
    if seq % 2 = 1 ∨ (seen = true ∧ force = false) then s1
    else if fld b 4 2 ≠ q.qid then refuse 0x48 [BitVec.ofNat 64 (fld b 4 2)]
    else
      match cfgBad b with
      | some off => refuse 0x49 [BitVec.ofNat 64 off, BitVec.ofNat 64 seq]
      | none => s1.takeConfig q0 (cfgOf b)
  | .trap _ _ s1 => s1.queueBad q
  | .stall _ s1 => s1

/-! ## CTRL (R37) -/

/-- Ends every saved context of a launch without a record. -/
def State.discardSavedOf (s : State) (id : Nat) : State :=
  s.saved.foldl (fun st x => match x.seq.task with | some t => if t.launch = id then st.discardSaved x else st | none => st) s

/-- Does f on each hart that runs a task of a launch. -/
def State.onTasks (s : State) (id : Nat) (f : State → Nat → Task → State) : State :=
  s.harts.foldl (fun st h => match (st.getSeq h).task with | some t => if t.launch = id then f st h t else st | none => st) s

/-- Ends every bound task and saved context of a launch without a record. -/
def State.discardTasks (s : State) (id : Nat) : State := (s.onTasks id State.discardHart).discardSavedOf id

/-- KILLREQ for a launch: its tasks are asked to halt as at pre-emption, and each is discarded at its landing; one that stands still already goes at
once, and so do saved contexts (R37, R300). -/
def State.killLaunch (s : State) (id : Nat) : State :=
  let s1 := s.modLaunch id fun y => { y with killed := true }
  (s1.onTasks id fun st h t =>
    let q := st.getSeq h
    if q.run = .running ∨ q.run = .idle then st.askHalt h else st.discardHart h t).discardSavedOf id

/-- The launches of a queue that have not completed. -/
def State.running (s : State) (part qid : Nat) : List Launch := s.launches.filter fun l => l.part == part && l.qid == qid && !l.done

/-- What the request at a bit of CTRL does to a queue: KILLREQ (1), STOPREQ (0) or RESUMEREQ (2). -/
def State.ctrlAct (s : State) (part qid bit : Nat) : State :=
  match bit with
  | 1 =>
    ((s.running part qid).foldl (fun x l => x.killLaunch l.id) s).modQueue part qid
      fun q => { q with qstate := .stopped, granted := false }
  | 0 => s.modQueue part qid fun q => { q with qstate := .stopped, granted := false }
  | _ => s.modQueue part qid fun q => if q.qstate = .stopped ∨ (q.qstate = .error ∧ q.cfgOk) then { q with qstate := .ready } else q

/-- Tests CTRL: the highest request found set is acted on, if it is one that is asked for, and those found set are cleared in one read-modify-write, so that
a request set meanwhile stays (log 68). -/
def State.testCtrl (s : State) (q : Queue) (asked : Nat → Bool) : State :=
  if q.bad then s
  else
    match s.qpRead q (q.va 0x50) 8 with
    | .ok b s1 =>
      let c := leNat b % 8
      let top := if c / 2 % 2 = 1 then 1 else if c % 2 = 1 then 0 else 2
      if c = 0 ∨ asked top = false then s1
      else
        match s1.amoVa (s1.viaQueue q.part q.qid) (q.va 0x50) false (fun w => w - c) with
        | .ok _ s2 => s2.ctrlAct q.part q.qid top
        | .trap _ _ s2 => s2.queueBad q
        | .stall _ s2 => s2
    | .trap _ _ s1 => s1.queueBad q
    | .stall _ s1 => s1

/-! ## The resident set (R39, R41) -/

/-- The lowest thread with no queue mapped (R39). -/
def State.freeThread (s : State) : Option Nat :=
  (List.range 32).find? fun t => !(s.qp.queues.any fun q => q.thread == some t)

/-- A queue becomes resident: the live fields are read back, the configuration is read and CTRL tested. One in error over its QCB keeps its live fields, and
one without an enabled configuration does not stay: it is swapped out again with what CTRL made of it (R37). A QSTATE above 5 that software has put into the
QCB is taken as 0, and an EFFPRIO above 7 as 7 (log 68). -/
def State.swapIn (s : State) (q : Queue) (thread : Nat) : State :=
  if s.frontBusy q.part q.qid then s
  else
    match s.qpRead q (q.va 0x40) 0x28 with
    | .ok b s1 =>
      let q1 : Queue :=
        if q.bad then { q with thread := some thread }
        else { q with thread := some thread, rdidx := fld b 0x08 8, qstate := QSt.ofCode (fld b 0x14 1), effprio := min 7 (fld b 0x15 1), age := fld b 0x16 2 }
      let s2 := (s1.setQueue q1).readConfig q1 true
      let s3 := match s2.queue? q.part q.qid with | some q2 => s2.testCtrl q2 fun _ => true | none => s2
      match s3.queue? q.part q.qid with
      | some q3 => if q3.enabled ∨ q3.thread.isNone then s3 else s3.leaveThread q3
      | none => s3
    | .trap _ _ s1 => s1.queueBad q
    | .stall _ s1 => s1

/-! ## Packets (R32 to R35) -/

/-- The body bytes that a packet type lists, as ranges from and up to. -/
def packetFields (type : Nat) : List (Nat × Nat) :=
  match type with
  | 2 | 3 => [(0x08, 0x10)]
  | 4 => [(0x08, 0x20)]
  | 5 => [(0x08, 0x24), (0x28, 0x30)]
  | 6 => [(0x08, 0x20)]
  | 7 => [(0x08, 0x30)]
  | 8 => [(0x08, 0x18)]
  | _ => []

/-- Is the byte at an offset of a packet one that makes it invalid (R33)? -/
def badByte (b : List Byte) (type off : Nat) : Bool :=
  if off = 0 then false
  else if off = 1 then decide (4 ≤ fld b 1 1)
  else if off < 4 then fld b off 1 != 0
  else if off < 8 then false
  else if (packetFields type).any fun r => decide (r.1 ≤ off ∧ off < r.2) then
    (type == 6 && off == 0x18 && decide (2 < fld b 0x18 4)) || (type == 6 && off == 0x1C && decide (1 < fld b 0x1C 4)) ||
      (type == 5 && off == 0x20 && decide (3 < fld b 0x20 4))
  else fld b off 1 != 0

/-- Code and ARG0 of an invalid packet. -/
def packetError (b : List Byte) : Option (Nat × Nat) :=
  let type := fld b 0 1
  if type = 0 ∨ 9 ≤ type then some (0x40, fld b 0 8)
  else ((List.range 64).find? fun off => badByte b type off).map fun off => (0x41, off)

/-- Has every earlier launch of a queue completed, and every earlier COPY written its timeline? -/
def State.earlierDone (s : State) (part qid : Nat) : Bool :=
  (s.launches.all fun l => !(l.part == part && l.qid == qid) || l.done) && (s.qp.hub.all fun c => !(c.part == part && c.qid == qid))

/-- Is a packet held until then (R35)? -/
def packetHeld (b : List Byte) : Bool := fld b 1 1 / 2 % 2 == 1 || fld b 0 1 == 8

/-- A packet taken by its thread. -/
structure Packet where
  q : Queue
  c : QCfg
  b : List Byte
deriving DecidableEq, Repr

def Packet.type (p : Packet) : Nat := fld p.b 0 1
def Packet.utag (p : Packet) : Nat := fld p.b 4 4
def Packet.w (p : Packet) (off : Nat) : Word := fldW p.b off

/-- May a queue take packets: resident, under a valid enabled configuration (a granted LAUNCH goes on), neither stopped nor in error? -/
def Queue.live (q : Queue) : Option QCfg :=
  if q.thread.isNone ∨ !q.cfgOk ∨ q.bad ∨ q.qstate = .stopped ∨ q.qstate = .error then none
  else match q.cfg with | some c => if c.enable ∨ q.granted then some c else none | none => none

/-- What a thread reads at its queue's head: nothing yet, a packet, or the error that it finds. -/
inductive Head where
  | nothing (empty : Bool)
  | packet (p : Packet)
  | bad
  | error (code : Nat) (arg : Word)
deriving DecidableEq, Repr

/-- The published packet at RDIDX, unless a request of CTRL comes first or the ring or slot cannot be read. WRIDX − RDIDX is taken modulo 2^64, so that a
WRIDX below RDIDX is an error 0x42 too (log 68). -/
def State.head (s : State) (q : Queue) (c : QCfg) : Res Head :=
  match s.qpRead q (q.va 0x40) 0x18 with
  | .ok b s1 =>
    let wr := fld b 0 8
    let room := 2 ^ c.ringLog2
    let n := (wr + 2 ^ 64 - q.rdidx % 2 ^ 64) % 2 ^ 64
    if fld b 0x10 4 % 8 ≠ 0 ∧ q.taken = false then .ok (.nothing false) s1
    else if room < n then .ok (.error 0x42 (BitVec.ofNat 64 wr)) s1
    else if n = 0 then .ok (.nothing true) s1
    else
      match s1.qpRead q (BitVec.ofNat 64 (c.ringBase + 64 * (q.rdidx % room))) 64 with
      | .ok p s2 => .ok (if fld p 1 1 % 2 = 1 - q.rdidx / room % 2 then .packet ⟨q, c, p⟩ else .nothing false) s2
      | .trap _ v s2 => .ok (.error 0x44 v) s2
      | .stall w s2 => .stall w s2
  | .trap _ _ s1 => .ok .bad s1
  | .stall w s1 => .stall w s1

/-- A packet finishes: RDIDX rises and is written through, the packet's rods go, and a queue disabled meanwhile leaves its thread (R35, R41, R213). -/
def State.endPacket (s : State) (q : Queue) : State :=
  let q1 : Queue :=
    { q with rdidx := q.rdidx + 1, qstate := .ready, waitFrom := none, granted := false, hand := .none, postErr := q.postErr.filter fun p => p.1 != q.rdidx }
  let s1 := ((s.setQueue q1).putLive q1 0x48 (leBytes 8 q1.rdidx)).releaseRods (.queue q.part q.qid)
  let s2 := s1.dropAsks (.queue q.part q.qid)
  match s2.queue? q.part q.qid with
  | some q2 => if q2.enabled ∨ q2.thread.isNone then s2 else s2.leaveThread q2
  | none => s2

/-- Takes the packet at RDIDX if it may be executed now: one posted while DEVPOST was clear, an invalid one, and one that is held
are dealt with here. While a write of the queue waits, its thread does. -/
def State.takePacket (s : State) (part qid : Nat) : Res (Option Packet) :=
  match s.queue? part qid with
  | none => .ok none s
  | some q =>
    match q.live, s.frontBusy part qid with
    | some c, false =>
      match s.head q c with
      | .ok (.packet p) s1 =>
        match q.postErr.find? fun e => e.1 == q.rdidx with
        | some e => .ok none ((s1.endPacket q).queueError part qid 0x45 q.rdidx p.utag [BitVec.ofNat 64 e.2])
        | none =>
          match packetError p.b with
          | some (code, arg) => .ok none (s1.queueError part qid code q.rdidx p.utag [BitVec.ofNat 64 arg])
          | none =>
            if packetHeld p.b ∧ q.hand = .none ∧ !s1.earlierDone part qid then .ok none (s1.setQueue { q with qstate := .awaiting })
            else
              let q1 : Queue := if q.qstate = .blocked then q else { q with qstate := .ready }
              (Res.ok (some { p with q := q1 }) (s1.setQueue q1))
      | .ok (.nothing empty) s1 => .ok none (if empty then s1.setQueue { q with qstate := .empty } else s1)
      | .ok (.error code arg) s1 => .ok none (s1.queueError part qid code q.rdidx 0 [arg])
      | .ok .bad s1 => .ok none (s1.queueBad q)
      | .stall w s1 => .stall w s1
      | .trap c v s1 => .trap c v s1
    | _, _ => .ok none s

/-- QSTATE of a queue as its QCB and ring stand: empty or ready, unless it is another. -/
def State.readyState (s : State) (q : Queue) : QSt :=
  if q.qstate ≠ .empty ∧ q.qstate ≠ .ready then q.qstate
  else
    match q.live with
    | none => q.qstate
    | some c =>
      match s.head q c with
      | .ok (.packet _) _ => .ready
      | .ok (.nothing true) _ => .empty
      | _ => q.qstate

/-- A queue is swapped out with the QSTATE that it has now (R28, R41). -/
def State.swapOut (s : State) (q : Queue) : State := s.leaveThread { q with qstate := s.readyState q }

/-- A fault or misalignment of a packet's address, or poison under it: code 0x44 (log 68). -/
def State.packetFault (s : State) (p : Packet) (args : List Word) : State :=
  ((s.queueError p.q.part p.q.qid 0x44 p.q.rdidx p.utag args).releaseRods (.queue p.q.part p.q.qid)).dropAsks (.queue p.q.part p.q.qid)

end Sys2Proof.Machine
end

