-- ==== Sys2Proof/Machine/Header.lean ====
section
/-! DEFINITION. Launch headers (R15 to R24): what the front end reads and checks, kernel records (R12, R61), and the completion record
and timeline (R21, R313, R314). -/

namespace Sys2Proof.Machine

/-! ## Kernel records (R12, R60, R61) -/

/-- A kernel record of a loaded object: the object, its entry pc, the least stack, SEMVER, and whether it can be launched: the object is not quarantined
and the record has an entry. -/
structure Kernel where
  obj    : Nat
  entry  : Word
  minstk : Nat
  semver : Nat
  ok     : Bool
deriving DecidableEq, Repr

/-- The record k of object i, past at most n replacements: a replaced object's kernels are those of the same NAME in the new one (R61). -/
def State.kernelNow (s : State) : Nat → Nat → Nat → Option (Nat × Nat)
  | 0, _, _ => none
  | n + 1, i, k =>
    match s.objs[i]? with
    | none => none
    | some o =>
      if o.retired.isNone then if o.freed then none else some (i, k)
      else
        match o.newObj, o.names[k]? with
        | some j, some name => ((s.objs[j]?).bind fun x => x.names.findIdx? (· == name)).bind fun k' => s.kernelNow n j k'
        | _, _ => none

/-- The object and index of the kernel record at an address: of a loaded object, or of the last that has been retired there. -/
def State.kernelAt (s : State) (part : Nat) (a : Nat) : Option (Nat × Nat) :=
  let at? (o : Obj) : Bool := o.part == part && !(o.freed && o.retired.isNone) && decide (o.kinfo.1 ≤ a ∧ a < o.kinfo.1 + o.kinfo.2) && (a - o.kinfo.1) % 32 == 0
  let all := (List.range s.objs.length).filter fun i => match s.objs[i]? with | some o => at? o | none => false
  let now := all.filter fun i => match s.objs[i]? with | some o => o.retired.isNone | none => false
  let i? := match now.head? with | some i => some i | none => all.getLast?
  i?.bind fun i => (s.objs[i]?).bind fun o => s.kernelNow (s.objs.length + 1) i ((a - o.kinfo.1) / 32)

/-- A read of the front end that may fail (none), or wait. -/
def Res.orNone {α : Type} (r : Res α) : Res (Option α) :=
  match r with
  | .ok a s => .ok (some a) s
  | .trap _ _ s => .ok none s
  | .stall w s => .stall w s

/-- The kernel of record k of an object, as its 32 bytes give it; the native entry is taken where there is one (log 25). -/
def Obj.kernelOf (o : Obj) (i : Nat) (b : List Byte) : Kernel :=
  let lent := fld b 0 8
  let nent := fld b 8 8
  let ones := 2 ^ 64 - 1
  { obj := i, minstk := fld b 0x18 4, semver := fld b 0x14 2, ok := !o.quarantined && !(lent == ones && nent == ones),
    entry := BitVec.ofNat 64 (if nent ≠ ones then o.native.1 + nent else o.lammel.1 + lent) }

/-- The kernel that ENTRY names. A record that cannot be read, poison under it among the causes, names none, code 0x08 (log 69). -/
def State.kernel (s : State) (via : Via) (part : Nat) (entry : Word) : Res (Option Kernel) :=
  match s.kernelAt part entry.toNat with
  | none => .ok none s
  | some (i, k) =>
    match s.objs[i]? with
    | none => .ok none s
    | some o => (s.readBytes via (BitVec.ofNat 64 (o.kinfo.1 + 32 * k)) 32).orNone.bind fun b s1 => .ok (b.map (o.kernelOf i)) s1

/-- The kernels of the ENTRY fields of a header. -/
def State.kernelsAt (s : State) (via : Via) (part : Nat) : List Word → Res (List (Option Kernel))
  | [] => .ok [] s
  | e :: es => (s.kernel via part e).bind fun k s1 => (s1.kernelsAt via part es).bind fun ks s2 => .ok (k :: ks) s2

/-! ## Grid headers (R16 to R18) -/

def gN (b : List Byte) (l : Nat) : Nat := if l < fld b 4 1 then fld b (0x18 + 8 * l) 8 else 1
def gW (b : List Byte) (l : Nat) : Nat := if l < fld b 4 1 then fld b (8 + l) 1 else 0
def gWalk (b : List Byte) (j : Nat) : Nat := fld b (0x0E + j) 1

/-- Product of a function below n. -/
def prodTo (f : Nat → Nat) (n : Nat) : Nat := (List.range n).foldl (fun m i => m * f i) 1

/-- Tasks of a grid, and of one of its workgroups. -/
def gridTotal (b : List Byte) : Nat := prodTo (gN b) 6
def gridWg (b : List Byte) : Nat := prodTo (gN b) (fld b 5 1 + 1)

/-- Do the levels break R17? -/
def badLevels (b : List Byte) : Bool :=
  let n := fld b 4 1
  n == 0 || decide (6 < n) || (List.range 6).any (fun l => decide (64 < fld b (8 + l) 1)) ||
    decide (64 < (List.range 6).foldl (fun a l => a + fld b (8 + l) 1) 0) ||
    (List.range 6).any fun l =>
      let w := fld b (8 + l) 1
      let x := fld b (0x18 + 8 * l) 8
      if l < n then x == 0 || decide (2 ^ w < x) else w != 0 || decide (1 < x)

/-- Is WALK no permutation of the levels in use, or not 0 above them (R17; R22 names no code for the latter, log 69)? -/
def badWalk (b : List Byte) : Bool :=
  let n := fld b 4 1
  (List.range 6).any fun j =>
    if j < n then !((List.range n).any fun i => gWalk b i == j) else gWalk b j != 0

/-- The lowest code of a grid header by itself, its kernel and its resume list. -/
def gridCode (b : List Byte) (hdr : Word) (k : Option Kernel) (resumeOk : Bool) : Nat :=
  let tscr := fld b 0x8C 4
  let wgscr := fld b 0x90 4
  let stk := fld b 0x94 4
  if fld b 0 1 ≠ 1 ∨ fld b 1 1 ≠ 1 ∨ hdr.toNat % 64 ≠ 0 then 0x01
  else if 16 ≤ fld b 2 2 ∨ fld b 7 1 ≠ 0 ∨ fld b 0x14 4 ≠ 0 ∨ fld b 0xA0 96 ≠ 0 then 0x02
  else if badLevels b then 0x03
  else if badWalk b then 0x04
  else if fld b 4 1 ≤ fld b 5 1 ∨ 64 < gridWg b then 0x05
  else if fld b 6 1 = 0 then 0x06
  else if tscr % 128 ≠ 0 ∨ wgscr % 128 ≠ 0 ∨ 65536 < wgscr ∨ stk % 128 ≠ 0 ∨ 49152 < tscr + stk ∨ stk < ((k.map (·.minstk)).getD 0) then 0x07
  else
    match k with
    | none => 0x08
    | some x => if !x.ok then 0x08 else if x.semver ≠ 1 then 0x09 else if !resumeOk then 0x0A else 0

/-- A read at an address of a header, which must lie in the partition's HBM (R42). -/
def State.readFront (s : State) (via : Via) (va : Word) (n : Nat) : Res (List Byte) :=
  (s.locate via va n .load).bind fun ls s1 => if ls.all fun l => l.t == .hbm then s1.readLocs via false ls else .trap 5 va s1

/-- Reads n resume entries. -/
def State.readResume (s : State) (via : Via) : Nat → Word → Res (List (Nat × Nat))
  | 0, _ => .ok [] s
  | n + 1, a =>
    (s.readFront via a 16).bind fun e s1 => (s1.readResume via n (a + 16)).bind fun es s2 => .ok ((fld e 0 8, fld e 8 8) :: es) s2

/-- Are ranges non-empty, ascending, apart and below a total? -/
def rangesOk (total : Nat) : Nat → List (Nat × Nat) → Bool
  | _, [] => true
  | lo, (a, n) :: rest => decide (lo ≤ a ∧ 0 < n ∧ a + n ≤ total) && rangesOk total (a + n) rest

/-- The resume list of a grid: none where RESUME is 0, whatever RESUMECNT holds; the flag says whether it meets R20 and is no longer than R16 allows
(log 69). -/
def State.resumeList (s : State) (via : Via) (b : List Byte) : Res (Option (List (Nat × Nat)) × Bool) :=
  if fld b 0x80 8 = 0 then .ok (none, true) s
  else if 65536 < fld b 0x88 4 then .ok (none, false) s
  else
    (s.readResume via (fld b 0x88 4) (fldW b 0x80)).orNone.bind fun l s1 =>
      .ok (l, match l with | some l => rangesOk (gridTotal b) 0 l | none => false) s1

/-! ## Pipeline headers (R23, R24) -/

/-- A stage record and a channel word of header bytes. -/
def pStage (b : List Byte) (i : Nat) : List Byte := (b.drop (0x30 + 16 * i)).take 16
def pChan (b : List Byte) (i : Nat) : Nat := fld b (0xB0 + 4 * i) 4

/-- Are the stages free of cycles? Each pass takes the stages whose producers are all taken. -/
def acyclic (b : List Byte) (n m : Nat) : Bool :=
  let pass (done : List Nat) : List Nat :=
    (List.range n).filter fun i =>
      (List.range m).all fun c => chanCons (pChan b c) != i || done.contains (chanProd (pChan b c))
  ((List.range n).foldl (fun d _ => pass d) []).length == n

/-- Is a channel word outside its limits (R23, R24)? -/
def badChan (b : List Byte) (n c : Nat) : Bool :=
  let w := pChan b c
  decide (n ≤ chanProd w ∨ n ≤ chanCons w ∨ chanProd w = chanCons w ∨ chanAllow w = 0 ∨ 64 < chanAllow w ∨ chanSlot w = 0 ∨ 7 < chanSlot w) ||
    (fld (pStage b (chanCons w)) 10 1 % 2 == 0 && chanHidx w != 0)

/-- Does the pipeline's shape break R24, or a field's limits in R23 (for which R22 names no code, log 69)? `room` is the most cores it may take. -/
def badPipe (b : List Byte) (room : Nat) : Bool :=
  let n := fld b 4 1
  let m := fld b 5 1
  n == 0 || decide (8 < n) || decide (16 < m) ||
    (List.range n).any (fun i => fld (pStage b i) 8 2 == 0 || decide (1024 < fld (pStage b i) 8 2)) ||
    (List.range m).any (badChan b n) || !acyclic b n m ||
    (decide (1 < n) && (List.range n).any fun i => !((List.range m).any fun c => chanProd (pChan b c) == i || chanCons (pChan b c) == i)) ||
    decide (room < (List.range n).foldl (fun a i => a + fld (pStage b i) 8 2) 0)

/-- Is a reserved field of a pipeline header not 0, or a stage or channel at or above its number (log 69)? -/
def pipeReserved (b : List Byte) : Bool :=
  let n := min 8 (fld b 4 1)
  let m := min 16 (fld b 5 1)
  fld b 2 2 &&& 0xFFF9 != 0 || fld b 6 2 != 0 || fld b 0xF8 8 != 0 ||
    (List.range 8).any (fun i => if i < n then decide (2 ≤ fld (pStage b i) 10 1) else fld (pStage b i) 0 16 != 0) ||
    (List.range 16).any fun c => if c < m then pChan b c / 64 % 4 != 0 else pChan b c != 0

/-- Is a stage's scratch outside its limits (code 0x07)? -/
def badStage (b : List Byte) (i : Nat) (k : Option Kernel) : Bool :=
  let scr := fld (pStage b i) 12 2
  let stk := fld (pStage b i) 14 2
  decide (49152 < 128 * (scr + stk) ∨ 128 * stk < (k.map (·.minstk)).getD 0)

/-- The lowest code of a pipeline header. -/
def pipeCode (b : List Byte) (hdr : Word) (ks : List (Option Kernel)) (room : Nat) : Nat :=
  if fld b 0 1 ≠ 2 ∨ fld b 1 1 ≠ 1 ∨ hdr.toNat % 64 ≠ 0 then 0x01
  else if pipeReserved b then 0x02
  else if ks.zipIdx.any fun p => fld (pStage b p.2) 11 1 == 0 then 0x06
  else if ks.zipIdx.any fun p => badStage b p.2 p.1 then 0x07
  else if ks.any fun k => match k with | some x => !x.ok | none => true then 0x08
  else if ks.any fun k => match k with | some x => x.semver != 1 | none => false then 0x09
  else if badPipe b room then 0x0B
  else 0

/-! ## The completion record (R313, R314) -/

/-- The range from a of n bytes, and ascending ranges after it, merged where they touch. -/
def mergeFrom (a n : Nat) : List (Nat × Nat) → List (Nat × Nat)
  | [] => [(a, n)]
  | (b, m) :: rest => if b ≤ a + n then mergeFrom a (max (a + n) (b + m) - a) rest else (a, n) :: mergeFrom b m rest

/-- Ascending ranges merged where they touch. -/
def mergeTouching : List (Nat × Nat) → List (Nat × Nat)
  | [] => []
  | (a, n) :: rest => mergeFrom a n rest

/-- The smallest gap between neighbours. -/
def leastGap : List (Nat × Nat) → Option Nat
  | (a, n) :: (b, m) :: rest =>
    match leastGap ((b, m) :: rest) with
    | some g => some (min g (b - (a + n)))
    | none => some (b - (a + n))
  | _ => none

/-- Merges the first neighbours with a gap. -/
def mergeGap (g : Nat) : List (Nat × Nat) → List (Nat × Nat)
  | (a, n) :: (b, m) :: rest => if b - (a + n) = g then (a, b + m - a) :: rest else (a, n) :: mergeGap g ((b, m) :: rest)
  | l => l

/-- Coarsens ranges until at most 26 remain. -/
def coarsen : Nat → List (Nat × Nat) → List (Nat × Nat)
  | 0, l => l
  | f + 1, l => if l.length ≤ 26 then l else match leastGap l with | some g => coarsen f (mergeGap g l) | none => l

/-- Inserts a range by its first number. -/
def insRange (r : Nat × Nat) : List (Nat × Nat) → List (Nat × Nat)
  | [] => [r]
  | x :: xs => if r.1 ≤ x.1 then r :: x :: xs else x :: insRange r xs

/-- At most 26 ascending ranges, and whether they were coarsened. -/
def tidyRanges (l : List (Nat × Nat)) : List (Nat × Nat) × Bool :=
  let m := mergeTouching (l.foldl (fun acc r => insRange r acc) [])
  (coarsen m.length m, decide (26 < m.length))

/-- The ranges without some ascending numbers. -/
def removePoint (l : List (Nat × Nat)) (x : Nat) : List (Nat × Nat) :=
  l.flatMap fun r => if r.1 ≤ x ∧ x < r.1 + r.2 then [(r.1, x - r.1), (x + 1, r.1 + r.2 - (x + 1))].filter fun p => p.2 != 0 else [r]

/-- The LIN ranges whose tasks are bound. -/
def Launch.listed (l : Launch) : List (Nat × Nat) :=
  match l.resume with | some r => r | none => if l.total = 0 then [] else [(0, l.total)]

def Launch.listedCount (l : Launch) : Nat := l.listed.foldl (fun a r => a + r.2) 0
/-- The LIN ranges of the tasks not retired. -/
def Launch.unretired (l : Launch) : List (Nat × Nat) := l.retired.foldl removePoint l.listed
def Launch.rejected (l : Launch) : Bool := l.status != 0

/-- STATUS. -/
def Launch.finalStatus (l : Launch) : Nat :=
  if l.rejected then l.status else if l.reset then 0x31 else if l.severed then 0x30 else if l.killed then 0x20 else if l.faulted then 0x21 else 0

/-- The 32 bytes of a die. -/
def Launch.dieBytes (l : Launch) (d : Nat) : List Byte :=
  let mine := l.homes.filter fun p => hartCluster p.2 / 16 == d
  let ret := mine.filter fun p => l.retired.contains p.1
  let first := (mine.filter fun p => !l.retired.contains p.1).foldl (fun a p => min a p.1) (2 ^ 64 - 1)
  leBytes 8 mine.length ++ leBytes 8 ret.length ++ leBytes 8 first ++ leBytes 8 0

def rangeBytes (l : List (Nat × Nat)) : List Byte := (l.flatMap (fun (r : Nat × Nat) => leBytes 8 r.1 ++ leBytes 8 r.2) ++ List.replicate 416 0).take 416

/-- The 1,024 bytes. -/
def Launch.record (l : Launch) (now : Nat) : List Byte :=
  let st := l.finalStatus
  let ranged := !l.rejected && (st == 0x31 || st == 0x30 || st == 0x20)
  let wr := if ranged then tidyRanges (l.ranges.map fun r => (r.1.toNat, r.2)) else ([], false)
  let ln := if ranged then tidyRanges l.unretired else ([], false)
  let flags := b2n wr.2 + b2n ln.2 * 2 + b2n (decide (0 < l.drop)) * 4
  let total := if l.rejected then 0 else l.total
  let retired := if l.rejected then 0 else l.total - l.listedCount + l.retired.length
  (leBytes 4 st ++ leBytes 1 (if st = 0x30 then 48 else 0) ++ leBytes 1 l.kind ++ leBytes 1 flags ++ leBytes 1 wr.1.length ++ leBytes 1 ln.1.length ++
    leBytes 3 0 ++ leBytes 4 l.nrec ++ leBytes 8 l.hdr.toNat ++ leBytes 8 total ++ leBytes 8 retired ++ leBytes 8 l.taccept ++ leBytes 8 now ++
    leBytes 8 0 ++ (List.range 4).flatMap l.dieBytes ++ rangeBytes wr.1 ++ rangeBytes ln.1 ++ List.replicate 1024 0).take 1024

/-- The timeline write: the unsigned maximum, or a TYPE 17 entry; a poisoned word skips it too, with cause 30 (log 69). `none` while its path waits. -/
def State.raiseTimeline (s : State) (l : Launch) : Option State :=
  let skip (st : State) (c : Nat) : State :=
    st.logEntry l.part
      { type := 17, sev := 3, ovr := false, cls := 0, idx := 0, addr := l.tladdr, qid := l.qid, data := leBytes 8 0 ++ leBytes 8 c }
  if l.tladdr.toNat % 8 ≠ 0 then some (skip s 6)
  else
    match s.amoMax (s.viaQueue l.part l.qid) l.tladdr true l.tltarget with
    | .ok _ s1 => some s1
    | .trap c _ s1 => some (skip s1 c)
    | .stall _ _ => none

/-- Is a launch over: rejected, ended by a kill, a reset or a failure, or with every listed task ended? -/
def State.launchOver (s : State) (l : Launch) : Bool :=
  let bound := s.harts.any (fun h => match (s.getSeq h).task with | some t => t.launch == l.id | none => false) ||
    s.saved.any fun x => match x.seq.task with | some t => t.launch == l.id | none => false
  l.rejected || (!bound && (l.killed || l.severed || l.reset || decide (l.listedCount ≤ l.retired.length + l.lost.length)))

/-- Completes a launch: the record, then the timeline, once no write of the front end for its queue waits (R21). -/
def State.completeLaunch (s : State) (l : Launch) : State :=
  if s.frontBusy l.part l.qid then s
  else
    let s1 := if l.cplrec = 0 ∨ l.wrote then s else s.launchWrite l 1 l.cplrec (l.record s.time)
    let s2 := s1.modLaunch l.id fun x => { x with wrote := true }
    if s2.frontBusy l.part l.qid then s2
    else
      match s2.raiseTimeline l with
      | none => s2
      | some s3 => { s3.modLaunch l.id fun x => { x with done := true } with barriers := s3.barriers.filter fun b => b.launch != l.id }

end Sys2Proof.Machine
end

