-- ==== Sys2Proof/Machine/Packets.lean ====
section
/-! DEFINITION. The packets of the queue processor (R33 to R36), its controls (R37, R40, R41), posting from a task (R107 to R109) and the
hub copy channel (R34). -/

namespace Sys2Proof.Machine

/-- A packet that waits is in hand. -/
def State.inHand (p : Packet) (r : Res Unit) : Res Unit :=
  match r with
  | .stall w s => .stall w (s.modQueue p.q.part p.q.qid fun q => { q with hand := if q.hand = .none then .begun else q.hand })
  | r => r

/-- Acts on the packet of some types at a queue's head; another packet is left as it is. An action that stalls goes on at a later event. -/
def State.onPacket (s : State) (part qid : Nat) (types : List Nat) (f : State → Packet → Res Unit) : Host.Outcome State Fault Refusal :=
  finishEvent ((s.takePacket part qid).bind fun p s1 =>
    match p with
    | some p => if types.contains p.type then State.inHand p (f s1 p) else .ok () s1
    | none => .ok () s1)

def execNop (part qid : Nat) (s : State) : Host.Outcome State Fault Refusal := s.onPacket part qid [1] fun st p => .ok () (st.endPacket p.q)

/-- An invalid packet puts its queue in error as it is taken. -/
def execInvalidPacket (part qid : Nat) (s : State) : Host.Outcome State Fault Refusal := s.onPacket part qid [] fun st _ => .ok () st

/-- A packet whose address traps ends in code 0x44; what else an access does stands. -/
def orFault (p : Packet) (r : Res Unit) : Res Unit :=
  match r with
  | .trap _ v s => .ok () (s.packetFault p [v])
  | r => r

/-! ## The resident set (R39, R41) -/

/-- Does one queue go before another in the default policy: EFFPRIO, then the longer wait, which a resident queue has not (log 46)? -/
def queueBefore (a b : Queue) : Bool :=
  decide (b.effprio < a.effprio ∨ (a.effprio = b.effprio ∧ a.thread = none ∧ (b.thread.isSome ∨ a.waiting < b.waiting)))

def insQueue (q : Queue) : List Queue → List Queue
  | [] => [q]
  | x :: xs => if queueBefore q x then q :: x :: xs else x :: insQueue q xs

/-- A queue as the runtime knows it: the configuration and EFFPRIO of one that is not resident stand in its QCB. -/
def State.asSeen (s : State) (q : Queue) : Queue :=
  if q.thread.isSome then q
  else
    match (s.qpRead q (q.va 0) 0x58).value? with
    | some b =>
      if fld b 0 4 % 2 = 0 ∧ fld b 4 2 = q.qid ∧ cfgBad (b.take 64) = none then
        let c := cfgOf (b.take 64)
        { q with cfg := some c, effprio := let e := min 7 (fld b 0x55 1); if q.cfg.isNone then max e c.prio else e, qstate := if q.bad then q.qstate else QSt.ofCode (fld b 0x54 1) }
      else q
    | none => q

/-- The resident set of the default policy (R41): the best 32 of the enabled, unblocked queues, then the others. -/
def State.policySet (s : State) : List Queue :=
  let en := (s.qp.queues.map s.asSeen).filter Queue.enabled
  let order (l : List Queue) : List Queue := l.foldl (fun acc q => insQueue q acc) []
  (order (en.filter fun q => q.qstate != .blocked) ++ order (en.filter fun q => q.qstate == .blocked)).take 32

/-- The resident set becomes that of the policy; a granted LAUNCH, and a packet in hand, finishes on its thread first. -/
def State.applyPolicy (s : State) : State :=
  let want := s.policySet.map fun q => (q.part, q.qid)
  let s1 := s.qp.queues.foldl (fun st q => if q.thread.isSome ∧ !q.granted ∧ q.hand = .none ∧ !want.contains (q.part, q.qid) then st.swapOut q else st) s
  want.foldl (fun st k =>
    match st.queue? k.1 k.2, st.freeThread with
    | some q, some t => if q.thread.isNone then st.swapIn q t else st
    | _, _ => st) s1

/-! ## Waits (R36) -/

/-- Is the condition of a wait met by a value? -/
def Packet.met (p : Packet) (v : Nat) : Bool :=
  let x := (p.w 0x10).toNat
  if p.type = 4 then decide (x ≤ v)
  else
    let m := v &&& (p.w 0x18).toNat
    match fld p.b 0x20 4 with
    | 0 => m == x
    | 1 => m != x
    | 2 => decide (x ≤ m)
    | _ => decide (m < x)

def Packet.timeout (p : Packet) : Nat := (p.w (if p.type = 4 then 0x18 else 0x28)).toNat

/-- A test of a wait: it ends, or its time is over, or the thread blocks, at which the runtime may change the resident set (R41). TIMEOUT runs from the
first test, whatever comes between (R36). -/
def State.testWait (s : State) (p : Packet) : Res Unit :=
  let a := p.w 0x08
  let me : Party := .queue p.q.part p.q.qid
  let t0 := p.q.waitFrom.getD s.time
  if a.toNat % 8 ≠ 0 then .ok () (s.packetFault p [a])
  else
    orFault p ((s.qpRead p.q a 8).bind fun b s1 =>
      let v := leNat b
      let s2 := s1.dropAsks me
      if p.met v then .ok () (s2.endPacket p.q)
      else if p.timeout ≠ 0 ∧ p.timeout ≤ s.time - t0 then
        .ok () ((s2.setQueue { p.q with waitFrom := some t0, hand := .none }).queueError p.q.part p.q.qid 0x43 p.q.rdidx p.utag [BitVec.ofNat 64 v])
      else
        let s3 := s2.setQueue { p.q with qstate := .blocked, waitFrom := some t0, hand := .none }
        .ok () (if p.q.qstate = .blocked then s3 else s3.applyPolicy))

def execWaitTl (part qid : Nat) (s : State) : Host.Outcome State Fault Refusal := s.onPacket part qid [4] State.testWait
def execWaitMem (part qid : Nat) (s : State) : Host.Outcome State Fault Refusal := s.onPacket part qid [5] State.testWait
/-- The time of a wait is over: the condition is tested once more. -/
def execWaitPacketTimeout (part qid : Nat) (s : State) : Host.Outcome State Fault Refusal := s.onPacket part qid [4, 5] State.testWait

/-! ## Writes of packets -/

/-- Before a release at .sys the writes of a party through a peer window are acknowledged (R197, R327). -/
def State.afterPeers (s : State) (party : Party) : Res Unit := if s.peerOwes party then .stall .peer s else .ok () s

/-- SIGNAL: one AMO with release, and an EVENT where EV is set. -/
def State.doSignal (s : State) (p : Packet) : Res Unit :=
  let a := p.w 0x08
  let x := (p.w 0x10).toNat
  let op (old : Nat) : Nat := match fld p.b 0x18 4 with | 0 => x | 1 => max old x | _ => (old + x) % 2 ^ 64
  if a.toNat % 8 ≠ 0 then .ok () (s.packetFault p [a])
  else
    orFault p ((s.afterPeers (.queue p.q.part p.q.qid)).bind fun _ s0 =>
     (s0.amoVa (s0.viaQueue p.q.part p.q.qid) a false op).bind fun old s1 =>
      .ok () ((if fld p.b 0x1C 4 = 1 then s1.sendEvent p.q.part 1 p.q.qid a (BitVec.ofNat 64 (op old)) else s1).endPacket p.q))

def execSignal (part qid : Nat) (s : State) : Host.Outcome State Fault Refusal := s.onPacket part qid [6] State.doSignal

/-- May a word of a MARKER be written? Through a peer window the flow must have room for two messages. -/
def State.markReady (s : State) (via : Via) (l : Loc) : Res Unit :=
  match l.t with
  | .peer p =>
    match s.peerBase via.part p with
    | none => .trap 7 l.va s
    | some _ => if s.flowRoom via.part p < 2 then .stall .peer s else .ok () s
  | .void => .trap 48 l.va s
  | _ => s.storeReady via [l]

/-- Writes a word of a MARKER with release: through a peer window as a NOTIFY with OP 0 (R327). -/
def State.markWord (s : State) (via : Via) (l : Loc) (v : Nat) : State :=
  match l.t, s.peerBase via.part (match l.t with | .peer p => p | _ => 0) with
  | .peer p, some base => s.peerSend via p false (.peerNotify via.part (s.peerFlow via.part p) p 0 0 (remote base l.pa) (BitVec.ofNat 64 v))
  | _, _ => s.writeLocs via [l] (leBytes 8 v)

def isPeer (l : Loc) : Bool := match l.t with | .peer _ => true | _ => false

/-- The two words of a MARKER, once both may be written. The flag says whether they are performed. -/
def State.markWords (s : State) (via : Via) (a : Word) (tag : Nat) : Res Bool :=
  (s.locate via a 8 .store).bind fun l0 s0 => (s0.locate via (a + 8) 8 .store).bind fun l1 s1 =>
    match l0, l1 with
    | [l], [m] =>
      (s1.markReady via l).bind fun _ s2 => (s2.markReady via m).bind fun _ s3 =>
        .ok (!isPeer l && !isPeer m) ((s3.markWord via l tag).markWord via m s.time)
    | _, _ => .trap 7 a s1

/-- MARKER: MTAG, and the time base after it. A write that waits for its rod waits with the packet, and one through a peer window is performed when it is
acknowledged (R35). -/
def State.doMarker (s : State) (p : Packet) : Res Unit :=
  let a := p.w 0x08
  let via := s.viaQueue p.q.part p.q.qid
  if a.toNat % 8 ≠ 0 then .ok () (s.packetFault p [a])
  else
    orFault p ((s.afterPeers via.party).bind fun _ s0 =>
      if p.q.hand = .sent then .ok () (s0.endPacket p.q)
      else
        (s0.markWords via a (p.w 0x10).toNat).bind fun whole s2 =>
          if whole then .ok () (s2.endPacket p.q)
          else .ok () (s2.modQueue p.q.part p.q.qid fun q => { q with hand := .sent }))

def execMarker (part qid : Nat) (s : State) : Host.Outcome State Fault Refusal := s.onPacket part qid [8] State.doMarker

/-! ## COPY (R34) -/

/-- COPY is issued to the hub copy channel. -/
def State.doCopy (s : State) (p : Packet) : Res Unit :=
  let tl := p.w 0x20
  if 2 ^ 40 < (p.w 0x18).toNat then .ok () (s.packetFault p [0, p.w 0x18])
  else if tl.toNat % 8 ≠ 0 then .ok () (s.packetFault p [tl])
  else
    let c : HubCopy :=
      { part := p.q.part, qid := p.q.qid, pkt := p.q.rdidx, utag := p.utag, src := p.w 0x08, dst := p.w 0x10, bytes := (p.w 0x18).toNat, done := 0,
        tl := tl, value := p.w 0x28, dead := false }
    .ok () ({ s with qp := { s.qp with hub := s.qp.hub ++ [c] } }.endPacket p.q)

def execCopy (part qid : Nat) (s : State) : Host.Outcome State Fault Refusal := s.onPacket part qid [7] State.doCopy

/-- Moves the bytes of a copy from `done` on, a destination sector at a time; poison goes with them. -/
def hubRun (via : Via) (c : HubCopy) : Nat → Nat → State → CopyRun
  | 0, done, s => .waits done s
  | f + 1, done, s =>
    if c.bytes ≤ done then .finished s
    else
      let d := c.dst + BitVec.ofNat 64 done
      let k := min (c.bytes - done) (32 - d.toNat % 32)
      let r := (s.locate via (c.src + BitVec.ofNat 64 done) k .load).bind fun src s1 =>
        (s1.rawReads via src).bind fun b s2 =>
          (s2.locate via d k .store).bind fun dst s3 =>
            (s3.storeLocs via dst b.1).bind fun _ s4 => .ok () ((if b.2 then s4.poisonLocs dst else s4).dropAsks via.party)
      match r with
      | .ok _ s1 => hubRun via c f (done + k) s1
      | .trap e v s1 => .failed e v s1
      | .stall _ s1 => .waits done s1

/-- Copy idx of the hub goes on as c, or is over (none); its rods and answers go. -/
def State.setHub (s : State) (idx : Nat) (c : Option HubCopy) : State :=
  let hub := match c with | some c => s.qp.hub.set idx c | none => s.qp.hub.eraseIdx idx
  (({ s with qp := { s.qp with hub := hub } }).releaseRods .hub).dropAsks .hub

/-- The timeline of a hub copy, a release (R197), which is then over. A fault on it is an error of the queue, and the copy stays as one whose timeline is not written (R34,
R35). -/
def State.hubTimeline (s : State) (idx : Nat) (c : HubCopy) : Res Unit :=
  let last : HubCopy := { c with bytes := c.done }
  match (s.afterPeers .hub).bind fun _ s0 => s0.amoMax (s0.viaHub c.part false) c.tl false c.value.toNat with
  | .ok _ s1 => .ok () (s1.setHub idx none)
  | .trap _ v s1 => .ok () ((s1.queueError c.part c.qid 0x44 c.pkt c.utag [v]).setHub idx (some { last with dead := true }))
  | .stall _ s1 => .ok () (s1.setHub idx (some last))

/-- The hub copy channel performs a copy, or ends it at a fault; one that waits keeps its place. -/
def execHubCopyDone (idx : Nat) (s : State) : Host.Outcome State Fault Refusal :=
  match s.qp.hub[idx]? with
  | none => .next s
  | some c =>
    if c.dead then .next s
    else
      match hubRun (s.viaHub c.part false) c (c.bytes + 1 - c.done) c.done s with
      | .finished s1 => finishEvent (s1.hubTimeline idx { c with done := c.bytes })
      | .failed _ v s1 => finishEvent ((s1.queueError c.part c.qid 0x44 c.pkt c.utag [v]).hubTimeline idx c)
      | .waits n s1 => .next { s1 with qp := { s1.qp with hub := s1.qp.hub.set idx { c with done := n } } }

/-! ## Launches (R15, R22, R35, R40) -/

/-- May a launch's task be bound on a sequencer as it stands: free, on a core with room for the task's scratch (R46)? -/
def State.seqRoom (s : State) (h scr : Nat) : Bool := s.seqFree h && ((s.core (coreOf h)).lowestRoom (up128 scr)).isSome

/-- The sequencers of a partition on a die that are free for a task (R45, R46). -/
def State.freeOnDie (s : State) (x : Part) (scr d : Nat) : Nat :=
  ((List.range 16).filter fun c => x.clusters.getLsbD (16 * d + c)).foldl (fun n c =>
    n + ((List.range 64).filter fun i => s.seqRoom (64 * (16 * d + c) + i) scr).length) 0

/-- The bytes of scratch that a task of a pipeline's first stage takes. -/
def pipeScratch (b : List Byte) : Nat :=
  ((List.range (min 16 (fld b 5 1))).filter fun c => chanCons (pChan b c) == 0).foldl
    (fun n c => n + up128 (chanAllow (pChan b c) * chanSlot (pChan b c) * 64)) (128 * (fld (pStage b 0) 12 2 + fld (pStage b 0) 14 2))

/-- The partition's die with the most free sequencers (R45). -/
def State.bestDie (s : State) (x : Part) (scr : Nat) : Nat :=
  let dies := (List.range 4).filter fun d => (List.range 16).any fun c => x.clusters.getLsbD (16 * d + c)
  match dies with
  | [] => 0
  | d :: ds => ds.foldl (fun b e => if s.freeOnDie x scr b < s.freeOnDie x scr e then e else b) d

/-- The most cores that a partition holds, or that it holds on one die. -/
def coresOf (x : Part) (span : Bool) : Nat :=
  let on (d : Nat) : Nat := 16 * ((List.range 16).filter fun c => x.clusters.getLsbD (16 * d + c)).length
  if span then on 0 + on 1 + on 2 + on 3 else max (max (on 0) (on 1)) (max (on 2) (on 3))

/-- The launch record of a header, by the code the front end found. -/
def newLaunch (s : State) (p : Packet) (b : List Byte) (kind code : Nat) (kernels : List (Nat × Word)) (total : Nat)
    (resume : Option (List (Nat × Nat))) (die : Option Nat) : Launch :=
  { id := s.launches.length, part := p.q.part, qid := p.q.qid, pkt := p.q.rdidx, utag := p.utag, kind := kind, eff := p.q.grantEff, hdr := p.w 0x08, header := b, kernels := kernels,
    taccept := s.time, total := total, resume := resume, die := die, lastCluster := none, cursor := 0, homes := [], retired := [], lost := [],
    wgLeft := [], status := code, faulted := false, killed := false, severed := false, reset := false, ranges := [], nrec := 0, drop := 0,
    wrote := false, done := false }

/-- A header is accepted, or rejected with its code: HCODE in the error area, the completion, and code 0x47 on the queue. -/
def State.answerHeader (s : State) (p : Packet) (l : Launch) : State :=
  let s1 := { s with launches := s.launches ++ [l] }
  if l.status = 0 then s1.endPacket p.q
  else
    let s2 := if l.errrec = 0 then s1 else s1.errHeader l l.status
    ((s2.completeLaunch l).endPacket p.q).queueError p.q.part p.q.qid 0x47 p.q.rdidx p.utag [BitVec.ofNat 64 l.status, l.hdr]

/-- The front end reads a grid header's kernel record and resume list. -/
def State.acceptGrid (s0 : State) (p : Packet) (b : List Byte) : Res Unit :=
  let via := s0.viaQueue p.q.part p.q.qid
  (s0.kernel via p.q.part (fldW b 0x48)).bind fun k s1 => (s1.resumeList via b).bind fun r s =>
    let code := gridCode b (p.w 0x08) k r.2
    let die := match s.part p.q.part with | some x => if fld b 2 2 / 2 % 2 = 1 then none else some (s.bestDie x (fld b 0x8C 4 + fld b 0x94 4)) | none => none
    .ok () (s.answerHeader p (newLaunch s p b 1 code (match k with | some x => [(x.obj, x.entry)] | none => []) (gridTotal b) r.1 die))

/-- The front end reads the kernel records of a pipeline header. -/
def State.acceptPipe (s0 : State) (p : Packet) (b : List Byte) : Res Unit :=
  let n := min 8 (fld b 4 1)
  (s0.kernelsAt (s0.viaQueue p.q.part p.q.qid) p.q.part ((List.range n).map fun i => fldW (pStage b i) 0)).bind fun ks s =>
    let span := fld b 2 2 / 2 % 2 == 1
    let room := match s.part p.q.part with | some x => coresOf x span | none => 0
    let code := pipeCode b (p.w 0x08) ks room
    let die := match s.part p.q.part with | some x => if span then none else some (s.bestDie x (pipeScratch b)) | none => none
    .ok () (s.answerHeader p (newLaunch s p b 2 code (ks.filterMap fun k => k.map fun x => (x.obj, x.entry))
      ((List.range n).foldl (fun a i => a + fld (pStage b i) 8 2) 0) none die))

/-- A granted LAUNCH packet: its header is read whole. A misaligned HDR is the packet's error, before any code of R22 (log 69). -/
def State.doLaunch (s : State) (accept : State → Packet → List Byte → Res Unit) (p : Packet) : Res Unit :=
  let a := p.w 0x08
  if a.toNat % 8 ≠ 0 then .ok () (s.packetFault p [a])
  else if !p.q.granted then .ok () s
  else orFault p ((s.qpRead p.q a 256).bind fun b s1 => accept s1 p b)

def execLaunchGrid (part qid : Nat) (s : State) : Host.Outcome State Fault Refusal := s.onPacket part qid [2] fun st p => st.doLaunch State.acceptGrid p
def execLaunchPipe (part qid : Nat) (s : State) : Host.Outcome State Fault Refusal := s.onPacket part qid [3] fun st p => st.doLaunch State.acceptPipe p

/-! ## The arbiter and the quantum (R40, R41) -/

/-- Does a queue hold a LAUNCH packet ready to be accepted? -/
def State.launchReady (s : State) (q : Queue) : Bool :=
  match s.takePacket q.part q.qid with
  | .ok (some p) _ => p.type == 2 || p.type == 3
  | _ => false

/-- Among ready threads of a level, the first after the slot last granted; the lowest where none has been (log 68). -/
def afterSlot (last : Option Nat) (qs : List Queue) : Option Queue :=
  let key (q : Queue) : Nat := match last with | some l => (q.thread.getD 0 + 32 - (l + 1) % 32) % 32 | none => q.thread.getD 0
  match qs with
  | [] => none
  | q :: rest => some (rest.foldl (fun b x => if key x < key b then x else b) q)

/-- The arbiter grants one ready launch. -/
def execLaunchGrant (s : State) : Host.Outcome State Fault Refusal :=
  .next (
    let ready := s.qp.queues.filter fun q => !q.granted && s.launchReady q
    let top := ready.foldl (fun n q => max n q.effprio) 0
    match afterSlot (aget s.qp.rr top) (ready.filter fun q => q.effprio == top) with
    | none => s
    | some q =>
      let prio := (q.cfg.map (·.prio)).getD 0
      let s1 := s.setQueue { q with granted := true, grantEff := q.effprio, effprio := prio, age := 0, lastGrant := s.time }
      { s1 with qp := { s1.qp with rr := aput s1.qp.rr top (q.thread.getD 0) } })

/-- The aging of a queue at the end of a quantum. -/
def State.ageQueue (s : State) (q : Queue) : State :=
  if q.thread.isSome ∧ !q.granted ∧ s.launchReady q then
    if q.age + 1 = 4 then s.setQueue { q with age := 0, effprio := min 7 (q.effprio + 1) } else s.setQueue { q with age := q.age + 1 }
  else s

/-- The shortest QUANTUM among resident queues, in ns; none where no queue is resident. -/
def State.quantum (s : State) : Option Nat :=
  (s.qp.queues.filter fun q => q.thread.isSome).foldl (fun m q =>
    match q.cfg, m with
    | some c, some x => some (min x (1000 * c.quantum))
    | some c, none => some (1000 * c.quantum)
    | none, m => m) none

/-- Is a quantum boundary reached? -/
def State.atBoundary (s : State) : Bool := match s.quantum with | some n => decide (s.qp.qstart + n ≤ s.time) | none => true

/-- A quantum ends: aging, then the resident set changes. -/
def execQuantumEnd (s : State) : Host.Outcome State Fault Refusal :=
  .next (
    if s.atBoundary then
      let s1 := s.qp.queues.foldl (fun st q => st.ageQueue q) s
      ({ s1 with qp := { s1.qp with qstart := s.time } }).applyPolicy
    else s)

/-- The configuration of a queue is read: when SEQ of a resident queue has a new even value, or at swap-in to a free thread, at the end of
a quantum (R41). -/
def execQcbConfigRead (part qid : Nat) (s : State) : Host.Outcome State Fault Refusal :=
  .next (
    match s.queue? part qid with
    | none => s
    | some q =>
      if q.thread.isSome then s.readConfig q false
      else
        match s.freeThread with
        | some t => if s.atBoundary then s.swapIn q t else s
        | none => s)

/-- A held packet may proceed (R35). -/
def execBarrierRelease (part qid : Nat) (s : State) : Host.Outcome State Fault Refusal :=
  .next (
    match s.queue? part qid with
    | some q => if q.qstate = .awaiting ∧ s.earlierDone part qid then s.setQueue { q with qstate := .ready } else s
    | none => s)

/-! ## CTRL (R37) -/

/-- The thread tests CTRL before it takes a packet, and in QSTATE 4 or 5. -/
def State.onCtrl (s : State) (part qid bit : Nat) : Host.Outcome State Fault Refusal :=
  .next (
    match s.queue? part qid with
    | none => s
    | some q => if q.thread.isNone ∨ q.taken then s else s.testCtrl q (· == bit))

def execKillreq (part qid : Nat) (s : State) : Host.Outcome State Fault Refusal := s.onCtrl part qid 1
def execStopreq (part qid : Nat) (s : State) : Host.Outcome State Fault Refusal := s.onCtrl part qid 0
def execResumereq (part qid : Nat) (s : State) : Host.Outcome State Fault Refusal := s.onCtrl part qid 2

/-! ## The watchdog (R31) -/

/-- A valid queue whose SEQ is odd gets bytes 0x04 to 0x3F from its shadow, and SEQ + 1. -/
def State.repairQcb (s : State) (q : Queue) : State :=
  match s.qpRead q (q.va 0) 4, s.qpRead q (q.va 0x84) 60 with
  | .ok b _, .ok sh _ =>
    if leNat b % 2 = 1 then
      ((s.frontWrite q.part q.qid .record (q.va 4) sh).1.frontWrite q.part q.qid .record (q.va 0) (leBytes 4 (leNat b + 1))).1
    else s
  | _, _ => s

/-- Runtime code on a supervisor hart or a QP thread is halted and starts again at its entry; a hart in M mode runs root. -/
def State.restartRuntime (s : State) (h : Nat) : State :=
  s.modSeq h fun q =>
    if h < 4096 ∨ q.mode = .m then q
    else { q with pc := Config.runtimeEntry, mode := .s, run := .running, stall := none, since := none, loops := [], atEdge := false, resv := none }

/-- After WDT without a keep-alive root halts the runtime, repairs the QCBs and restarts the runtime. -/
def execRuntimeWatchdog (s : State) : Host.Outcome State Fault Refusal :=
  .next (
    if s.time < s.dev.alive + Config.wdt then s
    else
      let s1 := s.qp.queues.foldl (fun st q => st.repairQcb q) s
      let s2 := s1.harts.foldl (fun st h => st.restartRuntime h) s1
      { s2 with dev := { s2.dev with alive := s.time, cause := 2 } })

def execRuntimeKeepAlive (s : State) : Host.Outcome State Fault Refusal := .next { s with dev := { s.dev with alive := s.time } }

/-! ## Posting from a task (R107 to R109) -/

/-- Slot k of a queue is written and published. -/
def State.publish (s : State) (q : Queue) (c : QCfg) (k : Nat) (word0 : Nat) (body : List Byte) : State :=
  let room := 2 ^ c.ringLog2
  let a := BitVec.ofNat 64 (c.ringBase + 64 * (k % room))
  let phase := 1 - k / room % 2
  let why : FrontWhy := .slot k (word0 / 2 ^ 32)
  match s.frontWrite q.part q.qid why (a + 8) ((body ++ List.replicate 56 0).take 56) with
  | (s1, none) =>
    match s1.frontWrite q.part q.qid why a (leBytes 8 (word0 + 256 * phase)) with
    | (s2, none) => s2
    | (s2, some _) => s2.queueError q.part q.qid 0x44 k (word0 / 2 ^ 32) [a]
  | (s1, some _) => s1.queueError q.part q.qid 0x44 k (word0 / 2 ^ 32) [a + 8]

/-- A post of the running hart: the status or the index (R108). -/
def State.post (s : State) (qid : Nat) (word0 : Nat) (body : List Byte) : Res Word :=
  let part := s.partOf s.hart
  match s.queue? part qid with
  | none => .ok (minus 1) s
  | some q =>
    match q.cfg with
    | none => .ok (minus 1) s
    | some c =>
      match s.qpRead q (q.va 0x40) 8 with
      | .ok b s1 =>
        let wr := leNat b
        if 2 ^ c.ringLog2 ≤ (wr + 2 ^ 64 - q.rdidx % 2 ^ 64) % 2 ^ 64 then .ok (minus 2) s1
        else
          match s1.amoVa (s1.viaQueue part qid) (q.va 0x40) false (fun w => (w + 1) % 2 ^ 64) with
          | .ok _ s2 =>
            let s3 := s2.publish q c wr word0 body
            .ok (BitVec.ofNat 64 wr) (if c.devpost then s3 else s3.modQueue part qid fun q1 => { q1 with postErr := q1.postErr ++ [(wr, s.hart)] })
          | .trap _ _ s2 => .ok (minus 1) (s2.queueBad q)
          | .stall w s2 => .stall w s2
      | .trap _ _ s1 => .ok (minus 1) (s1.queueBad q)
      | .stall w s1 => .stall w s1

def execLaunch (rd rs1 rs2 : Reg) (s : State) : Host.Outcome State Fault Refusal :=
  finish (
    let c := s.x rs2
    if getBits c 12 4 ≠ 0 ∨ getBits c 18 14 ≠ 0 then .ok () (s.setX rd (minus 3))
    else
      s.releaseSys.bind fun _ s1 =>
        (s1.post (getBits c 0 12) (2 + getBits c 17 1 + 512 * getBits c 16 1 + getBits c 32 32 * 2 ^ 32) (leBytes 8 (s.x rs1).toNat)).bind
          fun w s2 => .ok () (s2.setX rd w))

def execQsignal (rd rs1 rs2 : Reg) (s : State) : Host.Outcome State Fault Refusal :=
  finish (
    let c := s.x rs2
    if getBits c 12 4 ≠ 0 ∨ getBits c 19 13 ≠ 0 ∨ getBits c 16 2 = 3 then .ok () (s.setX rd (minus 3))
    else
      s.releaseSys.bind fun _ s1 =>
        (s1.post (getBits c 0 12) 6
          (leBytes 8 (s.x rs1).toNat ++ leBytes 8 (getBits c 32 32) ++ leBytes 4 (getBits c 16 2) ++ leBytes 4 (getBits c 18 1))).bind
          fun w s2 => .ok () (s2.setX rd w))

/-- The queue processor answers the post that a hart has reached; the running hart stays the running one. -/
def execQpPost (hart : Nat) (s : State) : Host.Outcome State Fault Refusal :=
  let back (r : Host.Outcome State Fault Refusal) : Host.Outcome State Fault Refusal :=
    match r with | .next t => .next (t.switch s.hart) | r => r
  if !(s.getSeq hart).canRun hart then .next s
  else
    match (s.switch hart).fetch with
    | .ok (.launch rd rs1 rs2) s1 => if s1.mustWait (.launch rd rs1 rs2) then .next s else back (execLaunch rd rs1 rs2 s1)
    | .ok (.qsignal rd rs1 rs2) s1 => if s1.mustWait (.qsignal rd rs1 rs2) then .next s else back (execQsignal rd rs1 rs2 s1)
    | _ => .next s

end Sys2Proof.Machine
end

