-- ==== Sys2Proof/Machine/Bind.lean ====
section
/-! DEFINITION. Binding (R18, R25, R26, R45 to R47, R52) and the completion of launches (R21). -/

namespace Sys2Proof.Machine

/-! ## The work of a grid (R18) -/

/-- Level at walk position j comes in the part of the walk that numbers workgroups. -/
def outerAt (b : List Byte) (j : Nat) : Bool := decide (fld b 5 1 < gWalk b j)

/-- The walk position of a level. -/
def walkPos (b : List Byte) (l : Nat) : Nat := ((List.range 6).find? fun j => gWalk b j == l).getD 0

/-- Index at a level of task `w` of workgroup `o`; workgroups are numbered by their lowest LIN. -/
def gridIndex (b : List Byte) (o w l : Nat) : Nat :=
  if fld b 4 1 ≤ l then 0
  else if l ≤ fld b 5 1 then w / prodTo (gN b) l % gN b l
  else o / prodTo (fun j => if outerAt b j then gN b (gWalk b j) else 1) (walkPos b l) % gN b l

/-- The weight of walk position j in LIN. -/
def linWeight (b : List Byte) (j : Nat) : Nat := prodTo (fun k => gN b (gWalk b k)) j

/-- LIN and WID of indices. -/
def linOf (b : List Byte) (i : Nat → Nat) : Nat :=
  (List.range (fld b 4 1)).foldl (fun a j => a + i (gWalk b j) * linWeight b j) 0
def widOf (b : List Byte) (i : Nat → Nat) : Nat :=
  ((List.range 6).foldl (fun (p : Nat × Nat) l => (p.1 + i l * 2 ^ p.2, p.2 + gW b l)) (0, 0)).1

/-- Workgroups of a grid. -/
def gridGroups (b : List Byte) : Nat := gridTotal b / gridWg b

/-- What binding needs of a task. -/
structure TaskSpec where
  lin    : Nat
  wglin  : Nat
  wid    : Word
  args   : List Word
  stage  : Option (Nat × Nat)
deriving DecidableEq, Repr

/-- Is a LIN listed? -/
def Launch.lists (l : Launch) (lin : Nat) : Bool := l.listed.any fun r => decide (r.1 ≤ lin ∧ lin < r.1 + r.2)

/-- The listed tasks of workgroup o, ascending WGLIN. -/
def Launch.group (l : Launch) (o : Nat) : List TaskSpec :=
  let b := l.header
  ((List.range (gridWg b)).map fun w =>
    let i := gridIndex b o w
    { lin := linOf b i, wglin := w, wid := BitVec.ofNat 64 (widOf b i), stage := none,
      args := (List.range 6).map fun l => BitVec.ofNat 64 (i l) }).filter fun t => l.lists t.lin

/-! ## What a header reserves -/

/-- ARGS, HTBASE and the workgroup scratch. -/
def Launch.argBlock (l : Launch) : Word := fldW l.header (if l.kind = 2 then 0x08 else 0x58)
def Launch.htbase (l : Launch) : Word := fldW l.header (if l.kind = 2 then 0xF0 else 0x50)
def Launch.wgscr (l : Launch) : Nat := if l.kind = 2 then 0 else fld l.header 0x90 4
/-- Task scratch, stack, lane weight, handler mode and kernel of a task. -/
def Launch.tscr (l : Launch) (t : TaskSpec) : Nat := match t.stage with | some (st, _) => 128 * fld (pStage l.header st) 12 2 | none => fld l.header 0x8C 4
def Launch.stack (l : Launch) (t : TaskSpec) : Nat := match t.stage with | some (st, _) => 128 * fld (pStage l.header st) 14 2 | none => fld l.header 0x94 4
def Launch.weightOf (l : Launch) (t : TaskSpec) : Nat := match t.stage with | some (st, _) => fld (pStage l.header st) 11 1 | none => fld l.header 6 1
def Launch.hmOf (l : Launch) (t : TaskSpec) : Bool := match t.stage with | some (st, _) => l.isHandlerStage st | none => l.hmFlag
def Launch.kernelOf (l : Launch) (t : TaskSpec) : Nat × Word := l.kernels.getD (match t.stage with | some (st, _) => st | none => 0) (0, 0)

/-- The channels that a task consumes, with the bytes of their buffers in whole units (R23, R52). -/
def Launch.bufsOf (l : Launch) (t : TaskSpec) : List (Nat × Nat) :=
  match t.stage with
  | some (st, _) => ((List.range l.nchan).filter fun c => chanCons (l.chan c) == st).map fun c => (c, up128 (chanAllow (l.chan c) * chanSlot (l.chan c) * 64))
  | none => []

/-! ## Binding one task (R26, R52) -/

/-- Scratch that another partition used last is zeroed. -/
def State.claimCore (s : State) (core part : Nat) : State :=
  if (s.core core).user = part then s
  else
    let lo := Config.scratchBase + core * 2 ^ 18
    ({ s with mem := s.mem.filter fun c => !(decide (lo ≤ c.1 ∧ c.1 < lo + Config.scratchBytes)) }.clearPoison lo Config.scratchBytes).modCore core fun k =>
      { k with user := part }

/-- The channel buffers of a task, from an address up. -/
def chanBufs (l : Launch) (t : TaskSpec) (hart : Nat) : Nat → List (Nat × Nat) → List ChanBuf
  | _, [] => []
  | base, (c, n) :: rest =>
    { launch := l.id, chan := c, lin := t.lin, hart := hart, base := base, slots := chanAllow (l.chan c), size := 64 * chanSlot (l.chan c),
      filled := [], handed := [], closed := false, told := false } :: chanBufs l t hart (base + n) rest

/-- The sequencer of a bound task: registers, the control registers at R78's Reset column, the translation of its partition (log 20). -/
def State.taskSeq (s : State) (h : Nat) (l : Launch) (t : TaskSpec) (task : Task) : Seq :=
  let q := (s.getSeq h).freed
  let ctl : Ctl :=
    { Ctl.reset with dbgSeq := q.ctl.dbgSeq, htbase := l.htbase &&& ~~~7, wid := t.wid, cgen := ((s.part l.part).map (·.gen)).getD 1 }
  let q1 : Seq :=
    { q with
      x := Vector.replicate 32 0, f := Vector.replicate 32 0, mode := .u, run := if l.kind = 2 then .held else .running, task := some task,
      priv := s.privOf l.part q.priv, vec := { q.vec with weight := l.weightOf t }, ctl := ctl, pc := (l.kernelOf t).2 }
  let regs := (10, l.argBlock) :: (t.args.zipIdx.map fun p => (11 + p.2, p.1)) ++
    [(17, BitVec.ofNat 64 t.wglin), (2, task.top), (4, task.tp)]
  regs.foldl (fun q p => q.wx (BitVec.ofNat 5 p.1) p.2) q1

/-- Binds a task on a hart, with its scratch in whole units; none where the core has no room. The core wakes (R223) and drops its untracked copies
(R143). R52 gives only the core of a pipeline task's channel buffers: the model puts them directly above the stack, in the task's own allocation
(log 73). -/
def State.bindTask (s : State) (l : Launch) (wg : Nat) (h : Nat) (t : TaskSpec) : Option State :=
  let core := coreOf h
  let bufs := l.bufsOf t
  let main := l.tscr t + l.stack t
  let len := up128 (main + bufs.foldl (fun a b => a + b.2) 0)
  match (s.core core).lowestRoom len with
  | none => none
  | some off =>
    let base := Config.scratchBase + core * 2 ^ 18 + off
    let k := l.kernelOf t
    let task : Task :=
      { launch := l.id, lin := t.lin, wg := wg, wglin := t.wglin, obj := k.1, part := l.part, hm := l.hmOf t, pipe := t.stage,
        scrBase := BitVec.ofNat 64 base, scrLen := len, top := BitVec.ofNat 64 (base + main), tp := if l.tscr t = 0 then 0 else BitVec.ofNat 64 base,
        gp := 0 }
    let s1 := ((s.claimCore core l.part).copyDrop core fun _ => true).modCore core fun c =>
      { c with retain := false, allocs := c.allocs ++ [{ launch := l.id, wg := wg, lin := some t.lin, off := off, len := len }],
               chans := c.chans ++ chanBufs l t h (base + main) bufs }
    let s2 := (s1.setSeq h (s1.taskSeq h l t task)).safePoint h
    let p := s2.functionEntry h k.2
    some ((p.1.modSeq h fun q => { q.anyForm with pc := p.2 }).modLaunch l.id fun x => { x with homes := aput x.homes t.lin h })

/-! ## Workgroups (R45, R46) -/

/-- The sequencers of a cluster in the order in which they are taken. -/
def bindOrder (cluster : Nat) : List Nat := (List.range 4).flatMap fun i => (List.range 16).map fun c => 64 * cluster + 4 * c + i

/-- Does a core hold a task of a stage of a pipeline already? -/
def State.stageOn (s : State) (core launch stage : Nat) : Bool :=
  (List.range 4).any fun i =>
    match (s.getSeq (4 * core + i)).task with
    | some t => t.launch == launch && (match t.pipe with | some p => p.1 == stage | none => false)
    | none => false

/-- Binds tasks on the free sequencers of a list, in order; the harts taken come with the state. -/
def bindAll (l : Launch) (wg : Nat) : List Nat → List TaskSpec → List Nat → State → Option (State × List Nat)
  | _, [], hs, s => some (s, hs)
  | [], _ :: _, _, _ => none
  | h :: rest, t :: ts, hs, s =>
    let core := coreOf h
    let stage : Bool := match t.stage with | some (st, _) => s.stageOn core l.id st | none => false
    if s.seqFree h ∧ !s.excBreaks core l.id ∧ !stage then
      match s.bindTask l wg h t with
      | some s1 => bindAll l wg rest ts (hs ++ [h]) s1
      | none => bindAll l wg rest (t :: ts) hs s
    else bindAll l wg rest (t :: ts) hs s

/-- The workgroup's scratch, on the lowest core holding a task of it; gp is its address. -/
def State.bindWgScratch (s : State) (l : Launch) (wg : Nat) (hs : List Nat) : Option State :=
  if l.wgscr = 0 then some s
  else
    let core := coreOf (hs.foldl min (hs.headD 0))
    match (s.core core).lowestRoom l.wgscr with
    | none => none
    | some off =>
      let gp := BitVec.ofNat 64 (Config.scratchBase + core * 2 ^ 18 + off)
      let s1 := s.modCore core fun k => { k with allocs := k.allocs ++ [{ launch := l.id, wg := wg, lin := none, off := off, len := l.wgscr }] }
      some (hs.foldl (fun st h => st.modSeq h fun q => { q.wx 3 gp with task := q.task.map fun t => ({ t with gp := gp } : Task) }) s1)

/-- Binds a workgroup on a cluster in one step, on sequencers that are offered to its launch. R52 does not say where WGSCR stands in the order of
allocation: the model allocates it after the regions of all the tasks (log 73). -/
def State.bindGroup (s : State) (l : Launch) (wg : Nat) (ts : List TaskSpec) (cluster : Nat) : Option State :=
  match bindAll l wg ((bindOrder cluster).filter (s.offers l)) ts [] s with
  | none => none
  | some (s1, hs) =>
    (s1.bindWgScratch l wg hs).map fun s2 =>
      s2.modLaunch l.id fun x => { x with wgLeft := aput x.wgLeft wg ts.length, lastCluster := some cluster }

/-- The clusters where a launch may go, in the order of the search. -/
def State.clustersFor (s : State) (l : Launch) : List Nat :=
  match s.part l.part with
  | none => []
  | some x =>
    let all := (List.range 64).filter fun c => x.clusters.getLsbD c && (match l.die with | some d => c / 16 == d | none => true)
    match l.lastCluster with
    | some c => (all.filter fun k => decide (c < k)) ++ all.filter fun k => decide (k ≤ c)
    | none => all

/-- Binds a workgroup on the first cluster that takes it. -/
def State.placeGroup (s : State) (id wg : Nat) (ts : List TaskSpec) : Option State :=
  match s.launch? id with
  | none => none
  | some l => (s.clustersFor l).findSome? fun c => s.bindGroup l wg ts c

/-- May a launch bind tasks now? -/
def State.binds (s : State) (l : Launch) : Bool :=
  !(l.done || l.rejected || l.killed || l.severed || l.reset) && (s.part l.part).isSome && !s.isolatedPart l.part

/-- The next workgroup with a listed task, looking at n of them. -/
def Launch.nextGroup (l : Launch) : Nat → Nat → Nat
  | 0, o => o
  | n + 1, o => if gridGroups l.header ≤ o ∨ l.group o ≠ [] then o else l.nextGroup n (o + 1)

/-- The front end hands the next workgroup of a grid to a cluster. -/
def execWorkgroupBind (launch : Nat) (s : State) : Host.Outcome State Fault Refusal :=
  .next (
    match s.launch? launch with
    | none => s
    | some l =>
      if l.kind ≠ 1 ∨ l.os ∨ !s.binds l then s
      else
        let o := l.nextGroup 4096 l.cursor
        if gridGroups l.header ≤ o ∨ l.group o = [] then s.modLaunch launch fun x => { x with cursor := o }
        else
          match s.placeGroup launch o (l.group o) with
          | some s1 => s1.modLaunch launch fun x => { x with cursor := o + 1 }
          | none => s.modLaunch launch fun x => { x with cursor := o })

/-! ## Runs (R47) -/

/-- The lowest LIN of workgroup o, and the span from the lowest to the highest LIN of any workgroup. -/
def Launch.lowLin (l : Launch) (o : Nat) : Nat := linOf l.header (gridIndex l.header o 0)
def Launch.linSpan (l : Launch) : Nat := linOf l.header (gridIndex l.header 0 (gridWg l.header - 1))

/-- The first workgroup after the run of workgroup o; none where the run is longer than n. -/
def Launch.runEnd (l : Launch) : Nat → Nat → Option Nat
  | 0, _ => none
  | n + 1, o => if o + 1 < gridGroups l.header ∧ l.lowLin (o + 1) ≤ l.lowLin o + l.linSpan then l.runEnd n (o + 1) else some (o + 1)

/-- Binds the listed tasks of workgroups in order, all or none. -/
def placeRun (id : Nat) (l : Launch) : List Nat → State → Option State
  | [], s => some s
  | o :: os, s => if l.group o = [] then placeRun id l os s else (s.placeGroup id o (l.group o)).bind (placeRun id l os)

/-- Under OS a whole run is bound in one step. -/
def execRunBind (launch : Nat) (s : State) : Host.Outcome State Fault Refusal :=
  .next (
    match s.launch? launch with
    | none => s
    | some l =>
      if l.kind ≠ 1 ∨ !l.os ∨ !s.binds l ∨ gridGroups l.header ≤ l.cursor then s
      else
        match l.runEnd (gridGroups l.header) l.cursor with
        | none => s
        | some e =>
          match placeRun launch l ((List.range (e - l.cursor)).map fun i => l.cursor + i) s with
          | some s1 => s1.modLaunch launch fun x => { x with cursor := e }
          | none => s)

/-! ## Pipelines (R25) -/

/-- The stage and rank of a LIN. -/
def Launch.stageOf (l : Launch) (lin : Nat) : Nat × Nat :=
  ((List.range l.nstage).findSome? fun st =>
    let lo := l.pipeLin st 0
    if lo ≤ lin ∧ lin < lo + l.cores st then some (st, lin - lo) else none).getD (0, 0)

def Launch.pipeSpec (l : Launch) (lin : Nat) : TaskSpec :=
  let p := l.stageOf lin
  { lin := lin, wglin := 0, wid := BitVec.ofNat 64 (p.1 * 2 ^ 56 + p.2), stage := some p, args := [BitVec.ofNat 64 p.1, BitVec.ofNat 64 p.2] }

/-- The next stage to release after some: the lowest all of whose consumers are released. -/
def Launch.nextStage (l : Launch) (done : List Nat) : Option Nat :=
  (List.range l.nstage).find? fun i =>
    !done.contains i && (List.range l.nchan).all fun c => chanProd (l.chan c) != i || done.contains (chanCons (l.chan c))

/-- The first n stages in the order of release. -/
def Launch.releaseOrder (l : Launch) : Nat → List Nat
  | 0 => []
  | n + 1 =>
    let d := l.releaseOrder n
    match l.nextStage d with | some i => d ++ [i] | none => d

/-- The tasks of a stage begin. -/
def State.releaseStage (s : State) (l : Launch) (st : Nat) : State :=
  (List.range (l.cores st)).foldl (fun x r =>
    match x.hartOf (.task l.id (l.pipeLin st r)) with
    | some h => x.modSeq h fun q => if q.run = .held then { q with run := .running } else q
    | none => x) s

/-- Binds the next task of a pipeline, or, all being bound, releases the next stage. -/
def execPipelineBind (launch : Nat) (s : State) : Host.Outcome State Fault Refusal :=
  .next (
    match s.launch? launch with
    | none => s
    | some l =>
      if l.kind ≠ 2 ∨ !s.binds l then s
      else if l.cursor < l.total then
        match s.placeGroup launch l.cursor [l.pipeSpec l.cursor] with
        | some s1 => s1.modLaunch launch fun x => { x with cursor := l.cursor + 1 }
        | none => s
      else
        match l.nextStage (l.releaseOrder (l.cursor - l.total)) with
        | some st => (s.releaseStage l st).modLaunch launch fun x => { x with cursor := l.cursor + 1 }
        | none => s)

/-! ## Completion (R21) -/

/-- A launch whose task lost a transaction to a die that two failures cut off is ended in the same way (R318). -/
def execLaunchCompletion (launch : Nat) (s : State) : Host.Outcome State Fault Refusal :=
  .next (
    match s.launch? launch with
    | none => s
    | some l =>
      let s1 := if l.severed && !l.done then s.severLaunch ((s.dev.severed ++ s.dev.rerouted).foldl max 0) l else s
      match s1.launch? launch with
      | none => s1
      | some l1 => if !l1.done ∧ s1.launchOver l1 then s1.completeLaunch l1 else s1)

end Sys2Proof.Machine
end

