-- ==== Sys2Proof/Machine/Sha.lean ====
section
/-! DEFINITION. SHA-256, which R11, R58 and R333 name; its rounds are those of FIPS 180-4 (log 10). -/

namespace Sys2Proof.Machine

abbrev W32 := BitVec 32

def rotr (x : W32) (n : Nat) : W32 := x.rotateRight n

/-- The 64 round constants. -/
def shaK : List W32 :=
  [0x428a2f98, 0x71374491, 0xb5c0fbcf, 0xe9b5dba5, 0x3956c25b, 0x59f111f1, 0x923f82a4, 0xab1c5ed5] ++
  [0xd807aa98, 0x12835b01, 0x243185be, 0x550c7dc3, 0x72be5d74, 0x80deb1fe, 0x9bdc06a7, 0xc19bf174] ++
  [0xe49b69c1, 0xefbe4786, 0x0fc19dc6, 0x240ca1cc, 0x2de92c6f, 0x4a7484aa, 0x5cb0a9dc, 0x76f988da] ++
  [0x983e5152, 0xa831c66d, 0xb00327c8, 0xbf597fc7, 0xc6e00bf3, 0xd5a79147, 0x06ca6351, 0x14292967] ++
  [0x27b70a85, 0x2e1b2138, 0x4d2c6dfc, 0x53380d13, 0x650a7354, 0x766a0abb, 0x81c2c92e, 0x92722c85] ++
  [0xa2bfe8a1, 0xa81a664b, 0xc24b8b70, 0xc76c51a3, 0xd192e819, 0xd6990624, 0xf40e3585, 0x106aa070] ++
  [0x19a4c116, 0x1e376c08, 0x2748774c, 0x34b0bcb5, 0x391c0cb3, 0x4ed8aa4a, 0x5b9cca4f, 0x682e6ff3] ++
  [0x748f82ee, 0x78a5636f, 0x84c87814, 0x8cc70208, 0x90befffa, 0xa4506ceb, 0xbef9a3f7, 0xc67178f2]

/-- The eight working words. -/
structure ShaSt where
  a : W32
  b : W32
  c : W32
  d : W32
  e : W32
  f : W32
  g : W32
  h : W32
deriving DecidableEq, Repr

def ShaSt.init : ShaSt :=
  ⟨0x6a09e667, 0xbb67ae85, 0x3c6ef372, 0xa54ff53a, 0x510e527f, 0x9b05688c, 0x1f83d9ab, 0x5be0cd19⟩

def ShaSt.add (x y : ShaSt) : ShaSt :=
  ⟨x.a + y.a, x.b + y.b, x.c + y.c, x.d + y.d, x.e + y.e, x.f + y.f, x.g + y.g, x.h + y.h⟩

/-- One round. -/
def ShaSt.round (s : ShaSt) (k w : W32) : ShaSt :=
  let s1 := rotr s.e 6 ^^^ rotr s.e 11 ^^^ rotr s.e 25
  let ch := (s.e &&& s.f) ^^^ (~~~s.e &&& s.g)
  let t1 := s.h + s1 + ch + k + w
  let s0 := rotr s.a 2 ^^^ rotr s.a 13 ^^^ rotr s.a 22
  let maj := (s.a &&& s.b) ^^^ (s.a &&& s.c) ^^^ (s.b &&& s.c)
  ⟨t1 + (s0 + maj), s.a, s.b, s.c, s.d + t1, s.e, s.f, s.g⟩

/-- The next schedule word from the last 16, newest first. -/
def shaNext (ws : List W32) : W32 :=
  let w2 := ws.getD 1 0
  let w15 := ws.getD 14 0
  (rotr w2 17 ^^^ rotr w2 19 ^^^ (w2 >>> 10)) + ws.getD 6 0 + (rotr w15 7 ^^^ rotr w15 18 ^^^ (w15 >>> 3)) + ws.getD 15 0

/-- n more schedule words, in order, from the last 16, newest first. -/
def shaSchedule : Nat → List W32 → List W32
  | 0, _ => []
  | n + 1, ws => let w := shaNext ws; w :: shaSchedule n (w :: ws.take 15)

/-- The 16 words of a 64-byte block, most significant byte first. -/
def shaWords : Nat → List Byte → List W32
  | 0, _ => []
  | n + 1, b => BitVec.ofNat 32 (leNat (b.take 4).reverse) :: shaWords n (b.drop 4)

/-- One block. -/
def shaBlock (s : ShaSt) (block : List Byte) : ShaSt :=
  let ws := shaWords 16 block
  s.add ((shaK.zip (ws ++ shaSchedule 48 ws.reverse)).foldl (fun t p => t.round p.1 p.2) s)

def shaBlocks : Nat → ShaSt → List Byte → ShaSt
  | 0, s, _ => s
  | n + 1, s, b => shaBlocks n (shaBlock s (b.take 64)) (b.drop 64)

/-- The message with its padding: 0x80, zeros, and the bit length, big-endian. -/
def shaPad (m : List Byte) : List Byte :=
  m ++ [0x80] ++ List.replicate ((119 - m.length % 64) % 64) 0 ++ (leBytes 8 (8 * m.length)).reverse

/-- SHA-256 as the 32 bytes of the digest. -/
def sha256 (m : List Byte) : List Byte :=
  let p := shaPad m
  let r := shaBlocks (p.length / 64) .init p
  [r.a, r.b, r.c, r.d, r.e, r.f, r.g, r.h].flatMap (fun (w : W32) => (leBytes 4 w.toNat).reverse)

/-- A digest as it stands in memory, read as a number: the first byte least significant. -/
def sha256Num (m : List Byte) : BitVec 256 := BitVec.ofNat 256 (leNat (sha256 m))

end Sys2Proof.Machine
end

