-- ==== Sys2Proof/Machine/Code.lean ====
section
/-! DEFINITION. Events of code (R58, R60, R61, R64, R70, R71): hashing of pages, freeing of retired pages, retranslation. -/

namespace Sys2Proof.Machine

/-! ## Hashing (R58, R60) -/

def execPageFetchUnverified (obj page : Nat) (s : State) : Host.Outcome State Fault Refusal := .next (s.startHash obj page)

/-- The running launches in an object, one of each queue. -/
def State.launchesIn (s : State) (obj : Nat) : List Launch :=
  (s.launches.filter fun l => !l.done && l.kernels.any fun k => k.1 == obj).foldl (fun acc l =>
    if acc.any fun x => x.part == l.part && x.qid == l.qid then acc else acc ++ [l]) []

/-- A page fails: the object is quarantined, each queue takes a record that names its launch's packet, and the log an entry. -/
def State.failPage (s : State) (i page : Nat) (o : Obj) (poison : Bool) : State :=
  let base := BitVec.ofNat 64 o.cbase
  let va := BitVec.ofNat 64 (o.cbase + 4096 * page)
  let s1 := s.modObj i fun x => { x with pages := x.pages.set page .failed, quarantined := true }
  let s2 := (s1.launchesIn i).foldl (fun st l => st.queueError l.part l.qid 0x46 l.pkt l.utag [base, va, BitVec.ofNat 64 (b2n poison)]) s1
  s2.logEntry o.part
    { type := 7, sev := 2, ovr := false, cls := 0, idx := 0, addr := BitVec.ofNat 64 (o.pagePa page), qid := noQid,
      data := leBytes 8 o.cbase ++ leBytes 8 va.toNat }

/-- The hash of a page ends: the page is compared with the manifest's entry. -/
def execPageHashDone (obj page : Nat) (s : State) : Host.Outcome State Fault Refusal :=
  match s.obj? obj with
  | none => .next s
  | some o =>
    if o.pages[page]? ≠ some .hashing then .next s
    else
      let pa := o.pagePa page
      if s.poisoned pa 4096 then .next (s.failPage obj page o true)
      else if o.hashes[page]? = some (sha256Num (memRead s.mem pa 4096)) then
        .next (s.modObj obj fun x => { x with pages := x.pages.set page .verified })
      else .next (s.failPage obj page o false)

/-! ## Freeing (R64, R312) -/

/-- CGEN of a hart as R64 counts it: one without a task follows GEN. -/
def State.reached (s : State) (h : Nat) : Nat :=
  let q := s.getSeq h
  if q.task.isNone ∨ q.run = .idle then s.safeGen h else q.ctl.cgen

/-- The CGEN recorded in a save area, raised to GEN where the runtime may raise it. -/
def State.savedGen (s : State) (x : Saved) (gen : Nat) : Nat :=
  let c := leNat (memRead s.mem (x.area + 0x2B0) 8)
  match (x.seq.task.bind fun t => s.obj? t.obj).bind (·.retired) with
  | some g => if c < g then c else max c gen
  | none => max c gen

def Saved.inPart (x : Saved) (part : Nat) : Bool := match x.seq.task with | some t => t.part == part | none => false

/-- Has every sequencer and saved context of a partition reached a generation? -/
def State.allReached (s : State) (part gen now : Nat) : Bool :=
  (s.harts.all fun h => isSupervisor h || s.partOf h != part || decide (gen ≤ s.reached h)) &&
    s.saved.all fun x => !x.inPart part || decide (gen ≤ s.savedGen x now)

/-- A store of the runtime's software, on the supervisor hart of the partition's lowest cluster: a plain write, which takes its region's rod or waits for
it (R211). -/
def State.runtimeStore (s : State) (part pa : Nat) (bytes : List Byte) : Res Unit :=
  match s.leadOf part with
  | none => .ok () s
  | some h =>
    s.storeLocs { s.viaHart h with mode := .m } [⟨BitVec.ofNat 64 pa, pa, .hbm, .s, bareHome pa, bareHome (pa / 4096 * 4096), bytes.length⟩] bytes

/-- The runtime raises the CGEN recorded in the saved contexts of a partition (R64). -/
def State.raiseSaved (s : State) (part gen : Nat) : List Saved → Res Unit
  | [] => .ok () s
  | x :: xs =>
    if x.inPart part then
      (s.runtimeStore part (x.area + 0x2B0) (leBytes 8 (s.savedGen x gen))).bind fun _ s1 => s1.raiseSaved part gen xs
    else s.raiseSaved part gen xs

/-- Pages retired at a generation are freed, and EVENT 4 is sent. -/
def execGenerationFree (part gen : Nat) (s : State) : Host.Outcome State Fault Refusal :=
  match s.part part with
  | none => .next s
  | some p =>
    let objs := s.objs.any fun o => o.part == part && o.retired == some gen && !o.freed
    let old := s.old.any fun b => b.part == part && b.gen == gen && !b.freed
    if p.gen < gen ∨ (!objs && !old) ∨ s.allReached part gen p.gen = false then .next s
    else
      finishEvent ((s.raiseSaved part p.gen s.saved).bind fun _ s1 =>
        let s2 : State :=
          { s1 with objs := s1.objs.map fun o => if o.part = part ∧ o.retired = some gen then { o with freed := true } else o,
                    old := s1.old.map fun b => if b.part = part ∧ b.gen = gen then { b with freed := true } else b }
        .ok () (s2.sendEvent part 4 0 0 (BitVec.ofNat 64 gen)))

/-! ## The runtime's translator (R61, R70, R71) -/

/-- A command takes the next generation. -/
def State.nextGen (s : State) (part : Nat) : State × Nat :=
  match s.part part with
  | some p => (s.setPart part { p with gen := p.gen + 1 }, p.gen + 1)
  | none => (s, 0)

/-- The Lammel bytes of function fn: from its LADDR to the next entry's, or to the end of the section. -/
def State.functionRange (s : State) (o : Obj) (fn : Nat) : Nat × Nat :=
  let laddr (i : Nat) : Nat := leNat (memRead s.mem (o.dtabPa + 32 * i) 8)
  (laddr fn, if fn + 1 < o.ndtab then laddr (fn + 1) else o.lammel.1 + o.lammel.2)

/-- Are the code pages under a range of addresses verified? -/
def Obj.rangeVerified (o : Obj) (r : Nat × Nat) : Bool :=
  (List.range ((r.2 - 1) / 4096 + 1 - r.1 / 4096)).all fun k =>
    match o.pageOf ((r.1 / 4096 + k) * 4096) with
    | some i => o.pageSt i == .verified
    | none => false

/-- Do n bytes at an address lie in the translation area, in pages that are execute-only? -/
def Obj.bodyReady (o : Obj) (a n : Nat) : Bool :=
  decide (o.tarea ≤ a ∧ a + n ≤ o.tarea + o.tsize) &&
    (List.range ((a - o.tarea + n - 1) / 4096 + 1 - (a - o.tarea) / 4096)).all fun k =>
      o.xonly.contains (o.tareaPa + ((a - o.tarea) / 4096 + k) * 4096)

/-- A function's dispatch entry names a new body, whose pages are all execute-only, made of verified pages; the old one is retired. Where the runtime puts
the table of the body's loops, if it makes one, is free (log 16). -/
def execRetranslate (part obj fn : Nat) (native : Word) (s : State) : Host.Outcome State Fault Refusal :=
  .next (
    match s.obj? obj with
    | none => s
    | some o =>
      let len (a g : Nat) : Nat := max 1 (Config.bodyBytes a g)
      let r := s.nextGen part
      if o.part ≠ part ∨ o.freed ∨ o.ndtab ≤ fn ∨ o.rangeVerified (s.functionRange o fn) = false ∨ o.bodyReady native.toNat (len native.toNat r.2) = false then s
      else
        let e := o.dtabPa + 32 * fn
        let prev := leNat (memRead s.mem (e + 8) 8)
        let old : OldBody := { part := part, obj := obj, addr := prev, len := len prev (leNat (memRead s.mem (e + 16) 8)), gen := r.2, freed := false }
        let (w, s1) := s.draw
        let lmap := if w.getLsbD 0 ∨ o.tsize < 16 then 0 else o.tarea + w.toNat / 2 % (o.tsize / 8) * 8
        match s1.runtimeStore part (e + 8) (leBytes 8 native.toNat ++ leBytes 8 r.2 ++ leBytes 8 lmap) with
        | .ok _ s2 => let s3 := (s2.nextGen part).1; if prev = 0 then s3 else { s3 with old := s3.old ++ [old] }
        | .trap _ _ s2 | .stall _ s2 => s2)

/-- Root makes a page of a translation area execute-only. -/
def execMakeExecuteOnly (obj page : Nat) (s : State) : Host.Outcome State Fault Refusal :=
  .next (
    match s.obj? obj with
    | none => s
    | some o =>
      if o.freed ∨ o.tsize ≤ 4096 * page then s
      else s.modObj obj fun x => { x with xonly := insNat x.xonly (x.tareaPa + 4096 * page) })

end Sys2Proof.Machine
end

