-- ==== Sys2Proof/Machine/Agents.lean ====
section
/-! DEFINITION. The agents' queues (R264 to R268): register stores as events, taking a slot, and performing what a slot writes. -/

namespace Sys2Proof.Machine

/-! ## Stores to register blocks (R127, R264 to R266, R336) -/

/-- The physical address of an agent's block. -/
def agentBlock (a : Nat) : Word := BitVec.ofNat 64 (Config.agentBase + a / 16 * 2 ^ 20 + a % 16 * 2 ^ 12)

/-- An 8-byte store to a register, as one of the running hart: cause 7 where R127 or R264 refuses it, cause 28 where NOTIFY does. -/
def State.blockStore (s : State) (a off : Nat) (v : Word) : State :=
  let mode := s.via.mode
  if off % 8 = 0 ∧ agentStoreOk a off mode ∧ (mode = .m ∨ s.owns (s.partOf s.hart) (.agent a off) 0) then
    match s.agentStore a off v (BitVec.allOnes 64) mode with
    | .done s1 => s1
    | .full => s.takeTrap 28 (agentBlock a)
  else s.takeTrap 7 (agentBlock a + BitVec.ofNat 64 off)

def execAgentEnable (agent : Nat) (enable : Bool) (s : State) : Host.Outcome State Fault Refusal :=
  .next (s.blockStore agent 0x008 (if enable then 1 else 0))

def execAgentReset (agent : Nat) (s : State) : Host.Outcome State Fault Refusal := .next (s.blockStore agent 0x008 2)

/-- EN keeps its value. -/
def execAgentTlbinv (agent : Nat) (s : State) : Host.Outcome State Fault Refusal :=
  .next (s.blockStore agent 0x008 (if (s.agent agent).en then 5 else 4))

def execAgentNotify (agent : Nat) (slot : Word) (s : State) : Host.Outcome State Fault Refusal := .next (s.blockStore agent 0x040 slot)

/-- An amoadd.d on QTAIL, which every mode may make. -/
def execQtailReserve (agent : Nat) (n : Word) (s : State) : Host.Outcome State Fault Refusal :=
  if agent % 16 ≠ 15 ∧ (s.via.mode = .m ∨ s.owns (s.partOf s.hart) (.agent agent 0x038) 0) then
    .next (s.modAgent agent fun g => { g with qtail := (g.qtail + n.toNat) % 2 ^ 64 })
  else .next (s.takeTrap 7 (agentBlock agent + 0x038))

def execAgentRegisterWrite (agent offset : Nat) (value : Word) (s : State) : Host.Outcome State Fault Refusal :=
  .next (s.blockStore agent offset value)

def execMdone (agent : Nat) (value : Word) (s : State) : Host.Outcome State Fault Refusal := .next (s.blockStore agent 0x080 value)

/-! ## Taking a slot (R267) -/

/-- The RESULT of a fault. -/
def failCode (cause : Nat) : Nat := if cause = 30 then 3 else 2

/-- The index of the next slot to read. -/
def Agent.nextSlot (g : Agent) : Nat := g.inProgress.foldl (fun n k => max n (k + 1)) g.qhead

/-- May an agent take its next slot: enabled, the slot ready, no other work, and room in the window (R281)? -/
def Agent.mayTake (g : Agent) : Bool :=
  g.en && g.draw.isNone && g.work.isNone && decide (g.window.length < 1024) && g.ready.contains g.nextSlot

/-- Operations of a kind. -/
def opsOf (kind : Nat) : Nat := if kind = 0 then 1 else if kind = 1 then 2 else 3

/-- Is a slot's frame one that the agent refuses: an unknown operation, or a reserved field not 0? -/
def frameBad (a : Nat) (b : List Byte) : Bool := decide (opsOf (agentKind a) < fld b 0 1 ∨ 2 ≤ fld b 1 1 ∨ fld b 2 2 ≠ 0 ∨ fld b 0x38 4 ≠ 0)

/-- The RESULT, with ERRADDR, that ends slot k before it does any work: DONEADDR first, then the frame; 0 for none. The place of a DONEADDR that passes is
kept. -/
def State.frameFault (s : State) (a k : Nat) (b : List Byte) : Res (Nat × Word) :=
  let frame : Nat × Word := if frameBad a b then (1, 0) else (0, 0)
  if fld b 1 1 % 2 = 0 then .ok frame s
  else
    (s.doneAt a (fldW b 0x30)).bind fun r s1 =>
      match r with
      | .inl l => .ok frame (s1.modAgent a fun g => { g with doneLoc := aput g.doneLoc k l })
      | .inr 1 => .ok (1, 0) s1
      | .inr c => .ok (c, fldW b 0x30) s1

/-- What an agent finds when it reads its next slot: nothing to take, a slot it cannot read, or its index and frame. -/
inductive SlotRead where
  | idle
  | fault (k cause : Nat) (addr : Word)
  | frame (k : Nat) (b : List Byte)
deriving DecidableEq, Repr

def State.readSlot (s : State) (a : Nat) : Res SlotRead :=
  let g := s.agent a
  if !g.mayTake then .ok .idle s
  else
    match s.readBytes (s.viaAgent a) (g.slotVa g.nextSlot) 64 with
    | .ok b s1 => .ok (.frame g.nextSlot b) s1
    | .trap c v s1 => .ok (.fault g.nextSlot c v) s1
    | .stall w s1 => .stall w s1

/-- Takes a slot of an operation and does its work; one whose frame is at fault ends. -/
def State.takeSlot (s : State) (a op : Nat) (f : Nat → List Byte → State → Res Unit) : Res Unit :=
  (s.readSlot a).bind fun r s1 =>
    match r with
    | .frame k b =>
      if fld b 0 1 ≠ op then .ok () s1
      else
        (s1.frameFault a k b).bind fun e s2 =>
          match e with
          | (0, _) => f k b s2
          | (c, v) => .ok () (s2.agentFinish a k c v)
    | _ => .ok () s1

/-! ## What a slot writes -/

/-- Writes in order; answers the RESULT and ERRADDR. A write that waits for its rod leaves the rest in State. -/
def State.doWrites (a : Nat) (w : SlotWork) : List (Word × List Byte) → State → Res (Nat × Word)
  | [], s => .ok (w.result, w.addr) s
  | (va, b) :: rest, s =>
    match s.writeBytes (s.viaAgent a) va b with
    | .ok _ s1 => State.doWrites a w rest s1
    | .trap c v s1 => .ok (failCode c, v) s1
    | .stall x s1 => .stall x (s1.modAgent a fun g => { g with work := some { w with writes := (va, b) :: rest } })

/-- Goes on with the slot being worked on. -/
def State.agentWork (s : State) (a : Nat) : Res Unit :=
  match (s.agent a).work with
  | none => .ok () s
  | some w =>
    (State.doWrites a w w.writes s).bind fun r s1 => .ok () ((s1.modAgent a fun g => { g with work := none }).agentFinish a w.slot r.1 r.2)

/-- Starts the writes of a slot. -/
def State.startWork (s : State) (a : Nat) (w : SlotWork) : Res Unit := (s.modAgent a fun g => { g with work := some w }).agentWork a

/-- Ends what can end, and goes on with work left. -/
def State.agentAdvance (s : State) (a : Nat) : Res Unit := (s.agentDrain a (s.agent a).finished.length).agentWork a

end Sys2Proof.Machine
end

