-- ==== Sys2Proof/Machine/Raster.lean ====
section
/-! DEFINITION. The rasteriser (R274 to R279): triangles by the exact edge rule, paths by the exact integral of the winding number. -/

namespace Sys2Proof.Machine

/-! ## Triangles (R274) -/

def i32 (b : List Byte) (off : Nat) : Int := sgn 32 (fld b off 4)
def i16 (b : List Byte) (off : Nat) : Int := sgn 16 (fld b off 2)

abbrev Pt := Int × Int

/-- The edge function of (P, Q) at a point. -/
def edgeAt (p q : Pt) (x y : Int) : Int := (x - p.1) * (q.2 - p.2) - (y - p.2) * (q.1 - p.1)

def topLeft (p q : Pt) : Bool := decide (p.2 < q.2) || (p.2 == q.2 && decide (q.1 < p.1))

def inside (p q : Pt) (x y : Int) : Bool :=
  let e := edgeAt p q x y
  decide (0 < e) || (e == 0 && topLeft p q)

/-- Does a triangle cover a pixel? -/
def triCovers (cull : Bool) (v0 v1 v2 : Pt) (px py : Int) : Bool :=
  let d := edgeAt v0 v1 v2.1 v2.2
  let x := 256 * px + 128
  let y := 256 * py + 128
  if d = 0 ∨ (d < 0 ∧ cull) then false
  else if d < 0 then inside v0 v2 x y && inside v2 v1 x y && inside v1 v0 x y
  else inside v0 v1 x y && inside v1 v2 x y && inside v2 v0 x y

/-- Bits of a function below n as a number. -/
def bitsNat (f : Nat → Bool) : Nat → Nat
  | 0 => 0
  | n + 1 => bitsNat f n + (if f n then 2 ^ n else 0)

/-- The region of a slot: the first tile and the tile counts. -/
structure Region where
  tx : Int
  ty : Int
  nx : Nat
  ny : Nat
deriving DecidableEq, Repr

def regionOf (b : List Byte) : Region := ⟨i16 b 0x18, i16 b 0x1A, fld b 0x1C 2, fld b 0x1E 2⟩
def Region.ok (r : Region) : Bool := decide (1 ≤ r.nx ∧ r.nx ≤ 256 ∧ 1 ≤ r.ny ∧ r.ny ≤ 256)

/-- The mask of a tile. -/
def triMask (cull : Bool) (t : List Byte) (r : Region) (i j : Nat) : List Byte :=
  let p (n : Nat) : Pt := (i32 t (8 * n), i32 t (8 * n + 4))
  (List.range 32).flatMap fun row =>
    leBytes 4 (bitsNat (fun c => triCovers cull (p 0) (p 1) (p 2) (32 * (r.tx + i) + c) (32 * (r.ty + j) + row)) 32)

/-- The masks of a triangle, tile by tile. -/
def triWrites (cull : Bool) (t : List Byte) (r : Region) (dst : Word) (n : Nat) : List (Word × List Byte) :=
  (List.range (r.nx * r.ny)).map fun k => (dst + BitVec.ofNat 64 (128 * (n * r.nx * r.ny + k)), triMask cull t r (k % r.nx) (k / r.nx))

/-- Triangles n up to n + m - 1: their writes, and the RESULT and ERRADDR of the first that cannot be read. -/
def State.trisFrom (a : Nat) (b : List Byte) : Nat → Nat → State → Res (List (Word × List Byte) × Nat × Word)
  | _, 0, s => .ok ([], 0, 0) s
  | n, m + 1, s =>
    match s.readBytes (s.viaAgent a) (fldW b 8 + BitVec.ofNat 64 (24 * n)) 24 with
    | .ok t s1 =>
      (State.trisFrom a b (n + 1) m s1).bind fun r s2 =>
        .ok (triWrites (fld b 0x20 4 % 2 == 1) t (regionOf b) (fldW b 0x10) n ++ r.1, r.2) s2
    | .trap c v s1 => .ok ([], failCode c, v) s1
    | .stall w s1 => .stall w s1

def execTris (agent : Nat) (s : State) : Host.Outcome State Fault Refusal :=
  finishEvent ((s.agentAdvance agent).bind fun _ s1 =>
    if agentKind agent ≠ 1 then .ok () s1
    else s1.takeSlot agent 1 fun k b s2 =>
      let n := fld b 4 4
      if n = 0 ∨ 4096 < n ∨ !(regionOf b).ok ∨ 2 ≤ fld b 0x20 4 ∨ fld b 0x24 12 ≠ 0 then .ok () (s2.agentFinish agent k 1 0)
      else (State.trisFrom agent b 0 n s2).bind fun r s3 => s3.startWork agent ⟨k, r.1, r.2.1, r.2.2⟩)

/-! ## Splitting (R276, R277). A piece is its control points; t is m / 65,536 -/

abbrev Piece := List Pt

/-- One de Casteljau level, scaled by 65,536. -/
def casteljau (m : Int) : List Int → List Int
  | a :: b :: rest => ((65536 - m) * a + m * b) :: casteljau m (b :: rest)
  | _ => []

/-- The levels of de Casteljau's scheme, level i scaled by 65,536 ^ i. -/
def levels (m : Int) : Nat → List Int → List (List Int)
  | 0, _ => []
  | n + 1, l => l :: levels m n (casteljau m l)

/-- A Bernstein polynomial at m / 65,536, scaled. -/
def bernAt (m : Int) (l : List Int) : Int := ((levels m l.length l).getLast?.getD []).headD 0

def sgnOf (x : Int) : Int := if x < 0 then -1 else if x = 0 then 0 else 1

/-- Bisect. -/
def bisectFrom (f : List Int) : Nat → Int → Int → Int
  | 0, _, hi => hi
  | n + 1, lo, hi =>
    let m := (lo + hi) / 2
    if sgnOf (bernAt m f) = sgnOf (f.headD 0) then bisectFrom f n m hi else bisectFrom f n lo m

def bisect (f : List Int) : Int := bisectFrom f 16 0 65536

/-- n / d to the nearest integer, half to even. -/
def halfEven (n : Int) (d : Nat) : Int :=
  let q := n / (d : Int)
  let r := n % (d : Int)
  if 2 * r < d then q else if (d : Int) < 2 * r then q + 1 else if q % 2 = 0 then q else q + 1

/-- Control values of the two parts. -/
def splitVals (m : Int) (l : List Int) : List Int × List Int :=
  let ls := (levels m l.length l).zipIdx
  (ls.map fun p => halfEven (p.1.headD 0) (65536 ^ p.2), (ls.map fun p => halfEven (p.1.getLast?.getD 0) (65536 ^ p.2)).reverse)

def pieceXs (p : Piece) : List Int := p.map (·.1)
def pieceYs (p : Piece) : List Int := p.map (·.2)

/-- Puts a value last, or first. -/
def setLast (l : List Int) (v : Int) : List Int := l.dropLast ++ [v]
def setHead (l : List Int) (v : Int) : List Int := v :: l.tail

/-- Split: the shared end point takes a value on the x axis or the y axis where one is given. -/
def splitPiece (p : Piece) (m : Int) (kx ky : Option Int) : Piece × Piece :=
  let fix (q : List Int × List Int) (k : Option Int) : List Int × List Int :=
    match k with | some v => (setLast q.1 v, setHead q.2 v) | none => q
  let x := fix (splitVals m (pieceXs p)) kx
  let y := fix (splitVals m (pieceYs p)) ky
  (x.1.zip y.1, x.2.zip y.2)

/-- Differences of neighbours: the derivative's Bernstein values but for a positive factor. -/
def diffs : List Int → List Int
  | a :: b :: rest => (b - a) :: diffs (b :: rest)
  | _ => []

def opposes (f : List Int) : Bool := sgnOf (f.headD 0) * sgnOf (f.getLast?.getD 0) == -1

/-- x and y of a piece after n derivatives. -/
def derivs (second : Bool) (p : Piece) : List (List Int) :=
  if second then [diffs (diffs (pieceXs p)), diffs (diffs (pieceYs p))] else [diffs (pieceXs p), diffs (pieceYs p)]

/-- Refine; none where the pieces would exceed 4,096. -/
def refine (second : Bool) : Nat → Piece → Option (List Piece)
  | 0, _ => none
  | n + 1, p =>
    match (derivs second p).find? opposes with
    | none => some [p]
    | some f =>
      let q := splitPiece p (bisect f) none none
      match refine second n q.1, refine second n q.2 with
      | some a, some b => some (a ++ b)
      | _, _ => none

/-- The first multiple of 65,536 strictly between two values, from the first. -/
def firstCross (a e : Int) : Option Int :=
  if a < e then let k := (a / 65536 + 1) * 65536; if k < e then some k else none
  else if e < a then let k := (a - 1) / 65536 * 65536; if e < k then some k else none
  else none

/-- Cuts a piece at the grid lines of an axis. -/
def cutPiece (onY : Bool) : Nat → Piece → Option (List Piece)
  | 0, _ => none
  | n + 1, p =>
    let v := if onY then pieceYs p else pieceXs p
    match firstCross (v.headD 0) (v.getLast?.getD 0) with
    | none => some [p]
    | some k =>
      let q := splitPiece p (bisect (v.map (· - k))) (if onY then none else some k) (if onY then some k else none)
      match cutPiece onY n q.2 with
      | some rest => some (q.1 :: rest)
      | none => none

def joinPieces (f : Piece → Option (List Piece)) : List Piece → Option (List Piece)
  | [] => some []
  | p :: ps =>
    match f p, joinPieces f ps with
    | some a, some b => some (a ++ b)
    | _, _ => none

/-- More than this many pieces are too many. -/
def maxPieces : Nat := 4096

/-- Is a quadratic treated as a line (R276)? -/
def flatQuad (a c e : Pt) : Bool :=
  (e.1 - a.1) * (c.2 - a.2) == (e.2 - a.2) * (c.1 - a.1) &&
    decide (min a.1 e.1 ≤ c.1 ∧ c.1 ≤ max a.1 e.1 ∧ min a.2 e.2 ≤ c.2 ∧ c.2 ≤ max a.2 e.2)

/-- A segment after R276. -/
def tidySegment (p : Piece) : List Piece :=
  if p.all (· == p.headD (0, 0)) then []
  else match p with
    | [a, c, e] => if flatQuad a c e then [[a, e]] else [p]
    | _ => [p]

/-- Pieces of a segment; none where there are too many. -/
def piecesOf (seg : Piece) : Option (List Piece) :=
  let fuel := maxPieces + 1
  let r1 := joinPieces (fun p => if p.length = 4 then refine true fuel p else some [p]) (tidySegment seg)
  let r2 := r1.bind (joinPieces (refine false fuel))
  let r3 := r2.bind (joinPieces (cutPiece true fuel))
  match r3.bind (joinPieces (cutPiece false fuel)) with
  | some l => if maxPieces < l.length then none else some l
  | none => none

/-! ## Records (R275) -/

/-- The walk over the records: the current point, the contour's start, pieces of the last segment, all pieces. -/
structure PathSt where
  cur   : Pt
  start : Pt
  last  : Nat
  out   : List Piece
deriving DecidableEq, Repr

/-- Closes the open contour. -/
def PathSt.close (p : PathSt) : Option PathSt :=
  if p.cur = p.start then some p
  else
    match piecesOf [p.cur, p.start] with
    | some l => if maxPieces < p.last + l.length then none else some { p with cur := p.start, last := 0, out := p.out ++ l }
    | none => none

/-- A point of a record, in 24.16. -/
def recPt (b : List Byte) (n : Nat) : Pt := (256 * i32 b (8 + 8 * n), 256 * i32 b (12 + 8 * n))

/-- One record: the walk goes on, or the RESULT. -/
def PathSt.take (p : Option PathSt) (b : List Byte) : Except Nat PathSt :=
  let type := fld b 0 1
  if 3 < type ∨ fld b 1 7 ≠ 0 then .error 0x20
  else
    match p, type with
    | none, 0 => .ok ⟨recPt b 0, recPt b 0, 0, []⟩
    | none, _ => .error 0x20
    | some q, 0 => match q.close with | some q1 => .ok { q1 with cur := recPt b 0, start := recPt b 0, last := 0 } | none => .error 0x21
    | some q, n =>
      let pts := (List.range n).map (recPt b)
      match piecesOf (q.cur :: pts) with
      | some l => .ok { q with cur := pts.getLast?.getD q.cur, last := l.length, out := q.out ++ l }
      | none => .error 0x21

/-- Records n up to n + m - 1: the pieces, or the RESULT and ERRADDR. -/
def State.pathFrom (a : Nat) (sa : Word) : Nat → Nat → Option PathSt → State → Res (Except (Nat × Word) (List Piece))
  | _, 0, p, s =>
    match p with
    | none => .ok (.ok []) s
    | some q => match q.close with | some q1 => .ok (.ok q1.out) s | none => .ok (.error (0x21, 0)) s
  | n, m + 1, p, s =>
    match s.readBytes (s.viaAgent a) (sa + BitVec.ofNat 64 (32 * n)) 32 with
    | .ok b s1 =>
      match PathSt.take p b with
      | .ok q => State.pathFrom a sa (n + 1) m (some q) s1
      | .error e => .ok (.error (e, 0)) s1
    | .trap c v s1 => .ok (.error (failCode c, v)) s1
    | .stall w s1 => .stall w s1

/-! ## Accumulation and coverage (R278, R279) -/

/-- What a piece adds: its cell, C and I. -/
structure Contrib where
  x : Int
  y : Int
  c : Int
  i : Int
deriving DecidableEq, Repr

def contribOf (p : Piece) : Contrib :=
  let a := p.headD (0, 0)
  let e := p.getLast?.getD (0, 0)
  let cx := (a.1 + e.1) / 2 ^ 17
  let cy := (a.2 + e.2) / 2 ^ 17
  let u (n : Nat) : Int := (p.getD n (0, 0)).1 - 65536 * cx
  let v (n : Nat) : Int := (p.getD n (0, 0)).2 - 65536 * cy
  let i : Int :=
    if p.length = 2 then 30 * (u 0 + u 1) * (v 1 - v 0)
    else if p.length = 3 then
      10 * (u 0 * (-3 * v 0 + 2 * v 1 + v 2) + u 1 * (-2 * v 0 + 2 * v 2) + u 2 * (-v 0 - 2 * v 1 + 3 * v 2))
    else
      3 * (u 0 * (-10 * v 0 + 6 * v 1 + 3 * v 2 + v 3) + u 1 * (-6 * v 0 + 3 * v 2 + 3 * v 3) +
        u 2 * (-3 * v 0 - 3 * v 1 + 6 * v 3) + u 3 * (-v 0 - 3 * v 1 - 6 * v 2 + 10 * v 3))
  ⟨cx, cy, 60 * 65536 * (e.2 - a.2), i⟩

/-- Signed 64-bit, modulo 2^64. -/
def wrap64 (x : Int) : Int := sgn 64 (x % 2 ^ 64).toNat

def sumOf (f : Contrib → Int) (l : List Contrib) : Int := wrap64 (l.foldl (fun a c => a + f c) 0)

/-- S along a row of the region: `acc` is CARRY and the COVER to the left. -/
def rowFrom (cs : List Contrib) : Nat → Int → Int → List Int
  | 0, _, _ => []
  | n + 1, x, acc =>
    let here := cs.filter fun c => c.x == x
    (sumOf (fun c => c.c - c.i) here + acc) :: rowFrom cs n (x + 1) (acc + sumOf (·.c) here)

def rowS (r : Region) (all : List Contrib) (y : Int) : List Int :=
  let cs := all.filter fun c => c.y == y
  rowFrom cs (32 * r.nx) (32 * r.tx) (sumOf (·.c) (cs.filter fun c => decide (c.x < 32 * r.tx)))

def fullCover : Nat := 60 * 2 ^ 32

/-- Coverage of a pixel: `top` is 65,535 or 255. -/
def coverage (evenOdd : Bool) (top : Nat) (s : Int) : Nat :=
  let q : Nat :=
    if evenOdd then
      let m := s.natAbs % (2 * fullCover)
      fullCover - (if m ≤ fullCover then fullCover - m else m - fullCover)
    else min fullCover s.natAbs
  (halfEven (q * top : Nat) fullCover).toNat

/-- The tiles of the output. -/
def pathTiles (r : Region) (evenOdd u8 : Bool) (dst : Word) (ps : List Piece) : List (Word × List Byte) :=
  let all := ps.map contribOf
  let w : Nat := if u8 then 1 else 2
  (List.range r.ny).flatMap fun (j : Nat) =>
    let rows := (List.range 32).map fun (y : Nat) => rowS r all (32 * (r.ty + j) + y)
    (List.range r.nx).map fun (i : Nat) =>
      (dst + BitVec.ofNat 64 (1024 * w * (j * r.nx + i)),
        rows.flatMap fun row => ((row.drop (32 * i)).take 32).flatMap fun v => leBytes w (coverage evenOdd (if u8 then 255 else 65535) v))

def execPath (agent : Nat) (s : State) : Host.Outcome State Fault Refusal :=
  finishEvent ((s.agentAdvance agent).bind fun _ s1 =>
    if agentKind agent ≠ 1 then .ok () s1
    else s1.takeSlot agent 2 fun k b s2 =>
      let n := fld b 4 4
      let pctrl := fld b 0x20 4
      if n = 0 ∨ 2 ^ 20 < n ∨ !(regionOf b).ok ∨ 4 ≤ pctrl ∨ fld b 0x24 12 ≠ 0 then .ok () (s2.agentFinish agent k 1 0)
      else
        (State.pathFrom agent (fldW b 8) 0 n none s2).bind fun r s3 =>
          match r with
          | .ok ps => s3.startWork agent ⟨k, pathTiles (regionOf b) (pctrl % 2 == 1) (pctrl / 2 == 1) (fldW b 0x10) ps, 0, 0⟩
          | .error e => .ok () (s3.agentFinish agent k e.1 e.2))

end Sys2Proof.Machine
end

