-- ==== Sys2Proof/Machine/Mesh.lean ====
section
/-! DEFINITION. The mesh distributor (R269 to R273): draws, meshlet bitstreams, buffers, close markers. -/

namespace Sys2Proof.Machine

/-! ## DRAW (R269) -/

/-- Is a field of a DRAW outside its limits? -/
def badDraw (b : List Byte) : Bool :=
  fld b 0x07 1 != 0 || fld b 0x10 4 == 0 || fld b 0x14 1 == 0 || decide (16 < fld b 0x14 1) || fld b 0x15 1 == 0 ||
    decide (4 < fld b 0x15 1) || decide (16 ≤ fld b 0x17 1) || fld b 0x24 12 != 0

/-- Is an entry of HTAB outside its limits? -/
def badTarget (h : List Byte) (i : Nat) : Bool :=
  decide (4096 ≤ fld h (16 * i) 2) || fld h (16 * i + 2) 6 != 0 || fld h (16 * i + 8) 8 % 64 != 0

/-- The draw's frame is kept, followed by HTAB. -/
def execDraw (agent : Nat) (s : State) : Host.Outcome State Fault Refusal :=
  finishEvent ((s.agentAdvance agent).bind fun _ s1 =>
    if agentKind agent ≠ 0 then .ok () s1
    else s1.takeSlot agent 1 fun k b s2 =>
      if badDraw b then .ok () (s2.agentFinish agent k 1 0)
      else
        let nh := fld b 0x14 1
        match s2.readBytes (s2.viaAgent agent) (fldW b 0x18) (16 * nh) with
        | .ok h s3 =>
          if (List.range nh).any (badTarget h) then .ok () (s3.agentFinish agent k 1 0)
          else .ok () (s3.modAgent agent fun g => { g with draw := some { slot := k, body := b ++ h, next := 0, acked := [], run := 0, failed := false } })
        | .trap c v s3 => .ok () (s3.agentFinish agent k (failCode c) v)
        | .stall w s3 => .stall w s3)

def DrawSt.nh (d : DrawSt) : Nat := fld d.body 0x14 1
def DrawSt.nbuf (d : DrawSt) : Nat := fld d.body 0x15 1
def DrawSt.drawNo (d : DrawSt) : Nat := fld d.body 0x04 3
/-- HART and SBASE of a target. -/
def DrawSt.hart (d : DrawSt) (h : Nat) : Nat := fld d.body (64 + 16 * h) 2
def DrawSt.sbase (d : DrawSt) (h : Nat) : Word := fldW d.body (64 + 16 * h + 8)

/-- The draw fails: its slot ends. -/
def State.endDraw (s : State) (a : Nat) (d : DrawSt) (result : Nat) (addr : Word) : State :=
  (s.modAgent a fun g => { g with draw := none }).agentFinish a d.slot result addr

/-! ## Bitstreams (R270 to R272) -/

/-- n bits from bit `pos` of a bitstream. -/
def State.streamBits (s : State) (via : Via) (base : Word) (pos n : Nat) : Res Nat :=
  (s.readBytes via (base + BitVec.ofNat 64 (pos / 8)) ((pos % 8 + n + 7) / 8)).bind fun b s1 => .ok (leNat b / 2 ^ (pos % 8) % 2 ^ n) s1

/-- A decoded meshlet. -/
structure Meshlet where
  nv    : Nat
  nt    : Nat
  verts : List (Int × Int × Int)
  tris  : List (Nat × Nat × Nat)
  ok    : Bool
deriving DecidableEq, Repr

/-- Vertices n up to the last: the quantised positions from the one before, and whether they stay in range. -/
def State.meshVerts (via : Via) (base : Word) (qb : Nat) : Nat → Nat → Int × Int × Int → State → Res (List (Int × Int × Int) × Bool)
  | 0, _, _, s => .ok ([], true) s
  | n + 1, pos, q, s =>
    (s.streamBits via base pos (qb + 1)).bind fun dx s1 =>
      (s1.streamBits via base (pos + (qb + 1)) (qb + 1)).bind fun dy s2 =>
        (s2.streamBits via base (pos + 2 * (qb + 1)) (qb + 1)).bind fun dz s3 =>
          let p : Int × Int × Int := (q.1 + sgn (qb + 1) dx, q.2.1 + sgn (qb + 1) dy, q.2.2 + sgn (qb + 1) dz)
          let inQ (x : Int) : Bool := decide (0 ≤ x ∧ x < 2 ^ qb)
          if inQ p.1 && inQ p.2.1 && inQ p.2.2 then
            (State.meshVerts via base qb n (pos + 3 * (qb + 1)) p s3).bind fun r s4 => .ok (p :: r.1, r.2) s4
          else .ok ([], false) s3

/-- Triangles: the previous one, none before the first, and NEXT. -/
def State.meshTris (via : Via) (base : Word) (nv : Nat) : Nat → Nat → Option (Nat × Nat × Nat) → Nat → State → Res (List (Nat × Nat × Nat) × Bool)
  | 0, _, _, _, s => .ok ([], true) s
  | n + 1, pos, prev, next, s =>
    (s.streamBits via base pos 2).bind fun code s1 =>
      let idx := if code = 0 then 3 else if code = 3 then 0 else 1
      (if idx = 0 then (.ok 0 s1 : Res Nat) else s1.streamBits via base (pos + 2) (6 * idx)).bind fun w s2 =>
        let i0 := w % 64
        let r : Option ((Nat × Nat × Nat) × Nat) :=
          match prev, code with
          | _, 0 =>
            let i1 := w / 64 % 64
            let i2 := w / 4096
            if i0 < nv ∧ i1 < nv ∧ i2 < nv then some ((i0, i1, i2), max next (max (i0 + 1) (max (i1 + 1) (i2 + 1)))) else none
          | some (a, _, c), 1 => if i0 < nv then some ((a, c, i0), max next (i0 + 1)) else none
          | some (_, b, c), 2 => if i0 < nv then some ((c, b, i0), max next (i0 + 1)) else none
          | some (_, b, c), _ => if next < nv then some ((c, b, next), next + 1) else none
          | none, _ => none
        match r with
        | none => .ok ([], false) s2
        | some (t, next') =>
          (State.meshTris via base nv n (pos + 2 + 6 * idx) (some t) next' s2).bind fun r s3 => .ok (t :: r.1, r.2) s3

/-- Decodes a bitstream in order; it stops at the first thing that fails. -/
def State.decodeMeshlet (s : State) (via : Via) (base : Word) : Res (Meshlet × List Byte) :=
  (s.readBytes via base 20).bind fun h s1 =>
    let w := fld h 0 4
    let nv := w % 64 + 1
    let nt := w / 2 ^ 6 % 128
    let qb := w / 2 ^ 13 % 32
    let bad : Meshlet := ⟨nv, nt, [], [], false⟩
    let finite (o : Nat) : Bool := fld h o 4 / 2 ^ 23 % 256 != 255
    if nt = 0 ∨ 126 < nt ∨ qb = 0 ∨ 24 < qb ∨ w / 2 ^ 18 ≠ 0 ∨ !(finite 4 && finite 8 && finite 12 && finite 16) then .ok (bad, h) s1
    else
      (s1.streamBits via base 160 qb).bind fun x s2 =>
        (s2.streamBits via base (160 + qb) qb).bind fun y s3 =>
          (s3.streamBits via base (160 + 2 * qb) qb).bind fun z s4 =>
            (State.meshVerts via base qb (nv - 1) (160 + 3 * qb) (x, y, z) s4).bind fun v s5 =>
              if !v.2 then .ok (bad, h) s5
              else
                (State.meshTris via base nv nt (160 + 3 * qb + 3 * (qb + 1) * (nv - 1)) none 0 s5).bind fun t s6 =>
                  if !t.2 then .ok (bad, h) s6 else .ok (⟨nv, nt, ((x : Int), (y : Int), (z : Int)) :: v.1, t.1, true⟩, h) s6

/-- RoundTo(FP32, O + SC × q, RNE). -/
def meshCoord (o sc : Nat) (q : Int) : Nat :=
  (fmt32.finish .rne (fMulAdd .rne (fmt32.unpack sc) (.fin false q.toNat 0) (fmt32.unpack o))).1

/-! ## Buffers and messages (R273) -/

/-- The writes of a buffer; the bytes after the last triangle are free. -/
def State.bufferWrites (s : State) (buf : Word) (num : Nat) (m : Meshlet) (h : List Byte) : List (Word × List Byte) × State :=
  let head := leBytes 1 m.nv ++ leBytes 1 m.nt ++ leBytes 1 (b2n !m.ok) ++ leBytes 1 0 ++ leBytes 4 num ++ leBytes 8 0
  if !m.ok then ([(buf, head)], s)
  else
    let sc := fld h 16 4
    let verts := m.verts.flatMap fun q =>
      leBytes 4 (meshCoord (fld h 4 4) sc q.1) ++ leBytes 4 (meshCoord (fld h 8 4) sc q.2.1) ++ leBytes 4 (meshCoord (fld h 12 4) sc q.2.2)
    let tris := m.tris.flatMap fun t => leBytes 1 t.1 ++ leBytes 1 t.2.1 ++ leBytes 1 t.2.2
    let (rest, s1) := s.freeBytes (0x500 - 0x310 - tris.length)
    ([(buf, head ++ verts), (buf + 0x310, tris ++ rest)], s1)

/-- Writes in order, all their rods taken before the first. -/
def State.writeAll (s : State) (via : Via) (ws : List (Word × List Byte)) : Res Unit :=
  let rods := ws.foldl (fun (st : State × Bool) w =>
    match st.1.locate via w.1 w.2.length .store with
    | .ok ls s1 => let r := s1.takeRods via ls; (r.1, st.2 && r.2)
    | _ => st) (s, true)
  if !rods.2 then .stall .rod rods.1
  else ws.foldl (fun (r : Res Unit) w => r.bind fun _ st => st.writeBytes via w.1 w.2) (.ok () rods.1)

/-- The handler message of a meshlet. -/
def State.meshMsg (s : State) (a : Nat) (d : DrawSt) (hart : Nat) (buf : Word) (num : Nat) (m : Meshlet) : Msg :=
  { Msg.blank hart (0xC000 + a) (s.partOfAgent a) (s.agent a).inc.toNat with
    hidx := fld d.body 0x16 1, payload := leBytes 8 buf.toNat ++ leBytes 4 num ++ leBytes 1 m.nv ++ leBytes 1 m.nt ++ leBytes 1 (b2n !m.ok) ++ leBytes 1 0 }

/-- Decodes meshlet `next` into its buffer and sends its message, once the buffer is free. -/
def State.sendMeshlet (s : State) (a : Nat) (d : DrawSt) : Res Unit :=
  let i := d.next
  if d.nm ≤ i ∨ (d.nh * d.nbuf ≤ i ∧ !d.acked.contains (i - d.nh * d.nbuf)) then .ok () s
  else
    let via := s.viaAgent a
    let h := i % d.nh
    let buf := d.sbase h + BitVec.ofNat 64 (1280 * (i / d.nh % d.nbuf))
    let num := (d.mbase + i) % 2 ^ 32
    (s.readBytes via (fldW d.body 0x08 + BitVec.ofNat 64 (8 * i)) 8).bind fun t s1 =>
      (s1.decodeMeshlet via (BitVec.ofNat 64 (leNat t))).bind fun m s2 =>
        let w := s2.bufferWrites buf num m.1 m.2
        (w.2.writeAll via w.1).bind fun _ s3 =>
          let s4 := s3.modAgent a fun g => { g with draw := some { d with next := i + 1, failed := d.failed || !m.1.ok } }
          .ok () (s4.inject (s4.meshMsg a d (d.hart h) buf num m.1))

/-! ## Close markers -/

/-- The length of the run of acknowledged meshlets from 0. -/
def runFrom (acked : List Nat) : Nat → Nat → Nat
  | 0, j => j
  | n + 1, j => if acked.contains j then runFrom acked n (j + 1) else j

/-- The blend units of BMASK that take markers. -/
def DrawSt.units (d : DrawSt) (a : Nat) : List Nat :=
  ((List.range 4).filter fun j => fld d.body 0x17 1 / 2 ^ j % 2 == 1).map fun j => a / 16 * 16 + 5 + j

/-- A CLOSE slot. -/
def closeSlot (next : Nat) : List Byte := leBytes 8 3 ++ leBytes 8 next ++ List.replicate 48 0

/-- The NEXT of a marker after a run of j + 1 meshlets. -/
def DrawSt.marker (d : DrawSt) (run : Nat) : Nat :=
  if run = d.nm then (d.drawNo + 1) % 2 ^ 24 * 2 ^ 40 else d.drawNo * 2 ^ 40 + (d.mbase + run) % 2 ^ 32 * 2 ^ 8

/-- Pushes a marker to every unit once each has room, by R266; the block of a unit of another partition is an access fault (R264). -/
def State.pushClose (s : State) (a : Nat) (d : DrawSt) (run : Nat) : Res Unit :=
  let us := d.units a
  match us.find? fun u => s.partOfAgent u != s.partOfAgent a with
  | some u => .trap 7 (agentBlock u) s
  | none =>
  if us.any fun u => decide ((s.agent u).qhead + (s.agent u).qsize ≤ (s.agent u).qtail) then .ok () s
  else
    (s.writeAll (s.viaAgent a) (us.map fun u => ((s.agent u).slotVa (s.agent u).qtail, closeSlot (d.marker run)))).bind fun _ s1 =>
      let s2 := us.foldl (fun st u =>
          let k := (st.agent u).qtail
          match (st.modAgent u fun g => { g with qtail := k + 1 }).agentNotify u k with
          | .done x => x
          | .full => st) s1
      .ok () (s2.modAgent a fun g => { g with draw := some { d with run := run } })

/-- The distributor's next step in a draw: it ends, it pushes markers of a run that has grown, or it sends a meshlet. A fault ends the draw. -/
def State.drawStep (s : State) (a : Nat) (d : DrawSt) : Res Unit :=
  let run := runFrom d.acked d.acked.length 0
  if d.run = d.nm then .ok () (s.endDraw a d (if d.failed then 0x10 else 0) 0)
  else if d.run < run then s.pushClose a d run
  else s.sendMeshlet a d

def execMeshletDispatch (agent : Nat) (s : State) : Host.Outcome State Fault Refusal :=
  finishEvent ((s.agentAdvance agent).bind fun _ s1 =>
    match (s1.agent agent).draw with
    | none => .ok () s1
    | some d =>
      match s1.drawStep agent d with
      | .trap c v s2 => .ok () (s2.endDraw agent d (failCode c) v)
      | r => r)

end Sys2Proof.Machine
end

