-- ==== Sys2Proof/Machine/Blend.lean ====
section
/-! DEFINITION. The blend units (R280 to R282). -/

namespace Sys2Proof.Machine

/-! ## Arithmetic (R282) -/

def div255 (t : Nat) : Nat := (t + 128 + (t + 128) / 2 ^ 8) / 2 ^ 8

/-- A channel of an RGBA8 value: 0 to 3 are R, G, B, A. -/
def chan8 (c : Nat) (ch : Nat) : Nat := c / 2 ^ (8 * ch) % 256

/-- The value written over d for source colour s and coverage. -/
def blend (mode s d cov : Nat) : Nat :=
  let sa := chan8 s 3
  let da := chan8 d 3
  let a := div255 (sa * cov)
  let lerp (x y w : Nat) : Nat := div255 (x * w + y * (255 - w))
  let colour (ch : Nat) : Nat :=
    let sc := chan8 s ch
    let dc := chan8 d ch
    match mode with
    | 0 => lerp sc dc cov
    | 1 => lerp sc dc a
    | 2 => min 255 (dc + div255 (sc * a))
    | _ => div255 (dc * (255 - a) + div255 (sc * dc) * a)
  let alpha : Nat :=
    match mode with
    | 0 => lerp sa da cov
    | 2 => min 255 (da + a)
    | _ => lerp 255 da a
  colour 0 + colour 1 * 2 ^ 8 + colour 2 * 2 ^ 16 + alpha * 2 ^ 24

/-- 16-bit coverage as 8-bit. -/
def cov8of16 (c : Nat) : Nat := (c + 128) / 257

/-! ## The pixels of a slot (R280) -/

/-- A pixel to blend: its place, colour and coverage. -/
structure Pixel where
  x   : Nat
  y   : Nat
  col : Nat
  cov : Nat
deriving DecidableEq, Repr

/-- The pixels of a FRAG. -/
def fragPixels (b : List Byte) : List Pixel :=
  ((List.range 4).filter fun j => fld b 5 1 / 2 ^ j % 2 == 1).map fun j =>
    ⟨fld b 0x10 2 + j % 2, fld b 0x12 2 + j / 2, fld b (0x18 + 4 * j) 4, 255⟩

/-- The pixels of a COVER whose tile bytes are t. -/
def coverPixels (b t : List Byte) : List Pixel :=
  let u8 := fld b 0x20 1 % 2 == 1
  (List.range 1024).map fun i =>
    ⟨32 * fld b 0x18 2 + i % 32, 32 * fld b 0x1A 2 + i / 32, fld b 0x1C 4, if u8 then fld t i 1 else cov8of16 (fld t (2 * i) 2)⟩

/-- The physical addresses of the bytes of some locations. -/
def bytePas (ls : List Loc) : List Nat := ls.flatMap fun l => (List.range l.len).map (l.pa + ·)

/-- The pixel at an address as this slot's earlier writes leave it: `new` holds the bytes it has blended, by physical address, the latest first. -/
def State.readPixel (s : State) (a : Nat) (new : List (Nat × Byte)) (va : Word) : Res (List Nat × List Byte) :=
  (s.locate (s.viaAgent a) va 4 .load).bind fun ls s1 =>
    let pas := bytePas ls
    if pas.all fun p => (aget new p).isSome then .ok (pas, pas.map fun p => (aget new p).getD 0) s1
    else (s1.readBytes (s1.viaAgent a) va 4).bind fun d s2 => .ok (pas, (pas.zip d).map fun p => (aget new p.1).getD p.2) s2

/-- Blends pixels in order, each read as the writes before it leave it: the writes, and the RESULT and ERRADDR of the first that cannot be read. -/
def State.blendAll (a mode : Nat) : List Pixel → List (Nat × Byte) → List (Word × List Byte) → State → Res (List (Word × List Byte) × Nat × Word)
  | [], _, ws, s => .ok (ws, 0, 0) s
  | p :: ps, new, ws, s =>
    let g := s.agent a
    if g.tsize.toNat % 2 ^ 16 ≤ p.x ∨ g.tsize.toNat / 2 ^ 16 ≤ p.y then State.blendAll a mode ps new ws s
    else
      let va := g.tbase + BitVec.ofNat 64 p.y * g.tstride + BitVec.ofNat 64 (4 * p.x)
      match s.readPixel a new va with
      | .ok (pas, d) s1 =>
        let out := leBytes 4 (blend mode p.col (leNat d) p.cov)
        State.blendAll a mode ps (pas.zip out ++ new) (ws ++ [(va, out)]) s1
      | .trap c v s1 => .ok (ws, failCode c, v) s1
      | .stall w s1 => .stall w s1

/-- Slot k leaves the reorder window, if it is held there. -/
def State.leaveWindow (s : State) (a k : Nat) : State := s.modAgent a fun g => { g with window := g.window.filter fun x => x.slot != k }

/-- Applies a FRAG or COVER slot; one that is held leaves the window once what it reads is read. -/
def State.applySlot (s : State) (a k : Nat) (b : List Byte) : Res Unit :=
  let go (ps : List Pixel) (s1 : State) : Res Unit :=
    (State.blendAll a (fld b 4 1) ps [] [] s1).bind fun r s2 => (s2.leaveWindow a k).startWork a ⟨k, r.1, r.2.1, r.2.2⟩
  if fld b 0 1 = 1 then go (fragPixels b) s
  else
    match s.readBytes (s.viaAgent a) (fldW b 0x10) (if fld b 0x20 1 % 2 = 1 then 1024 else 2048) with
    | .ok t s1 => go (coverPixels b t) s1
    | .trap c v s1 => .ok () ((s1.leaveWindow a k).agentFinish a k (failCode c) v)
    | .stall w s1 => .stall w s1

/-! ## The reorder window (R281) -/

/-- The lowest entry at or below NEXTOPEN; equal keys in slot order. -/
def Agent.eligible (g : Agent) : Option HeldSlot :=
  (g.window.filter fun h => decide (h.key.toNat / 2 ^ 8 ≤ g.nextOpen.toNat / 2 ^ 8)).foldl (fun r h =>
    match r with
    | none => some h
    | some x => if h.key.toNat < x.key.toNat ∨ (h.key = x.key ∧ h.slot < x.slot) then some h else r) none

/-- Goes on with work left, then applies the eligible entries of the window. -/
def State.blendAdvance (a : Nat) : Nat → State → Res Unit
  | 0, s => s.agentAdvance a
  | n + 1, s =>
    (s.agentAdvance a).bind fun _ s1 =>
      match (s1.agent a).eligible with
      | none => .ok () s1
      | some h =>
        (s1.applySlot a h.slot h.body).bind fun _ s2 =>
          State.blendAdvance a n s2

def State.blendReady (s : State) (a : Nat) : Res Unit := State.blendAdvance a ((s.agent a).window.length + 1) s

/-- The RESULT that ends a FRAG or COVER at once; 0 for none. -/
def blendBad (b : List Byte) : Nat :=
  let frag := fld b 0 1 = 1
  if (frag ∧ (16 ≤ fld b 5 1 ∨ fld b 6 2 ≠ 0 ∨ fld b 0x14 4 ≠ 0 ∨ fld b 0x28 8 ≠ 0 ∨ fld b 0x10 2 % 2 = 1 ∨ fld b 0x12 2 % 2 = 1)) ∨
      (¬ frag ∧ (fld b 5 3 ≠ 0 ∨ 2 ≤ fld b 0x20 4 ∨ fld b 0x24 12 ≠ 0)) ∨ 8 ≤ fld b 4 1 then 1
  else if 4 ≤ fld b 4 1 then 0x30
  else 0

/-- A FRAG or COVER slot: applied, held or late. -/
def State.orderSlot (s : State) (a k : Nat) (b : List Byte) : Res Unit :=
  let g := s.agent a
  let key := fldW b 8
  let r := blendBad b
  if r ≠ 0 then .ok () (s.agentFinish a k r 0)
  else if !g.ord ∨ key.toNat / 2 ^ 8 = g.nextOpen.toNat / 2 ^ 8 then s.applySlot a k b
  else if g.nextOpen.toNat / 2 ^ 8 < key.toNat / 2 ^ 8 then
    .ok () (s.setAgent a { g with window := g.window ++ [{ slot := k, key := key, body := b }] })
  else .ok () ((s.setAgent a { g with late := true }).agentFinish a k 0 0)

def execFrag (agent : Nat) (s : State) : Host.Outcome State Fault Refusal :=
  finishEvent ((s.blendReady agent).bind fun _ s1 =>
    if agentKind agent ≠ 2 then .ok () s1 else s1.takeSlot agent 1 fun k b s2 => s2.orderSlot agent k b)

def execCover (agent : Nat) (s : State) : Host.Outcome State Fault Refusal :=
  finishEvent ((s.blendReady agent).bind fun _ s1 =>
    if agentKind agent ≠ 2 then .ok () s1 else s1.takeSlot agent 2 fun k b s2 => s2.orderSlot agent k b)

/-- NEXTOPEN rises to NEXT, and the entries now eligible are applied. -/
def execClose (agent : Nat) (s : State) : Host.Outcome State Fault Refusal :=
  finishEvent ((s.blendReady agent).bind fun _ s1 =>
    if agentKind agent ≠ 2 then .ok () s1
    else s1.takeSlot agent 3 fun k b s2 =>
      if fld b 8 1 ≠ 0 ∨ fld b 0x10 32 ≠ 0 then .ok () (s2.agentFinish agent k 1 0)
      else
        let s3 := s2.modAgent agent fun g => { g with nextOpen := if g.nextOpen.toNat < (fldW b 8).toNat then fldW b 8 else g.nextOpen }
        (s3.agentFinish agent k 0 0).blendReady agent)

/-- A NOP, an operation the agent does not have, or a slot that cannot be read. A blend unit applies
the entries that a CLOSE made eligible before it reads a slot (R281). -/
def execAgentNop (agent : Nat) (s : State) : Host.Outcome State Fault Refusal :=
  finishEvent ((if agentKind agent = 2 then s.blendReady agent else s.agentAdvance agent).bind fun _ s1 =>
    (s1.readSlot agent).bind fun r s2 =>
      match r with
      | .idle => .ok () s2
      | .fault k c v => .ok () (s2.agentFinish agent k (failCode c) v)
      | .frame k b =>
        if fld b 0 1 = 0 ∨ opsOf (agentKind agent) < fld b 0 1 then
          (s2.frameFault agent k b).bind fun e s3 => .ok () (s3.agentFinish agent k e.1 e.2)
        else .ok () s2)

end Sys2Proof.Machine
end

