-- ==== Sys2Proof/Machine/Fht.lean ====
section
/-! DEFINITION. FHT at the device (R321 to R325, R327) and the queue of root commands (R329). -/

namespace Sys2Proof.Machine

/-! ## Root commands in line (R329) -/

/-- The event that performs a command. -/
def rootEvent (part code : Nat) : Option Instr :=
  match code with
  | 1 => some (.loadObject part)
  | 2 => some (.unload part)
  | 3 => some (.replace part)
  | 4 => some (.createQueue part)
  | 5 => some (.destroyQueue part)
  | 6 => some (.setLease part)
  | 7 => some (.setLog part)
  | 8 => some (.writeHomingEntry part)
  | 9 => some (.resetPartition part)
  | 10 => some (.attest part)
  | 11 => some (.activateFirmware part)
  | 12 => some (.createPartition part)
  | 13 => some (.destroyPartition part)
  | 14 => some (.setCodeKey part)
  | 15 => some (.setOwnerKey part)
  | 16 => some (.setParkPool part)
  | 17 => some (.setPeerEntry part)
  | 18 => some (.resetDevice part)
  | _ => none

/-- Root's answer: EVENT 6. -/
def State.rootAnswer (s : State) (part status addr : Nat) : State := s.sendEvent part 6 0 (BitVec.ofNat 64 addr) (BitVec.ofNat 64 status)

/-- Puts the next command of a partition on the agenda; codes not in the table are answered with status 8. -/
def State.nextCmd (part : Nat) : Nat → State → State
  | 0, s => s
  | n + 1, s =>
    match (s.part part).map (·.cmds) with
    | some (c :: rest) =>
      match rootEvent part c with
      | some i => { s with agenda := s.agenda ++ [.event i] }
      | none => State.nextCmd part n ((s.modPart part fun p => { p with cmds := rest }).rootAnswer part 8 0)
    | _ => s

/-- A command arrives. -/
def State.takeCmd (s : State) (part code : Nat) : State :=
  let idle := ((s.part part).map (·.cmds.isEmpty)).getD false
  let s1 := s.modPart part fun p => { p with cmds := p.cmds ++ [code] }
  if idle then State.nextCmd part 1 s1 else s1

/-! ## Receiving (R321, R322, R325) -/

/-- The partition that a frame's source MAC and VLAN stand for in the partition map (R321, R328). -/
def State.fhtPart (s : State) (m : FhtMsg) : Option Nat := (s.parts.find? fun p => p.2.mac == m.mac && p.2.vlan == m.vlan).map (·.1)

/-- The number under which State keeps a frame's flow. -/
def flowKey (m : FhtMsg) : Nat := if m.port = 0 then m.flow else peerKey (m.port - 1) m.mac.toNat m.vlan.toNat m.flow

/-- Is a frame dropped: one of another protocol, of no partition, or with a header that R322 has none of (log 14)? -/
def State.frameBad (s : State) (m : FhtMsg) : Bool :=
  m.udp != 7460 || (s.fhtPart m).isNone || !m.known || decide (63 < m.flow ∨ 8192 < m.len) || m.payload.length != m.len

/-- A message is taken: its SEQ is consumed. -/
def State.consume (s : State) (k : Nat × Nat) : State :=
  let f := s.flowOf k.1 k.2
  s.setFlow { f with expect := (f.expect + 1) % 2 ^ 32, lost := false }

/-- A message whose SEQ is not expected is dropped, and answered with the cumulative ACK. -/
def State.seqDrop (s : State) (part flow : Nat) (ce : Bool) : State := s.send (.ack part flow (s.flowOf part flow).expect ce)

/-- May a partition be served? In minimal mode only partition 0 runs (R335), and the boot ROM alone serves no message but the WRITE of `romTakes` (R333). -/
def State.serves (s : State) (part : Nat) : Bool := (!s.dev.minimal || part == 0) && s.dev.stage != 6

/-- The writes and reds through a peer window that an ACK of its flow covers are performed (R324, R327). -/
def State.ackOut (s : State) (f : Flow) (n : Nat) : State :=
  { s with host := { s.host with out := s.host.out.filter fun o =>
      !(o.part == f.part && o.flow == f.flow && decide ((o.seq + 2 ^ 32 - f.oldest % 2 ^ 32) % 2 ^ 32 < n)) } }

/-- A cumulative ACK: progress clears the resends, ECE halves the window, 512 messages without it raise it, and what waits for room goes. -/
def State.takeAck (s : State) (part flow ack : Nat) (ece : Bool) : State :=
  let f := s.flowOf part flow
  let n := (ack + 2 ^ 32 - f.oldest % 2 ^ 32) % 2 ^ 32
  if f.unacked < n then s
  else
    let f1 : Flow := if n = 0 then f else { f with oldest := ack % 2 ^ 32, resends := 0, sentAt := s.time }
    ((s.ackOut f n).setFlow (
      if ece then { f1 with window := max 8 (f1.window / 2), good := 0 }
      else { f1 with window := min 512 (f1.window + (f1.good + n) / 512), good := (f1.good + n) % 512 })).sendLater (part, flow)

/-- Where no root slot verified, the boot ROM takes the WRITE of a root image to slot B, whose bytes State does not hold (R333; log 34). -/
def State.romTakes (s : State) (m : FhtMsg) : Bool :=
  s.dev.stage == 6 && m.is 1 && !s.frameBad m && m.seq == (s.flowOf ((s.fhtPart m).getD 0) (flowKey m)).expect

/-- Counts a dropped frame. -/
def State.dropFrame (s : State) : State := { s with host := { s.host with drops := s.host.drops + 1 } }

/-- Receives a message: a bad frame is dropped; its ACK is taken; one out of sequence is answered; f performs it for its partition, or leaves it for a
later try. A frame that is not of the event's kind (mine) is another event's. -/
def State.fhtTake (s : State) (m : FhtMsg) (mine : Bool) (f : Nat → State → Res Unit) : Res Unit :=
  match s.fhtPart m with
  | none => .ok () s.dropFrame
  | some part =>
    if s.frameBad m ∨ s.serves part = false then .ok () s.dropFrame
    else if mine = false then .ok () s
    else
      let s1 := s.takeAck part (flowKey m) m.ack m.ece
      if m.seq ≠ (s1.flowOf part (flowKey m)).expect then .ok () (s1.seqDrop part (flowKey m) m.ce) else f part s1

/-- The answer to a message, which consumes its SEQ and carries ECE where its frame was marked CE. -/
def State.answer (s : State) (part : Nat) (m : FhtMsg) (nak : Bool) (arg : Word) (payload : List Byte) : State :=
  (s.consume (part, (flowKey m))).send (.answer part (flowKey m) nak m.ce arg payload)

def State.nak (s : State) (part : Nat) (m : FhtMsg) : State := s.answer part m true 0 []

/-! ## What a message reaches (R323) -/

/-- The locations of n bytes at a physical address: the partition's HBM and scratch, but no code page. Every other address is a trap here, which
refuses the message. -/
def State.hubLocs (s : State) (part : Nat) (m : FhtMsg) (n : Nat) (ak : AKind) : Res (List Loc) :=
  (s.locate (s.viaHub part true) m.addr n ak).bind fun ls s1 =>
    if ls.all fun l => (match l.t with | .hbm => !s1.isCodePage l.pa | .scratch _ _ => true | _ => false) then .ok ls s1 else .trap 7 m.addr s1

/-- What a message meets is refused with a NAK, and nothing of it is done. -/
def orNak (part : Nat) (m : FhtMsg) (r : Res Unit) : Res Unit :=
  match r with
  | .trap _ _ s1 => .ok () (s1.nak part m)
  | r => r

/-- Bytes of a root mailbox (R330). -/
def Part.mailRead (p : Part) (off n : Nat) : List Byte := memRead p.mailbox off n

/-- A WRITE is performed: its SEQ is consumed, and the ACK sent. -/
def State.wrote (s : State) (part : Nat) (m : FhtMsg) : State :=
  let t := s.consume (part, (flowKey m))
  t.send (.ack part (flowKey m) (t.flowOf part (flowKey m)).expect m.ce)

/-- WRITE; with ROOT = 1 into the root mailbox. In stage 6 the ROM's WRITE is followed by a reset (R333). -/
def execFhtWrite (msg : FhtMsg) (s : State) : Host.Outcome State Fault Refusal :=
  if s.romTakes msg then
    let s1 := s.wrote ((s.fhtPart msg).getD 0) msg
    .next { s1 with agenda := s1.agenda ++ [.event .deviceStart] }
  else finishEvent (s.fhtTake msg (msg.is 1) fun part s1 =>
    if msg.root then
      if msg.addr.toNat + msg.payload.length ≤ 4096 then
        .ok () (State.wrote (s1.modPart part fun p => { p with mailbox := memWrite p.mailbox msg.addr.toNat msg.payload }) part msg)
      else .ok () (s1.nak part msg)
    else
      orNak part msg ((s1.hubLocs part msg msg.payload.length .store).bind fun ls s2 =>
        (s2.storeLocs (s2.viaHub part true) ls msg.payload).bind fun _ s3 => .ok () (s3.wrote part msg)))

/-- READ; with ROOT = 1 of the root mailbox. -/
def execFhtRead (msg : FhtMsg) (s : State) : Host.Outcome State Fault Refusal :=
  finishEvent (s.fhtTake msg (msg.is 2) fun part s1 =>
    let n := msg.arg.toNat
    if n = 0 ∨ 8192 < n ∨ (msg.root ∧ 4096 < msg.addr.toNat + n) then .ok () (s1.nak part msg)
    else if msg.root then .ok () (s1.answer part msg false 0 (((s1.part part).map fun p => p.mailRead msg.addr.toNat n).getD []))
    else
      orNak part msg ((s1.hubLocs part msg n .load).bind fun ls s2 =>
        (s2.readLocs (s2.viaHub part true) false ls).bind fun b s3 => .ok () (s3.answer part msg false 0 b)))

/-- The aligned 8-byte word of a NOTIFY. -/
def State.notifyWord (s : State) (part : Nat) (m : FhtMsg) : Res Loc :=
  if m.addr.toNat % 8 ≠ 0 then .trap 6 m.addr s
  else (s.hubLocs part m 8 .store).bind fun ls s1 => match ls with | [l] => .ok l s1 | _ => .trap 7 m.addr s1

/-- A NOTIFY with ROOT = 1: f on the aligned 8-byte word of the root mailbox, and the old value. -/
def State.notifyRoot (s : State) (part : Nat) (m : FhtMsg) (f : Nat → Nat) (old : Bool) : State :=
  if m.addr.toNat % 8 ≠ 0 ∨ 4096 ≤ m.addr.toNat then s.nak part m
  else
    let w := leNat (((s.part part).map fun p => p.mailRead m.addr.toNat 8).getD [])
    (s.modPart part fun p => { p with mailbox := memWrite p.mailbox m.addr.toNat (leBytes 8 (f w)) }).answer part m false (if old then BitVec.ofNat 64 w else 0) []

/-- OP 0; with ROOT = 1 at offset 0, ARG is a root command. An OP from 3 on is refused. -/
def execFhtNotifyStore (msg : FhtMsg) (s : State) : Host.Outcome State Fault Refusal :=
  finishEvent (s.fhtTake msg (msg.is 3 && msg.op != 1 && msg.op != 2) fun part s1 =>
    if msg.op ≠ 0 then .ok () (s1.nak part msg)
    else if msg.root then
      .ok () (if msg.addr = 0 then (s1.answer part msg false 0 []).takeCmd part msg.arg.toNat else s1.notifyRoot part msg (fun _ => msg.arg.toNat) false)
    else
      orNak part msg ((s1.notifyWord part msg).bind fun l s2 =>
        (s2.storeLocs (s2.viaHub part true) [l] (leBytes 8 msg.arg.toNat)).bind fun _ s3 => .ok () (s3.answer part msg false 0 [])))

/-- OP 1. A poisoned word is refused as in a READ (log 32). -/
def execFhtNotifyFetchAdd (msg : FhtMsg) (s : State) : Host.Outcome State Fault Refusal :=
  finishEvent (s.fhtTake msg (msg.is 3 && msg.op == 1) fun part s1 =>
    if msg.root then .ok () (s1.notifyRoot part msg (fun w => (w + msg.arg.toNat) % 2 ^ 64) true)
    else
      orNak part msg ((s1.notifyWord part msg).bind fun l s2 =>
        match s2.atHome (s2.viaHub part true) l true with
        | (some _, s3) => .trap 30 l.va s3
        | (none, s3) =>
          let r := s3.rmwDone (s3.viaHub part true) l fun old => some ((old + msg.arg.toNat) % 2 ^ 64)
          .ok () (r.2.answer part msg false (BitVec.ofNat 64 r.1) [])))

/-- A red of the hub at one word (R228, R229): a Bead word of the same tag is not reckoned, a poisoned one keeps its poison. -/
def State.hubRed (s0 : State) (part : Nat) (l : Loc) (tag v : Nat) : State :=
  let n := tagBytes tag
  let s := s0.bringLines l.pa n
  let via := s.viaHub part true
  let same := match aget s.coh.beads l.pa with | some b => b.tag == tag && s.beadsIn l.pa n == [l.pa] | none => false
  let discard (st : State) : State := st.logEntry part
    { type := 8, sev := 2, ovr := false, cls := 7, idx := 0, addr := l.va, qid := noQid, data := leBytes 8 0 ++ leBytes 8 l.va.toNat ++ leBytes 8 tag }
  if (s.firstPoison l.pa n).isSome then discard s
  else if same then s.putBytes { via with num := 2050 } { l with len := n } (leBytes n (tagOp tag (leNat (memRead s.mem l.pa n)) v))
  else
    match s.atHome via { l with len := n } false with
    | (some _, s1) => discard s1
    | (none, s1) => (s1.rmwDone via { l with len := n } fun old => some (tagOp tag old v)).2

/-- OP 2: red.TAG.sys with a TAG from 1 to 13. -/
def execFhtNotifyRed (tag : BitVec 4) (msg : FhtMsg) (s : State) : Host.Outcome State Fault Refusal :=
  finishEvent (s.fhtTake msg (msg.is 3 && msg.op == 2 && msg.tag == tag.toNat) fun part s1 =>
    let v := lowBits msg.arg (8 * tagBytes msg.tag)
    if msg.tag = 0 ∨ 14 ≤ msg.tag then .ok () (s1.nak part msg)
    else if msg.root then .ok () (s1.notifyRoot part msg (fun w =>
      if tagBytes msg.tag = 8 then tagOp msg.tag w v else w / 2 ^ 32 * 2 ^ 32 + tagOp msg.tag (w % 2 ^ 32) v) false)
    else
      orNak part msg ((s1.notifyWord part msg).bind fun l s2 => .ok () ((s2.hubRed part l msg.tag v).answer part msg false 0 [])))

/-! ## The sender's side (R325) -/

/-- An ACK that stands alone arrives. -/
def execFhtAck (part flow ack : Nat) (ece : Bool) (s : State) : Host.Outcome State Fault Refusal := .next (s.takeAck part flow ack ece)

/-- Is an agenda entry an unperformed message of a flow? -/
def Agenda.ofFlow (a : Agenda) (s : State) (part flow : Nat) : Bool :=
  let of (m : FhtMsg) : Bool := s.fhtPart m == some part && (flowKey m) == flow
  match a with
  | .event (.fhtWrite m) | .event (.fhtRead m) | .event (.fhtNotifyStore m) | .event (.fhtNotifyFetchAdd m) | .event (.fhtNotifyRed _ m) => of m
  | _ => false

/-- The reads and writes through the peer windows whose flow is lost: a read is answered with its loss, and nothing waits for a write any more. -/
def State.losePeer (s : State) (part flow : Nat) : State :=
  let here (pa : Nat) : Bool := (s.peerEntry part (pa / 2 ^ 40 - 0x20)).any fun e => e.key == flow
  let lose (h : Nat) (q : Seq) : Seq :=
    match q.peerAsk with
    | some a => if s.partOf h = part ∧ here a.1 then { q with peerAsk := none, peerGot := q.peerGot ++ [(a.1, [])] } else q
    | none => q
  { s with
    seq := lose s.hart s.seq
    seqs := s.seqs.map fun x => (x.1, lose x.1 x.2)
    host := { s.host with
      asks := s.host.asks.map fun a => if a.2.part = part ∧ here a.2.pa ∧ a.2.got = none then (a.1, { a.2 with got := some [] }) else a
      out := s.host.out.filter fun o => !(o.part == part && o.flow == flow) } }

/-- A flow is lost: its unperformed messages go, an entry is logged, and both directions start again at SEQ 0. The address of a peer that no window names is a free
value (log 8, 14). -/
def State.loseFlow (s : State) (f : Flow) : State :=
  let (free, s1) := s.freeBytes 16
  let e := (((s1.part f.part).map (·.peers)).getD []).find? fun p => p.2.key == f.flow
  let port := if f.flow < 64 then 0 else 1 + (f.flow - 64) / 64 % 8
  let s2 : State := { s1 with agenda := s1.agenda.filter fun a => !a.ofFlow s1 f.part f.flow,
                              host := { s1.host with later := s1.host.later.filter fun m => m.flow != some (f.part, f.flow) } }
  let s3 := if 64 ≤ f.flow then s2.losePeer f.part f.flow else s2
  (s3.setFlow { Flow.start f.part f.flow with lost := true }).logEntry f.part
    { type := 15, sev := 2, ovr := false, cls := 7, idx := port, addr := 0, qid := noQid,
      data := leBytes 4 port ++ leBytes 4 (f.flow % 64) ++ leBytes 8 f.expect ++ ((e.map fun p => p.2.ipv6).getD free) }

/-- 20 µs without a rise of ACK: the sender resends from the oldest unacknowledged message, or after 64 resends the flow is lost. -/
def execFhtRetransmitTimeout (part flow : Nat) (s : State) : Host.Outcome State Fault Refusal :=
  let f := s.flowOf part flow
  if f.next = f.oldest ∨ f.lost ∨ s.time < f.sentAt + 20000 then .next s
  else if 64 ≤ f.resends then .next (s.loseFlow f)
  else .next ((s.setFlow { f with resends := f.resends + 1, sentAt := s.time }).send (.resend part flow f.oldest))

/-- A message whose SEQ is not the expected one; SEQ 0 restarts a lost flow. -/
def execFhtSeqDrop (part flow seq : Nat) (s : State) : Host.Outcome State Fault Refusal :=
  let f := s.flowOf part flow
  if f.lost ∧ seq = 0 then .next (s.setFlow { f with lost := false })
  else if seq = f.expect then .next s
  else .next (s.seqDrop part flow false)

/-- The answer to a read through a peer window that the host port keeps. -/
def State.askAnswered (s : State) (id : Nat) (payload : List Byte) (lost : Bool) : State :=
  { s with host := { s.host with asks := s.host.asks.map fun a =>
      if a.1 = id ∧ a.2.got = none ∧ (lost ∨ payload.length = a.2.len) then (a.1, { a.2 with got := some (if lost then [] else payload) }) else a } }

/-- The answer to a read of an instruction through a peer window. -/
def Seq.peerAnswer (q : Seq) (payload : List Byte) (lost : Bool) : Seq :=
  match q.peerAsk with
  | none => q
  | some a =>
    if !lost ∧ payload.length ≠ a.2 then q
    else { q with peerAsk := none, peerGot := q.peerGot ++ [(a.1, if lost then [] else payload)] }

/-- The answer to a read through a peer window, or its loss: of an instruction of a hart, or (from 8192) of a numbered request that the host port
keeps. -/
def execFhtResponse (hart : Nat) (payload : List Byte) (lost : Bool) (s : State) : Host.Outcome State Fault Refusal :=
  .next (if 8192 ≤ hart then s.askAnswered (hart - 8192) payload lost else s.modSeq hart fun q => q.peerAnswer payload lost)

/-- A frame of another protocol than FHT over UDP and IPv6, which has no FHT header to judge, is dropped and counted (R321). A frame with such a header is
judged at its own event by `frameBad`. -/
def execFrameDrop (s : State) : Host.Outcome State Fault Refusal := .next s.dropFrame

end Sys2Proof.Machine
end

