-- ==== Sys2Proof/Machine/MxConvert.lean ====
section
/-! DEFINITION. The MX conversions (R168 to R173). -/

namespace Sys2Proof.Machine

/-- Narrow widths. -/
inductive MxFmt where
  | e2 | e4 | e5
deriving DecidableEq, Repr

def MxFmt.width : MxFmt → Nat | .e2 => 4 | .e4 | .e5 => 8
/-- emax of R173. -/
def MxFmt.emax : MxFmt → Nat | .e2 => 2 | .e4 => 8 | .e5 => 15

/-- Narrow(N, v, s, X) of R172: the code, fflags and xsflags. -/
def narrow (n : MxFmt) (rm : Rm) (v : FVal) (s x : Nat) : Nat × CFlags :=
  match n with
  | .e2 => narrowE2 v s x
  | .e4 => narrowE45 false rm v s
  | .e5 => narrowE45 true rm v s

/-- Widen(N, code, s, X) of R172 into a format. -/
def widen (n : MxFmt) (f : FFmt) (rm : Rm) (code s x : Nat) : Nat × BitVec 5 :=
  let t := match n with
    | .e2 => e2WithX code x
    | .e4 => e4m3Unpack code
    | .e5 => e5m2Unpack code
  f.pack rm (scaled t s)

/-- The narrow group of R171: max(1, LMUL * w / SEW) registers. -/
def Vec.narrowGrp (v : Vec) (reg w : Nat) : Grp := ⟨reg, w, max 8 (v.lmul * w / v.sew)⟩

/-- The checks of R171 on the destination, the other group and the scale register. -/
def Vec.mxOk (v : Vec) (vm : Bool) (d g sc : Grp) : Bool :=
  (v.sew == 16 || v.sew == 32) && d.ok v.nregs && g.ok v.nregs && sc.ok v.nregs && !d.overlaps g && !d.overlaps sc && (vm || d.reg != 0)

/-- A datum with signalling NaNs made quiet (R167). -/
def quiet (v : FVal) : FVal := match v with | .nan _ => .nan false | v => v

/-- Leaves the vector state and flags of a conversion: `sat` of the run is MXSAT. -/
def State.putMx (s : State) (a : VAcc) : State :=
  let s1 := s.putV { a with sat := false }
  if a.sat then s1.xflag xsMXSAT else s1

/-- vfcvt.e2, .e4 and .e5. -/
def doNarrow (s : State) (n : MxFmt) (vm : Bool) (vd vs2 vs1 : Reg) (ord : Nat) : Res VInfo :=
  let v := s.seq.vec
  let w := n.width
  let d := v.narrowGrp vd.toNat w
  let rm := if n = .e2 then some .rne else rmOf s.seq.frm 7
  let f := fmtOfWidth v.sew
  s.vguard true (s.fpOn && rm.isSome && v.mxOk vm d (v.grp vs2.toNat v.sew) (maskGrp vs1.toNat)) (
    let a := VAcc.fill ⟨v, 0, false⟩ vd.toNat w (fun i =>
      if v.active vm i then
        let sc := v.get vs1.toNat 16 (i / 32)
        let r := narrow n (rm.getD .rne) (quiet (f.unpack (v.get vs2.toNat v.sew i))) (sc % 256) (sc / 256)
        some ⟨r.1, r.2.1, r.2.2 != 0⟩
      else none) v.vl
    .ok (s.vinfo 9 ord vm) (s.putMx a))

/-- vfwcvt.e2, .e4 and .e5. -/
def doWiden (s : State) (n : MxFmt) (vm : Bool) (vd vs2 vs1 : Reg) (ord : Nat) : Res VInfo :=
  let v := s.seq.vec
  let w := n.width
  let rm := rmOf s.seq.frm 7
  s.vguard true (s.fpOn && rm.isSome && v.mxOk vm (v.grp vd.toNat v.sew) (v.narrowGrp vs2.toNat w) (maskGrp vs1.toNat)) (
    let a := VAcc.fill ⟨v, 0, false⟩ vd.toNat v.sew (fun i =>
      if v.active vm i then
        let sc := v.get vs1.toNat 16 (i / 32)
        some (.fl2 (widen n (fmtOfWidth v.sew) (rm.getD .rne) (v.get vs2.toNat w i) (sc % 256) (sc / 256)))
      else none) v.vl
    .ok (s.vinfo 9 ord vm) (s.putV a))

/-- The active elements of a block as data. -/
def Vec.blockData (v : Vec) (vm : Bool) (r b : Nat) : List FVal :=
  (List.range (min 32 (v.vl - 32 * b))).filterMap fun k =>
    if v.active vm (32 * b + k) then some (quiet ((fmtOfWidth v.sew).unpack (v.get r v.sew (32 * b + k)))) else none

/-- The lowest-indexed member of largest magnitude. -/
def largest : List FVal → Option FVal
  | [] => none
  | x :: xs =>
    match largest xs with
    | none => some x
    | some y => if absCmp x y == .lt then some y else some x

/-- The scale element of a block (R173). -/
def scaleOf (n : MxFmt) (l : List FVal) : Nat :=
  if l.any fun x => x.isNan || x.isInf then 0x00FF
  else
    match largest l with
    | none => 0x007F
    | some vx =>
      match vx with
      | .fin _ m e =>
        if m = 0 then 0x007F
        else
          let k : Int := (blen m : Int) - 1 + e
          let s : Nat := (min 254 (max 0 (k - n.emax + 127))).toNat
          let x := if n = .e2 then (toE4M3 .rne (vx.scale (127 - s))).1 else 0
          x * 256 + s
      | _ => 0x00FF

/-- vmxscale. -/
def doVmxscale (s : State) (vm : Bool) (vd vs2 : Reg) (fmt : BitVec 5) : Res VInfo :=
  let v := s.seq.vec
  let n : MxFmt := match fmt.toNat with | 0 => .e2 | 1 => .e4 | _ => .e5
  let d := maskGrp vd.toNat
  s.vguard true (s.fpOn && decide (fmt.toNat ≤ 2) && v.mxOk vm d (v.grp vs2.toNat v.sew) (v.grp vs2.toNat v.sew)) (
    let a := VAcc.fill ⟨v, 0, false⟩ vd.toNat 16 (fun b => some (.of (scaleOf n (v.blockData vm vs2.toNat b)))) ((v.vl + 31) / 32)
    .ok (s.vinfo 9 4327 vm) (s.putV a))

def doVfcvtE2 (s : State) (vm : Bool) (vd vs2 vs1 : Reg) : Res VInfo := doNarrow s .e2 vm vd vs2 vs1 4325
def doVfcvtE4 (s : State) (vm : Bool) (vd vs2 vs1 : Reg) : Res VInfo := doNarrow s .e4 vm vd vs2 vs1 4326
def doVfcvtE5 (s : State) (vm : Bool) (vd vs2 vs1 : Reg) : Res VInfo := doNarrow s .e5 vm vd vs2 vs1 4331
def doVfwcvtE2 (s : State) (vm : Bool) (vd vs2 vs1 : Reg) : Res VInfo := doWiden s .e2 vm vd vs2 vs1 4328
def doVfwcvtE4 (s : State) (vm : Bool) (vd vs2 vs1 : Reg) : Res VInfo := doWiden s .e4 vm vd vs2 vs1 4329
def doVfwcvtE5 (s : State) (vm : Bool) (vd vs2 vs1 : Reg) : Res VInfo := doWiden s .e5 vm vd vs2 vs1 4330

def execVfcvtE2 (vm : Bool) (vd vs2 vs1 : Reg) (s : State) : Host.Outcome State Fault Refusal := finishV (doVfcvtE2 s vm vd vs2 vs1)
def execVfcvtE4 (vm : Bool) (vd vs2 vs1 : Reg) (s : State) : Host.Outcome State Fault Refusal := finishV (doVfcvtE4 s vm vd vs2 vs1)
def execVfcvtE5 (vm : Bool) (vd vs2 vs1 : Reg) (s : State) : Host.Outcome State Fault Refusal := finishV (doVfcvtE5 s vm vd vs2 vs1)
def execVfwcvtE2 (vm : Bool) (vd vs2 vs1 : Reg) (s : State) : Host.Outcome State Fault Refusal := finishV (doVfwcvtE2 s vm vd vs2 vs1)
def execVfwcvtE4 (vm : Bool) (vd vs2 vs1 : Reg) (s : State) : Host.Outcome State Fault Refusal := finishV (doVfwcvtE4 s vm vd vs2 vs1)
def execVfwcvtE5 (vm : Bool) (vd vs2 vs1 : Reg) (s : State) : Host.Outcome State Fault Refusal := finishV (doVfwcvtE5 s vm vd vs2 vs1)
def execVmxscale (vm : Bool) (vd vs2 : Reg) (fmt : BitVec 5) (s : State) : Host.Outcome State Fault Refusal := finishV (doVmxscale s vm vd vs2 fmt)

end Sys2Proof.Machine
end

