-- ==== Sys2Proof/Machine/Pair.lean ====
section
/-! DEFINITION. The pair word (R84, R99, R100). -/

namespace Sys2Proof.Machine

/-! ## Members -/

/-- The effect of a scalar member, which R99 limits to these. -/
def doScalar (i : Instr) (s : State) : Res Unit :=
  match i with
  | .alu op rd rs1 rs2 => doAlu s op rd rs1 rs2
  | .aluImm op rd rs1 imm => doAluImm s op rd rs1 imm
  | .lui rd imm => doLui s rd imm
  | .scalarLoad op rd rs1 imm => doLoad s op rd rs1 imm
  | .scalarStore op rs2 rs1 imm => doStore s op rs2 rs1 imm
  | .hintAff _ => .ok () s
  | _ => s.illegal

/-- The effect of a vector member, which R99 limits to these. -/
def doVector (i : Instr) (s : State) : Res VInfo :=
  match i with
  | .vectorArithmetic f6 vm vs2 vs1 f3 vd => doVArith s f6 vm vs2 vs1 f3 vd
  | .vectorLoad nf mop vm rs2 rs1 w vd => doVLoad s nf mop vm rs2 rs1 w vd
  | .vectorStore nf mop vm rs2 rs1 w vs3 => doVStore s nf mop vm rs2 rs1 w vs3
  | .vmpush vs1 => doVmpush s vs1
  | .vmelse => doVmelse s
  | .vmpop => doVmpop s
  | .vmdepth rd => doVmdepth s rd
  | .vidxc vm rd vd vs2 => doVidxc s vm rd vd vs2
  | .vfcvtE2 vm vd vs2 vs1 => doVfcvtE2 s vm vd vs2 vs1
  | .vfcvtE4 vm vd vs2 vs1 => doVfcvtE4 s vm vd vs2 vs1
  | .vfcvtE5 vm vd vs2 vs1 => doVfcvtE5 s vm vd vs2 vs1
  | .vmxscale vm vd vs2 fmt => doVmxscale s vm vd vs2 fmt
  | .vfwcvtE2 vm vd vs2 vs1 => doVfwcvtE2 s vm vd vs2 vs1
  | .vfwcvtE4 vm vd vs2 vs1 => doVfwcvtE4 s vm vd vs2 vs1
  | .vfwcvtE5 vm vd vs2 vs1 => doVfwcvtE5 s vm vd vs2 vs1
  | .vwmulxE8 vm vd vs2 vs1 => doVwmulx s 8 vm vd vs2 vs1 4332
  | .vwmulxE16 vm vd vs2 vs1 => doVwmulx s 16 vm vd vs2 vs1 4333
  | .vwmulxE32 vm vd vs2 vs1 => doVwmulx s 32 vm vd vs2 vs1 4334
  | .vwmulxE64 vm vd vs2 vs1 => doVwmulx s 64 vm vd vs2 vs1 4335
  | .vle8Inv vm vd rs1 => doVleInv s vm vd rs1 8 4336
  | .vle16Inv vm vd rs1 => doVleInv s vm vd rs1 16 4337
  | .vle32Inv vm vd rs1 => doVleInv s vm vd rs1 32 4338
  | .vle64Inv vm vd rs1 => doVleInv s vm vd rs1 64 4339
  | .vsmx vm vs3 rs1 vs2 => doVsmx s vm vs3 rs1 vs2
  | .spop vd sid => doSpop s vd sid
  | .vwait vm vd vs2 rs1 => doVwait s vm vd vs2 rs1
  | .msendv vm vs3 vs2 rs1 => doMsendv s vm vs3 vs2 rs1
  | .edge vm vd vs2 rs1 => doEdge s vm vd vs2 rs1
  | .texdec vm vd vs2 fmt => doTexdec s vm vd vs2 fmt
  | .texw vm vd vs2 rs1 => doTexw s vm vd vs2 rs1
  | .texS vm vd vs2 rs1 => doTexS s vm vd vs2 rs1
  | .texSa vm rd vs2 rs1 => doTexSa s vm rd vs2 rs1
  | .boxt vm vd vs2 rs1 => doBoxt s vm vd vs2 rs1
  | .trit vm vd vs2 rs1 => doTrit s vm vd vs2 rs1
  | _ => s.illegal

/-! ## Members that no vector state makes legal (R99) -/

/-- A state in which every other condition of a vector instruction holds, under one vtype: U mode with the vector and floating-point
units on, a handler-mode task, 32 registers, vl 0, and the held lane group retired. There a legal vector instruction answers cause 29
(R113) before it reads anything, and an encoding that is not legal under that vtype answers cause 2. -/
def vectorProbe (vtype : Word) : State :=
  let r := State.reset
  let q := r.seq
  let vec : Vec := { q.vec with nreg := 2, vlen := 2048, vtype := vtype, fresh := false, released := false, hmask := 1 }
  let task : Task :=
    { launch := 0, lin := 0, wg := 0, wglin := 0, obj := 0, part := 0, hm := true, pipe := none, scrBase := 0, scrLen := 0, top := 0, tp := 0, gp := 0 }
  { r with seq := { q with mode := .u, priv := { q.priv with mstatus := 0x6600 }, vec := vec, task := some task },
           cores := [(0, { Core.reset with dis := 1 })] }

/-- The vtype words: each SEW with each LMUL. -/
def vtypeWords : List Word :=
  [0, 1, 2, 3, 5, 6, 7].flatMap fun lm => [0, 8, 16, 24].map fun w => BitVec.ofNat 64 (w + lm)

/-- Is a vector member an encoding that some vector state makes legal? spop's width is its stream's, so its number decides. -/
def memberAssigned (i : Instr) : Bool :=
  match i with
  | .spop _ sid => decide (sid.toNat ≤ 3)
  | _ => vtypeWords.any fun w => match doVector i (vectorProbe w) with | .trap c _ _ => c != 2 | _ => true

/-- The f register that a member writes. -/
def fDst : Instr → Option Reg
  | .scalarLoad op rd _ _ => if isFpLoad op then some rd else none
  | .vectorArithmetic f6 vm _ vs1 f3 vd => if f3 = 1 ∧ f6 = 0x10 ∧ vm ∧ vs1 = 0 then some vd else none
  | _ => none

/-- Do both members write one register (x0 is never written)? -/
def membersClash (a b : Instr) : Bool :=
  (dstOf a).any (fun r => r != 0 && (dstOf b).contains r) ||
    (match fDst a, fDst b with | some r, some r' => r == r' | _, _ => false)

/-! ## The pair -/

/-- Registers after both members: what the vector member changed, and the scalar member's elsewhere. -/
def mergeRegs (old vec sc : Vector Word 32) : Vector Word 32 :=
  Vector.ofFn fun i : Fin 32 => if vec[i] = old[i] then sc[i] else vec[i]

/-- Both members on the sources as they stand before the pair. A scalar trap or wait comes first; on any trap neither
member has an effect. -/
def doPair (s : State) (a b : Instr) : Res VInfo :=
  match doScalar a s with
  | .trap c v _ => .trap c v s
  | .stall w s1 => .stall w s1
  | .ok _ _ =>
    match doVector b s with
    | .trap c v _ => .trap c v s
    | .stall w s1 => .stall w s1
    | .ok i s1 =>
      match doScalar a (s1.upd fun q => { q with x := s.seq.x, f := s.seq.f }) with
      | .ok _ s2 =>
        .ok i (s2.upd fun q => { q with x := mergeRegs s.seq.x s1.seq.x q.x, f := mergeRegs s.seq.f s1.seq.f q.f })
      | .trap c v _ => .trap c v s
      | .stall w _ => .stall w s

/-- A pair word: cause 2 by its members (R99) and after vrelease (R124) whatever its guard, then the guard, then both members. -/
def execPair (g : Reg) (sense : Bool) (scalar vector : Instr) (s : State) : Host.Outcome State Fault Refusal :=
  if membersClash scalar vector ∨ !memberAssigned vector ∨ s.seq.vec.released then finish s.illegal
  else if (s.x g != 0) == sense then finish (.ok () s)
  else finishV (doPair s scalar vector)

end Sys2Proof.Machine
end

