-- ==== Sys2Proof/Machine/Links.lean ====
section
/-! DEFINITION. A die boundary that fails (R318 to R320): the transactions that it loses, and rerouting. -/

namespace Sys2Proof.Machine

/-- The meaning of an instruction that accesses memory itself. -/
def accessOutcome (i : Instr) (s : State) : Option (Host.Outcome State Fault Refusal) :=
  match i with
  | .scalarLoad op rd rs1 imm => some (execScalarLoad op rd rs1 imm s)
  | .scalarStore op rs2 rs1 imm => some (execScalarStore op rs2 rs1 imm s)
  | .standardAmo op dword aq rl rd rs2 rs1 => some (execStandardAmo op dword aq rl rd rs2 rs1 s)
  | .amoScoped op dword scope rd rs2 rs1 => some (execAmoScoped op dword scope rd rs2 rs1 s)
  | .ldAq scope width rd rs1 => some (execLdAq scope width rd rs1 s)
  | .stRl scope width rs2 rs1 => some (execStRl scope width rs2 rs1 s)
  | .ldInv width rd rs1 => some (execLdInv width rd rs1 s)
  | .red tag scope rs2 rs1 => some (execRed tag scope rs2 rs1 s)
  | .bupd tag rs2 rs1 => some (execBupd tag rs2 rs1 s)
  | .breckon rs1 => some (execBreckon rs1 s)
  | .rodAcq rd rs1 => some (execRodAcq rd rs1 s)
  | .waitGe rd rs1 rs2 rs3 => some (execWaitGe rd rs1 rs2 rs3 s)
  | .waitEq rd rs1 rs2 rs3 => some (execWaitEq rd rs1 rs2 rs3 s)
  | .bankArm rd rs1 rs2 => some (execBankArm rd rs1 rs2 s)
  | .bankDisarm rd rs1 => some (execBankDisarm rd rs1 s)
  | .cp2d rd rs1 rs2 rs3 => some (execCp2d rd rs1 rs2 rs3 s)
  | .cpMma rd rs1 => some (execCpMma rd rs1 s)
  | .cpChain rd rs1 rs2 => some (execCpChain rd rs1 rs2 s)
  | .scfg rd rs1 sid => some (execScfg rd rs1 sid s)
  | .msend rd rs1 rs2 => some (execMsend rd rs1 rs2 s)
  | .mreply rd rs1 rs2 => some (execMreply rd rs1 rs2 s)
  | .msendv vm vs3 vs2 rs1 => some (execMsendv vm vs3 vs2 rs1 s)
  | .aqpush rd rs1 rs2 => some (execAqpush rd rs1 rs2 s)
  | .chsend rd rs1 rs2 => some (execChsend rd rs1 rs2 s)
  | .vmpush vs1 => some (execVmpush vs1 s)
  | .vmelse => some (execVmelse s)
  | .vmpop => some (execVmpop s)
  | .vectorLoad nf mop vm rs2 rs1 width vd => some (execVectorLoad nf mop vm rs2 rs1 width vd s)
  | .vectorStore nf mop vm rs2 rs1 width vs3 => some (execVectorStore nf mop vm rs2 rs1 width vs3 s)
  | .vle8Inv vm vd rs1 => some (execVle8Inv vm vd rs1 s)
  | .vle16Inv vm vd rs1 => some (execVle16Inv vm vd rs1 s)
  | .vle32Inv vm vd rs1 => some (execVle32Inv vm vd rs1 s)
  | .vle64Inv vm vd rs1 => some (execVle64Inv vm vd rs1 s)
  | .vsmx vm vs3 rs1 vs2 => some (execVsmx vm vs3 rs1 vs2 s)
  | .vwait vm vd vs2 rs1 => some (execVwait vm vd vs2 rs1 s)
  | .texw vm vd vs2 rs1 => some (execTexw vm vd vs2 rs1 s)
  | .texS vm vd vs2 rs1 => some (execTexS vm vd vs2 rs1 s)
  | .texSa vm rd vs2 rs1 => some (execTexSa vm rd vs2 rs1 s)
  | .boxt vm vd vs2 rs1 => some (execBoxt vm vd vs2 rs1 s)
  | .trit vm vd vs2 rs1 => some (execTrit vm vd vs2 rs1 s)
  | .edge vm vd vs2 rs1 => some (execEdge vm vd vs2 rs1 s)
  | .pair g sense scalar vector => some (execPair g sense scalar vector s)
  | .ctxSave rd rs1 rs2 => some (execCtxSave rd rs1 rs2 s)
  | .ctxLoad rd rs1 rs2 => some (execCtxLoad rd rs1 rs2 s)
  | _ => none

/-- What a piece of work of a hart does when the boundary loses what it carries past its first n accesses; nothing where it carries none (log 24). -/
def State.tryLose (s : State) (b h n : Nat) (f : State → Host.Outcome State Fault Refusal) : State :=
  let s0 := s.switch h
  match f { s0 with dev := { s0.dev with cut := some (b, n, false) } } with
  | .next t =>
    match t.dev.cut with
    | some (_, _, true) => { t with dev := { t.dev with cut := none } }.switch s.hart
    | _ => s
  | _ => s

/-- The instruction at a hart's pc, if it accesses memory. -/
def State.accessAtPc (s : State) : Host.Outcome State Fault Refusal :=
  match s.mayIssue, s.fetch with
  | true, .ok i s1 => if s1.mustWait i then .next s else (accessOutcome i (s1.upd fun q => q.observe i)).getD (.next s)
  | _, _ => .next s

/-- The pieces of work that a hart's engines have in progress. -/
def State.engineWork (s : State) (h : Nat) : List (State → Host.Outcome State Fault Refusal) :=
  let q := s.getSeq h
  (q.copy.ops.map fun o => execCopyComplete h o.n) ++ (q.copy.chains.map fun c => execChainEntryStart h c.n) ++
    (if q.mat.ops.isEmpty then [] else [execMatrixOpComplete h]) ++ ((List.range 4).map fun i => execStreamFetch h i) ++
    (List.range (q.tex.length + (s.saved.filter fun x => x.hart == h).foldl (fun n x => n + x.seq.tex.length) 0)).map fun i => execTexSaComplete h i

/-- The transactions of a hart and of its engines that cross the boundary are lost, or not, as the instant finds them. -/
def State.loseAt (s : State) (b h : Nat) : State :=
  let one (st : State) (f : State → Host.Outcome State Fault Refusal) : State :=
    let d := st.draw
    if d.1.getLsbD 0 then d.2.tryLose b h ((d.1 >>> 8).toNat % 256) f else d.2
  ((if (s.getSeq h).run = .running then [State.accessAtPc] else []) ++ s.engineWork h).foldl one s

/-- A C–C boundary is declared failed. -/
def execLinkFailure (boundary : Nat) (s : State) : Host.Outcome State Fault Refusal :=
  .next (
    if 4 ≤ boundary ∨ s.dev.severed.contains boundary ∨ s.dev.rerouted.contains boundary then s
    else
      let s0 := s.loseWrites boundary s.coh.unsure
      let s1 := s0.harts.foldl (fun st h => st.loseAt boundary h) s0
      let s2 := s1.coh.rods.foldl (fun st p => st.loseRod boundary p) s1
      let s3 := (s2.cores.map (·.1)).foldl (fun st c => st.loseCore boundary c) s2
      let s4 := (s3.loseCopies boundary).loseMsgs boundary s3.net
      let s5 := (s4.launches.filter fun l => l.severed && !l.done).foldl (fun st l => st.severLaunch boundary l) s4
      { s5 with dev := { s5.dev with severed := insNat s5.dev.severed boundary } })

/-- Root has rerouted the traffic of a failed boundary. -/
def execRerouteComplete (boundary : Nat) (s : State) : Host.Outcome State Fault Refusal :=
  .next (
    if s.dev.severed.contains boundary then
      { s with dev := { s.dev with severed := s.dev.severed.filter (· ≠ boundary), rerouted := insNat s.dev.rerouted boundary } }
    else s)

end Sys2Proof.Machine
end

