-- ==== Sys2Proof/Machine/Loops.lean ====
section
/-! DEFINITION. Hardware loops (R91 to R95), bit interleave, counting and folding (R96 to R98). -/

namespace Sys2Proof.Machine

/-! ## Hardware loops -/

/-- Is the distance to END ill-formed: native imm 0 to 2, or a Lammel T not above the length or above 2^31 - 1 (R93)? -/
def badLoopOff (q : Seq) (off : Word) : Bool :=
  match q.latch.form with
  | .native => decide (off.toNat < 6)
  | .lammel => decide (off.toNat ≤ q.latch.len ∨ 2 ^ 31 ≤ off.toNat)

/-- loop and loopi: n iterations of the body that ends at PC + off. START and END are visible addresses (R69). -/
def loopEnter (s : State) (n off : Word) : Res (Word × Bool) :=
  let e := s.seq.pc + off
  if badLoopOff s.seq off then s.illegal
  else if n = 0 then .ok (e, true) s
  else if Config.loopDepth ≤ s.seq.loops.length then .trap 27 6 s
  else
    let entry : LoopEntry := { start := s.seePc s.hart s.nextPc, stop := s.seePc s.hart e, count := n, index := 0, mode := s.seq.mode }
    .ok (s.nextPc, false) (s.upd fun q => { q with loops := entry :: q.loops })

def execLoop (rs1 : Reg) (off : Word) (s : State) : Host.Outcome State Fault Refusal := finishAt (loopEnter s (s.x rs1) off)
def execLoopi (count : BitVec 10) (off : Word) (s : State) : Host.Outcome State Fault Refusal :=
  finishAt (loopEnter s (count.setWidth 64) off)

/-- Reads a field of loop-stack entry n, 0 where there is none (R94). -/
def loopRead (s : State) (rd : Reg) (n : BitVec 5) (f : LoopEntry → Word) : Res Unit :=
  if 6 ≤ n.toNat then s.illegal
  else .ok () (s.setX rd (match s.seq.loops[n.toNat]? with | some e => f e | none => 0))

def execLidx (rd : Reg) (n : BitVec 5) (s : State) : Host.Outcome State Fault Refusal := finish (loopRead s rd n (·.index))
def execLcnt (rd : Reg) (n : BitVec 5) (s : State) : Host.Outcome State Fault Refusal := finish (loopRead s rd n (·.count))
def execLdepth (rd : Reg) (s : State) : Host.Outcome State Fault Refusal :=
  finish (.ok () (s.setX rd (BitVec.ofNat 64 s.seq.loops.length)))

/-- The address to which control goes for a visible END: its translated counterpart in translated code (log 16). -/
def State.runPc (s : State) (a : Word) : Word := if s.inTrans s.hart s.seq.pc then Config.nativePc a else a

/-- lbrk leaves n + 1 loops and goes on at END of entry n (R94). -/
def execLbrk (n : BitVec 5) (s : State) : Host.Outcome State Fault Refusal :=
  finishAt (
    match s.seq.loops[n.toNat]? with
    | none => s.illegal
    | some e =>
      if (s.seq.loops.take (n.toNat + 1)).any fun x => x.mode != s.seq.mode then s.illegal
      else .ok (s.runPc e.stop, true) (s.upd fun q => { q with loops := q.loops.drop (n.toNat + 1) }))

/-! ## Interleave and fold -/

/-- Bits 0 .. n - 1 of a value moved to bits k * i. -/
def spread (k : Nat) (a : Word) : Nat → Word
  | 0 => 0
  | n + 1 => spread k a n ||| (if a.getLsbD n then (1 : Word) <<< (k * n) else 0)

/-- Every k-th bit from bit s, for result bits below n. -/
def gather (k s : Nat) (a : Word) : Nat → Word
  | 0 => 0
  | n + 1 => gather k s a n ||| (if k * n + s ≤ 63 ∧ a.getLsbD (k * n + s) then (1 : Word) <<< n else 0)

/-- XOR of the b-bit groups of a number, n groups. -/
def foldBits (a b : Nat) : Nat → Nat
  | 0 => 0
  | n + 1 => (a % 2 ^ b) ^^^ foldBits (a / 2 ^ b) b n

def evalBilv2 (a b : Word) : Word := spread 2 a 32 ||| (b <<< 1)
def evalBilv3 (a b : Word) : Word := spread 3 a 21 ||| (b <<< 1)
def evalBdlv2 (a b : Word) : Word := gather 2 (shAmt b) a 64
def evalBdlv3 (a b : Word) : Word := gather 3 (shAmt b) a 64
def evalFold (a b : Word) : Word := BitVec.ofNat 64 (foldBits a.toNat (if shAmt b = 0 then 64 else shAmt b) 64)
def evalClzx (a b d : Word) : Word :=
  BitVec.ofNat 64 (if a ^^^ b ≠ 0 then clzN 64 (a ^^^ b).toNat else 64 + clzN 64 d.toNat)

def execBilv2 (rd rs1 rs2 : Reg) (s : State) : Host.Outcome State Fault Refusal :=
  finish (.ok () (s.setX rd (evalBilv2 (s.x rs1) (s.x rs2))))
def execBilv3 (rd rs1 rs2 : Reg) (s : State) : Host.Outcome State Fault Refusal :=
  finish (.ok () (s.setX rd (evalBilv3 (s.x rs1) (s.x rs2))))
def execBdlv2 (rd rs1 rs2 : Reg) (s : State) : Host.Outcome State Fault Refusal :=
  finish (.ok () (s.setX rd (evalBdlv2 (s.x rs1) (s.x rs2))))
def execBdlv3 (rd rs1 rs2 : Reg) (s : State) : Host.Outcome State Fault Refusal :=
  finish (.ok () (s.setX rd (evalBdlv3 (s.x rs1) (s.x rs2))))
/-- clzx reads rd as a third source (R98). -/
def execClzx (rd rs1 rs2 : Reg) (s : State) : Host.Outcome State Fault Refusal :=
  finish (.ok () (s.setX rd (evalClzx (s.x rs1) (s.x rs2) (s.x rd))))
def execFold (rd rs1 rs2 : Reg) (s : State) : Host.Outcome State Fault Refusal :=
  finish (.ok () (s.setX rd (evalFold (s.x rs1) (s.x rs2))))

end Sys2Proof.Machine
end

