-- ==== Sys2Proof/Machine/Policy.lean ====
section
/-! DEFINITION. The runtime's default policy of pre-emption (R348), and the halt requests that it raises (R300). -/

namespace Sys2Proof.Machine

/-! ## A workgroup that waits (R45, R47) -/

/-- The first of some workgroups that no cluster takes, after those before it are placed. -/
def firstUnplaced (l : Launch) : List Nat → State → Option (State × Nat × List TaskSpec)
  | [], _ => none
  | o :: os, s =>
    if l.group o = [] then firstUnplaced l os s
    else match s.placeGroup l.id o (l.group o) with | some s1 => firstUnplaced l os s1 | none => some (s, o, l.group o)

/-- The workgroup for which a launch finds no eligible cluster, if it waits for one. -/
def State.waitsFor (s : State) (l : Launch) : Option (State × Nat × List TaskSpec) :=
  if !s.binds l then none
  else if l.kind = 2 then
    if l.cursor < l.total then
      let ts := [l.pipeSpec l.cursor]
      if (s.placeGroup l.id l.cursor ts).isNone then some (s, l.cursor, ts) else none
    else none
  else if l.os then
    if gridGroups l.header ≤ l.cursor then none
    else match l.runEnd (gridGroups l.header) l.cursor with
      | some e => firstUnplaced l ((List.range (e - l.cursor)).map fun i => l.cursor + i) s
      | none => none
  else
    let o := l.nextGroup 4096 l.cursor
    if gridGroups l.header ≤ o then none else firstUnplaced l [o] s

/-! ## The choice (R348) -/

/-- The PRIO under which a hart's task may be halted for a launch: that of its own queue, at least 2 below the EFFPRIO at which the launch was granted,
where no failed save bars it. -/
def State.haltable (s : State) (l : Launch) (h : Nat) : Option Nat :=
  let q := s.getSeq h
  match q.task.bind fun t => s.launch? t.launch with
  | some k =>
    match s.queue? k.part k.qid with
    | some u =>
      let prio := s.prioOf k
      if (q.run = .running ∨ q.run = .idle) ∧ q.halt.isNone ∧ u.noHalt = false ∧ k.part = l.part ∧ k.id ≠ l.id ∧ prio + 2 ≤ l.eff then some prio else none
    | none => none
  | none => none

/-- Inserts a hart by its PRIO, lowest first, and among equals the highest hart first. -/
def insVictim (v : Nat × Nat) : List (Nat × Nat) → List (Nat × Nat)
  | [] => [v]
  | x :: xs => if v.1 < x.1 ∨ (v.1 = x.1 ∧ x.2 < v.2) then v :: x :: xs else x :: insVictim v xs

/-- The harts that go with one: for a task of a launch with EXC every task of the launch on its core. -/
def State.haltGroup (s : State) (h : Nat) : List Nat :=
  match (s.getSeq h).task.bind fun t => s.launch? t.launch with
  | some k =>
    if k.exc then (List.range 4).map (fun i => 4 * coreOf h + i) |>.filter fun g =>
      match (s.getSeq g).task with | some t => t.launch == k.id | none => false
    else [h]
  | none => [h]

/-- The groups of tasks that may be halted on a cluster, in the order of the choice. -/
def State.victims (s : State) (l : Launch) (cluster : Nat) : List (List Nat) :=
  let vs := (bindOrder cluster).foldl (fun acc h => match s.haltable l h with | some p => insVictim (p, h) acc | none => acc) []
  (vs.foldl (fun (acc : List (List Nat)) v => if acc.any fun g => g.contains v.2 then acc else acc ++ [s.haltGroup v.2]) [])

/-- The state once the tasks of some harts are saved. -/
def State.vacated (s : State) (hs : List Nat) : State := hs.foldl (fun st h => st.toArea h (2 ^ 60 + h)) s

/-- Does the workgroup fit a cluster once some groups are saved? -/
def State.fitsAfter (s : State) (l : Launch) (wg : Nat) (ts : List TaskSpec) (c : Nat) (gs : List (List Nat)) : Bool :=
  ((s.vacated gs.flatten).bindGroup l wg ts c).isSome

/-- The shortest beginning of a list of groups that makes the workgroup fit. -/
def State.enough (s : State) (l : Launch) (wg : Nat) (ts : List TaskSpec) (c : Nat) : List (List Nat) → List (List Nat) → Option (List (List Nat))
  | [], got => if s.fitsAfter l wg ts c got then some got else none
  | g :: gs, got => if s.fitsAfter l wg ts c got then some got else s.enough l wg ts c gs (got ++ [g])

/-- Leaves out the groups that are not needed. -/
def State.needed (s : State) (l : Launch) (wg : Nat) (ts : List TaskSpec) (c : Nat) : List (List Nat) → List (List Nat) → List (List Nat)
  | [], got => got
  | g :: gs, got => let less := got.filter (· != g); s.needed l wg ts c gs (if s.fitsAfter l wg ts c less then less else got)

/-- The harts that are halting or halted already. -/
def State.halting (s : State) (c : Nat) : List Nat :=
  (bindOrder c).filter fun h => let q := s.getSeq h; q.task.isSome && (q.halt.isSome || q.run == .halted)

/-- The harts that the policy halts for a launch: on the lowest cluster where that makes its workgroup fit. -/
def State.haltsFor (s : State) (l : Launch) : List Nat :=
  match s.waitsFor l with
  | none => []
  | some (s1, wg, ts) =>
    (((List.range 64).filter fun c => (s1.clustersFor l).contains c).findSome? fun c =>
      let s2 := s1.vacated (s1.halting c)
      (s2.enough l wg ts c (s1.victims l c) []).map fun got => (s2.needed l wg ts c got.reverse got).flatten).getD []

/-- The harts that the policy halts: for the waiting launch granted at the highest EFFPRIO, the earliest among equals (log 72). -/
def State.policyHalts (s : State) : List Nat :=
  let waiting := s.launches.filter fun l => s.binds l && (s.waitsFor l).isSome
  let top := waiting.foldl (fun n l => max n l.eff) 0
  match (waiting.filter fun l => l.eff == top).head? with
  | some l => s.haltsFor l
  | none => []

/-- The runtime raises a halt request: for a launch that waits only where the policy chooses the hart, and else as the runtime wants it, for instance to move
the context (R105, R300, R348; log 72). -/
def execHaltRequest (hart : Nat) (s : State) : Host.Outcome State Fault Refusal :=
  .next (
    let chosen := s.policyHalts
    if hart < 4096 ∧ (chosen = [] ∨ chosen.contains hart) then s.askHalt hart else s)

end Sys2Proof.Machine
end

