-- ==== Sys2Proof/Machine/Image.lean ====
section
/-! DEFINITION. What root reads of a code object (R10 to R12, R57, R71): the ELF64 file, its sections and the page manifest. -/

namespace Sys2Proof.Machine

/-! ## Root's reads of a partition's memory -/

/-- Does a partition own every granule of a physical range of HBM? -/
def State.ownsRange (s : State) (part a n : Nat) : Bool :=
  match s.part part with
  | none => false
  | some p => decide (a + n ≤ Config.hbmBytes) && (List.range ((a + n - 1) / 2 ^ 30 + 1 - a / 2 ^ 30)).all fun i => p.granules.getLsbD (a / 2 ^ 30 + i)

/-- Bytes that a command's argument points to, at a physical address in the partition's HBM (log 33). -/
def State.rootGet (s : State) (part a n : Nat) : Option (List Byte) :=
  if s.ownsRange part a n ∧ s.poisoned a n = false then some (memRead s.mem a n) else none

def State.rootNum (s : State) (part a n : Nat) : Option Nat := (s.rootGet part a n).map leNat

/-! ## ELF64 (R10; the file format is the family's, log 33) -/

/-- A section: its name's offset, flags, address, place in the file, size. -/
structure Section where
  name  : Nat
  flags : Nat
  addr  : Nat
  off   : Nat
  size  : Nat
deriving DecidableEq, Repr

def sectionOf (b : List Byte) : Section := ⟨fld b 0 4, fld b 8 8, fld b 0x10 8, fld b 0x18 8, fld b 0x20 8⟩

/-- The NUL-terminated string at an address, at most n bytes. -/
def State.stringAt (s : State) (part a : Nat) : Nat → List Byte
  | 0 => []
  | n + 1 =>
    match s.rootGet part a 1 with
    | some [b] => if b = 0 then [] else b :: s.stringAt part (a + 1) n
    | _ => []

/-- The ASCII bytes of a name. -/
def ascii (n : String) : List Byte := n.toList.map fun c => BitVec.ofNat 8 c.toNat

/-- An ELF64 file at a physical address: its sections with their names. -/
structure Image where
  base : Nat
  secs : List (List Byte × Section)
deriving DecidableEq, Repr

/-- Reads the section headers of a Salica code object. -/
def State.readImage (s : State) (part a : Nat) : Option Image :=
  match s.rootGet part a 64 with
  | none => none
  | some h =>
    if fld h 0 4 ≠ 0x464C457F ∨ fld h 4 1 ≠ 2 ∨ fld h 5 1 ≠ 1 ∨ fld h 0x12 2 ≠ 0xDF08 ∨ fld h 0x30 2 ≠ 1 then none
    else
      let sec (i : Nat) : Option Section := (s.rootGet part (a + fld h 0x28 8 + i * fld h 0x3A 2) 64).map sectionOf
      match sec (fld h 0x3E 2) with
      | none => none
      | some str =>
        some { base := a, secs := (List.range (fld h 0x3C 2)).filterMap fun i =>
          (sec i).map fun x => (s.stringAt part (a + str.off + x.name) 64, x) }

def Image.sec (im : Image) (n : String) : Option Section := (im.secs.find? fun p => p.1 == ascii n).map (·.2)

/-- The bytes of a section. -/
def State.secBytes (s : State) (part : Nat) (im : Image) (x : Section) : Option (List Byte) := s.rootGet part (im.base + x.off) x.size

/-! ## The manifest (R11) and kernel names (R12) -/

/-- NPAGE, CBASE, the hashes, the signed bytes and the signature. -/
structure Manifest where
  npage  : Nat
  cbase  : Nat
  hashes : List (BitVec 256)
  signed : List Byte
  sig    : List Byte
deriving DecidableEq, Repr

def manifestOf (b : List Byte) : Option Manifest :=
  let n := fld b 4 4
  if fld b 0 4 ≠ 1 ∨ b.length < 0x10 + 32 * n then none
  else
    some { npage := n, cbase := fld b 8 8, signed := b.take (0x10 + 32 * n), sig := b.drop (0x10 + 32 * n),
           hashes := (List.range n).map fun i => BitVec.ofNat 256 (fld b (0x10 + 32 * i) 32) }

/-- The executable section in whose pages an address lies. -/
def Image.execAt (im : Image) (va : Nat) : Option Section :=
  (im.secs.find? fun p => p.2.flags / 4 % 2 == 1 && decide (p.2.addr ≤ va ∧ va < p.2.addr + p.2.size)).map (·.2)

/-- The address range of a section, (0, 0) where there is none. -/
def Image.range (im : Image) (n : String) : Nat × Nat := match im.sec n with | some x => (x.addr, x.size) | none => (0, 0)

/-- The name of each kernel record. -/
def State.kernelNames (s : State) (part : Nat) (im : Image) : List (List Byte) :=
  match im.sec ".salica.kinfo", im.sec ".strtab" with
  | some k, some t =>
    (List.range (k.size / 32)).map fun i =>
      s.stringAt part (im.base + t.off + (s.rootNum part (im.base + k.off + 32 * i + 0x10) 4).getD 0) 4096
  | _, _ => []

/-! ## Placing an object (R57, R71) -/

/-- The physical place of a virtual address of a section: root maps an object where its image lies (log 62). -/
def Image.place (im : Image) (x : Section) (va : Nat) : Nat := im.base + x.off + (va - x.addr)

/-- The physical page of a code page: none where it lies in no executable section (R11). -/
def Image.codePage (im : Image) (va : Nat) : Option Nat := (im.execAt va).map fun x => im.place x va

/-- Is an image one of R10: its executable sections aligned to 4 KiB, as addresses and in memory, with code in some form, a manifest, kernel records,
and a dispatch table with Lammel code? -/
def Image.wellMade (im : Image) : Bool :=
  (im.secs.all fun p => p.2.flags / 4 % 2 == 0 || (p.2.addr % 4096 == 0 && (im.base + p.2.off) % 4096 == 0)) &&
    ((im.sec ".salica.lammel").isSome || (im.sec ".salica.native").isSome) && (im.sec ".salica.kinfo").isSome &&
    ((im.sec ".salica.lammel").isNone || (im.sec ".salica.dtab").isSome)

/-- A section that root maps read-only: its address, bytes and place. -/
def Image.dataOf (im : Image) (n : String) : List (Nat × Nat × Nat) :=
  match im.sec n with | some x => [(x.addr, x.size, im.place x x.addr)] | none => []

/-- Where root allocates n bytes of a partition's HBM: a page of one of its granules, else free (log 62). -/
def Part.freePlace (p : Part) (w n : Nat) : Nat :=
  let gs := (List.range 768).filter fun g => p.granules.getLsbD g
  gs.getD (w % (max 1 gs.length)) 0 * 2 ^ 30 + w / 2 ^ 16 % (max 1 (2 ^ 18 - (n + 4095) / 4096)) * 4096

/-- Loads an object at a generation; none where its signature or its form is refused. The addresses of the descriptor and of the translation area, and the
area's place in the partition's HBM, are root's to choose: free values (log 8). -/
def State.placeObject (s : State) (part a tsize gen : Nat) : Option (Nat × State) :=
  match s.part part, s.readImage part a with
  | some p, some im =>
    match (im.sec ".salica.manifest").bind fun x => (s.secBytes part im x).bind manifestOf with
    | none => none
    | some m =>
      if Config.lmsVerify p.codeKey m.signed m.sig = false ∨ !im.wellMade ∨ m.cbase % 4096 ≠ 0 then none
      else
        let (w1, s1) := s.draw
        let (w2, s2) := s1.draw
        let (w3, s3) := s2.draw
        let lam := im.range ".salica.lammel"
        let dtab := im.range ".salica.dtab"
        let bytes := if tsize = 0 then (2 * lam.2 + 4095) / 4096 * 4096 else tsize
        let o : Obj :=
          { part := part, cbase := m.cbase, phys := (List.range m.npage).map fun i => im.codePage (m.cbase + 4096 * i), hashes := m.hashes,
            pages := List.replicate m.npage .unverified, lammel := lam, native := im.range ".salica.native", kinfo := im.range ".salica.kinfo",
            names := s.kernelNames part im, gen := gen, desc := w1.toNat % 2 ^ 50 * 64, dtab := dtab.1, ndtab := dtab.2 / 32,
            dtabPa := ((im.sec ".salica.dtab").map fun x => im.place x x.addr).getD 0, data := im.dataOf ".salica.kinfo" ++ im.dataOf ".salica.htab",
            tarea := w2.toNat % 2 ^ 44 * 4096, tareaPa := p.freePlace w3.toNat bytes, tsize := bytes, xonly := [], quarantined := false, retired := none,
            newObj := none, freed := false }
        some (o.desc, { s3 with objs := s3.objs ++ [o] })
  | _, _ => none

end Sys2Proof.Machine
end

