-- ==== Sys2Proof/Machine/Root.lean ====
section
/-! DEFINITION. Morah root's commands (R329 to R332). -/

namespace Sys2Proof.Machine

/-! ## Performing a command -/

/-- Commands only partition 0 may issue. -/
def managementOnly (code : Nat) : Bool := code == 11 || code == 12 || code == 13 || code == 15 || code == 18

def Part.arg (p : Part) (i : Nat) : Nat := leNat (p.mailRead (0x10 + 8 * i) 8)

/-- A command is over: it leaves the line, is answered, and the next one comes up. -/
def State.endCmd (s : State) (part status addr : Nat) : State :=
  let s1 := (s.modPart part fun p => { p with cmds := p.cmds.drop 1 }).rootAnswer part status addr
  State.nextCmd part (((s1.part part).map (·.cmds.length)).getD 0) s1

/-- The command at the head of a partition's line, performed by f unless R329 refuses it. -/
def State.onCommand (s : State) (part code : Nat) (f : Part → State) : Host.Outcome State Fault Refusal :=
  .next (
    match s.part part with
    | none => s
    | some p =>
      if p.cmds.head? ≠ some code then s
      else if leNat (p.mailRead 0x08 8) ≠ code ∨ (managementOnly code ∧ part ≠ 0) then s.endCmd part 8 0
      else f p)

/-- A command waits: it stays in line. -/
def State.waitCmd (s : State) (part code : Nat) : State :=
  match rootEvent part code with
  | some i => { s with agenda := s.agenda ++ [.event i] }
  | none => s

/-- A command that is answered: f gives the status, EVENT 6's ADDR and the state; none is a wait. -/
def State.command (s : State) (part code : Nat) (f : Part → Option (Nat × Nat × State)) : Host.Outcome State Fault Refusal :=
  s.onCommand part code fun p =>
    match f p with
    | some (status, addr, s1) => s1.endCmd part status addr
    | none => s.waitCmd part code

/-! ## Signatures (R330) -/

/-- Does a key name a parameter set that root accepts (RFC 8554's numbers; log 10)? -/
def keyOk (key : List Byte) : Bool :=
  let t := leNat (key.take 4).reverse
  decide (5 ≤ t ∧ t ≤ 8) && leNat ((key.drop 4).take 4).reverse == 4

/-- The mailbox's signature over its command and the structures pointed to, under the owner key, with a leaf above the last one
accepted: the leaf. -/
def State.signedBy (s : State) (p : Part) (body : List Byte) : Option Nat :=
  match s.dev.ownerKey with
  | none => none
  | some key =>
    let n := leNat (p.mailRead 0x80 8)
    let sig := p.mailRead 0x800 (min n 2048)
    let q := leNat (sig.take 4).reverse
    let fresh : Bool := s.dev.ownerQ.all fun x => x.1 != key || decide (x.2 < q)
    if n ≤ 2048 ∧ keyOk key ∧ fresh ∧ Config.lmsVerify key (p.mailRead 0x08 0x80 ++ body) sig then some q else none

/-- The highest leaf accepted under the owner key; root keeps one for each key that has been the owner's. -/
def State.useLeaf (s : State) (q : Nat) : State :=
  match s.dev.ownerKey with
  | some key => { s with dev := { s.dev with ownerQ := s.dev.ownerQ.filter (·.1 != key) ++ [(key, q)] } }
  | none => s

/-! ## Objects (R57, R61) -/

/-- The loaded object of a partition with a descriptor address. -/
def State.objAt (s : State) (part desc : Nat) : Option (Nat × Obj) :=
  (s.objs.zipIdx.find? fun p => p.1.part == part && p.1.desc == desc && p.1.retired.isNone && !p.1.freed).map fun p => (p.2, p.1)

def execLoadObject (part : Nat) (s : State) : Host.Outcome State Fault Refusal :=
  s.command part 1 fun p =>
    match s.placeObject part (p.arg 0) (p.arg 1) (p.gen + 1) with
    | some (d, s1) => some (0, d, s1.modPart part fun x => { x with gen := p.gen + 1 })
    | none => some (1, 0, s)

/-- An object is retired at a generation, in favour of another or none. -/
def State.retireObj (s : State) (i gen : Nat) (new : Option Nat) : State := s.modObj i fun x => { x with retired := some gen, newObj := new }

def execUnload (part : Nat) (s : State) : Host.Outcome State Fault Refusal :=
  s.command part 2 fun p =>
    match s.objAt part (p.arg 0) with
    | none => some (2, 0, s)
    | some (i, _) => some (0, 0, (s.retireObj i (p.gen + 1) none).modPart part fun x => { x with gen := p.gen + 1 })

/-- A refused signature is answered as a load's (log 33). -/
def execReplace (part : Nat) (s : State) : Host.Outcome State Fault Refusal :=
  s.command part 3 fun p =>
    match s.objAt part (p.arg 0) with
    | none => some (2, 0, s)
    | some (i, _) =>
      match s.placeObject part (p.arg 1) (p.arg 2) (p.gen + 1) with
      | none => some (1, 0, s)
      | some (d, s1) => some (0, d, (s1.retireObj i (p.gen + 1) (some (s1.objs.length - 1))).modPart part fun x => { x with gen := p.gen + 1 })

/-! ## Queues (R27) -/

/-- A queue new to the table: no thread, nothing read of its QCB yet. -/
def Queue.fresh (part qid qcb now : Nat) : Queue :=
  { part := part, qid := qid, qcb := qcb, thread := none, cfg := none, cfgOk := false, bad := false, rdidx := 0, qstate := .empty, effprio := 0,
    age := 0, lastGrant := 0, grantEff := 0, errcnt := 0, seqword := none, waitFrom := none, waiting := now, postErr := [], granted := false, noHalt := false, hand := .none }

/-- A QID of 4,096 or more is answered with status 3, and a QCB address that is not 256-byte aligned is taken as it is (log 33). -/
def execCreateQueue (part : Nat) (s : State) : Host.Outcome State Fault Refusal :=
  s.command part 4 fun p =>
    let qid := p.arg 0
    if 4096 ≤ qid ∨ (aget p.queues qid).isSome then some (3, 0, s)
    else
      let s1 := s.modPart part fun x => { x with queues := aput x.queues qid (p.arg 1) }
      some (0, 0, { s1 with qp := { s1.qp with queues := s1.qp.queues ++ [Queue.fresh part qid (p.arg 1) s.time] } })

/-- A queue leaves the table with its own writes that wait; its running launches go on, and so do their reports (log 33). -/
def execDestroyQueue (part : Nat) (s : State) : Host.Outcome State Fault Refusal :=
  s.command part 5 fun p =>
    let qid := p.arg 0
    if (aget p.queues qid).isNone then some (3, 0, s)
    else
      let s1 := (s.modPart part fun x => { x with queues := adel x.queues qid }).releaseRods (.queue part qid)
      let own (w : FrontWork) : Bool := w.part == part && w.qid == qid && match w.why with | .report _ => false | _ => true
      some (0, 0, { s1 with qp := { s1.qp with queues := s1.qp.queues.filter fun q => !(q.part == part && q.qid == qid) },
                            front := s1.front.filter fun w => !own w })

/-! ## Settings (R54, R213, R222, R316, R327) -/

def execSetLease (part : Nat) (s : State) : Host.Outcome State Fault Refusal :=
  s.command part 6 fun p =>
    if 1000 ≤ p.arg 0 ∧ p.arg 0 ≤ 1000000 then some (0, 0, s.modPart part fun x => { x with lease := p.arg 0 }) else some (4, 0, s)

/-- The index of a log that is new at its place counts from 0 (log 33). -/
def execSetLog (part : Nat) (s : State) : Host.Outcome State Fault Refusal :=
  s.command part 7 fun p =>
    let base := p.arg 0
    let log2 := p.arg 1
    if 6 ≤ log2 ∧ log2 ≤ 16 ∧ base % 64 = 0 ∧ s.ownsRange part base (64 * (1 + 2 ^ log2)) then
      some (0, 0, (s.modPart part fun x => { x with logBase := base, logLog2 := log2 }).rootPut base (leBytes 8 0))
    else some (4, 0, s)

/-- Writes back and invalidates the partition's lines, and its translations (R54; the whole partition's, log 33). -/
def State.flushPart (s : State) (part : Nat) (p : Part) : State :=
  let cores := (List.range 1024).filter fun c => p.clusters.getLsbD (clusterOf c)
  let s1 := cores.foldl (fun st c => (st.pFlush c fun _ => true).copyDrop c fun _ => true) s
  let words := (s1.coh.beads.filter fun b => p.granules.getLsbD (b.1 / 2 ^ 30)).map (·.1)
  let s2 := words.foldl (fun st w => st.reckonWord w none) s1
  ((List.range 64).filter p.clusters.getLsbD).foldl (fun st k => st.tlbDrop k (sfenceMatch part none none))
    { s2 with coh := { s2.coh with dir := s2.coh.dir.filter fun d => !p.granules.getLsbD (128 * d.1 / 2 ^ 30) } }

/-- Does a matrix operation of a partition hold rows translated at its issue, so that the sfence.vma of a homing change waits (R142)? -/
def State.rowsHeldIn (s : State) (part : Nat) (p : Part) : Bool :=
  (List.range 64).any fun k => p.clusters.getLsbD k && s.rowsHeld k part none

def homeEntryOf (b : List Byte) : HomeEntry :=
  { ctrl := BitVec.ofNat 32 (fld b 0 4), mask := BitVec.ofNat 256 (fld b 8 32), rsv := fld b 4 4 != 0 || fld b 0x28 24 != 0 }

def execWriteHomingEntry (part : Nat) (s : State) : Host.Outcome State Fault Refusal :=
  s.command part 8 fun p =>
    match (if p.arg 0 < 128 then s.rootGet part (p.arg 1) 64 else none) with
    | none => some (4, 0, s)
    | some b => if s.rowsHeldIn part p then none else some (0, 0, (s.flushPart part p).modPart part fun x => { x with homing := aput x.homing (p.arg 0) (homeEntryOf b) })

def execSetParkPool (part : Nat) (s : State) : Host.Outcome State Fault Refusal :=
  s.command part 16 fun p =>
    let base := p.arg 0
    let log2 := p.arg 1
    if log2 < 8 ∨ 20 < log2 ∨ base % 2 ^ 21 ≠ 0 ∨ !s.ownsRange part base (2048 * 2 ^ log2) then some (4, 0, s)
    else if s.poolUse part ≠ [] then none
    else some (0, 0, s.modPart part fun x => { x with parkBase := base, parkLog2 := log2 })

def execSetPeerEntry (part : Nat) (s : State) : Host.Outcome State Fault Refusal :=
  s.command part 17 fun p =>
    match (if p.arg 0 ≤ 191 then s.rootGet part (p.arg 1) 32 else none) with
    | none => some (4, 0, s)
    | some b => some (0, 0, s.modPart part fun x => { x with peers := aput x.peers (p.arg 0) { valid := fld b 0 1 % 2 == 1, raw := b } })

/-! ## Partition reset (R225, R332) -/

/-- The cores, agents and other things of a partition. -/
def Part.cores (p : Part) : List Nat := (List.range 1024).filter fun c => p.clusters.getLsbD (clusterOf c)

/-- A core's own state at a reset. -/
def State.clearCore (s : State) (c : Nat) : State :=
  s.setCore c { Core.reset with dis := (s.core c).dis, fenced := (s.core c).fenced, inc := (s.core c).inc + 1 }

/-- The orderly reset of a core (R225): the Bead words it holds partials for are reckoned, its P lines written back, its rods and reservations released; only then
are its caches cleared. -/
def State.resetCore (s : State) (c : Nat) : State :=
  let words := (s.coh.beads.filter fun b => b.2.parts.any fun q => q.core == c).map (·.1)
  let s1 := (words.foldl (fun st w => st.reckonWord w none) s).pFlush c fun _ => true
  let s2 := (s1.rodsOfCore c).foldl (fun st r => match r.2.holder with | some h => st.releaseRod r.1 h | none => st)
    ((s1.dropCopies c).copyDrop c fun _ => true)
  s2.clearCore c

/-- The reset of a core of a die that is cut off, which cannot answer (R225): its records have ended as those of a party that rejoins. -/
def State.endCore (s : State) (c : Nat) : State := if s.dev.cutOff (dieOf c) then s.clearCore c else s.resetCore c

/-- Zeroes the scratch of a core. -/
def State.zeroScratch (s : State) (c : Nat) : State :=
  let a := Config.scratchBase + c * 2 ^ 18
  { s with mem := s.mem.filter fun x => !(decide (a ≤ x.1) && decide (x.1 < a + 2 ^ 18)),
           coh := { s.coh with poison := s.coh.poison.filter fun k => !(decide (a ≤ 32 * k) && decide (32 * k < a + 2 ^ 18)) } }

/-- A launch ends with STATUS 0x31. -/
def State.resetLaunch (s : State) (l : Launch) : State :=
  let s1 := (s.modLaunch l.id fun x => { x with reset := true }).discardTasks l.id
  match s1.launch? l.id with | some x => s1.completeLaunch x | none => s1

/-- Step 1: the partition is isolated and its queues take no packets. The time of a WAIT at RDIDX goes on (R36). The records of its cores that cannot answer
end as R227 says (R225). -/
def State.isolate (s0 : State) (part : Nat) (p : Part) : State :=
  let s := (p.cores.filter fun c => s0.dev.cutOff (dieOf c)).foldl (fun st c => st.rejoinCore c) s0
  { s.modPart part fun x => { x with isolated := true } with
    qp := { s.qp with queues := s.qp.queues.map fun q => if q.part = part then { q with qstate := .stopped, granted := false, hand := .none } else q,
                      hub := s.qp.hub.filter fun c => c.part != part } }

/-- Steps 2 and 3: every task and saved context ends, and every launch completes once what the front end writes for it is written. -/
def State.resetLaunches (s : State) (part : Nat) : State :=
  (s.launches.filter fun l => l.part == part && !l.done).foldl (fun st l => st.resetLaunch l) s

/-- The rods of the partition's queues, supervisor harts and agents are released (R225). -/
def State.releasePart (s : State) (part : Nat) (p : Part) : State :=
  let s1 := (s.qp.queues.filter fun q => q.part == part).foldl (fun st q => st.releaseRods (.queue part q.qid)) s
  let s2 := ((List.range 64).filter fun c => p.clusters.getLsbD c).foldl (fun st c => st.releaseRods (.ctx (ctxOf (st.getSeq (supervisorOf c)) (supervisorOf c)))) s1
  ((List.range 64).filter fun a => p.agents.getLsbD a).foldl (fun st a => st.releaseRods (.agent a)) s2

/-- Steps 4 and 5. Loaded objects go, since GEN starts again at 1 (R61; log 33). Messages that are whole in a source buffer travel on (R249). -/
def State.clearPart (s : State) (part : Nat) (p : Part) : State :=
  let s1 := p.cores.foldl (fun st c => (st.endCore c).zeroScratch c) (s.releasePart part p)
  let s2 := ((List.range 64).filter fun a => p.agents.getLsbD a).foldl (fun st a => st.agentReset a) s1
  { s2.modPart part fun x => { x with gen := 1, isolated := false } with
    objs := s2.objs.map fun o => if o.part = part then { o with freed := true } else o
    old := s2.old.map fun b => if b.part = part then { b with freed := true } else b }

/-- A partition reset, as far as one firing takes it, and whether it is over (R224, R332): it isolates the partition, then completes its launches, and clears the
partition once all of them are complete. -/
def State.resetPart (s : State) (part : Nat) (p : Part) : State × Bool :=
  if p.isolated = false then (s.isolate part p, false)
  else
    let s1 := s.resetLaunches part
    if s1.launches.any fun l => l.part == part && !l.done then (s1, false) else (s1.clearPart part p, true)

def execResetPartition (part : Nat) (s : State) : Host.Outcome State Fault Refusal :=
  s.onCommand part 9 fun p =>
    let r := s.resetPart part p
    if r.2 then r.1.endCmd part 0 0 else r.1.waitCmd part 9

/-! ## The partition map (R328, R331) -/

/-- Does a range of len bytes touch granule g? -/
def touchesGranule (g base len : Nat) : Bool := decide (base < (g + 1) * 2 ^ 30) && decide (g * 2 ^ 30 < base + len)

/-- Is a cluster, granule or agent of partition 0 idle? A granule is, when no object, error log or park pool lies in it (log 33). -/
def State.clusterIdle (s : State) (c : Nat) : Bool :=
  (s.harts.all fun h => isSupervisor h || hartCluster h != c || (s.getSeq h).task.isNone) && s.saved.all fun x => hartCluster x.hart != c
def State.granuleIdle (s : State) (p : Part) (g : Nat) : Bool :=
  (s.objs.all fun o => o.freed || (!touchesGranule g o.tareaPa o.tsize && o.phys.all fun a => match a with | some x => x / 2 ^ 30 != g | none => true)) &&
    !touchesGranule g p.logBase (64 * (1 + 2 ^ p.logLog2)) && !touchesGranule g p.parkBase (2048 * 2 ^ p.parkLog2)
def State.agentIdle (s : State) (a : Nat) : Bool := !(s.agent a).en && (s.agent a).inProgress.isEmpty

/-- The lowest and the highest set bit of a mask of granules. -/
def lowGranule (g : BitVec 768) : Nat := ((List.range 768).find? fun i => g.getLsbD i).getD 0
def highGranule (g : BitVec 768) : Nat := ((List.range 768).filter fun i => g.getLsbD i).getLast?.getD 0

/-- A partition as R331 leaves it at its creation; R222 places the park pool. -/
def Part.made (clusters : BitVec 64) (granules : BitVec 768) (agents : BitVec 64) (mac : BitVec 48) (vlan : BitVec 12) (key : List Byte) : Part :=
  { clusters := clusters, granules := granules, agents := agents, mac := mac, vlan := vlan, codeKey := key, queues := [], homing := [],
    lease := Config.defaultLease, logBase := lowGranule granules * 2 ^ 30, logLog2 := 6, parkBase := (highGranule granules + 1) * 2 ^ 30 - 2 ^ 23,
    parkLog2 := 12, peers := [], gen := 1, mailbox := [], cmds := [], isolated := false }

/-- The partition that a descriptor names, and its number. -/
def descPart (b : List Byte) : Nat × Part :=
  (fld b 0 1, Part.made (BitVec.ofNat 64 (fld b 8 8)) (BitVec.ofNat 768 (fld b 0x10 96)) (BitVec.ofNat 64 (fld b 0x70 8)) (BitVec.ofNat 48 (fld b 0x78 6))
    (BitVec.ofNat 12 (fld b 0x7E 2)) ((b.drop 0x80).take 56))

/-- May the partition of a descriptor be created? One with no granule may not: its log and its park pool have no place (R222, R331; log 76). -/
def State.canCreate (s : State) (zero : Part) (b : List Byte) : Bool :=
  let (n, p) := descPart b
  decide (1 ≤ n ∧ n ≤ 15) && (s.part n).isNone && p.granules != 0 &&
    (p.clusters &&& ~~~zero.clusters) == 0 && (p.granules &&& ~~~zero.granules) == 0 && (p.agents &&& ~~~zero.agents) == 0 &&
    ((List.range 64).all fun c => !p.clusters.getLsbD c || s.clusterIdle c) && ((List.range 768).all fun g => !p.granules.getLsbD g || s.granuleIdle zero g) &&
    ((List.range 64).all fun a => !p.agents.getLsbD a || s.agentIdle a) && s.parts.all fun q => !(q.2.mac == p.mac && q.2.vlan == p.vlan)

def execCreatePartition (part : Nat) (s : State) : Host.Outcome State Fault Refusal :=
  s.command part 12 fun p =>
    match s.rootGet part (p.arg 0) 256 with
    | none => some (6, 0, s)
    | some b =>
      match s.signedBy p b with
      | none => some (7, 0, s)
      | some q =>
        let s1 := s.useLeaf q
        if keyOk (descPart b).2.codeKey = false then some (7, 0, s1)
        else if s1.canCreate p b = false then some (6, 0, s1)
        else
          let (n, x) := descPart b
          let s2 := (s1.modPart 0 fun z =>
            { z with clusters := z.clusters &&& ~~~x.clusters, granules := z.granules &&& ~~~x.granules, agents := z.agents &&& ~~~x.agents }).setPart n x
          some (0, 0, (x.cores.foldl (fun st c => st.zeroScratch c) s2).rootPut x.logBase (leBytes 8 0))

/-- Zeroes a partition's granules. -/
def State.zeroGranules (s : State) (p : Part) : State :=
  { s with mem := s.mem.filter fun x => !(decide (x.1 < Config.hbmBytes) && p.granules.getLsbD (x.1 / 2 ^ 30)),
           coh := { s.coh with poison := s.coh.poison.filter fun k => !(decide (32 * k < Config.hbmBytes) && p.granules.getLsbD (32 * k / 2 ^ 30)),
                               beads := s.coh.beads.filter fun b => !p.granules.getLsbD (b.1 / 2 ^ 30),
                               away := s.coh.away.filter fun w => !p.granules.getLsbD (128 * w.1 / 2 ^ 30),
                               dir := s.coh.dir.filter fun d => !p.granules.getLsbD (128 * d.1 / 2 ^ 30),
                               rods := s.coh.rods.filter fun r => !p.granules.getLsbD (4096 * r.1 / 2 ^ 30),
                               plocal := s.coh.plocal.filter fun x => !(decide (x.1.2 < Config.hbmBytes) && p.granules.getLsbD (x.1.2 / 2 ^ 30)) } }

/-- The granules are zeroed and the partition's resources go back to partition 0. -/
def State.endPart (s : State) (n : Nat) (x : Part) : State :=
  let s1 := (s.zeroGranules x).modPart 0 fun z =>
    { z with clusters := z.clusters ||| x.clusters, granules := z.granules ||| x.granules, agents := z.agents ||| x.agents }
  { s1 with parts := adel s1.parts n, qp := { s1.qp with queues := s1.qp.queues.filter fun q => q.part != n },
            host := { s1.host with flows := s1.host.flows.filter fun f => f.part != n } }

/-- The signature's leaf is used when the command is answered. -/
def execDestroyPartition (part : Nat) (s : State) : Host.Outcome State Fault Refusal :=
  s.onCommand part 13 fun p =>
    match s.signedBy p [] with
    | none => s.endCmd part 7 0
    | some q =>
      let n := p.arg 0
      match s.part n with
      | none => (s.useLeaf q).endCmd part 6 0
      | some x =>
        if n = 0 then (s.useLeaf q).endCmd part 6 0
        else
          let r := s.resetPart n x
          if r.2 then ((r.1.endPart n x).useLeaf q).endCmd part 0 0 else r.1.waitCmd part 13

/-! ## Keys, attestation, firmware (R43, R329, R330) -/

def execSetCodeKey (part : Nat) (s : State) : Host.Outcome State Fault Refusal :=
  s.command part 14 fun p =>
    match s.rootGet part (p.arg 1) 56 with
    | none => some (7, 0, s)
    | some key =>
      match s.signedBy p key with
      | none => some (7, 0, s)
      | some q =>
        let s1 := s.useLeaf q
        if keyOk key = false then some (7, 0, s1)
        else if (s1.part (p.arg 0)).isNone ∨ (part ≠ 0 ∧ p.arg 0 ≠ part) then some (6, 0, s1)
        else some (0, 0, s1.modPart (p.arg 0) fun x => { x with codeKey := key })

/-- Unsigned while no owner key is set. -/
def execSetOwnerKey (part : Nat) (s : State) : Host.Outcome State Fault Refusal :=
  s.command part 15 fun p =>
    match s.rootGet part (p.arg 0) 56 with
    | none => some (7, 0, s)
    | some key =>
      let own (st : State) : Nat × Nat × State :=
        if keyOk key then (0, 0, { st with dev := { st.dev with ownerKey := some key } }) else (7, 0, st)
      match s.dev.ownerKey, s.signedBy p key with
      | none, _ => some (own s)
      | some _, some q => some (own (s.useLeaf q))
      | some _, none => some (7, 0, s)

/-- The report's layout is not in the spec: it is a free value of the nonce (log 10). -/
def execAttest (part : Nat) (s : State) : Host.Outcome State Fault Refusal :=
  s.command part 10 fun p =>
    match s.rootGet part (p.arg 0) 32 with
    | none => some (0, 0, s)
    | some nonce =>
      let r := Config.attestSign nonce
      some (0, 0, if s.ownsRange part (p.arg 1) r.length then s.rootPut (p.arg 1) r else s)

/-- The version at the head of a save area. -/
def State.areaVersion (s : State) (x : Saved) : Nat := leNat (memRead s.mem x.area 4)

/-- The queue of a saved context. -/
def State.savedQid (s : State) (x : Saved) : Nat :=
  match x.seq.task with | some t => ((s.launch? t.launch).map (·.qid)).getD noQid | none => noQid

/-- The image lists the version it writes, the two before it, and what else it can resume (R43; log 10). -/
def execActivateFirmware (part : Nat) (s : State) : Host.Outcome State Fault Refusal :=
  s.command part 11 fun _ =>
    let (w, s1) := s.draw
    let v := Config.imageWrites w % 2 ^ 32
    let lists := [v, v - 1, v - 2] ++ Config.imageResumes w
    let bad := (s1.saved.filter fun x => !lists.contains (s1.areaVersion x)).map fun x => s1.savedQid x
    if bad.isEmpty then some (0, 0, { s1 with dev := { s1.dev with fwWrites := v, fwList := lists } })
    else some (5, 0, s1.sendEvent part 5 0 0 0 (bad.foldl insNat [] |>.map fun (q : Nat) => BitVec.ofNat 64 q))

end Sys2Proof.Machine
end

