-- ==== Sys2Proof/Machine/Power.lean ====
section
/-! DEFINITION. Starts (R333 to R335) and the power controllers (R9, R336). Dev.stage: 0 no start under way, 1 to 4 the stages, 5 up, 6 the
ROM serves the host port alone. -/

namespace Sys2Proof.Machine

/-! ## What outlives a start (R331, R335) -/

/-- A partition as the non-volatile map restores it: its resources and keys. -/
def Part.restored (p : Part) : Part := Part.made p.clusters p.granules p.agents p.mac p.vlan p.codeKey

/-- The machine between its end and its next start: what the hub die's non-volatile store keeps, and all else at reset. -/
def State.ended (s : State) (cause fails : Nat) : State :=
  { State.reset with
    parts := s.parts.map fun p => (p.1, p.2.restored)
    dev := { State.reset.dev with cause := cause, fails := fails, failCause := s.dev.failCause, ownerKey := s.dev.ownerKey, ownerQ := s.dev.ownerQ,
                                  fwWrites := s.dev.fwWrites, fwList := s.dev.fwList }
    agenda := s.agenda
    draws := s.draws }

/-- A start fails: FAILS rises and the cause is kept. -/
def State.failStart (s : State) (cause : Nat) : State :=
  let s1 := s.ended cause (min 255 (s.dev.fails + 1))
  { s1 with dev := { s1.dev with failCause := cause, stage := if s.dev.stage = 1 ∧ cause = 3 then 6 else 0 } }

/-- Ends operation for a cause; a start under way has failed. -/
def State.trip (s : State) (cause : Nat) : State :=
  if 1 ≤ s.dev.stage ∧ s.dev.stage ≤ 4 then s.failStart cause else s.ended cause s.dev.fails

/-! ## Stages (R333) -/

/-- Goes into the next stage. -/
def State.toStage (s : State) (n : Nat) : State := { s with dev := { s.dev with stage := n, stageAt := s.time } }

/-- A start begins, in minimal mode when FAILS is at least 3 (R335). -/
def State.beginStart (s : State) : State :=
  let m := decide (3 ≤ s.dev.fails)
  { s with dev := { s.dev with stage := 1, stageAt := s.time, bootFails := s.dev.fails, minimal := m, full := !m,
                               cause := if m then s.dev.failCause else s.dev.cause } }

/-- The CAUSE of a stage that fails; R334 names none for stage 4, where it is a free value (log 34). -/
def State.stageCause (s : State) : Nat :=
  match s.dev.stage with
  | 1 => 3 | 2 => 4 | 3 => 5
  | _ => (Config.freeWord s.draws).toNat % 256

/-- The limit of a stage, in ns (R333). -/
def stageLimit (stage : Nat) : Nat := if stage = 2 then 2000000000 else if stage = 4 then 1000000000 else 50000000

/-- Has the stage under way run out of its limit? Such a stage has failed, whatever it ends with. -/
def State.stageLate (s : State) : Bool := decide (s.dev.stageAt + stageLimit s.dev.stage ≤ s.time)

/-- A stage ends within its limit, well or badly. -/
def State.endStage (s : State) (good : Bool) : State :=
  if s.stageLate ∨ good = false then s.failStart s.stageCause else s.toStage (s.dev.stage + 1)

/-- Each firing begins a start or ends its present stage: 1 verifies root slot A, then B; 2 brings up dies, links and memory; 3 verifies the
runtime. Whether an image verifies, and whether the bring-up succeeds, is a free value (log 10). -/
def execDeviceStart (s : State) : Host.Outcome State Fault Refusal :=
  .next (
    match s.dev.stage with
    | 0 | 6 => s.beginStart
    | 1 => s.endStage (Config.imageVerifies 0 s.draws || Config.imageVerifies 1 s.draws)
    | 2 => s.endStage (Config.imageVerifies 3 s.draws)
    | 3 => s.endStage (Config.imageVerifies 2 s.draws)
    | _ => s)

/-- The present stage has run for longer than its limit: the start fails. -/
def execStartStageTimeout (s : State) : Host.Outcome State Fault Refusal :=
  .next (if 1 ≤ s.dev.stage ∧ s.dev.stage ≤ 4 ∧ s.stageLate then s.failStart s.stageCause else s)

/-- The runtime starts within its limit: EVENT 7; a full start clears FAILS, and any other raises it (R335). -/
def execStartComplete (s : State) : Host.Outcome State Fault Refusal :=
  .next (
    if s.dev.stage ≠ 4 then s
    else if s.stageLate then s.failStart s.stageCause
    else
      let s1 : State := { s with dev := { s.dev with stage := 5, alive := s.time, fails := if s.dev.minimal then min 255 (s.dev.fails + 1) else 0 } }
      s1.sendEvent 0 7 0 0 (if s.dev.minimal then 1 else 0))

def execPowerFault (s : State) : Host.Outcome State Fault Refusal := .next (s.trip 7)
def execThermalTrip (s : State) : Host.Outcome State Fault Refusal := .next (s.trip 6)

/-- Root command 18: no answer to one that is obeyed. A start that it cuts short has not reached EVENT 7 as a full start, so FAILS rises (R335). -/
def execResetDevice (part : Nat) (s : State) : Host.Outcome State Fault Refusal :=
  s.onCommand part 18 fun p =>
    match s.signedBy p [] with
    | none => s.endCmd part 7 0
    | some q =>
      let fails := if 1 ≤ s.dev.stage ∧ s.dev.stage ≤ 4 then min 255 (s.dev.fails + 1) else s.dev.fails
      (s.useLeaf q).ended 1 (if p.arg 0 % 2 = 1 then 0 else fails)

/-! ## Power (R9, R336) -/

/-- A store to PLIMIT by the running hart. -/
def execPlimitWrite (die : Nat) (watts : Word) (s : State) : Host.Outcome State Fault Refusal := .next (s.blockStore (16 * die + 15) 0x000 watts)

/-- The module power projected with CAP c on every core of the die: entry c - 1 of the measurements. Entry 8 is this die's share, entry 9 is
not 0 while the thermal limit is active. -/
def projAt (m : List Nat) (c : Nat) : Nat := m.getD (c - 1) 0

/-- The highest CAP at or below c that meets the limit. -/
def capFor (m : List Nat) (limit : Nat) : Nat → Option Nat
  | 0 => none
  | c + 1 => if projAt m (c + 1) ≤ limit then some (c + 1) else capFor m limit c

/-- One decision of a controller. -/
def Power.decide (p : Power) (m : List Nat) : Power :=
  let p1 : Power := { p with pnow := m.getD 8 0 % 65536, therm := m.getD 9 0 != 0 }
  if p.plimit < projAt m p.cap then
    match capFor m p.plimit p.cap with
    | some c => { p1 with cap := c, steps := (p.steps + 1) % 2 ^ 32, lowFor := 0 }
    | none => { p1 with cap := 1, whold := true, lowFor := 0, steps := if p.cap = 1 then p.steps else (p.steps + 1) % 2 ^ 32 }
  else if 100 * projAt m p.cap < 95 * p.plimit then
    if p.lowFor + 1 < 10 then { p1 with lowFor := p.lowFor + 1 }
    else if p.whold then { p1 with whold := false, lowFor := 0 }
    else { p1 with cap := min 8 (p.cap + 1), lowFor := 0 }
  else { p1 with lowFor := 0 }

/-- A controller decides every 100 µs. -/
def execPowerControlTick (die : Nat) (projected : List Nat) (s : State) : Host.Outcome State Fault Refusal :=
  let p := s.powerOf die
  .next (if s.time < p.tickAt + 100000 then s else s.setPower die { p.decide projected with tickAt := s.time })

end Sys2Proof.Machine
end

