-- ==== Sys2Proof/Machine/Dispatch.lean ====
section
/-! DEFINITION. One arm per constructor of Instr: the meaning of each instruction and event. -/

namespace Sys2Proof.Machine

/-- What an instruction or event does to the machine. -/
def exec (i : Instr) (s : State) : Host.Outcome State Fault Refusal :=
  match i with
  | .loop rs1 off => Sys2Proof.Machine.execLoop rs1 off s
  | .loopi count off => Sys2Proof.Machine.execLoopi count off s
  | .lidx rd n => Sys2Proof.Machine.execLidx rd n s
  | .lcnt rd n => Sys2Proof.Machine.execLcnt rd n s
  | .lbrk n => Sys2Proof.Machine.execLbrk n s
  | .ldepth rd => Sys2Proof.Machine.execLdepth rd s
  | .bilv2 rd rs1 rs2 => Sys2Proof.Machine.execBilv2 rd rs1 rs2 s
  | .bilv3 rd rs1 rs2 => Sys2Proof.Machine.execBilv3 rd rs1 rs2 s
  | .bdlv2 rd rs1 rs2 => Sys2Proof.Machine.execBdlv2 rd rs1 rs2 s
  | .bdlv3 rd rs1 rs2 => Sys2Proof.Machine.execBdlv3 rd rs1 rs2 s
  | .clzx rd rs1 rs2 => Sys2Proof.Machine.execClzx rd rs1 rs2 s
  | .fold rd rs1 rs2 => Sys2Proof.Machine.execFold rd rs1 rs2 s
  | .vregcfg rd rs1 => Sys2Proof.Machine.execVregcfg rd rs1 s
  | .vsetvlz rd rs1 vtypei off => Sys2Proof.Machine.execVsetvlz rd rs1 vtypei off s
  | .vsetvli rd rs1 vtypei => Sys2Proof.Machine.execVsetvli rd rs1 vtypei s
  | .vsetivli rd avl vtypei => Sys2Proof.Machine.execVsetivli rd avl vtypei s
  | .vsetvl rd rs1 rs2 => Sys2Proof.Machine.execVsetvl rd rs1 rs2 s
  | .ctxSave rd rs1 rs2 => Sys2Proof.Machine.execCtxSave rd rs1 rs2 s
  | .ctxLoad rd rs1 rs2 => Sys2Proof.Machine.execCtxLoad rd rs1 rs2 s
  | .migrate rd rs1 rs2 => Sys2Proof.Machine.execMigrate rd rs1 rs2 s
  | .erack rd => Sys2Proof.Machine.execErack rd s
  | .ldAq scope width rd rs1 => Sys2Proof.Machine.execLdAq scope width rd rs1 s
  | .stRl scope width rs2 rs1 => Sys2Proof.Machine.execStRl scope width rs2 rs1 s
  | .ldInv width rd rs1 => Sys2Proof.Machine.execLdInv width rd rs1 s
  | .fenceS scope => Sys2Proof.Machine.execFenceS scope s
  | .cpG2s rd rs1 rs2 rs3 => Sys2Proof.Machine.execCpG2s rd rs1 rs2 rs3 s
  | .cpS2g rd rs1 rs2 rs3 => Sys2Proof.Machine.execCpS2g rd rs1 rs2 rs3 s
  | .cpG2g rd rs1 rs2 rs3 => Sys2Proof.Machine.execCpG2g rd rs1 rs2 rs3 s
  | .cp2d rd rs1 rs2 rs3 => Sys2Proof.Machine.execCp2d rd rs1 rs2 rs3 s
  | .cpMma rd rs1 => Sys2Proof.Machine.execCpMma rd rs1 s
  | .cpChain rd rs1 rs2 => Sys2Proof.Machine.execCpChain rd rs1 rs2 s
  | .waitGe rd rs1 rs2 rs3 => Sys2Proof.Machine.execWaitGe rd rs1 rs2 rs3 s
  | .waitEq rd rs1 rs2 rs3 => Sys2Proof.Machine.execWaitEq rd rs1 rs2 rs3 s
  | .scfg rd rs1 sid => Sys2Proof.Machine.execScfg rd rs1 sid s
  | .swait rd sid => Sys2Proof.Machine.execSwait rd sid s
  | .sresume sid => Sys2Proof.Machine.execSresume sid s
  | .sstop sid => Sys2Proof.Machine.execSstop sid s
  | .tlwait rd rs1 sel => Sys2Proof.Machine.execTlwait rd rs1 sel s
  | .tlread rd sel => Sys2Proof.Machine.execTlread rd sel s
  | .red tag scope rs2 rs1 => Sys2Proof.Machine.execRed tag scope rs2 rs1 s
  | .bupd tag rs2 rs1 => Sys2Proof.Machine.execBupd tag rs2 rs1 s
  | .amoScoped op dword scope rd rs2 rs1 => Sys2Proof.Machine.execAmoScoped op dword scope rd rs2 rs1 s
  | .breckon rs1 => Sys2Proof.Machine.execBreckon rs1 s
  | .rodAcq rd rs1 => Sys2Proof.Machine.execRodAcq rd rs1 s
  | .rodRel rs1 => Sys2Proof.Machine.execRodRel rs1 s
  | .bankArm rd rs1 rs2 => Sys2Proof.Machine.execBankArm rd rs1 rs2 s
  | .bankDisarm rd rs1 => Sys2Proof.Machine.execBankDisarm rd rs1 s
  | .barWg rd => Sys2Proof.Machine.execBarWg rd s
  | .msend rd rs1 rs2 => Sys2Proof.Machine.execMsend rd rs1 rs2 s
  | .mreply rd rs1 rs2 => Sys2Proof.Machine.execMreply rd rs1 rs2 s
  | .aqpush rd rs1 rs2 => Sys2Proof.Machine.execAqpush rd rs1 rs2 s
  | .launch rd rs1 rs2 => Sys2Proof.Machine.execLaunch rd rs1 rs2 s
  | .qsignal rd rs1 rs2 => Sys2Proof.Machine.execQsignal rd rs1 rs2 s
  | .chsend rd rs1 rs2 => Sys2Proof.Machine.execChsend rd rs1 rs2 s
  | .chrecv rd rs1 => Sys2Proof.Machine.execChrecv rd rs1 s
  | .chdone rs1 => Sys2Proof.Machine.execChdone rs1 s
  | .vmpush vs1 => Sys2Proof.Machine.execVmpush vs1 s
  | .vmdepth rd => Sys2Proof.Machine.execVmdepth rd s
  | .vidxc vm rd vd vs2 => Sys2Proof.Machine.execVidxc vm rd vd vs2 s
  | .vfcvtE2 vm vd vs2 vs1 => Sys2Proof.Machine.execVfcvtE2 vm vd vs2 vs1 s
  | .vfcvtE4 vm vd vs2 vs1 => Sys2Proof.Machine.execVfcvtE4 vm vd vs2 vs1 s
  | .vmxscale vm vd vs2 fmt => Sys2Proof.Machine.execVmxscale vm vd vs2 fmt s
  | .vfwcvtE2 vm vd vs2 vs1 => Sys2Proof.Machine.execVfwcvtE2 vm vd vs2 vs1 s
  | .vfwcvtE4 vm vd vs2 vs1 => Sys2Proof.Machine.execVfwcvtE4 vm vd vs2 vs1 s
  | .vfwcvtE5 vm vd vs2 vs1 => Sys2Proof.Machine.execVfwcvtE5 vm vd vs2 vs1 s
  | .vfcvtE5 vm vd vs2 vs1 => Sys2Proof.Machine.execVfcvtE5 vm vd vs2 vs1 s
  | .vwmulxE8 vm vd vs2 vs1 => Sys2Proof.Machine.execVwmulxE8 vm vd vs2 vs1 s
  | .vwmulxE16 vm vd vs2 vs1 => Sys2Proof.Machine.execVwmulxE16 vm vd vs2 vs1 s
  | .vwmulxE32 vm vd vs2 vs1 => Sys2Proof.Machine.execVwmulxE32 vm vd vs2 vs1 s
  | .vwmulxE64 vm vd vs2 vs1 => Sys2Proof.Machine.execVwmulxE64 vm vd vs2 vs1 s
  | .vle8Inv vm vd rs1 => Sys2Proof.Machine.execVle8Inv vm vd rs1 s
  | .vle16Inv vm vd rs1 => Sys2Proof.Machine.execVle16Inv vm vd rs1 s
  | .vle32Inv vm vd rs1 => Sys2Proof.Machine.execVle32Inv vm vd rs1 s
  | .vle64Inv vm vd rs1 => Sys2Proof.Machine.execVle64Inv vm vd rs1 s
  | .vsmx vm vs3 rs1 vs2 => Sys2Proof.Machine.execVsmx vm vs3 rs1 vs2 s
  | .spop vd sid => Sys2Proof.Machine.execSpop vd sid s
  | .vwait vm vd vs2 rs1 => Sys2Proof.Machine.execVwait vm vd vs2 rs1 s
  | .msendv vm vs3 vs2 rs1 => Sys2Proof.Machine.execMsendv vm vs3 vs2 rs1 s
  | .edge vm vd vs2 rs1 => Sys2Proof.Machine.execEdge vm vd vs2 rs1 s
  | .texdec vm vd vs2 fmt => Sys2Proof.Machine.execTexdec vm vd vs2 fmt s
  | .texw vm vd vs2 rs1 => Sys2Proof.Machine.execTexw vm vd vs2 rs1 s
  | .texS vm vd vs2 rs1 => Sys2Proof.Machine.execTexS vm vd vs2 rs1 s
  | .texSa vm rd vs2 rs1 => Sys2Proof.Machine.execTexSa vm rd vs2 rs1 s
  | .boxt vm vd vs2 rs1 => Sys2Proof.Machine.execBoxt vm vd vs2 rs1 s
  | .trit vm vd vs2 rs1 => Sys2Proof.Machine.execTrit vm vd vs2 rs1 s
  | .mmaE4e4 acc rs1 rs2 fs3 => Sys2Proof.Machine.execMmaE4e4 acc rs1 rs2 fs3 s
  | .mmaE4e5 acc rs1 rs2 fs3 => Sys2Proof.Machine.execMmaE4e5 acc rs1 rs2 fs3 s
  | .mmaE5e4 acc rs1 rs2 fs3 => Sys2Proof.Machine.execMmaE5e4 acc rs1 rs2 fs3 s
  | .mmaE5e5 acc rs1 rs2 fs3 => Sys2Proof.Machine.execMmaE5e5 acc rs1 rs2 fs3 s
  | .mmaE2e2 acc rs1 rs2 fs3 => Sys2Proof.Machine.execMmaE2e2 acc rs1 rs2 fs3 s
  | .mmaE2e4 acc rs1 rs2 fs3 => Sys2Proof.Machine.execMmaE2e4 acc rs1 rs2 fs3 s
  | .mmaE4e2 acc rs1 rs2 fs3 => Sys2Proof.Machine.execMmaE4e2 acc rs1 rs2 fs3 s
  | .mmaI8i8 acc rs1 rs2 fs3 => Sys2Proof.Machine.execMmaI8i8 acc rs1 rs2 fs3 s
  | .mmaBfbf acc rs1 rs2 => Sys2Proof.Machine.execMmaBfbf acc rs1 rs2 s
  | .mmaHfhf acc rs1 rs2 => Sys2Proof.Machine.execMmaHfhf acc rs1 rs2 s
  | .mmaDfdf acc rs1 rs2 => Sys2Proof.Machine.execMmaDfdf acc rs1 rs2 s
  | .mcfg rd rs1 => Sys2Proof.Machine.execMcfg rd rs1 s
  | .mzero acc => Sys2Proof.Machine.execMzero acc s
  | .mload acc rs1 rs2 => Sys2Proof.Machine.execMload acc rs1 rs2 s
  | .merr rd sel => Sys2Proof.Machine.execMerr rd sel s
  | .mstF32 acc rs1 rs2 => Sys2Proof.Machine.execMstF32 acc rs1 rs2 s
  | .mstBf16 acc rs1 rs2 => Sys2Proof.Machine.execMstBf16 acc rs1 rs2 s
  | .mstF16 acc rs1 rs2 => Sys2Proof.Machine.execMstF16 acc rs1 rs2 s
  | .mstI32 acc rs1 rs2 => Sys2Proof.Machine.execMstI32 acc rs1 rs2 s
  | .mstE4m3 acc rs1 rs2 fs3 => Sys2Proof.Machine.execMstE4m3 acc rs1 rs2 fs3 s
  | .mstE5m2 acc rs1 rs2 fs3 => Sys2Proof.Machine.execMstE5m2 acc rs1 rs2 fs3 s
  | .pair g sense scalar vector => Sys2Proof.Machine.execPair g sense scalar vector s
  | .hintPf rs1 imm => Sys2Proof.Machine.execHintPf rs1 imm s
  | .hintUnroll imm => Sys2Proof.Machine.execHintUnroll imm s
  | .hintAff shamt => Sys2Proof.Machine.execHintAff shamt s
  | .hintPair shamt => Sys2Proof.Machine.execHintPair shamt s
  | .lgrantWrite sup value => Sys2Proof.Machine.execLgrantWrite sup value s
  | .laneRequestInterrupt sup => Sys2Proof.Machine.execLaneRequestInterrupt sup s
  | .laneRotation core => Sys2Proof.Machine.execLaneRotation core s
  | .laneHoldTimeout hart => Sys2Proof.Machine.execLaneHoldTimeout hart s
  | .laneRetire core group => Sys2Proof.Machine.execLaneRetire core group s
  | .pageFetchUnverified obj page => Sys2Proof.Machine.execPageFetchUnverified obj page s
  | .pageHashDone obj page => Sys2Proof.Machine.execPageHashDone obj page s
  | .generationFree part gen => Sys2Proof.Machine.execGenerationFree part gen s
  | .haltRequest hart => Sys2Proof.Machine.execHaltRequest hart s
  | .haltLanding hart => Sys2Proof.Machine.execHaltLanding hart s
  | .itbudgetExpiry hart => Sys2Proof.Machine.execItbudgetExpiry hart s
  | .forwardingExpiry hart => Sys2Proof.Machine.execForwardingExpiry hart s
  | .messageArrival idx => Sys2Proof.Machine.execMessageArrival idx s
  | .handlerStart hart => Sys2Proof.Machine.execHandlerStart hart s
  | .channelItemArrival idx => Sys2Proof.Machine.execChannelItemArrival idx s
  | .channelClose hart chan => Sys2Proof.Machine.execChannelClose hart chan s
  | .channelHandlerStart hart => Sys2Proof.Machine.execChannelHandlerStart hart s
  | .pathTimeout idx => Sys2Proof.Machine.execPathTimeout idx s
  | .watchWake hart => Sys2Proof.Machine.execWatchWake hart s
  | .waitTimeout hart => Sys2Proof.Machine.execWaitTimeout hart s
  | .barrierComplete launch wg => Sys2Proof.Machine.execBarrierComplete launch wg s
  | .copyComplete hart n => Sys2Proof.Machine.execCopyComplete hart n s
  | .chainEntryStart hart n => Sys2Proof.Machine.execChainEntryStart hart n s
  | .matrixOpComplete hart => Sys2Proof.Machine.execMatrixOpComplete hart s
  | .streamFetch hart sid => Sys2Proof.Machine.execStreamFetch hart sid s
  | .texSaComplete hart idx => Sys2Proof.Machine.execTexSaComplete hart idx s
  | .pageWalkComplete hart va store => Sys2Proof.Machine.execPageWalkComplete hart va store s
  | .spanRead core line word count => Sys2Proof.Machine.execSpanRead core line word count s
  | .homeWrite core addr bytes => Sys2Proof.Machine.execHomeWrite core addr bytes s
  | .rodPass region => Sys2Proof.Machine.execRodPass region s
  | .leaseExpiry region => Sys2Proof.Machine.execLeaseExpiry region s
  | .reservationLapse region => Sys2Proof.Machine.execReservationLapse region s
  | .rejoin core => Sys2Proof.Machine.execRejoin core s
  | .retentionEnter core => Sys2Proof.Machine.execRetentionEnter core s
  | .retentionWake core => Sys2Proof.Machine.execRetentionWake core s
  | .sramError unit core addr uncorrectable => Sys2Proof.Machine.execSramError unit core addr uncorrectable s
  | .hbmError addr uncorrectable => Sys2Proof.Machine.execHbmError addr uncorrectable s
  | .linkFailure boundary => Sys2Proof.Machine.execLinkFailure boundary s
  | .rerouteComplete boundary => Sys2Proof.Machine.execRerouteComplete boundary s
  | .nop part qid => Sys2Proof.Machine.execNop part qid s
  | .launchGrid part qid => Sys2Proof.Machine.execLaunchGrid part qid s
  | .launchPipe part qid => Sys2Proof.Machine.execLaunchPipe part qid s
  | .waitTl part qid => Sys2Proof.Machine.execWaitTl part qid s
  | .waitMem part qid => Sys2Proof.Machine.execWaitMem part qid s
  | .waitPacketTimeout part qid => Sys2Proof.Machine.execWaitPacketTimeout part qid s
  | .signal part qid => Sys2Proof.Machine.execSignal part qid s
  | .copy part qid => Sys2Proof.Machine.execCopy part qid s
  | .hubCopyDone idx => Sys2Proof.Machine.execHubCopyDone idx s
  | .marker part qid => Sys2Proof.Machine.execMarker part qid s
  | .invalidPacket part qid => Sys2Proof.Machine.execInvalidPacket part qid s
  | .barrierRelease part qid => Sys2Proof.Machine.execBarrierRelease part qid s
  | .killreq part qid => Sys2Proof.Machine.execKillreq part qid s
  | .stopreq part qid => Sys2Proof.Machine.execStopreq part qid s
  | .resumereq part qid => Sys2Proof.Machine.execResumereq part qid s
  | .qcbConfigRead part qid => Sys2Proof.Machine.execQcbConfigRead part qid s
  | .qpPost hart => Sys2Proof.Machine.execQpPost hart s
  | .workgroupBind launch => Sys2Proof.Machine.execWorkgroupBind launch s
  | .runBind launch => Sys2Proof.Machine.execRunBind launch s
  | .pipelineBind launch => Sys2Proof.Machine.execPipelineBind launch s
  | .launchCompletion launch => Sys2Proof.Machine.execLaunchCompletion launch s
  | .agentEnable agent enable => Sys2Proof.Machine.execAgentEnable agent enable s
  | .agentReset agent => Sys2Proof.Machine.execAgentReset agent s
  | .agentTlbinv agent => Sys2Proof.Machine.execAgentTlbinv agent s
  | .agentNotify agent slot => Sys2Proof.Machine.execAgentNotify agent slot s
  | .qtailReserve agent n => Sys2Proof.Machine.execQtailReserve agent n s
  | .agentRegisterWrite agent offset value => Sys2Proof.Machine.execAgentRegisterWrite agent offset value s
  | .agentNop agent => Sys2Proof.Machine.execAgentNop agent s
  | .draw agent => Sys2Proof.Machine.execDraw agent s
  | .meshletDispatch agent => Sys2Proof.Machine.execMeshletDispatch agent s
  | .mdone agent value => Sys2Proof.Machine.execMdone agent value s
  | .tris agent => Sys2Proof.Machine.execTris agent s
  | .path agent => Sys2Proof.Machine.execPath agent s
  | .frag agent => Sys2Proof.Machine.execFrag agent s
  | .cover agent => Sys2Proof.Machine.execCover agent s
  | .close agent => Sys2Proof.Machine.execClose agent s
  | .fhtWrite msg => Sys2Proof.Machine.execFhtWrite msg s
  | .fhtRead msg => Sys2Proof.Machine.execFhtRead msg s
  | .fhtNotifyStore msg => Sys2Proof.Machine.execFhtNotifyStore msg s
  | .fhtNotifyFetchAdd msg => Sys2Proof.Machine.execFhtNotifyFetchAdd msg s
  | .fhtNotifyRed tag msg => Sys2Proof.Machine.execFhtNotifyRed tag msg s
  | .fhtAck part flow ack ece => Sys2Proof.Machine.execFhtAck part flow ack ece s
  | .fhtRetransmitTimeout part flow => Sys2Proof.Machine.execFhtRetransmitTimeout part flow s
  | .loadObject part => Sys2Proof.Machine.execLoadObject part s
  | .unload part => Sys2Proof.Machine.execUnload part s
  | .replace part => Sys2Proof.Machine.execReplace part s
  | .createQueue part => Sys2Proof.Machine.execCreateQueue part s
  | .destroyQueue part => Sys2Proof.Machine.execDestroyQueue part s
  | .setLease part => Sys2Proof.Machine.execSetLease part s
  | .setLog part => Sys2Proof.Machine.execSetLog part s
  | .writeHomingEntry part => Sys2Proof.Machine.execWriteHomingEntry part s
  | .resetPartition part => Sys2Proof.Machine.execResetPartition part s
  | .attest part => Sys2Proof.Machine.execAttest part s
  | .activateFirmware part => Sys2Proof.Machine.execActivateFirmware part s
  | .createPartition part => Sys2Proof.Machine.execCreatePartition part s
  | .destroyPartition part => Sys2Proof.Machine.execDestroyPartition part s
  | .setCodeKey part => Sys2Proof.Machine.execSetCodeKey part s
  | .setOwnerKey part => Sys2Proof.Machine.execSetOwnerKey part s
  | .setParkPool part => Sys2Proof.Machine.execSetParkPool part s
  | .setPeerEntry part => Sys2Proof.Machine.execSetPeerEntry part s
  | .resetDevice part => Sys2Proof.Machine.execResetDevice part s
  | .plimitWrite die watts => Sys2Proof.Machine.execPlimitWrite die watts s
  | .powerControlTick die projected => Sys2Proof.Machine.execPowerControlTick die projected s
  | .scalarLoad op rd rs1 imm => Sys2Proof.Machine.execScalarLoad op rd rs1 imm s
  | .scalarStore op rs2 rs1 imm => Sys2Proof.Machine.execScalarStore op rs2 rs1 imm s
  | .standardAmo op dword aq rl rd rs2 rs1 => Sys2Proof.Machine.execStandardAmo op dword aq rl rd rs2 rs1 s
  | .fence kind pred succ => Sys2Proof.Machine.execFence kind pred succ s
  | .sfenceVma rs1 rs2 => Sys2Proof.Machine.execSfenceVma rs1 rs2 s
  | .csrAccess op imm rd src csr => Sys2Proof.Machine.execCsrAccess op imm rd src csr s
  | .jalr rd rs1 imm => Sys2Proof.Machine.execJalr rd rs1 imm s
  | .vectorLoad nf mop vm rs2 rs1 width vd => Sys2Proof.Machine.execVectorLoad nf mop vm rs2 rs1 width vd s
  | .vectorStore nf mop vm rs2 rs1 width vs3 => Sys2Proof.Machine.execVectorStore nf mop vm rs2 rs1 width vs3 s
  | .vectorArithmetic funct6 vm vs2 vs1 funct3 vd => Sys2Proof.Machine.execVectorArithmetic funct6 vm vs2 vs1 funct3 vd s
  | .sequencerResume hart => Sys2Proof.Machine.execSequencerResume hart s
  | .endTask hart => Sys2Proof.Machine.execEndTask hart s
  | .retranslate part obj fn native => Sys2Proof.Machine.execRetranslate part obj fn native s
  | .makeExecuteOnly obj page => Sys2Proof.Machine.execMakeExecuteOnly obj page s
  | .fhtSeqDrop part flow seq => Sys2Proof.Machine.execFhtSeqDrop part flow seq s
  | .fhtResponse hart payload lost => Sys2Proof.Machine.execFhtResponse hart payload lost s
  | .lui rd imm => Sys2Proof.Machine.execLui rd imm s
  | .auipc rd imm => Sys2Proof.Machine.execAuipc rd imm s
  | .jal rd off => Sys2Proof.Machine.execJal rd off s
  | .branch op rs1 rs2 off => Sys2Proof.Machine.execBranch op rs1 rs2 off s
  | .aluImm op rd rs1 imm => Sys2Proof.Machine.execAluImm op rd rs1 imm s
  | .alu op rd rs1 rs2 => Sys2Proof.Machine.execAlu op rd rs1 rs2 s
  | .fpOp op fmt rd rs1 rs2 rs3 rm => Sys2Proof.Machine.execFpOp op fmt rd rs1 rs2 rs3 rm s
  | .vrelease => Sys2Proof.Machine.execVrelease s
  | .kexit => Sys2Proof.Machine.execKexit s
  | .yield => Sys2Proof.Machine.execYield s
  | .vfenceSv => Sys2Proof.Machine.execVfenceSv s
  | .vfenceVs => Sys2Proof.Machine.execVfenceVs s
  | .vfenceVv => Sys2Proof.Machine.execVfenceVv s
  | .hret => Sys2Proof.Machine.execHret s
  | .vmelse => Sys2Proof.Machine.execVmelse s
  | .vmpop => Sys2Proof.Machine.execVmpop s
  | .patrolScrub => Sys2Proof.Machine.execPatrolScrub s
  | .launchGrant => Sys2Proof.Machine.execLaunchGrant s
  | .quantumEnd => Sys2Proof.Machine.execQuantumEnd s
  | .runtimeWatchdog => Sys2Proof.Machine.execRuntimeWatchdog s
  | .frameDrop => Sys2Proof.Machine.execFrameDrop s
  | .deviceStart => Sys2Proof.Machine.execDeviceStart s
  | .startStageTimeout => Sys2Proof.Machine.execStartStageTimeout s
  | .startComplete => Sys2Proof.Machine.execStartComplete s
  | .powerFault => Sys2Proof.Machine.execPowerFault s
  | .thermalTrip => Sys2Proof.Machine.execThermalTrip s
  | .sret => Sys2Proof.Machine.execSret s
  | .illegalInstruction => Sys2Proof.Machine.execIllegalInstruction s
  | .runtimeKeepAlive => Sys2Proof.Machine.execRuntimeKeepAlive s
  | .ecall => Sys2Proof.Machine.execEcall s
  | .ebreak => Sys2Proof.Machine.execEbreak s
  | .mret => Sys2Proof.Machine.execMret s
  | .wfi => Sys2Proof.Machine.execWfi s

end Sys2Proof.Machine
end

