-- ==== Sys2Proof/Machine/Step.lean ====
section
/-! DEFINITION. One step of the machine, and placing an instruction where the next step fetches it. -/

namespace Sys2Proof.Machine

/-- Time passes by an amount the spec leaves open (R7; log 3), and the writes that wait at the front end are tried again (R211). -/
def State.tick (s : State) : State :=
  let s1 : State := { s with time := s.time + Config.elapsed s.draws, draws := s.draws + 1 }
  if s1.front = [] then s1 else s1.frontDrain s1.front.length 0

/-- The running hart reaches an instruction boundary: a hart that may not issue does nothing, a pending interrupt that is enabled is taken (log 61), and a
pending halt lands after it (R300, R302); otherwise the instruction at the pc is fetched and executed unless it names a register whose token is pending
(R155). What it reads is observed (R315). -/
def stepHart (s : State) : Host.Outcome State Fault Refusal :=
  if s.mayIssue then
    match s.pendingInterrupt with
    | some c => .next (s.takeInterrupt c)
    | none =>
      if s.seq.lands then .next (s.landOn s.hart)
      else
        match s.fetch with
        | .ok i s1 => if s1.mustWait i then .next (s1.stalled (tokenStall i)) else exec i (s1.upd fun q => q.observe i)
        | .trap c v s1 => .next (s1.takeTrap c v)
        | .stall w s1 => .next (s1.stalled w)
  else .next s

/-- One step: the head of the agenda, or an instruction of the running hart when the agenda is empty (log 2). An event of a core whose partition is
isolated does not happen (R224), nor in minimal mode one of what does not run (R335). -/
def step (s : State) : Host.Outcome State Fault Refusal :=
  match s.agenda with
  | [] => stepHart s.tick
  | .event i :: rest => if s.tick.held i then .next { s.tick with agenda := rest } else exec i { s.tick with agenda := rest }
  | .run h :: rest => stepHart ({ s.tick with agenda := rest }.switch h)

/-- Lays the bytes of an instruction at the pc of the running hart, where a bare hart fetches (log 9). The bytes
above the instruction, up to the longest, are zeros. -/
def State.withFetchWord (s : State) (nbits w : Nat) : State :=
  { s with mem := memWrite s.mem s.seq.pc.toNat (leBytes (max 8 (nbits / 8)) (w % 2 ^ nbits)), agenda := [] }

end Sys2Proof.Machine
end

