-- ==== Sys2Proof/Safety.lean ====
section
/-! DEFINITION. What counts as a safe state and a safe run. -/

namespace Sys2Proof.Machine

/-- Keys strictly rising. -/
def ascending : List Nat → Bool
  | [] => true
  | [_] => true
  | a :: b :: rest => decide (a < b) && ascending (b :: rest)

/-- The memory is in its canonical form (log 4), and every loop stack holds at most six entries (R91). -/
def State.Safe (s : State) : Prop :=
  Memory.wf s.mem = true ∧ s.seq.loops.length ≤ Config.loopDepth

/-- A run of k steps that meets neither a fault nor a refusal. -/
def SafeRun (k : Nat) (s : State) : Prop := ∃ t, Sys2Proof.core.run k s = .next t

end Sys2Proof.Machine
end

