-- ==== Sys2Proof/Certificates/Slice0/Obligations.lean ====
section
/-! DEFINITION. The statements for the provers. First the terms in which they are put: what an instruction that
completes leaves unchanged, and the tables that say which instruction has which effect. -/

namespace Sys2Proof.Machine.Claim

/-! ## Completing -/

/-- Everything but the running hart's own state is as before. -/
def KeepsOthers (e t : State) : Prop := t = { e with seq := t.seq }

/-- Beside what `q` holds, only the pc, the loop stack, the record of a wait, minstret, CGEN and the form of the code
fetched next changed (R62, R63, R70, R92). -/
def RetiredFrom (q q' : Seq) : Prop :=
  q' = { q with
    pc := q'.pc, loops := q'.loops, atEdge := q'.atEdge, stall := none, since := none, peerGot := [], elems := [],
    armed := none, priv := { q.priv with minstret := q.priv.minstret + 1 }, ctl := { q.ctl with cgen := q'.ctl.cgen },
    latch := { q.latch with form := q'.latch.form } }

/-- `t` is the state `e`, which holds the effect of an instruction, after that instruction has completed; every byte
of memory reads as in `e`, and with no loop open control goes to `next` on a hart without a task (a task may go on in
another body of the same function, R70). -/
structure Retired (e : State) (next : Word) (t : State) : Prop where
  others : KeepsOthers e t
  hart : RetiredFrom e.seq t.seq
  memory : ∀ a, memGet t.mem a = memGet e.mem a
  onward : e.seq.loops = [] → (e.seq.task = none ∨ e.seq.mode ≠ .u) → t.seq.pc = next

/-- `i` completes from `s` with the effect `e` and goes on after itself. -/
def Completes (i : Instr) (s e : State) : Prop := ∃ t, exec i s = .next t ∧ Retired e e.nextPc t

/-- `i` completes from `s` with the effect `e` and passes control to `next`. -/
def Jumps (i : Instr) (s e : State) (next : Word) : Prop := ∃ t, exec i s = .next t ∧ Retired e next t

/-- `t` differs from `s` in x[rd], which holds `v` (x0 stays 0), and in what retiring changes; no other register, flag,
status, special register, engine context or byte of memory is touched, and control goes on after the instruction. -/
structure OnlyX (s : State) (rd : Reg) (v : Word) (t : State) : Prop where
  result : t.x rd = if rd = 0 then 0 else v
  others : ∀ r, r ≠ rd → t.x r = s.x r
  floats : ∀ r, t.f r = s.f r
  flags : t.seq.fflags = s.seq.fflags ∧ t.seq.frm = s.seq.frm ∧ t.seq.ctl.xsflags = s.seq.ctl.xsflags
  hart : RetiredFrom { s.seq with x := t.seq.x } t.seq
  outside : KeepsOthers s t
  memory : ∀ a, memGet t.mem a = memGet s.mem a
  onward : s.seq.loops = [] → t.seq.pc = s.nextPc

/-- `i` completes from `s` and writes `v` to x[rd], and nothing else. -/
def WritesX (i : Instr) (s : State) (rd : Reg) (v : Word) : Prop := ∃ t, exec i s = .next t ∧ OnlyX s rd v t

/-! ## Integer and loop instructions -/

/-- The register and the value that an integer instruction writes, from the state before it (R73, R94, R97, R98). -/
def intResult (s : State) : Instr → Option (Reg × Word)
  | .lui rd imm => some (rd, (imm ++ (0 : BitVec 12)).signExtend 64)
  | .auipc rd imm => some (rd, s.seePc s.hart s.seq.pc + (imm ++ (0 : BitVec 12)).signExtend 64)
  | .alu op rd rs1 rs2 => some (rd, evalAlu op (s.x rs1) (s.x rs2))
  | .aluImm op rd rs1 imm => some (rd, evalAluImm op (s.x rs1) imm)
  | .bilv2 rd rs1 rs2 => some (rd, evalBilv2 (s.x rs1) (s.x rs2))
  | .bilv3 rd rs1 rs2 => some (rd, evalBilv3 (s.x rs1) (s.x rs2))
  | .bdlv2 rd rs1 rs2 => some (rd, evalBdlv2 (s.x rs1) (s.x rs2))
  | .bdlv3 rd rs1 rs2 => some (rd, evalBdlv3 (s.x rs1) (s.x rs2))
  | .clzx rd rs1 rs2 => some (rd, evalClzx (s.x rs1) (s.x rs2) (s.x rd))
  | .fold rd rs1 rs2 => some (rd, evalFold (s.x rs1) (s.x rs2))
  | .lidx rd n => if n.toNat < 6 then some (rd, match s.seq.loops[n.toNat]? with | some e => e.index | none => 0) else none
  | .lcnt rd n => if n.toNat < 6 then some (rd, match s.seq.loops[n.toNat]? with | some e => e.count | none => 0) else none
  | .ldepth rd => some (rd, BitVec.ofNat 64 s.seq.loops.length)
  | _ => none

/-- The set bits of a word among those whose number leaves rest j modulo w. -/
def bitsAt (a : Word) (w j : Nat) : Nat := ((List.range 64).filter fun p => p % w == j && a.getLsbD p).length

/-- Instructions that only order or advise, and go on after themselves. -/
def idle : Instr → Bool
  | .hintPf .. | .hintUnroll .. | .hintAff .. | .hintPair .. | .vfenceSv | .vfenceVs | .vfenceVv | .fence .i _ _ => true
  | _ => false

/-- A distance to END that R93 allows. -/
def loopOffOk (q : Seq) (off : Word) : Prop :=
  match q.latch.form with
  | .native => 6 ≤ off.toNat
  | .lammel => q.latch.len < off.toNat ∧ off.toNat < 2 ^ 31

/-- The count of loop or loopi, and the distance to END. -/
def loopOperands (s : State) : Instr → Option (Word × Word)
  | .loop rs1 off => some (s.x rs1, off)
  | .loopi count off => some (count.setWidth 64, off)
  | _ => none

end Sys2Proof.Machine.Claim

open Sys2Proof Sys2Proof.Machine Sys2Proof.Machine.Claim

/-! ## Encodings and the step -/

/-- Words written out from the encodings of R80 to R85 decode to the instructions they stand for. -/
def Obligations.WordsDecodeAsTheSpecWritesThem : Prop :=
  decode32 0x00C1900B = some (.loopi 3 24) ∧
  decode32 0x0000228B = some (.lidx 5 0) ∧
  decode32 0x0A0062AB = some (.barWg 5) ∧
  decode32 0x26C59E2B = some (.cp2d 28 11 12 4) ∧
  decode32 0x00C5F52B = some (.msend 10 11 12) ∧
  decode32 0x1A85A25B = some (.vwait true 4 8 11) ∧
  decode32 0x08D6017B = some (.mmaE4e4 2 12 13 1) ∧
  decode32 0x00B50533 = some (.alu .add 10 10 11)

/-- The native encoder and decoder agree: the bytes of a well-formed instruction decode to it, pair words included. -/
def Obligations.DecodeOfEncodeIsTheInstruction : Prop :=
  ∀ (i : Instr) (n w : Nat), i.wellFormed = true → encode i = some (n, w) → decodeNative (leBytes n w) = .ok i n

/-- Each word of the four Salica opcodes has one meaning, and the encoder gives that word back. -/
def Obligations.EncodeOfDecodeIsTheWord : Prop :=
  ∀ (w : BitVec 32) (i : Instr), (bits w 0 7 = 0x0B ∨ bits w 0 7 = 0x2B ∨ bits w 0 7 = 0x5B ∨ bits w 0 7 = 0x7B) →
    decode32 w = some i → encode32 i = some w

/-- When the bytes at the pc decode to an instruction, a step with an empty agenda executes it: after the tick, for a hart that may issue, on which no halt
lands, no interrupt is taken and no token it names is pending; the failures that its operands report are observed (R315). With another hart at the head
of the agenda the step switches to that hart and does the same. An event at the head of the agenda is what the step performs, unless it is held: the partition of
its core is isolated (R224), or in minimal mode its core or agent does not run (R335). -/
def Obligations.StepExecutesTheFetchedInstruction : Prop :=
  (∀ (s s1 : State) (i : Instr), s.agenda = [] → s.tick.mayIssue = true → s.tick.seq.lands = false →
     s.tick.pendingInterrupt = none → s.tick.fetch = .ok i s1 → s1.mustWait i = false → step s = exec i (s1.upd fun q => q.observe i)) ∧
  (∀ (s s1 : State) (i : Instr) (h : Nat) (rest : List Agenda), s.agenda = .run h :: rest →
     let u := ({ s.tick with agenda := rest } : State).switch h
     u.mayIssue = true → u.seq.lands = false → u.pendingInterrupt = none → u.fetch = .ok i s1 → s1.mustWait i = false →
       step s = exec i (s1.upd fun q => q.observe i)) ∧
  (∀ (s : State) (i : Instr) (rest : List Agenda), s.agenda = .event i :: rest →
     (s.tick.held i = false → step s = exec i { s.tick with agenda := rest }) ∧
     (s.tick.held i = true → step s = .next { s.tick with agenda := rest }))

/-! ## Integer, loop and control-transfer instructions -/

/-- Every integer instruction writes its result to rd and nothing else. -/
def Obligations.IntegerInstructionsWriteOnlyRd : Prop :=
  ∀ (i : Instr) (s : State) (rd : Reg) (v : Word), intResult s i = some (rd, v) → WritesX i s rd v

/-- R97: bilv2 and bilv3 spread x[rs1] over every second or third bit under x[rs2] shifted by one; bdlv2 and bdlv3 take
every second or third bit from bit s on; fold XORs the groups of b bits. R98: clzx counts the leading zeros of the difference of its sources, and of the old rd beyond 64 where they are equal. -/
def Obligations.BitInstructionsRearrangeAndCount : Prop :=
  (∀ (rd rs1 rs2 : Reg) (s : State), ∃ m2 m3 d2 d3 f,
     WritesX (.bilv2 rd rs1 rs2) s rd m2 ∧ WritesX (.bilv3 rd rs1 rs2) s rd m3 ∧ WritesX (.bdlv2 rd rs1 rs2) s rd d2 ∧
     WritesX (.bdlv3 rd rs1 rs2) s rd d3 ∧ WritesX (.fold rd rs1 rs2) s rd f ∧
     ∀ j, j < 64 →
       m2.getLsbD j = ((j % 2 == 0 && (s.x rs1).getLsbD (j / 2)) || (j != 0 && (s.x rs2).getLsbD (j - 1))) ∧
       m3.getLsbD j = ((j % 3 == 0 && decide (j / 3 ≤ 20) && (s.x rs1).getLsbD (j / 3)) || (j != 0 && (s.x rs2).getLsbD (j - 1))) ∧
       d2.getLsbD j = (s.x rs1).getLsbD (2 * j + (s.x rs2).toNat % 64) ∧
       d3.getLsbD j = (s.x rs1).getLsbD (3 * j + (s.x rs2).toNat % 64) ∧
       f.getLsbD j =
         (let b := if (s.x rs2).toNat % 64 = 0 then 64 else (s.x rs2).toNat % 64
          decide (j < b) && bitsAt (s.x rs1) b j % 2 == 1)) ∧
  (∀ (rd rs1 rs2 : Reg) (s : State), ∃ v, WritesX (.clzx rd rs1 rs2) s rd v ∧
     (s.x rs1 ≠ s.x rs2 → v.toNat ≤ 63 ∧ 2 ^ (63 - v.toNat) ≤ (s.x rs1 ^^^ s.x rs2).toNat ∧
       (s.x rs1 ^^^ s.x rs2).toNat < 2 ^ (64 - v.toNat)) ∧
     (s.x rs1 = s.x rs2 → 64 ≤ v.toNat ∧ v.toNat ≤ 128 ∧ (s.x rd).toNat < 2 ^ (128 - v.toNat) ∧
       (s.x rd ≠ 0 → 2 ^ (127 - v.toNat) ≤ (s.x rd).toNat)))

/-- R93: loop and loopi push an entry and go on, skip the body at a count of 0, trap with cause 27 on a seventh loop, and raise
cause 2 on a distance out of range. R94: lbrk n leaves n + 1 loops and goes on at END of the outermost of them; where entry n does not exist, or one of
those entries was pushed in another mode, it raises cause 2; so do lidx and lcnt of an entry above 5. -/
def Obligations.LoopInstructionsEnterSkipAndLeave : Prop :=
  (∀ (i : Instr) (s : State) (n off : Word), loopOperands s i = some (n, off) →
     (loopOffOk s.seq off → n ≠ 0 → s.seq.loops.length < 6 →
       ∃ t, exec i s = .next t ∧
         ∃ e : State, e = { s with seq := { s.seq with loops :=
             { start := s.seePc s.hart s.nextPc, stop := s.seePc s.hart (s.seq.pc + off), count := n, index := 0, mode := s.seq.mode }
               :: s.seq.loops } } ∧
           t = e.retire s.nextPc false) ∧
     (loopOffOk s.seq off → n = 0 → Jumps i s s (s.seq.pc + off)) ∧
     (loopOffOk s.seq off → n ≠ 0 → 6 ≤ s.seq.loops.length → exec i s = .next (s.takeTrap 27 6)) ∧
     (¬ loopOffOk s.seq off → exec i s = .next (s.takeTrap 2 s.seq.latch.bits))) ∧
  (∀ (n : BitVec 5) (s : State),
     (∀ e, s.seq.loops[n.toNat]? = some e → (∀ x ∈ s.seq.loops.take (n.toNat + 1), x.mode = s.seq.mode) →
       ∃ t, exec (.lbrk n) s = .next t ∧
         t = ({ s with seq := { s.seq with loops := s.seq.loops.drop (n.toNat + 1) } }).retire (s.runPc e.stop) true) ∧
     (s.seq.task = none → ∀ a, s.runPc a = a) ∧
     (s.seq.loops.length ≤ n.toNat → exec (.lbrk n) s = .next (s.takeTrap 2 s.seq.latch.bits)) ∧
     ((∃ x ∈ s.seq.loops.take (n.toNat + 1), x.mode ≠ s.seq.mode) → exec (.lbrk n) s = .next (s.takeTrap 2 s.seq.latch.bits)) ∧
     (∀ rd, 6 ≤ n.toNat → exec (.lidx rd n) s = .next (s.takeTrap 2 s.seq.latch.bits) ∧ exec (.lcnt rd n) s = .next (s.takeTrap 2 s.seq.latch.bits)))

/-- R92: the end check. Where the visible address that control goes to is not END, or the mode is not the entry's, an instruction changes no loop; at END with
iterations left, INDEX rises by one and control goes back to START; at END of the last iteration, and where START is END itself, the entry is popped and the
check goes on with the next. An iteration that ends is an open boundary. The pc is stated for a hart without a task, one outside U mode, and a task whose
object has no translated function; another task may go on in another body of the same function (R70), and then its loops and the boundary are as said. -/
def Obligations.EndCheckEndsIterations : Prop :=
  (∀ (s : State) (a : Word), s.seq.task = none → s.seePc s.hart a = a ∧ s.inTrans s.hart a = false) ∧
  ∀ (s : State) (next : Word) (jump : Bool) (e : LoopEntry) (rest : List LoopEntry), s.seq.loops = e :: rest →
    let see := s.seePc s.hart next
    let back := if s.inTrans s.hart next then Config.nativePc e.start else e.start
    let t := s.retire next jump
    let u := ({ s with seq := { s.seq with loops := rest } } : State).retire next jump
    let oneBody := s.seq.task = none ∨ s.seq.mode ≠ .u ∨ ∀ o, s.objOf s.hart = some o → o.ndtab = 0
    (e.mode ≠ s.seq.mode ∨ see ≠ e.stop → t.seq.loops = s.seq.loops ∧ t.seq.atEdge = false ∧ (oneBody → t.seq.pc = next)) ∧
    (e.mode = s.seq.mode → see = e.stop → e.start ≠ e.stop → e.index.toNat + 1 < e.count.toNat →
      t.seq.loops = { e with index := e.index + 1 } :: rest ∧ t.seq.atEdge = true ∧ (oneBody → t.seq.pc = back)) ∧
    (e.mode = s.seq.mode → see = e.stop → e.count.toNat ≤ e.index.toNat + 1 ∨ e.start = e.stop →
      t.seq.loops = u.seq.loops ∧ t.seq.atEdge = true ∧ (oneBody → t.seq.pc = u.seq.pc))

/-- Jumps and taken branches go to their target, and links take the visible address after the instruction (R69); an indirect
jump clears bit 0 of its target in native code only (R66); a branch that is not taken goes on after itself. -/
def Obligations.JumpsAndBranchesTransferControl : Prop :=
  ∀ (s : State),
    (∀ rd off, Jumps (.jal rd off) s (s.setX rd s.linkPc) (s.seq.pc + off)) ∧
    (∀ rd rs1 imm, Jumps (.jalr rd rs1 imm) s (s.setX rd s.linkPc)
      (if s.seq.latch.form = .lammel then s.x rs1 + imm.signExtend 64 else (s.x rs1 + imm.signExtend 64) &&& ~~~1)) ∧
    (∀ op rs1 rs2 off, evalBranch op (s.x rs1) (s.x rs2) = true → Jumps (.branch op rs1 rs2 off) s s (s.seq.pc + off)) ∧
    (∀ op rs1 rs2 off, evalBranch op (s.x rs1) (s.x rs2) = false → Completes (.branch op rs1 rs2 off) s s)

/-- A hint and a local-order fence change no register, flag, special register or byte of memory. yield changes no register, flag or byte of memory (R102), and wfi, where TW allows it, ends at once with none either; a pending halt
finds an open boundary after yield. Under TW wfi below M mode is cause 2.
That wfi ends at once, in every mode that TW leaves it, is the model's choice (log 37). -/
def Obligations.HintsYieldAndWfiChangeNothing : Prop :=
  (∀ (i : Instr) (s : State), idle i = true → Completes i s s) ∧
  (∀ (s : State),
     (s.seq.halt = none → Completes .yield s s) ∧
     (s.seq.halt ≠ none → ∃ t, exec .yield s = .next t ∧ t.seq.atEdge = true ∧ t.seq.x = s.seq.x ∧ t.seq.f = s.seq.f ∧
       t.seq.vec = s.seq.vec ∧ t.seq.halt = s.seq.halt ∧ KeepsOthers s t) ∧
     (s.seq.mode = .m ∨ s.seq.priv.mstatus.getLsbD 21 = false → Completes .wfi s s) ∧
     (s.seq.mode ≠ .m → s.seq.priv.mstatus.getLsbD 21 = true → exec .wfi s = .next (s.takeTrap 2 s.seq.latch.bits)))

/-! ## Memory -/

namespace Sys2Proof.Machine.Claim

/-- The bytes of Bead words that overlap the located pieces: a read or a write reckons them first (R220). -/
def reckoned (s : State) (ls : List Loc) (a : Nat) : Prop :=
  ∃ l ∈ ls, ∃ w ∈ s.beadsIn l.pa l.len, w ≤ a ∧ a < w + 8

/-- The bytes that a store to the located pieces may change. -/
def touched (s : State) (ls : List Loc) (a : Nat) : Prop :=
  (∃ l ∈ ls, l.pa ≤ a ∧ a < l.pa + l.len) ∨ reckoned s ls a

/-- A location whose bytes lie in memory and are seen there by every party: HBM but P lines, scratch, a debug ring. -/
def plain (l : Loc) : Prop :=
  match l.t with
  | .hbm => l.kind ≠ .p
  | .scratch _ _ | .ring _ => True
  | _ => False

/-- No Bead partial and no Bead record lies in a poisoned entry of a park pool, so that reckoning loses none and logs nothing (R222). -/
def poolSound (s : State) : Prop :=
  (∀ b ∈ s.coh.beads, ∀ p ∈ b.2.parts, s.partialLost (s.partOfHbm b.1) p = false) ∧
  (∀ w ∈ s.coh.away, s.poisoned (s.poolEntry (s.partOfHbm (128 * w.1)) w.2) 2048 = false)

/-- The write-back of P lines that an acquire at .sys brings (R136). -/
def released (s1 : State) (h : Nat) (sys : Bool) : State := if sys then s1.flushP h else s1

/-- The number of set bits of a mask below j. -/
def rankIn (m : BitVec 256) (j : Nat) : Nat := ((List.range j).filter fun i => m.getLsbD i).length

/-- The parity of those bits of the line index PA[47:7] whose number leaves rest k modulo b. -/
def lineParity (pa b k : Nat) : Bool := ((List.range 41).filter fun p => p % b == k && pa.testBit (7 + p)).length % 2 == 1

/-- Is a located word on an S or B line of HBM, where rods and Beads apply? -/
def shared (l : Loc) : Prop := l.t = .hbm ∧ (l.kind = .s ∨ l.kind = .b)

end Sys2Proof.Machine.Claim

/-- R55: the home of a line in mode 1 is the core of DIE whose bit in MASK is the o-th set one, with o from the line index. R139: where a walk finds a
leaf, an access that its permissions refuse is a page fault; otherwise A, and D for a store, are set in the leaf's PTE where they are not yet set,
no other byte of memory changes, and the translation enters the TLBs; a PTE on a code page, or one that PMP keeps from the walker, is not written but an access fault (R59, R73). -/
def Obligations.TranslationsMarkTheLeafAndFindTheHome : Prop :=
  (∀ (h : HomeEntry) (pa : Nat), h.valid = true → h.ctrl.getLsbD 29 = true →
     let j := h.home pa % 256
     let n := rankIn h.mask 256
     let o := rankIn h.mask j
     h.home pa = (h.ctrl.toNat / 2 ^ 8 % 4) * 256 + j ∧ h.mask.getLsbD j = true ∧
     (n = 1 → o = 0) ∧
     (∀ b, 0 < b → n = 2 ^ b → ∀ k, k < b → o.testBit k = lineParity pa b k) ∧
     (1 < n → (∀ b, n ≠ 2 ^ b) → ∃ f8, f8 < 256 ∧ (∀ k, k < 8 → f8.testBit k = lineParity pa 8 k) ∧ o = f8 * n / 256)) ∧
  (∀ (s s1 : State) (via : Via) (va : Word) (ak : AKind) (l : Leaf), Memory.wf s.mem = true →
    s.walk via va ak (via.satp.toNat % 2 ^ 44 * 4096) 5 = .ok l s1 →
    let pte : Nat := l.pte ||| (64 + (if ak = .store then 128 else 0))
    let e := l.entry via va.toNat pte
    (permOk l.pte ak via.mode via.sum via.mxr = false → s.walkFill via va ak = .trap ak.pageFault va s1) ∧
    (permOk l.pte ak via.mode via.sum via.mxr = true →
      (pte = l.pte → s.walkFill via va ak = .ok e (s1.tlbAdd via ak e)) ∧
      (pte ≠ l.pte → s1.isCodePage l.addr = true ∨ s1.pmpTable via l.addr .store = false → s.walkFill via va ak = .trap ak.accessFault va s1) ∧
      (pte ≠ l.pte → s1.isCodePage l.addr = false → s1.pmpTable via l.addr .store = true → ∃ s2 : State, s.walkFill via va ak = .ok e (s2.tlbAdd via ak e) ∧
        leNat (memRead s2.mem l.addr 8) = pte ∧ ∀ a, a < l.addr ∨ l.addr + 8 ≤ a → memGet s2.mem a = memGet s1.mem a)))

/-- A read leaves every byte of memory outside the Bead words it reckons, and of the running hart everything but xsflags and the reservation, which a
reckoning may break; from one piece of memory it delivers the bytes as they then stand, and from a piece of a P line the bytes that the core itself has
stored there. -/
def Obligations.ReadsChangeOnlyReckonedWords : Prop :=
  ∀ (s s1 : State) (via : Via) (inv : Bool) (ls : List Loc) (bs : List Byte), Memory.wf s.mem = true → poolSound s →
    s.loadLocs via inv ls = .ok bs s1 →
    (∀ a, ¬ reckoned s ls a → memGet s1.mem a = memGet s.mem a) ∧
    s1.seq = { s.seq with resv := s1.seq.resv, ctl := { s.seq.ctl with xsflags := s1.seq.ctl.xsflags } } ∧
    (∀ l, ls = [l] → inv = false → plain l → bs = memRead s1.mem l.pa l.len) ∧
    (∀ l, ls = [l] → l.t = .hbm → l.kind = .p → via.num < 1024 → ∀ k p, k < l.len →
      s.coh.plocal.find? (fun x => x.1.1 == via.num && x.1.2 == l.pa + k) = some p → bs[k]? = some p.2)

/-- A store that completes writes its bytes where its pieces lie and changes no other byte of memory, but for Bead words
that it reckons; a core's store to a P line goes to its own copy alone (R136). A code page, which no store reaches (R59), is left out. Of the running hart
it changes at most the reservation, which a reckoning may break. -/
def Obligations.StoresChangeOnlyTheirBytes : Prop :=
  ∀ (s s1 : State) (via : Via) (ls : List Loc) (bytes : List Byte), Memory.wf s.mem = true → poolSound s →
    via.hart = some s.hart → s.storeLocs via ls bytes = .ok () s1 →
    (∀ a, ¬ touched s ls a → memGet s1.mem a = memGet s.mem a) ∧ s1.seq = { s.seq with resv := s1.seq.resv } ∧
    (∀ l, ls = [l] → bytes.length = l.len → plain l → (l.t = .hbm → s1.isCodePage l.pa = false) → memRead s1.mem l.pa l.len = bytes) ∧
    (∀ l, ls = [l] → bytes.length = l.len → l.t = .hbm → l.kind = .p → via.num < 1024 → s1.isCodePage l.pa = false →
      s1.mem = s.mem ∧ s1.viewBytes via.num l.pa false l.len = bytes)

/-- A load whose bytes can be read completes and delivers its value, sign- or zero-extended or NaN-boxed; ld.aq at .sys
writes P lines back after it, and below .sys a peer window refuses it with cause 7 (R327). A load whose access faults takes that trap, a misaligned ld.aq
cause 4, scope 3 and a floating-point load with FS off cause 2. -/
def Obligations.LoadsDeliverTheirValue : Prop :=
  ∀ (s s1 : State) (rd rs1 : Reg) (bs : List Byte) (c : Nat) (v : Word),
    (∀ op imm, (isFpLoad op = true → s.fpOn = true) →
      (s.loadAt s.via (s.x rs1 + imm.signExtend 64) (loadSize op) false = .ok bs s1 →
        Completes (.scalarLoad op rd rs1 imm) s
          (if isFpLoad op then s1.putF rd (loadValue op (leNat bs)) else s1.setX rd (loadValue op (leNat bs)))) ∧
      (s.loadAt s.via (s.x rs1 + imm.signExtend 64) (loadSize op) false = .trap c v s1 →
        exec (.scalarLoad op rd rs1 imm) s = .next (s1.takeTrap c v))) ∧
    (∀ scope width ls s0, scope ≠ 3 → (s.x rs1).toNat % widthBytes width = 0 → s.locate s.via (s.x rs1) (widthBytes width) .load = .ok ls s0 →
      (scope = 2 ∨ peerOf ls = none → s0.loadLocs s0.via false ls = .ok bs s1 →
        Completes (.ldAq scope width rd rs1) s
          ((released s1 s.hart (scope == 2)).setX rd (sextBytes (widthBytes width) (leNat bs)))) ∧
      (scope = 2 ∨ peerOf ls = none → s0.loadLocs s0.via false ls = .trap c v s1 → exec (.ldAq scope width rd rs1) s = .next (s1.takeTrap c v)) ∧
      (scope ≠ 2 → (peerOf ls).isSome = true → exec (.ldAq scope width rd rs1) s = .next (s0.takeTrap 7 (s.x rs1)))) ∧
    (∀ width, s.loadAt s.via (s.x rs1) (widthBytes width) true = .ok bs s1 →
      Completes (.ldInv width rd rs1) s (s1.setX rd (sextBytes (widthBytes width) (leNat bs)))) ∧
    (∀ scope width, scope ≠ 3 → (s.x rs1).toNat % widthBytes width = 0 →
      s.locate s.via (s.x rs1) (widthBytes width) .load = .trap c v s1 → exec (.ldAq scope width rd rs1) s = .next (s1.takeTrap c v)) ∧
    (∀ width, s.loadAt s.via (s.x rs1) (widthBytes width) true = .trap c v s1 → exec (.ldInv width rd rs1) s = .next (s1.takeTrap c v)) ∧
    (∀ scope width, scope ≠ 3 → (s.x rs1).toNat % widthBytes width ≠ 0 →
      exec (.ldAq scope width rd rs1) s = .next (s.takeTrap 4 (s.x rs1))) ∧
    (∀ width, exec (.ldAq 3 width rd rs1) s = .next (s.takeTrap 2 s.seq.latch.bits)) ∧
    (∀ op imm, isFpLoad op = true → s.fpOn = false →
      exec (.scalarLoad op rd rs1 imm) s = .next (s.takeTrap 2 s.seq.latch.bits))

/-- A store whose bytes can be stored completes with exactly that store, and one whose access faults takes that trap; one that must wait has no effect
yet. st.rl waits for the writes and reds that the scope covers, writes P lines back first at .sys, and then stores; through a peer window it is carried at
.sys as NOTIFY OP 0 and refused below .sys with cause 7 (R327), and so is the next aligned 8-byte store after fence.s.sys. A misaligned st.rl is cause
6, scope 3 cause 2, a floating-point store with FS off cause 2.
The model's choices are that a write through a window is sent in the step and waits there for its acknowledgement (log 27), which store counts as the one after fence.s.sys (log 65) and
that a store into the host window completes with no further effect here (log 11). -/
def Obligations.StoresPerformTheirStore : Prop :=
  ∀ (s s1 s2 : State) (rs1 rs2 : Reg) (c : Nat) (v : Word) (ls : List Loc),
    (∀ op imm, (isFpStore op = true → s.fpOn = true) →
      let va := s.x rs1 + imm.signExtend 64
      let bytes := leBytes (storeSize op) (if isFpStore op then s.f rs2 else s.x rs2).toNat
      let st := s.scalarStore va bytes
      (st = .ok () s1 → Completes (.scalarStore op rs2 rs1 imm) s s1) ∧
      (st = .trap c v s1 → exec (.scalarStore op rs2 rs1 imm) s = .next (s1.takeTrap c v)) ∧
      (st = .stall .rod s1 → exec (.scalarStore op rs2 rs1 imm) s = .next (s1.stalled .rod)) ∧
      (s.seq.fenced = false ∨ storeSize op ≠ 8 ∨ va.toNat % 8 ≠ 0 → st = s.storeAt s.via va bytes) ∧
      (s.seq.fenced = true → storeSize op = 8 → va.toNat % 8 = 0 → s.locate s.via va 8 .store = .ok ls s1 →
        ∀ l p, peerOf ls = some (l, p) → s1.peerRelease l p (leNat bytes) = .ok () s2 → st = .ok () (s2.upd fun q => { q with fenced := false }))) ∧
    (∀ op imm, isFpStore op = true → s.fpOn = false → exec (.scalarStore op rs2 rs1 imm) s = .next (s.takeTrap 2 s.seq.latch.bits)) ∧
    (∀ scope width, scope ≠ 3 → (s.x rs1).toNat % widthBytes width = 0 → s.locate s.via (s.x rs1) (widthBytes width) .store = .ok ls s1 →
      (peerOf ls = none → scope = 2 → s1.peerOwes s1.via.party = false →
        let u := (s1.flushP s1.hart).settled s1.hart
        u.storeAt u.via (s.x rs1) (leBytes (widthBytes width) (s.x rs2).toNat) = .ok () s2 → Completes (.stRl scope width rs2 rs1) s s2) ∧
      (peerOf ls = none → scope ≠ 2 → s1.redsOut s1.via.party = 0 →
        s1.storeAt s1.via (s.x rs1) (leBytes (widthBytes width) (s.x rs2).toNat) = .ok () s2 → Completes (.stRl scope width rs2 rs1) s s2) ∧
      (peerOf ls = none → (if scope = 2 then s1.peerOwes s1.via.party = true else 0 < s1.redsOut s1.via.party) →
        exec (.stRl scope width rs2 rs1) s = .next (s1.stalled .peer)) ∧
      (∀ l p, peerOf ls = some (l, p) →
        (scope = 2 → s1.peerRelease l p (lowBits (s.x rs2) (8 * widthBytes width)) = .ok () s2 → Completes (.stRl scope width rs2 rs1) s s2) ∧
        (scope ≠ 2 → exec (.stRl scope width rs2 rs1) s = .next (s1.takeTrap 7 (s.x rs1))))) ∧
    (∀ l p base w, s.peerBase s.via.part p = some base → s.peerOwes s.via.party = false →
      let u := (s.flushP s.hart).settled s.hart
      u.flowFull u.via.part p = false → u.laterOf (u.via.part, u.peerFlow u.via.part p) = [] → ∃ t, s.peerRelease l p w = .ok () t ∧
        t.host.sent = u.host.sent ++ [.peerNotify u.via.part (u.peerFlow u.via.part p) p 0 0 (remote base l.pa) (BitVec.ofNat 64 w)]) ∧
    (∀ scope width, scope ≠ 3 → (s.x rs1).toNat % widthBytes width ≠ 0 →
      exec (.stRl scope width rs2 rs1) s = .next (s.takeTrap 6 (s.x rs1))) ∧
    (∀ width, exec (.stRl 3 width rs2 rs1) s = .next (s.takeTrap 2 s.seq.latch.bits))

/-- A fence waits for what the party has sent through peer windows and is not acknowledged: the writes and reds where it releases at .sys, the reds for
fence.s at .wg and .dev (R232, R327). Then fence.s at .dev and .sys and the standard fence write the running core's P lines back (R136), and nothing of
those lines differs from memory; fence.s.sys makes the next store to a peer a release; fence.s.wg, a fence with an empty set (R88) and fence.i change
nothing, and fence.s with scope 3 is cause 2. sfence.vma drops from the TLBs of the cluster and its cores the entries of the partition that match its
address and ASID, keeps every other, and changes nothing else; it completes once no matrix operation of the cluster holds rows translated there (R142). In
U mode, and in S mode under TVM, it is cause 2. -/
def Obligations.FencesWriteBackAndDropTranslations : Prop :=
  (∀ (s : State),
     let owes := s.peerOwes s.via.party
     let reds := s.redsOut s.via.party
     let back := (s.flushP s.hart).settled s.hart
     (∀ pred succ, Completes (.fence .i pred succ) s s) ∧
     (∀ pred succ, pred = 0 ∨ succ = 0 → Completes (.fence .fence pred succ) s s) ∧
     (∀ pred succ : BitVec 4, succ ≠ 0 → pred.getLsbD 0 = true ∨ pred.getLsbD 2 = true → owes = false → Completes (.fence .fence pred succ) s back) ∧
     (∀ pred succ : BitVec 4, pred ≠ 0 → succ ≠ 0 → pred.getLsbD 0 = false → pred.getLsbD 2 = false → Completes (.fence .fence pred succ) s (s.flushP s.hart)) ∧
     (∀ pred succ, owes = false → Completes (.fence .tso pred succ) s back) ∧
     (∀ pred succ, owes = true → exec (.fence .tso pred succ) s = .next (s.stalled .peer)) ∧
     (∀ pred succ : BitVec 4, pred.getLsbD 0 = true ∨ pred.getLsbD 2 = true → succ ≠ 0 → owes = true →
       exec (.fence .fence pred succ) s = .next (s.stalled .peer)) ∧
     (reds = 0 → Completes (.fenceS 0) s s ∧ Completes (.fenceS 1) s (s.flushP s.hart)) ∧
     (0 < reds → exec (.fenceS 0) s = .next (s.stalled .peer) ∧ exec (.fenceS 1) s = .next (s.stalled .peer)) ∧
     (owes = false → Completes (.fenceS 2) s (back.upd fun q => { q with fenced := true })) ∧
     (s.coh.unsure = [] → s.settled s.hart = s) ∧ s.settled s.hart = { s with coh := { s.coh with unsure := (s.settled s.hart).coh.unsure } } ∧
     (owes = true → exec (.fenceS 2) s = .next (s.stalled .peer)) ∧
     exec (.fenceS 3) s = .next (s.takeTrap 2 s.seq.latch.bits) ∧
     (isSupervisor s.hart = false →
       (∀ p ∈ (s.flushP s.hart).coh.plocal, p.1.1 ≠ coreOf s.hart) ∧
       (s.flushP s.hart).seq = { s.seq with resv := (s.flushP s.hart).seq.resv } ∧
       ∀ a, (s.flushP s.hart).viewByte (coreOf s.hart) a false = memGet (s.flushP s.hart).mem a)) ∧
  (∀ (s : State) (rs1 rs2 : Reg),
     let c := hartCluster s.hart
     let asid := if rs2 = 0 then none else some ((s.x rs2).toNat % 65536)
     let sel := sfenceMatch (s.partOf s.hart) (if rs1 = 0 then none else some (s.x rs1)) asid
     (s.seq.mode = .u ∨ (s.seq.mode = .s ∧ s.seq.priv.mstatus.getLsbD 20 = true) →
       exec (.sfenceVma rs1 rs2) s = .next (s.takeTrap 2 s.seq.latch.bits)) ∧
     (¬ (s.seq.mode = .u ∨ (s.seq.mode = .s ∧ s.seq.priv.mstatus.getLsbD 20 = true)) →
       ∃ e : State, (s.rowsHeld c (s.partOf s.hart) asid = false → Completes (.sfenceVma rs1 rs2) s e) ∧
         (s.rowsHeld c (s.partOf s.hart) asid = true → exec (.sfenceVma rs1 rs2) s = .next (e.stalled .drain)) ∧
         e = { s with clusters := e.clusters, cores := e.cores } ∧ (e.cluster c).lreq = (s.cluster c).lreq ∧
         (∀ x, x ∈ (e.cluster c).tlb ↔ x ∈ (s.cluster c).tlb ∧ sel x = false) ∧
         (∀ k, clusterOf k = c → ∀ x, (x ∈ (e.core k).dtlb ↔ x ∈ (s.core k).dtlb ∧ sel x = false) ∧ (x ∈ (e.core k).itlb ↔ x ∈ (s.core k).itlb ∧ sel x = false)) ∧
         (∀ k, clusterOf k ≠ c → e.core k = s.core k) ∧ (∀ k, k ≠ c → e.cluster k = s.cluster k)))

/-- R237: a scoped or standard AMO on a word of HBM, scratch or, for a standard one, a debug ring answers the old value, writes what its operation gives of
that value, or nothing for an unequal cas, and changes no other byte. The word is ready before: what its release and acquire do has been done, a core's
P line has gone home (R228), and what is in Bead state has been reckoned (R220); a word that is poisoned then is cause 30, and so is one that is poisoned
before, where nothing is done (R229). -/
def Obligations.AmoUpdatesOneWordAtOnce : Prop :=
  ∀ (s s1 s2 : State) (salica : Bool) (op : AmoOp) (n : Nat) (va v c : Word) (l : Loc) (pre : State → Res Unit),
    (n = 4 ∨ n = 8) → va.toNat % n = 0 → s.locate s.via va n .store = .ok [l] s1 →
    (l.t = .hbm ∨ (∃ k o, l.t = .scratch k o) ∨ (salica = false ∧ ∃ h, l.t = .ring h)) →
    let amo := s.amoAt salica op n va (lowBits v (8 * n)) (lowBits c (8 * n)) pre
    (∀ p, s1.poisonAt s1.via l = some p → amo = .trap 30 (va + BitVec.ofNat 64 (p - l.pa)) s1) ∧
    (s1.poisonAt s1.via l = none → pre s1 = .ok () s2 → s2.poisonAt s2.via l = none → Memory.wf s2.mem = true →
      let s3 := s2.rmwReady s2.via l true
      (∀ p, s3.firstPoison l.pa n = some p → amo = .trap 30 (va + BitVec.ofNat 64 (p - l.pa)) s3) ∧
      (s3.firstPoison l.pa n = none → (l.t = .hbm → s3.isCodePage l.pa = false) →
        let old := leNat (memRead s3.mem l.pa n)
        ∃ s4, amo = .ok old s4 ∧
          (∀ w, amoOp op (8 * n) old (lowBits v (8 * n)) (lowBits c (8 * n)) = some w → memRead s4.mem l.pa n = leBytes n w) ∧
          (amoOp op (8 * n) old (lowBits v (8 * n)) (lowBits c (8 * n)) = none → s4 = s3) ∧
          ∀ a, a < l.pa ∨ l.pa + n ≤ a → memGet s4.mem a = memGet s3.mem a))

/-- The AMOs, LR and SC complete and write the old value (SC: its status) to rd, after what their order at .sys asks for: a release waits until the
party's accesses through peer windows are acknowledged, and P lines are written back (R136). A misaligned one takes cause 6, an AMO before it does anything
else (R229), a reserved scoped operation and scope 3 cause 2. LR sets the reservation; SC stores only under it, and gives it up. -/
def Obligations.AtomicsAnswerTheOldValue : Prop :=
  ∀ (s s0 s1 : State) (rd rs1 rs2 : Reg) (d : Bool) (old : Nat),
    let n := if d then 8 else 4
    let near (scope : BitVec 2) (st : State) := if scope = 2 then st.ordered true true else st.releaseNear
    (∀ op aq rl, op ≠ .lr → op ≠ .sc → op ≠ .cas →
      s.amoAt false op n (s.x rs1) (lowBits (s.x rs2) (8 * n)) 0 (fun st => st.ordered rl aq) = .ok old s1 →
      Completes (.standardAmo op d aq rl rd rs2 rs1) s (s1.setX rd (sextBytes n old))) ∧
    (∀ aq rl, s.ordered rl aq = .ok () s0 → s0.lrAt n (s.x rs1) = .ok old s1 →
      Completes (.standardAmo .lr d aq rl rd rs2 rs1) s (s1.setX rd (sextBytes n old)) ∧ s1.seq.resv.isSome = true) ∧
    (∀ aq rl, s.ordered rl aq = .ok () s0 → s0.scAt n (s.x rs1) (lowBits (s.x rs2) (8 * n)) = .ok old s1 →
      Completes (.standardAmo .sc d aq rl rd rs2 rs1) s (s1.setX rd (BitVec.ofNat 64 old)) ∧
      s1.seq.resv = none ∧ (old = 0 ∨ old = 1) ∧
      ∀ l s2, s0.locate s0.via (s.x rs1) n .store = .ok [l] s2 → s2.seq.resv ≠ some (resvBase l.pa) → old = 1 ∧ s1.mem = s2.mem) ∧
    (∀ op aq rl, op ≠ .cas → op ≠ .lr → op ≠ .sc → (s.x rs1).toNat % n ≠ 0 →
      exec (.standardAmo op d aq rl rd rs2 rs1) s = .next (s.takeTrap 6 (s.x rs1))) ∧
    (∀ op aq rl, op = .lr ∨ op = .sc → s.ordered rl aq = .ok () s0 → (s.x rs1).toNat % n ≠ 0 →
      exec (.standardAmo op d aq rl rd rs2 rs1) s = .next (s0.takeTrap 6 (s.x rs1))) ∧
    (∀ op o scope, scopedOp op = some o → scope ≠ 3 →
      s.amoAt true o n (s.x rs1) (lowBits (s.x rs2) (8 * n)) (lowBits (s.x rd) (8 * n)) (near scope) = .ok old s1 →
      Completes (.amoScoped op d scope rd rs2 rs1) s (s1.setX rd (sextBytes n old))) ∧
    (∀ op scope, 10 ≤ op.toNat ∨ scope = 3 →
      exec (.amoScoped op d scope rd rs2 rs1) s = .next (s.takeTrap 2 s.seq.latch.bits)) ∧
    (∀ op scope, op.toNat < 10 → scope ≠ 3 → (s.x rs1).toNat % n ≠ 0 →
      exec (.amoScoped op d scope rd rs2 rs1) s = .next (s.takeTrap 6 (s.x rs1))) ∧
    (∀ rl aq, s.ordered rl aq = (if rl && s.peerOwes s.via.party then .stall .peer s
      else .ok () (if rl then (s.flushP s.hart).settled s.hart else if aq then s.flushP s.hart else s)))

/-- R231, R232: a red completes where its word lies in HBM, in scratch or in a peer window that takes it; on an HBM word that is not of a P line, neither
poisoned nor in Bead state, it leaves Op(old, v) there and changes no other byte; on scratch it is performed at the bank (osum64 there is cause 7, a
misaligned xsum32 slot cause 6). At .sys it first waits for the party's accesses through peer windows and writes P lines back, below .sys for its reds there.
Tag 0 and scope 3 are cause 2, misalignment cause 6. -/
def Obligations.ReductionsApplyTheirOperation : Prop :=
  ∀ (s s1 s2 : State) (tag : BitVec 4) (scope : BitVec 2) (rs1 rs2 : Reg) (l : Loc),
    let n := tagBytes tag.toNat
    let v := lowBits (s.x rs2) (8 * n)
    Memory.wf s.mem = true →
    (tag ≠ 0 → scope ≠ 3 → (s.x rs1).toNat % n = 0 → s.locate s.via (s.x rs1) n .store = .ok [l] s1 →
      let before := if scope = 2 then s1.releaseSys else s1.releaseNear
      (l.t = .hbm → before = .ok () s2 →
        let e := (s2.homeTag l tag.toNat v (s.x rs1)).noteWrite s2.via l n
        Completes (.red tag scope rs2 rs1) s e ∧
        (l.kind ≠ .p → s2.isCodePage l.pa = false → s2.firstPoison l.pa n = none → s2.beadsIn l.pa n = [] → aget s2.coh.away (l.pa / 128) = none →
          memRead e.mem l.pa n = leBytes n (tagOp tag.toNat (leNat (memRead s2.mem l.pa n)) v) ∧
          ∀ a, a < l.pa ∨ l.pa + n ≤ a → memGet e.mem a = memGet s2.mem a)) ∧
      (∀ c o, l.t = .scratch c o →
        (tag = 14 → (s.x rs1).toNat % 64 ≠ 0 → exec (.red tag scope rs2 rs1) s = .next (s1.takeTrap 6 (s.x rs1))) ∧
        (tag = 15 → exec (.red tag scope rs2 rs1) s = .next (s1.takeTrap 7 (s.x rs1))) ∧
        (tag ≠ 15 → (tag = 14 → (s.x rs1).toNat % 64 = 0) → before = .ok () s2 →
          ∃ e : State, s2.scratchTag l tag.toNat v (s.x rs1) = .ok () e ∧ Completes (.red tag scope rs2 rs1) s (e.noteWrite s2.via l n))) ∧
      (∀ p, l.t = .peer p → s1.peerRed l p tag.toNat v (scope == 2) = .ok () s2 → Completes (.red tag scope rs2 rs1) s s2)) ∧
    (tag = 0 ∨ scope = 3 → exec (.red tag scope rs2 rs1) s = .next (s.takeTrap 2 s.seq.latch.bits)) ∧
    (tag ≠ 0 → scope ≠ 3 → (s.x rs1).toNat % n ≠ 0 → exec (.red tag scope rs2 rs1) s = .next (s.takeTrap 6 (s.x rs1)))

/-- R234, R235: a bupd on a word of an S or B line that is not poisoned, nor by the reckoning of what stands there under another tag, leaves its word in Bead state under its tag, on a P or U line it is cause 7, on scratch
it is performed at the bank as a red is; tag 0 is cause 2 and misalignment cause 6. breckon leaves no Bead word in its line, and on P and U lines
and on scratch it changes nothing. -/
def Obligations.BeadUpdatesAndReckoning : Prop :=
  ∀ (s s1 : State) (tag : BitVec 4) (rs1 rs2 : Reg) (l : Loc),
    let n := tagBytes tag.toNat
    (tag ≠ 0 → (s.x rs1).toNat % n = 0 → s.locate s.via (s.x rs1) n .store = .ok [l] s1 →
      (shared l → s1.firstPoison l.pa n = none → (s1.clearTags l.pa tag.toNat).firstPoison l.pa n = none → isSupervisor s.hart = false →
        ∃ (e : State) (b : Bead), Completes (.bupd tag rs2 rs1) s e ∧ aget e.coh.beads l.pa = some b ∧ b.tag = tag.toNat ∧ b.parts ≠ []) ∧
      (l.t = .hbm → ¬ shared l → exec (.bupd tag rs2 rs1) s = .next (s1.takeTrap 7 (s.x rs1))) ∧
      (∀ c o, l.t = .scratch c o → tag ≠ 15 → (tag = 14 → (s.x rs1).toNat % 64 = 0) →
        ∃ e : State, s1.scratchTag l tag.toNat (lowBits (s.x rs2) (8 * n)) (s.x rs1) = .ok () e ∧ Completes (.bupd tag rs2 rs1) s e)) ∧
    (tag ≠ 0 → (s.x rs1).toNat % n ≠ 0 → exec (.bupd tag rs2 rs1) s = .next (s.takeTrap 6 (s.x rs1))) ∧
    exec (.bupd 0 rs2 rs1) s = .next (s.takeTrap 2 s.seq.latch.bits) ∧
    (s.locate s.via (s.x rs1 &&& ~~~127) 128 .load = .ok [l] s1 →
      (shared l → ∃ e : State, Completes (.breckon rs1) s e ∧ e.beadsIn l.pa 128 = []) ∧
      (¬ shared l → Completes (.breckon rs1) s s1))

/-- R238: rod.acq on an S or B line takes or renews the rod and answers its expiry, time base + LEASE; it waits while it does not
get it, and a holder, its rod recalled or not, never waits. On other addresses that may be stored to it answers 0. rod.rel gives up a rod that the context holds, to the party
that has waited longest. -/
def Obligations.RodsAreTakenAndReleased : Prop :=
  ∀ (s s1 : State) (rd rs1 : Reg) (l : Loc), s.rodLoc (s.x rs1) = .ok l s1 →
    let region := l.pa / 4096
    let r := if s1.holdsRod s1.via.party region then (s1, true) else s1.askRod s1.via.party region l.rhome
    (shared l → r.2 = true →
      ∃ (e : State) (x : Rod), Completes (.rodAcq rd rs1) s (e.setX rd (BitVec.ofNat 64 (s1.time + s1.lease region))) ∧
        aget e.coh.rods region = some x ∧ x.holder = some s1.via.party ∧ x.expiry = s1.time + s1.lease region ∧
        e = { s1 with coh := { s1.coh with rods := e.coh.rods } }) ∧
    (shared l → r.2 = false →
      ∃ e : State, exec (.rodAcq rd rs1) s = .next (e.stalled .rodAcq) ∧ e = { s1 with coh := { s1.coh with rods := e.coh.rods } }) ∧
    (¬ shared l → Completes (.rodAcq rd rs1) s (s1.setX rd 0) ∧ Completes (.rodRel rs1) s s1) ∧
    (shared l → ∃ e : State, Completes (.rodRel rs1) s e ∧ e = { s1 with coh := { s1.coh with rods := e.coh.rods } } ∧
      ∀ x, aget s1.coh.rods region = some x → x.holder = some s1.via.party → x.area = none →
        match x.waiters with
        | [] => aget e.coh.rods region = none
        | w :: ws => ∃ x', aget e.coh.rods region = some x' ∧ x'.holder = some w ∧ x'.waiters = ws.filter (· != w))

/-- R239: the results of bank.arm and bank.disarm, and what each changes: -3 outside scratch and for reserved bits, -2 for a word already armed, 1
for a word that is 0 already, -1 where the bank holds 8 or nothing of the context is armed there, and 0 where the word is armed or disarmed; a
misaligned word in scratch is cause 6, a poisoned one cause 30. That a word which overlaps an armed one in part counts as armed (-2), and that the word of bank.disarm is
aligned to 4 bytes, are the model's choices (log 17). -/
def Obligations.ZeroTriggersArmAndDisarm : Prop :=
  ∀ (s s1 : State) (rd rs1 rs2 : Reg) (l : Loc),
    let o := s.x rs2
    let n := if o.getLsbD 8 then 8 else 4
    let k := s1.core (bankOf l.pa).1
    let free := k.armed.any (fun x => decide (x.pa < l.pa + n ∧ l.pa < x.pa + (if x.wide then 8 else 4))) = false
    (s.bankLoc (s.x rs1) n = .ok none s1 → Completes (.bankArm rd rs1 rs2) s (s1.setX rd (neg 3))) ∧
    (s.bankLoc (s.x rs1) 4 = .ok none s1 → Completes (.bankDisarm rd rs1) s (s1.setX rd (neg 3))) ∧
    (s.bankLoc (s.x rs1) n = .ok (some l) s1 → getBits o 9 23 ≠ 0 → Completes (.bankArm rd rs1 rs2) s (s1.setX rd (neg 3))) ∧
    (s.bankLoc (s.x rs1) n = .ok (some l) s1 → getBits o 9 23 = 0 →
      ((s.x rs1).toNat % n ≠ 0 → exec (.bankArm rd rs1 rs2) s = .next (s1.takeTrap 6 (s.x rs1))) ∧
      (∀ p, (s.x rs1).toNat % n = 0 → s1.firstPoison l.pa n = some p →
        exec (.bankArm rd rs1 rs2) s = .next (s1.takeTrap 30 (s.x rs1 + BitVec.ofNat 64 (p - l.pa))))) ∧
    (s.bankLoc (s.x rs1) n = .ok (some l) s1 → getBits o 9 23 = 0 → (s.x rs1).toNat % n = 0 → s1.firstPoison l.pa n = none →
      (¬ free → Completes (.bankArm rd rs1 rs2) s (s1.setX rd (neg 2))) ∧
      (free → leNat (memRead s1.mem l.pa n) = 0 → Completes (.bankArm rd rs1 rs2) s (s1.setX rd 1)) ∧
      (free → leNat (memRead s1.mem l.pa n) ≠ 0 → 8 ≤ (k.armed.filter fun x => bankOf x.pa == bankOf l.pa).length →
        Completes (.bankArm rd rs1 rs2) s (s1.setX rd (neg 1))) ∧
      (free → leNat (memRead s1.mem l.pa n) ≠ 0 → (k.armed.filter fun x => bankOf x.pa == bankOf l.pa).length < 8 →
        Completes (.bankArm rd rs1 rs2) s ((s1.setCore (bankOf l.pa).1 { k with armed := k.armed ++
          [{ pa := l.pa, va := s.x rs1, wide := o.getLsbD 8, tag := BitVec.ofNat 32 (getBits o 32 32), hidx := getBits o 0 8,
             owner := ctxOf s.seq s.hart }] }).setX rd 0))) ∧
    (s.bankLoc (s.x rs1) 4 = .ok (some l) s1 → (s.x rs1).toNat % 4 ≠ 0 → exec (.bankDisarm rd rs1) s = .next (s1.takeTrap 6 (s.x rs1))) ∧
    (s.bankLoc (s.x rs1) 4 = .ok (some l) s1 → (s.x rs1).toNat % 4 = 0 →
      ((∀ x ∈ k.armed, ¬ (x.pa = l.pa ∧ x.owner = ctxOf s.seq s.hart)) →
        Completes (.bankDisarm rd rs1) s (s1.setX rd (neg 1))) ∧
      ((∃ x ∈ k.armed, x.pa = l.pa ∧ x.owner = ctxOf s.seq s.hart) →
        ∃ e : State, Completes (.bankDisarm rd rs1) s (e.setX rd 0) ∧ e = { s1 with cores := e.cores } ∧
          ∀ x, x ∈ (e.core (bankOf l.pa).1).armed ↔ x ∈ k.armed ∧ ¬ (x.pa = l.pa ∧ x.owner = ctxOf s.seq s.hart)))

/-- R244: wait.ge and wait.eq complete with the word's value once the word meets the condition, and write P lines back (an acquire at .sys, R136); they
complete with the value that does not meet it once the timeout has passed since the wait began, and otherwise wait on. A timeout of 2^64 - 1 never
passes. A misaligned address is cause 4, and a read that faults is that trap. -/
def Obligations.WordWaitsEndOnTheirConditionOrTimeout : Prop :=
  ∀ (s s1 : State) (rd rs1 rs2 rs3 : Reg) (bs : List Byte) (c : Nat) (tv : Word),
    let s0 := if s.seq.armed.isSome then s else s.arm []
    let u := leNat bs
    let late := (s.x rs3).toNat ≠ 2 ^ 64 - 1 ∧ (s.x rs3).toNat ≤ s.time - s0.armedAt
    ((s.x rs1).toNat % 8 = 0 → s0.loadAt s0.via (s.x rs1) 8 false = .ok bs s1 →
      ((s.x rs2).toNat ≤ u → Completes (.waitGe rd rs1 rs2 rs3) s ((s1.flushP s.hart).setX rd (BitVec.ofNat 64 u))) ∧
      (¬ (s.x rs2).toNat ≤ u → late → Completes (.waitGe rd rs1 rs2 rs3) s (s1.setX rd (BitVec.ofNat 64 u))) ∧
      (¬ (s.x rs2).toNat ≤ u → ¬ late → exec (.waitGe rd rs1 rs2 rs3) s = .next ((s1.upd fun q => { q with peerGot := [] }).stalled .word)) ∧
      (u = (s.x rs2).toNat → Completes (.waitEq rd rs1 rs2 rs3) s ((s1.flushP s.hart).setX rd (BitVec.ofNat 64 u))) ∧
      (u ≠ (s.x rs2).toNat → late → Completes (.waitEq rd rs1 rs2 rs3) s (s1.setX rd (BitVec.ofNat 64 u))) ∧
      (u ≠ (s.x rs2).toNat → ¬ late → exec (.waitEq rd rs1 rs2 rs3) s = .next ((s1.upd fun q => { q with peerGot := [] }).stalled .word))) ∧
    ((s.x rs1).toNat % 8 = 0 → s0.loadAt s0.via (s.x rs1) 8 false = .trap c tv s1 →
      exec (.waitGe rd rs1 rs2 rs3) s = .next (s1.takeTrap c tv) ∧ exec (.waitEq rd rs1 rs2 rs3) s = .next (s1.takeTrap c tv)) ∧
    ((s.x rs1).toNat % 8 ≠ 0 →
      exec (.waitGe rd rs1 rs2 rs3) s = .next (s.takeTrap 4 (s.x rs1)) ∧ exec (.waitEq rd rs1 rs2 rs3) s = .next (s.takeTrap 4 (s.x rs1)))

/-- R242: bar.wg of a workgroup of one task completes at once with 1, and so does one on a hart without a task, which is in no workgroup (the model's choice, log 77); of several tasks, the last to arrive completes with 1 and
lets the others go, who complete with 0; an earlier arrival waits. It first waits until the reds sent through peer windows are acknowledged (R232). -/
def Obligations.WorkgroupBarrierCompletesWithItsLastArrival : Prop :=
  (∀ (s : State) (rd : Reg), s.seq.task = none → Completes (.barWg rd) s (s.setX rd 1)) ∧
  ∀ (s : State) (rd : Reg) (t : Task), s.seq.task = some t →
    let b := s.barrier t.launch t.wg
    (s.seq.barGen = none → 0 < s.redsOut s.via.party → exec (.barWg rd) s = .next (s.stalled .peer)) ∧
    (s.seq.barGen = none → s.redsOut s.via.party = 0 → s.wgTasks t.launch t.wg ≤ b.arrived.length + 1 →
      ∃ e : State, Completes (.barWg rd) s (e.setX rd 1) ∧ e = { s with barriers := e.barriers } ∧
        (e.barrier t.launch t.wg).gen = b.gen + 1 ∧ (e.barrier t.launch t.wg).arrived = [] ∧
        (∀ lin ∈ b.arrived, lin ≠ t.lin → aget (e.barrier t.launch t.wg).results lin = some 0)) ∧
    (s.seq.barGen = none → s.redsOut s.via.party = 0 → b.arrived.length + 1 < s.wgTasks t.launch t.wg →
      ∃ e : State, exec (.barWg rd) s = .next (e.stalled .barrier) ∧ (e.barrier t.launch t.wg).arrived = b.arrived ++ [t.lin] ∧
        e.seq.barGen = some b.gen) ∧
    (∀ g, s.seq.barGen = some g → b.gen ≤ g → exec (.barWg rd) s = .next (s.stalled .barrier)) ∧
    (∀ g, s.seq.barGen = some g → g < b.gen →
      ∃ e : State, Completes (.barWg rd) s (e.setX rd (BitVec.ofNat 64 ((aget b.results t.lin).getD 0))) ∧ e.seq.barGen = none ∧ e.mem = s.mem)

/-! ## Floating point, control registers, traps -/

namespace Sys2Proof.Machine.Claim

/-- What a scalar FP instruction delivers from its registers. -/
def fpResult (s : State) (op : FpOp) (fmt : FpFmt) (rs1 rs2 rs3 : Reg) (rm : BitVec 3) : FpOut :=
  evalFp op fmt (rmOf s.seq.frm rm) (s.f rs1) (s.f rs2) (s.f rs3) (s.x rs1)

/-- The value a CSR instruction writes. -/
def csrNew (op : CsrOp) (old v : Word) : Word := match op with | .rw => v | .rs => old ||| v | .rc => old &&& ~~~v

/-- Does a CSR instruction write its register? -/
def csrWrites (op : CsrOp) (src : Reg) : Bool := op == .rw || src != 0

/-- Causes that neither go to the supervisor hart nor set EPEND (R106, R297). -/
def plainCause (c : Nat) : Prop := c ≠ 28 ∧ c ≠ 49 ∧ setsEpend c = false

/-- The cause of an environment call. -/
def ecallCause : Mode → Nat | .u => 8 | .s => 9 | .m => 11

end Sys2Proof.Machine.Claim

/-- A scalar floating-point instruction writes its f or x result, accumulates its flags and marks FS dirty; a reserved rounding
mode and FS off are cause 2. -/
def Obligations.FpInstructionsDeliverResultAndFlags : Prop :=
  ∀ (s : State) (op : FpOp) (fmt : FpFmt) (rd rs1 rs2 rs3 : Reg) (rm : BitVec 3),
    let i := Instr.fpOp op fmt rd rs1 rs2 rs3 rm
    (s.fpOn = false → exec i s = .next (s.takeTrap 2 s.seq.latch.bits)) ∧
    (s.fpOn = true →
      (fpResult s op fmt rs1 rs2 rs3 rm = .bad → exec i s = .next (s.takeTrap 2 s.seq.latch.bits)) ∧
      (∀ v fl, fpResult s op fmt rs1 rs2 rs3 rm = .f v fl → ∃ t, exec i s = .next t ∧
        t.f rd = box (FpFmt.ffmt fmt) v ∧ (∀ r, r ≠ rd → t.f r = s.f r) ∧ (∀ r, t.x r = s.x r) ∧
        t.seq.fflags = s.seq.fflags ||| fl ∧ getBits t.seq.priv.mstatus 13 2 = 3 ∧ t.seq.vec = s.seq.vec ∧
        KeepsOthers s t ∧ ∀ a, memGet t.mem a = memGet s.mem a) ∧
      (∀ v fl, fpResult s op fmt rs1 rs2 rs3 rm = .x v fl → ∃ t, exec i s = .next t ∧
        t.x rd = (if rd = 0 then 0 else v) ∧ (∀ r, r ≠ rd → t.x r = s.x r) ∧ (∀ r, t.f r = s.f r) ∧
        t.seq.fflags = s.seq.fflags ||| fl ∧ t.seq.vec = s.seq.vec ∧ KeepsOthers s t ∧ ∀ a, memGet t.mem a = memGet s.mem a))

/-- A CSR instruction answers the old value in rd and writes the new one where it writes at all; a number that names nothing, that
the mode may not use, or that is read-only and written, is cause 2. -/
def Obligations.CsrInstructionsReadAndWrite : Prop :=
  ∀ (s : State) (op : CsrOp) (imm : Bool) (rd src : Reg) (csr : BitVec 12),
    let v : Word := if imm then src.setWidth 64 else s.x src
    (∀ old, s.csrOk csr.toNat (csrWrites op src) = true → s.csrRead csr.toNat = some old →
      Completes (.csrAccess op imm rd src csr) s
        ((if csrWrites op src then s.csrWrite csr.toNat (csrNew op old v) else s).setX rd old)) ∧
    (s.csrOk csr.toNat (csrWrites op src) = false ∨ s.csrRead csr.toNat = none →
      exec (.csrAccess op imm rd src csr) s = .next (s.takeTrap 2 s.seq.latch.bits)) ∧
    (csr.toNat / 1024 = 3 → csrWrites op src = true → exec (.csrAccess op imm rd src csr) s = .next (s.takeTrap 2 s.seq.latch.bits)) ∧
    (modeCode s.seq.mode < csr.toNat / 256 % 4 → exec (.csrAccess op imm rd src csr) s = .next (s.takeTrap 2 s.seq.latch.bits))

/-- What a write of a Salica CSR leaves (R4, R78): xsflags and vstrunc clear the bits written as 1, mprog keeps six bits, msksp and htbase
keep no bit below 3, and vshare takes GRANT, at most 8, and WEIGHT. A WEIGHT of 0, which only an lgrant write can set (R49), is not taken: that the old one
stays, and that a GRANT above 8 is 8, is the model's choice (log 49). No other register changes. -/
def Obligations.SalicaCsrWritesKeepTheirFields : Prop :=
  ∀ (s : State) (v : Word),
    (∃ c, s.csrWrite 0x804 v = { s with seq := { s.seq with ctl := c } } ∧ c = { s.seq.ctl with xsflags := c.xsflags } ∧
      c.xsflags = s.seq.ctl.xsflags &&& ~~~(v.setWidth 4)) ∧
    (∃ c, s.csrWrite 0x805 v = { s with seq := { s.seq with ctl := c } } ∧ c = { s.seq.ctl with vstrunc := c.vstrunc } ∧
      c.vstrunc = (s.seq.ctl.vstrunc && !v.getLsbD 0)) ∧
    (∃ c, s.csrWrite 0x801 v = { s with seq := { s.seq with ctl := c } } ∧ c = { s.seq.ctl with mprog := c.mprog } ∧
      c.mprog = v.toNat % 64) ∧
    (∃ c, s.csrWrite 0x800 v = { s with seq := { s.seq with ctl := c } } ∧ c = { s.seq.ctl with msksp := c.msksp } ∧
      c.msksp = v &&& ~~~7) ∧
    (∃ c, s.csrWrite 0x806 v = { s with seq := { s.seq with ctl := c } } ∧ c = { s.seq.ctl with htbase := c.htbase } ∧
      c.htbase = v &&& ~~~7) ∧
    (∃ x, s.csrWrite 0x5C0 v = { s with seq := { s.seq with vec := x } } ∧
      x = { s.seq.vec with grant := x.grant, weight := x.weight } ∧ x.grant = min 8 (v.toNat % 16) ∧
      x.weight = (if v.toNat / 2 ^ 16 % 256 = 0 then s.seq.vec.weight else v.toNat / 2 ^ 16 % 256))

/-- Taking a trap in S mode, where medeleg delegates the cause, else in M mode (R297, R298): the saved pc is the visible address of the
instruction, cause and tval are set, the previous mode and interrupt enable are stacked, interrupts are off, the pc is at
the base of the vector; no general register, flag or byte of memory changes, and vstart reads 0. -/
def Obligations.TrapEntrySavesAndVectors : Prop :=
  ∀ (s : State) (c : Nat) (v : Word), plainCause c →
    let t := s.takeTrap c v
    let p := t.seq.priv
    (KeepsOthers s t ∧ t.seq.x = s.seq.x ∧ t.seq.f = s.seq.f ∧ t.seq.fflags = s.seq.fflags ∧ t.seq.loops = s.seq.loops ∧
      t.seq.vec = { s.seq.vec with vstart := 0 } ∧ t.seq.ctl = s.seq.ctl ∧ ∀ a, memGet t.mem a = memGet s.mem a) ∧
    (s.seq.mode ≠ .m → s.seq.priv.medeleg.getLsbD c = true →
      t.seq.mode = .s ∧ p.sepc = s.seePc s.hart s.seq.pc ∧ p.scause = BitVec.ofNat 64 c ∧ p.stval = v ∧
      t.seq.pc = s.seq.priv.stvec &&& ~~~3 ∧ getBits p.mstatus 8 1 = (if s.seq.mode = .u then 0 else 1) ∧
      getBits p.mstatus 5 1 = getBits s.seq.priv.mstatus 1 1 ∧ getBits p.mstatus 1 1 = 0 ∧
      p.mepc = s.seq.priv.mepc ∧ p.mcause = s.seq.priv.mcause ∧ p.mtval = s.seq.priv.mtval) ∧
    (s.seq.mode = .m ∨ s.seq.priv.medeleg.getLsbD c = false →
      t.seq.mode = .m ∧ p.mepc = s.seePc s.hart s.seq.pc ∧ p.mcause = BitVec.ofNat 64 c ∧ p.mtval = v ∧
      t.seq.pc = s.seq.priv.mtvec &&& ~~~3 ∧ getBits p.mstatus 11 2 = modeCode s.seq.mode ∧
      getBits p.mstatus 7 1 = getBits s.seq.priv.mstatus 3 1 ∧ getBits p.mstatus 3 1 = 0 ∧
      p.sepc = s.seq.priv.sepc ∧ p.scause = s.seq.priv.scause ∧ p.stval = s.seq.priv.stval)

/-- R106: a trap of cause 24, 29, 30 or 48 sets EPEND, counts, and writes one report to the partition's error log, of TYPE 4 for cause 30 and TYPE 14 else, with the overrun mark where EPEND is
already set; no other cause does. erack clears EPEND and answers the count, which starts at 0 when a task is bound. ctx.save saves EPEND in its area, and ctx.load takes it from there. -/
def Obligations.ErrorTrapsSetEpendAndErackClearsIt : Prop :=
  ∀ (s : State),
    (∀ c v, setsEpend c = true → (s.takeTrap c v).seq.epend = true ∧
      (s.takeTrap c v).seq.eraCount = BitVec.ofNat 64 (min (s.seq.eraCount.toNat + 1) (2 ^ 64 - 1))) ∧
    (∀ c v, setsEpend c = true →
      let e : LogEntry := { type := if c = 30 then 4 else 14, sev := 2, ovr := s.seq.epend, cls := 0, idx := s.hart, addr := v, qid := s.qidOf s.hart,
                            data := if c = 30 then leBytes 8 s.hart ++ leBytes 8 v.toNat else leBytes 8 c ++ leBytes 8 s.hart ++ leBytes 8 v.toNat }
      let epc := s.seePc s.hart s.seq.pc
      let t := ({ s with seq := { s.seq with epend := true, eraCount := BitVec.ofNat 64 (min (s.seq.eraCount.toNat + 1) (2 ^ 64 - 1)) } } : State).logEntry (s.partOf s.hart) e
      (s.seq.task = none → s.takeTrap c v = t.upd fun q => q.trapTo epc c v) ∧
      (∀ k, s.seq.task = some k → c ≠ 48 → s.takeTrap c v =
        (t.errRecord k.launch c s.hart (if s.seq.epend then 4 else 0) k.lin epc v (s.info0 k c v) 0).upd fun q => q.trapTo epc c v) ∧
      (∀ k, s.seq.task = some k → c = 48 → s.takeTrap c v = (t.modLaunch k.launch fun l => { l with severed := true }).upd fun q => q.trapTo epc c v)) ∧
    (∀ h, fld (s.saveArea h).bytes 0x0D 1 / 4 % 2 = b2n (s.getSeq h).epend) ∧
    (∀ b q base vec, (restoreSeq b q base vec).epend = (fld b 0x0D 1 / 4 % 2 == 1) ∧ (restoreSeq b q base vec).eraCount = w64 b 0x2B8) ∧
    (∀ h l t task, (s.taskSeq h l t task).eraCount = 0 ∧ (s.taskSeq h l t task).epend = false) ∧
    (∀ c v, plainCause c → (s.takeTrap c v).seq.epend = s.seq.epend ∧ (s.takeTrap c v).seq.eraCount = s.seq.eraCount) ∧
    (∀ c, setsEpend c = true ↔ c = 24 ∨ c = 29 ∨ c = 30 ∨ c = 48) ∧
    (∀ rd, Completes (.erack rd) s (({ s with seq := { s.seq with epend := false } } : State).setX rd s.seq.eraCount))

/-- ecall takes cause 8, 9 or 11 by the mode, ebreak cause 3 with the instruction's address in tval, and an encoding that nothing assigns
cause 2 with the instruction's bits in tval (R87, R297).
The three causes of ecall, and tval 0 with them, are taken from the ratified text (log 37), which R73 names and does not write out. -/
def Obligations.CallsBreakpointsAndIllegalEncodingsTrap : Prop :=
  ∀ (s : State),
    exec .ecall s = .next (s.takeTrap (ecallCause s.seq.mode) 0) ∧
    exec .ebreak s = .next (s.takeTrap 3 (s.seePc s.hart s.seq.pc)) ∧
    exec .illegalInstruction s = .next (s.takeTrap 2 s.seq.latch.bits)

/-- sret and mret return in the saved mode, with the saved interrupt enable, and are cause 2 where the mode may not execute them; no general, floating-point
or vector register, flag or byte of memory changes; with no loop open and no task they go to the saved pc, its bit 0 cleared. A U-mode hart without a task that takes a
delegated trap and returns with sret is where it was: same pc, mode, registers and interrupt enable. -/
def Obligations.ReturnsRestoreModeAndInterruptEnable : Prop :=
  (∀ (s : State),
     (s.seq.mode = .m ∨ (s.seq.mode = .s ∧ s.seq.priv.mstatus.getLsbD 22 = false) →
       ∃ t, exec .sret s = .next t ∧ (s.seq.loops = [] → s.seq.task = none → t.seq.pc = s.seq.priv.sepc &&& ~~~1) ∧
         t.seq.mode = (if getBits s.seq.priv.mstatus 8 1 = 1 then .s else .u) ∧
         getBits t.seq.priv.mstatus 1 1 = getBits s.seq.priv.mstatus 5 1 ∧ getBits t.seq.priv.mstatus 5 1 = 1 ∧
         getBits t.seq.priv.mstatus 8 1 = 0 ∧ getBits t.seq.priv.mstatus 17 1 = 0 ∧ t.seq.x = s.seq.x ∧ t.seq.f = s.seq.f ∧
         t.seq.vec = s.seq.vec ∧ t.seq.fflags = s.seq.fflags ∧ KeepsOthers s t ∧ ∀ a, memGet t.mem a = memGet s.mem a) ∧
     (s.seq.mode = .u ∨ (s.seq.mode = .s ∧ s.seq.priv.mstatus.getLsbD 22 = true) →
       exec .sret s = .next (s.takeTrap 2 s.seq.latch.bits)) ∧
     (s.seq.mode = .m →
       ∃ t, exec .mret s = .next t ∧ (s.seq.loops = [] → s.seq.task = none → t.seq.pc = s.seq.priv.mepc &&& ~~~1) ∧
         t.seq.mode = modeOf (getBits s.seq.priv.mstatus 11 2) ∧
         getBits t.seq.priv.mstatus 3 1 = getBits s.seq.priv.mstatus 7 1 ∧ getBits t.seq.priv.mstatus 7 1 = 1 ∧
         getBits t.seq.priv.mstatus 11 2 = 0 ∧ t.seq.x = s.seq.x ∧ t.seq.f = s.seq.f ∧
         t.seq.vec = s.seq.vec ∧ t.seq.fflags = s.seq.fflags ∧ KeepsOthers s t ∧ ∀ a, memGet t.mem a = memGet s.mem a) ∧
     (s.seq.mode ≠ .m → exec .mret s = .next (s.takeTrap 2 s.seq.latch.bits))) ∧
  (∀ (s : State) (c : Nat) (v : Word), plainCause c → s.seq.mode = .u → s.seq.task = none → s.seq.loops = [] →
     s.seq.priv.medeleg.getLsbD c = true → s.seq.priv.mstatus.getLsbD 22 = false → s.seq.pc &&& 1 = 0 →
     ∃ t, exec .sret (s.takeTrap c v) = .next t ∧ t.seq.pc = s.seq.pc ∧ t.seq.mode = .u ∧ t.seq.x = s.seq.x ∧ t.seq.f = s.seq.f ∧
       getBits t.seq.priv.mstatus 1 1 = getBits s.seq.priv.mstatus 1 1 ∧ (∀ a, memGet t.mem a = memGet s.mem a))

/-! ## Vector instructions -/

namespace Sys2Proof.Machine.Claim

/-- Is the vector state in order for an instruction that, where `typed`, depends on vtype? -/
def VState (s : State) (typed : Bool) : Bool :=
  s.onCore && s.vecOn && !s.seq.vec.released && !s.seq.vec.fresh && s.seq.vec.vstart == 0 && !(typed && s.seq.vec.vill)

/-- The same with every lane group held still in service (R113). -/
def VReady (s : State) (typed : Bool) : Prop := VState s typed = true ∧ s.lostLanes = 0

/-- A vector instruction completes from `s` with the effect `e`; its record goes to the debug ring and VS is dirty. -/
def VCompletes (i : Instr) (s e : State) : Prop :=
  ∃ info t, exec i s = .next t ∧ Retired ((e.ringRecord info).upd Seq.vecDirty) e.nextPc t

/-- Legal and result: a vector instruction that accesses no memory. -/
abbrev Compute := Bool × State

/-- Elements that f gives, in the group vd of elements of w bits. -/
def filled (s : State) (vd w : Nat) (f : Nat → Option Elem) : VAcc := VAcc.fill ⟨s.seq.vec, 0, false⟩ vd w f s.seq.vec.vl

/-- The product of vwmulx (R123): both elements exact, the result of twice the wider width. -/
def mulx (s : State) (w : Nat) (vm : Bool) (vd vs2 vs1 : Reg) : Compute :=
  let v := s.seq.vec
  let dw := 2 * max v.sew w
  let d := v.grp vd.toNat dw
  let a := v.grp vs2.toNat v.sew
  let b := v.grp vs1.toNat w
  (decide (dw ≤ 64) && d.ok v.nregs && a.ok v.nregs && b.ok v.nregs && !d.overlaps a && !d.overlaps b && (vm || vd.toNat != 0),
   s.putV (filled s vd.toNat dw fun i =>
     if v.active vm i then some (.of (ofS dw (toS v.sew (v.get vs2.toNat v.sew i) * toS w (v.get vs1.toNat w i)))) else none))

/-- The narrowing conversions (R171, R172). -/
def narrowing (s : State) (n : MxFmt) (vm : Bool) (vd vs2 vs1 : Reg) : Compute :=
  let v := s.seq.vec
  let rm := if n = .e2 then some .rne else rmOf s.seq.frm 7
  (s.fpOn && rm.isSome && v.mxOk vm (v.narrowGrp vd.toNat n.width) (v.grp vs2.toNat v.sew) (maskGrp vs1.toNat),
   s.putMx (filled s vd.toNat n.width fun i =>
     if v.active vm i then
       let sc := v.get vs1.toNat 16 (i / 32)
       let r := narrow n (rm.getD .rne) (quiet ((fmtOfWidth v.sew).unpack (v.get vs2.toNat v.sew i))) (sc % 256) (sc / 256)
       some ⟨r.1, r.2.1, r.2.2 != 0⟩
     else none))

/-- The widening conversions (R171, R172). -/
def widening (s : State) (n : MxFmt) (vm : Bool) (vd vs2 vs1 : Reg) : Compute :=
  let v := s.seq.vec
  let rm := rmOf s.seq.frm 7
  (s.fpOn && rm.isSome && v.mxOk vm (v.grp vd.toNat v.sew) (v.narrowGrp vs2.toNat n.width) (maskGrp vs1.toNat),
   s.putV (filled s vd.toNat v.sew fun i =>
     if v.active vm i then
       let sc := v.get vs1.toNat 16 (i / 32)
       some (.fl2 (widen n (fmtOfWidth v.sew) (rm.getD .rne) (v.get vs2.toNat n.width i) (sc % 256) (sc / 256)))
     else none))

/-- The MX format of a vmxscale or of a conversion by its field. -/
def mxOf (fmt : BitVec 5) : MxFmt := match fmt.toNat with | 0 => .e2 | 1 => .e4 | _ => .e5

/-- Elementwise plans of the OP-V instructions that have one (R73): the plan, and the scalar operand. -/
def planOf (s : State) (f6 : BitVec 6) (vm : Bool) (vs1 : Reg) (f3 : BitVec 3) : Option (EPlan × Nat) :=
  let w := s.seq.vec.sew
  match f3.toNat with
  | 0 | 3 | 4 =>
    if [0x0C, 0x0E, 0x0F, 0x17, 0x30, 0x31, 0x27].contains f6.toNat then none
    else (opiPlan f6.toNat f3.toNat w vm s.seq.vec.vxrm).map fun p => (p, opiScalar f6.toNat f3.toNat w vs1 (s.x vs1))
  | 2 | 6 =>
    if f6.toNat ≤ 7 ∨ [0x0E, 0x0F, 0x10, 0x14, 0x17, 0x18, 0x19, 0x1A, 0x1B, 0x1C, 0x1D, 0x1E, 0x1F].contains f6.toNat then none
    else (opmPlan f6.toNat f3.toNat vs1.toNat w s.seq.vec.vxrm).map fun p => (p, (s.x vs1).toNat % 2 ^ w)
  | _ => none

/-- The effect of an elementwise plan, and whether its groups are legal. -/
def planned (s : State) (p : EPlan) (vm : Bool) (vd vs2 vs1 sc : Nat) : Compute :=
  let v := s.seq.vec
  let d : Grp := if p.d = 1 then maskGrp vd else v.grp vd p.d
  let srcs := v.grp vs2 p.a :: ((if p.b ≠ 0 then [v.grp vs1 p.b] else []) ++ (if p.useD then [v.grp vd p.d] else []))
  (decide (p.d ≤ 64 ∧ p.a ≤ 64) && v.legal vm d srcs,
   s.putV (filled s vd p.d fun i =>
     if p.all || v.active vm i then
       some (p.f (v.get vs2 p.a i) (if p.b ≠ 0 then v.get vs1 p.b i else sc) (if p.useD then v.get vd p.d i else 0) (v.bit 0 i))
     else none))

/-- The Salica vector instructions that access no memory. -/
def vecCompute (s : State) : Instr → Option Compute
  | .vmdepth rd => some (true, s.setX rd (BitVec.ofNat 64 s.seq.vec.mdepth))
  | .vidxc vm rd vd vs2 =>
    let v := s.seq.vec
    let d := v.grp vd.toNat v.sew
    let m := maskGrp vs2.toNat
    let r := packIdx v vm vd.toNat vs2.toNat v.sew v.vl
    some (d.ok v.nregs && m.ok v.nregs && !d.overlaps m && (vm || vd.toNat != 0), (s.updVec fun _ => r.1).setX rd (BitVec.ofNat 64 r.2))
  | .vwmulxE8 vm vd vs2 vs1 => some (mulx s 8 vm vd vs2 vs1)
  | .vwmulxE16 vm vd vs2 vs1 => some (mulx s 16 vm vd vs2 vs1)
  | .vwmulxE32 vm vd vs2 vs1 => some (mulx s 32 vm vd vs2 vs1)
  | .vwmulxE64 vm vd vs2 vs1 => some (mulx s 64 vm vd vs2 vs1)
  | .vfcvtE2 vm vd vs2 vs1 => some (narrowing s .e2 vm vd vs2 vs1)
  | .vfcvtE4 vm vd vs2 vs1 => some (narrowing s .e4 vm vd vs2 vs1)
  | .vfcvtE5 vm vd vs2 vs1 => some (narrowing s .e5 vm vd vs2 vs1)
  | .vfwcvtE2 vm vd vs2 vs1 => some (widening s .e2 vm vd vs2 vs1)
  | .vfwcvtE4 vm vd vs2 vs1 => some (widening s .e4 vm vd vs2 vs1)
  | .vfwcvtE5 vm vd vs2 vs1 => some (widening s .e5 vm vd vs2 vs1)
  | .vmxscale vm vd vs2 fmt =>
    let v := s.seq.vec
    let g := v.grp vs2.toNat v.sew
    some (s.fpOn && decide (fmt.toNat ≤ 2) && v.mxOk vm (maskGrp vd.toNat) g g,
      s.putV (VAcc.fill ⟨v, 0, false⟩ vd.toNat 16 (fun b => some (.of (scaleOf (mxOf fmt) (v.blockData vm vs2.toNat b)))) ((v.vl + 31) / 32)))
  | .texdec vm vd vs2 fmt =>
    let v := s.seq.vec
    let k := fmt.toNat
    let w := if k = 3 then 64 else 32
    some (decide (k ≤ 4) && v.shadeOk 32 vm false (v.grpK vd.toNat 32 4) (v.grpK vs2.toNat w (if k = 3 then 2 else 1)),
      s.updVec fun _ => eachElem (v.active vm) (fun u i => u.put4 vd.toNat i fun ch => (texChan k (v.get vs2.toNat w i) ch).f32) v.vl v)
  | .vectorArithmetic f6 vm vs2 vs1 f3 vd =>
    match planOf s f6 vm vs1 f3 with
    | some (p, sc) => some (planned s p vm vd.toNat vs2.toNat vs1.toNat sc)
    | none => none
  | _ => none

/-- Every Salica vector instruction: those that vrelease, vregcfg and a vtype with vill put out of order (R124, R114, R74). -/
def salicaVector : Instr → Bool
  | .vmpush .. | .vmelse | .vmpop | .vmdepth .. | .vidxc .. | .vfcvtE2 .. | .vfcvtE4 .. | .vmxscale .. | .vfwcvtE2 .. | .vfwcvtE4 ..
  | .vfwcvtE5 .. | .vfcvtE5 .. | .vwmulxE8 .. | .vwmulxE16 .. | .vwmulxE32 .. | .vwmulxE64 .. | .vle8Inv .. | .vle16Inv .. | .vle32Inv ..
  | .vle64Inv .. | .vsmx .. | .edge .. | .texdec .. | .texw .. | .texS .. | .texSa .. | .boxt .. | .trit .. | .spop .. | .vwait .. | .msendv .. => true
  | _ => false

/-- A vector access: does it depend on vtype, is it legal, and its run. -/
abbrev Access := Bool × Bool × Res VInfo

/-- The vector accesses: unit-stride, fault-first, strided and indexed loads and stores and the invariant loads (R73, R147), vsmx (R149), and the
instructions of 18 that read blocks (R284). -/
def vecAccess (s : State) : Instr → Option Access
  | .vectorLoad nf mop vm rs2 rs1 width vd =>
    let v := s.seq.vec
    let w := eewOf width
    let n := nf.toNat + 1
    let d := vd.toNat
    let ord := memOrd false mop.toNat nf.toNat width.toNat
    let plain (addr : Nat → Word) (k : Nat) : Access :=
      (true, v.segOk d w n && (vm || d != 0), s.loadSegs false vm addr w n d (v.grp d w).count (memClass false mop.toNat) (ord k))
    let x := v.grp rs2.toNat w
    let g := v.grp d v.sew
    let apart : Bool := decide (x.reg + x.count ≤ d ∨ d + g.count * n ≤ x.reg)
    if mop = 0 ∧ rs2 = 0 then some (plain (unitAddr (s.x rs1) (n * (w / 8))) 0)
    else if mop = 0 ∧ rs2 = 16 then some (plain (unitAddr (s.x rs1) (n * (w / 8))) 3)
    else if mop = 2 then some (plain (stridedAddr (s.x rs1) (s.x rs2)) 0)
    else if mop = 1 ∨ mop = 3 then
      some (true, v.segOk d v.sew n && v.legal vm g [x] && (n == 1 || apart),
        s.loadSegs false vm (indexedAddr v (s.x rs1) rs2.toNat w) v.sew n d g.count (memClass false mop.toNat) (ord 0))
    else none
  | .vectorStore nf mop vm rs2 rs1 width vs3 =>
    let v := s.seq.vec
    let w := eewOf width
    let n := nf.toNat + 1
    let d := vs3.toNat
    let g := v.grp d w
    let plain (addr : Nat → Word) : Access :=
      (true, v.segOk d w n && v.legalSrcs vm (v.segGrps d w n), s.storeSegs vm addr (v.segData d w n g.count) (n * (w / 8)) (memClass true mop.toNat)
        (memOrd true mop.toNat nf.toNat width.toNat 0))
    let x := v.grp rs2.toNat w
    let gi := v.grp d v.sew
    if mop = 0 ∧ rs2 = 0 then some (plain (unitAddr (s.x rs1) (n * (w / 8))))
    else if mop = 2 then some (plain (stridedAddr (s.x rs1) (s.x rs2)))
    else if mop = 1 ∨ mop = 3 then
      some (true, v.segOk d v.sew n && v.legalSrcs vm (x :: v.segGrps d v.sew n),
        s.storeSegs vm (indexedAddr v (s.x rs1) rs2.toNat w) (v.segData d v.sew n gi.count) (n * (v.sew / 8)) (memClass true mop.toNat)
          (memOrd true mop.toNat nf.toNat width.toNat 0))
    else none
  | .vle8Inv vm vd rs1 => some (invLoad 8 4336 vm vd rs1)
  | .vle16Inv vm vd rs1 => some (invLoad 16 4337 vm vd rs1)
  | .vle32Inv vm vd rs1 => some (invLoad 32 4338 vm vd rs1)
  | .vle64Inv vm vd rs1 => some (invLoad 64 4339 vm vd rs1)
  | .vsmx vm vs3 rs1 vs2 =>
    let v := s.seq.vec
    let g2 := v.grp vs2.toNat 16
    let g3 : Grp := ⟨vs3.toNat, 128, 8 * v.lmul⟩
    some (true, v.sew == 16 && decide (v.lmul ≤ 8) && g2.ok v.nregs && g3.ok v.nregs && !g3.overlaps g2 && (vm || (vs2 != 0 && vs3 != 0)),
      s.storeSegs vm (unitAddr (s.x rs1) 18) (fun i => [leBytes 16 (v.get vs3.toNat 128 i) ++ leBytes 2 (v.get vs2.toNat 16 i)]) 18 4 4340)
  | _ => none
where
  invLoad (w ord : Nat) (vm : Bool) (vd rs1 : Reg) : Access :=
    (true, s.seq.vec.segOk vd.toNat w 1 && (vm || vd.toNat != 0),
     s.loadSegs true vm (unitAddr (s.x rs1) (w / 8)) w 1 vd.toNat (s.seq.vec.grp vd.toNat w).count 1 ord)

end Sys2Proof.Machine.Claim

/-- Writing elements of a register group: each element below n for which there is a result holds it, every other keeps its value, and so does
every register outside the group (R111). R74, R148: elements are accessed in ascending order; the first that traps, if it is not element 0, ends the access there and keeps what came before it;
element 0's trap is taken with the state unchanged. -/
def Obligations.VectorElementsAreTakenInOrder : Prop :=
  (∀ (v : Vec) (vb w n : Nat) (f : Nat → Option Elem), 0 < w → 0 < v.vlen → v.vlen % w = 0 → v.vlen ≤ 65536 → vb + (n * w + v.vlen - 1) / v.vlen ≤ 32 →
     let u := (VAcc.fill ⟨v, 0, false⟩ vb w f n).vec
     (∀ i, i < n → u.get vb w i = match f i with | some e => e.val % 2 ^ w | none => v.get vb w i) ∧
     (∀ r, r < vb ∨ vb + (n * w + v.vlen - 1) / v.vlen ≤ r → u.reg r = v.reg r) ∧
     u = { v with regs := u.regs }) ∧
  (∀ (act : Nat → Bool) (f : Nat → State → Res Unit) (n : Nat) (s s' : State) (k : Option Nat),
     (runElems act f n s = .ok k s' → ∀ i, k = some i → i < n ∧ act i = true ∧ 0 < i ∧
       ∃ s1 c v s2, runElems act f i s = .ok none s1 ∧ f i s1 = .trap c v s2 ∧ s' = s1) ∧
     (∀ c v, runElems act f n s = .trap c v s' → s' = s ∧ act 0 = true ∧ ∃ s2, f 0 s = .trap c v s2) ∧
     (runElems act f n s = .ok none s' → ∀ i, i < n → ∃ s1, runElems act f i s = .ok none s1 ∧
       (act i = true → ∃ s2, f i s1 = .ok () s2 ∧ runElems act f (i + 1) s = .ok none s2) ∧
       (act i = false → runElems act f (i + 1) s = .ok none s1)))

/-- Vector computations complete with their elementwise effect; groups that are not legal are cause 2. The reductions, permutations, mask and
floating-point operations of OP-V complete where their effect is defined.
What counts as a legal group beyond R87 (log 30), the need of FS and frm by the MX conversions (log 36), and that a signalling NaN raises no NV in them (log 71) are
the model's readings. -/
def Obligations.VectorComputationsComplete : Prop :=
  (∀ (i : Instr) (s e : State) (ok : Bool), VReady s true → vecCompute s i = some (ok, e) →
    (ok = true → VCompletes i s e) ∧ (ok = false → exec i s = .next (s.takeTrap 2 s.seq.latch.bits))) ∧
  (∀ (s e : State) (info : VInfo) (f6 : BitVec 6) (vm : Bool) (vs2 vs1 vd : Reg) (f3 : BitVec 3),
    doVArith s f6 vm vs2 vs1 f3 vd = .ok info e → VCompletes (.vectorArithmetic f6 vm vs2 vs1 f3 vd) s e)

/-- Vector accesses that can be performed, if only up to an element, complete with what they performed; a trap at element 0 is taken;
groups that are not legal are cause 2. The whole-register and mask accesses complete once every byte can be accessed, and any trap of theirs is taken. -/
def Obligations.VectorAccessesComplete : Prop :=
  (∀ (i : Instr) (s e : State) (typed ok : Bool) (r : Res VInfo) (info : VInfo) (c : Nat) (v : Word), VReady s typed → vecAccess s i = some (typed, ok, r) →
    (ok = true → r = .ok info e → VCompletes i s e) ∧
    (ok = true → r = .trap c v e → exec i s = .next (e.takeTrap c v)) ∧
    (ok = false → exec i s = .next (s.takeTrap 2 s.seq.latch.bits))) ∧
  (∀ (s e : State) (info : VInfo) (c : Nat) (v : Word) (nf : BitVec 3) (mop : BitVec 2) (vm : Bool) (rs2 rs1 : Reg) (width : BitVec 2) (vd : Reg),
    (doVLoad s nf mop vm rs2 rs1 width vd = .ok info e → VCompletes (.vectorLoad nf mop vm rs2 rs1 width vd) s e) ∧
    (doVLoad s nf mop vm rs2 rs1 width vd = .trap c v e → exec (.vectorLoad nf mop vm rs2 rs1 width vd) s = .next (e.takeTrap c v)) ∧
    (doVStore s nf mop vm rs2 rs1 width vd = .ok info e → VCompletes (.vectorStore nf mop vm rs2 rs1 width vd) s e) ∧
    (doVStore s nf mop vm rs2 rs1 width vd = .trap c v e → exec (.vectorStore nf mop vm rs2 rs1 width vd) s = .next (e.takeTrap c v)))

/-- R124, R114, R74: with the vector unit released, or before the first vset* after a task start or vregcfg, or with vstart not 0, with vill or with VS off, every
Salica vector instruction is cause 2; with a held lane group out of service it is cause 29 where its operands are legal (R113, R116). That VS off counts (logs 6 and 36), that a supervisor hart has no
vector unit (log 29), and that cause 2 comes before cause 29 (log 30), are the model's readings. -/
def Obligations.VectorStateOutOfOrderIsIllegal : Prop :=
  ∀ (i : Instr) (s : State),
    (salicaVector i = true → VState s true = false → exec i s = .next (s.takeTrap 2 s.seq.latch.bits)) ∧
    (∀ e, vecCompute s i = some (true, e) → VState s true = true → s.lostLanes ≠ 0 →
      exec i s = .next (s.takeTrap 29 (s.lostLanes.setWidth 64)))

/-- R112: a vset* whose lanes are granted sets vtype and vl, which rd receives; with a reserved vtype it sets vill and vl 0. vsetvlz goes to its label where the
length asked for is 0 (R115); a label nearer than 4 bytes ahead is cause 2 in native code. A vset* that gets no lanes waits, and asks for them once, as it begins to wait, where it
holds no grant (R51, R110). -/
def Obligations.VsetSetsTypeAndLength : Prop :=
  ∀ (s s1 : State) (rd rs1 rs2 : Reg), s.onCore = true → s.vecOn = true → s.seq.vec.released = false → s.seq.vec.vstart = 0 →
    let after (t : Word) (avl : Avl) : State :=
      (s1.updVec fun v => v.setType t avl).setX rd (BitVec.ofNat 64 (s1.seq.vec.setType t avl).vl)
    (s.takeLanes = .ok () s1 →
      (∀ vt, VCompletes (.vsetvli rd rs1 vt) s (after (vt.setWidth 64) (avlOf s rd rs1))) ∧
      (∀ avl vt, VCompletes (.vsetivli rd avl vt) s (after (vt.setWidth 64) (.n avl.toNat))) ∧
      VCompletes (.vsetvl rd rs1 rs2) s (after (s.x rs2) (avlOf s rd rs1)) ∧
      (∀ vt off, (s.seq.latch.form = .native → 4 ≤ off.toNat) →
        ∃ info t, exec (.vsetvlz rd rs1 vt off) s = .next t ∧
          Retired (((after (vt.setWidth 64) (.n (s.x rs1).toNat)).ringRecord info).upd Seq.vecDirty)
            (if (s.x rs1).toNat = 0 then s.seq.pc + off else s.nextPc) t)) ∧
    (∀ vt off, s.seq.latch.form = .native → off.toNat < 4 → exec (.vsetvlz rd rs1 vt off) s = .next (s.takeTrap 2 s.seq.latch.bits)) ∧
    (s.takeLanes = .stall .lanes s1 →
      (∀ vt, exec (.vsetvli rd rs1 vt) s = .next (s1.stalled .lanes)) ∧ (∀ avl vt, exec (.vsetivli rd avl vt) s = .next (s1.stalled .lanes)) ∧
      exec (.vsetvl rd rs1 rs2) s = .next (s1.stalled .lanes) ∧
      (∀ vt off, (s.seq.latch.form = .native → 4 ≤ off.toNat) → exec (.vsetvlz rd rs1 vt off) s = .next (s1.stalled .lanes))) ∧
    (s.laneGrant = 0 → s.seq.vec.grant = 0 → ∃ s2, s.takeLanes = .stall .lanes s2 ∧
      (s.seq.stall ≠ some .lanes → (s2.cluster (hartCluster s.hart)).lreq.getLsbD (s.hart % 64) = true) ∧
      (s.seq.stall = some .lanes → s2.clusters = s.clusters))

/-- What setting vtype gives (R112): a reserved vtype sets vill and vl 0, and any other stands with vl the smaller of the length asked for and VLMAX. R110: the lane groups that a vset* takes are as many as the grant, CAP and the groups in service allow, none of them retired or held by another context of
the core; VLEN follows from their number and NREG. -/
def Obligations.LanesAndLengthFollowGrantAndRequest : Prop :=
  (∀ (v : Vec) (t : Word) (k : Nat),
     (badVtype t = true → ∀ avl, (v.setType t avl).vill = true ∧ (v.setType t avl).vl = 0) ∧
     (badVtype t = false →
       (v.setType t (.n k)).vtype = t ∧ (v.setType t (.n k)).vl = min k (v.setType t (.n k)).vlmax ∧
       (v.setType t .max).vl = (v.setType t .max).vlmax ∧ (v.setType t (.n k)).vill = false ∧
       (v.setType t (.n k)).regs = v.regs ∧ (v.setType t (.n k)).vlen = v.vlen)) ∧
  (∀ (s s1 : State), s.takeLanes = .ok () s1 →
     popcount s1.seq.vec.hmask = s.laneGrant ∧ 0 < s.laneGrant ∧ s.laneGrant ≤ s.seq.vec.grant ∧ s.laneGrant ≤ s.capOf (coreOf s.hart) ∧
     s1.seq.vec.hmask &&& (s.core (coreOf s.hart)).dis = 0 ∧
     (∀ g, g < 8 → s1.seq.vec.hmask.getLsbD g = true → s.seq.vec.hmask.getLsbD g = true ∨ (s.otherLanes s.hart).getLsbD g = false) ∧
     s1.seq.vec.vlen = 4 * s.laneGrant * 16384 / s.seq.vec.nregs ∧ s1.seq.vec.fresh = false)

/-- R114, R124: vregcfg changes the number of named registers and leaves vill set until the next vset*; another number than 8, 16 or 32 changes nothing and answers 0.
vrelease gives up lanes, registers and mask stack. Both are cause 2 with the unit released, vregcfg with a mask stack that is not empty, and vrelease between a vregcfg and the
next vset*. -/
def Obligations.VregcfgAndVreleaseReshapeTheUnit : Prop :=
  ∀ (s : State) (rd rs1 : Reg), s.onCore = true → s.vecOn = true → s.seq.vec.vstart = 0 →
    (s.seq.vec.released = false → s.seq.vec.mdepth = 0 → (s.x rs1).toNat = 8 ∨ (s.x rs1).toNat = 16 ∨ (s.x rs1).toNat = 32 →
      ∃ e : State, VCompletes (.vregcfg rd rs1) s (e.setX rd (BitVec.ofNat 64 s.seq.vec.nregs)) ∧ e.seq.vec.nregs = (s.x rs1).toNat ∧
        e.seq.vec.vill = true ∧ e.seq.vec.vl = 0 ∧ e.seq.vec.fresh = true ∧ e = { s with seq := { s.seq with vec := e.seq.vec } }) ∧
    (s.seq.vec.released = false → s.seq.vec.mdepth = 0 → (s.x rs1).toNat ≠ 8 → (s.x rs1).toNat ≠ 16 → (s.x rs1).toNat ≠ 32 →
      VCompletes (.vregcfg rd rs1) s (s.setX rd 0)) ∧
    (s.seq.vec.released = true ∨ s.seq.vec.mdepth ≠ 0 → exec (.vregcfg rd rs1) s = .next (s.takeTrap 2 s.seq.latch.bits)) ∧
    (s.seq.vec.released = false → s.seq.vec.fresh = false ∨ s.seq.vec.vlen = 0 → ∃ e : State, VCompletes .vrelease s e ∧ e = { s with seq := { s.seq with vec := e.seq.vec } } ∧
      e.seq.vec.released = true ∧ e.seq.vec.hmask = 0 ∧ e.seq.vec.vlen = 0 ∧ e.seq.vec.mstack = [] ∧ e.seq.vec.mdepth = 0 ∧ e.seq.vec.vill = true) ∧
    (s.seq.vec.released = true ∨ (s.seq.vec.fresh = true ∧ s.seq.vec.vlen ≠ 0) → exec .vrelease s = .next (s.takeTrap 2 s.seq.latch.bits))

/-- R117 to R119, with the entry on chip: vmpush keeps v0 and leaves in it the elements below vl that the condition also selects; vmelse leaves those that it did not select;
vmpop brings v0 back. -/
def Obligations.MaskStackPushElsePop : Prop :=
  ∀ (s : State) (vs1 : Reg), VReady s true →
    (vs1.toNat < s.seq.vec.nregs → s.seq.vec.mdepth + 1 < 2 ^ 32 → s.seq.vec.mstack.length < 8 → s.seq.vec.vl ≤ s.seq.vec.vlen →
      ∃ e : State, VCompletes (.vmpush vs1) s e ∧ e.seq.vec.mdepth = s.seq.vec.mdepth + 1 ∧
        (∀ j, j < s.seq.vec.vl → e.seq.vec.bit 0 j = (s.seq.vec.bit 0 j && s.seq.vec.bit vs1.toNat j)) ∧
        (∀ j, s.seq.vec.vl ≤ j → e.seq.vec.bit 0 j = s.seq.vec.bit 0 j) ∧
        (∀ r, r ≠ 0 → e.seq.vec.reg r = s.seq.vec.reg r) ∧
        (∀ e2 : Vec, e2 = { e.seq.vec with regs := e2.regs } →
          ∃ e3 : State, VCompletes .vmelse { e with seq := { e.seq with vec := e2 } } e3 ∧
            ∀ j, j < s.seq.vec.vl → e3.seq.vec.bit 0 j = (s.seq.vec.bit 0 j && !s.seq.vec.bit vs1.toNat j)) ∧
        (∀ e2 : Vec, e2 = { e.seq.vec with regs := e2.regs } →
          ∃ e4 : State, VCompletes .vmpop { e with seq := { e.seq with vec := e2 } } e4 ∧ e4.seq.vec.mdepth = s.seq.vec.mdepth ∧
            e4.seq.vec.mstack = s.seq.vec.mstack ∧ ∀ j, j < s.seq.vec.vlen → e4.seq.vec.bit 0 j = s.seq.vec.bit 0 j)) ∧
    (s.seq.vec.mdepth = 0 → exec .vmelse s = .next (s.takeTrap 2 s.seq.latch.bits) ∧ exec .vmpop s = .next (s.takeTrap 2 s.seq.latch.bits))

/-- The instructions of 18 that read memory, with their block readable and valid: edge writes the saturated edge values (R285); texw the footprint of each sample (R290); tex.s four channels,
boxt and trit one word for each element they reach (R291, R294), their reads of one line merged into a span (R129); the corners of boxt and trit that log 18 names are the model's choice. A block of edge, texw or tex.s that is not aligned is cause 4. -/
def Obligations.ShadingInstructionsComplete : Prop :=
  ∀ (s s1 : State) (vm : Bool) (vd vs2 rs1 : Reg), VReady s true →
    let v := s.seq.vec
    (∀ b, v.shadeOk 64 vm true (v.grp vd.toNat 64) (v.grp vs2.toNat 64) = true → s.readBlock (s.x rs1) 32 32 = .ok b s1 →
      field b 0x10 4 < 2 → field b 0x14 12 = 0 →
      VCompletes (.edge vm vd vs2 rs1) s (s1.putV (filled s vd.toNat 64 fun i =>
        if v.active vm i then
          let q := v.get vs2.toNat 64 i
          some (.of (sat64 (edgeValue (sgn 32 (field b 0 4)) (sgn 32 (field b 4 4)) (sgn 32 (field b 8 4)) (sgn 32 (field b 12 4)) (field b 0x10 4 % 2 == 1)
            (sgn 24 (q % 2 ^ 24)) (sgn 24 (q / 2 ^ 32 % 2 ^ 24)))))
        else none))) ∧
    (∀ t, v.shadeOk 64 vm false (v.grpK vd.toNat 64 2) (v.grpK vs2.toNat 64 1) = true → s.readTexture (s.x rs1) = .ok t s1 →
      VCompletes (.texw vm vd vs2 rs1) s (s1.updVec fun _ => eachElem (v.active vm) (fun u i =>
        let f := t.foot (v.get vs2.toNat 64 i)
        (u.put vd.toNat 64 (2 * i) (f.i0 + f.i1 * 2 ^ 16 + f.j0 * 2 ^ 32 + f.j1 * 2 ^ 48)).put vd.toNat 64 (2 * i + 1)
          (f.fu + f.fv * 2 ^ 8 + t.filt * 2 ^ 16)) v.vl v)) ∧
    (∀ t k s2, v.shadeOk 32 vm false (v.grpK vd.toNat 32 4) (v.grpK vs2.toNat 64 2) = true → s.readTexture (s.x rs1) = .ok t s1 →
      runElems (v.active vm) (fun i st => (st.sample st.via t (v.get vs2.toNat 64 i)).bind fun l st1 =>
        .ok () (st1.updVec fun u => u.put4 vd.toNat i fun ch => l.getD ch 0)) v.vl s1 = .ok k s2 →
      let locs := (List.range (k.getD v.vl)).flatMap fun i => if v.active vm i then s2.texelLocs s.via t (v.get vs2.toNat 64 i) else []
      VCompletes (.texS vm vd vs2 rs1) s ((s2.mergeSpans s.via locs).truncLoad k)) ∧
    (∀ i n f k, (i = Instr.boxt vm vd vs2 rs1 ∧ n = 32 ∧ f = boxHit) ∨ (i = Instr.trit vm vd vs2 rs1 ∧ n = 48 ∧ f = triHit) →
      let ray (j : Nat) : Word := s.x rs1 + BitVec.ofNat 64 (48 * j)
      let node (j : Nat) : Word := BitVec.ofNat 64 (v.get vs2.toNat 64 j)
      let m := k.getD v.vl
      v.shadeOk 32 vm false (v.grpK vd.toNat 32 1) (v.grpK vs2.toNat 64 2) = true →
      runElems (v.active vm) (fun j st =>
        (st.rayElem j (ray j) (node j) n f).bind fun x st1 => .ok () (st1.updVec fun u => u.put vd.toNat 32 j x)) v.vl s = .ok k s1 →
      VCompletes i s ((s1.mergeSpans s.via (s1.elemLocs s.via .load (v.active vm) ray 48 m ++ s1.elemLocs s.via .load (v.active vm) node n m)).truncLoad k)) ∧
    ((s.x rs1).toNat % 32 ≠ 0 →
      (v.shadeOk 64 vm true (v.grp vd.toNat 64) (v.grp vs2.toNat 64) = true → exec (.edge vm vd vs2 rs1) s = .next (s.takeTrap 4 (s.x rs1))) ∧
      (v.shadeOk 64 vm false (v.grpK vd.toNat 64 2) (v.grpK vs2.toNat 64 1) = true → exec (.texw vm vd vs2 rs1) s = .next (s.takeTrap 4 (s.x rs1))) ∧
      (v.shadeOk 32 vm false (v.grpK vd.toNat 32 4) (v.grpK vs2.toNat 64 2) = true → exec (.texS vm vd vs2 rs1) s = .next (s.takeTrap 4 (s.x rs1))))

/-! ## Engines -/

namespace Sys2Proof.Machine.Claim

/-- `e` is `s` with the operation `op` issued to the copy engine under the next number and its token rd pending; one that moves nothing is complete at
once, and has written its token (R151, R155, R161). -/
def CopyIssued (s e : State) (rd : Reg) (op : CopyOp) : Prop :=
  let n := s.seq.copy.iss + 1
  e = { s with seq := e.seq } ∧
  (op.failed ≠ none ∨ op.rows * op.rowBytes ≠ 0 →
    e.seq = { s.seq with copy := { s.seq.copy with iss := n, ops := s.seq.copy.ops ++ [{ op with n := n, tok := rd, issuer := s.issuer s.hart }] },
                         pend := if rd = 0 then s.seq.pend else s.seq.pend ++ [(rd, n)] }) ∧
  (op.failed = none → op.rows * op.rowBytes = 0 → (∀ o ∈ s.seq.copy.ops, o.n < n) → (∀ c ∈ s.seq.copy.chains, c.n < n) →
    e.seq.copy.iss = n ∧ e.seq.copy.ops = s.seq.copy.ops ∧ e.seq.copy.chains = s.seq.copy.chains ∧
    (rd ≠ 0 → e.x rd = BitVec.ofNat 64 (n % 2 ^ 63) ∧ ∀ m, (rd, m) ∉ e.seq.pend) ∧ ∀ r, r ≠ rd → e.x r = s.x r)

/-- The operation and translated rows of a matrix instruction whose rows can all be reached: an mma reads its B tile and its A rows from mprog on
(R186), mload and mst the rows of their control word (R189), mzero none. -/
def matCommand (s : State) : Instr → Option (MatOp × State)
  | .mmaE4e4 acc rs1 rs2 fs3 => scaled .e4e4 acc rs1 rs2 fs3
  | .mmaE4e5 acc rs1 rs2 fs3 => scaled .e4e5 acc rs1 rs2 fs3
  | .mmaE5e4 acc rs1 rs2 fs3 => scaled .e5e4 acc rs1 rs2 fs3
  | .mmaE5e5 acc rs1 rs2 fs3 => scaled .e5e5 acc rs1 rs2 fs3
  | .mmaE2e2 acc rs1 rs2 fs3 => scaled .e2e2 acc rs1 rs2 fs3
  | .mmaE2e4 acc rs1 rs2 fs3 => scaled .e2e4 acc rs1 rs2 fs3
  | .mmaE4e2 acc rs1 rs2 fs3 => scaled .e4e2 acc rs1 rs2 fs3
  | .mmaI8i8 acc rs1 rs2 fs3 => scaled .i8i8 acc rs1 rs2 fs3
  | .mmaBfbf acc rs1 rs2 => rows .bfbf acc rs1 rs2 0
  | .mmaHfhf acc rs1 rs2 => rows .hfhf acc rs1 rs2 0
  | .mmaDfdf acc rs1 rs2 => rows .dfdf acc rs1 rs2 0
  | .mload acc rs1 rs2 => tile .mload false 4 acc rs1 rs2 0
  | .mstF32 acc rs1 rs2 => tile (.mst .f32) true 4 acc rs1 rs2 0
  | .mstBf16 acc rs1 rs2 => tile (.mst .bf16) true 2 acc rs1 rs2 0
  | .mstF16 acc rs1 rs2 => tile (.mst .f16) true 2 acc rs1 rs2 0
  | .mstI32 acc rs1 rs2 => tile (.mst .i32) true 4 acc rs1 rs2 0
  | .mstE4m3 acc rs1 rs2 fs3 => if s.fpOn then tile (.mst .e4m3) true 1 acc rs1 rs2 ((s.f fs3).setWidth 32) else none
  | .mstE5m2 acc rs1 rs2 fs3 => if s.fpOn then tile (.mst .e5m2) true 1 acc rs1 rs2 ((s.f fs3).setWidth 32) else none
  | .mzero acc => some (newMat (s.issuer s.hart) .mzero acc 0 0 [], s)
  | _ => none
where
  rows (f : MmaFmt) (acc : BitVec 2) (rs1 rs2 : Reg) (w : BitVec 32) : Option (MatOp × State) :=
    let via := s.viaEng s.hart (s.issuer s.hart) false
    match passB via f (s.x rs2) s.seq.ctl.mstrb s with
    | .all bs s1 =>
      match passA via f (s.x rs1) s.seq.ctl.mstra s.seq.ctl.mprog s1 with
      | .all as s2 => some ({ newMat (s.issuer s.hart) (.mma f) acc s.seq.ctl.mprog w bs with rows := as }, s2)
      | _ => none
    | _ => none
  scaled (f : MmaFmt) (acc : BitVec 2) (rs1 rs2 fs3 : Reg) : Option (MatOp × State) :=
    if s.fpOn then rows f acc rs1 rs2 ((s.f fs3).setWidth 32) else none
  tile (k : MatKind) (store : Bool) (e : Nat) (acc : BitVec 2) (rs1 rs2 : Reg) (w : BitVec 32) : Option (MatOp × State) :=
    let c := s.x rs2
    if getBits c 48 10 ≠ 0 then none
    else
      match passRows (s.viaEng s.hart (s.issuer s.hart) false) store (fun m => s.x rs1 + BitVec.ofNat 64 m * (c.setWidth 48).signExtend 64) (64 * e) e
          (getBits c 58 6 + 1 - s.seq.ctl.mprog) s.seq.ctl.mprog [] s with
      | .all as s1 => some ({ newMat (s.issuer s.hart) k acc s.seq.ctl.mprog w [] with rows := as }, s1)
      | _ => none

/-- A copy instruction but cp.chain. -/
def isCopy (rd rs1 rs2 rs3 : Reg) (i : Instr) : Prop :=
  i = .cpG2s rd rs1 rs2 rs3 ∨ i = .cpS2g rd rs1 rs2 rs3 ∨ i = .cpG2g rd rs1 rs2 rs3 ∨ i = .cp2d rd rs1 rs2 rs3 ∨ i = .cpMma rd rs1

/-- Is an instruction mzero, which leaves mprog alone? -/
def isMzero : Instr → Bool | .mzero _ => true | _ => false

end Sys2Proof.Machine.Claim

/-- The copy instructions issue their operation under the next number and complete: the linear forms from their registers, cp.2d and cp.mma from a
descriptor in memory, cp.mma with a matrix operation that follows the copy, cp.chain from its first entry and its TAIL and DONE pair, which it reads. With 16
operations not complete they wait, cp.mma also with four matrix operations and cp.chain with two chains. A misaligned descriptor, entry or pair is cause 4, a
read of a descriptor or pair that faults is that trap, and an mma word that is none is cause 2; so is every copy instruction on a supervisor hart.
That cp.chain reads its pair at issue, and that a command whose checks fail takes its number and completes as failed, are the model's readings (log 39), and so is cause 2 on a
supervisor hart (log 29). -/
def Obligations.CopiesTakeNumbersAndTokens : Prop :=
  (∀ (s : State) (rd rs1 rs2 rs3 : Reg), s.onCore = true → s.seq.copy.full = false →
    (∃ e, Completes (.cpG2s rd rs1 rs2 rs3) s e ∧ CopyIssued s e rd (linearOp 0 (s.x rs1) (s.x rs2) (s.x rs3))) ∧
    (∃ e, Completes (.cpS2g rd rs1 rs2 rs3) s e ∧ CopyIssued s e rd (linearOp 1 (s.x rs1) (s.x rs2) (s.x rs3))) ∧
    (∃ e, Completes (.cpG2g rd rs1 rs2 rs3) s e ∧ CopyIssued s e rd (linearOp 2 (s.x rs1) (s.x rs2) (s.x rs3)))) ∧
  (∀ (s s1 : State) (rd rs1 rs2 rs3 : Reg) (b : List Byte) (c : Nat) (v : Word), s.onCore = true → s.seq.copy.full = false →
    ((s.x rs3).toNat % 32 = 0 → s.loadAt s.via (s.x rs3) 32 false = .ok b s1 →
      ∃ e, Completes (.cp2d rd rs1 rs2 rs3) s e ∧ CopyIssued s1 e rd (descOp (s.x rs1) (s.x rs2) b)) ∧
    ((s.x rs3).toNat % 32 = 0 → s.loadAt s.via (s.x rs3) 32 false = .trap c v s1 → exec (.cp2d rd rs1 rs2 rs3) s = .next (s1.takeTrap c v)) ∧
    ((s.x rs3).toNat % 32 ≠ 0 → exec (.cp2d rd rs1 rs2 rs3) s = .next (s.takeTrap 4 (s.x rs3)))) ∧
  (∀ (s s1 : State) (rd rs1 : Reg) (b : List Byte) (c : Nat) (v : Word), s.onCore = true → s.seq.copy.full = false → s.seq.mat.ops.length < 4 →
    ((s.x rs1).toNat % 64 = 0 → s.loadAt s.via (s.x rs1) 64 false = .ok b s1 →
      let nc := s1.seq.copy.iss + 1
      let nm := s1.seq.mat.iss + 1
      (∀ f acc, mmaWord (BitVec.ofNat 32 (fld b 0x18 4)) = some (f, acc) →
        ∃ (e : State) (op : CopyOp) (m : MatOp), Completes (.cpMma rd rs1) s e ∧ e = { s1 with seq := e.seq } ∧
          e.seq.copy.iss = nc ∧ e.seq.mat.iss = nm ∧ e.seq.copy.ops = s1.seq.copy.ops ++ [op] ∧ e.seq.mat.ops = s1.seq.mat.ops ++ [m] ∧
          op.n = nc ∧ op.follow = some nm ∧ op.dst = fldW b 0x00 ∧ op.src = fldW b 0x08 ∧
          m.n = nm ∧ m.copyN = some nc ∧ m.kind = .mma f ∧ m.acc = acc ∧ m.a = fldW b 0x20 ∧ m.b = fldW b 0x28 ∧ m.tok = rd ∧ e.seq.x = s1.seq.x ∧
          e.seq.pend = (if rd = 0 then s1.seq.pend else s1.seq.pend ++ [(rd, nm)])) ∧
      (mmaWord (BitVec.ofNat 32 (fld b 0x18 4)) = none →
        exec (.cpMma rd rs1) s = .next (s1.takeTrap 2 ((BitVec.ofNat 32 (fld b 0x18 4)).setWidth 64)))) ∧
    ((s.x rs1).toNat % 64 = 0 → s.loadAt s.via (s.x rs1) 64 false = .trap c v s1 → exec (.cpMma rd rs1) s = .next (s1.takeTrap c v)) ∧
    ((s.x rs1).toNat % 64 ≠ 0 → exec (.cpMma rd rs1) s = .next (s.takeTrap 4 (s.x rs1)))) ∧
  (∀ (s s1 : State) (rd rs1 rs2 : Reg) (b : List Byte) (c : Nat) (v : Word), s.onCore = true →
    let roomy := s.seq.copy.full = false ∧ s.seq.copy.chains.length < 2
    ((s.x rs1).toNat % 64 = 0 → (s.x rs2).toNat % 16 = 0 →
      (roomy → s.loadAt s.via (s.x rs2) 16 false = .ok b s1 →
        ∃ (e : State) (k : Chain), Completes (.cpChain rd rs1 rs2) s e ∧ e = { s1 with seq := e.seq } ∧ e.seq.copy.iss = s1.seq.copy.iss + 1 ∧
          e.seq.copy.chains = s1.seq.copy.chains ++ [k] ∧ k.n = s1.seq.copy.iss + 1 ∧ k.next = s.x rs1 ∧ k.pair = s.x rs2 ∧ k.k = 1 ∧ k.tok = rd ∧
          e.seq.x = s1.seq.x ∧ e.seq.pend = (if rd = 0 then s1.seq.pend else s1.seq.pend ++ [(rd, s1.seq.copy.iss + 1)])) ∧
      (roomy → s.loadAt s.via (s.x rs2) 16 false = .trap c v s1 → exec (.cpChain rd rs1 rs2) s = .next (s1.takeTrap c v)) ∧
      (¬ roomy → exec (.cpChain rd rs1 rs2) s = .next (s.stalled .engine))) ∧
    ((s.x rs1).toNat % 64 ≠ 0 → exec (.cpChain rd rs1 rs2) s = .next (s.takeTrap 4 (s.x rs1))) ∧
    ((s.x rs1).toNat % 64 = 0 → (s.x rs2).toNat % 16 ≠ 0 → exec (.cpChain rd rs1 rs2) s = .next (s.takeTrap 4 (s.x rs2)))) ∧
  (∀ (s : State) (i : Instr) (rd rs1 rs2 rs3 : Reg),
    (isCopy rd rs1 rs2 rs3 i → s.onCore = true → s.seq.copy.full = true → exec i s = .next (s.stalled .engine)) ∧
    (s.onCore = true → 4 ≤ s.seq.mat.ops.length → exec (.cpMma rd rs1) s = .next (s.stalled .engine)) ∧
    (isCopy rd rs1 rs2 rs3 i ∨ i = .cpChain rd rs1 rs2 → s.onCore = false → exec i s = .next (s.takeTrap 2 s.seq.latch.bits)))

/-- tlwait completes with COUNT once the number it asks for, at most ISS, is complete, and waits before that (R162); a deferred matrix error at or below that number is taken
(R192). tlread answers a counter, a failure field or a stream's status. A selector that names nothing is cause 2. scfg takes a stream's descriptor under the next
number, or answers 0 for one that is ill formed; a misaligned one is cause 4. swait answers the length of the queue once there is one, a marker or no stream open; sresume goes on after a fault; sstop
stops a stream (R163 to R166). spop pops vl elements, or those before the fault marker, which sets LTRUNC, or before COUNT, which ends the stream; with none before the marker it is cause 26, vl 0 or not; it
sets vl 0 where no stream is open, and waits for a queue that is too short (R165). That sresume drops the entries read before it is the model's reading (log 75). The access side reads the next element into the
queue (R164). -/
def Obligations.TimelinesAndStreamsGoOn : Prop :=
  ∀ (s s1 : State) (rd rs1 vd : Reg) (sel : BitVec 5) (b : List Byte) (st : Stream), s.onCore = true →
    let k := sel.toNat
    let n1 := s1.seq.strm.iss + 1
    let m := min (s.x rs1).toNat (s.seq.tlIss k)
    let t := s.seq.stream k
    (k ≤ 2 → s.seq.tlCount k < m → exec (.tlwait rd rs1 sel) s = .next (s.stalled .timeline)) ∧
    (k ≤ 2 → m ≤ s.seq.tlCount k → (k = 1 → ∀ c n, s.seq.mat.pend = some (c, n) → m < n) →
      Completes (.tlwait rd rs1 sel) s (s.setX rd (BitVec.ofNat 64 (s.seq.tlCount k)))) ∧
    (∀ c n, k = 1 → m ≤ s.seq.mat.count → s.seq.mat.pend = some (c, n) → n ≤ m → exec (.tlwait rd rs1 sel) s =
      .next (({ s with seq := { s.seq with mat := { s.seq.mat with pend := none } } } : State).takeTrap c (BitVec.ofNat 64 n))) ∧
    (∀ v, s.seq.tlValue k = some v → ∃ e : State, Completes (.tlread rd sel) s (e.setX rd v) ∧ e = { s with seq := { s.seq with fails := e.seq.fails } }) ∧
    (2 < k → exec (.tlwait rd rs1 sel) s = .next (s.takeTrap 2 s.seq.latch.bits)) ∧
    (s.seq.tlValue k = none → exec (.tlread rd sel) s = .next (s.takeTrap 2 s.seq.latch.bits)) ∧
    (k ≤ 3 → (s.x rs1).toNat % 32 = 0 → s.loadAt s.via (s.x rs1) 32 false = .ok b s1 →
      (streamOf b n1 (s1.issuer s1.hart) = some st → ∃ e : State, Completes (.scfg rd rs1 sel) s (e.setX rd (BitVec.ofNat 64 n1)) ∧
        e.seq.stream k = st ∧ e.seq.strm.iss = n1 ∧ (∀ j, j ≠ k → e.seq.stream j = s1.seq.stream j) ∧
        e = { s1 with seq := { s1.seq with strm := e.seq.strm } }) ∧
      (streamOf b n1 (s1.issuer s1.hart) = none → Completes (.scfg rd rs1 sel) s (s1.setX rd 0))) ∧
    (k ≤ 3 → (s.x rs1).toNat % 32 ≠ 0 → exec (.scfg rd rs1 sel) s = .next (s.takeTrap 4 (s.x rs1))) ∧
    (k ≤ 3 →
      (t.queue ≠ [] ∨ t.marker.isSome = true ∨ t.open = false → Completes (.swait rd sel) s (s.setX rd (BitVec.ofNat 64 t.queue.length))) ∧
      (t.queue = [] → t.marker = none → t.open = true → exec (.swait rd sel) s = .next (s.stalled .stream)) ∧
      (t.state ≠ .faulted → Completes (.sresume sel) s s) ∧
      (t.state = .faulted → ∃ e : State, Completes (.sresume sel) s e ∧ e.seq.stream k = { t with queue := [], marker := none, fcause := 0, state := .running } ∧
        e = { s with seq := { s.seq with strm := e.seq.strm, fails := e.seq.fails } }) ∧
      (∃ e : State, Completes (.sstop sel) s e ∧ (e.seq.stream k).queue = [] ∧ (e.seq.stream k).state = .idle ∧ (e.seq.stream k).marker = none ∧
        e = { s with seq := { s.seq with strm := e.seq.strm } })) ∧
    (3 < k → ∀ i, i = Instr.scfg rd rs1 sel ∨ i = .swait rd sel ∨ i = .sresume sel ∨ i = .sstop sel → exec i s = .next (s.takeTrap 2 s.seq.latch.bits)) ∧
    (VReady s true → k ≤ 3 → s.seq.vec.sew = 8 * t.bytes → (s.seq.vec.grp vd.toNat s.seq.vec.sew).ok s.seq.vec.nregs = true →
      (t.open = false → VCompletes (.spop vd sel) s (s.updVec fun v => { v with vl := 0 })) ∧
      (let vl := s.seq.vec.vl
       let n := min vl t.queue.length
       let e := s.popInto vd.toNat k n (t.marker.isSome && decide (n < vl))
       t.open = true → vl ≤ t.queue.length ∨ t.marker.isSome = true ∨ t.next + t.queue.length = t.count → t.queue ≠ [] ∨ t.marker = none →
        VCompletes (.spop vd sel) s e ∧ (e.seq.stream k).queue = t.queue.drop n ∧ (e.seq.stream k).next = t.next + n ∧ e.seq.vec.vl = n ∧
        (e.seq.stream k).state = (if t.next + n = t.count then .ended else t.state) ∧
        (t.marker.isSome = true → n < vl → e.seq.ctl.xsflags &&& xsLTRUNC = xsLTRUNC)) ∧
      (∀ j, t.open = true → t.queue = [] → t.marker = some j → exec (.spop vd sel) s =
        .next ((s.upd fun q => { q with fails := q.fails.filter fun f => !(f.eng == 2 && f.n == t.op) }).takeTrap 26 (BitVec.ofNat 64 (k * 2 ^ 62 + j % 2 ^ 62)))) ∧
      (t.open = true → t.queue.length < s.seq.vec.vl → t.marker = none → t.next + t.queue.length ≠ t.count →
        exec (.spop vd sel) s = .next (s.stalled .stream))) ∧
    (∀ h s2, (s.getSeq h).stream k = st → k ≤ 3 → st.state = .running → st.next + st.queue.length < st.count → st.queue.length < st.room →
      s.loadAt (s.viaEng h st.issuer false) (st.base + st.stride * BitVec.ofNat 64 (st.next + st.queue.length)) st.bytes false = .ok b s2 →
      ∃ t2, exec (.streamFetch h k) s = .next t2 ∧
        (t2.getSeq h).stream k = { (s2.getSeq h).stream k with queue := ((s2.getSeq h).stream k).queue ++ [BitVec.ofNat 64 (leNat b)] } ∧ t2.mem = s2.mem ∧ ∀ g, g ≠ h → t2.getSeq g = s2.getSeq g)

/-- R178, R186, R189, R192: a matrix instruction of the holder, with no error pending, room for it and its rows reached, takes the next number and completes; mzero leaves mprog,
the others set it to 0. It is cause 2 for a context that does not hold the matrix context, takes a pending error, is cause 29 with both row groups fenced, and waits with four operations
not complete. mcfg claims and releases the matrix context, and a release takes a pending error and waits for the operations; merr answers the report and the fenced groups. Both are cause 2
on a supervisor hart.
The choices of the model here are cause 2 on a supervisor hart (log 29), the need of FS for the forms with an f operand (log 36), a translation pass of one step (log 1) and which of several
poisoned elements a report names (log 38). -/
def Obligations.MatrixOperationsAreIssued : Prop :=
  ∀ (s s1 : State) (i : Instr) (op : MatOp) (rd rs1 : Reg),
    let core := s.core (coreOf s.hart)
    (matCommand s i = some (op, s1) →
      (s.holdsMat = true → s.seq.mat.pend = none → core.fenced ≠ 3 → s.seq.mat.ops.length < 4 →
        Completes i s { s1 with seq := { s1.seq with
          mat := { s1.seq.mat with iss := s1.seq.mat.iss + 1, ops := s1.seq.mat.ops ++ [{ op with n := s1.seq.mat.iss + 1 }] },
          ctl := { s1.seq.ctl with mprog := if isMzero i then s1.seq.ctl.mprog else 0 } } }) ∧
      (s.holdsMat = false → exec i s = .next (s.takeTrap 2 s.seq.latch.bits)) ∧
      (∀ c n, s.holdsMat = true → s.seq.mat.pend = some (c, n) → exec i s =
        .next (({ s with seq := { s.seq with mat := { s.seq.mat with pend := none } } } : State).takeTrap c (BitVec.ofNat 64 n))) ∧
      (s.holdsMat = true → s.seq.mat.pend = none → core.fenced = 3 → exec i s = .next (s.takeTrap 29 3)) ∧
      (s.holdsMat = true → s.seq.mat.pend = none → core.fenced ≠ 3 → 4 ≤ s.seq.mat.ops.length → exec i s = .next (s.stalled .engine))) ∧
    (s.onCore = true →
      (s.x rs1 = 0 → Completes (.mcfg rd rs1) s (s.setX rd (match core.holder with | some h => BitVec.ofNat 64 h | none => minus 1))) ∧
      (s.x rs1 = 1 → core.holder = none → ∃ e : State, Completes (.mcfg rd rs1) s (e.setX rd 0) ∧ e = { s with cores := e.cores } ∧
        (e.core (coreOf s.hart)).holder = some s.hart ∧ ∀ a m, (e.core (coreOf s.hart)).accRow a m = 0) ∧
      (s.x rs1 = 1 → core.holder = some s.hart → Completes (.mcfg rd rs1) s (s.setX rd 1)) ∧
      (∀ h, s.x rs1 = 1 → core.holder = some h → h ≠ s.hart → Completes (.mcfg rd rs1) s (s.setX rd (minus 1))) ∧
      (s.x rs1 = 2 → core.holder ≠ some s.hart → Completes (.mcfg rd rs1) s (s.setX rd (minus 2))) ∧
      (s.x rs1 = 2 → core.holder = some s.hart → s.seq.mat.pend = none → s.seq.mat.ops = [] →
        ∃ e : State, Completes (.mcfg rd rs1) s (e.setX rd 0) ∧ e = { s with cores := e.cores } ∧ (e.core (coreOf s.hart)).holder = none) ∧
      (s.x rs1 = 2 → core.holder = some s.hart → s.seq.mat.pend = none → s.seq.mat.ops ≠ [] → exec (.mcfg rd rs1) s = .next (s.stalled .drain)) ∧
      (∀ c n, s.x rs1 = 2 → core.holder = some s.hart → s.seq.mat.pend = some (c, n) → exec (.mcfg rd rs1) s =
        .next (({ s with seq := { s.seq with mat := { s.seq.mat with pend := none } } } : State).takeTrap c (BitVec.ofNat 64 n))) ∧
      (2 < (s.x rs1).toNat → Completes (.mcfg rd rs1) s (s.setX rd (minus 3))) ∧
      Completes (.merr rd 1) s (s.setX rd (core.fenced.setWidth 64)) ∧
      (core.holder ≠ some s.hart → Completes (.merr rd 0) s (s.setX rd 0)) ∧
      (core.holder = some s.hart → ∃ e : State, Completes (.merr rd 0) s (e.setX rd s.seq.mat.report) ∧
        (reportKind s.seq.mat.report ≠ 0 → e.seq.mat.report = 0) ∧ e = { s with seq := { s.seq with mat := e.seq.mat, fails := e.seq.fails } }) ∧
      ∀ sel : BitVec 5, 1 < sel.toNat → exec (.merr rd sel) s = .next (s.takeTrap 2 s.seq.latch.bits)) ∧
    (s.onCore = false → exec (.mcfg rd rs1) s = .next (s.takeTrap 2 s.seq.latch.bits) ∧
      ∀ sel, exec (.merr rd sel) s = .next (s.takeTrap 2 s.seq.latch.bits))

/-- The engines' own steps. A copy that can be performed completes under its number, with its token (R153, R155, R161), or as failed with cause and address (R154). The chain engine waits for TAIL and
takes a published entry, one with FENCE once no other runs; the stop entry ends the chain with DONE written, and an ill formed entry (cause 2), a read, a copy or a DONE write that fails ends it as failed
in that entry; DONE rises as entries end in order (R159). Which of the entries in progress goes on is a free choice (log 31). The matrix engine performs the oldest operation, which completes; mzero leaves zeros (R180, R188). Sampling ends with its reply (R293), once its writes
through peer windows are acknowledged. -/
def Obligations.EnginesCompleteTheirOperations : Prop :=
  ∀ (s s1 s2 : State) (h n idx : Nat),
    (∀ op, (s.getSeq h).copy.ops.find? (fun o => o.n == n) = some op → op.follow = none →
      (s.copyAll h op = .finished s1 → ∃ t, exec (.copyComplete h n) s = .next t ∧ t.getSeq h = (s1.getSeq h).copyEnd n op.tok true none ∧
        t.mem = s1.mem ∧ (∀ g, g ≠ h → t.getSeq g = s1.getSeq g) ∧ ∀ o ∈ (t.getSeq h).copy.ops, o.n ≠ n) ∧
      (∀ c v, s.copyAll h op = .failed c v s1 → ∃ t, exec (.copyComplete h n) s = .next t ∧
        (t.getSeq h).copy.failN = n ∧ (t.getSeq h).copy.failCause = c ∧ (t.getSeq h).copy.failVa = v ∧
        (op.tok ≠ 0 → ((t.getSeq h).rx op.tok).getLsbD 63 = true) ∧ t.mem = s1.mem)) ∧
    (∀ c b, (s.getSeq h).copy.chains.find? (fun c => c.n == n) = some c →
      let via := s.viaEng h c.issuer true
      s.readBytes via c.pair 8 = .ok b s1 →
      (leNat b < c.k → exec (.chainEntryStart h n) s = .next ((s1.dropAsks via.party).setChain h { c with tail := some (leNat b) })) ∧
      (∀ d, c.k ≤ leNat b → s1.readBytes via c.next 64 = .ok d s2 →
        let w := s2.dropAsks via.party
        let runs (st : State) : Prop := exec (.chainEntryStart h n) s = .next st
        (chainEntry d c.k = none → runs (w.endChain h c (some ⟨2, c.next, c.k⟩))) ∧
        (∀ kind fence op next, chainEntry d c.k = some (kind, fence, op, next) → c.ended.contains c.k = false → c.running.any (fun e => e.1 == c.k) = false →
          (kind ≠ 0 → fence = false ∨ c.running = [] → c.running.length < 4 → runs (w.setChain h
            { c with addrs := c.addrs ++ [(c.k, c.next)], next := next, k := c.k + 1, running := c.running ++ [(c.k, { op with issuer := c.issuer })] })) ∧
          (c.running ≠ [] → fence = true ∨ kind = 0 ∨ 4 ≤ c.running.length → runs w) ∧
          (kind = 0 → c.running = [] → ∀ s3, w.chainDone h c c.k = .ok () s3 → runs (s3.endChain h c none)) ∧
          (∀ x v s3, kind = 0 → c.running = [] → w.chainDone h c c.k = .trap x v s3 → runs (s3.endChain h c (some ⟨x, v, c.k⟩))))) ∧
      (∀ x v, c.k ≤ leNat b → s1.readBytes via c.next 64 = .trap x v s2 →
        exec (.chainEntryStart h n) s = .next ((s2.dropAsks via.party).endChain h c (some ⟨x, v, c.k⟩)))) ∧
    (∀ c x v, (s.getSeq h).copy.chains.find? (fun c => c.n == n) = some c →
      (s.readBytes (s.viaEng h c.issuer true) c.pair 8 = .trap x v s1 →
        exec (.chainEntryStart h n) s = .next ((s1.dropAsks (s.viaEng h c.issuer true).party).endChain h c (some ⟨x, v, c.k⟩))) ∧
      (∀ k, ((s.endChain h c (some ⟨x, v, k⟩)).getSeq h).copy.failN = c.n ∧ ((s.endChain h c (some ⟨x, v, k⟩)).getSeq h).copy.failCause = x ∧
        ((s.endChain h c (some ⟨x, v, k⟩)).getSeq h).copy.failVa = v ∧ ((s.endChain h c (some ⟨x, v, k⟩)).getSeq h).copy.failEntry = k ∧
        (c.tok ≠ 0 → (((s.endChain h c (some ⟨x, v, k⟩)).getSeq h).rx c.tok).getLsbD 63 = true)) ∧
      (∀ k op, (s.getSeq h).copy.ops.find? (fun o => o.n == n) = none → c.running[(s.draw).1.toNat % c.running.length]? = some (k, op) →
        ((s.draw).2.copyAll h op = .failed x v s1 → exec (.copyComplete h n) s = .next (s1.endChain h c (some ⟨x, v, k⟩))) ∧
        ((s.draw).2.copyAll h op = .finished s1 → ∀ done late, tlComplete c.doneK c.ended k = (done, late) →
          let c' : Chain := { c with running := c.running.filter (·.1 ≠ k), ended := late, doneK := done, addrs := c.addrs.filter fun e => decide (done < e.1) }
          (done = c.doneK → exec (.copyComplete h n) s = .next (s1.setChain h c')) ∧
          (done ≠ c.doneK → s1.chainDone h c done = .ok () s2 → exec (.copyComplete h n) s = .next (s2.setChain h c')) ∧
          (∀ y u, done ≠ c.doneK → s1.chainDone h c done = .trap y u s2 → exec (.copyComplete h n) s = .next (s2.endChain h c (some ⟨y, u, k⟩)))))) ∧
    (∀ op rest, (s.getSeq h).mat.ops = op :: rest → op.copyN = none → op.failed = false → op.follow = false →
      (s.runMat h op = .ended .good s1 → ∃ t, exec (.matrixOpComplete h) s = .next t ∧ t.getSeq h = (s1.getSeq h).matEnd op none ∧
        (t.getSeq h).mat.count = op.n ∧ t.mem = s1.mem ∧ t.cores = s1.cores ∧ ∀ g, g ≠ h → t.getSeq g = s1.getSeq g) ∧
      (op.kind = .mzero → ∃ t, exec (.matrixOpComplete h) s = .next t ∧ (∀ m, (t.core (coreOf h)).accRow op.acc.toNat m = 0) ∧ t.mem = s.mem)) ∧
    (∀ op tex op1 f, (s.getSeq h).tex[idx]? = some op → textureOf op.desc = some tex →
      let via := s.viaEng h op.issuer false
      texRun via tex op op.coords s = .ended op1 f s1 →
      (s1.peerOwes via.party = false → exec (.texSaComplete h idx) s =
        .next ((s1.modTex h none fun l => l.eraseIdx idx).inject (s1.texReply h (s1.partOfCluster (hartCluster h)) op1 f))) ∧
      (s1.peerOwes via.party = true → exec (.texSaComplete h idx) s = .next (s1.modTex h none fun l => l.set idx op1)))

/-! ## Messages, tasks and contexts, the pair word -/

namespace Sys2Proof.Machine.Claim

/-- Where msend, mreply and chsend may send now: LEN within its limit, the payload aligned, and room in the source buffer (R249). -/
def sendRoom (s : State) (p : Word) (len : Nat) : Prop := len ≤ 448 ∧ (len = 0 ∨ p.toNat % 8 = 0) ∧ s.sourceFull s.hart = false

/-- The payload of a send is read, and the reds that a message's release waits for are acknowledged (R232). -/
def payloadRead (s : State) (p : Word) (len : Nat) (b : List Byte) (s1 : State) : Prop :=
  s.readPayload p len = .ok b s1 ∧ s1.redsOut s1.via.party = 0

/-- The state with one more message on its way. -/
def sent (s : State) (m : Msg) : State := { s with net := s.net ++ [m] }

/-- The pass of vwait over n elements is over: every active one has met the condition, or the time has passed. -/
def waitDone (s : State) (vm : Bool) (limit n : Nat) : Prop :=
  (∀ i, i < n → s.seq.vec.active vm i = true → i ∈ s.seq.elems) ∨ (limit ≠ 2 ^ 64 - 1 ∧ limit ≤ s.time - s.armedAt)

/-- vwait goes on waiting, with its block and the number of its elements kept. -/
def waitKept (s : State) (b : List Byte) (n : Nat) : State :=
  (s.upd fun q => { q with peerGot := [], armed := some (s.armedAt, b ++ leBytes 8 n) }).stalled .word

end Sys2Proof.Machine.Claim

/-- Messages of a task. msend, mreply and chsend put one message on its way and answer 0 (R248, R254 to R260), or refuse with -1, -3 or -4; a request holds a reply slot; a misaligned payload is
cause 4; with the source buffer full they wait, and a request with no reply slot free waits. msendv sends one message for each active element in order, up to the first that cannot be sent.
vwait reads its block once and tests its words; it ends when all of them have met the condition or its time has passed, and else waits and tests again (R245). hret ends a handler, with
the reply that is still owed (R257). chrecv gives the oldest item of a channel or 0 at its close and chdone frees the oldest slot given (R261). aqpush reserves a slot, fills and announces it, is cause 28 on a
full ring and cause 7 outside an agent's block (R258); one whose write waited fills the slot that it has. tex.sa starts sampling and counts its samples (R292).
The model's choices are the tag that a request takes (log 19), that a fault at a later test of a vwait element leaves it unsatisfied (log 66), the reply owed at hret and cause 2 of hret outside a
task (log 42), and the samples and the reply of tex.sa (log 41). -/
def Obligations.MessagesAreSentAndReceived : Prop :=
  (∀ (s s1 : State) (rd rs1 rs2 : Reg) (b : List Byte),
    let c := s.x rs2
    let p := s.x rs1
    let dest := getBits c 0 13
    let len := getBits c 24 9
    let req := c.getLsbD 33
    (sendBad c = true → Completes (.msend rd rs1 rs2) s (s.setX rd (minus 3))) ∧
    (sendBad c = false → s.destOk dest = false → Completes (.msend rd rs1 rs2) s (s.setX rd (minus 1))) ∧
    (sendBad c = false → s.destOk dest = true →
      (len ≠ 0 → p.toNat % 8 ≠ 0 → exec (.msend rd rs1 rs2) s = .next (s.takeTrap 4 p)) ∧
      (sendRoom s p len → payloadRead s p len b s1 →
        (req = false → ∃ m : Msg, Completes (.msend rd rs1 rs2) s ((sent s1 m).setX rd 0) ∧
          m.dest = dest ∧ m.src = s.hart ∧ m.hidx = getBits c 16 8 ∧ m.cls = .ordinary ∧ m.chan = false ∧ m.payload = b ∧ m.part = s.partOf s.hart) ∧
        (req = true → s.requestsFull = false → ∃ (m : Msg) (r : Request), Completes (.msend rd rs1 rs2) s
          ((sent { s1 with seq := { s1.seq with reqs := s1.seq.reqs ++ [r] } } m).setX rd 0) ∧
          m.dest = dest ∧ m.cls = .request ∧ m.payload = b ∧ m.rtag = r.rtag ∧ m.rhidx = getBits c 40 8 ∧ r.st = s.x rd)) ∧
      (req = true → s.requestsFull = true → (len = 0 ∨ p.toNat % 8 = 0) → exec (.msend rd rs1 rs2) s = .next (s.stalled .request)) ∧
      (req = false ∨ s.requestsFull = false → s.sourceFull s.hart = true → (len = 0 ∨ p.toNat % 8 = 0) →
        exec (.msend rd rs1 rs2) s = .next (s.stalled .message)))) ∧
  (∀ (s s1 : State) (rd rs1 rs2 : Reg) (b : List Byte),
    let c := s.x rs2
    let p := s.x rs1
    let len := getBits c 0 9
    (s.seq.hs.inside && s.seq.hs.owed = false → Completes (.mreply rd rs1 rs2) s (s.setX rd (minus 4))) ∧
    (s.seq.hs.inside && s.seq.hs.owed = true →
      (getBits c 9 55 ≠ 0 ∨ 448 < len → Completes (.mreply rd rs1 rs2) s (s.setX rd (minus 3))) ∧
      (getBits c 9 55 = 0 → len ≤ 448 → len ≠ 0 → p.toNat % 8 ≠ 0 → exec (.mreply rd rs1 rs2) s = .next (s.takeTrap 4 p)) ∧
      (getBits c 9 55 = 0 → len ≤ 448 → (len = 0 ∨ p.toNat % 8 = 0) → s.sourceFull s.hart = true → exec (.mreply rd rs1 rs2) s = .next (s.stalled .message)) ∧
      (getBits c 9 55 = 0 → sendRoom s p len → payloadRead s p len b s1 →
        ∃ m : Msg, Completes (.mreply rd rs1 rs2) s ((sent { s1 with seq := { s1.seq with hs := { s1.seq.hs with owed := false } } } m).setX rd 0) ∧
          m.cls = .reply ∧ m.dest = s.seq.hs.reqHart ∧ m.rtag = s.seq.hs.rtag ∧ m.rstat = 0 ∧ m.payload = b))) ∧
  (∀ (s s1 : State) (rd rs1 rs2 : Reg) (b : List Byte),
    let c := s.x rs2
    let p := s.x rs1
    let len := getBits c 16 9
    let bad := getBits c 48 16 ≠ 0 ∨ getBits c 25 7 ≠ 0 ∨ getBits c 4 12 ≠ 0 ∨ 448 < len
    (bad → Completes (.chsend rd rs1 rs2) s (s.setX rd (minus 3))) ∧
    (¬ bad → s.sendChan c = none → Completes (.chsend rd rs1 rs2) s (s.setX rd (minus 1))) ∧
    (∀ l w, ¬ bad → s.sendChan c = some (l, w) →
      (len ≠ 0 → p.toNat % 8 ≠ 0 → exec (.chsend rd rs1 rs2) s = .next (s.takeTrap 4 p)) ∧
      ((len = 0 ∨ p.toNat % 8 = 0) → s.sourceFull s.hart = true → exec (.chsend rd rs1 rs2) s = .next (s.stalled .message)) ∧
      (sendRoom s p len → payloadRead s p len b s1 →
        ∃ m : Msg, Completes (.chsend rd rs1 rs2) s ((sent s1 m).setX rd 0) ∧ m.chan = true ∧ m.hidx = getBits c 0 4 ∧
          m.payload = b ∧ m.dest = (aget l.homes (l.pipeLin (chanCons w) (getBits c 32 16))).getD 0))) ∧
  (∀ (s s1 : State) (vm : Bool) (vs3 vs2 rs1 : Reg) (c : Nat) (v : Word),
    let p := s.x rs1
    let run := runElems (s.seq.vec.active vm) (fun i st => st.sendElem p vs3.toNat vs2.toNat i) s.seq.vec.vl s
    (VReady s true → sendBad p = false → getBits p 0 13 = 0 → p.getLsbD 33 = false → s.seq.vec.sew = 64 →
      s.seq.vec.legalSrcs vm [s.seq.vec.grp vs3.toNat 64, s.seq.vec.grp vs2.toNat 64] = true → s.redsOut s.via.party = 0 →
      (run = .ok none s1 → VCompletes (.msendv vm vs3 vs2 rs1) s s1) ∧
      (∀ k, run = .ok (some k) s1 → VCompletes (.msendv vm vs3 vs2 rs1) s ((s1.updVec fun x => { x with vl := k }).updCtl fun y => { y with vstrunc := true })) ∧
      (run = .trap c v s1 → exec (.msendv vm vs3 vs2 rs1) s = .next (s1.takeTrap c v))) ∧
    (∀ i b, let a := BitVec.ofNat 64 (s.seq.vec.get vs3.toNat 64 i)
      s.seq.elems.contains i = false → s.destOk (s.seq.vec.get vs2.toNat 64 i) = true → sendRoom s a (getBits p 24 9) →
      s.readPayload a (getBits p 24 9) = .ok b s1 →
      ∃ m : Msg, s.sendElem p vs3.toNat vs2.toNat i = .ok () (sent { s1 with seq := { s1.seq with elems := s1.seq.elems ++ [i] } } m) ∧
        m.dest = s.seq.vec.get vs2.toNat 64 i ∧ m.hidx = getBits p 16 8 ∧ m.cls = .ordinary ∧ m.payload = b)) ∧
  (∀ (s s1 s2 : State) (vm : Bool) (vd vs2 rs1 : Reg) (b : List Byte) (k : Option Nat),
    let v := s.seq.vec
    let i := Instr.vwait vm vd vs2 rs1
    VReady s true → v.sew = 64 → v.legalSrcs vm [v.grp vs2.toNat 64] = true →
      (maskGrp vd.toNat).overlaps (v.grp vs2.toNat 64) = false → vd.toNat < v.nregs → (vm = true ∨ vd ≠ 0) →
      (v.vl = 0 → VCompletes i s s) ∧
      (v.vl ≠ 0 → s.seq.armed = none → (s.arm []).readCmd (s.x rs1) 32 = .ok b s1 →
        (waitBad b = true → exec i s = .next (s1.takeTrap 2 s1.seq.latch.bits)) ∧
        (waitBad b = false →
          runElems (v.active vm) (fun j st => st.testWord (fld b 0x10 4 == 0) (fld b 0x00 8) (v.get vs2.toNat 64 j) j) v.vl s1 = .ok k s2 →
          (waitDone s2 vm (fld b 0x08 8) (k.getD v.vl) → VCompletes i s (s2.endWait vm vd.toNat (k.getD v.vl) k.isSome)) ∧
          (¬ waitDone s2 vm (fld b 0x08 8) (k.getD v.vl) → exec i s = .next (waitKept s2 b (k.getD v.vl))))) ∧
      (∀ t0 x xs, v.vl ≠ 0 → s.seq.armed = some (t0, x :: xs) →
        let n := fld (x :: xs) 0x20 8
        let blk := (x :: xs).take 32
        runElems (v.active vm) (fun j st => st.testAgain (fld (x :: xs) 0x10 4 == 0) (fld (x :: xs) 0x00 8) (v.get vs2.toNat 64 j) j) n s = .ok k s2 →
        (waitDone s2 vm (fld blk 0x08 8) n → VCompletes i s (s2.endWait vm vd.toNat n (decide (n < v.vl)))) ∧
        (¬ waitDone s2 vm (fld blk 0x08 8) n → exec i s = .next (waitKept s2 blk n)))) ∧
  (∀ (s : State),
    (∀ t, s.seq.task = some t → t.hm = true → s.seq.mode = .u → s.seq.vec.mdepth = 0 → s.redsOut s.via.party = 0 → s.seq.halt = none →
      let owed := s.seq.hs.inside && s.seq.hs.owed
      (owed = false ∨ s.sourceFull s.hart = false → ∃ e : State, exec .hret s = .next e ∧ e.seq.run = .idle ∧ e.seq.hs.mode = true ∧
        e.seq.hs.inside = false ∧ e.seq.loops = [] ∧ e.seq.x = s.seq.x ∧ e.seq.f = s.seq.f ∧ e.mem = s.mem ∧
        (owed = false → e.net = s.net) ∧
        (owed = true → ∃ m : Msg, e.net = s.net ++ [m] ∧ m.cls = .reply ∧ m.dest = s.seq.hs.reqHart ∧ m.rtag = s.seq.hs.rtag ∧ m.rstat = 1 ∧ m.payload = [])) ∧
      (owed = true → s.sourceFull s.hart = true → exec .hret s = .next (s.stalled .drain))) ∧
    (s.seq.mode ≠ .u ∨ s.seq.vec.mdepth ≠ 0 ∨ (∀ t, s.seq.task = some t → t.hm = false) → exec .hret s = .next (s.takeTrap 2 s.seq.latch.bits))) ∧
  (∀ (s : State) (rd rs1 : Reg),
    let p := s.x rs1
    (s.consumes p = none → exec (.chrecv rd rs1) s = .next (s.takeTrap 2 s.seq.latch.bits) ∧ exec (.chdone rs1) s = .next (s.takeTrap 2 s.seq.latch.bits)) ∧
    (∀ l t ch k, s.consumes p = some (l, t, ch) → s.chanBuf t ch = some k →
      (∃ e : State, Completes (.chdone rs1) s e ∧ e = { s with cores := e.cores } ∧ e.chanBuf t ch = some { k with handed := k.handed.drop 1 }) ∧
      (l.isHandlerStage (chanCons (l.chan ch)) = true → exec (.chrecv rd rs1) s = .next (s.takeTrap 2 s.seq.latch.bits)) ∧
      (l.isHandlerStage (chanCons (l.chan ch)) = false →
        (∀ x rest, k.filled = x :: rest → ∃ e : State,
          Completes (.chrecv rd rs1) s (e.setX rd (BitVec.ofNat 64 (x.len * 2 ^ 48 + (k.base + x.slot * k.size) % 2 ^ 48))) ∧ e = { s with cores := e.cores } ∧
          e.chanBuf t ch = some { k with filled := rest, handed := k.handed ++ [x] }) ∧
        (k.filled = [] → k.closed = true → Completes (.chrecv rd rs1) s (s.setX rd 0)) ∧
        (k.filled = [] → k.closed = false → exec (.chrecv rd rs1) s = .next (s.stalled .channel))))) ∧
  (∀ (s s1 s2 s3 s4 : State) (rd rs1 rs2 : Reg) (a : Nat) (b : List Byte),
    let p := s.x rs1
    let c := s.x rs2
    let g := s2.agent a
    let i := Instr.aqpush rd rs1 rs2
    let pushes (st : State) (k : Nat) : Prop :=
      (st.writeBytes st.via ((st.agent a).slotVa k) b = .ok () s3 →
        (s3.agentNotify a k = .done s4 → Completes i s (s4.setX rd (BitVec.ofNat 64 k))) ∧
        (s3.agentNotify a k = .full → Completes i s (s3.setX rd (BitVec.ofNat 64 k)))) ∧
      (∀ x v, st.writeBytes st.via ((st.agent a).slotVa k) b = .trap x v s3 → exec i s = .next (s3.takeTrap x v)) ∧
      (∀ w, st.writeBytes st.via ((st.agent a).slotVa k) b = .stall w s3 → exec i s = .next ((s3.upd fun q => { q with elems := [k] }).stalled w))
    (p.toNat % 4096 ≠ 0 → exec i s = .next (s.takeTrap 7 p)) ∧
    (∀ l, p.toNat % 4096 = 0 → s.locate s.via p 8 .store = .ok [l] s1 → l.t ≠ .void → (∀ n o, l.t = .agent n o → o ≠ 0 ∨ n % 16 = 15) →
      exec i s = .next (s.takeTrap 7 p)) ∧
    (∀ l, p.toNat % 4096 = 0 → s.locate s.via p 8 .store = .ok [l] s1 → l.t = .void → exec i s = .next (s1.takeTrap 48 p)) ∧
    (∀ l, p.toNat % 4096 = 0 → s.locate s.via p 8 .store = .ok [l] s1 → l.t = .agent a 0 → a % 16 ≠ 15 →
      (c.toNat % 8 ≠ 0 → exec i s = .next (s1.takeTrap 4 c)) ∧
      (c.toNat % 8 = 0 → s1.readWords s1.via c 8 64 = .ok b s2 → s2.redsOut s2.via.party = 0 →
        (s2.seq.elems = [] → g.qsize ≤ (g.qtail + 2 ^ 64 - g.qhead) % 2 ^ 64 → exec i s = .next (s2.takeTrap 28 p)) ∧
        (s2.seq.elems = [] → (g.qtail + 2 ^ 64 - g.qhead) % 2 ^ 64 < g.qsize →
          pushes (s2.modAgent a fun x => { x with qtail := (x.qtail + 1) % 2 ^ 64 }) g.qtail) ∧
        (∀ k ks, s2.seq.elems = k :: ks → pushes s2 k)))) ∧
  (∀ (s s1 s2 : State) (vm : Bool) (rd vs2 rs1 : Reg) (b d : List Byte),
    let cs := s.seq.vec.coords vm vs2.toNat s.seq.vec.vl
    VReady s true → (∃ t, s.seq.task = some t ∧ t.hm = true) → s.seq.vec.sew = 32 → (s.seq.vec.grpK vs2.toNat 64 2).ok s.seq.vec.nregs = true →
      s.readBlock (s.x rs1) 32 32 = .ok b s1 → s1.readBlock (fldW b 0x00) 32 32 = .ok d s2 →
      (textureOf d).isSome = true → fld b 0x08 8 % 16 = 0 → fld b 0x19 7 = 0 →
      (s2.requestsFull = true → exec (.texSa vm rd vs2 rs1) s = .next (s2.stalled .sample)) ∧
      (s2.requestsFull = false → ∃ (e : State) (op : TexOp) (r : Request), VCompletes (.texSa vm rd vs2 rs1) s (e.setX rd (BitVec.ofNat 64 cs.length)) ∧
        e = { s2 with seq := { s2.seq with tex := s2.seq.tex ++ [op], reqs := s2.seq.reqs ++ [r] } } ∧ op.desc = d ∧
        op.out = fldW b 0x08 ∧ op.coords = cs ∧ op.rtag = r.rtag ∧ r.st = fldW b 0x10))

/-- Messages on their way. One that is the first of its sender, destination and plane and that its destination takes joins the inbox of that core, or waits for a slot; one under a forwarding
entry goes on to the new place (R307); one that nothing takes bounces, and one that is not the first waits (R250 to R252); a zero trigger for a task in its kexit is discarded (R311). The runtime sends one
that has bounced again to the hart that now runs the context (R308), with the choices of log 66. One that would cross a failed boundary waits for the new route, and one to or from a die that is cut off is lost as on a dead path (R318). Items of channels fill slots and channels close once their producers have
ended (R259). A handler starts with its registers, in U mode, with no loop and no mask stack; a fault of its table entry is taken and the start is tried again after it (R253, R262). A dead path
loses the message, unless it waits on its destination alone, and a request or a reply that is lost is answered with RSTAT 2 (R263; the answer of a lost reply and which messages a path timeout may
meet are the model's readings, log 66).
So are the step in which a bounce happens, the sepc of its trap (log 28), the place of its record (log 8), and what a fault of the table entry and an entry of 0 do (log 42); that zero triggers on
their way at kexit are dropped is log 74. -/
def Obligations.MessagesArriveAndStartHandlers : Prop :=
  ∀ (s s1 : State) (idx h : Nat) (m : Msg) (t : Task) (b : List Byte),
    let c := coreOf m.dest
    let here (x : ChanBuf) : Bool := x.hart == m.dest && x.chan == m.hidx
    (s.net[idx]? = some m → m.bounced = true → exec (.channelItemArrival idx) s = .next s ∧ exec (.pathTimeout idx) s = .next s ∧
      ∃ e : State, exec (.messageArrival idx) s = .next e ∧ e.seq = { s.seq with resv := e.seq.resv } ∧
        (∀ d, s.newHome m = some d → ∃ k, e.net = (s.net.eraseIdx idx).take k ++ { m with bounced := false, dest := d } :: (s.net.eraseIdx idx).drop k) ∧
        (s.newHome m = none → s.taker m = none →
          (m.cls ≠ .request → e.net = s.net.eraseIdx idx) ∧
          (m.cls = .request → ∃ r : Msg, e.net = s.net.eraseIdx idx ++ [r] ∧ r.dest = m.src ∧ r.cls = .reply ∧ r.rtag = m.rtag ∧ r.rstat = 2 ∧ r.payload = []))) ∧
    (s.net[idx]? = some m → m.bounced = false → s.inOrder idx m = false →
      (m.chan = false → exec (.messageArrival idx) s = .next (s.waitsInNet idx m)) ∧ (m.chan = true → exec (.channelItemArrival idx) s = .next (s.waitsInNet idx m))) ∧
    (s.net[idx]? = some m → m.bounced = false → s.inOrder idx m = true →
      (s.msgPath m = .waits →
        (m.chan = false → exec (.messageArrival idx) s = .next (s.waitsInNet idx m)) ∧ (m.chan = true → exec (.channelItemArrival idx) s = .next (s.waitsInNet idx m))) ∧
      (s.msgPath m = .lost →
        (m.chan = false → exec (.messageArrival idx) s = exec (.pathTimeout idx) s) ∧ (m.chan = true → exec (.channelItemArrival idx) s = exec (.pathTimeout idx) s))) ∧
    (s.net[idx]? = some m → m.bounced = false → m.chan = false → s.inOrder idx m = true → s.msgPath m = .open →
      (∀ d, s.forwardOf m.dest = some d → exec (.messageArrival idx) s = .next { s with net := s.net.set idx { m with dest := d, gone := true } }) ∧
      (s.forwardOf m.dest = none → s.spent m = true → exec (.messageArrival idx) s = .next (s.dropMsg idx)) ∧
      (s.forwardOf m.dest = none → s.spent m = false →
        (∀ o, s.taker m = some o → (m.cls = .reply ∨ s.inboxRoom c = true) → ∃ e : State, exec (.messageArrival idx) s = .next e ∧
          e.net = s.net.eraseIdx idx ∧ (e.core c).inbox = (s.core c).inbox ++ [{ m with gone := true, owner := o }] ∧ (∀ k, k ≠ c → e.core k = s.core k) ∧
          e = { s with net := e.net, cores := e.cores }) ∧
        (∀ o, s.taker m = some o → m.cls ≠ .reply → s.inboxRoom c = false → exec (.messageArrival idx) s = .next (s.waitsInNet idx m)) ∧
        (s.taker m = none → exec (.messageArrival idx) s = .next ((s.dropMsg idx).bounce m)))) ∧
    (s.net[idx]? = some m → m.bounced = false → m.chan = true → s.inOrder idx m = true → s.msgPath m = .open →
      (∀ k, (s.core c).chans.find? here = some k →
        (∀ i, k.free = some i → ∃ e : State, exec (.channelItemArrival idx) s = .next e ∧ e.net = s.net.eraseIdx idx ∧
          (e.core c).chans.find? here = some { k with filled := k.filled ++ [⟨i, m.payload.length, m.src⟩] }) ∧
        (k.free = none → exec (.channelItemArrival idx) s = .next (s.waitsInNet idx m))) ∧
      ((s.core c).chans.find? here = none → exec (.channelItemArrival idx) s = .next ((s.dropMsg idx).bounce m))) ∧
    (∀ k ch l, (s.core (coreOf h)).chans.find? (fun x => x.hart == h && x.chan == ch) = some k → s.launch? k.launch = some l →
      (k.closed = false → l.stageOver (chanProd (l.chan ch)) = true → s.net.any (fun m => !m.bounced && m.chan && m.dest == h && m.hidx == ch) = false →
        ∃ e : State, exec (.channelClose h ch) s = .next e ∧ (e.core (coreOf h)).chans.find? (fun x => x.hart == h && x.chan == ch) = some { k with closed := true }) ∧
      (k.closed = true ∨ l.stageOver (chanProd (l.chan ch)) = false → exec (.channelClose h ch) s = .next s)) ∧
    ((s.getSeq h).task = some t → s.firstFor h = some m → (s.getSeq h).mayStart = true → m.chan = false →
      let a := (s.getSeq h).ctl.htbase + BitVec.ofNat 64 (8 * m.hidx)
      ((s.safePoint h).loadAt (s.viaTask h) a 8 false = .ok b s1 → exec (.handlerStart h) s = .next (s1.startMsg h t m (BitVec.ofNat 64 (leNat b)))) ∧
      (∀ x v, (s.safePoint h).loadAt (s.viaTask h) a 8 false = .trap x v s1 →
        exec (.handlerStart h) s = .next ((s1.trapHart h x a a).modSeq h fun q => { q with hs := { q.hs with retry := some a } }))) ∧
    (∀ l, (s.getSeq h).task = some t → s.firstFor h = some m → (s.getSeq h).mayStart = true → m.chan = true → s.launch? t.launch = some l →
      (s.safePoint h).loadAt (s.viaTask h) ((s.getSeq h).ctl.htbase + BitVec.ofNat 64 (8 * chanHidx (l.chan m.hidx))) 8 false = .ok b s1 →
      exec (.channelHandlerStart h) s = .next (s1.startItem h t m (chanHidx (l.chan m.hidx)) (BitVec.ofNat 64 (leNat b)))) ∧
    (∀ (entry a0 a1 a2 a3 : Word) (hs : Handler), entry ≠ 0 →
      let q := (s.enterHandler h t entry a0 a1 a2 a3 hs).getSeq h
      q.rx 10 = a0 ∧ q.rx 11 = a1 ∧ q.rx 12 = a2 ∧ q.rx 13 = a3 ∧ q.rx 2 = t.top - 512 ∧ q.rx 4 = t.tp ∧ q.rx 3 = t.gp ∧ q.mode = .u ∧ q.run = .running ∧
        q.loops = [] ∧ q.vec.mstack = [] ∧ q.vec.mdepth = 0 ∧ q.hs = hs ∧ (s.enterHandler h t entry a0 a1 a2 a3 hs).mem = s.mem) ∧
    (s.net[idx]? = some m → s.waitsOnGo m = true → exec (.pathTimeout idx) s = .next s) ∧
    (s.net[idx]? = some m → m.bounced = false → s.waitsOnGo m = false → ∃ e : State, exec (.pathTimeout idx) s = .next e ∧ e.seq = { s.seq with resv := e.seq.resv } ∧
      (m.cls ≠ .request → m.cls ≠ .reply → e.net = s.net.eraseIdx idx) ∧
      (m.cls = .request ∨ m.cls = .reply → ∃ r : Msg, e.net = s.net.eraseIdx idx ++ [r] ∧ r.dest = (if m.cls = .request then m.src else m.dest) ∧ r.cls = .reply ∧
        r.rtag = m.rtag ∧ r.rstat = 2 ∧ r.payload = []))

namespace Sys2Proof.Machine.Claim

/-- The address in memory of the first byte of the located pieces. -/
def firstByte (ls : List Loc) : Nat := (byteAt ls 0).getD 0

/-- The queue that a post names, its configuration, and WRIDX as it is read. -/
def postsTo (s : State) (qid : Nat) (q : Queue) (c : QCfg) (wr : Nat) (s1 : State) : Prop :=
  ∃ b, s.queue? (s.partOf s.hart) qid = some q ∧ q.cfg = some c ∧ s.qpRead q (q.va 0x40) 8 = .ok b s1 ∧ leNat b = wr

end Sys2Proof.Machine.Claim

/-- Tasks and contexts. kexit frees its sequencer once the engines are idle and every access through a peer window is acknowledged, and waits until then; without a task or outside U mode it is
cause 2 (R101). ctx.save stores the save area and leaves its sequencer free with the context in the area, ctx.load brings a context back with its pc and registers, and migrate moves one with its
registers (R103 to R105); each answers its status where an argument is refused, waits while the engines are not drained, traps where the area faults, which bars a save of the policy's for its queue (R348), and is cause 2 in U mode. A task that the
runtime ends leaves a free sequencer. launch and qsignal release and answer the index of the packet that they post, -3 for reserved bits, -1 for no queue and -2 for a full ring (R107 to R109).
The model's choices are what stands in an area and what in State beside it (log 31), that a context takes the satp of its partition (log 20), poison in an area (log 67), and that the slot of a post
is written in the step that answers it (log 46). -/
def Obligations.TasksEndAndContextsMove : Prop :=
  (∀ (s : State) (t : Task),
    (s.seq.task = some t → s.hart < 4096 → s.seq.mode = .u →
      let w := s.windDown s.hart
      (w.seq.engineIdle = true → w.peerOwes w.via.party = false → ∃ e : State, exec .kexit s = .next e ∧ e.seq.task = none ∧ e.seq.run = .free ∧ e.hart = s.hart) ∧
      (w.seq.engineIdle = false ∨ w.peerOwes w.via.party = true → exec .kexit s = .next (w.stalled .exit))) ∧
    (s.seq.task = none ∨ s.seq.mode ≠ .u ∨ isSupervisor s.hart = true → exec .kexit s = .next (s.takeTrap 2 s.seq.latch.bits))) ∧
  (∀ (s : State) (rd rs1 rs2 : Reg) (i : Instr), s.seq.mode = .u → i = .ctxSave rd rs1 rs2 ∨ i = .ctxLoad rd rs1 rs2 ∨ i = .migrate rd rs1 rs2 →
    exec i s = .next (s.takeTrap 2 s.seq.latch.bits)) ∧
  (∀ (s s1 : State) (rd rs1 rs2 : Reg), s.seq.mode ≠ .u →
    let src := (s.x rs1).toNat
    let a := s.x rs2
    let q := s.getSeq src
    let near := src < 4096 ∧ hartCluster src = hartCluster s.hart ∧ q.run = .halted
    let area := (s.saveArea src).bytes
    let s0 := (s.flushP s.hart).settled s.hart
    let place := s0.locateAll s0.via .store (pieces 200 a area.length)
    (¬ near → Completes (.ctxSave rd rs1 rs2) s (s.setX rd (minus 1))) ∧
    (near → a.toNat % 128 ≠ 0 → Completes (.ctxSave rd rs1 rs2) s (s.setX rd (minus 2))) ∧
    (near → a.toNat % 128 = 0 →
      (q.drained = false → q.engRecs.length ≤ 16 → exec (.ctxSave rd rs1 rs2) s = .next (s.stalled .drain)) ∧
      (16 < q.engRecs.length → exec (.ctxSave rd rs1 rs2) s = .next ((s.runLowest src).stalled .drain)) ∧
      (q.drained = true → q.engRecs.length ≤ 16 → s.peerOwes s.via.party = true → exec (.ctxSave rd rs1 rs2) s = .next (s.stalled .peer)) ∧
      (q.drained = true → q.engRecs.length ≤ 16 → s.peerOwes s.via.party = false →
        (∀ c v, place = .trap c v s1 → exec (.ctxSave rd rs1 rs2) s = .next ((s1.barHalts src a).takeTrap c v)) ∧
        (∀ ls s2, place = .ok ls s1 → s1.storeLocs s1.via ls area = .ok () s2 → ∃ e : State,
          Completes (.ctxSave rd rs1 rs2) s (e.setX rd (BitVec.ofNat 64 area.length)) ∧ (e.getSeq src).task = none ∧ (e.getSeq src).run = .free ∧
            ({ area := firstByte ls, hart := src, seq := ((State.poisonArea s1 s2 src ls (s.saveArea src)).flushP s.hart).getSeq src } : Saved) ∈ e.saved) ∧
        (∀ ls s2 c v, place = .ok ls s1 → s1.storeLocs s1.via ls area = .trap c v s2 → exec (.ctxSave rd rs1 rs2) s = .next ((s2.barHalts src a).takeTrap c v))))) ∧
  (∀ (s s1 s2 s3 : State) (rd rs1 rs2 : Reg) (ls : List Loc) (hd : List Byte), s.seq.mode ≠ .u →
    let dst := (s.x rs1).toNat
    let a := s.x rs2
    let hart := fld hd 0x08 2
    let base := s2.savedAt (firstByte ls) hart
    (a.toNat % 128 ≠ 0 → Completes (.ctxLoad rd rs1 rs2) s (s.setX rd (minus 2))) ∧
    (∀ c v, a.toNat % 128 = 0 → s.locate s.via a 64 .load = .trap c v s1 → exec (.ctxLoad rd rs1 rs2) s = .next (s1.takeTrap c v)) ∧
    (a.toNat % 128 = 0 → s.locate s.via a 64 .load = .ok ls s1 → s1.loadRun s1.via 32 a 2048 = .ok hd s2 →
      (s2.loadPlace dst hart base = false → Completes (.ctxLoad rd rs1 rs2) s (s2.setX rd (minus 2))) ∧
      (s2.loadPlace dst hart base = true →
        (s2.dev.fwList.contains (fld hd 0 4) = false ∨ 8 < fld hd 0x0A 1 ∨ 8 < fld hd 0x0B 1 ∨ 16 < fld hd 0x0C 1 ∨ reservedZero hd = false →
          Completes (.ctxLoad rd rs1 rs2) s (s2.setX rd (minus 3))) ∧
        (∀ n, s2.loadRest dst (firstByte ls) a hd base = .ok (.inr n) s3 → Completes (.ctxLoad rd rs1 rs2) s (s3.setX rd (minus n))) ∧
        (∀ p n, s2.loadRest dst (firstByte ls) a hd base = .ok (.inl p) s3 → s3.loadRoom p = some n → Completes (.ctxLoad rd rs1 rs2) s (s3.setX rd (minus n))) ∧
        (∀ p, s2.loadRest dst (firstByte ls) a hd base = .ok (.inl p) s3 → s3.loadRoom p = none → ∃ e : State,
          Completes (.ctxLoad rd rs1 rs2) s (e.setX rd 0) ∧ (e.getSeq dst).run ≠ .free ∧ (e.getSeq dst).pc = fldW p.bytes 0x40 ∧
            ∀ r : Reg, r ≠ 0 → (e.getSeq dst).rx r = fldW p.bytes (0x40 + 8 * r.toNat)) ∧
        (∀ c v, s2.loadRest dst (firstByte ls) a hd base = .trap c v s3 → exec (.ctxLoad rd rs1 rs2) s = .next (s3.takeTrap c v))))) ∧
  (∀ (s : State) (rd rs1 rs2 : Reg), s.seq.mode ≠ .u →
    let src := (s.x rs1).toNat
    let dst := (s.x rs2).toNat
    let q := s.getSeq src
    let near := src < 4096 ∧ hartCluster src = hartCluster s.hart ∧ q.run = .halted
    (¬ near → Completes (.migrate rd rs1 rs2) s (s.setX rd (minus 1))) ∧
    (∀ n, near → s.moveStatus src dst = some n → Completes (.migrate rd rs1 rs2) s (s.setX rd (minus n))) ∧
    (near → s.moveStatus src dst = none →
      (q.drained = false ∨ s.replyRoom src dst = false → exec (.migrate rd rs1 rs2) s = .next (s.stalled .drain)) ∧
      (q.drained = true → s.replyRoom src dst = true →
        ∃ e : State, Completes (.migrate rd rs1 rs2) s (e.setX rd 0) ∧ (e.getSeq src).task = none ∧ (e.getSeq src).run = .free ∧
          (e.getSeq dst).x = q.x ∧ (e.getSeq dst).f = q.f ∧ (e.getSeq dst).pc = q.pc ∧ (e.getSeq dst).loops = q.loops ∧ (e.getSeq dst).task = q.task ∧
          e.mem = s.mem))) ∧
  (∀ (s : State) (h : Nat) (t : Task), h < 4096 → (s.getSeq h).task = some t →
    ((s.getSeq h).mode ≠ .u ∨ (s.getSeq h).run = .halted → ∃ e : State, exec (.endTask h) s = .next e ∧ (e.getSeq h).task = none ∧ (e.getSeq h).run = .free) ∧
    ((s.getSeq h).mode = .u → (s.getSeq h).run ≠ .halted → exec (.endTask h) s = .next s)) ∧
  (∀ (s : State) (rd rs1 rs2 : Reg),
    let c := s.x rs2
    let qid := getBits c 0 12
    let launchBad := getBits c 12 4 ≠ 0 ∨ getBits c 18 14 ≠ 0
    let signalBad := getBits c 12 4 ≠ 0 ∨ getBits c 19 13 ≠ 0 ∨ getBits c 16 2 = 3
    let word0 := 2 + getBits c 17 1 + 512 * getBits c 16 1 + getBits c 32 32 * 2 ^ 32
    let body := leBytes 8 (s.x rs1).toNat
    let signal := body ++ leBytes 8 (getBits c 32 32) ++ leBytes 4 (getBits c 16 2) ++ leBytes 4 (getBits c 18 1)
    (launchBad → Completes (.launch rd rs1 rs2) s (s.setX rd (minus 3))) ∧
    (signalBad → Completes (.qsignal rd rs1 rs2) s (s.setX rd (minus 3))) ∧
    (s.peerOwes s.via.party = true → (¬ launchBad → exec (.launch rd rs1 rs2) s = .next (s.stalled .peer)) ∧ (¬ signalBad → exec (.qsignal rd rs1 rs2) s = .next (s.stalled .peer))) ∧
    (∀ w s2, s.peerOwes s.via.party = false →
      (¬ launchBad → ((s.flushP s.hart).settled s.hart).post qid word0 body = .ok w s2 → Completes (.launch rd rs1 rs2) s (s2.setX rd w)) ∧
      (¬ signalBad → ((s.flushP s.hart).settled s.hart).post qid 6 signal = .ok w s2 → Completes (.qsignal rd rs1 rs2) s (s2.setX rd w)))) ∧
  (∀ (s s1 : State) (qid word0 : Nat) (body : List Byte) (q : Queue) (c : QCfg) (wr : Nat),
    (s.queue? (s.partOf s.hart) qid = none → s.post qid word0 body = .ok (minus 1) s) ∧
    (s.queue? (s.partOf s.hart) qid = some q → q.cfg = none → s.post qid word0 body = .ok (minus 1) s) ∧
    (postsTo s qid q c wr s1 →
      let n := (wr + 2 ^ 64 - q.rdidx % 2 ^ 64) % 2 ^ 64
      (2 ^ c.ringLog2 ≤ n → s.post qid word0 body = .ok (minus 2) s1) ∧
      (∀ old s2, n < 2 ^ c.ringLog2 → s1.amoVa (s1.viaQueue (s.partOf s.hart) qid) (q.va 0x40) false (fun w => (w + 1) % 2 ^ 64) = .ok old s2 →
        ∃ e : State, s.post qid word0 body = .ok (BitVec.ofNat 64 wr) e ∧ (c.devpost = true → e = s2.publish q c wr word0 body)) ∧
      (∀ x v s2, n < 2 ^ c.ringLog2 → s1.amoVa (s1.viaQueue (s.partOf s.hart) qid) (q.va 0x40) false (fun w => (w + 1) % 2 ^ 64) = .trap x v s2 →
        s.post qid word0 body = .ok (minus 1) (s2.queueBad q))) ∧
    (∀ x v, s.queue? (s.partOf s.hart) qid = some q → q.cfg = some c → s.qpRead q (q.va 0x40) 8 = .trap x v s1 →
      s.post qid word0 body = .ok (minus 1) (s1.queueBad q)))

/-- R84, R99, R100, of the guards and members that R99 allows: a pair whose members clash, or whose vector member no vector state makes legal, is cause 2, and so is every pair after vrelease; otherwise one whose guard does not hold only goes
on, and in the others both members take effect; a trap of either is the pair's, with neither effect. A pair of an integer operation and a vector member that changes no scalar register
delivers the integer result of the registers as they stood before it, and the vector member's effect. Which vector members no vector state makes legal is the model's reading (log 51). -/
def Obligations.PairMembersActTogether : Prop :=
  ∀ (s e : State) (g : Reg) (sense : Bool) (a b : Instr) (info : VInfo),
    (membersClash a b = true ∨ memberAssigned b = false ∨ s.seq.vec.released = true → exec (.pair g sense a b) s = .next (s.takeTrap 2 s.seq.latch.bits)) ∧
    (scalarMemberOk a = true → vectorMemberOk b = true → g ≠ 0 ∨ sense = true → membersClash a b = false → memberAssigned b = true → s.seq.vec.released = false →
      ((s.x g != 0) = sense → Completes (.pair g sense a b) s s) ∧
      ((s.x g != 0) ≠ sense →
        (doPair s a b = .ok info e → VCompletes (.pair g sense a b) s e) ∧
        (∀ c v, doScalar a s = .trap c v e → exec (.pair g sense a b) s = .next (s.takeTrap c v)) ∧
        (∀ c v s1, doScalar a s = .ok () s1 → doVector b s = .trap c v e → exec (.pair g sense a b) s = .next (s.takeTrap c v)))) ∧
    (∀ op rd rs1 rs2, doVector b s = .ok info e → e.seq.x = s.seq.x → e.seq.f = s.seq.f → ∃ e2, doPair s (.alu op rd rs1 rs2) b = .ok info e2 ∧
      e2.x rd = (if rd = 0 then 0 else evalAlu op (s.x rs1) (s.x rs2)) ∧ (∀ r, r ≠ rd → e2.x r = s.x r) ∧ (∀ r, e2.f r = s.f r) ∧
      e2 = { e with seq := { e.seq with x := e2.seq.x, f := e2.seq.f } })

/-! ## Events of lanes, pre-emption, waiting and code -/

/-- Actions of the runtime and of the hardware on sequencers. Lanes: a write of lgrant sets the weight and the grant, for a context that wants lanes the one that R49 gives it; the lane-request interrupt
enters the supervisor (R51); with fewer groups than contexts the groups rotate each 65,536 cycles (R49); a holder of more than its grant that has reached no vset* for 1 ms, and that another context has waited 1 ms for, is asked to halt (R50); a group is
retired (R113). Pre-emption: a request, for a launch that waits only for a hart that the policy of R348 chooses (log 72), halts an idle handler at once and else stays pending until it lands, a halted sequencer goes on where it halted (R300, R301), and forwarding entries end at
their time (R307). Waiting: a wait on a word is tested again, a barrier generation completes (R242), a page walk ends (R141). Code: a page is hashed and becomes verified or failed (R58,
R60), pages retired are freed once every sequencer has passed their generation (R64), a function's dispatch entry names a new body under the next generation (R61, R70), and a page becomes execute-only (R71).
The model's choices besides are the grants of a write of lgrant and the order of a rotation (log 49), an event whose conditions do not hold (log 57), what a new body is (log 16), and what may
land where an instruction waits (log 61). -/
def Obligations.SupervisionTakesEffect : Prop :=
  ∀ (s s1 : State) (h core sup group launch wg obj page part gen fn : Nat) (v : Word),
    let q := s.getSeq h
    let k := s.core core
    let sh := supervisorOf sup
    let ws := s.wanting core
    let u := s.usable core
    let turn := (k.rot + 1) % ws.length
    let alive := ∀ t l, q.task = some t → s.launch? t.launch = some l → l.killed = false
    (sup < 64 → ∃ e : State, exec (.lgrantWrite sup v) s = .next e ∧
      let g := sup * 64 + getBits v 0 6
      let s2 := s.lgrant sup v
      let c := coreOf g
      let first := 1 + (s2.usable c - (s2.wanting c).length) * max 1 (s2.getSeq g).vec.weight / ((s2.wanting c).map (·.weight)).sum
      let n := (e.getSeq g).vec.grant
      e.mem = s.mem ∧ (∀ g', g' ≠ g → e.getSeq g' = s.getSeq g') ∧ (e.getSeq g).vec.weight = (if v.getLsbD 7 then getBits v 16 8 else (s.getSeq g).vec.weight) ∧
      ((s.getSeq g).vec.wants = false → n = min 8 (getBits v 8 4)) ∧
      ((s.getSeq g).vec.wants = true → (s2.wanting c).length ≤ s2.usable c → n = first ∨ n = first + 1) ∧
      ((s.getSeq g).vec.wants = true → s2.usable c < (s2.wanting c).length → n ≤ 1)) ∧
    (sup < 64 → (s.cluster sup).lreq ≠ 0 → (s.getSeq sh).takesLrip = true → ∃ e : State, exec (.laneRequestInterrupt sup) s = .next e ∧
      e.getSeq sh = { (s.getSeq sh).interruptTo (s.seePc sh (s.getSeq sh).pc) 16 with run := .running } ∧ ∀ g, g ≠ sh → e.getSeq g = s.getSeq g) ∧
    (ws.length ≤ u ∨ 3 * (s.time - k.rotAt) < 65536 → exec (.laneRotation core) s = .next s) ∧
    (u < ws.length → 65536 ≤ 3 * (s.time - k.rotAt) → ∃ e : State, exec (.laneRotation core) s = .next e ∧ e.mem = s.mem ∧ (e.core core).rot = turn ∧ (e.core core).rotAt = s.time ∧
      ∀ i w, ws[i]? = some w → w.saved = false → (e.getSeq w.hart).vec.grant = if (i + ws.length - turn) % ws.length < u then 1 else 0) ∧
    (h < 4096 → min q.vec.grant (s.usable (coreOf h)) < popcount q.vec.hmask → q.vec.setAt + 1000000 ≤ s.time →
      (∃ i t, i < 4 ∧ 4 * coreOf h + i ≠ h ∧ (s.getSeq (4 * coreOf h + i)).stall = some .lanes ∧ 0 < (s.getSeq (4 * coreOf h + i)).vec.grant ∧
        popcount (s.getSeq (4 * coreOf h + i)).vec.hmask < (s.getSeq (4 * coreOf h + i)).vec.grant ∧
        (s.getSeq (4 * coreOf h + i)).since = some t ∧ t + 1000000 ≤ s.time) → exec (.laneHoldTimeout h) s = .next (s.askHalt h)) ∧
    (popcount q.vec.hmask ≤ min q.vec.grant (s.usable (coreOf h)) ∨ s.time < q.vec.setAt + 1000000 → exec (.laneHoldTimeout h) s = .next s) ∧
    (group < 8 → k.dis.getLsbD group = false → ∃ e : State, exec (.laneRetire core group) s = .next e ∧ (e.core core).dis = k.dis ||| (1 : BitVec 8) <<< group) ∧
    (h < 4096 → s.policyHalts = [] ∨ s.policyHalts.contains h = true →
      (q.task.isSome = true → q.halt = none → q.run = .running →
        ∃ e : State, exec (.haltRequest h) s = .next e ∧ e.getSeq h = { q with halt := some s.time, budget := false } ∧ ∀ g, g ≠ h → e.getSeq g = s.getSeq g) ∧
      (q.task.isSome = true → q.halt = none → q.run = .idle → alive →
        ∃ e : State, exec (.haltRequest h) s = .next e ∧ (e.getSeq h).run = .halted ∧ (e.getSeq h).x = q.x ∧ (e.getSeq h).pc = q.pc)) ∧
    (s.policyHalts ≠ [] → s.policyHalts.contains h = false → exec (.haltRequest h) s = .next s) ∧
    (q.run = .running → q.lands = true → alive → ∃ e : State, exec (.haltLanding h) s = .next e ∧ (e.getSeq h).run = .halted ∧ (e.getSeq h).halt = none ∧
      (e.getSeq h).x = q.x ∧ (e.getSeq h).pc = q.pc ∧ (e.getSeq h).vec = q.vec ∧ e.mem = s.mem) ∧
    (q.lands = false → q.run ≠ .halted → exec (.haltLanding h) s = .next s) ∧
    (∀ t, q.halt = some t → q.ctl.itbudget.toNat ≤ 3 * (s.time - t) → ∃ e : State, exec (.itbudgetExpiry h) s = .next e ∧ e.getSeq h = { q with budget := true }) ∧
    (∃ e : State, exec (.forwardingExpiry h) s = .next e ∧ e = { s with cores := e.cores } ∧
      ∀ f, f ∈ (e.core (coreOf h)).fwd ↔ f ∈ (s.core (coreOf h)).fwd ∧ ¬ (f.old = h ∧ f.expiry ≤ s.time)) ∧
    (q.run = .halted → ∃ e : State, exec (.sequencerResume h) s = .next e ∧ (e.getSeq h).run = (if q.hs.mode && !q.hs.inside then .idle else .running) ∧
      (e.getSeq h).x = q.x ∧ (e.getSeq h).pc = q.pc ∧ e.mem = s.mem ∧ ∀ g, g ≠ h → e.getSeq g = s.getSeq g) ∧
    (q.stall = some .word → exec (.watchWake h) s = .next { s with agenda := s.agenda ++ [.run h] } ∧
      exec (.waitTimeout h) s = .next { s with agenda := s.agenda ++ [.run h] }) ∧
    (let b := s.barrier launch wg
     b.arrived ≠ [] → s.wgTasks launch wg ≤ b.arrived.length → b.launch = launch → b.wg = wg → ∃ e : State, exec (.barrierComplete launch wg) s = .next e ∧
       (e.barrier launch wg).gen = b.gen + 1 ∧ (e.barrier launch wg).arrived = [] ∧ e = { s with barriers := e.barriers }) ∧
    (∀ st r, s.xlate (s.viaHart h) v (if st then .store else .load) = r →
      (∀ x, r = .ok x s1 → exec (.pageWalkComplete h v st) s = .next s1) ∧ (∀ c a, r = .trap c a s1 → exec (.pageWalkComplete h v st) s = .next s)) ∧
    (∀ o, s.obj? obj = some o →
      (o.pages[page]? = some .unverified → o.quarantined = false → ∃ (e : State) (o' : Obj), exec (.pageFetchUnverified obj page) s = .next e ∧
        e.obj? obj = some o' ∧ o' = { o with pages := o.pages.set page .hashing } ∧ e.mem = s.mem) ∧
      (o.pages[page]? = some .hashing → s.poisoned (o.pagePa page) 4096 = false → o.hashes[page]? = some (sha256Num (memRead s.mem (o.pagePa page) 4096)) →
        ∃ (e : State) (o' : Obj), exec (.pageHashDone obj page) s = .next e ∧ e.obj? obj = some o' ∧ o' = { o with pages := o.pages.set page .verified } ∧ e.mem = s.mem) ∧
      (o.pages[page]? = some .hashing → s.poisoned (o.pagePa page) 4096 = true ∨ o.hashes[page]? ≠ some (sha256Num (memRead s.mem (o.pagePa page) 4096)) →
        ∃ (e : State) (o' : Obj), exec (.pageHashDone obj page) s = .next e ∧ e.obj? obj = some o' ∧ o'.quarantined = true ∧ o'.pages[page]? = some .failed) ∧
      (∀ p, s.part part = some p → o.part = part → o.freed = false → fn < o.ndtab → o.rangeVerified (s.functionRange o fn) = true →
        o.bodyReady v.toNat (max 1 (Config.bodyBytes v.toNat (p.gen + 1))) = true →
        let a := o.dtabPa + 32 * fn + 8
        let w := (s.draw).1
        let lmap := if w.getLsbD 0 ∨ o.tsize < 16 then 0 else o.tarea + w.toNat / 2 % (o.tsize / 8) * 8
        let store := (s.draw).2.runtimeStore part a (leBytes 8 v.toNat ++ leBytes 8 (p.gen + 1) ++ leBytes 8 lmap)
        (store = .ok () s1 → ∃ e : State, exec (.retranslate part obj fn v) s = .next e ∧ e.part part = some { p with gen := p.gen + 1 } ∧
          (Memory.wf s.mem = true → (∃ c, s.leadOf part = some c) → s.coh.away = [] → s.beadsIn a 24 = [] → s.isCodePage a = false →
            memRead e.mem a 16 = leBytes 8 v.toNat ++ leBytes 8 (p.gen + 1) ∧ ∀ b, b < a ∨ a + 24 ≤ b → memGet e.mem b = memGet s.mem b)) ∧
        (∀ x, store = .stall x s1 → exec (.retranslate part obj fn v) s = .next s1)) ∧
      (o.freed = false → 4096 * page < o.tsize → ∃ (e : State) (o' : Obj), exec (.makeExecuteOnly obj page) s = .next e ∧ e.obj? obj = some o' ∧
        o.tareaPa + 4096 * page ∈ o'.xonly ∧ o' = { o with xonly := o'.xonly } ∧ e.mem = s.mem)) ∧
    (∀ p, s.part part = some p → (∃ o ∈ s.objs, o.part = part ∧ o.retired = some gen ∧ o.freed = false) → gen ≤ p.gen →
      (s.allReached part gen p.gen = true → s.raiseSaved part p.gen s.saved = .ok () s1 → ∃ e : State, exec (.generationFree part gen) s = .next e ∧
        ∀ o ∈ e.objs, o.part = part → o.retired = some gen → o.freed = true) ∧
      (s.allReached part gen p.gen = false → exec (.generationFree part gen) s = .next s))

/-! ## Events of the homes and of failing parts -/

/-- The homes and failing parts. A span read leaves no Bead word in its span and, where no record is parked, changes no byte outside Bead words (R209, R210, R220); a write home of a core that holds
the rod puts its bytes there and renews the lease (R209, R213); a rod that is waited for is recalled and, held for MINHOLD, passes to the oldest waiter, and an expired one passes or is free (R212, R213); a
reservation lapses at its expiry (R214); a core that rejoins has a new incarnation, no bytes of P lines and no place in a word mask (R226, R227), as has the hub copy channel; and an idle core's arrays go into retention and
wake (R223). Errors of SRAM and HBM are logged, under structure codes that the model chooses (log 23); they poison a sector, retire a lane group, fence a row group, or leave cause 29 pending (R192, R317). A boundary that fails is severed until it is rerouted
(R318, R319).
The model's choices besides are what is in flight at a failure and the writes it ranges (log 24), the readings of SRAM and HBM errors (log 44), what the home's own events do, a free choice of
evictions among it (log 50), and poison of PTEs (log 64). -/
def Obligations.HomesAndFailuresTakeEffect : Prop :=
  (∀ (s : State) (core line word count : Nat), word + count ≤ 32 → count ≠ 0 → core < 1024 → physTarget (128 * line + 4 * word) = some .hbm →
    let pa := 128 * line + 4 * word
    ∃ e : State, exec (.spanRead core line word count) s = .next e ∧ e.beadsIn pa (4 * count) = [] ∧
      (Memory.wf s.mem = true → s.coh.away = [] → (∀ b ∈ s.coh.beads, b.2.tag < 14 ∧ ∀ p ∈ b.2.parts, p.parked = none) →
        ∀ a, (∀ b ∈ s.coh.beads, a < b.1 ∨ b.1 + 8 ≤ a) → memGet e.mem a = memGet s.mem a)) ∧
  (∀ (s : State) (core addr : Nat) (bytes : List Byte), Memory.wf s.mem = true → poolSound s → physTarget addr = some .hbm → addr % 128 + bytes.length ≤ 128 →
    s.coreHolds core (addr / 4096) = true → s.isCodePage addr = false → s.isParkPool addr = false →
    ∃ (e : State) (r : Rod), exec (.homeWrite core addr bytes) s = .next e ∧ memRead e.mem addr bytes.length = bytes ∧
      (∀ a, (a < addr ∨ addr + bytes.length ≤ a) → (∀ w ∈ s.beadsIn addr bytes.length, a < w ∨ w + 8 ≤ a) → memGet e.mem a = memGet s.mem a) ∧
      aget e.coh.rods (addr / 4096) = some r ∧ r.expiry = s.time + s.lease (addr / 4096) ∧ r.lastW = some s.time) ∧
  (∀ (s : State) (region : Nat) (r : Rod), aget s.coh.rods region = some r →
    (∀ p, r.holder = some p → r.area = none →
      (r.waiters = [] → exec (.rodPass region) s = .next s) ∧
      (r.waiters ≠ [] → r.recalled = false → ∃ e : State, exec (.rodPass region) s = .next e ∧ aget e.coh.rods region = some { r with recalled := true } ∧
        e = { s with coh := { s.coh with rods := e.coh.rods } }) ∧
      (∀ w ws, r.waiters = w :: ws → r.recalled = true → r.granted + Config.minHold ≤ s.time → ∃ (e : State) (r' : Rod), exec (.rodPass region) s = .next e ∧
        aget e.coh.rods region = some r' ∧ r'.holder = some w ∧ r'.waiters = ws.filter (· != w) ∧ r'.granted = s.time ∧ r'.expiry = s.time + s.lease region ∧
        e = { s with coh := { s.coh with rods := e.coh.rods } }) ∧
      (r.waiters ≠ [] → r.recalled = true → s.time < r.granted + Config.minHold → exec (.rodPass region) s = .next s) ∧
      (r.expiry ≤ s.time → r.waiters = [] → ∃ e : State, exec (.leaseExpiry region) s = .next e ∧ aget e.coh.rods region = none ∧
        e = { s with coh := { s.coh with rods := e.coh.rods } }) ∧
      (∀ w ws, r.expiry ≤ s.time → r.waiters = w :: ws → ∃ (e : State) (r' : Rod), exec (.leaseExpiry region) s = .next e ∧
        aget e.coh.rods region = some r' ∧ r'.holder = some w) ∧
      (s.time < r.expiry → exec (.leaseExpiry region) s = .next s)) ∧
    (∀ a, r.area = some a →
      (r.expiry ≤ s.time → r.waiters = [] → ∃ e : State, exec (.reservationLapse region) s = .next e ∧ aget e.coh.rods region = none ∧
        e = { s with coh := { s.coh with rods := e.coh.rods } }) ∧
      (∀ w ws, r.expiry ≤ s.time → r.waiters = w :: ws → ∃ (e : State) (r' : Rod), exec (.reservationLapse region) s = .next e ∧
        aget e.coh.rods region = some r' ∧ r'.holder = some w ∧ r'.area = none ∧ r'.waiters = ws.filter (· != w)) ∧
      (s.time < r.expiry → exec (.reservationLapse region) s = .next s))) ∧
  (∀ (s : State) (core : Nat),
    (∃ e : State, exec (.rejoin 2048) s = .next e ∧ e.qp.hubInc = s.qp.hubInc + 1 ∧ ∀ d ∈ e.coh.dir, aget d.2.holders 2048 = none) ∧
    (core ≠ 2048 → ∃ e : State, exec (.rejoin core) s = .next e ∧ (e.core core).inc = (s.core core).inc + 1 ∧ (e.core core).retain = false ∧ (∀ p ∈ e.coh.plocal, p.1.1 ≠ core) ∧
      ∀ d ∈ e.coh.dir, aget d.2.holders core = none) ∧
    ((∀ i, i < 4 → (s.getSeq (4 * core + i)).task = none) → ∃ e : State, exec (.retentionEnter core) s = .next e ∧ (e.core core).retain = true ∧ e = { s with cores := e.cores }) ∧
    (∃ e : State, exec (.retentionWake core) s = .next e ∧ (e.core core).retain = false ∧ e = { s with cores := e.cores })) ∧
  (∀ (s : State) (core addr : Nat) (unit : SramUnit), core < 1024 →
    let part := s.partOfCluster (clusterOf core)
    let recent := (s.core core).corr.filter fun p => decide (s.time ≤ p.2 + 1000000000)
    let bit := (1 : BitVec 8) <<< (addr % 8)
    (unit = .cache ∨ unit = .scratch ∨ unit = .beadLine → exec (.sramError unit core addr false) s = .next (s.logCorrected part 1 1 core addr (sramCode unit))) ∧
    (∃ e : State, exec (.sramError .vectorFile core addr false) s = .next e ∧ (e.core core).corr = recent ++ [(addr % 8, s.time)] ∧
      (15 ≤ (recent.filter fun p => p.1 == addr % 8).length → (e.core core).dis.getLsbD (addr % 8) = true)) ∧
    (unit = .cache ∨ unit = .scratch → exec (.sramError unit core addr true) s =
      .next ((s.poisonSector (addr / 32)).logEntry part
        { type := 3, sev := 1, ovr := false, cls := 1, idx := core, addr := BitVec.ofNat 64 addr, qid := noQid, data := leBytes 8 (sramCode unit) })) ∧
    ((s.core core).dis.getLsbD (addr % 8) = false → ∃ e : State, exec (.sramError .vectorFile core addr true) s = .next e ∧ (e.core core).dis = (s.core core).dis ||| bit) ∧
    exec (.sramError .beadLine core addr true) s = .next (s.losePartials core fun w => w / 128 == addr / 128) ∧
    (∀ unc, ∃ e : State, exec (.sramError .array core addr unc) s = .next e ∧ (e.core core).fenced = (s.core core).fenced ||| (1 : BitVec 2) <<< (addr / 64 % 2)) ∧
    (∀ h, (s.core core).holder = some h →
      exec (.sramError .accumulator core addr false) s =
        .next (s.matReport h 3 (addr / 4096 % 4) 0 0 (addr % 4096) (((s.getSeq h).mat.ops.head?.map (·.n)).getD (s.getSeq h).mat.count)) ∧
      ∃ e : State, exec (.sramError .accumulator core addr true) s = .next e ∧ reportKind (e.getSeq h).mat.report = 4 ∧
        ((s.getSeq h).mat.ops = [] → (e.getSeq h).mat.pend ≠ none) ∧
        (∀ o os, (s.getSeq h).mat.ops = o :: os → ∃ o', (e.getSeq h).mat.ops = o' :: os ∧ o'.defer ≠ none))) ∧
  (∀ (s : State) (addr : Nat), physTarget addr = some .hbm →
    let stack := 3 * dieOfHbm addr + addr % 0x3000000000 / 256 % 3
    exec (.hbmError addr true) s = .next ((s.poisonSector (addr / 32)).logEntry (s.partOfHbm addr)
      { type := 3, sev := 1, ovr := false, cls := 4, idx := stack, addr := BitVec.ofNat 64 addr, qid := noQid, data := leBytes 8 hbmCode }) ∧
    exec (.hbmError addr false) s = .next (s.logEntry (s.partOfHbm addr)
      { type := 2, sev := 0, ovr := false, cls := 4, idx := stack, addr := BitVec.ofNat 64 addr, qid := noQid, data := leBytes 8 stack ++ leBytes 8 (addr / 32) })) ∧
  (∀ (s : State) (boundary : Nat),
    exec .patrolScrub s = .next s ∧
    (boundary < 4 → s.dev.severed.contains boundary = false → s.dev.rerouted.contains boundary = false →
      ∃ e : State, exec (.linkFailure boundary) s = .next e ∧ boundary ∈ e.dev.severed) ∧
    (s.dev.severed.contains boundary = true → ∃ e : State, exec (.rerouteComplete boundary) s = .next e ∧ boundary ∉ e.dev.severed ∧ boundary ∈ e.dev.rerouted ∧
      e = { s with dev := { s.dev with severed := e.dev.severed, rerouted := e.dev.rerouted } }))

/-! ## The queue processor and launches -/

/-- What the packet at the head of a queue does once it is taken (R33 to R36). NOP finishes. A wait finishes when its condition is met, times out with code 0x43, its time counted from the first test, and
blocks otherwise. SIGNAL updates its word at once, with an EVENT where EV is set, and MARKER writes its tag and the time. COPY goes to the hub channel, which raises its timeline once it has moved the
bytes, records code 0x44 at a fault, and keeps its place while it waits. A LAUNCH that is granted is accepted or rejected by its header, with code 0x47 where it is rejected; one not granted waits. A
misaligned address and an access that faults are code 0x44; the code of poison, and which packets a held COPY keeps back, are the model's choices (log 68). A release waits for the acknowledgement of what its party
sent through peer windows (R197, R327), and a MARKER through one finishes when it is acknowledged (R35). Where no packet may be taken, every event only takes note of that.
Codes of a header beyond R22's words are log 69. -/
def Obligations.PacketsAreExecuted : Prop :=
  (∀ (s s1 : State) (part qid : Nat), s.takePacket part qid = .ok none s1 → ∀ i, i = Instr.nop part qid ∨ i = .invalidPacket part qid ∨ i = .waitTl part qid ∨
    i = .waitMem part qid ∨ i = .waitPacketTimeout part qid ∨ i = .signal part qid ∨ i = .copy part qid ∨ i = .marker part qid ∨ i = .launchGrid part qid ∨
    i = .launchPipe part qid → exec i s = .next s1) ∧
  (∀ (s s1 s2 : State) (p : Packet) (part qid : Nat) (b : List Byte), s.takePacket part qid = .ok (some p) s1 →
    let a := p.w 0x08
    let via := s1.viaQueue p.q.part p.q.qid
    let t0 := p.q.waitFrom.getD s1.time
    let aligned := a.toNat % 8 = 0
    let me : Party := .queue p.q.part p.q.qid
    let begun (st : State) : State := st.modQueue p.q.part p.q.qid fun q => { q with hand := if q.hand = .none then .begun else q.hand }
    exec (.invalidPacket part qid) s = .next s1 ∧
    (p.type = 1 → exec (.nop part qid) s = .next (s1.endPacket p.q)) ∧
    (∀ i, (i = Instr.waitTl part qid ∧ p.type = 4) ∨ (i = .waitMem part qid ∧ p.type = 5) ∨ (i = .waitPacketTimeout part qid ∧ (p.type = 4 ∨ p.type = 5)) →
      (¬ aligned → exec i s = .next (s1.packetFault p [a])) ∧
      (∀ c v, aligned → s1.qpRead p.q a 8 = .trap c v s2 → exec i s = .next (s2.packetFault p [v])) ∧
      (aligned → s1.qpRead p.q a 8 = .ok b s2 →
        let s3 := s2.dropAsks (.queue p.q.part p.q.qid)
        let s4 := s3.setQueue { p.q with qstate := .blocked, waitFrom := some t0, hand := .none }
        (p.met (leNat b) = true → exec i s = .next (s3.endPacket p.q)) ∧
        (p.met (leNat b) = false → p.timeout ≠ 0 → p.timeout ≤ s1.time - t0 →
          exec i s = .next ((s3.setQueue { p.q with waitFrom := some t0, hand := .none }).queueError p.q.part p.q.qid 0x43 p.q.rdidx p.utag [BitVec.ofNat 64 (leNat b)])) ∧
        (p.met (leNat b) = false → p.timeout = 0 ∨ s1.time - t0 < p.timeout →
          (p.q.qstate = .blocked → exec i s = .next s4) ∧
          (p.q.qstate ≠ .blocked → exec i s = .next s4.applyPolicy)))) ∧
    (p.type = 6 →
      let op (old : Nat) : Nat := match fld p.b 0x18 4 with | 0 => (p.w 0x10).toNat | 1 => max old (p.w 0x10).toNat | _ => (old + (p.w 0x10).toNat) % 2 ^ 64
      (¬ aligned → exec (.signal part qid) s = .next (s1.packetFault p [a])) ∧
      (aligned → s1.peerOwes me = true → exec (.signal part qid) s = .next (begun s1)) ∧
      (∀ c v, aligned → s1.peerOwes me = false → s1.amoVa via a false op = .trap c v s2 → exec (.signal part qid) s = .next (s2.packetFault p [v])) ∧
      (∀ w, aligned → s1.peerOwes me = false → s1.amoVa via a false op = .stall w s2 → exec (.signal part qid) s = .next (begun s2)) ∧
      (∀ old, aligned → s1.peerOwes me = false → s1.amoVa via a false op = .ok old s2 → exec (.signal part qid) s =
        .next ((if fld p.b 0x1C 4 = 1 then s2.sendEvent p.q.part 1 p.q.qid a (BitVec.ofNat 64 (op old)) else s2).endPacket p.q))) ∧
    (p.type = 8 →
      let w := s1.markWords via a (p.w 0x10).toNat
      (¬ aligned → exec (.marker part qid) s = .next (s1.packetFault p [a])) ∧
      (aligned → s1.peerOwes me = true → exec (.marker part qid) s = .next (begun s1)) ∧
      (aligned → s1.peerOwes me = false → p.q.hand = .sent → exec (.marker part qid) s = .next (s1.endPacket p.q)) ∧
      (aligned → s1.peerOwes me = false → p.q.hand ≠ .sent →
        (∀ c v, w = .trap c v s2 → exec (.marker part qid) s = .next (s2.packetFault p [v])) ∧
        (∀ x, w = .stall x s2 → exec (.marker part qid) s = .next (begun s2)) ∧
        (w = .ok true s2 → exec (.marker part qid) s = .next (s2.endPacket p.q)) ∧
        (w = .ok false s2 → exec (.marker part qid) s = .next (s2.modQueue p.q.part p.q.qid fun q => { q with hand := .sent }))) ∧
      (∀ l m t0 t1 t2 t3, s1.locate via a 8 .store = .ok [l] t0 → t0.locate via (a + 8) 8 .store = .ok [m] t1 → isPeer l = false → isPeer m = false →
        t1.markReady via l = .ok () t2 → t2.markReady via m = .ok () t3 →
        w = .ok true ((t3.writeLocs via [l] (leBytes 8 (p.w 0x10).toNat)).writeLocs via [m] (leBytes 8 s1.time)))) ∧
    (p.type = 7 →
      (2 ^ 40 < (p.w 0x18).toNat → exec (.copy part qid) s = .next (s1.packetFault p [0, p.w 0x18])) ∧
      ((p.w 0x18).toNat ≤ 2 ^ 40 → (p.w 0x20).toNat % 8 ≠ 0 → exec (.copy part qid) s = .next (s1.packetFault p [p.w 0x20])) ∧
      ((p.w 0x18).toNat ≤ 2 ^ 40 → (p.w 0x20).toNat % 8 = 0 → ∃ (c : HubCopy) (e : State), exec (.copy part qid) s = .next (e.endPacket p.q) ∧
        e = { s1 with qp := { s1.qp with hub := s1.qp.hub ++ [c] } } ∧ c.src = p.w 0x08 ∧ c.dst = p.w 0x10 ∧ c.bytes = (p.w 0x18).toNat ∧ c.done = 0 ∧
          c.tl = p.w 0x20 ∧ c.value = p.w 0x28 ∧ c.part = p.q.part ∧ c.qid = p.q.qid ∧ c.pkt = p.q.rdidx ∧ c.utag = p.utag ∧ c.dead = false)) ∧
    (∀ i accept, (i = Instr.launchGrid part qid ∧ p.type = 2 ∧ accept = State.acceptGrid) ∨ (i = .launchPipe part qid ∧ p.type = 3 ∧ accept = State.acceptPipe) →
      (¬ aligned → exec i s = .next (s1.packetFault p [a])) ∧
      (aligned → p.q.granted = false → exec i s = .next s1) ∧
      (∀ c v, aligned → p.q.granted = true → s1.qpRead p.q a 256 = .trap c v s2 → exec i s = .next (s2.packetFault p [v])) ∧
      (aligned → p.q.granted = true → s1.qpRead p.q a 256 = .ok b s2 → ∀ e,
        (accept s2 p b = .ok () e → exec i s = .next e) ∧ (∀ w, accept s2 p b = .stall w e → exec i s = .next (begun e))))) ∧
  (∀ (s : State) (p : Packet) (l : Launch),
    (l.status = 0 → s.answerHeader p l = ({ s with launches := s.launches ++ [l] } : State).endPacket p.q) ∧
    (l.status ≠ 0 → ∃ e : State, s.answerHeader p l = e.queueError p.q.part p.q.qid 0x47 p.q.rdidx p.utag [BitVec.ofNat 64 l.status, l.hdr])) ∧
  (∀ (s s1 s2 : State) (idx : Nat) (c : HubCopy), s.qp.hub[idx]? = some c →
    let run := hubRun (s.viaHub c.part false) c (c.bytes + 1 - c.done) c.done s
    let ends (st : State) (k : HubCopy) : Prop :=
      let tl := st.amoMax (st.viaHub c.part false) c.tl false c.value.toNat
      let last : HubCopy := { k with bytes := k.done }
      (st.peerOwes .hub = true → exec (.hubCopyDone idx) s = .next (st.setHub idx (some last))) ∧
      (st.peerOwes .hub = false →
        (tl = .ok () s2 → exec (.hubCopyDone idx) s = .next (s2.setHub idx none)) ∧
        (∀ w, tl = .stall w s2 → exec (.hubCopyDone idx) s = .next (s2.setHub idx (some last))) ∧
        (∀ x v, tl = .trap x v s2 →
          exec (.hubCopyDone idx) s = .next ((s2.queueError c.part c.qid 0x44 c.pkt c.utag [v]).setHub idx (some { last with dead := true }))))
    (c.dead = true → exec (.hubCopyDone idx) s = .next s) ∧
    (c.dead = false → run = .finished s1 → ends s1 { c with done := c.bytes }) ∧
    (∀ x w, c.dead = false → run = .failed x w s1 → ends (s1.queueError c.part c.qid 0x44 c.pkt c.utag [w]) c) ∧
    (∀ n, c.dead = false → run = .waits n s1 →
      exec (.hubCopyDone idx) s = .next { s1 with qp := { s1.qp with hub := s1.qp.hub.set idx { c with done := n } } }))

/-- Control of queues (R29, R31, R37, R39 to R41) and the life of launches (R18, R21, R25, R45 to R47). Of the requests in CTRL the highest is acted on and all are cleared: STOPREQ stops a queue, KILLREQ
also ends its running launches, RESUMEREQ lets one that is stopped, or in error under a valid configuration, go on; a queue that has taken a packet is left alone. A queue's configuration is read, an odd SEQ
keeping the old one, and a queue is swapped in at a boundary; a held packet is released once the earlier work is done; the arbiter grants one ready launch; at the end of a quantum the waiting queues
age and the resident set follows the policy; the watchdog restarts the runtime, and a post that a hart has reached is answered with -3, -1, -2 or the index of its packet (R107, R108), the running hart staying the one that
runs. What log 68 names of swaps, ties and records, and log 46 of equal waits, is the model's choice. A workgroup, a run or the next task of a pipeline is bound as a whole or not at
all, and a launch that is over is completed.
The order of search in a placement is the model's reading (log 48), and so is the count of free sequencers of a pipeline's die
(log 69). -/
def Obligations.QueuesAndLaunchesAreRun : Prop :=
  (∀ (s s1 s2 : State) (part qid : Nat) (q : Queue) (b : List Byte), s.queue? part qid = some q →
    (∀ i, i = Instr.stopreq part qid ∨ i = .killreq part qid ∨ i = .resumereq part qid →
      (q.thread = none ∨ q.taken = true → exec i s = .next s) ∧
      (q.thread.isSome = true → q.taken = false → q.bad = true → exec i s = .next s) ∧
      (q.thread.isSome = true → q.taken = false → q.bad = false → s.qpRead q (q.va 0x50) 8 = .ok b s1 → leNat b % 8 = 0 → exec i s = .next s1) ∧
      (∀ x v, q.thread.isSome = true → q.taken = false → q.bad = false → s.qpRead q (q.va 0x50) 8 = .trap x v s1 → exec i s = .next (s1.queueBad q))) ∧
    (q.thread.isSome = true → q.taken = false → q.bad = false → s.qpRead q (q.va 0x50) 8 = .ok b s1 →
      let c := leNat b % 8
      let clear := s1.amoVa (s1.viaQueue q.part q.qid) (q.va 0x50) false (fun w => w - c)
      (∀ old, clear = .ok old s2 →
        (c = 1 ∨ c = 5 → exec (.stopreq part qid) s = .next (s2.modQueue q.part q.qid fun x => { x with qstate := .stopped, granted := false })) ∧
        (c / 2 % 2 = 1 → exec (.killreq part qid) s = .next
          (((s2.running q.part q.qid).foldl (fun x l => x.killLaunch l.id) s2).modQueue q.part q.qid fun x => { x with qstate := .stopped, granted := false })) ∧
        (c = 4 → exec (.resumereq part qid) s = .next (s2.modQueue q.part q.qid fun x =>
          if x.qstate = .stopped ∨ (x.qstate = .error ∧ x.cfgOk) then { x with qstate := .ready } else x))) ∧
      (c / 2 % 2 = 1 → exec (.stopreq part qid) s = .next s1 ∧ exec (.resumereq part qid) s = .next s1) ∧
      (c % 2 = 1 → exec (.resumereq part qid) s = .next s1)) ∧
    (q.thread.isSome = true → exec (.qcbConfigRead part qid) s = .next (s.readConfig q false)) ∧
    (∀ force, s.qpRead q (q.va 0) 64 = .ok b s1 → fld b 0 4 % 2 = 1 → s.readConfig q force = s1) ∧
    (∀ force, s.qpRead q (q.va 0) 64 = .ok b s1 → fld b 0 4 % 2 = 0 → q.seqword ≠ some (fld b 0 4) →
      let q0 : Queue := { q with seqword := some (fld b 0 4), bad := false }
      (fld b 4 2 = q.qid → cfgBad b = none → s.readConfig q force = s1.takeConfig q0 (cfgOf b)) ∧
      (∀ off, fld b 4 2 = q.qid → cfgBad b = some off → s.readConfig q force =
        (s1.setQueue { q0 with cfgOk := false }).queueError q.part q.qid 0x49 q.rdidx 0 [BitVec.ofNat 64 off, BitVec.ofNat 64 (fld b 0 4)]) ∧
      (fld b 4 2 ≠ q.qid → s.readConfig q force =
        (s1.setQueue { q0 with cfgOk := false }).queueError q.part q.qid 0x48 q.rdidx 0 [BitVec.ofNat 64 (fld b 4 2)])) ∧
    (∀ t, q.thread = none → s.freeThread = some t → s.atBoundary = true → exec (.qcbConfigRead part qid) s = .next (s.swapIn q t)) ∧
    (q.thread = none → s.freeThread = none ∨ s.atBoundary = false → exec (.qcbConfigRead part qid) s = .next s) ∧
    (q.qstate = .awaiting → s.earlierDone part qid = true → exec (.barrierRelease part qid) s = .next (s.setQueue { q with qstate := .ready })) ∧
    (q.qstate ≠ .awaiting ∨ s.earlierDone part qid = false → exec (.barrierRelease part qid) s = .next s)) ∧
  (∀ (s : State),
    let ready := s.qp.queues.filter fun q => !q.granted && s.launchReady q
    let top := ready.foldl (fun n q => max n q.effprio) 0
    (ready = [] → exec .launchGrant s = .next s) ∧
    (∀ g, afterSlot (aget s.qp.rr top) (ready.filter fun q => q.effprio == top) = some g → ∃ e : State, exec .launchGrant s = .next e ∧
      e.qp.queues = (s.setQueue { g with granted := true, grantEff := g.effprio, effprio := (g.cfg.map (·.prio)).getD 0, age := 0, lastGrant := s.time }).qp.queues ∧
      aget e.qp.rr top = some (g.thread.getD 0) ∧ e = { s with qp := { s.qp with queues := e.qp.queues, rr := e.qp.rr } })) ∧
  (∀ (s : State) (q : Queue),
    let aged := s.qp.queues.foldl (fun st x => st.ageQueue x) s
    (s.atBoundary = true → exec .quantumEnd s = .next (State.applyPolicy { aged with qp := { aged.qp with qstart := s.time } })) ∧
    (s.atBoundary = false → exec .quantumEnd s = .next s) ∧
    (q.thread.isSome = true → q.granted = false → s.launchReady q = true →
      s.ageQueue q = s.setQueue (if q.age + 1 = 4 then { q with age := 0, effprio := min 7 (q.effprio + 1) } else { q with age := q.age + 1 })) ∧
    (q.thread = none ∨ q.granted = true ∨ s.launchReady q = false → s.ageQueue q = s)) ∧
  (∀ (s s1 e : State) (h : Nat) (rd rs1 rs2 : Reg) (i : Instr),
    (s.time < s.dev.alive + Config.wdt → exec .runtimeWatchdog s = .next s) ∧
    (s.dev.alive + Config.wdt ≤ s.time → ∃ t : State, exec .runtimeWatchdog s = .next t ∧ t.dev.cause = 2 ∧ t.dev.alive = s.time ∧
      (h ∈ s.harts → 4096 ≤ h → (s.getSeq h).mode ≠ .m → (t.getSeq h).pc = Config.runtimeEntry ∧ (t.getSeq h).mode = .s ∧ (t.getSeq h).run = .running)) ∧
    exec .runtimeKeepAlive s = .next { s with dev := { s.dev with alive := s.time } } ∧
    ((s.getSeq h).canRun h = false → exec (.qpPost h) s = .next s) ∧
    (i = .launch rd rs1 rs2 ∨ i = .qsignal rd rs1 rs2 → (s.getSeq h).canRun h = true → (s.switch h).fetch = .ok i s1 → s1.mustWait i = false → exec i s1 = .next e →
      exec (.qpPost h) s = .next (e.switch s.hart)) ∧
    (let ready := (s.getSeq h).canRun h = true ∧ (s.switch h).fetch = .ok i s1 ∧ s1.mustWait i = false
     let c := s1.x rs2
     let qid := getBits c 0 12
     let answers (w : Word) (st : State) : Prop := ∃ t, exec (.qpPost h) s = .next (t.switch s.hart) ∧ Retired (st.setX rd w) (st.setX rd w).nextPc t
     let post := ((s1.flushP s1.hart).settled s1.hart).post qid
     let word0 := 2 + getBits c 17 1 + 512 * getBits c 16 1 + getBits c 32 32 * 2 ^ 32
     let signal := leBytes 8 (s1.x rs1).toNat ++ leBytes 8 (getBits c 32 32) ++ leBytes 4 (getBits c 16 2) ++ leBytes 4 (getBits c 18 1)
     (i = .launch rd rs1 rs2 → ready →
       (getBits c 12 4 ≠ 0 ∨ getBits c 18 14 ≠ 0 → answers (minus 3) s1) ∧
       (getBits c 12 4 = 0 → getBits c 18 14 = 0 → s1.peerOwes s1.via.party = false →
         (s1.queue? (s1.partOf s1.hart) qid = none → answers (minus 1) ((s1.flushP s1.hart).settled s1.hart)) ∧
         ∀ w st, post word0 (leBytes 8 (s1.x rs1).toNat) = .ok w st → answers w st)) ∧
     (i = .qsignal rd rs1 rs2 → ready →
       (getBits c 12 4 ≠ 0 ∨ getBits c 19 13 ≠ 0 ∨ getBits c 16 2 = 3 → answers (minus 3) s1) ∧
       (getBits c 12 4 = 0 → getBits c 19 13 = 0 → getBits c 16 2 ≠ 3 → s1.peerOwes s1.via.party = false →
         ∀ w st, post 6 signal = .ok w st → answers w st)))) ∧
  (∀ (s s1 : State) (launch : Nat) (l : Launch), s.launch? launch = some l →
    (l.kind = 1 → l.os = false → s.binds l = true →
      let o := l.nextGroup 4096 l.cursor
      (gridGroups l.header ≤ o ∨ l.group o = [] → exec (.workgroupBind launch) s = .next (s.modLaunch launch fun x => { x with cursor := o })) ∧
      (o < gridGroups l.header → l.group o ≠ [] →
        (s.placeGroup launch o (l.group o) = some s1 → exec (.workgroupBind launch) s = .next (s1.modLaunch launch fun x => { x with cursor := o + 1 })) ∧
        (s.placeGroup launch o (l.group o) = none → exec (.workgroupBind launch) s = .next (s.modLaunch launch fun x => { x with cursor := o })))) ∧
    (∀ e, l.kind = 1 → l.os = true → s.binds l = true → l.cursor < gridGroups l.header → l.runEnd (gridGroups l.header) l.cursor = some e →
      let run := (List.range (e - l.cursor)).map fun i => l.cursor + i
      (placeRun launch l run s = some s1 → exec (.runBind launch) s = .next (s1.modLaunch launch fun x => { x with cursor := e })) ∧
      (placeRun launch l run s = none → exec (.runBind launch) s = .next s)) ∧
    (l.kind = 2 → s.binds l = true →
      (l.cursor < l.total → s.placeGroup launch l.cursor [l.pipeSpec l.cursor] = some s1 →
        exec (.pipelineBind launch) s = .next (s1.modLaunch launch fun x => { x with cursor := l.cursor + 1 })) ∧
      (l.cursor < l.total → s.placeGroup launch l.cursor [l.pipeSpec l.cursor] = none → exec (.pipelineBind launch) s = .next s) ∧
      (∀ st, l.total ≤ l.cursor → l.nextStage (l.releaseOrder (l.cursor - l.total)) = some st →
        exec (.pipelineBind launch) s = .next ((s.releaseStage l st).modLaunch launch fun x => { x with cursor := l.cursor + 1 }))) ∧
    (s.binds l = false → exec (.workgroupBind launch) s = .next s ∧ exec (.runBind launch) s = .next s ∧ exec (.pipelineBind launch) s = .next s) ∧
    (l.severed = false ∨ l.done = true →
      (l.done = false → s.launchOver l = true → exec (.launchCompletion launch) s = .next (s.completeLaunch l)) ∧
      (l.done = true ∨ s.launchOver l = false → exec (.launchCompletion launch) s = .next s)) ∧
    (let w := if l.cplrec = 0 ∨ l.wrote then s else s.launchWrite l 1 l.cplrec (l.record s.time)
     let t := w.modLaunch l.id fun x => { x with wrote := true }
     s.frontBusy l.part l.qid = false → t.frontBusy l.part l.qid = false → t.raiseTimeline l = some s1 →
       (∀ x ∈ (s.completeLaunch l).launches, x.id = l.id → x.done = true) ∧ ∀ x ∈ (s.completeLaunch l).barriers, x.launch ≠ l.id))

/-- R18, R26, R52: a task that is bound starts in U mode with its argument block in a0, its level indices from a1 on, its workgroup index in a7, its stack top in sp, its scratch in tp, its work
identifier and handler table in the CSRs, every other x register 0, and at the kernel's entry.
The form at which it starts where the record has two entries (log 25), the satp it takes (log 20) and
where its scratch lies (logs 43 and 73) are the model's readings. -/
def Obligations.BoundTasksStartAsTheHeaderSays : Prop :=
  ∀ (s : State) (h : Nat) (l : Launch) (t : TaskSpec) (task : Task), t.args.length ≤ 6 →
    let q := s.taskSeq h l t task
    q.mode = .u ∧ q.task = some task ∧ q.run = (if l.kind = 2 then .held else .running) ∧ q.rx 10 = l.argBlock ∧
    (∀ i, i < t.args.length → q.rx (BitVec.ofNat 5 (11 + i)) = t.args.getD i 0) ∧ q.rx 17 = BitVec.ofNat 64 t.wglin ∧ q.rx 2 = task.top ∧ q.rx 4 = task.tp ∧
    q.rx 1 = 0 ∧ q.rx 3 = 0 ∧ q.rx 5 = 0 ∧ (∀ r : Reg, 17 < r.toNat → q.rx r = 0) ∧ (∀ r : Reg, q.rf r = 0) ∧ q.ctl.wid = t.wid ∧ q.ctl.htbase = l.htbase &&& ~~~7 ∧ q.ctl.itbudget = 65536 ∧ q.ctl.fwdlife = 100000 ∧
    q.vec.weight = l.weightOf t ∧ q.pc = (l.kernelOf t).2 ∧ q.loops = [] ∧ q.priv.satp = s.satpOf l.part

/-! ## Agents -/

namespace Sys2Proof.Machine.Claim

/-- May the running hart store to a register of an agent (R127, R264)? -/
def mayStore (s : State) (a off : Nat) : Prop :=
  off % 8 = 0 ∧ agentStoreOk a off s.via.mode = true ∧ (s.via.mode = .m ∨ s.owns (s.partOf s.hart) (.agent a off) 0 = true)

/-- An agent whose earlier work is done reads slot k, whose frame b is in order (R267). -/
def Takes (s s2 : State) (a k op : Nat) (b : List Byte) : Prop :=
  ∃ s0 s1 : State, s.agentAdvance a = .ok () s0 ∧ s0.readSlot a = .ok (.frame k b) s1 ∧ fld b 0 1 = op ∧ s1.frameFault a k b = .ok (0, 0) s2

/-- The same for a blend unit, whose window holds no entry that it may apply (R281). -/
def BlendTakes (s s2 : State) (a k op : Nat) (b : List Byte) : Prop :=
  ∃ s0 s1 : State, s.blendReady a = .ok () s0 ∧ s0.readSlot a = .ok (.frame k b) s1 ∧ fld b 0 1 = op ∧ s1.frameFault a k b = .ok (0, 0) s2

/-- Only agent a's registers differ. -/
def OnlyAgent (s e : State) (a : Nat) : Prop := e = { s with agents := e.agents } ∧ ∀ x, x ≠ a → e.agent x = s.agent x

end Sys2Proof.Machine.Claim

/-- Stores to the register blocks of agents (R264 to R268, R269, R336): one that R127 or R264 refuses is cause 7, a NOTIFY that the ring has no room for cause 28; EN, RESET, TLBINV, NOTIFY, MDONE and an amoadd on QTAIL
have the effect of their field, and PLIMIT takes the nearer bound on every die. -/
def Obligations.AgentRegistersAreStored : Prop :=
  ∀ (s s1 : State) (a off die : Nat) (v : Word),
    let g := s.agent a
    (mayStore s a off →
      (s.agentStore a off v (BitVec.allOnes 64) s.via.mode = .done s1 → exec (.agentRegisterWrite a off v) s = .next s1) ∧
      (s.agentStore a off v (BitVec.allOnes 64) s.via.mode = .full → exec (.agentRegisterWrite a off v) s = .next (s.takeTrap 28 (agentBlock a)))) ∧
    (¬ mayStore s a off → exec (.agentRegisterWrite a off v) s = .next (s.takeTrap 7 (agentBlock a + BitVec.ofNat 64 off))) ∧
    (a % 16 ≠ 15 → mayStore s a 0x008 →
      (g.en = false → g.broken = [] → 1 ≤ g.qsize → g.qsize ≤ 65536 → ∃ e : State, exec (.agentEnable a true) s = .next e ∧ e.agent a = { g with en := true } ∧ OnlyAgent s e a) ∧
      (∃ e : State, exec (.agentEnable a false) s = .next e ∧ e.agent a = { g with en := false } ∧ OnlyAgent s e a) ∧
      (∃ e : State, exec (.agentReset a) s = .next e ∧ (e.agent a).en = false ∧ (e.agent a).inc = g.inc + 1 ∧ (e.agent a).window = [] ∧ (e.agent a).draw = none ∧
        (e.agent a).finished = [] ∧ (e.agent a).qhead = g.qhead ∧ e.mem = s.mem) ∧
      (∃ e : State, exec (.agentTlbinv a) s = .next e ∧ e.agent a = { g with tlb := [] } ∧ OnlyAgent s e a)) ∧
    (a % 16 ≠ 15 → mayStore s a 0x040 →
      (g.qhead ≤ v.toNat → v.toNat < g.qtail → v.toNat < g.qhead + g.qsize → v.toNat ∉ g.ready → v.toNat ∉ g.broken → v.toNat ∉ g.inProgress →
        ∃ e : State, exec (.agentNotify a v) s = .next e ∧ e.agent a = { g with ready := insNat g.ready v.toNat } ∧ OnlyAgent s e a) ∧
      (v.toNat < g.qhead ∨ g.qtail ≤ v.toNat ∨ v.toNat ∈ g.ready →
        ∃ e : State, exec (.agentNotify a v) s = .next e ∧ e.agent a = { g with ordErr := true } ∧ OnlyAgent s e a)) ∧
    (a % 16 ≠ 15 → (s.via.mode = .m ∨ s.owns (s.partOf s.hart) (.agent a 0x038) 0 = true) →
      ∃ e : State, exec (.qtailReserve a v) s = .next e ∧ e.agent a = { g with qtail := (g.qtail + v.toNat) % 2 ^ 64 } ∧ OnlyAgent s e a) ∧
    (a % 16 = 0 → mayStore s a 0x080 →
      (g.draw = none → ∃ e : State, exec (.mdone a v) s = .next e ∧ e.agent a = { g with ordErr := true } ∧ OnlyAgent s e a) ∧
      (∀ d, g.draw = some d → d.mbase ≤ v.toNat % 2 ^ 32 → v.toNat % 2 ^ 32 < d.mbase + d.nm → v.toNat % 2 ^ 32 - d.mbase ∉ d.acked →
        ∃ e : State, exec (.mdone a v) s = .next e ∧ e.agent a = { g with draw := some { d with acked := insNat d.acked (v.toNat % 2 ^ 32 - d.mbase) } } ∧ OnlyAgent s e a)) ∧
    (die < 4 → s.via.mode = .m → mayStore s (16 * die + 15) 0 → ∃ e : State, exec (.plimitWrite die v) s = .next e ∧ e.mem = s.mem ∧
      ∀ d, d < 4 → (e.powerOf d).plimit = max 1600 (min 3200 (v.toNat % 65536)) ∧ (e.powerOf d).cap = (s.powerOf d).cap)

/-- R267, R269 to R282: an agent takes its next ready slot and does what its operation says: a NOP ends; a DRAW is kept, its meshlets and close markers are sent and it ends; TRIS and PATH start to write
their masks and coverage; FRAG and COVER are applied, held or late; and CLOSE raises NEXTOPEN. A field outside its limits ends the slot with RESULT 1 (a blend mode with RESULT 0x30), and an operation the
agent does not have with RESULT 1. With no slot to take, a NOP event only advances earlier work. A blend unit applies what its window lets it apply before it reads a slot. A close marker for a unit of
another partition ends its draw with RESULT 2.
That a slot reads all it needs before it writes, which limits end it with RESULT 1, and that a marker goes to all units at once, are the model's readings (log 52). -/
def Obligations.AgentSlotsAreWorked : Prop :=
  ∀ (s s1 s2 s3 s4 : State) (a k : Nat) (b t : List Byte),
    (agentKind a ≠ 2 → s.agentAdvance a = .ok () s1 → (s1.agent a).mayTake = false → exec (.agentNop a) s = .next s1) ∧
    (agentKind a = 2 → s.blendReady a = .ok () s1 → (s1.agent a).mayTake = false → exec (.agentNop a) s = .next s1) ∧
    ((agentKind a ≠ 2 ∧ Takes s s2 a k 0 b) ∨ (agentKind a = 2 ∧ BlendTakes s s2 a k 0 b) → exec (.agentNop a) s = .next (s2.agentFinish a k 0 0)) ∧
    (∀ op w, agentKind a ≠ 2 → opsOf (agentKind a) < op → s.agentAdvance a = .ok () s1 → s1.readSlot a = .ok (.frame k b) s2 → fld b 0 1 = op →
      s2.frameFault a k b = .ok (1, w) s3 → exec (.agentNop a) s = .next (s3.agentFinish a k 1 w)) ∧
    (agentKind a = 0 → Takes s s2 a k 1 b → badDraw b = false → s2.readBytes (s2.viaAgent a) (fldW b 0x18) (16 * fld b 0x14 1) = .ok t s3 →
      (∀ i, i < fld b 0x14 1 → badTarget t i = false) → ∃ e : State, exec (.draw a) s = .next e ∧ OnlyAgent s3 e a ∧
        e.agent a = { s3.agent a with draw := some { slot := k, body := b ++ t, next := 0, acked := [], run := 0, failed := false } }) ∧
    (agentKind a = 0 → Takes s s2 a k 1 b → badDraw b = true → exec (.draw a) s = .next (s2.agentFinish a k 1 0)) ∧
    (∀ d, s.agentAdvance a = .ok () s1 → (s1.agent a).draw = some d →
      (d.run = d.nm → exec (.meshletDispatch a) s = .next (s1.endDraw a d (if d.failed then 0x10 else 0) 0)) ∧
      (d.run ≠ d.nm → runFrom d.acked d.acked.length 0 ≤ d.run → s1.sendMeshlet a d = .ok () s2 → exec (.meshletDispatch a) s = .next s2) ∧
      (d.run ≠ d.nm → d.run < runFrom d.acked d.acked.length 0 → s1.pushClose a d (runFrom d.acked d.acked.length 0) = .ok () s2 →
        exec (.meshletDispatch a) s = .next s2) ∧
      (∀ u, d.run ≠ d.nm → d.run < runFrom d.acked d.acked.length 0 → (d.units a).find? (fun u => s1.partOfAgent u != s1.partOfAgent a) = some u →
        exec (.meshletDispatch a) s = .next (s1.endDraw a d 2 (agentBlock u)))) ∧
    (∀ r, agentKind a = 1 → Takes s s2 a k 1 b → 1 ≤ fld b 4 4 → fld b 4 4 ≤ 4096 → (regionOf b).ok = true → fld b 0x20 4 < 2 → fld b 0x24 12 = 0 →
      State.trisFrom a b 0 (fld b 4 4) s2 = .ok r s3 → s3.startWork a ⟨k, r.1, r.2.1, r.2.2⟩ = .ok () s4 → exec (.tris a) s = .next s4) ∧
    (∀ ps, agentKind a = 1 → Takes s s2 a k 2 b → 1 ≤ fld b 4 4 → fld b 4 4 ≤ 2 ^ 20 → (regionOf b).ok = true → fld b 0x20 4 < 4 → fld b 0x24 12 = 0 →
      State.pathFrom a (fldW b 8) 0 (fld b 4 4) none s2 = .ok (.ok ps) s3 →
      s3.startWork a ⟨k, pathTiles (regionOf b) (fld b 0x20 4 % 2 == 1) (fld b 0x20 4 / 2 == 1) (fldW b 0x10) ps, 0, 0⟩ = .ok () s4 → exec (.path a) s = .next s4) ∧
    (∀ i, agentKind a = 2 → (i = Instr.frag a ∧ BlendTakes s s2 a k 1 b) ∨ (i = .cover a ∧ BlendTakes s s2 a k 2 b) →
      let g := s2.agent a
      let key := (fldW b 8).toNat / 2 ^ 8
      let now := g.nextOpen.toNat / 2 ^ 8
      (blendBad b ≠ 0 → exec i s = .next (s2.agentFinish a k (blendBad b) 0)) ∧
      (blendBad b = 0 → g.ord = false ∨ key = now → s2.applySlot a k b = .ok () s3 → exec i s = .next s3) ∧
      (blendBad b = 0 → g.ord = true → now < key → exec i s = .next (s2.setAgent a { g with window := g.window ++ [{ slot := k, key := fldW b 8, body := b }] })) ∧
      (blendBad b = 0 → g.ord = true → key < now → exec i s = .next ((s2.setAgent a { g with late := true }).agentFinish a k 0 0))) ∧
    (agentKind a = 2 → BlendTakes s s2 a k 3 b → fld b 8 1 = 0 → fld b 0x10 32 = 0 → ∃ st : State,
      st.agent a = { s2.agent a with nextOpen := if (s2.agent a).nextOpen.toNat < (fldW b 8).toNat then fldW b 8 else (s2.agent a).nextOpen } ∧ OnlyAgent s2 st a ∧
      ((st.agentFinish a k 0 0).blendReady a = .ok () s3 → exec (.close a) s = .next s3)) ∧
    (agentKind a = 2 → BlendTakes s s2 a k 3 b → fld b 8 1 ≠ 0 ∨ fld b 0x10 32 ≠ 0 → exec (.close a) s = .next (s2.agentFinish a k 1 0))

/-! ## The host port, root and start -/

namespace Sys2Proof.Machine.Claim

/-- A frame is of FHT and of a partition that is served, and its message, once its ACK is taken (s1), has the expected SEQ (R321, R322, R325). -/
def InSequence (s s1 : State) (m : FhtMsg) (part : Nat) : Prop :=
  s.fhtPart m = some part ∧ s.frameBad m = false ∧ s.serves part = true ∧ s1 = s.takeAck part (flowKey m) m.ack m.ece ∧
    m.seq = (s1.flowOf part (flowKey m)).expect

/-- The event of a message, by its TYPE and OP (R322, R323). -/
def Carries (m : FhtMsg) (i : Instr) : Prop :=
  (m.is 1 = true ∧ i = .fhtWrite m) ∨ (m.is 2 = true ∧ i = .fhtRead m) ∨ (m.is 3 = true ∧ m.op ≠ 1 ∧ m.op ≠ 2 ∧ i = .fhtNotifyStore m) ∨
    (m.is 3 = true ∧ m.op = 1 ∧ i = .fhtNotifyFetchAdd m) ∨ (m.is 3 = true ∧ m.op = 2 ∧ ∃ tag : BitVec 4, m.tag = tag.toNat ∧ i = .fhtNotifyRed tag m)

/-- The command at the head of a partition's line stands in its mailbox, and the partition may issue it (R329). -/
def Commands (s : State) (part code : Nat) (p : Part) : Prop :=
  s.part part = some p ∧ p.cmds.head? = some code ∧ leNat (p.mailRead 0x08 8) = code ∧ (managementOnly code = true → part = 0)

end Sys2Proof.Machine.Claim

/-- R321 to R325, R327: what an FHT message in sequence does, and its answer. The source MAC and VLAN of a frame name its partition. A frame of another protocol or UDP port, of no partition, or with a header that R322 has
none of, is dropped and counted; so is one of a partition that minimal mode does not serve (R335; the clauses on a FLOW above 63 and a LEN above 8,192 are the model's choice, log 14). The ACK a message carries is taken. A
WRITE puts its payload in place, or in the root mailbox, and is acknowledged; a READ answers the bytes; a NOTIFY stores, adds or reduces one word and answers; with ROOT = 1 all of them act on the mailbox, and a NOTIFY at its
offset 0 queues a command. One that may not be performed, a READ of 0 or of more than 8,192 bytes (log 56) and an OP from 3 on are answered with a NAK, which consumes their SEQ. A message out of sequence is answered with the
ACK of what is expected. Where no root slot verified, the boot ROM takes a WRITE alone, whose image the model does not hold, acknowledges it and starts again (R333; that it answers so is the model's choice, log 34). An ACK
moves the window; 20 us without one resends, and after 64 resends without progress the flow is lost; SEQ 0 restarts a lost flow. An answer to a read through a peer window reaches the instruction, or the request of the host
port, that asked. -/
def Obligations.HostMessagesTakeEffect : Prop :=
  (∀ (s s1 : State) (m : FhtMsg) (part : Nat) (i : Instr), Carries m i →
    let dropped : State := { s with host := { s.host with drops := s.host.drops + 1 } }
    (m.udp ≠ 7460 ∨ s.fhtPart m = none ∨ m.ver ≠ 1 ∨ 63 < m.flow ∨ 8192 < m.len ∨ m.payload.length ≠ m.len → exec i s = .next dropped) ∧
    (s.fhtPart m = some part → s.dev.minimal = true → part ≠ 0 → s.dev.stage ≠ 6 → exec i s = .next dropped) ∧
    (s.dev.stage = 6 → m.is 1 = false → exec i s = .next dropped) ∧
    (s.fhtPart m = some part → s.frameBad m = false → s.serves part = true → s1 = s.takeAck part (flowKey m) m.ack m.ece → m.seq ≠ (s1.flowOf part (flowKey m)).expect →
      exec i s = .next (s1.send (.ack part (flowKey m) (s1.flowOf part (flowKey m)).expect m.ce))) ∧
    (s.dev.stage = 6 → m.is 1 = true → s.frameBad m = false → s.fhtPart m = some part → m.seq = (s.flowOf part (flowKey m)).expect →
      let e := (s.consume (part, flowKey m)).send (.ack part (flowKey m) ((s.consume (part, flowKey m)).flowOf part (flowKey m)).expect m.ce)
      exec (.fhtWrite m) s = .next { e with agenda := e.agenda ++ [.event .deviceStart] })) ∧
  (∀ (s s0 s1 s2 : State) (m : FhtMsg) (part : Nat) (p : Part) (tag : BitVec 4) (ls : List Loc) (l : Loc) (b : List Byte) (c : Nat) (v : Word), InSequence s s0 m part → s0.part part = some p →
    let via := s1.viaHub part true
    let n := m.arg.toNat
    let key := flowKey m
    let acked (st : State) : State := (st.consume (part, key)).send (.ack part key ((st.consume (part, key)).flowOf part key).expect m.ce)
    let answered (st : State) (old : Word) (bytes : List Byte) : State := (st.consume (part, key)).send (.answer part key false m.ce old bytes)
    let refused (st : State) : State := (st.consume (part, key)).send (.answer part key true m.ce 0 [])
    let mail (f : Nat → Nat) (old : Word) : State :=
      answered (s0.modPart part fun x => { x with mailbox := memWrite x.mailbox m.addr.toNat (leBytes 8 (f (leNat (p.mailRead m.addr.toNat 8)))) }) old []
    let word := leNat (p.mailRead m.addr.toNat 8)
    let inMail := m.root = true ∧ m.addr.toNat % 8 = 0 ∧ m.addr.toNat < 4096
    (m.is 1 = true →
      (m.root = false → s0.hubLocs part m m.payload.length .store = .ok ls s1 → s1.storeLocs via ls m.payload = .ok () s2 → exec (.fhtWrite m) s = .next (acked s2)) ∧
      (m.root = false → s0.hubLocs part m m.payload.length .store = .trap c v s1 → exec (.fhtWrite m) s = .next (refused s1)) ∧
      (m.root = true → m.addr.toNat + m.payload.length ≤ 4096 → exec (.fhtWrite m) s =
        .next (acked (s0.modPart part fun x => { x with mailbox := memWrite x.mailbox m.addr.toNat m.payload }))) ∧
      (m.root = true → 4096 < m.addr.toNat + m.payload.length → exec (.fhtWrite m) s = .next (refused s0))) ∧
    (m.is 2 = true →
      (m.root = false → n ≠ 0 → n ≤ 8192 → s0.hubLocs part m n .load = .ok ls s1 → s1.readLocs via false ls = .ok b s2 → exec (.fhtRead m) s = .next (answered s2 0 b)) ∧
      (m.root = true → n ≠ 0 → n ≤ 8192 → m.addr.toNat + n ≤ 4096 → exec (.fhtRead m) s = .next (answered s0 0 (p.mailRead m.addr.toNat n))) ∧
      (m.root = false → n ≠ 0 → n ≤ 8192 → s0.hubLocs part m n .load = .trap c v s1 → exec (.fhtRead m) s = .next (refused s1)) ∧
      (n = 0 ∨ 8192 < n ∨ (m.root = true ∧ 4096 < m.addr.toNat + n) → exec (.fhtRead m) s = .next (refused s0))) ∧
    (m.is 3 = true →
      (m.root = false → s0.notifyWord part m = .ok l s1 →
        (m.op = 0 → s1.storeLocs via [l] (leBytes 8 n) = .ok () s2 → exec (.fhtNotifyStore m) s = .next (answered s2 0 [])) ∧
        (m.op = 1 → s1.atHome via l true = (none, s2) →
          let r := s2.rmwDone (s2.viaHub part true) l fun old => some ((old + n) % 2 ^ 64)
          exec (.fhtNotifyFetchAdd m) s = .next (answered r.2 (BitVec.ofNat 64 r.1) [])) ∧
        (m.op = 2 → m.tag = tag.toNat → tag ≠ 0 → tag.toNat < 14 →
          exec (.fhtNotifyRed tag m) s = .next (answered (s1.hubRed part l tag.toNat (lowBits m.arg (8 * tagBytes tag.toNat))) 0 []))) ∧
      (m.op = 2 → m.tag = tag.toNat → tag = 0 ∨ 14 ≤ tag.toNat → exec (.fhtNotifyRed tag m) s = .next (refused s0)) ∧
      (3 ≤ m.op → exec (.fhtNotifyStore m) s = .next (refused s0)) ∧
      (m.op = 0 → m.root = true → m.addr = 0 → exec (.fhtNotifyStore m) s = .next ((answered s0 0 []).takeCmd part n)) ∧
      (m.op = 0 → inMail → m.addr ≠ 0 → exec (.fhtNotifyStore m) s = .next (mail (fun _ => n) 0)) ∧
      (m.op = 1 → inMail → exec (.fhtNotifyFetchAdd m) s = .next (mail (fun w => (w + n) % 2 ^ 64) (BitVec.ofNat 64 word))) ∧
      (m.op = 2 → m.tag = tag.toNat → tagBytes tag.toNat = 8 → tag ≠ 0 → tag.toNat < 14 → inMail → exec (.fhtNotifyRed tag m) s = .next (mail (fun w => tagOp tag.toNat w n) 0)) ∧
      (m.root = false → s0.notifyWord part m = .trap c v s1 → (m.op = 0 → exec (.fhtNotifyStore m) s = .next (refused s1)) ∧ (m.op = 1 → exec (.fhtNotifyFetchAdd m) s = .next (refused s1)) ∧
        (m.op = 2 → m.tag = tag.toNat → tag ≠ 0 → tag.toNat < 14 → exec (.fhtNotifyRed tag m) s = .next (refused s1))))) ∧
  (∀ (s : State) (part flow n : Nat),
    let f := s.flowOf part flow
    let k := (n + 2 ^ 32 - f.oldest % 2 ^ 32) % 2 ^ 32
    let held := (f.next + 2 ^ 32 - f.oldest % 2 ^ 32) % 2 ^ 32
    (∀ ece, held < k → exec (.fhtAck part flow n ece) s = .next s) ∧
    (n = f.expect → f.lost = false → exec (.fhtSeqDrop part flow n) s = .next s) ∧
    (k ≤ held → k ≠ 0 →
       ∃ e1 e2 : State, exec (.fhtAck part flow n true) s = .next e1 ∧ exec (.fhtAck part flow n false) s = .next e2 ∧
         (e1.flowOf part flow).oldest = n % 2 ^ 32 ∧ (e1.flowOf part flow).resends = 0 ∧ (e1.flowOf part flow).window = max 8 (f.window / 2) ∧
         (e2.flowOf part flow).oldest = n % 2 ^ 32 ∧ (e2.flowOf part flow).window = min 512 (f.window + (f.good + k) / 512) ∧
         (e2.flowOf part flow).good = (f.good + k) % 512) ∧
    (f.next = f.oldest ∨ f.lost = true ∨ s.time < f.sentAt + 20000 → exec (.fhtRetransmitTimeout part flow) s = .next s) ∧
    (f.next ≠ f.oldest → f.lost = false → f.sentAt + 20000 ≤ s.time →
      (f.resends < 64 → ∃ e : State, exec (.fhtRetransmitTimeout part flow) s = .next e ∧ (e.flowOf part flow).resends = f.resends + 1 ∧
        (e.flowOf part flow).sentAt = s.time ∧ Sent.resend part flow f.oldest ∈ e.host.sent) ∧
      (64 ≤ f.resends → exec (.fhtRetransmitTimeout part flow) s = .next (s.loseFlow f))) ∧
    (f.lost = false → n ≠ f.expect → exec (.fhtSeqDrop part flow n) s = .next (s.send (.ack part flow f.expect false))) ∧
    (f.lost = true → exec (.fhtSeqDrop part flow 0) s = .next (s.setFlow { f with lost := false })) ∧
    exec .frameDrop s = .next { s with host := { s.host with drops := s.host.drops + 1 } }) ∧
  (∀ (s : State) (h : Nat) (b : List Byte) (lost : Bool),
    (∀ ask, h < 8192 → (s.getSeq h).peerAsk = some ask → lost = true ∨ b.length = ask.2 → ∃ e : State, exec (.fhtResponse h b lost) s = .next e ∧
      e.getSeq h = { s.getSeq h with peerAsk := none, peerGot := (s.getSeq h).peerGot ++ [(ask.1, if lost then [] else b)] } ∧ ∀ g, g ≠ h → e.getSeq g = s.getSeq g) ∧
    (8192 ≤ h → exec (.fhtResponse h b lost) s = .next (s.askAnswered (h - 8192) b lost)))

/-- R329 to R332: root performs the command at the head of a partition's line, answers with EVENT 6, and goes on with the next. A mailbox that holds another command, and a command of partition 0 from another partition, are answered with status 8. Unless refused for
the reason its status names, each command has its effect.
The model's choices are those of log 33 (the addresses of arguments, what some refusals answer, status 8 for a code outside the table, the steps of a reset), that a signature's validity is a free value
(log 10), and that no partition is made without a granule (log 76). -/
def Obligations.RootCommandsArePerformed : Prop :=
  ∀ (s s1 : State) (part d i : Nat) (p x : Part) (o : Obj) (b : List Byte) (q : Nat),
    (∀ j code, rootEvent part code = some j → s.part part = some p → p.cmds.head? = some code →
      leNat (p.mailRead 0x08 8) ≠ code ∨ (managementOnly code = true ∧ part ≠ 0) → exec j s = .next (s.endCmd part 8 0)) ∧
    (∀ status addr,
      let e := Sent.event part 6 0 (BitVec.ofNat 64 addr) (BitVec.ofNat 64 status) []
      let t := (s.endCmd part status addr).host
      ((s.flowOf part 63).room ≠ 0 → s.laterOf (part, 63) = [] → e ∈ t.sent) ∧ ((s.flowOf part 63).room = 0 ∨ s.laterOf (part, 63) ≠ [] → e ∈ t.later)) ∧
    (Commands s part 1 p →
      (s.placeObject part (p.arg 0) (p.arg 1) (p.gen + 1) = some (d, s1) → exec (.loadObject part) s =
        .next ((s1.modPart part fun x => { x with gen := p.gen + 1 }).endCmd part 0 d)) ∧
      (s.placeObject part (p.arg 0) (p.arg 1) (p.gen + 1) = none → exec (.loadObject part) s = .next (s.endCmd part 1 0))) ∧
    (Commands s part 2 p →
      (s.objAt part (p.arg 0) = some (i, o) → exec (.unload part) s =
        .next (((s.retireObj i (p.gen + 1) none).modPart part fun x => { x with gen := p.gen + 1 }).endCmd part 0 0)) ∧
      (s.objAt part (p.arg 0) = none → exec (.unload part) s = .next (s.endCmd part 2 0))) ∧
    (Commands s part 3 p →
      (s.objAt part (p.arg 0) = some (i, o) → s.placeObject part (p.arg 1) (p.arg 2) (p.gen + 1) = some (d, s1) → exec (.replace part) s =
        .next (((s1.retireObj i (p.gen + 1) (some (s1.objs.length - 1))).modPart part fun x => { x with gen := p.gen + 1 }).endCmd part 0 d)) ∧
      (s.objAt part (p.arg 0) = some (i, o) → s.placeObject part (p.arg 1) (p.arg 2) (p.gen + 1) = none → exec (.replace part) s = .next (s.endCmd part 1 0)) ∧
      (s.objAt part (p.arg 0) = none → exec (.replace part) s = .next (s.endCmd part 2 0))) ∧
    (Commands s part 4 p →
      (p.arg 0 < 4096 → aget p.queues (p.arg 0) = none → ∃ e : State, exec (.createQueue part) s = .next (e.endCmd part 0 0) ∧
        e.part part = some { p with queues := aput p.queues (p.arg 0) (p.arg 1) } ∧
        (∃ x : Queue, e.qp.queues = s.qp.queues ++ [x] ∧ x.part = part ∧ x.qid = p.arg 0 ∧ x.qcb = p.arg 1 ∧ x.thread = none) ∧
        e = { s with parts := e.parts, qp := { s.qp with queues := e.qp.queues } }) ∧
      (4096 ≤ p.arg 0 ∨ (aget p.queues (p.arg 0)).isSome = true → exec (.createQueue part) s = .next (s.endCmd part 3 0))) ∧
    (Commands s part 5 p →
      ((aget p.queues (p.arg 0)).isSome = true → ∃ e : State, exec (.destroyQueue part) s = .next (e.endCmd part 0 0) ∧
        e.part part = some { p with queues := adel p.queues (p.arg 0) } ∧ (∀ x ∈ e.qp.queues, ¬ (x.part = part ∧ x.qid = p.arg 0)) ∧ e.mem = s.mem) ∧
      (aget p.queues (p.arg 0) = none → exec (.destroyQueue part) s = .next (s.endCmd part 3 0))) ∧
    (Commands s part 6 p →
      (1000 ≤ p.arg 0 → p.arg 0 ≤ 1000000 → exec (.setLease part) s = .next ((s.setPart part { p with lease := p.arg 0 }).endCmd part 0 0)) ∧
      (p.arg 0 < 1000 ∨ 1000000 < p.arg 0 → exec (.setLease part) s = .next (s.endCmd part 4 0))) ∧
    (Commands s part 7 p → 6 ≤ p.arg 1 → p.arg 1 ≤ 16 → p.arg 0 % 64 = 0 → s.ownsRange part (p.arg 0) (64 * (1 + 2 ^ p.arg 1)) = true → exec (.setLog part) s =
      .next (((s.setPart part { p with logBase := p.arg 0, logLog2 := p.arg 1 }).rootPut (p.arg 0) (leBytes 8 0)).endCmd part 0 0)) ∧
    (Commands s part 8 p → p.arg 0 < 128 → s.rootGet part (p.arg 1) 64 = some b →
      (s.rowsHeldIn part p = false → exec (.writeHomingEntry part) s =
        .next (((s.flushPart part p).modPart part fun x => { x with homing := aput x.homing (p.arg 0) (homeEntryOf b) }).endCmd part 0 0)) ∧
      (s.rowsHeldIn part p = true → exec (.writeHomingEntry part) s = .next (s.waitCmd part 8))) ∧
    (Commands s part 9 p →
      let r := s.resetPart part p
      (p.isolated = false → r = (s.isolate part p, false)) ∧
      (r.2 = false → exec (.resetPartition part) s = .next (r.1.waitCmd part 9)) ∧
      (r.2 = true → exec (.resetPartition part) s = .next (r.1.endCmd part 0 0) ∧ (∀ l ∈ r.1.launches, l.part = part → l.done = true) ∧
        ∃ y, r.1.part part = some y ∧ y.gen = 1 ∧ y.isolated = false)) ∧
    (Commands s part 10 p → s.rootGet part (p.arg 0) 32 = some b →
      let r := Config.attestSign b
      (s.ownsRange part (p.arg 1) r.length = true → exec (.attest part) s = .next ((s.rootPut (p.arg 1) r).endCmd part 0 0)) ∧
      (s.ownsRange part (p.arg 1) r.length = false → exec (.attest part) s = .next (s.endCmd part 0 0))) ∧
    (Commands s part 11 p → s.saved = [] → ∃ e : State, exec (.activateFirmware part) s = .next (e.endCmd part 0 0) ∧
      (∀ j, j ≤ 2 → e.dev.fwWrites - j ∈ e.dev.fwList) ∧ e = { s with dev := { s.dev with fwWrites := e.dev.fwWrites, fwList := e.dev.fwList }, draws := s.draws + 1 }) ∧
    (Commands s part 12 p → s.rootGet part (p.arg 0) 256 = some b → s.signedBy p b = some q → keyOk (descPart b).2.codeKey = true → (s.useLeaf q).canCreate p b = true →
      ∃ e : State, exec (.createPartition part) s = .next (e.endCmd part 0 0) ∧ e.part (descPart b).1 = some (descPart b).2 ∧
        ∀ z, e.part 0 = some z → z.clusters = p.clusters &&& ~~~(descPart b).2.clusters ∧ z.granules = p.granules &&& ~~~(descPart b).2.granules ∧
          z.agents = p.agents &&& ~~~(descPart b).2.agents) ∧
    (Commands s part 12 p → s.rootGet part (p.arg 0) 256 = some b →
      (s.signedBy p b = none → exec (.createPartition part) s = .next (s.endCmd part 7 0)) ∧
      (s.signedBy p b = some q → keyOk (descPart b).2.codeKey = false → exec (.createPartition part) s = .next ((s.useLeaf q).endCmd part 7 0)) ∧
      (s.signedBy p b = some q → keyOk (descPart b).2.codeKey = true → (s.useLeaf q).canCreate p b = false →
        exec (.createPartition part) s = .next ((s.useLeaf q).endCmd part 6 0))) ∧
    (Commands s part 13 p →
      (s.signedBy p [] = none → exec (.destroyPartition part) s = .next (s.endCmd part 7 0)) ∧
      (s.signedBy p [] = some q → s.part (p.arg 0) = none ∨ p.arg 0 = 0 → exec (.destroyPartition part) s = .next ((s.useLeaf q).endCmd part 6 0)) ∧
      (s.signedBy p [] = some q → s.part (p.arg 0) = some x → p.arg 0 ≠ 0 →
        let r := s.resetPart (p.arg 0) x
        (r.2 = false → exec (.destroyPartition part) s = .next (r.1.waitCmd part 13)) ∧
        (r.2 = true → ∃ e : State, exec (.destroyPartition part) s = .next ((e.useLeaf q).endCmd part 0 0) ∧ e.part (p.arg 0) = none ∧
          (∀ y ∈ e.qp.queues, y.part ≠ p.arg 0) ∧ e = r.1.endPart (p.arg 0) x))) ∧
    (Commands s part 14 p → s.rootGet part (p.arg 1) 56 = some b → s.signedBy p b = some q →
      (keyOk b = true → (s.part (p.arg 0)).isSome = true → (part = 0 ∨ p.arg 0 = part) →
        exec (.setCodeKey part) s = .next (((s.useLeaf q).modPart (p.arg 0) fun x => { x with codeKey := b }).endCmd part 0 0)) ∧
      (keyOk b = false → exec (.setCodeKey part) s = .next ((s.useLeaf q).endCmd part 7 0))) ∧
    (Commands s part 15 p → s.rootGet part (p.arg 0) 56 = some b →
      (keyOk b = true → s.dev.ownerKey = none → exec (.setOwnerKey part) s = .next (({ s with dev := { s.dev with ownerKey := some b } } : State).endCmd part 0 0)) ∧
      (keyOk b = false → s.dev.ownerKey = none → exec (.setOwnerKey part) s = .next (s.endCmd part 7 0)) ∧
      (∀ old, keyOk b = true → s.dev.ownerKey = some old → s.signedBy p b = some q → ∃ e : State, exec (.setOwnerKey part) s = .next (e.endCmd part 0 0) ∧
        e = { s with dev := { s.dev with ownerKey := some b, ownerQ := s.dev.ownerQ.filter (·.1 != old) ++ [(old, q)] } }) ∧
      (s.dev.ownerKey ≠ none → s.signedBy p b = none → exec (.setOwnerKey part) s = .next (s.endCmd part 7 0))) ∧
    (Commands s part 16 p → 8 ≤ p.arg 1 → p.arg 1 ≤ 20 → p.arg 0 % 2 ^ 21 = 0 → s.ownsRange part (p.arg 0) (2048 * 2 ^ p.arg 1) = true →
      (s.poolUse part = [] → exec (.setParkPool part) s = .next ((s.setPart part { p with parkBase := p.arg 0, parkLog2 := p.arg 1 }).endCmd part 0 0)) ∧
      (s.poolUse part ≠ [] → exec (.setParkPool part) s = .next (s.waitCmd part 16))) ∧
    (Commands s part 17 p → p.arg 0 ≤ 191 → s.rootGet part (p.arg 1) 32 = some b → exec (.setPeerEntry part) s =
      .next ((s.setPart part { p with peers := aput p.peers (p.arg 0) { valid := fld b 0 1 % 2 == 1, raw := b } }).endCmd part 0 0)) ∧
    (Commands s part 18 p →
      (s.signedBy p [] = none → exec (.resetDevice part) s = .next (s.endCmd part 7 0)) ∧
      (s.signedBy p [] = some q → ∃ e : State, exec (.resetDevice part) s = .next e ∧ e.dev.cause = 1 ∧ e.dev.stage = 0 ∧
        e.dev.fails = (if p.arg 0 % 2 = 1 then 0 else if 1 ≤ s.dev.stage ∧ s.dev.stage ≤ 4 then min 255 (s.dev.fails + 1) else s.dev.fails) ∧ e.launches = [] ∧ e.seq = State.reset.seq ∧ e.parts.map (·.1) = s.parts.map (·.1)))

/-- R9, R333 to R336: a start begins, in minimal mode from three failed starts on; goes through its stages; fails with the CAUSE of the stage where an image does not verify, the bring-up fails or the stage overruns its
limit of 50 ms, 2 s, 50 ms or 1 s; and ends with EVENT 7, a full start clearing FAILS. A power fault or a thermal trip ends operation. A power controller decides each 100 us: it lowers CAP to the highest value that meets the
limit, or to 1 where none does, and raises it by one after ten decisions below 95 %. Whether an image verifies, and whether the bring-up succeeds, is a free value (log 10), and so is the CAUSE of stage 4 (log 34). -/
def Obligations.StartsAndPowerFollowTheirRules : Prop :=
  ∀ (s : State) (die : Nat) (m : List Nat),
    let late := ∃ limit, (s.dev.stage, limit) ∈ [(1, 50000000), (2, 2000000000), (3, 50000000), (4, 1000000000)] ∧ s.dev.stageAt + limit ≤ s.time
    let good := (s.dev.stage = 1 ∧ (Config.imageVerifies 0 s.draws = true ∨ Config.imageVerifies 1 s.draws = true)) ∨ (s.dev.stage = 2 ∧ Config.imageVerifies 3 s.draws = true) ∨
      (s.dev.stage = 3 ∧ Config.imageVerifies 2 s.draws = true)
    let failed (e : State) : Prop := (s.dev.stage ≤ 3 → e.dev.cause = s.dev.stage + 2) ∧ e.dev.fails = min 255 (s.dev.fails + 1) ∧ e.dev.stage = (if s.dev.stage = 1 then 6 else 0)
    (s.dev.stage = 0 ∨ s.dev.stage = 6 → ∃ e : State, exec .deviceStart s = .next e ∧ e.dev.stage = 1 ∧ e.dev.stageAt = s.time ∧ e.dev.minimal = decide (3 ≤ s.dev.fails) ∧
      e.dev.full = !decide (3 ≤ s.dev.fails) ∧ e = { s with dev := e.dev }) ∧
    (1 ≤ s.dev.stage → s.dev.stage ≤ 3 →
      (good → ¬ late → exec .deviceStart s = .next (s.toStage (s.dev.stage + 1))) ∧ (¬ good ∨ late → ∃ e : State, exec .deviceStart s = .next e ∧ failed e)) ∧
    (∀ n, s.toStage n = { s with dev := { s.dev with stage := n, stageAt := s.time } }) ∧
    (late → (∃ e : State, exec .startStageTimeout s = .next e ∧ failed e) ∧ (s.dev.stage = 4 → ∃ e : State, exec .startComplete s = .next e ∧ failed e)) ∧
    (¬ late → exec .startStageTimeout s = .next s) ∧
    (s.dev.stage = 4 → ¬ late →
      let t : State := { s with dev := { s.dev with stage := 5, alive := s.time, fails := if s.dev.minimal then min 255 (s.dev.fails + 1) else 0 } }
      exec .startComplete s = .next (t.sendEvent 0 7 0 0 (if s.dev.minimal then 1 else 0))) ∧
    (s.dev.stage = 5 → (∃ e : State, exec .powerFault s = .next e ∧ e.dev.cause = 7 ∧ e.dev.stage = 0 ∧ e.launches = []) ∧
      ∃ e : State, exec .thermalTrip s = .next e ∧ e.dev.cause = 6 ∧ e.dev.stage = 0 ∧ e.launches = []) ∧
    (s.time < (s.powerOf die).tickAt + 100000 → exec (.powerControlTick die m) s = .next s) ∧
    ((s.powerOf die).tickAt + 100000 ≤ s.time →
     let p := s.powerOf die
     let now := projAt m p.cap
     ∃ e : State, exec (.powerControlTick die m) s = .next e ∧ e = { s with power := e.power } ∧ (e.powerOf die).plimit = p.plimit ∧ (e.powerOf die).tickAt = s.time ∧
       (e.powerOf die).pnow = m.getD 8 0 % 65536 ∧
       (p.plimit < now → ∀ c, (e.powerOf die).cap = c → 1 ≤ p.cap → c ≤ p.cap ∧ 1 ≤ c ∧ (∀ d, c < d → d ≤ p.cap → p.plimit < projAt m d) ∧
         (projAt m c ≤ p.plimit ∨ (c = 1 ∧ (e.powerOf die).whold = true))) ∧
       (now ≤ p.plimit → 100 * now < 95 * p.plimit → 9 ≤ p.lowFor → p.whold = false → (e.powerOf die).cap = min 8 (p.cap + 1)) ∧
       (now ≤ p.plimit → 95 * p.plimit ≤ 100 * now → (e.powerOf die).cap = p.cap ∧ (e.powerOf die).lowFor = 0))

/-! ## The whole machine -/

/-- The memory keeps its canonical form over every step. -/
def Obligations.EveryStepKeepsMemoryCanonical : Prop :=
  ∀ (s t : State), Memory.wf s.mem = true → step s = .next t → Memory.wf t.mem = true

/-- What reset leaves where the spec gives a value: R7's time base; R78's CSR fields; CAP 8 and DIS 0; 32 named registers, vill set and no lanes; PLIMIT 3,200 W (R336); partition 0 with every cluster, granule and agent and the
default lease (R331, R213); agents disabled with ORD set; memory canonical. The values that the spec does not give (a zero in every x and f register, M mode and the pc) are the model's choice (log 5, 6), and are not stated here. -/
def Obligations.ResetLeavesTheStatedValues : Prop :=
  let s := State.reset
  let c := s.seq.ctl
  let v := s.seq.vec
  Memory.wf s.mem = true ∧ s.time = 0 ∧
  c.msksp = 0 ∧ c.mprog = 0 ∧ c.mstra = 0 ∧ c.mstrb = 0 ∧ c.xsflags = 0 ∧ c.vstrunc = false ∧ c.itbudget = 65536 ∧ c.fwdlife = 100000 ∧ c.dbgEn = false ∧ c.dbgHead = 0 ∧
  v.nregs = 32 ∧ v.hmask = 0 ∧ v.grant = 0 ∧ v.vill = true ∧ v.vl = 0 ∧ v.mdepth = 0 ∧ v.mstack = [] ∧
  s.seq.copy.count = 0 ∧ s.seq.mat.count = 0 ∧ s.seq.strm.count = 0 ∧ s.seq.loops = [] ∧ s.seq.epend = false ∧
  (∀ k, s.capOf k = 8 ∧ (s.core k).dis = 0 ∧ (s.core k).holder = none) ∧ (∀ k, (s.cluster k).lreq = 0) ∧
  (∀ d, (s.powerOf d).plimit = 3200) ∧
  (∃ p, s.part 0 = some p ∧ p.clusters = BitVec.allOnes 64 ∧ p.granules = BitVec.allOnes 768 ∧ p.lease = Config.defaultLease ∧ p.gen = 1) ∧
  (∀ a, (s.agent a).en = false ∧ (s.agent a).ord = true ∧ (s.agent a).qhead = 0 ∧ (s.agent a).qtail = 0)
end

