-- ==== Sys2Proof/Laws/Memory.lean ====
section
/-! SUPPORT. The bytes of memory: reading back what was written, and the canonical form, which every operation on memory keeps. -/

namespace Sys2Proof.Machine

/-! ## The canonical form as a property of all entries -/

/-- Every address of a list lies above a bound. -/
def above (a : Nat) (m : List Host.Cell) : Prop := ∀ c ∈ m, a < c.1

theorem wf_cons (a : Nat) (b : Byte) (m : List Host.Cell) :
    Memory.wf ((a, b) :: m) = true ↔ b ≠ 0 ∧ above a m ∧ Memory.wf m = true := by
  induction m generalizing a b with
  | nil => simp [Memory.wf, above]
  | cons c m ih =>
    obtain ⟨a', b'⟩ := c
    simp only [Memory.wf, Bool.and_eq_true, bne_iff_ne, decide_eq_true_eq]
    constructor
    · rintro ⟨⟨h0, h1⟩, h2⟩
      refine ⟨h0, ?_, h2⟩
      intro c hc
      rcases List.mem_cons.mp hc with rfl | hc
      · exact h1
      · exact Nat.lt_trans h1 (((ih a' b').mp h2).2.1 c hc)
    · rintro ⟨h0, h1, h2⟩
      exact ⟨⟨h0, h1 (a', b') (List.mem_cons_self ..)⟩, h2⟩

theorem memGet_above (a : Nat) (m : List Host.Cell) (h : above a m) : memGet m a = 0 := by
  induction m with
  | nil => rfl
  | cons c m ih =>
    obtain ⟨k, b⟩ := c
    have hk : a < k := h (k, b) (List.mem_cons_self ..)
    rw [memGet, if_neg (by omega)]
    exact ih fun c hc => h c (List.mem_cons_of_mem _ hc)

theorem above_of_lt {a k : Nat} {m : List Host.Cell} (h : a < k) (hm : above k m) : above a m :=
  fun c hc => Nat.lt_trans h (hm c hc)

/-- A written byte reads back, and every other byte reads as before. -/
theorem memGet_memSet (m : List Host.Cell) (a : Nat) (v : Byte) (b : Nat) (h : Memory.wf m = true) :
    memGet (memSet m a v) b = if b = a then v else memGet m b := by
  induction m with
  | nil =>
    simp only [memSet]
    split <;> rename_i hv <;> by_cases hb : b = a <;> (simp [memGet, hb, hv]; try omega)
  | cons c m ih =>
    obtain ⟨k, w⟩ := c
    obtain ⟨_, h1, h2⟩ := (wf_cons k w m).mp h
    simp only [memSet]
    split
    · rename_i hk
      subst hk
      split
      · rename_i hv
        by_cases hb : b = k
        · subst hb; simp [hv, memGet_above _ m h1]
        · simp [hb, memGet, Ne.symm hb]
      · by_cases hb : b = k
        · simp [hb, memGet]
        · simp [hb, memGet, Ne.symm hb]
    · rename_i hk
      split
      · rename_i hlt
        have ha : above a ((k, w) :: m) := by
          intro c hc
          rcases List.mem_cons.mp hc with rfl | hc
          · exact hlt
          · exact Nat.lt_trans hlt (h1 c hc)
        split
        · rename_i hv
          by_cases hb : b = a
          · subst hb; rw [if_pos rfl, hv]; exact memGet_above _ _ ha
          · rw [if_neg hb]
        · by_cases hb : b = a
          · simp [hb, memGet]
          · rw [if_neg hb, memGet, if_neg (Ne.symm hb)]
      · simp only [memGet]
        split
        · rename_i hb
          rw [if_neg (by omega)]
        · exact ih h2

theorem above_memSet (m : List Host.Cell) (a : Nat) (v : Byte) (k : Nat) (hm : above k m) (hk : k < a) : above k (memSet m a v) := by
  induction m with
  | nil => simp only [memSet]; split <;> simp [above, hk]
  | cons c m ih =>
    obtain ⟨k', w⟩ := c
    have h1 : k < k' := hm (k', w) (List.mem_cons_self ..)
    have h2 : above k m := fun c hc => hm c (List.mem_cons_of_mem _ hc)
    simp only [memSet]
    split
    · split
      · exact h2
      · intro c hc
        rcases List.mem_cons.mp hc with rfl | hc
        · exact hk
        · exact h2 c hc
    · split
      · split
        · exact hm
        · intro c hc
          rcases List.mem_cons.mp hc with rfl | hc
          · exact hk
          · exact hm c hc
      · intro c hc
        rcases List.mem_cons.mp hc with rfl | hc
        · exact h1
        · exact ih h2 c hc

/-- Writing a byte keeps the canonical form. -/
theorem memSet_wf (m : List Host.Cell) (a : Nat) (v : Byte) (h : Memory.wf m = true) : Memory.wf (memSet m a v) = true := by
  induction m with
  | nil => simp only [memSet]; split <;> simp_all [Memory.wf]
  | cons c m ih =>
    obtain ⟨k, w⟩ := c
    obtain ⟨h0, h1, h2⟩ := (wf_cons k w m).mp h
    simp only [memSet]
    split
    · rename_i hk
      subst hk
      split
      · exact h2
      · rename_i hv; exact (wf_cons k v m).mpr ⟨hv, h1, h2⟩
    · rename_i hk
      split
      · rename_i hlt
        split
        · exact h
        · rename_i hv
          refine (wf_cons a v _).mpr ⟨hv, ?_, h⟩
          intro c hc
          rcases List.mem_cons.mp hc with rfl | hc
          · exact hlt
          · exact Nat.lt_trans hlt (h1 c hc)
      · exact (wf_cons k w _).mpr ⟨h0, above_memSet m a v k h1 (by omega), ih h2⟩

/-- Writing bytes keeps the canonical form. -/
theorem memWrite_wf (m : List Host.Cell) (a : Nat) (bs : List Byte) (h : Memory.wf m = true) : Memory.wf (memWrite m a bs) = true := by
  induction bs generalizing m a with
  | nil => exact h
  | cons b bs ih => exact ih _ _ (memSet_wf m a b h)

/-- Dropping entries keeps the canonical form. -/
theorem filter_wf (m : List Host.Cell) (p : Host.Cell → Bool) (h : Memory.wf m = true) : Memory.wf (m.filter p) = true := by
  induction m with
  | nil => rfl
  | cons c m ih =>
    obtain ⟨k, w⟩ := c
    obtain ⟨h0, h1, h2⟩ := (wf_cons k w m).mp h
    simp only [List.filter_cons]
    split
    · exact (wf_cons k w _).mpr ⟨h0, fun c hc => h1 c (List.mem_of_mem_filter hc), ih h2⟩
    · exact ih h2

/-- Bytes outside a write read as before, and those inside read as written. -/
theorem memGet_memWrite (m : List Host.Cell) (a : Nat) (bs : List Byte) (b : Nat) (h : Memory.wf m = true) :
    memGet (memWrite m a bs) b = if a ≤ b ∧ b < a + bs.length then bs.getD (b - a) 0 else memGet m b := by
  induction bs generalizing m a with
  | nil => simp [memWrite]
  | cons c bs ih =>
    rw [memWrite, ih _ _ (memSet_wf m a c h), memGet_memSet m a c b h]
    by_cases hb : b = a
    · subst hb; simp
    · simp only [if_neg hb, List.length_cons]
      by_cases hin : a + 1 ≤ b ∧ b < a + 1 + bs.length
      · rw [if_pos hin, if_pos (by omega)]
        have hk : b - a = (b - (a + 1)) + 1 := by omega
        rw [hk, List.getD_cons_succ]
      · rw [if_neg hin, if_neg (by omega)]

theorem memGet_memWrite_out (m : List Host.Cell) (a : Nat) (bs : List Byte) (b : Nat) (h : Memory.wf m = true)
    (hb : b < a ∨ a + bs.length ≤ b) : memGet (memWrite m a bs) b = memGet m b := by
  rw [memGet_memWrite m a bs b h, if_neg (by omega)]

theorem memRead_length (m : List Host.Cell) (a n : Nat) : (memRead m a n).length = n := by
  induction n generalizing a with
  | zero => rfl
  | succ n ih => simp [memRead, ih]

/-- Reads agree where all bytes agree. -/
theorem memRead_congr (m m' : List Host.Cell) (a n : Nat) (h : ∀ b, a ≤ b → b < a + n → memGet m b = memGet m' b) :
    memRead m a n = memRead m' a n := by
  induction n generalizing a with
  | zero => rfl
  | succ n ih =>
    rw [memRead, memRead, h a (by omega) (by omega), ih (a + 1) fun b h1 h2 => h b (by omega) (by omega)]

/-- What was written reads back. -/
theorem memRead_memWrite (m : List Host.Cell) (a : Nat) (bs : List Byte) (h : Memory.wf m = true) :
    memRead (memWrite m a bs) a bs.length = bs := by
  induction bs generalizing m a with
  | nil => rfl
  | cons b bs ih =>
    rw [memWrite, List.length_cons, memRead, ih _ _ (memSet_wf m a b h), memGet_memWrite_out _ _ _ _ (memSet_wf m a b h) (by omega),
      memGet_memSet m a b a h, if_pos rfl]

end Sys2Proof.Machine
end

