-- ==== Sys2Proof/Laws/Retire.lean ====
section
/-! SUPPORT. What completing an instruction changes: retirement, in one place. -/

namespace Sys2Proof.Machine

theorem safePoint_eq (s : State) : s.safePoint s.hart = s.upd fun q => { q with ctl := { q.ctl with cgen := s.safeGen s.hart } } := by
  simp [State.safePoint, State.modSeq, State.setSeq, State.getSeq, State.upd]

/-- A control transfer changes at most CGEN of the running hart. -/
theorem functionEntry_cases (s : State) (a : Word) :
    (s.functionEntry s.hart a).1 = s ∨
      (s.functionEntry s.hart a).1 = s.upd fun q => { q with ctl := { q.ctl with cgen := s.safeGen s.hart } } := by
  unfold State.functionEntry
  split
  · exact .inl rfl
  · split
    · split
      · exact .inr (safePoint_eq s)
      · exact .inl rfl
    · exact .inl rfl

/-- A back edge at depth 1 changes CGEN of the running hart and nothing else. -/
theorem loopSafe_state (s : State) (start target : Word) :
    (s.loopSafe s.hart start target).1 = s.upd fun q => { q with ctl := { q.ctl with cgen := s.safeGen s.hart } } := by
  rw [← safePoint_eq]
  simp only [State.loopSafe]
  split
  · rfl
  · split
    · split <;> rfl
    · rfl

/-- The pc that retirement settles on: the next one, or another at which the form of the code is looked up again. -/
theorem settle {s : State} {next p2 : Word} {loops : List LoopEntry} {edge : Bool} {cgen : Nat} :
    ∃ pc l e c form,
      (({ s with seq := { s.seq with pc := next, loops := loops, atEdge := edge, stall := none, since := none, peerGot := [], elems := [], armed := none,
                                     priv := { s.seq.priv with minstret := s.seq.priv.minstret + 1 }, ctl := { s.seq.ctl with cgen := cgen } } } : State).upd
        fun q => if p2 = next then q else { q with pc := p2 }.anyForm) =
      { s with seq := { s.seq with pc := pc, loops := l, atEdge := e, stall := none, since := none, peerGot := [], elems := [], armed := none,
                                   priv := { s.seq.priv with minstret := s.seq.priv.minstret + 1 }, ctl := { s.seq.ctl with cgen := c },
                                   latch := { s.seq.latch with form := form } } } := by
  by_cases h : p2 = next
  · exact ⟨next, loops, edge, cgen, s.seq.latch.form, by simp [State.upd, h]⟩
  · exact ⟨p2, loops, edge, cgen, .native, by simp [State.upd, Seq.anyForm, h]⟩

/-- What retiring changes: the pc, the loop stack, the record of a wait, minstret, CGEN, and the form that the next instruction is of. -/
theorem retire_seq (s : State) (next : Word) (jump : Bool) :
    ∃ pc loops edge cgen form, s.retire next jump =
      { s with seq := { s.seq with pc := pc, loops := loops, atEdge := edge, stall := none, since := none, peerGot := [],
                                   elems := [], armed := none, priv := { s.seq.priv with minstret := s.seq.priv.minstret + 1 },
                                   ctl := { s.seq.ctl with cgen := cgen }, latch := { s.seq.latch with form := form } } } := by
  simp only [State.retire]
  generalize endCheck s.seq.mode (s.seePc s.hart next) (s.inTrans s.hart next) next s.seq.loops false = r
  generalize hs1 : ({ s with seq := { s.seq with pc := r.next, loops := r.loops, atEdge := r.edge, stall := none, since := none, peerGot := [], elems := [], armed := none, priv := { s.seq.priv with minstret := s.seq.priv.minstret + 1 } } } : State) = s1
  have hh : s.hart = s1.hart := by rw [← hs1]
  have base : s1 = { s with seq := { s.seq with pc := r.next, loops := r.loops, atEdge := r.edge, stall := none, since := none, peerGot := [], elems := [], armed := none, priv := { s.seq.priv with minstret := s.seq.priv.minstret + 1 }, ctl := { s.seq.ctl with cgen := s.seq.ctl.cgen }, latch := { s.seq.latch with form := s.seq.latch.form } } } := by rw [← hs1]
  split
  · exact ⟨_, _, _, _, _, base⟩
  · rw [hh]
    split
    · rename_i start _
      rw [loopSafe_state]
      subst hs1
      exact settle (s := s) (p2 := (State.loopSafe _ _ start r.next).2)
    · split
      · rcases functionEntry_cases s1 r.next with h | h
        · rw [h]
          subst hs1
          exact settle (s := s) (p2 := (State.functionEntry _ _ r.next).2) (cgen := s.seq.ctl.cgen)
        · rw [h]
          subst hs1
          exact settle (s := s) (p2 := (State.functionEntry _ _ r.next).2)
      · subst hs1
        exact settle (s := s) (p2 := r.next) (cgen := s.seq.ctl.cgen)

/-- With no loop open, a hart that runs no task goes to the given address. -/
theorem retire_pc (s : State) (next : Word) (jump : Bool) (hl : s.seq.loops = []) (ht : s.seq.task = none ∨ s.seq.mode ≠ .u) :
    (s.retire next jump).seq.pc = next := by
  simp [State.retire, hl, endCheck, ht]

/-- With no loop open, an instruction that is no transfer goes on after itself. -/
theorem retire_falls (s : State) (next : Word) (hl : s.seq.loops = []) : (s.retire next false).seq.pc = next := by
  simp only [State.retire, hl, endCheck]
  split <;> simp [State.upd]

end Sys2Proof.Machine
end

