-- ==== Sys2Proof/Laws/State.lean ====
section
/-! SUPPORT. One lemma for each field of State under each of its updates, and what is read back after a write: no later proof unfolds an
update of a record. -/

namespace Sys2Proof.Machine

/-! ## upd -/

@[simp] theorem State.upd_hart (s : State) (f : Seq → Seq) : (s.upd f).hart = s.hart := rfl
@[simp] theorem State.upd_seq (s : State) (f : Seq → Seq) : (s.upd f).seq = f s.seq := rfl
@[simp] theorem State.upd_seqs (s : State) (f : Seq → Seq) : (s.upd f).seqs = s.seqs := rfl
@[simp] theorem State.upd_cores (s : State) (f : Seq → Seq) : (s.upd f).cores = s.cores := rfl
@[simp] theorem State.upd_clusters (s : State) (f : Seq → Seq) : (s.upd f).clusters = s.clusters := rfl
@[simp] theorem State.upd_mem (s : State) (f : Seq → Seq) : (s.upd f).mem = s.mem := rfl
@[simp] theorem State.upd_coh (s : State) (f : Seq → Seq) : (s.upd f).coh = s.coh := rfl
@[simp] theorem State.upd_objs (s : State) (f : Seq → Seq) : (s.upd f).objs = s.objs := rfl
@[simp] theorem State.upd_old (s : State) (f : Seq → Seq) : (s.upd f).old = s.old := rfl
@[simp] theorem State.upd_parts (s : State) (f : Seq → Seq) : (s.upd f).parts = s.parts := rfl
@[simp] theorem State.upd_qp (s : State) (f : Seq → Seq) : (s.upd f).qp = s.qp := rfl
@[simp] theorem State.upd_launches (s : State) (f : Seq → Seq) : (s.upd f).launches = s.launches := rfl
@[simp] theorem State.upd_barriers (s : State) (f : Seq → Seq) : (s.upd f).barriers = s.barriers := rfl
@[simp] theorem State.upd_saved (s : State) (f : Seq → Seq) : (s.upd f).saved = s.saved := rfl
@[simp] theorem State.upd_agents (s : State) (f : Seq → Seq) : (s.upd f).agents = s.agents := rfl
@[simp] theorem State.upd_power (s : State) (f : Seq → Seq) : (s.upd f).power = s.power := rfl
@[simp] theorem State.upd_net (s : State) (f : Seq → Seq) : (s.upd f).net = s.net := rfl
@[simp] theorem State.upd_moved (s : State) (f : Seq → Seq) : (s.upd f).moved = s.moved := rfl
@[simp] theorem State.upd_host (s : State) (f : Seq → Seq) : (s.upd f).host = s.host := rfl
@[simp] theorem State.upd_dev (s : State) (f : Seq → Seq) : (s.upd f).dev = s.dev := rfl
@[simp] theorem State.upd_front (s : State) (f : Seq → Seq) : (s.upd f).front = s.front := rfl
@[simp] theorem State.upd_agenda (s : State) (f : Seq → Seq) : (s.upd f).agenda = s.agenda := rfl
@[simp] theorem State.upd_time (s : State) (f : Seq → Seq) : (s.upd f).time = s.time := rfl
@[simp] theorem State.upd_draws (s : State) (f : Seq → Seq) : (s.upd f).draws = s.draws := rfl

/-! ## setX -/

@[simp] theorem State.setX_hart (s : State) (r : Reg) (v : Word) : (s.setX r v).hart = s.hart := rfl
@[simp] theorem State.setX_seq (s : State) (r : Reg) (v : Word) : (s.setX r v).seq = s.seq.wx r v := rfl
@[simp] theorem State.setX_seqs (s : State) (r : Reg) (v : Word) : (s.setX r v).seqs = s.seqs := rfl
@[simp] theorem State.setX_cores (s : State) (r : Reg) (v : Word) : (s.setX r v).cores = s.cores := rfl
@[simp] theorem State.setX_clusters (s : State) (r : Reg) (v : Word) : (s.setX r v).clusters = s.clusters := rfl
@[simp] theorem State.setX_mem (s : State) (r : Reg) (v : Word) : (s.setX r v).mem = s.mem := rfl
@[simp] theorem State.setX_coh (s : State) (r : Reg) (v : Word) : (s.setX r v).coh = s.coh := rfl
@[simp] theorem State.setX_objs (s : State) (r : Reg) (v : Word) : (s.setX r v).objs = s.objs := rfl
@[simp] theorem State.setX_old (s : State) (r : Reg) (v : Word) : (s.setX r v).old = s.old := rfl
@[simp] theorem State.setX_parts (s : State) (r : Reg) (v : Word) : (s.setX r v).parts = s.parts := rfl
@[simp] theorem State.setX_qp (s : State) (r : Reg) (v : Word) : (s.setX r v).qp = s.qp := rfl
@[simp] theorem State.setX_launches (s : State) (r : Reg) (v : Word) : (s.setX r v).launches = s.launches := rfl
@[simp] theorem State.setX_barriers (s : State) (r : Reg) (v : Word) : (s.setX r v).barriers = s.barriers := rfl
@[simp] theorem State.setX_saved (s : State) (r : Reg) (v : Word) : (s.setX r v).saved = s.saved := rfl
@[simp] theorem State.setX_agents (s : State) (r : Reg) (v : Word) : (s.setX r v).agents = s.agents := rfl
@[simp] theorem State.setX_power (s : State) (r : Reg) (v : Word) : (s.setX r v).power = s.power := rfl
@[simp] theorem State.setX_net (s : State) (r : Reg) (v : Word) : (s.setX r v).net = s.net := rfl
@[simp] theorem State.setX_moved (s : State) (r : Reg) (v : Word) : (s.setX r v).moved = s.moved := rfl
@[simp] theorem State.setX_host (s : State) (r : Reg) (v : Word) : (s.setX r v).host = s.host := rfl
@[simp] theorem State.setX_dev (s : State) (r : Reg) (v : Word) : (s.setX r v).dev = s.dev := rfl
@[simp] theorem State.setX_front (s : State) (r : Reg) (v : Word) : (s.setX r v).front = s.front := rfl
@[simp] theorem State.setX_agenda (s : State) (r : Reg) (v : Word) : (s.setX r v).agenda = s.agenda := rfl
@[simp] theorem State.setX_time (s : State) (r : Reg) (v : Word) : (s.setX r v).time = s.time := rfl
@[simp] theorem State.setX_draws (s : State) (r : Reg) (v : Word) : (s.setX r v).draws = s.draws := rfl

/-! ## setF -/

@[simp] theorem State.setF_hart (s : State) (r : Reg) (v : Word) : (s.setF r v).hart = s.hart := rfl
@[simp] theorem State.setF_seq (s : State) (r : Reg) (v : Word) : (s.setF r v).seq = s.seq.wf r v := rfl
@[simp] theorem State.setF_seqs (s : State) (r : Reg) (v : Word) : (s.setF r v).seqs = s.seqs := rfl
@[simp] theorem State.setF_cores (s : State) (r : Reg) (v : Word) : (s.setF r v).cores = s.cores := rfl
@[simp] theorem State.setF_clusters (s : State) (r : Reg) (v : Word) : (s.setF r v).clusters = s.clusters := rfl
@[simp] theorem State.setF_mem (s : State) (r : Reg) (v : Word) : (s.setF r v).mem = s.mem := rfl
@[simp] theorem State.setF_coh (s : State) (r : Reg) (v : Word) : (s.setF r v).coh = s.coh := rfl
@[simp] theorem State.setF_objs (s : State) (r : Reg) (v : Word) : (s.setF r v).objs = s.objs := rfl
@[simp] theorem State.setF_old (s : State) (r : Reg) (v : Word) : (s.setF r v).old = s.old := rfl
@[simp] theorem State.setF_parts (s : State) (r : Reg) (v : Word) : (s.setF r v).parts = s.parts := rfl
@[simp] theorem State.setF_qp (s : State) (r : Reg) (v : Word) : (s.setF r v).qp = s.qp := rfl
@[simp] theorem State.setF_launches (s : State) (r : Reg) (v : Word) : (s.setF r v).launches = s.launches := rfl
@[simp] theorem State.setF_barriers (s : State) (r : Reg) (v : Word) : (s.setF r v).barriers = s.barriers := rfl
@[simp] theorem State.setF_saved (s : State) (r : Reg) (v : Word) : (s.setF r v).saved = s.saved := rfl
@[simp] theorem State.setF_agents (s : State) (r : Reg) (v : Word) : (s.setF r v).agents = s.agents := rfl
@[simp] theorem State.setF_power (s : State) (r : Reg) (v : Word) : (s.setF r v).power = s.power := rfl
@[simp] theorem State.setF_net (s : State) (r : Reg) (v : Word) : (s.setF r v).net = s.net := rfl
@[simp] theorem State.setF_moved (s : State) (r : Reg) (v : Word) : (s.setF r v).moved = s.moved := rfl
@[simp] theorem State.setF_host (s : State) (r : Reg) (v : Word) : (s.setF r v).host = s.host := rfl
@[simp] theorem State.setF_dev (s : State) (r : Reg) (v : Word) : (s.setF r v).dev = s.dev := rfl
@[simp] theorem State.setF_front (s : State) (r : Reg) (v : Word) : (s.setF r v).front = s.front := rfl
@[simp] theorem State.setF_agenda (s : State) (r : Reg) (v : Word) : (s.setF r v).agenda = s.agenda := rfl
@[simp] theorem State.setF_time (s : State) (r : Reg) (v : Word) : (s.setF r v).time = s.time := rfl
@[simp] theorem State.setF_draws (s : State) (r : Reg) (v : Word) : (s.setF r v).draws = s.draws := rfl

/-! ## flag -/

@[simp] theorem State.flag_hart (s : State) (fl : BitVec 5) : (s.flag fl).hart = s.hart := rfl
@[simp] theorem State.flag_seqs (s : State) (fl : BitVec 5) : (s.flag fl).seqs = s.seqs := rfl
@[simp] theorem State.flag_cores (s : State) (fl : BitVec 5) : (s.flag fl).cores = s.cores := rfl
@[simp] theorem State.flag_clusters (s : State) (fl : BitVec 5) : (s.flag fl).clusters = s.clusters := rfl
@[simp] theorem State.flag_mem (s : State) (fl : BitVec 5) : (s.flag fl).mem = s.mem := rfl
@[simp] theorem State.flag_coh (s : State) (fl : BitVec 5) : (s.flag fl).coh = s.coh := rfl
@[simp] theorem State.flag_objs (s : State) (fl : BitVec 5) : (s.flag fl).objs = s.objs := rfl
@[simp] theorem State.flag_old (s : State) (fl : BitVec 5) : (s.flag fl).old = s.old := rfl
@[simp] theorem State.flag_parts (s : State) (fl : BitVec 5) : (s.flag fl).parts = s.parts := rfl
@[simp] theorem State.flag_qp (s : State) (fl : BitVec 5) : (s.flag fl).qp = s.qp := rfl
@[simp] theorem State.flag_launches (s : State) (fl : BitVec 5) : (s.flag fl).launches = s.launches := rfl
@[simp] theorem State.flag_barriers (s : State) (fl : BitVec 5) : (s.flag fl).barriers = s.barriers := rfl
@[simp] theorem State.flag_saved (s : State) (fl : BitVec 5) : (s.flag fl).saved = s.saved := rfl
@[simp] theorem State.flag_agents (s : State) (fl : BitVec 5) : (s.flag fl).agents = s.agents := rfl
@[simp] theorem State.flag_power (s : State) (fl : BitVec 5) : (s.flag fl).power = s.power := rfl
@[simp] theorem State.flag_net (s : State) (fl : BitVec 5) : (s.flag fl).net = s.net := rfl
@[simp] theorem State.flag_moved (s : State) (fl : BitVec 5) : (s.flag fl).moved = s.moved := rfl
@[simp] theorem State.flag_host (s : State) (fl : BitVec 5) : (s.flag fl).host = s.host := rfl
@[simp] theorem State.flag_dev (s : State) (fl : BitVec 5) : (s.flag fl).dev = s.dev := rfl
@[simp] theorem State.flag_front (s : State) (fl : BitVec 5) : (s.flag fl).front = s.front := rfl
@[simp] theorem State.flag_agenda (s : State) (fl : BitVec 5) : (s.flag fl).agenda = s.agenda := rfl
@[simp] theorem State.flag_time (s : State) (fl : BitVec 5) : (s.flag fl).time = s.time := rfl
@[simp] theorem State.flag_draws (s : State) (fl : BitVec 5) : (s.flag fl).draws = s.draws := rfl

/-! ## xflag -/

@[simp] theorem State.xflag_hart (s : State) (fl : BitVec 4) : (s.xflag fl).hart = s.hart := rfl
@[simp] theorem State.xflag_seqs (s : State) (fl : BitVec 4) : (s.xflag fl).seqs = s.seqs := rfl
@[simp] theorem State.xflag_cores (s : State) (fl : BitVec 4) : (s.xflag fl).cores = s.cores := rfl
@[simp] theorem State.xflag_clusters (s : State) (fl : BitVec 4) : (s.xflag fl).clusters = s.clusters := rfl
@[simp] theorem State.xflag_mem (s : State) (fl : BitVec 4) : (s.xflag fl).mem = s.mem := rfl
@[simp] theorem State.xflag_coh (s : State) (fl : BitVec 4) : (s.xflag fl).coh = s.coh := rfl
@[simp] theorem State.xflag_objs (s : State) (fl : BitVec 4) : (s.xflag fl).objs = s.objs := rfl
@[simp] theorem State.xflag_old (s : State) (fl : BitVec 4) : (s.xflag fl).old = s.old := rfl
@[simp] theorem State.xflag_parts (s : State) (fl : BitVec 4) : (s.xflag fl).parts = s.parts := rfl
@[simp] theorem State.xflag_qp (s : State) (fl : BitVec 4) : (s.xflag fl).qp = s.qp := rfl
@[simp] theorem State.xflag_launches (s : State) (fl : BitVec 4) : (s.xflag fl).launches = s.launches := rfl
@[simp] theorem State.xflag_barriers (s : State) (fl : BitVec 4) : (s.xflag fl).barriers = s.barriers := rfl
@[simp] theorem State.xflag_saved (s : State) (fl : BitVec 4) : (s.xflag fl).saved = s.saved := rfl
@[simp] theorem State.xflag_agents (s : State) (fl : BitVec 4) : (s.xflag fl).agents = s.agents := rfl
@[simp] theorem State.xflag_power (s : State) (fl : BitVec 4) : (s.xflag fl).power = s.power := rfl
@[simp] theorem State.xflag_net (s : State) (fl : BitVec 4) : (s.xflag fl).net = s.net := rfl
@[simp] theorem State.xflag_moved (s : State) (fl : BitVec 4) : (s.xflag fl).moved = s.moved := rfl
@[simp] theorem State.xflag_host (s : State) (fl : BitVec 4) : (s.xflag fl).host = s.host := rfl
@[simp] theorem State.xflag_dev (s : State) (fl : BitVec 4) : (s.xflag fl).dev = s.dev := rfl
@[simp] theorem State.xflag_front (s : State) (fl : BitVec 4) : (s.xflag fl).front = s.front := rfl
@[simp] theorem State.xflag_agenda (s : State) (fl : BitVec 4) : (s.xflag fl).agenda = s.agenda := rfl
@[simp] theorem State.xflag_time (s : State) (fl : BitVec 4) : (s.xflag fl).time = s.time := rfl
@[simp] theorem State.xflag_draws (s : State) (fl : BitVec 4) : (s.xflag fl).draws = s.draws := rfl

/-! ## putF -/

@[simp] theorem State.putF_hart (s : State) (r : Reg) (v : Word) : (s.putF r v).hart = s.hart := rfl
@[simp] theorem State.putF_seq (s : State) (r : Reg) (v : Word) : (s.putF r v).seq = (s.seq.wf r v).fpDirty := rfl
@[simp] theorem State.putF_seqs (s : State) (r : Reg) (v : Word) : (s.putF r v).seqs = s.seqs := rfl
@[simp] theorem State.putF_cores (s : State) (r : Reg) (v : Word) : (s.putF r v).cores = s.cores := rfl
@[simp] theorem State.putF_clusters (s : State) (r : Reg) (v : Word) : (s.putF r v).clusters = s.clusters := rfl
@[simp] theorem State.putF_mem (s : State) (r : Reg) (v : Word) : (s.putF r v).mem = s.mem := rfl
@[simp] theorem State.putF_coh (s : State) (r : Reg) (v : Word) : (s.putF r v).coh = s.coh := rfl
@[simp] theorem State.putF_objs (s : State) (r : Reg) (v : Word) : (s.putF r v).objs = s.objs := rfl
@[simp] theorem State.putF_old (s : State) (r : Reg) (v : Word) : (s.putF r v).old = s.old := rfl
@[simp] theorem State.putF_parts (s : State) (r : Reg) (v : Word) : (s.putF r v).parts = s.parts := rfl
@[simp] theorem State.putF_qp (s : State) (r : Reg) (v : Word) : (s.putF r v).qp = s.qp := rfl
@[simp] theorem State.putF_launches (s : State) (r : Reg) (v : Word) : (s.putF r v).launches = s.launches := rfl
@[simp] theorem State.putF_barriers (s : State) (r : Reg) (v : Word) : (s.putF r v).barriers = s.barriers := rfl
@[simp] theorem State.putF_saved (s : State) (r : Reg) (v : Word) : (s.putF r v).saved = s.saved := rfl
@[simp] theorem State.putF_agents (s : State) (r : Reg) (v : Word) : (s.putF r v).agents = s.agents := rfl
@[simp] theorem State.putF_power (s : State) (r : Reg) (v : Word) : (s.putF r v).power = s.power := rfl
@[simp] theorem State.putF_net (s : State) (r : Reg) (v : Word) : (s.putF r v).net = s.net := rfl
@[simp] theorem State.putF_moved (s : State) (r : Reg) (v : Word) : (s.putF r v).moved = s.moved := rfl
@[simp] theorem State.putF_host (s : State) (r : Reg) (v : Word) : (s.putF r v).host = s.host := rfl
@[simp] theorem State.putF_dev (s : State) (r : Reg) (v : Word) : (s.putF r v).dev = s.dev := rfl
@[simp] theorem State.putF_front (s : State) (r : Reg) (v : Word) : (s.putF r v).front = s.front := rfl
@[simp] theorem State.putF_agenda (s : State) (r : Reg) (v : Word) : (s.putF r v).agenda = s.agenda := rfl
@[simp] theorem State.putF_time (s : State) (r : Reg) (v : Word) : (s.putF r v).time = s.time := rfl
@[simp] theorem State.putF_draws (s : State) (r : Reg) (v : Word) : (s.putF r v).draws = s.draws := rfl

/-! ## fpFlag -/

@[simp] theorem State.fpFlag_hart (s : State) (fl : BitVec 5) : (s.fpFlag fl).hart = s.hart := rfl
@[simp] theorem State.fpFlag_seqs (s : State) (fl : BitVec 5) : (s.fpFlag fl).seqs = s.seqs := rfl
@[simp] theorem State.fpFlag_cores (s : State) (fl : BitVec 5) : (s.fpFlag fl).cores = s.cores := rfl
@[simp] theorem State.fpFlag_clusters (s : State) (fl : BitVec 5) : (s.fpFlag fl).clusters = s.clusters := rfl
@[simp] theorem State.fpFlag_mem (s : State) (fl : BitVec 5) : (s.fpFlag fl).mem = s.mem := rfl
@[simp] theorem State.fpFlag_coh (s : State) (fl : BitVec 5) : (s.fpFlag fl).coh = s.coh := rfl
@[simp] theorem State.fpFlag_objs (s : State) (fl : BitVec 5) : (s.fpFlag fl).objs = s.objs := rfl
@[simp] theorem State.fpFlag_old (s : State) (fl : BitVec 5) : (s.fpFlag fl).old = s.old := rfl
@[simp] theorem State.fpFlag_parts (s : State) (fl : BitVec 5) : (s.fpFlag fl).parts = s.parts := rfl
@[simp] theorem State.fpFlag_qp (s : State) (fl : BitVec 5) : (s.fpFlag fl).qp = s.qp := rfl
@[simp] theorem State.fpFlag_launches (s : State) (fl : BitVec 5) : (s.fpFlag fl).launches = s.launches := rfl
@[simp] theorem State.fpFlag_barriers (s : State) (fl : BitVec 5) : (s.fpFlag fl).barriers = s.barriers := rfl
@[simp] theorem State.fpFlag_saved (s : State) (fl : BitVec 5) : (s.fpFlag fl).saved = s.saved := rfl
@[simp] theorem State.fpFlag_agents (s : State) (fl : BitVec 5) : (s.fpFlag fl).agents = s.agents := rfl
@[simp] theorem State.fpFlag_power (s : State) (fl : BitVec 5) : (s.fpFlag fl).power = s.power := rfl
@[simp] theorem State.fpFlag_net (s : State) (fl : BitVec 5) : (s.fpFlag fl).net = s.net := rfl
@[simp] theorem State.fpFlag_moved (s : State) (fl : BitVec 5) : (s.fpFlag fl).moved = s.moved := rfl
@[simp] theorem State.fpFlag_host (s : State) (fl : BitVec 5) : (s.fpFlag fl).host = s.host := rfl
@[simp] theorem State.fpFlag_dev (s : State) (fl : BitVec 5) : (s.fpFlag fl).dev = s.dev := rfl
@[simp] theorem State.fpFlag_front (s : State) (fl : BitVec 5) : (s.fpFlag fl).front = s.front := rfl
@[simp] theorem State.fpFlag_agenda (s : State) (fl : BitVec 5) : (s.fpFlag fl).agenda = s.agenda := rfl
@[simp] theorem State.fpFlag_time (s : State) (fl : BitVec 5) : (s.fpFlag fl).time = s.time := rfl
@[simp] theorem State.fpFlag_draws (s : State) (fl : BitVec 5) : (s.fpFlag fl).draws = s.draws := rfl

/-! ## stalled -/

@[simp] theorem State.stalled_hart (s : State) (w : Stall) : (s.stalled w).hart = s.hart := rfl
@[simp] theorem State.stalled_seqs (s : State) (w : Stall) : (s.stalled w).seqs = s.seqs := rfl
@[simp] theorem State.stalled_cores (s : State) (w : Stall) : (s.stalled w).cores = s.cores := rfl
@[simp] theorem State.stalled_clusters (s : State) (w : Stall) : (s.stalled w).clusters = s.clusters := rfl
@[simp] theorem State.stalled_mem (s : State) (w : Stall) : (s.stalled w).mem = s.mem := rfl
@[simp] theorem State.stalled_coh (s : State) (w : Stall) : (s.stalled w).coh = s.coh := rfl
@[simp] theorem State.stalled_objs (s : State) (w : Stall) : (s.stalled w).objs = s.objs := rfl
@[simp] theorem State.stalled_old (s : State) (w : Stall) : (s.stalled w).old = s.old := rfl
@[simp] theorem State.stalled_parts (s : State) (w : Stall) : (s.stalled w).parts = s.parts := rfl
@[simp] theorem State.stalled_qp (s : State) (w : Stall) : (s.stalled w).qp = s.qp := rfl
@[simp] theorem State.stalled_launches (s : State) (w : Stall) : (s.stalled w).launches = s.launches := rfl
@[simp] theorem State.stalled_barriers (s : State) (w : Stall) : (s.stalled w).barriers = s.barriers := rfl
@[simp] theorem State.stalled_saved (s : State) (w : Stall) : (s.stalled w).saved = s.saved := rfl
@[simp] theorem State.stalled_agents (s : State) (w : Stall) : (s.stalled w).agents = s.agents := rfl
@[simp] theorem State.stalled_power (s : State) (w : Stall) : (s.stalled w).power = s.power := rfl
@[simp] theorem State.stalled_net (s : State) (w : Stall) : (s.stalled w).net = s.net := rfl
@[simp] theorem State.stalled_moved (s : State) (w : Stall) : (s.stalled w).moved = s.moved := rfl
@[simp] theorem State.stalled_host (s : State) (w : Stall) : (s.stalled w).host = s.host := rfl
@[simp] theorem State.stalled_dev (s : State) (w : Stall) : (s.stalled w).dev = s.dev := rfl
@[simp] theorem State.stalled_front (s : State) (w : Stall) : (s.stalled w).front = s.front := rfl
@[simp] theorem State.stalled_agenda (s : State) (w : Stall) : (s.stalled w).agenda = s.agenda := rfl
@[simp] theorem State.stalled_time (s : State) (w : Stall) : (s.stalled w).time = s.time := rfl
@[simp] theorem State.stalled_draws (s : State) (w : Stall) : (s.stalled w).draws = s.draws := rfl

/-! ## setCore -/

@[simp] theorem State.setCore_hart (s : State) (c : Nat) (k : Core) : (s.setCore c k).hart = s.hart := rfl
@[simp] theorem State.setCore_seq (s : State) (c : Nat) (k : Core) : (s.setCore c k).seq = s.seq := rfl
@[simp] theorem State.setCore_seqs (s : State) (c : Nat) (k : Core) : (s.setCore c k).seqs = s.seqs := rfl
@[simp] theorem State.setCore_cores (s : State) (c : Nat) (k : Core) : (s.setCore c k).cores = aput s.cores c k := rfl
@[simp] theorem State.setCore_clusters (s : State) (c : Nat) (k : Core) : (s.setCore c k).clusters = s.clusters := rfl
@[simp] theorem State.setCore_mem (s : State) (c : Nat) (k : Core) : (s.setCore c k).mem = s.mem := rfl
@[simp] theorem State.setCore_coh (s : State) (c : Nat) (k : Core) : (s.setCore c k).coh = s.coh := rfl
@[simp] theorem State.setCore_objs (s : State) (c : Nat) (k : Core) : (s.setCore c k).objs = s.objs := rfl
@[simp] theorem State.setCore_old (s : State) (c : Nat) (k : Core) : (s.setCore c k).old = s.old := rfl
@[simp] theorem State.setCore_parts (s : State) (c : Nat) (k : Core) : (s.setCore c k).parts = s.parts := rfl
@[simp] theorem State.setCore_qp (s : State) (c : Nat) (k : Core) : (s.setCore c k).qp = s.qp := rfl
@[simp] theorem State.setCore_launches (s : State) (c : Nat) (k : Core) : (s.setCore c k).launches = s.launches := rfl
@[simp] theorem State.setCore_barriers (s : State) (c : Nat) (k : Core) : (s.setCore c k).barriers = s.barriers := rfl
@[simp] theorem State.setCore_saved (s : State) (c : Nat) (k : Core) : (s.setCore c k).saved = s.saved := rfl
@[simp] theorem State.setCore_agents (s : State) (c : Nat) (k : Core) : (s.setCore c k).agents = s.agents := rfl
@[simp] theorem State.setCore_power (s : State) (c : Nat) (k : Core) : (s.setCore c k).power = s.power := rfl
@[simp] theorem State.setCore_net (s : State) (c : Nat) (k : Core) : (s.setCore c k).net = s.net := rfl
@[simp] theorem State.setCore_moved (s : State) (c : Nat) (k : Core) : (s.setCore c k).moved = s.moved := rfl
@[simp] theorem State.setCore_host (s : State) (c : Nat) (k : Core) : (s.setCore c k).host = s.host := rfl
@[simp] theorem State.setCore_dev (s : State) (c : Nat) (k : Core) : (s.setCore c k).dev = s.dev := rfl
@[simp] theorem State.setCore_front (s : State) (c : Nat) (k : Core) : (s.setCore c k).front = s.front := rfl
@[simp] theorem State.setCore_agenda (s : State) (c : Nat) (k : Core) : (s.setCore c k).agenda = s.agenda := rfl
@[simp] theorem State.setCore_time (s : State) (c : Nat) (k : Core) : (s.setCore c k).time = s.time := rfl
@[simp] theorem State.setCore_draws (s : State) (c : Nat) (k : Core) : (s.setCore c k).draws = s.draws := rfl

/-! ## modCore -/

@[simp] theorem State.modCore_hart (s : State) (c : Nat) (f : Core → Core) : (s.modCore c f).hart = s.hart := rfl
@[simp] theorem State.modCore_seq (s : State) (c : Nat) (f : Core → Core) : (s.modCore c f).seq = s.seq := rfl
@[simp] theorem State.modCore_seqs (s : State) (c : Nat) (f : Core → Core) : (s.modCore c f).seqs = s.seqs := rfl
@[simp] theorem State.modCore_cores (s : State) (c : Nat) (f : Core → Core) : (s.modCore c f).cores = aput s.cores c (f (s.core c)) := rfl
@[simp] theorem State.modCore_clusters (s : State) (c : Nat) (f : Core → Core) : (s.modCore c f).clusters = s.clusters := rfl
@[simp] theorem State.modCore_mem (s : State) (c : Nat) (f : Core → Core) : (s.modCore c f).mem = s.mem := rfl
@[simp] theorem State.modCore_coh (s : State) (c : Nat) (f : Core → Core) : (s.modCore c f).coh = s.coh := rfl
@[simp] theorem State.modCore_objs (s : State) (c : Nat) (f : Core → Core) : (s.modCore c f).objs = s.objs := rfl
@[simp] theorem State.modCore_old (s : State) (c : Nat) (f : Core → Core) : (s.modCore c f).old = s.old := rfl
@[simp] theorem State.modCore_parts (s : State) (c : Nat) (f : Core → Core) : (s.modCore c f).parts = s.parts := rfl
@[simp] theorem State.modCore_qp (s : State) (c : Nat) (f : Core → Core) : (s.modCore c f).qp = s.qp := rfl
@[simp] theorem State.modCore_launches (s : State) (c : Nat) (f : Core → Core) : (s.modCore c f).launches = s.launches := rfl
@[simp] theorem State.modCore_barriers (s : State) (c : Nat) (f : Core → Core) : (s.modCore c f).barriers = s.barriers := rfl
@[simp] theorem State.modCore_saved (s : State) (c : Nat) (f : Core → Core) : (s.modCore c f).saved = s.saved := rfl
@[simp] theorem State.modCore_agents (s : State) (c : Nat) (f : Core → Core) : (s.modCore c f).agents = s.agents := rfl
@[simp] theorem State.modCore_power (s : State) (c : Nat) (f : Core → Core) : (s.modCore c f).power = s.power := rfl
@[simp] theorem State.modCore_net (s : State) (c : Nat) (f : Core → Core) : (s.modCore c f).net = s.net := rfl
@[simp] theorem State.modCore_moved (s : State) (c : Nat) (f : Core → Core) : (s.modCore c f).moved = s.moved := rfl
@[simp] theorem State.modCore_host (s : State) (c : Nat) (f : Core → Core) : (s.modCore c f).host = s.host := rfl
@[simp] theorem State.modCore_dev (s : State) (c : Nat) (f : Core → Core) : (s.modCore c f).dev = s.dev := rfl
@[simp] theorem State.modCore_front (s : State) (c : Nat) (f : Core → Core) : (s.modCore c f).front = s.front := rfl
@[simp] theorem State.modCore_agenda (s : State) (c : Nat) (f : Core → Core) : (s.modCore c f).agenda = s.agenda := rfl
@[simp] theorem State.modCore_time (s : State) (c : Nat) (f : Core → Core) : (s.modCore c f).time = s.time := rfl
@[simp] theorem State.modCore_draws (s : State) (c : Nat) (f : Core → Core) : (s.modCore c f).draws = s.draws := rfl

/-! ## setCluster -/

@[simp] theorem State.setCluster_hart (s : State) (c : Nat) (k : Cluster) : (s.setCluster c k).hart = s.hart := rfl
@[simp] theorem State.setCluster_seq (s : State) (c : Nat) (k : Cluster) : (s.setCluster c k).seq = s.seq := rfl
@[simp] theorem State.setCluster_seqs (s : State) (c : Nat) (k : Cluster) : (s.setCluster c k).seqs = s.seqs := rfl
@[simp] theorem State.setCluster_cores (s : State) (c : Nat) (k : Cluster) : (s.setCluster c k).cores = s.cores := rfl
@[simp] theorem State.setCluster_clusters (s : State) (c : Nat) (k : Cluster) : (s.setCluster c k).clusters = aput s.clusters c k := rfl
@[simp] theorem State.setCluster_mem (s : State) (c : Nat) (k : Cluster) : (s.setCluster c k).mem = s.mem := rfl
@[simp] theorem State.setCluster_coh (s : State) (c : Nat) (k : Cluster) : (s.setCluster c k).coh = s.coh := rfl
@[simp] theorem State.setCluster_objs (s : State) (c : Nat) (k : Cluster) : (s.setCluster c k).objs = s.objs := rfl
@[simp] theorem State.setCluster_old (s : State) (c : Nat) (k : Cluster) : (s.setCluster c k).old = s.old := rfl
@[simp] theorem State.setCluster_parts (s : State) (c : Nat) (k : Cluster) : (s.setCluster c k).parts = s.parts := rfl
@[simp] theorem State.setCluster_qp (s : State) (c : Nat) (k : Cluster) : (s.setCluster c k).qp = s.qp := rfl
@[simp] theorem State.setCluster_launches (s : State) (c : Nat) (k : Cluster) : (s.setCluster c k).launches = s.launches := rfl
@[simp] theorem State.setCluster_barriers (s : State) (c : Nat) (k : Cluster) : (s.setCluster c k).barriers = s.barriers := rfl
@[simp] theorem State.setCluster_saved (s : State) (c : Nat) (k : Cluster) : (s.setCluster c k).saved = s.saved := rfl
@[simp] theorem State.setCluster_agents (s : State) (c : Nat) (k : Cluster) : (s.setCluster c k).agents = s.agents := rfl
@[simp] theorem State.setCluster_power (s : State) (c : Nat) (k : Cluster) : (s.setCluster c k).power = s.power := rfl
@[simp] theorem State.setCluster_net (s : State) (c : Nat) (k : Cluster) : (s.setCluster c k).net = s.net := rfl
@[simp] theorem State.setCluster_moved (s : State) (c : Nat) (k : Cluster) : (s.setCluster c k).moved = s.moved := rfl
@[simp] theorem State.setCluster_host (s : State) (c : Nat) (k : Cluster) : (s.setCluster c k).host = s.host := rfl
@[simp] theorem State.setCluster_dev (s : State) (c : Nat) (k : Cluster) : (s.setCluster c k).dev = s.dev := rfl
@[simp] theorem State.setCluster_front (s : State) (c : Nat) (k : Cluster) : (s.setCluster c k).front = s.front := rfl
@[simp] theorem State.setCluster_agenda (s : State) (c : Nat) (k : Cluster) : (s.setCluster c k).agenda = s.agenda := rfl
@[simp] theorem State.setCluster_time (s : State) (c : Nat) (k : Cluster) : (s.setCluster c k).time = s.time := rfl
@[simp] theorem State.setCluster_draws (s : State) (c : Nat) (k : Cluster) : (s.setCluster c k).draws = s.draws := rfl

/-! ## setAgent -/

@[simp] theorem State.setAgent_hart (s : State) (a : Nat) (g : Agent) : (s.setAgent a g).hart = s.hart := rfl
@[simp] theorem State.setAgent_seq (s : State) (a : Nat) (g : Agent) : (s.setAgent a g).seq = s.seq := rfl
@[simp] theorem State.setAgent_seqs (s : State) (a : Nat) (g : Agent) : (s.setAgent a g).seqs = s.seqs := rfl
@[simp] theorem State.setAgent_cores (s : State) (a : Nat) (g : Agent) : (s.setAgent a g).cores = s.cores := rfl
@[simp] theorem State.setAgent_clusters (s : State) (a : Nat) (g : Agent) : (s.setAgent a g).clusters = s.clusters := rfl
@[simp] theorem State.setAgent_mem (s : State) (a : Nat) (g : Agent) : (s.setAgent a g).mem = s.mem := rfl
@[simp] theorem State.setAgent_coh (s : State) (a : Nat) (g : Agent) : (s.setAgent a g).coh = s.coh := rfl
@[simp] theorem State.setAgent_objs (s : State) (a : Nat) (g : Agent) : (s.setAgent a g).objs = s.objs := rfl
@[simp] theorem State.setAgent_old (s : State) (a : Nat) (g : Agent) : (s.setAgent a g).old = s.old := rfl
@[simp] theorem State.setAgent_parts (s : State) (a : Nat) (g : Agent) : (s.setAgent a g).parts = s.parts := rfl
@[simp] theorem State.setAgent_qp (s : State) (a : Nat) (g : Agent) : (s.setAgent a g).qp = s.qp := rfl
@[simp] theorem State.setAgent_launches (s : State) (a : Nat) (g : Agent) : (s.setAgent a g).launches = s.launches := rfl
@[simp] theorem State.setAgent_barriers (s : State) (a : Nat) (g : Agent) : (s.setAgent a g).barriers = s.barriers := rfl
@[simp] theorem State.setAgent_saved (s : State) (a : Nat) (g : Agent) : (s.setAgent a g).saved = s.saved := rfl
@[simp] theorem State.setAgent_agents (s : State) (a : Nat) (g : Agent) : (s.setAgent a g).agents = aput s.agents a g := rfl
@[simp] theorem State.setAgent_power (s : State) (a : Nat) (g : Agent) : (s.setAgent a g).power = s.power := rfl
@[simp] theorem State.setAgent_net (s : State) (a : Nat) (g : Agent) : (s.setAgent a g).net = s.net := rfl
@[simp] theorem State.setAgent_moved (s : State) (a : Nat) (g : Agent) : (s.setAgent a g).moved = s.moved := rfl
@[simp] theorem State.setAgent_host (s : State) (a : Nat) (g : Agent) : (s.setAgent a g).host = s.host := rfl
@[simp] theorem State.setAgent_dev (s : State) (a : Nat) (g : Agent) : (s.setAgent a g).dev = s.dev := rfl
@[simp] theorem State.setAgent_front (s : State) (a : Nat) (g : Agent) : (s.setAgent a g).front = s.front := rfl
@[simp] theorem State.setAgent_agenda (s : State) (a : Nat) (g : Agent) : (s.setAgent a g).agenda = s.agenda := rfl
@[simp] theorem State.setAgent_time (s : State) (a : Nat) (g : Agent) : (s.setAgent a g).time = s.time := rfl
@[simp] theorem State.setAgent_draws (s : State) (a : Nat) (g : Agent) : (s.setAgent a g).draws = s.draws := rfl

/-! ## modAgent -/

@[simp] theorem State.modAgent_hart (s : State) (a : Nat) (f : Agent → Agent) : (s.modAgent a f).hart = s.hart := rfl
@[simp] theorem State.modAgent_seq (s : State) (a : Nat) (f : Agent → Agent) : (s.modAgent a f).seq = s.seq := rfl
@[simp] theorem State.modAgent_seqs (s : State) (a : Nat) (f : Agent → Agent) : (s.modAgent a f).seqs = s.seqs := rfl
@[simp] theorem State.modAgent_cores (s : State) (a : Nat) (f : Agent → Agent) : (s.modAgent a f).cores = s.cores := rfl
@[simp] theorem State.modAgent_clusters (s : State) (a : Nat) (f : Agent → Agent) : (s.modAgent a f).clusters = s.clusters := rfl
@[simp] theorem State.modAgent_mem (s : State) (a : Nat) (f : Agent → Agent) : (s.modAgent a f).mem = s.mem := rfl
@[simp] theorem State.modAgent_coh (s : State) (a : Nat) (f : Agent → Agent) : (s.modAgent a f).coh = s.coh := rfl
@[simp] theorem State.modAgent_objs (s : State) (a : Nat) (f : Agent → Agent) : (s.modAgent a f).objs = s.objs := rfl
@[simp] theorem State.modAgent_old (s : State) (a : Nat) (f : Agent → Agent) : (s.modAgent a f).old = s.old := rfl
@[simp] theorem State.modAgent_parts (s : State) (a : Nat) (f : Agent → Agent) : (s.modAgent a f).parts = s.parts := rfl
@[simp] theorem State.modAgent_qp (s : State) (a : Nat) (f : Agent → Agent) : (s.modAgent a f).qp = s.qp := rfl
@[simp] theorem State.modAgent_launches (s : State) (a : Nat) (f : Agent → Agent) : (s.modAgent a f).launches = s.launches := rfl
@[simp] theorem State.modAgent_barriers (s : State) (a : Nat) (f : Agent → Agent) : (s.modAgent a f).barriers = s.barriers := rfl
@[simp] theorem State.modAgent_saved (s : State) (a : Nat) (f : Agent → Agent) : (s.modAgent a f).saved = s.saved := rfl
@[simp] theorem State.modAgent_agents (s : State) (a : Nat) (f : Agent → Agent) : (s.modAgent a f).agents = aput s.agents a (f (s.agent a)) := rfl
@[simp] theorem State.modAgent_power (s : State) (a : Nat) (f : Agent → Agent) : (s.modAgent a f).power = s.power := rfl
@[simp] theorem State.modAgent_net (s : State) (a : Nat) (f : Agent → Agent) : (s.modAgent a f).net = s.net := rfl
@[simp] theorem State.modAgent_moved (s : State) (a : Nat) (f : Agent → Agent) : (s.modAgent a f).moved = s.moved := rfl
@[simp] theorem State.modAgent_host (s : State) (a : Nat) (f : Agent → Agent) : (s.modAgent a f).host = s.host := rfl
@[simp] theorem State.modAgent_dev (s : State) (a : Nat) (f : Agent → Agent) : (s.modAgent a f).dev = s.dev := rfl
@[simp] theorem State.modAgent_front (s : State) (a : Nat) (f : Agent → Agent) : (s.modAgent a f).front = s.front := rfl
@[simp] theorem State.modAgent_agenda (s : State) (a : Nat) (f : Agent → Agent) : (s.modAgent a f).agenda = s.agenda := rfl
@[simp] theorem State.modAgent_time (s : State) (a : Nat) (f : Agent → Agent) : (s.modAgent a f).time = s.time := rfl
@[simp] theorem State.modAgent_draws (s : State) (a : Nat) (f : Agent → Agent) : (s.modAgent a f).draws = s.draws := rfl

/-! ## setPower -/

@[simp] theorem State.setPower_hart (s : State) (d : Nat) (p : Power) : (s.setPower d p).hart = s.hart := rfl
@[simp] theorem State.setPower_seq (s : State) (d : Nat) (p : Power) : (s.setPower d p).seq = s.seq := rfl
@[simp] theorem State.setPower_seqs (s : State) (d : Nat) (p : Power) : (s.setPower d p).seqs = s.seqs := rfl
@[simp] theorem State.setPower_cores (s : State) (d : Nat) (p : Power) : (s.setPower d p).cores = s.cores := rfl
@[simp] theorem State.setPower_clusters (s : State) (d : Nat) (p : Power) : (s.setPower d p).clusters = s.clusters := rfl
@[simp] theorem State.setPower_mem (s : State) (d : Nat) (p : Power) : (s.setPower d p).mem = s.mem := rfl
@[simp] theorem State.setPower_coh (s : State) (d : Nat) (p : Power) : (s.setPower d p).coh = s.coh := rfl
@[simp] theorem State.setPower_objs (s : State) (d : Nat) (p : Power) : (s.setPower d p).objs = s.objs := rfl
@[simp] theorem State.setPower_old (s : State) (d : Nat) (p : Power) : (s.setPower d p).old = s.old := rfl
@[simp] theorem State.setPower_parts (s : State) (d : Nat) (p : Power) : (s.setPower d p).parts = s.parts := rfl
@[simp] theorem State.setPower_qp (s : State) (d : Nat) (p : Power) : (s.setPower d p).qp = s.qp := rfl
@[simp] theorem State.setPower_launches (s : State) (d : Nat) (p : Power) : (s.setPower d p).launches = s.launches := rfl
@[simp] theorem State.setPower_barriers (s : State) (d : Nat) (p : Power) : (s.setPower d p).barriers = s.barriers := rfl
@[simp] theorem State.setPower_saved (s : State) (d : Nat) (p : Power) : (s.setPower d p).saved = s.saved := rfl
@[simp] theorem State.setPower_agents (s : State) (d : Nat) (p : Power) : (s.setPower d p).agents = s.agents := rfl
@[simp] theorem State.setPower_power (s : State) (d : Nat) (p : Power) : (s.setPower d p).power = aput s.power d p := rfl
@[simp] theorem State.setPower_net (s : State) (d : Nat) (p : Power) : (s.setPower d p).net = s.net := rfl
@[simp] theorem State.setPower_moved (s : State) (d : Nat) (p : Power) : (s.setPower d p).moved = s.moved := rfl
@[simp] theorem State.setPower_host (s : State) (d : Nat) (p : Power) : (s.setPower d p).host = s.host := rfl
@[simp] theorem State.setPower_dev (s : State) (d : Nat) (p : Power) : (s.setPower d p).dev = s.dev := rfl
@[simp] theorem State.setPower_front (s : State) (d : Nat) (p : Power) : (s.setPower d p).front = s.front := rfl
@[simp] theorem State.setPower_agenda (s : State) (d : Nat) (p : Power) : (s.setPower d p).agenda = s.agenda := rfl
@[simp] theorem State.setPower_time (s : State) (d : Nat) (p : Power) : (s.setPower d p).time = s.time := rfl
@[simp] theorem State.setPower_draws (s : State) (d : Nat) (p : Power) : (s.setPower d p).draws = s.draws := rfl

/-! ## setPart -/

@[simp] theorem State.setPart_hart (s : State) (p : Nat) (x : Part) : (s.setPart p x).hart = s.hart := rfl
@[simp] theorem State.setPart_seq (s : State) (p : Nat) (x : Part) : (s.setPart p x).seq = s.seq := rfl
@[simp] theorem State.setPart_seqs (s : State) (p : Nat) (x : Part) : (s.setPart p x).seqs = s.seqs := rfl
@[simp] theorem State.setPart_cores (s : State) (p : Nat) (x : Part) : (s.setPart p x).cores = s.cores := rfl
@[simp] theorem State.setPart_clusters (s : State) (p : Nat) (x : Part) : (s.setPart p x).clusters = s.clusters := rfl
@[simp] theorem State.setPart_mem (s : State) (p : Nat) (x : Part) : (s.setPart p x).mem = s.mem := rfl
@[simp] theorem State.setPart_coh (s : State) (p : Nat) (x : Part) : (s.setPart p x).coh = s.coh := rfl
@[simp] theorem State.setPart_objs (s : State) (p : Nat) (x : Part) : (s.setPart p x).objs = s.objs := rfl
@[simp] theorem State.setPart_old (s : State) (p : Nat) (x : Part) : (s.setPart p x).old = s.old := rfl
@[simp] theorem State.setPart_parts (s : State) (p : Nat) (x : Part) : (s.setPart p x).parts = aput s.parts p x := rfl
@[simp] theorem State.setPart_qp (s : State) (p : Nat) (x : Part) : (s.setPart p x).qp = s.qp := rfl
@[simp] theorem State.setPart_launches (s : State) (p : Nat) (x : Part) : (s.setPart p x).launches = s.launches := rfl
@[simp] theorem State.setPart_barriers (s : State) (p : Nat) (x : Part) : (s.setPart p x).barriers = s.barriers := rfl
@[simp] theorem State.setPart_saved (s : State) (p : Nat) (x : Part) : (s.setPart p x).saved = s.saved := rfl
@[simp] theorem State.setPart_agents (s : State) (p : Nat) (x : Part) : (s.setPart p x).agents = s.agents := rfl
@[simp] theorem State.setPart_power (s : State) (p : Nat) (x : Part) : (s.setPart p x).power = s.power := rfl
@[simp] theorem State.setPart_net (s : State) (p : Nat) (x : Part) : (s.setPart p x).net = s.net := rfl
@[simp] theorem State.setPart_moved (s : State) (p : Nat) (x : Part) : (s.setPart p x).moved = s.moved := rfl
@[simp] theorem State.setPart_host (s : State) (p : Nat) (x : Part) : (s.setPart p x).host = s.host := rfl
@[simp] theorem State.setPart_dev (s : State) (p : Nat) (x : Part) : (s.setPart p x).dev = s.dev := rfl
@[simp] theorem State.setPart_front (s : State) (p : Nat) (x : Part) : (s.setPart p x).front = s.front := rfl
@[simp] theorem State.setPart_agenda (s : State) (p : Nat) (x : Part) : (s.setPart p x).agenda = s.agenda := rfl
@[simp] theorem State.setPart_time (s : State) (p : Nat) (x : Part) : (s.setPart p x).time = s.time := rfl
@[simp] theorem State.setPart_draws (s : State) (p : Nat) (x : Part) : (s.setPart p x).draws = s.draws := rfl

/-! ## setLaunch -/

@[simp] theorem State.setLaunch_hart (s : State) (l : Launch) : (s.setLaunch l).hart = s.hart := rfl
@[simp] theorem State.setLaunch_seq (s : State) (l : Launch) : (s.setLaunch l).seq = s.seq := rfl
@[simp] theorem State.setLaunch_seqs (s : State) (l : Launch) : (s.setLaunch l).seqs = s.seqs := rfl
@[simp] theorem State.setLaunch_cores (s : State) (l : Launch) : (s.setLaunch l).cores = s.cores := rfl
@[simp] theorem State.setLaunch_clusters (s : State) (l : Launch) : (s.setLaunch l).clusters = s.clusters := rfl
@[simp] theorem State.setLaunch_mem (s : State) (l : Launch) : (s.setLaunch l).mem = s.mem := rfl
@[simp] theorem State.setLaunch_coh (s : State) (l : Launch) : (s.setLaunch l).coh = s.coh := rfl
@[simp] theorem State.setLaunch_objs (s : State) (l : Launch) : (s.setLaunch l).objs = s.objs := rfl
@[simp] theorem State.setLaunch_old (s : State) (l : Launch) : (s.setLaunch l).old = s.old := rfl
@[simp] theorem State.setLaunch_parts (s : State) (l : Launch) : (s.setLaunch l).parts = s.parts := rfl
@[simp] theorem State.setLaunch_qp (s : State) (l : Launch) : (s.setLaunch l).qp = s.qp := rfl
@[simp] theorem State.setLaunch_barriers (s : State) (l : Launch) : (s.setLaunch l).barriers = s.barriers := rfl
@[simp] theorem State.setLaunch_saved (s : State) (l : Launch) : (s.setLaunch l).saved = s.saved := rfl
@[simp] theorem State.setLaunch_agents (s : State) (l : Launch) : (s.setLaunch l).agents = s.agents := rfl
@[simp] theorem State.setLaunch_power (s : State) (l : Launch) : (s.setLaunch l).power = s.power := rfl
@[simp] theorem State.setLaunch_net (s : State) (l : Launch) : (s.setLaunch l).net = s.net := rfl
@[simp] theorem State.setLaunch_moved (s : State) (l : Launch) : (s.setLaunch l).moved = s.moved := rfl
@[simp] theorem State.setLaunch_host (s : State) (l : Launch) : (s.setLaunch l).host = s.host := rfl
@[simp] theorem State.setLaunch_dev (s : State) (l : Launch) : (s.setLaunch l).dev = s.dev := rfl
@[simp] theorem State.setLaunch_front (s : State) (l : Launch) : (s.setLaunch l).front = s.front := rfl
@[simp] theorem State.setLaunch_agenda (s : State) (l : Launch) : (s.setLaunch l).agenda = s.agenda := rfl
@[simp] theorem State.setLaunch_time (s : State) (l : Launch) : (s.setLaunch l).time = s.time := rfl
@[simp] theorem State.setLaunch_draws (s : State) (l : Launch) : (s.setLaunch l).draws = s.draws := rfl

/-! ## modLaunch -/

@[simp] theorem State.modLaunch_hart (s : State) (i : Nat) (f : Launch → Launch) : (s.modLaunch i f).hart = s.hart := rfl
@[simp] theorem State.modLaunch_seq (s : State) (i : Nat) (f : Launch → Launch) : (s.modLaunch i f).seq = s.seq := rfl
@[simp] theorem State.modLaunch_seqs (s : State) (i : Nat) (f : Launch → Launch) : (s.modLaunch i f).seqs = s.seqs := rfl
@[simp] theorem State.modLaunch_cores (s : State) (i : Nat) (f : Launch → Launch) : (s.modLaunch i f).cores = s.cores := rfl
@[simp] theorem State.modLaunch_clusters (s : State) (i : Nat) (f : Launch → Launch) : (s.modLaunch i f).clusters = s.clusters := rfl
@[simp] theorem State.modLaunch_mem (s : State) (i : Nat) (f : Launch → Launch) : (s.modLaunch i f).mem = s.mem := rfl
@[simp] theorem State.modLaunch_coh (s : State) (i : Nat) (f : Launch → Launch) : (s.modLaunch i f).coh = s.coh := rfl
@[simp] theorem State.modLaunch_objs (s : State) (i : Nat) (f : Launch → Launch) : (s.modLaunch i f).objs = s.objs := rfl
@[simp] theorem State.modLaunch_old (s : State) (i : Nat) (f : Launch → Launch) : (s.modLaunch i f).old = s.old := rfl
@[simp] theorem State.modLaunch_parts (s : State) (i : Nat) (f : Launch → Launch) : (s.modLaunch i f).parts = s.parts := rfl
@[simp] theorem State.modLaunch_qp (s : State) (i : Nat) (f : Launch → Launch) : (s.modLaunch i f).qp = s.qp := rfl
@[simp] theorem State.modLaunch_barriers (s : State) (i : Nat) (f : Launch → Launch) : (s.modLaunch i f).barriers = s.barriers := rfl
@[simp] theorem State.modLaunch_saved (s : State) (i : Nat) (f : Launch → Launch) : (s.modLaunch i f).saved = s.saved := rfl
@[simp] theorem State.modLaunch_agents (s : State) (i : Nat) (f : Launch → Launch) : (s.modLaunch i f).agents = s.agents := rfl
@[simp] theorem State.modLaunch_power (s : State) (i : Nat) (f : Launch → Launch) : (s.modLaunch i f).power = s.power := rfl
@[simp] theorem State.modLaunch_net (s : State) (i : Nat) (f : Launch → Launch) : (s.modLaunch i f).net = s.net := rfl
@[simp] theorem State.modLaunch_moved (s : State) (i : Nat) (f : Launch → Launch) : (s.modLaunch i f).moved = s.moved := rfl
@[simp] theorem State.modLaunch_host (s : State) (i : Nat) (f : Launch → Launch) : (s.modLaunch i f).host = s.host := rfl
@[simp] theorem State.modLaunch_dev (s : State) (i : Nat) (f : Launch → Launch) : (s.modLaunch i f).dev = s.dev := rfl
@[simp] theorem State.modLaunch_front (s : State) (i : Nat) (f : Launch → Launch) : (s.modLaunch i f).front = s.front := rfl
@[simp] theorem State.modLaunch_agenda (s : State) (i : Nat) (f : Launch → Launch) : (s.modLaunch i f).agenda = s.agenda := rfl
@[simp] theorem State.modLaunch_time (s : State) (i : Nat) (f : Launch → Launch) : (s.modLaunch i f).time = s.time := rfl
@[simp] theorem State.modLaunch_draws (s : State) (i : Nat) (f : Launch → Launch) : (s.modLaunch i f).draws = s.draws := rfl

/-! ## poisonSector -/

@[simp] theorem State.poisonSector_hart (s : State) (k : Nat) : (s.poisonSector k).hart = s.hart := rfl
@[simp] theorem State.poisonSector_seq (s : State) (k : Nat) : (s.poisonSector k).seq = s.seq := rfl
@[simp] theorem State.poisonSector_seqs (s : State) (k : Nat) : (s.poisonSector k).seqs = s.seqs := rfl
@[simp] theorem State.poisonSector_cores (s : State) (k : Nat) : (s.poisonSector k).cores = s.cores := rfl
@[simp] theorem State.poisonSector_clusters (s : State) (k : Nat) : (s.poisonSector k).clusters = s.clusters := rfl
@[simp] theorem State.poisonSector_mem (s : State) (k : Nat) : (s.poisonSector k).mem = s.mem := rfl
@[simp] theorem State.poisonSector_objs (s : State) (k : Nat) : (s.poisonSector k).objs = s.objs := rfl
@[simp] theorem State.poisonSector_old (s : State) (k : Nat) : (s.poisonSector k).old = s.old := rfl
@[simp] theorem State.poisonSector_parts (s : State) (k : Nat) : (s.poisonSector k).parts = s.parts := rfl
@[simp] theorem State.poisonSector_qp (s : State) (k : Nat) : (s.poisonSector k).qp = s.qp := rfl
@[simp] theorem State.poisonSector_launches (s : State) (k : Nat) : (s.poisonSector k).launches = s.launches := rfl
@[simp] theorem State.poisonSector_barriers (s : State) (k : Nat) : (s.poisonSector k).barriers = s.barriers := rfl
@[simp] theorem State.poisonSector_saved (s : State) (k : Nat) : (s.poisonSector k).saved = s.saved := rfl
@[simp] theorem State.poisonSector_agents (s : State) (k : Nat) : (s.poisonSector k).agents = s.agents := rfl
@[simp] theorem State.poisonSector_power (s : State) (k : Nat) : (s.poisonSector k).power = s.power := rfl
@[simp] theorem State.poisonSector_net (s : State) (k : Nat) : (s.poisonSector k).net = s.net := rfl
@[simp] theorem State.poisonSector_moved (s : State) (k : Nat) : (s.poisonSector k).moved = s.moved := rfl
@[simp] theorem State.poisonSector_host (s : State) (k : Nat) : (s.poisonSector k).host = s.host := rfl
@[simp] theorem State.poisonSector_dev (s : State) (k : Nat) : (s.poisonSector k).dev = s.dev := rfl
@[simp] theorem State.poisonSector_front (s : State) (k : Nat) : (s.poisonSector k).front = s.front := rfl
@[simp] theorem State.poisonSector_agenda (s : State) (k : Nat) : (s.poisonSector k).agenda = s.agenda := rfl
@[simp] theorem State.poisonSector_time (s : State) (k : Nat) : (s.poisonSector k).time = s.time := rfl
@[simp] theorem State.poisonSector_draws (s : State) (k : Nat) : (s.poisonSector k).draws = s.draws := rfl

/-! ## modDir -/

@[simp] theorem State.modDir_hart (s : State) (l : Nat) (f : DirLine → DirLine) : (s.modDir l f).hart = s.hart := rfl
@[simp] theorem State.modDir_seq (s : State) (l : Nat) (f : DirLine → DirLine) : (s.modDir l f).seq = s.seq := rfl
@[simp] theorem State.modDir_seqs (s : State) (l : Nat) (f : DirLine → DirLine) : (s.modDir l f).seqs = s.seqs := rfl
@[simp] theorem State.modDir_cores (s : State) (l : Nat) (f : DirLine → DirLine) : (s.modDir l f).cores = s.cores := rfl
@[simp] theorem State.modDir_clusters (s : State) (l : Nat) (f : DirLine → DirLine) : (s.modDir l f).clusters = s.clusters := rfl
@[simp] theorem State.modDir_mem (s : State) (l : Nat) (f : DirLine → DirLine) : (s.modDir l f).mem = s.mem := rfl
@[simp] theorem State.modDir_objs (s : State) (l : Nat) (f : DirLine → DirLine) : (s.modDir l f).objs = s.objs := rfl
@[simp] theorem State.modDir_old (s : State) (l : Nat) (f : DirLine → DirLine) : (s.modDir l f).old = s.old := rfl
@[simp] theorem State.modDir_parts (s : State) (l : Nat) (f : DirLine → DirLine) : (s.modDir l f).parts = s.parts := rfl
@[simp] theorem State.modDir_qp (s : State) (l : Nat) (f : DirLine → DirLine) : (s.modDir l f).qp = s.qp := rfl
@[simp] theorem State.modDir_launches (s : State) (l : Nat) (f : DirLine → DirLine) : (s.modDir l f).launches = s.launches := rfl
@[simp] theorem State.modDir_barriers (s : State) (l : Nat) (f : DirLine → DirLine) : (s.modDir l f).barriers = s.barriers := rfl
@[simp] theorem State.modDir_saved (s : State) (l : Nat) (f : DirLine → DirLine) : (s.modDir l f).saved = s.saved := rfl
@[simp] theorem State.modDir_agents (s : State) (l : Nat) (f : DirLine → DirLine) : (s.modDir l f).agents = s.agents := rfl
@[simp] theorem State.modDir_power (s : State) (l : Nat) (f : DirLine → DirLine) : (s.modDir l f).power = s.power := rfl
@[simp] theorem State.modDir_net (s : State) (l : Nat) (f : DirLine → DirLine) : (s.modDir l f).net = s.net := rfl
@[simp] theorem State.modDir_moved (s : State) (l : Nat) (f : DirLine → DirLine) : (s.modDir l f).moved = s.moved := rfl
@[simp] theorem State.modDir_host (s : State) (l : Nat) (f : DirLine → DirLine) : (s.modDir l f).host = s.host := rfl
@[simp] theorem State.modDir_dev (s : State) (l : Nat) (f : DirLine → DirLine) : (s.modDir l f).dev = s.dev := rfl
@[simp] theorem State.modDir_front (s : State) (l : Nat) (f : DirLine → DirLine) : (s.modDir l f).front = s.front := rfl
@[simp] theorem State.modDir_agenda (s : State) (l : Nat) (f : DirLine → DirLine) : (s.modDir l f).agenda = s.agenda := rfl
@[simp] theorem State.modDir_time (s : State) (l : Nat) (f : DirLine → DirLine) : (s.modDir l f).time = s.time := rfl
@[simp] theorem State.modDir_draws (s : State) (l : Nat) (f : DirLine → DirLine) : (s.modDir l f).draws = s.draws := rfl

/-! ## clearPoison -/

@[simp] theorem State.clearPoison_hart (s : State) (a n : Nat) : (s.clearPoison a n).hart = s.hart := rfl
@[simp] theorem State.clearPoison_seq (s : State) (a n : Nat) : (s.clearPoison a n).seq = s.seq := rfl
@[simp] theorem State.clearPoison_seqs (s : State) (a n : Nat) : (s.clearPoison a n).seqs = s.seqs := rfl
@[simp] theorem State.clearPoison_cores (s : State) (a n : Nat) : (s.clearPoison a n).cores = s.cores := rfl
@[simp] theorem State.clearPoison_clusters (s : State) (a n : Nat) : (s.clearPoison a n).clusters = s.clusters := rfl
@[simp] theorem State.clearPoison_mem (s : State) (a n : Nat) : (s.clearPoison a n).mem = s.mem := rfl
@[simp] theorem State.clearPoison_objs (s : State) (a n : Nat) : (s.clearPoison a n).objs = s.objs := rfl
@[simp] theorem State.clearPoison_old (s : State) (a n : Nat) : (s.clearPoison a n).old = s.old := rfl
@[simp] theorem State.clearPoison_parts (s : State) (a n : Nat) : (s.clearPoison a n).parts = s.parts := rfl
@[simp] theorem State.clearPoison_qp (s : State) (a n : Nat) : (s.clearPoison a n).qp = s.qp := rfl
@[simp] theorem State.clearPoison_launches (s : State) (a n : Nat) : (s.clearPoison a n).launches = s.launches := rfl
@[simp] theorem State.clearPoison_barriers (s : State) (a n : Nat) : (s.clearPoison a n).barriers = s.barriers := rfl
@[simp] theorem State.clearPoison_saved (s : State) (a n : Nat) : (s.clearPoison a n).saved = s.saved := rfl
@[simp] theorem State.clearPoison_agents (s : State) (a n : Nat) : (s.clearPoison a n).agents = s.agents := rfl
@[simp] theorem State.clearPoison_power (s : State) (a n : Nat) : (s.clearPoison a n).power = s.power := rfl
@[simp] theorem State.clearPoison_net (s : State) (a n : Nat) : (s.clearPoison a n).net = s.net := rfl
@[simp] theorem State.clearPoison_moved (s : State) (a n : Nat) : (s.clearPoison a n).moved = s.moved := rfl
@[simp] theorem State.clearPoison_host (s : State) (a n : Nat) : (s.clearPoison a n).host = s.host := rfl
@[simp] theorem State.clearPoison_dev (s : State) (a n : Nat) : (s.clearPoison a n).dev = s.dev := rfl
@[simp] theorem State.clearPoison_front (s : State) (a n : Nat) : (s.clearPoison a n).front = s.front := rfl
@[simp] theorem State.clearPoison_agenda (s : State) (a n : Nat) : (s.clearPoison a n).agenda = s.agenda := rfl
@[simp] theorem State.clearPoison_time (s : State) (a n : Nat) : (s.clearPoison a n).time = s.time := rfl
@[simp] theorem State.clearPoison_draws (s : State) (a n : Nat) : (s.clearPoison a n).draws = s.draws := rfl

/-! ## Updates that look first: setSeq, modSeq, setXV, modPart, modObj, breakResv, send -/

@[simp] theorem State.setSeq_hart (s : State) (h : Nat) (q : Seq) : (s.setSeq h q).hart = s.hart := by
  unfold State.setSeq; split <;> rfl
@[simp] theorem State.setSeq_cores (s : State) (h : Nat) (q : Seq) : (s.setSeq h q).cores = s.cores := by
  unfold State.setSeq; split <;> rfl
@[simp] theorem State.setSeq_clusters (s : State) (h : Nat) (q : Seq) : (s.setSeq h q).clusters = s.clusters := by
  unfold State.setSeq; split <;> rfl
@[simp] theorem State.setSeq_mem (s : State) (h : Nat) (q : Seq) : (s.setSeq h q).mem = s.mem := by
  unfold State.setSeq; split <;> rfl
@[simp] theorem State.setSeq_coh (s : State) (h : Nat) (q : Seq) : (s.setSeq h q).coh = s.coh := by
  unfold State.setSeq; split <;> rfl
@[simp] theorem State.setSeq_objs (s : State) (h : Nat) (q : Seq) : (s.setSeq h q).objs = s.objs := by
  unfold State.setSeq; split <;> rfl
@[simp] theorem State.setSeq_old (s : State) (h : Nat) (q : Seq) : (s.setSeq h q).old = s.old := by
  unfold State.setSeq; split <;> rfl
@[simp] theorem State.setSeq_parts (s : State) (h : Nat) (q : Seq) : (s.setSeq h q).parts = s.parts := by
  unfold State.setSeq; split <;> rfl
@[simp] theorem State.setSeq_qp (s : State) (h : Nat) (q : Seq) : (s.setSeq h q).qp = s.qp := by
  unfold State.setSeq; split <;> rfl
@[simp] theorem State.setSeq_launches (s : State) (h : Nat) (q : Seq) : (s.setSeq h q).launches = s.launches := by
  unfold State.setSeq; split <;> rfl
@[simp] theorem State.setSeq_barriers (s : State) (h : Nat) (q : Seq) : (s.setSeq h q).barriers = s.barriers := by
  unfold State.setSeq; split <;> rfl
@[simp] theorem State.setSeq_saved (s : State) (h : Nat) (q : Seq) : (s.setSeq h q).saved = s.saved := by
  unfold State.setSeq; split <;> rfl
@[simp] theorem State.setSeq_agents (s : State) (h : Nat) (q : Seq) : (s.setSeq h q).agents = s.agents := by
  unfold State.setSeq; split <;> rfl
@[simp] theorem State.setSeq_power (s : State) (h : Nat) (q : Seq) : (s.setSeq h q).power = s.power := by
  unfold State.setSeq; split <;> rfl
@[simp] theorem State.setSeq_net (s : State) (h : Nat) (q : Seq) : (s.setSeq h q).net = s.net := by
  unfold State.setSeq; split <;> rfl
@[simp] theorem State.setSeq_moved (s : State) (h : Nat) (q : Seq) : (s.setSeq h q).moved = s.moved := by
  unfold State.setSeq; split <;> rfl
@[simp] theorem State.setSeq_host (s : State) (h : Nat) (q : Seq) : (s.setSeq h q).host = s.host := by
  unfold State.setSeq; split <;> rfl
@[simp] theorem State.setSeq_dev (s : State) (h : Nat) (q : Seq) : (s.setSeq h q).dev = s.dev := by
  unfold State.setSeq; split <;> rfl
@[simp] theorem State.setSeq_front (s : State) (h : Nat) (q : Seq) : (s.setSeq h q).front = s.front := by
  unfold State.setSeq; split <;> rfl
@[simp] theorem State.setSeq_agenda (s : State) (h : Nat) (q : Seq) : (s.setSeq h q).agenda = s.agenda := by
  unfold State.setSeq; split <;> rfl
@[simp] theorem State.setSeq_time (s : State) (h : Nat) (q : Seq) : (s.setSeq h q).time = s.time := by
  unfold State.setSeq; split <;> rfl
@[simp] theorem State.setSeq_draws (s : State) (h : Nat) (q : Seq) : (s.setSeq h q).draws = s.draws := by
  unfold State.setSeq; split <;> rfl

@[simp] theorem State.modSeq_hart (s : State) (h : Nat) (f : Seq → Seq) : (s.modSeq h f).hart = s.hart := by
  unfold State.modSeq State.setSeq; split <;> rfl
@[simp] theorem State.modSeq_cores (s : State) (h : Nat) (f : Seq → Seq) : (s.modSeq h f).cores = s.cores := by
  unfold State.modSeq State.setSeq; split <;> rfl
@[simp] theorem State.modSeq_clusters (s : State) (h : Nat) (f : Seq → Seq) : (s.modSeq h f).clusters = s.clusters := by
  unfold State.modSeq State.setSeq; split <;> rfl
@[simp] theorem State.modSeq_mem (s : State) (h : Nat) (f : Seq → Seq) : (s.modSeq h f).mem = s.mem := by
  unfold State.modSeq State.setSeq; split <;> rfl
@[simp] theorem State.modSeq_coh (s : State) (h : Nat) (f : Seq → Seq) : (s.modSeq h f).coh = s.coh := by
  unfold State.modSeq State.setSeq; split <;> rfl
@[simp] theorem State.modSeq_objs (s : State) (h : Nat) (f : Seq → Seq) : (s.modSeq h f).objs = s.objs := by
  unfold State.modSeq State.setSeq; split <;> rfl
@[simp] theorem State.modSeq_old (s : State) (h : Nat) (f : Seq → Seq) : (s.modSeq h f).old = s.old := by
  unfold State.modSeq State.setSeq; split <;> rfl
@[simp] theorem State.modSeq_parts (s : State) (h : Nat) (f : Seq → Seq) : (s.modSeq h f).parts = s.parts := by
  unfold State.modSeq State.setSeq; split <;> rfl
@[simp] theorem State.modSeq_qp (s : State) (h : Nat) (f : Seq → Seq) : (s.modSeq h f).qp = s.qp := by
  unfold State.modSeq State.setSeq; split <;> rfl
@[simp] theorem State.modSeq_launches (s : State) (h : Nat) (f : Seq → Seq) : (s.modSeq h f).launches = s.launches := by
  unfold State.modSeq State.setSeq; split <;> rfl
@[simp] theorem State.modSeq_barriers (s : State) (h : Nat) (f : Seq → Seq) : (s.modSeq h f).barriers = s.barriers := by
  unfold State.modSeq State.setSeq; split <;> rfl
@[simp] theorem State.modSeq_saved (s : State) (h : Nat) (f : Seq → Seq) : (s.modSeq h f).saved = s.saved := by
  unfold State.modSeq State.setSeq; split <;> rfl
@[simp] theorem State.modSeq_agents (s : State) (h : Nat) (f : Seq → Seq) : (s.modSeq h f).agents = s.agents := by
  unfold State.modSeq State.setSeq; split <;> rfl
@[simp] theorem State.modSeq_power (s : State) (h : Nat) (f : Seq → Seq) : (s.modSeq h f).power = s.power := by
  unfold State.modSeq State.setSeq; split <;> rfl
@[simp] theorem State.modSeq_net (s : State) (h : Nat) (f : Seq → Seq) : (s.modSeq h f).net = s.net := by
  unfold State.modSeq State.setSeq; split <;> rfl
@[simp] theorem State.modSeq_moved (s : State) (h : Nat) (f : Seq → Seq) : (s.modSeq h f).moved = s.moved := by
  unfold State.modSeq State.setSeq; split <;> rfl
@[simp] theorem State.modSeq_host (s : State) (h : Nat) (f : Seq → Seq) : (s.modSeq h f).host = s.host := by
  unfold State.modSeq State.setSeq; split <;> rfl
@[simp] theorem State.modSeq_dev (s : State) (h : Nat) (f : Seq → Seq) : (s.modSeq h f).dev = s.dev := by
  unfold State.modSeq State.setSeq; split <;> rfl
@[simp] theorem State.modSeq_front (s : State) (h : Nat) (f : Seq → Seq) : (s.modSeq h f).front = s.front := by
  unfold State.modSeq State.setSeq; split <;> rfl
@[simp] theorem State.modSeq_agenda (s : State) (h : Nat) (f : Seq → Seq) : (s.modSeq h f).agenda = s.agenda := by
  unfold State.modSeq State.setSeq; split <;> rfl
@[simp] theorem State.modSeq_time (s : State) (h : Nat) (f : Seq → Seq) : (s.modSeq h f).time = s.time := by
  unfold State.modSeq State.setSeq; split <;> rfl
@[simp] theorem State.modSeq_draws (s : State) (h : Nat) (f : Seq → Seq) : (s.modSeq h f).draws = s.draws := by
  unfold State.modSeq State.setSeq; split <;> rfl

@[simp] theorem State.setXV_hart (s : State) (h : Nat) (fl : BitVec 4) : (s.setXV h fl).hart = s.hart := by
  unfold State.setXV State.modSeq State.setSeq; split <;> rfl
@[simp] theorem State.setXV_cores (s : State) (h : Nat) (fl : BitVec 4) : (s.setXV h fl).cores = s.cores := by
  unfold State.setXV State.modSeq State.setSeq; split <;> rfl
@[simp] theorem State.setXV_clusters (s : State) (h : Nat) (fl : BitVec 4) : (s.setXV h fl).clusters = s.clusters := by
  unfold State.setXV State.modSeq State.setSeq; split <;> rfl
@[simp] theorem State.setXV_mem (s : State) (h : Nat) (fl : BitVec 4) : (s.setXV h fl).mem = s.mem := by
  unfold State.setXV State.modSeq State.setSeq; split <;> rfl
@[simp] theorem State.setXV_coh (s : State) (h : Nat) (fl : BitVec 4) : (s.setXV h fl).coh = s.coh := by
  unfold State.setXV State.modSeq State.setSeq; split <;> rfl
@[simp] theorem State.setXV_objs (s : State) (h : Nat) (fl : BitVec 4) : (s.setXV h fl).objs = s.objs := by
  unfold State.setXV State.modSeq State.setSeq; split <;> rfl
@[simp] theorem State.setXV_old (s : State) (h : Nat) (fl : BitVec 4) : (s.setXV h fl).old = s.old := by
  unfold State.setXV State.modSeq State.setSeq; split <;> rfl
@[simp] theorem State.setXV_parts (s : State) (h : Nat) (fl : BitVec 4) : (s.setXV h fl).parts = s.parts := by
  unfold State.setXV State.modSeq State.setSeq; split <;> rfl
@[simp] theorem State.setXV_qp (s : State) (h : Nat) (fl : BitVec 4) : (s.setXV h fl).qp = s.qp := by
  unfold State.setXV State.modSeq State.setSeq; split <;> rfl
@[simp] theorem State.setXV_launches (s : State) (h : Nat) (fl : BitVec 4) : (s.setXV h fl).launches = s.launches := by
  unfold State.setXV State.modSeq State.setSeq; split <;> rfl
@[simp] theorem State.setXV_barriers (s : State) (h : Nat) (fl : BitVec 4) : (s.setXV h fl).barriers = s.barriers := by
  unfold State.setXV State.modSeq State.setSeq; split <;> rfl
@[simp] theorem State.setXV_saved (s : State) (h : Nat) (fl : BitVec 4) : (s.setXV h fl).saved = s.saved := by
  unfold State.setXV State.modSeq State.setSeq; split <;> rfl
@[simp] theorem State.setXV_agents (s : State) (h : Nat) (fl : BitVec 4) : (s.setXV h fl).agents = s.agents := by
  unfold State.setXV State.modSeq State.setSeq; split <;> rfl
@[simp] theorem State.setXV_power (s : State) (h : Nat) (fl : BitVec 4) : (s.setXV h fl).power = s.power := by
  unfold State.setXV State.modSeq State.setSeq; split <;> rfl
@[simp] theorem State.setXV_net (s : State) (h : Nat) (fl : BitVec 4) : (s.setXV h fl).net = s.net := by
  unfold State.setXV State.modSeq State.setSeq; split <;> rfl
@[simp] theorem State.setXV_moved (s : State) (h : Nat) (fl : BitVec 4) : (s.setXV h fl).moved = s.moved := by
  unfold State.setXV State.modSeq State.setSeq; split <;> rfl
@[simp] theorem State.setXV_host (s : State) (h : Nat) (fl : BitVec 4) : (s.setXV h fl).host = s.host := by
  unfold State.setXV State.modSeq State.setSeq; split <;> rfl
@[simp] theorem State.setXV_dev (s : State) (h : Nat) (fl : BitVec 4) : (s.setXV h fl).dev = s.dev := by
  unfold State.setXV State.modSeq State.setSeq; split <;> rfl
@[simp] theorem State.setXV_front (s : State) (h : Nat) (fl : BitVec 4) : (s.setXV h fl).front = s.front := by
  unfold State.setXV State.modSeq State.setSeq; split <;> rfl
@[simp] theorem State.setXV_agenda (s : State) (h : Nat) (fl : BitVec 4) : (s.setXV h fl).agenda = s.agenda := by
  unfold State.setXV State.modSeq State.setSeq; split <;> rfl
@[simp] theorem State.setXV_time (s : State) (h : Nat) (fl : BitVec 4) : (s.setXV h fl).time = s.time := by
  unfold State.setXV State.modSeq State.setSeq; split <;> rfl
@[simp] theorem State.setXV_draws (s : State) (h : Nat) (fl : BitVec 4) : (s.setXV h fl).draws = s.draws := by
  unfold State.setXV State.modSeq State.setSeq; split <;> rfl

@[simp] theorem State.modPart_hart (s : State) (p : Nat) (f : Part → Part) : (s.modPart p f).hart = s.hart := by
  unfold State.modPart; split <;> rfl
@[simp] theorem State.modPart_seq (s : State) (p : Nat) (f : Part → Part) : (s.modPart p f).seq = s.seq := by
  unfold State.modPart; split <;> rfl
@[simp] theorem State.modPart_seqs (s : State) (p : Nat) (f : Part → Part) : (s.modPart p f).seqs = s.seqs := by
  unfold State.modPart; split <;> rfl
@[simp] theorem State.modPart_cores (s : State) (p : Nat) (f : Part → Part) : (s.modPart p f).cores = s.cores := by
  unfold State.modPart; split <;> rfl
@[simp] theorem State.modPart_clusters (s : State) (p : Nat) (f : Part → Part) : (s.modPart p f).clusters = s.clusters := by
  unfold State.modPart; split <;> rfl
@[simp] theorem State.modPart_mem (s : State) (p : Nat) (f : Part → Part) : (s.modPart p f).mem = s.mem := by
  unfold State.modPart; split <;> rfl
@[simp] theorem State.modPart_coh (s : State) (p : Nat) (f : Part → Part) : (s.modPart p f).coh = s.coh := by
  unfold State.modPart; split <;> rfl
@[simp] theorem State.modPart_objs (s : State) (p : Nat) (f : Part → Part) : (s.modPart p f).objs = s.objs := by
  unfold State.modPart; split <;> rfl
@[simp] theorem State.modPart_old (s : State) (p : Nat) (f : Part → Part) : (s.modPart p f).old = s.old := by
  unfold State.modPart; split <;> rfl
@[simp] theorem State.modPart_qp (s : State) (p : Nat) (f : Part → Part) : (s.modPart p f).qp = s.qp := by
  unfold State.modPart; split <;> rfl
@[simp] theorem State.modPart_launches (s : State) (p : Nat) (f : Part → Part) : (s.modPart p f).launches = s.launches := by
  unfold State.modPart; split <;> rfl
@[simp] theorem State.modPart_barriers (s : State) (p : Nat) (f : Part → Part) : (s.modPart p f).barriers = s.barriers := by
  unfold State.modPart; split <;> rfl
@[simp] theorem State.modPart_saved (s : State) (p : Nat) (f : Part → Part) : (s.modPart p f).saved = s.saved := by
  unfold State.modPart; split <;> rfl
@[simp] theorem State.modPart_agents (s : State) (p : Nat) (f : Part → Part) : (s.modPart p f).agents = s.agents := by
  unfold State.modPart; split <;> rfl
@[simp] theorem State.modPart_power (s : State) (p : Nat) (f : Part → Part) : (s.modPart p f).power = s.power := by
  unfold State.modPart; split <;> rfl
@[simp] theorem State.modPart_net (s : State) (p : Nat) (f : Part → Part) : (s.modPart p f).net = s.net := by
  unfold State.modPart; split <;> rfl
@[simp] theorem State.modPart_moved (s : State) (p : Nat) (f : Part → Part) : (s.modPart p f).moved = s.moved := by
  unfold State.modPart; split <;> rfl
@[simp] theorem State.modPart_host (s : State) (p : Nat) (f : Part → Part) : (s.modPart p f).host = s.host := by
  unfold State.modPart; split <;> rfl
@[simp] theorem State.modPart_dev (s : State) (p : Nat) (f : Part → Part) : (s.modPart p f).dev = s.dev := by
  unfold State.modPart; split <;> rfl
@[simp] theorem State.modPart_front (s : State) (p : Nat) (f : Part → Part) : (s.modPart p f).front = s.front := by
  unfold State.modPart; split <;> rfl
@[simp] theorem State.modPart_agenda (s : State) (p : Nat) (f : Part → Part) : (s.modPart p f).agenda = s.agenda := by
  unfold State.modPart; split <;> rfl
@[simp] theorem State.modPart_time (s : State) (p : Nat) (f : Part → Part) : (s.modPart p f).time = s.time := by
  unfold State.modPart; split <;> rfl
@[simp] theorem State.modPart_draws (s : State) (p : Nat) (f : Part → Part) : (s.modPart p f).draws = s.draws := by
  unfold State.modPart; split <;> rfl

@[simp] theorem State.modObj_hart (s : State) (i : Nat) (f : Obj → Obj) : (s.modObj i f).hart = s.hart := by
  unfold State.modObj; split <;> rfl
@[simp] theorem State.modObj_seq (s : State) (i : Nat) (f : Obj → Obj) : (s.modObj i f).seq = s.seq := by
  unfold State.modObj; split <;> rfl
@[simp] theorem State.modObj_seqs (s : State) (i : Nat) (f : Obj → Obj) : (s.modObj i f).seqs = s.seqs := by
  unfold State.modObj; split <;> rfl
@[simp] theorem State.modObj_cores (s : State) (i : Nat) (f : Obj → Obj) : (s.modObj i f).cores = s.cores := by
  unfold State.modObj; split <;> rfl
@[simp] theorem State.modObj_clusters (s : State) (i : Nat) (f : Obj → Obj) : (s.modObj i f).clusters = s.clusters := by
  unfold State.modObj; split <;> rfl
@[simp] theorem State.modObj_mem (s : State) (i : Nat) (f : Obj → Obj) : (s.modObj i f).mem = s.mem := by
  unfold State.modObj; split <;> rfl
@[simp] theorem State.modObj_coh (s : State) (i : Nat) (f : Obj → Obj) : (s.modObj i f).coh = s.coh := by
  unfold State.modObj; split <;> rfl
@[simp] theorem State.modObj_old (s : State) (i : Nat) (f : Obj → Obj) : (s.modObj i f).old = s.old := by
  unfold State.modObj; split <;> rfl
@[simp] theorem State.modObj_parts (s : State) (i : Nat) (f : Obj → Obj) : (s.modObj i f).parts = s.parts := by
  unfold State.modObj; split <;> rfl
@[simp] theorem State.modObj_qp (s : State) (i : Nat) (f : Obj → Obj) : (s.modObj i f).qp = s.qp := by
  unfold State.modObj; split <;> rfl
@[simp] theorem State.modObj_launches (s : State) (i : Nat) (f : Obj → Obj) : (s.modObj i f).launches = s.launches := by
  unfold State.modObj; split <;> rfl
@[simp] theorem State.modObj_barriers (s : State) (i : Nat) (f : Obj → Obj) : (s.modObj i f).barriers = s.barriers := by
  unfold State.modObj; split <;> rfl
@[simp] theorem State.modObj_saved (s : State) (i : Nat) (f : Obj → Obj) : (s.modObj i f).saved = s.saved := by
  unfold State.modObj; split <;> rfl
@[simp] theorem State.modObj_agents (s : State) (i : Nat) (f : Obj → Obj) : (s.modObj i f).agents = s.agents := by
  unfold State.modObj; split <;> rfl
@[simp] theorem State.modObj_power (s : State) (i : Nat) (f : Obj → Obj) : (s.modObj i f).power = s.power := by
  unfold State.modObj; split <;> rfl
@[simp] theorem State.modObj_net (s : State) (i : Nat) (f : Obj → Obj) : (s.modObj i f).net = s.net := by
  unfold State.modObj; split <;> rfl
@[simp] theorem State.modObj_moved (s : State) (i : Nat) (f : Obj → Obj) : (s.modObj i f).moved = s.moved := by
  unfold State.modObj; split <;> rfl
@[simp] theorem State.modObj_host (s : State) (i : Nat) (f : Obj → Obj) : (s.modObj i f).host = s.host := by
  unfold State.modObj; split <;> rfl
@[simp] theorem State.modObj_dev (s : State) (i : Nat) (f : Obj → Obj) : (s.modObj i f).dev = s.dev := by
  unfold State.modObj; split <;> rfl
@[simp] theorem State.modObj_front (s : State) (i : Nat) (f : Obj → Obj) : (s.modObj i f).front = s.front := by
  unfold State.modObj; split <;> rfl
@[simp] theorem State.modObj_agenda (s : State) (i : Nat) (f : Obj → Obj) : (s.modObj i f).agenda = s.agenda := by
  unfold State.modObj; split <;> rfl
@[simp] theorem State.modObj_time (s : State) (i : Nat) (f : Obj → Obj) : (s.modObj i f).time = s.time := by
  unfold State.modObj; split <;> rfl
@[simp] theorem State.modObj_draws (s : State) (i : Nat) (f : Obj → Obj) : (s.modObj i f).draws = s.draws := by
  unfold State.modObj; split <;> rfl

@[simp] theorem State.breakResv_hart (s : State) (a n : Nat) (w : Option Nat) : (s.breakResv a n w).hart = s.hart := rfl
@[simp] theorem State.breakResv_cores (s : State) (a n : Nat) (w : Option Nat) : (s.breakResv a n w).cores = s.cores := rfl
@[simp] theorem State.breakResv_clusters (s : State) (a n : Nat) (w : Option Nat) : (s.breakResv a n w).clusters = s.clusters := rfl
@[simp] theorem State.breakResv_mem (s : State) (a n : Nat) (w : Option Nat) : (s.breakResv a n w).mem = s.mem := rfl
@[simp] theorem State.breakResv_coh (s : State) (a n : Nat) (w : Option Nat) : (s.breakResv a n w).coh = s.coh := rfl
@[simp] theorem State.breakResv_objs (s : State) (a n : Nat) (w : Option Nat) : (s.breakResv a n w).objs = s.objs := rfl
@[simp] theorem State.breakResv_old (s : State) (a n : Nat) (w : Option Nat) : (s.breakResv a n w).old = s.old := rfl
@[simp] theorem State.breakResv_parts (s : State) (a n : Nat) (w : Option Nat) : (s.breakResv a n w).parts = s.parts := rfl
@[simp] theorem State.breakResv_qp (s : State) (a n : Nat) (w : Option Nat) : (s.breakResv a n w).qp = s.qp := rfl
@[simp] theorem State.breakResv_launches (s : State) (a n : Nat) (w : Option Nat) : (s.breakResv a n w).launches = s.launches := rfl
@[simp] theorem State.breakResv_barriers (s : State) (a n : Nat) (w : Option Nat) : (s.breakResv a n w).barriers = s.barriers := rfl
@[simp] theorem State.breakResv_saved (s : State) (a n : Nat) (w : Option Nat) : (s.breakResv a n w).saved = s.saved := rfl
@[simp] theorem State.breakResv_agents (s : State) (a n : Nat) (w : Option Nat) : (s.breakResv a n w).agents = s.agents := rfl
@[simp] theorem State.breakResv_power (s : State) (a n : Nat) (w : Option Nat) : (s.breakResv a n w).power = s.power := rfl
@[simp] theorem State.breakResv_net (s : State) (a n : Nat) (w : Option Nat) : (s.breakResv a n w).net = s.net := rfl
@[simp] theorem State.breakResv_moved (s : State) (a n : Nat) (w : Option Nat) : (s.breakResv a n w).moved = s.moved := rfl
@[simp] theorem State.breakResv_host (s : State) (a n : Nat) (w : Option Nat) : (s.breakResv a n w).host = s.host := rfl
@[simp] theorem State.breakResv_dev (s : State) (a n : Nat) (w : Option Nat) : (s.breakResv a n w).dev = s.dev := rfl
@[simp] theorem State.breakResv_front (s : State) (a n : Nat) (w : Option Nat) : (s.breakResv a n w).front = s.front := rfl
@[simp] theorem State.breakResv_agenda (s : State) (a n : Nat) (w : Option Nat) : (s.breakResv a n w).agenda = s.agenda := rfl
@[simp] theorem State.breakResv_time (s : State) (a n : Nat) (w : Option Nat) : (s.breakResv a n w).time = s.time := rfl
@[simp] theorem State.breakResv_draws (s : State) (a n : Nat) (w : Option Nat) : (s.breakResv a n w).draws = s.draws := rfl

@[simp] theorem State.setFlow_hart (s : State) (x : Flow) : (s.setFlow x).hart = s.hart := rfl
@[simp] theorem State.setFlow_seq (s : State) (x : Flow) : (s.setFlow x).seq = s.seq := rfl
@[simp] theorem State.setFlow_seqs (s : State) (x : Flow) : (s.setFlow x).seqs = s.seqs := rfl
@[simp] theorem State.setFlow_cores (s : State) (x : Flow) : (s.setFlow x).cores = s.cores := rfl
@[simp] theorem State.setFlow_clusters (s : State) (x : Flow) : (s.setFlow x).clusters = s.clusters := rfl
@[simp] theorem State.setFlow_mem (s : State) (x : Flow) : (s.setFlow x).mem = s.mem := rfl
@[simp] theorem State.setFlow_coh (s : State) (x : Flow) : (s.setFlow x).coh = s.coh := rfl
@[simp] theorem State.setFlow_objs (s : State) (x : Flow) : (s.setFlow x).objs = s.objs := rfl
@[simp] theorem State.setFlow_old (s : State) (x : Flow) : (s.setFlow x).old = s.old := rfl
@[simp] theorem State.setFlow_parts (s : State) (x : Flow) : (s.setFlow x).parts = s.parts := rfl
@[simp] theorem State.setFlow_qp (s : State) (x : Flow) : (s.setFlow x).qp = s.qp := rfl
@[simp] theorem State.setFlow_launches (s : State) (x : Flow) : (s.setFlow x).launches = s.launches := rfl
@[simp] theorem State.setFlow_barriers (s : State) (x : Flow) : (s.setFlow x).barriers = s.barriers := rfl
@[simp] theorem State.setFlow_saved (s : State) (x : Flow) : (s.setFlow x).saved = s.saved := rfl
@[simp] theorem State.setFlow_agents (s : State) (x : Flow) : (s.setFlow x).agents = s.agents := rfl
@[simp] theorem State.setFlow_power (s : State) (x : Flow) : (s.setFlow x).power = s.power := rfl
@[simp] theorem State.setFlow_net (s : State) (x : Flow) : (s.setFlow x).net = s.net := rfl
@[simp] theorem State.setFlow_moved (s : State) (x : Flow) : (s.setFlow x).moved = s.moved := rfl
@[simp] theorem State.setFlow_dev (s : State) (x : Flow) : (s.setFlow x).dev = s.dev := rfl
@[simp] theorem State.setFlow_front (s : State) (x : Flow) : (s.setFlow x).front = s.front := rfl
@[simp] theorem State.setFlow_agenda (s : State) (x : Flow) : (s.setFlow x).agenda = s.agenda := rfl
@[simp] theorem State.setFlow_time (s : State) (x : Flow) : (s.setFlow x).time = s.time := rfl
@[simp] theorem State.setFlow_draws (s : State) (x : Flow) : (s.setFlow x).draws = s.draws := rfl

@[simp] theorem State.send_hart (s : State) (m : Sent) : (s.send m).hart = s.hart := by
  unfold State.send State.emit; (repeat' split) <;> rfl
@[simp] theorem State.send_seq (s : State) (m : Sent) : (s.send m).seq = s.seq := by
  unfold State.send State.emit; (repeat' split) <;> rfl
@[simp] theorem State.send_seqs (s : State) (m : Sent) : (s.send m).seqs = s.seqs := by
  unfold State.send State.emit; (repeat' split) <;> rfl
@[simp] theorem State.send_cores (s : State) (m : Sent) : (s.send m).cores = s.cores := by
  unfold State.send State.emit; (repeat' split) <;> rfl
@[simp] theorem State.send_clusters (s : State) (m : Sent) : (s.send m).clusters = s.clusters := by
  unfold State.send State.emit; (repeat' split) <;> rfl
@[simp] theorem State.send_mem (s : State) (m : Sent) : (s.send m).mem = s.mem := by
  unfold State.send State.emit; (repeat' split) <;> rfl
@[simp] theorem State.send_coh (s : State) (m : Sent) : (s.send m).coh = s.coh := by
  unfold State.send State.emit; (repeat' split) <;> rfl
@[simp] theorem State.send_objs (s : State) (m : Sent) : (s.send m).objs = s.objs := by
  unfold State.send State.emit; (repeat' split) <;> rfl
@[simp] theorem State.send_old (s : State) (m : Sent) : (s.send m).old = s.old := by
  unfold State.send State.emit; (repeat' split) <;> rfl
@[simp] theorem State.send_parts (s : State) (m : Sent) : (s.send m).parts = s.parts := by
  unfold State.send State.emit; (repeat' split) <;> rfl
@[simp] theorem State.send_qp (s : State) (m : Sent) : (s.send m).qp = s.qp := by
  unfold State.send State.emit; (repeat' split) <;> rfl
@[simp] theorem State.send_launches (s : State) (m : Sent) : (s.send m).launches = s.launches := by
  unfold State.send State.emit; (repeat' split) <;> rfl
@[simp] theorem State.send_barriers (s : State) (m : Sent) : (s.send m).barriers = s.barriers := by
  unfold State.send State.emit; (repeat' split) <;> rfl
@[simp] theorem State.send_saved (s : State) (m : Sent) : (s.send m).saved = s.saved := by
  unfold State.send State.emit; (repeat' split) <;> rfl
@[simp] theorem State.send_agents (s : State) (m : Sent) : (s.send m).agents = s.agents := by
  unfold State.send State.emit; (repeat' split) <;> rfl
@[simp] theorem State.send_power (s : State) (m : Sent) : (s.send m).power = s.power := by
  unfold State.send State.emit; (repeat' split) <;> rfl
@[simp] theorem State.send_net (s : State) (m : Sent) : (s.send m).net = s.net := by
  unfold State.send State.emit; (repeat' split) <;> rfl
@[simp] theorem State.send_moved (s : State) (m : Sent) : (s.send m).moved = s.moved := by
  unfold State.send State.emit; (repeat' split) <;> rfl
@[simp] theorem State.send_dev (s : State) (m : Sent) : (s.send m).dev = s.dev := by
  unfold State.send State.emit; (repeat' split) <;> rfl
@[simp] theorem State.send_front (s : State) (m : Sent) : (s.send m).front = s.front := by
  unfold State.send State.emit; (repeat' split) <;> rfl
@[simp] theorem State.send_agenda (s : State) (m : Sent) : (s.send m).agenda = s.agenda := by
  unfold State.send State.emit; (repeat' split) <;> rfl
@[simp] theorem State.send_time (s : State) (m : Sent) : (s.send m).time = s.time := by
  unfold State.send State.emit; (repeat' split) <;> rfl
@[simp] theorem State.send_draws (s : State) (m : Sent) : (s.send m).draws = s.draws := by
  unfold State.send State.emit; (repeat' split) <;> rfl

@[simp] theorem State.sendEvent_hart (s : State) (p c q : Nat) (a v : Word) (e : List Word) : (s.sendEvent p c q a v e).hart = s.hart := State.send_hart s _
@[simp] theorem State.sendEvent_seq (s : State) (p c q : Nat) (a v : Word) (e : List Word) : (s.sendEvent p c q a v e).seq = s.seq := State.send_seq s _
@[simp] theorem State.sendEvent_seqs (s : State) (p c q : Nat) (a v : Word) (e : List Word) : (s.sendEvent p c q a v e).seqs = s.seqs := State.send_seqs s _
@[simp] theorem State.sendEvent_cores (s : State) (p c q : Nat) (a v : Word) (e : List Word) : (s.sendEvent p c q a v e).cores = s.cores := State.send_cores s _
@[simp] theorem State.sendEvent_clusters (s : State) (p c q : Nat) (a v : Word) (e : List Word) : (s.sendEvent p c q a v e).clusters = s.clusters := State.send_clusters s _
@[simp] theorem State.sendEvent_mem (s : State) (p c q : Nat) (a v : Word) (e : List Word) : (s.sendEvent p c q a v e).mem = s.mem := State.send_mem s _
@[simp] theorem State.sendEvent_coh (s : State) (p c q : Nat) (a v : Word) (e : List Word) : (s.sendEvent p c q a v e).coh = s.coh := State.send_coh s _
@[simp] theorem State.sendEvent_objs (s : State) (p c q : Nat) (a v : Word) (e : List Word) : (s.sendEvent p c q a v e).objs = s.objs := State.send_objs s _
@[simp] theorem State.sendEvent_old (s : State) (p c q : Nat) (a v : Word) (e : List Word) : (s.sendEvent p c q a v e).old = s.old := State.send_old s _
@[simp] theorem State.sendEvent_parts (s : State) (p c q : Nat) (a v : Word) (e : List Word) : (s.sendEvent p c q a v e).parts = s.parts := State.send_parts s _
@[simp] theorem State.sendEvent_qp (s : State) (p c q : Nat) (a v : Word) (e : List Word) : (s.sendEvent p c q a v e).qp = s.qp := State.send_qp s _
@[simp] theorem State.sendEvent_launches (s : State) (p c q : Nat) (a v : Word) (e : List Word) : (s.sendEvent p c q a v e).launches = s.launches := State.send_launches s _
@[simp] theorem State.sendEvent_barriers (s : State) (p c q : Nat) (a v : Word) (e : List Word) : (s.sendEvent p c q a v e).barriers = s.barriers := State.send_barriers s _
@[simp] theorem State.sendEvent_saved (s : State) (p c q : Nat) (a v : Word) (e : List Word) : (s.sendEvent p c q a v e).saved = s.saved := State.send_saved s _
@[simp] theorem State.sendEvent_agents (s : State) (p c q : Nat) (a v : Word) (e : List Word) : (s.sendEvent p c q a v e).agents = s.agents := State.send_agents s _
@[simp] theorem State.sendEvent_power (s : State) (p c q : Nat) (a v : Word) (e : List Word) : (s.sendEvent p c q a v e).power = s.power := State.send_power s _
@[simp] theorem State.sendEvent_net (s : State) (p c q : Nat) (a v : Word) (e : List Word) : (s.sendEvent p c q a v e).net = s.net := State.send_net s _
@[simp] theorem State.sendEvent_moved (s : State) (p c q : Nat) (a v : Word) (e : List Word) : (s.sendEvent p c q a v e).moved = s.moved := State.send_moved s _
@[simp] theorem State.sendEvent_dev (s : State) (p c q : Nat) (a v : Word) (e : List Word) : (s.sendEvent p c q a v e).dev = s.dev := State.send_dev s _
@[simp] theorem State.sendEvent_front (s : State) (p c q : Nat) (a v : Word) (e : List Word) : (s.sendEvent p c q a v e).front = s.front := State.send_front s _
@[simp] theorem State.sendEvent_agenda (s : State) (p c q : Nat) (a v : Word) (e : List Word) : (s.sendEvent p c q a v e).agenda = s.agenda := State.send_agenda s _
@[simp] theorem State.sendEvent_time (s : State) (p c q : Nat) (a v : Word) (e : List Word) : (s.sendEvent p c q a v e).time = s.time := State.send_time s _
@[simp] theorem State.sendEvent_draws (s : State) (p c q : Nat) (a v : Word) (e : List Word) : (s.sendEvent p c q a v e).draws = s.draws := State.send_draws s _

/-! ## l1Add, tlbAdd -/

@[simp] theorem State.l1Add_hart (s : State) (via : Via) (ak : AKind) (e : TlbEntry) : (s.l1Add via ak e).hart = s.hart := by
  unfold State.l1Add; split <;> rfl
@[simp] theorem State.l1Add_seq (s : State) (via : Via) (ak : AKind) (e : TlbEntry) : (s.l1Add via ak e).seq = s.seq := by
  unfold State.l1Add; split <;> rfl
@[simp] theorem State.l1Add_seqs (s : State) (via : Via) (ak : AKind) (e : TlbEntry) : (s.l1Add via ak e).seqs = s.seqs := by
  unfold State.l1Add; split <;> rfl
@[simp] theorem State.l1Add_clusters (s : State) (via : Via) (ak : AKind) (e : TlbEntry) : (s.l1Add via ak e).clusters = s.clusters := by
  unfold State.l1Add; split <;> rfl
@[simp] theorem State.l1Add_mem (s : State) (via : Via) (ak : AKind) (e : TlbEntry) : (s.l1Add via ak e).mem = s.mem := by
  unfold State.l1Add; split <;> rfl
@[simp] theorem State.l1Add_coh (s : State) (via : Via) (ak : AKind) (e : TlbEntry) : (s.l1Add via ak e).coh = s.coh := by
  unfold State.l1Add; split <;> rfl
@[simp] theorem State.l1Add_objs (s : State) (via : Via) (ak : AKind) (e : TlbEntry) : (s.l1Add via ak e).objs = s.objs := by
  unfold State.l1Add; split <;> rfl
@[simp] theorem State.l1Add_old (s : State) (via : Via) (ak : AKind) (e : TlbEntry) : (s.l1Add via ak e).old = s.old := by
  unfold State.l1Add; split <;> rfl
@[simp] theorem State.l1Add_parts (s : State) (via : Via) (ak : AKind) (e : TlbEntry) : (s.l1Add via ak e).parts = s.parts := by
  unfold State.l1Add; split <;> rfl
@[simp] theorem State.l1Add_qp (s : State) (via : Via) (ak : AKind) (e : TlbEntry) : (s.l1Add via ak e).qp = s.qp := by
  unfold State.l1Add; split <;> rfl
@[simp] theorem State.l1Add_launches (s : State) (via : Via) (ak : AKind) (e : TlbEntry) : (s.l1Add via ak e).launches = s.launches := by
  unfold State.l1Add; split <;> rfl
@[simp] theorem State.l1Add_barriers (s : State) (via : Via) (ak : AKind) (e : TlbEntry) : (s.l1Add via ak e).barriers = s.barriers := by
  unfold State.l1Add; split <;> rfl
@[simp] theorem State.l1Add_saved (s : State) (via : Via) (ak : AKind) (e : TlbEntry) : (s.l1Add via ak e).saved = s.saved := by
  unfold State.l1Add; split <;> rfl
@[simp] theorem State.l1Add_agents (s : State) (via : Via) (ak : AKind) (e : TlbEntry) : (s.l1Add via ak e).agents = s.agents := by
  unfold State.l1Add; split <;> rfl
@[simp] theorem State.l1Add_power (s : State) (via : Via) (ak : AKind) (e : TlbEntry) : (s.l1Add via ak e).power = s.power := by
  unfold State.l1Add; split <;> rfl
@[simp] theorem State.l1Add_net (s : State) (via : Via) (ak : AKind) (e : TlbEntry) : (s.l1Add via ak e).net = s.net := by
  unfold State.l1Add; split <;> rfl
@[simp] theorem State.l1Add_moved (s : State) (via : Via) (ak : AKind) (e : TlbEntry) : (s.l1Add via ak e).moved = s.moved := by
  unfold State.l1Add; split <;> rfl
@[simp] theorem State.l1Add_host (s : State) (via : Via) (ak : AKind) (e : TlbEntry) : (s.l1Add via ak e).host = s.host := by
  unfold State.l1Add; split <;> rfl
@[simp] theorem State.l1Add_dev (s : State) (via : Via) (ak : AKind) (e : TlbEntry) : (s.l1Add via ak e).dev = s.dev := by
  unfold State.l1Add; split <;> rfl
@[simp] theorem State.l1Add_front (s : State) (via : Via) (ak : AKind) (e : TlbEntry) : (s.l1Add via ak e).front = s.front := by
  unfold State.l1Add; split <;> rfl
@[simp] theorem State.l1Add_agenda (s : State) (via : Via) (ak : AKind) (e : TlbEntry) : (s.l1Add via ak e).agenda = s.agenda := by
  unfold State.l1Add; split <;> rfl
@[simp] theorem State.l1Add_time (s : State) (via : Via) (ak : AKind) (e : TlbEntry) : (s.l1Add via ak e).time = s.time := by
  unfold State.l1Add; split <;> rfl
@[simp] theorem State.l1Add_draws (s : State) (via : Via) (ak : AKind) (e : TlbEntry) : (s.l1Add via ak e).draws = s.draws := by
  unfold State.l1Add; split <;> rfl

@[simp] theorem State.tlbAdd_hart (s : State) (via : Via) (ak : AKind) (e : TlbEntry) : (s.tlbAdd via ak e).hart = s.hart := by
  unfold State.tlbAdd; rw [State.l1Add_hart]; split; · rfl
  · split <;> rfl
@[simp] theorem State.tlbAdd_seq (s : State) (via : Via) (ak : AKind) (e : TlbEntry) : (s.tlbAdd via ak e).seq = s.seq := by
  unfold State.tlbAdd; rw [State.l1Add_seq]; split; · rfl
  · split <;> rfl
@[simp] theorem State.tlbAdd_seqs (s : State) (via : Via) (ak : AKind) (e : TlbEntry) : (s.tlbAdd via ak e).seqs = s.seqs := by
  unfold State.tlbAdd; rw [State.l1Add_seqs]; split; · rfl
  · split <;> rfl
@[simp] theorem State.tlbAdd_mem (s : State) (via : Via) (ak : AKind) (e : TlbEntry) : (s.tlbAdd via ak e).mem = s.mem := by
  unfold State.tlbAdd; rw [State.l1Add_mem]; split; · rfl
  · split <;> rfl
@[simp] theorem State.tlbAdd_coh (s : State) (via : Via) (ak : AKind) (e : TlbEntry) : (s.tlbAdd via ak e).coh = s.coh := by
  unfold State.tlbAdd; rw [State.l1Add_coh]; split; · rfl
  · split <;> rfl
@[simp] theorem State.tlbAdd_objs (s : State) (via : Via) (ak : AKind) (e : TlbEntry) : (s.tlbAdd via ak e).objs = s.objs := by
  unfold State.tlbAdd; rw [State.l1Add_objs]; split; · rfl
  · split <;> rfl
@[simp] theorem State.tlbAdd_old (s : State) (via : Via) (ak : AKind) (e : TlbEntry) : (s.tlbAdd via ak e).old = s.old := by
  unfold State.tlbAdd; rw [State.l1Add_old]; split; · rfl
  · split <;> rfl
@[simp] theorem State.tlbAdd_parts (s : State) (via : Via) (ak : AKind) (e : TlbEntry) : (s.tlbAdd via ak e).parts = s.parts := by
  unfold State.tlbAdd; rw [State.l1Add_parts]; split; · rfl
  · split <;> rfl
@[simp] theorem State.tlbAdd_qp (s : State) (via : Via) (ak : AKind) (e : TlbEntry) : (s.tlbAdd via ak e).qp = s.qp := by
  unfold State.tlbAdd; rw [State.l1Add_qp]; split; · rfl
  · split <;> rfl
@[simp] theorem State.tlbAdd_launches (s : State) (via : Via) (ak : AKind) (e : TlbEntry) : (s.tlbAdd via ak e).launches = s.launches := by
  unfold State.tlbAdd; rw [State.l1Add_launches]; split; · rfl
  · split <;> rfl
@[simp] theorem State.tlbAdd_barriers (s : State) (via : Via) (ak : AKind) (e : TlbEntry) : (s.tlbAdd via ak e).barriers = s.barriers := by
  unfold State.tlbAdd; rw [State.l1Add_barriers]; split; · rfl
  · split <;> rfl
@[simp] theorem State.tlbAdd_saved (s : State) (via : Via) (ak : AKind) (e : TlbEntry) : (s.tlbAdd via ak e).saved = s.saved := by
  unfold State.tlbAdd; rw [State.l1Add_saved]; split; · rfl
  · split <;> rfl
@[simp] theorem State.tlbAdd_power (s : State) (via : Via) (ak : AKind) (e : TlbEntry) : (s.tlbAdd via ak e).power = s.power := by
  unfold State.tlbAdd; rw [State.l1Add_power]; split; · rfl
  · split <;> rfl
@[simp] theorem State.tlbAdd_net (s : State) (via : Via) (ak : AKind) (e : TlbEntry) : (s.tlbAdd via ak e).net = s.net := by
  unfold State.tlbAdd; rw [State.l1Add_net]; split; · rfl
  · split <;> rfl
@[simp] theorem State.tlbAdd_moved (s : State) (via : Via) (ak : AKind) (e : TlbEntry) : (s.tlbAdd via ak e).moved = s.moved := by
  unfold State.tlbAdd; rw [State.l1Add_moved]; split; · rfl
  · split <;> rfl
@[simp] theorem State.tlbAdd_host (s : State) (via : Via) (ak : AKind) (e : TlbEntry) : (s.tlbAdd via ak e).host = s.host := by
  unfold State.tlbAdd; rw [State.l1Add_host]; split; · rfl
  · split <;> rfl
@[simp] theorem State.tlbAdd_dev (s : State) (via : Via) (ak : AKind) (e : TlbEntry) : (s.tlbAdd via ak e).dev = s.dev := by
  unfold State.tlbAdd; rw [State.l1Add_dev]; split; · rfl
  · split <;> rfl
@[simp] theorem State.tlbAdd_front (s : State) (via : Via) (ak : AKind) (e : TlbEntry) : (s.tlbAdd via ak e).front = s.front := by
  unfold State.tlbAdd; rw [State.l1Add_front]; split; · rfl
  · split <;> rfl
@[simp] theorem State.tlbAdd_agenda (s : State) (via : Via) (ak : AKind) (e : TlbEntry) : (s.tlbAdd via ak e).agenda = s.agenda := by
  unfold State.tlbAdd; rw [State.l1Add_agenda]; split; · rfl
  · split <;> rfl
@[simp] theorem State.tlbAdd_time (s : State) (via : Via) (ak : AKind) (e : TlbEntry) : (s.tlbAdd via ak e).time = s.time := by
  unfold State.tlbAdd; rw [State.l1Add_time]; split; · rfl
  · split <;> rfl
@[simp] theorem State.tlbAdd_draws (s : State) (via : Via) (ak : AKind) (e : TlbEntry) : (s.tlbAdd via ak e).draws = s.draws := by
  unfold State.tlbAdd; rw [State.l1Add_draws]; split; · rfl
  · split <;> rfl

/-! ## Reading back -/

theorem aget_aput {α : Type} (l : List (Nat × α)) (k j : Nat) (v : α) : aget (aput l k v) j = if j = k then some v else aget l j := by
  induction l with
  | nil =>
    simp only [aput, aget]
    by_cases h : k = j
    · simp [h]
    · simp [h, Ne.symm h]
  | cons p l ih =>
    obtain ⟨i, w⟩ := p
    by_cases h1 : i = k
    · subst h1
      simp only [aput, aget, if_true]
      by_cases h2 : i = j
      · simp [h2]
      · simp [h2, Ne.symm h2]
    · by_cases h2 : k < i
      · simp only [aput, h1, h2, if_true, if_false, aget]
        by_cases h3 : k = j
        · simp [h3]
        · simp [h3, Ne.symm h3]
      · simp only [aput, h1, h2, if_false, aget, ih]
        by_cases h3 : i = j
        · have : j ≠ k := by rw [← h3]; exact h1
          simp [h3, this]
        · simp [h3]

/-- x0 reads 0 and discards writes; any other register holds what was last written (R2, R76). -/
theorem Seq.rx_wx (q : Seq) (r i : Reg) (v : Word) : (q.wx r v).rx i = if i = r ∧ r ≠ 0 then v else q.rx i := by
  unfold Seq.wx Seq.rx
  by_cases hr : r = 0
  · simp [hr]
  · rw [if_neg hr]
    by_cases hi : i = 0
    · rw [if_pos hi, if_pos hi, if_neg (fun h : i = r ∧ r ≠ 0 => hr (h.1.symm.trans hi))]
    · rw [if_neg hi, if_neg hi]
      show (q.x.set r.toNat v r.isLt)[i.toNat]'(i.isLt) = _
      rw [Vector.getElem_set]
      by_cases h : r = i
      · rw [if_pos (by rw [h]), if_pos ⟨h.symm, hr⟩]
      · rw [if_neg (fun e => h (BitVec.eq_of_toNat_eq e)), if_neg (fun e : i = r ∧ r ≠ 0 => h e.1.symm)]

theorem Seq.rf_wf (q : Seq) (r i : Reg) (v : Word) : (q.wf r v).rf i = if i = r then v else q.rf i := by
  unfold Seq.wf Seq.rf
  simp only
  rw [Vector.getElem_set]
  by_cases h : r = i
  · simp [h]
  · have h1 : ¬ r.toNat = i.toNat := fun e => h (BitVec.eq_of_toNat_eq e)
    have h2 : ¬ i = r := fun e => h e.symm
    simp [h1, h2]

@[simp] theorem Seq.rx_zero (q : Seq) : q.rx 0 = 0 := by simp [Seq.rx]
@[simp] theorem State.x_zero (s : State) : s.x 0 = 0 := Seq.rx_zero s.seq

/-- Writing x[r] changes no field of the hart but x. -/
theorem Seq.wx_eq (q : Seq) (r : Reg) (v : Word) : q.wx r v = { q with x := (q.wx r v).x } := by
  unfold Seq.wx; split <;> rfl

theorem State.x_setX (s : State) (r i : Reg) (v : Word) : (s.setX r v).x i = if i = r ∧ r ≠ 0 then v else s.x i := Seq.rx_wx s.seq r i v
theorem State.f_setF (s : State) (r i : Reg) (v : Word) : (s.setF r v).f i = if i = r then v else s.f i := Seq.rf_wf s.seq r i v
@[simp] theorem State.f_setX (s : State) (r i : Reg) (v : Word) : (s.setX r v).f i = s.f i := by
  unfold State.f State.setX Seq.rf Seq.wx; split <;> rfl
@[simp] theorem State.x_setF (s : State) (r i : Reg) (v : Word) : (s.setF r v).x i = s.x i := rfl

theorem State.core_setCore (s : State) (c j : Nat) (k : Core) : (s.setCore c k).core j = if j = c then k else s.core j := by
  unfold State.core State.setCore; simp only [aget_aput]; split <;> rfl
theorem State.cluster_setCluster (s : State) (c j : Nat) (k : Cluster) : (s.setCluster c k).cluster j = if j = c then k else s.cluster j := by
  unfold State.cluster State.setCluster; simp only [aget_aput]; split <;> rfl
theorem State.agent_setAgent (s : State) (a j : Nat) (g : Agent) : (s.setAgent a g).agent j = if j = a then g else s.agent j := by
  unfold State.agent State.setAgent; simp only [aget_aput]; split <;> rfl
theorem State.powerOf_setPower (s : State) (d j : Nat) (p : Power) : (s.setPower d p).powerOf j = if j = d then p else s.powerOf j := by
  unfold State.powerOf State.setPower; simp only [aget_aput]; split <;> rfl
theorem State.part_setPart (s : State) (p j : Nat) (x : Part) : (s.setPart p x).part j = if j = p then some x else s.part j := by
  unfold State.part State.setPart; simp only [aget_aput]
theorem State.getSeq_setSeq (s : State) (h j : Nat) (q : Seq) : (s.setSeq h q).getSeq j = if j = h then q else s.getSeq j := by
  unfold State.setSeq State.getSeq
  by_cases h1 : h = s.hart
  · by_cases h2 : j = s.hart
    · simp [h1, h2]
    · simp [h1, h2]
  · have h1' : ¬ s.hart = h := fun e => h1 e.symm
    by_cases h2 : j = s.hart
    · simp [h1, h1', h2]
    · simp only [h1, h2, if_false, aget_aput]
      by_cases h3 : j = h <;> simp [h3]
theorem State.getSeq_modSeq (s : State) (h j : Nat) (f : Seq → Seq) : (s.modSeq h f).getSeq j = if j = h then f (s.getSeq h) else s.getSeq j :=
  State.getSeq_setSeq s h j _

/-- The running hart's own state. -/
@[simp] theorem State.getSeq_self (s : State) : s.getSeq s.hart = s.seq := by simp [State.getSeq]

/-! ## Sequencing -/

@[simp] theorem Res.bind_ok {α β : Type} (a : α) (s : State) (f : α → State → Res β) : (Res.ok a s).bind f = f a s := rfl
@[simp] theorem Res.bind_trap {α β : Type} (c : Nat) (v : Word) (s : State) (f : α → State → Res β) : (Res.trap c v s).bind f = .trap c v s := rfl
@[simp] theorem Res.bind_stall {α β : Type} (w : Stall) (s : State) (f : α → State → Res β) : (Res.stall w s).bind f = .stall w s := rfl

/-- What a sequence of two parts can answer. -/
theorem Res.bind_eq_ok {α β : Type} {r : Res α} {f : α → State → Res β} {b : β} {t : State} (h : r.bind f = .ok b t) :
    ∃ a s, r = .ok a s ∧ f a s = .ok b t := by
  cases r with
  | ok a s => exact ⟨a, s, rfl, h⟩
  | trap c v s => cases h
  | stall w s => cases h

/-- What the end of an instruction answers. -/
theorem finish_next {r : Res Unit} {t : State} (h : finish r = .next t) :
    (∃ s, r = .ok () s ∧ t = s.retire s.nextPc false) ∨ (∃ c v s, r = .trap c v s ∧ t = s.takeTrap c v) ∨ (∃ w s, r = .stall w s ∧ t = s.stalled w) := by
  cases r with
  | ok a s => cases h; exact .inl ⟨s, rfl, rfl⟩
  | trap c v s => cases h; exact .inr (.inl ⟨c, v, s, rfl, rfl⟩)
  | stall w s => cases h; exact .inr (.inr ⟨w, s, rfl, rfl⟩)

theorem finishAt_next {r : Res (Word × Bool)} {t : State} (h : finishAt r = .next t) :
    (∃ p s, r = .ok p s ∧ t = s.retire p.1 p.2) ∨ (∃ c v s, r = .trap c v s ∧ t = s.takeTrap c v) ∨ (∃ w s, r = .stall w s ∧ t = s.stalled w) := by
  cases r with
  | ok a s => cases h; exact .inl ⟨a, s, rfl, rfl⟩
  | trap c v s => cases h; exact .inr (.inl ⟨c, v, s, rfl, rfl⟩)
  | stall w s => cases h; exact .inr (.inr ⟨w, s, rfl, rfl⟩)


end Sys2Proof.Machine
end

