-- ==== Sys2Proof/Laws/MemoryOps.lean ====
section
/-! SUPPORT. Every shared operation keeps the canonical form of memory, one lemma each, from the writes of single bytes up to taking a trap. -/

namespace Sys2Proof.Machine

/-- The memory of a state is in canonical form. -/
def State.WfMem (s : State) : Prop := Memory.wf s.mem = true

/-- Whatever state a part answers has its memory in canonical form. -/
def Res.WfMem {α : Type} : Res α → Prop
  | .ok _ s => s.WfMem
  | .trap _ _ s => s.WfMem
  | .stall _ s => s.WfMem

theorem Res.wfMem_bind {α β : Type} {r : Res α} {f : α → State → Res β} (h : r.WfMem) (g : ∀ a s, s.WfMem → (f a s).WfMem) : (r.bind f).WfMem := by
  cases r with
  | ok a s => exact g a s h
  | trap c v s => exact h
  | stall w s => exact h

theorem Res.WfMem.of_ok {α : Type} {r : Res α} {a : α} {s : State} (h : r.WfMem) (e : r = .ok a s) : s.WfMem := by subst e; exact h

/-- States with the same memory. -/
theorem State.WfMem.of_eq {s t : State} (h : s.WfMem) (e : t.mem = s.mem) : t.WfMem := by unfold State.WfMem; rw [e]; exact h

theorem foldl_mem {α : Type} (f : State → α → State) (h : ∀ s a, (f s a).mem = s.mem) (l : List α) (s : State) : (l.foldl f s).mem = s.mem := by
  induction l generalizing s with
  | nil => rfl
  | cons a l ih => exact (ih (f s a)).trans (h s a)

theorem foldl_wfMem {α : Type} (f : State → α → State) (h : ∀ s a, s.WfMem → (f s a).WfMem) (l : List α) (s : State) (hs : s.WfMem) : (l.foldl f s).WfMem := by
  induction l generalizing s with
  | nil => exact hs
  | cons a l ih => exact ih (f s a) (h s a hs)

/-! ## Operations that leave memory alone -/

@[simp] theorem State.modLines_mem (s : State) (pa n : Nat) (f : BitVec 32 → DirLine → DirLine) : (s.modLines pa n f).mem = s.mem := by
  unfold State.modLines
  split
  · rfl
  · apply foldl_mem
    intro _ _
    rfl

@[simp] theorem State.poisonRange_mem (s : State) (pa n : Nat) : (s.poisonRange pa n).mem = s.mem := by
  unfold State.poisonRange
  apply foldl_mem
  intro _ _
  rfl

@[simp] theorem State.pWrite_mem (s : State) (core pa : Nat) (bs : List Byte) : (s.pWrite core pa bs).mem = s.mem := by
  induction bs generalizing s pa with
  | nil => rfl
  | cons b bs ih => exact ih _ _

@[simp] theorem State.pStore_mem (s : State) (core pa : Nat) (bs : List Byte) (h : Option Nat) : (s.pStore core pa bs h).mem = s.mem :=
  State.pWrite_mem _ core pa bs

@[simp] theorem State.wakeHome_mem (s : State) (home : Nat) : (s.wakeHome home).mem = s.mem := by
  unfold State.wakeHome; split <;> rfl

@[simp] theorem State.askRod_mem (s : State) (p : Party) (region home : Nat) : (s.askRod p region home).1.mem = s.mem := by
  unfold State.askRod
  repeat' split
  all_goals rfl

@[simp] theorem State.renewRod_mem (s : State) (p : Party) (region : Nat) (w : Bool) (va : Option Word) : (s.renewRod p region w va).mem = s.mem := by
  unfold State.renewRod
  repeat' split
  all_goals rfl

@[simp] theorem State.askRods_mem (s : State) (via : Via) (ls : List Loc) : (s.askRods via ls).1.mem = s.mem := by
  induction ls generalizing s with
  | nil => rfl
  | cons l ls ih =>
    unfold State.askRods
    split
    · simp only
      split
      · exact (ih _).trans (State.askRod_mem ..)
      · exact State.askRod_mem ..
    · exact ih s

@[simp] theorem State.takeRods_mem (s : State) (via : Via) (ls : List Loc) : (s.takeRods via ls).1.mem = s.mem := by
  unfold State.takeRods
  dsimp only
  split
  · refine (foldl_mem _ (fun st l => ?_) _ _).trans (State.askRods_mem ..)
    split
    · exact State.renewRod_mem ..
    · rfl
  · exact State.askRods_mem ..

@[simp] theorem State.passRod_mem (s : State) (region : Nat) (r : Rod) : (s.passRod region r).mem = s.mem := by
  unfold State.passRod
  split <;> rfl

@[simp] theorem State.releaseRod_mem (s : State) (region : Nat) (p : Party) : (s.releaseRod region p).mem = s.mem := by
  unfold State.releaseRod
  split
  · split
    · exact State.passRod_mem ..
    · rfl
  · rfl

@[simp] theorem State.releaseRods_mem (s : State) (p : Party) : (s.releaseRods p).mem = s.mem := by
  show (List.foldl _ s _).mem = _
  exact foldl_mem _ (fun st g => State.releaseRod_mem st g p) _ _

@[simp] theorem State.fireArmed_mem (s : State) (pa n : Nat) : (s.fireArmed pa n).mem = s.mem := by
  unfold State.fireArmed
  simp only
  split
  · rfl
  · refine (foldl_mem _ (fun st a => ?_) _ _).trans rfl
    split <;> rfl

@[simp] theorem State.dropAsks_mem (s : State) (p : Party) : (s.dropAsks p).mem = s.mem := by
  unfold State.dropAsks; split <;> rfl

@[simp] theorem State.peerSend_mem (s : State) (via : Via) (p : Nat) (red : Bool) (m : Sent) : (s.peerSend via p red m).mem = s.mem := by
  unfold State.peerSend; simp only [State.send_mem]

theorem State.peerRead_wfMem (s : State) (via : Via) (l : Loc) (p : Nat) (h : s.WfMem) : (s.peerRead via l p).WfMem := by
  unfold State.peerRead State.peerReadHart State.peerReadAsk
  repeat' split
  all_goals first
    | exact h
    | exact h.of_eq (by simp)

/-! ## Writes -/

/-- The root's log, by which poison and lost partials are reported, writes through putBytes. -/
theorem State.pHome_wfMem (s : State) (pa : Nat) (b : Byte) (h : s.WfMem) : (s.pHome pa b).WfMem := by
  unfold State.pHome
  split
  · exact h
  · exact memSet_wf _ _ _ h

theorem State.pFlush_wfMem (s : State) (core : Nat) (sel : Nat → Bool) (h : s.WfMem) : (s.pFlush core sel).WfMem :=
  foldl_wfMem _ (fun st p hs => State.pHome_wfMem st p.1.2 p.2 hs) _ _ h

theorem State.flushP_wfMem (s : State) (hart : Nat) (h : s.WfMem) : (s.flushP hart).WfMem := by
  unfold State.flushP
  split
  · exact h
  · exact State.pFlush_wfMem _ _ _ h

theorem State.putBytes_wfMem (s : State) (via : Via) (l : Loc) (bs : List Byte) (h : s.WfMem) : (s.putBytes via l bs).WfMem := by
  have hw : Memory.wf (memWrite s.mem l.pa bs) = true := memWrite_wf _ _ _ h
  unfold State.putBytes
  simp only
  split
  · exact h
  · split
    · exact h.of_eq (State.pStore_mem ..)
    · split
      · exact State.WfMem.of_eq (s := { s with mem := memWrite s.mem l.pa bs }) hw (State.modLines_mem ..)
      · exact hw

/-! ## The device's log -/

theorem State.rootPut_wfMem (s : State) (pa : Nat) (bs : List Byte) (h : s.WfMem) : (s.rootPut pa bs).WfMem := State.putBytes_wfMem _ _ _ _ h

theorem State.logEntry_wfMem (s : State) (part : Nat) (e : LogEntry) (h : s.WfMem) : (s.logEntry part e).WfMem := by
  unfold State.logEntry
  split
  · exact h
  · dsimp only
    split
    · exact State.rootPut_wfMem _ _ _ h
    · have h1 := fun (a b : Nat) (x y : List Byte) => State.rootPut_wfMem _ b y (State.rootPut_wfMem s a x h)
      split
      · exact State.WfMem.of_eq (h1 _ _ _ _) (State.sendEvent_mem ..)
      · exact h1 _ _ _ _

/-! ## Reckoning -/

theorem State.losePartial_wfMem (s : State) (word tag core : Nat) (h : s.WfMem) : (s.losePartial word tag core).WfMem :=
  State.logEntry_wfMem _ _ _ (h.of_eq (State.poisonRange_mem ..))

theorem State.bringBack_wfMem (s : State) (line : Nat) (h : s.WfMem) : (s.bringBack line).WfMem := by
  unfold State.bringBack
  split
  · exact h
  · dsimp only
    split
    · exact h
    · refine foldl_wfMem _ (fun st b hs => ?_) _ _ h
      refine foldl_wfMem _ (fun st' p hs' => State.losePartial_wfMem st' _ _ _ hs') _ _ ?_
      exact hs

theorem State.bringLines_wfMem (s : State) (pa n : Nat) (h : s.WfMem) : (s.bringLines pa n).WfMem := by
  unfold State.bringLines
  split
  · exact h
  · exact foldl_wfMem _ (fun st i hs => State.bringBack_wfMem st _ hs) _ _ h

theorem State.reckonWord_wfMem (s : State) (w : Nat) (r : Option Nat) (h : s.WfMem) : (s.reckonWord w r).WfMem := by
  unfold State.reckonWord
  split
  · exact h
  · dsimp only
    have key : ∀ (st : State) (b : Bead) (lost : List Partial), st.WfMem →
        (lost.foldl (fun st p => st.losePartial w b.tag p.core)
          (b.parts.foldl (fun st p => if p.parked.isNone then st.wakeHome p.core else st) st)).WfMem := fun st b lost hs =>
      foldl_wfMem _ (fun st p hs' => State.losePartial_wfMem st _ _ _ hs') _ _
        (hs.of_eq (foldl_mem _ (fun st p => by split <;> simp) _ _))
    repeat' split
    all_goals
      first
        | refine key _ _ _ ?_
          first
            | exact h
            | exact memWrite_wf _ _ _ h
        | refine State.WfMem.of_eq ?_ (State.setXV_mem ..)
          refine key _ _ _ ?_
          first
            | exact h
            | exact memWrite_wf _ _ _ h

theorem State.reckonRange_wfMem (s : State) (pa n : Nat) (r : Option Nat) (h : s.WfMem) : (s.reckonRange pa n r).WfMem :=
  foldl_wfMem _ (fun st w hs => State.reckonWord_wfMem st w r hs) _ _ (State.bringLines_wfMem _ _ _ h)

/-! ## Translation and location -/

theorem State.readPte_wfMem (s : State) (via : Via) (va : Word) (ak : AKind) (a : Nat) (h : s.WfMem) : (s.readPte via va ak a).WfMem := by
  unfold State.readPte
  split
  · exact h
  · dsimp only
    have h1 := State.reckonRange_wfMem _ a 8 none (h.of_eq (State.wakeHome_mem s (bareHome a)))
    split
    · exact h1
    · exact h1

theorem State.walk_wfMem (s : State) (via : Via) (va : Word) (ak : AKind) (base n : Nat) (h : s.WfMem) : (s.walk via va ak base n).WfMem := by
  induction n generalizing s base with
  | zero => exact h
  | succ n ih =>
    unfold State.walk
    refine Res.wfMem_bind (State.readPte_wfMem _ _ _ _ _ h) fun pte s1 h1 => ?_
    dsimp only
    split
    · exact h1
    · split
      · split
        · exact h1
        · split <;> exact h1
      · split
        · exact h1
        · exact ih _ _ h1

theorem State.writePte_wfMem (s : State) (via : Via) (va : Word) (ak : AKind) (a pte : Nat) (h : s.WfMem) : (s.writePte via va ak a pte).WfMem := by
  unfold State.writePte
  split
  · exact h
  · exact State.WfMem.of_eq (s := { s with mem := memWrite s.mem a (leBytes 8 pte) }) (memWrite_wf _ _ _ h) (State.modLines_mem ..)

theorem State.walkFill_wfMem (s : State) (via : Via) (va : Word) (ak : AKind) (h : s.WfMem) : (s.walkFill via va ak).WfMem := by
  unfold State.walkFill
  refine Res.wfMem_bind (State.walk_wfMem _ _ _ _ _ _ h) fun l s1 h1 => ?_
  split
  · exact h1
  · dsimp only
    generalize (l.pte ||| (64 + if ak = .store then 128 else 0)) = pte
    split
    · exact h1.of_eq (State.tlbAdd_mem ..)
    · refine Res.wfMem_bind (State.writePte_wfMem _ _ _ _ _ _ h1) fun _ s2 h2 => ?_
      exact h2.of_eq (State.tlbAdd_mem ..)

theorem State.tlbLookup_wfMem (s : State) (via : Via) (va : Word) (ak : AKind) (h : s.WfMem) : (s.tlbLookup via va ak).WfMem := by
  unfold State.tlbLookup
  split
  · exact h
  · split
    · exact h.of_eq (State.l1Add_mem ..)
    · exact State.walkFill_wfMem _ _ _ _ h

theorem State.xlate_wfMem (s : State) (via : Via) (va : Word) (ak : AKind) (h : s.WfMem) : (s.xlate via va ak).WfMem := by
  have hb : ∀ (c : Prop) [Decidable c] (x : Xlated) (n : Nat), (if c then (.ok x s : Res Xlated) else .trap n va s).WfMem := by
    intro c _ x n; split <;> exact h
  unfold State.xlate
  dsimp only
  split
  · exact hb _ _ _
  · split
    · split
      · exact h
      · split <;> exact h
    · split
      · exact hb _ _ _
      · split
        · exact h
        · exact Res.wfMem_bind (State.tlbLookup_wfMem _ _ _ _ h) fun e s1 h1 => h1

@[simp] theorem State.markLost_mem (s : State) (via : Via) : (s.markLost via).mem = s.mem := by
  unfold State.markLost; split <;> simp

theorem State.unanswered_wfMem (s : State) (via : Via) (ak : AKind) (l : Loc) (h : s.WfMem) : (s.unanswered via ak l).WfMem := by
  unfold State.unanswered
  dsimp only
  split <;> exact h.of_eq (State.markLost_mem ..)

theorem State.reach_wfMem (s : State) (via : Via) (ak : AKind) (l : Loc) (h : s.WfMem) : (s.reach via ak l).WfMem := by
  unfold State.reach
  split
  · split
    · exact h
    · exact h
    · exact State.unanswered_wfMem _ _ _ _ h
  · exact h
  · exact State.unanswered_wfMem _ _ _ _ h

theorem State.locate1_wfMem (s : State) (via : Via) (va : Word) (n : Nat) (ak : AKind) (h : s.WfMem) : (s.locate1 via va n ak).WfMem := by
  refine Res.wfMem_bind (State.xlate_wfMem s via va ak h) fun x t ht => ?_
  split
  · exact ht
  · split
    · exact ht
    · split
      · exact ht
      · split
        · split
          · exact ht
          · exact State.reach_wfMem _ _ _ _ ht
        · exact State.reach_wfMem _ _ _ _ ht

theorem State.locateAll_wfMem (s : State) (via : Via) (ak : AKind) (ps : List (Word × Nat)) (h : s.WfMem) : (s.locateAll via ak ps).WfMem := by
  induction ps generalizing s with
  | nil => exact h
  | cons p ps ih =>
    exact Res.wfMem_bind (State.locate1_wfMem _ _ _ _ _ h) fun l s1 h1 => Res.wfMem_bind (ih s1 h1) fun ls s2 h2 => h2

theorem State.locate_wfMem (s : State) (via : Via) (va : Word) (n : Nat) (ak : AKind) (h : s.WfMem) : (s.locate via va n ak).WfMem :=
  State.locateAll_wfMem _ _ _ _ h

/-! ## Reads and stores -/

theorem State.readLine_wfMem (s : State) (via : Via) (l : Loc) (h : s.WfMem) : (s.readLine via l).WfMem := by
  unfold State.readLine
  dsimp only
  split <;> exact h

theorem State.readCopy_wfMem (s : State) (via : Via) (l : Loc) (h : s.WfMem) : (s.readCopy via l).WfMem := h

theorem State.readSpan_wfMem (s : State) (via : Via) (l : Loc) (h : s.WfMem) : (s.readSpan via l).WfMem := by
  have h1 := State.reckonRange_wfMem s l.pa l.len via.hart h
  unfold State.readSpan
  dsimp only
  split
  · exact h1
  · refine State.WfMem.of_eq h1 ?_
    split
    · rfl
    · exact State.modLines_mem ..

theorem State.readHbm_wfMem (s : State) (via : Via) (l : Loc) (inv : Bool) (h : s.WfMem) : (s.readHbm via l inv).WfMem := by
  have h1 : (s.wakeHome l.home).WfMem := h.of_eq (State.wakeHome_mem ..)
  unfold State.readHbm
  dsimp only
  split
  · exact h1
  · split
    · exact State.readLine_wfMem _ _ _ h1
    · have h2 := State.bringLines_wfMem _ l.pa l.len h1
      split
      · split
        · exact State.readSpan_wfMem _ _ _ h1
        · split
          · exact State.readCopy_wfMem _ _ _ h2
          · exact h2
      · split
        · exact State.readSpan_wfMem _ _ _ h1
        · split
          · exact State.readCopy_wfMem _ _ _ h2
          · exact h2
      · exact h1

theorem State.readRounded_wfMem (s : State) (via : Via) (l : Loc) (c o : Nat) (h : s.WfMem) : (s.readRounded via l c o).WfMem := by
  unfold State.readRounded
  dsimp only
  split
  · split
    · exact h
    · refine State.WfMem.of_eq h ?_
      split
      · split <;> simp
      · rfl
  · exact h

@[simp] theorem State.freeBytes_mem (s : State) (n : Nat) : (s.freeBytes n).2.mem = s.mem := by
  induction n generalizing s with
  | zero => rfl
  | succ n ih => exact (ih _).trans rfl

theorem State.readLoc_wfMem (s : State) (via : Via) (l : Loc) (inv : Bool) (h : s.WfMem) : (s.readLoc via l inv).WfMem := by
  unfold State.readLoc
  split
  · exact h.of_eq (State.freeBytes_mem ..)
  · exact h
  · exact State.peerRead_wfMem _ _ _ _ h
  · exact h
  · exact h
  · exact State.readRounded_wfMem _ _ _ _ _ h
  · exact State.readHbm_wfMem _ _ _ _ h
  · split <;> exact h
  · split <;> exact h

theorem State.readLocs_wfMem (s : State) (via : Via) (inv : Bool) (ls : List Loc) (h : s.WfMem) : (s.readLocs via inv ls).WfMem := by
  induction ls generalizing s with
  | nil => exact h
  | cons l ls ih => exact Res.wfMem_bind (State.readLoc_wfMem _ _ _ _ h) fun b s1 h1 => Res.wfMem_bind (ih s1 h1) fun bs s2 h2 => h2

theorem State.readBytes_wfMem (s : State) (via : Via) (va : Word) (n : Nat) (inv : Bool) (h : s.WfMem) : (s.readBytes via va n inv).WfMem :=
  Res.wfMem_bind (State.locate_wfMem _ _ _ _ _ h) fun _ _ h1 => State.readLocs_wfMem _ _ _ _ h1

theorem State.mergeSpans_wfMem (s : State) (via : Via) (ls : List Loc) (h : s.WfMem) : (s.mergeSpans via ls).WfMem := by
  refine foldl_wfMem _ (fun st k hs => ?_) _ _ h
  dsimp only
  split
  · exact hs
  · split
    · exact State.reckonRange_wfMem _ _ _ _ hs
    · exact State.WfMem.of_eq (State.reckonRange_wfMem _ _ _ _ hs) (State.modLines_mem ..)

@[simp] theorem State.inFlight_mem (s : State) (via : Via) (va : Word) (n : Nat) : (s.inFlight via va n).mem = s.mem := by
  unfold State.inFlight; split <;> simp

@[simp] theorem State.noteWrite_mem (s : State) (via : Via) (l : Loc) (n : Nat) : (s.noteWrite via l n).mem = s.mem := by
  unfold State.noteWrite; repeat' split
  all_goals rfl

theorem State.writeLoc_wfMem (s : State) (via : Via) (l : Loc) (bs : List Byte) (h : s.WfMem) : (s.writeLoc via l bs).WfMem := by
  unfold State.writeLoc
  split
  · split
    · exact h.of_eq (State.peerSend_mem ..)
    · exact h
  · exact h
  · exact h.of_eq (State.inFlight_mem ..)
  · refine State.WfMem.of_eq (State.putBytes_wfMem _ _ _ _ ?_) (State.noteWrite_mem ..)
    split
    · exact State.reckonRange_wfMem _ _ _ _ h
    · exact h

theorem State.writeLocs_wfMem (s : State) (via : Via) (ls : List Loc) (bs : List Byte) (h : s.WfMem) : (s.writeLocs via ls bs).WfMem := by
  induction ls generalizing s bs with
  | nil => exact h
  | cons l ls ih => exact ih _ _ (State.writeLoc_wfMem _ _ _ _ h)

/-- What a store meets before its rods changes nothing. -/
theorem State.storeCheck_wfMem (s : State) (via : Via) (ls : List Loc) (h : s.WfMem) : (s.storeCheck via ls).WfMem := by
  induction ls with
  | nil => exact h
  | cons l ls ih =>
    unfold State.storeCheck
    split
    · exact h
    · exact h
    · split
      · exact h
      · split
        · exact h
        · exact ih
    · exact ih

theorem State.storeReady_wfMem (s : State) (via : Via) (ls : List Loc) (h : s.WfMem) : (s.storeReady via ls).WfMem := by
  refine Res.wfMem_bind (State.storeCheck_wfMem _ _ _ h) fun _ s1 h1 => ?_
  have h2 : (s1.takeRods via ls).1.WfMem := h1.of_eq (State.takeRods_mem ..)
  dsimp only
  split <;> exact h2

theorem State.storeLocs_wfMem (s : State) (via : Via) (ls : List Loc) (bs : List Byte) (h : s.WfMem) : (s.storeLocs via ls bs).WfMem :=
  Res.wfMem_bind (State.storeReady_wfMem _ _ _ h) fun _ s1 h1 => State.writeLocs_wfMem _ _ _ _ h1

theorem State.writeBytes_wfMem (s : State) (via : Via) (va : Word) (bs : List Byte) (h : s.WfMem) : (s.writeBytes via va bs).WfMem :=
  Res.wfMem_bind (State.locate_wfMem _ _ _ _ _ h) fun ls s1 h1 => State.storeLocs_wfMem s1 via ls bs h1

theorem State.homeView_wfMem (s : State) (via : Via) (l : Loc) (h : s.WfMem) : (s.homeView via l).WfMem := by
  unfold State.homeView
  dsimp only
  split
  · exact State.pFlush_wfMem _ _ _ h
  · exact h

theorem State.rmwReady_wfMem (s : State) (via : Via) (l : Loc) (reads : Bool) (h : s.WfMem) : (s.rmwReady via l reads).WfMem := by
  have h0 := State.homeView_wfMem s via l h
  unfold State.rmwReady
  dsimp only
  have h1 : (if l.t = .hbm then (s.homeView via l).wakeHome l.home else (s.homeView via l)).WfMem := by
    split
    · exact h0.of_eq (State.wakeHome_mem ..)
    · exact h0
  split
  · exact State.reckonRange_wfMem _ _ _ _ h1
  · exact h1

theorem State.atHome_wfMem (s : State) (via : Via) (l : Loc) (reads : Bool) (h : s.WfMem) : (s.atHome via l reads).2.WfMem := by
  unfold State.atHome
  split
  · exact h
  · exact State.rmwReady_wfMem _ _ _ _ h

theorem State.rmwDone_wfMem (s : State) (via : Via) (l : Loc) (f : Nat → Option Nat) (h : s.WfMem) : (s.rmwDone via l f).2.WfMem := by
  unfold State.rmwDone
  dsimp only
  split
  · exact h
  · dsimp only
    split
    · exact State.WfMem.of_eq (State.putBytes_wfMem _ _ _ _ h) (State.fireArmed_mem ..)
    · exact State.putBytes_wfMem _ _ _ _ h

theorem State.rmw_wfMem (s : State) (via : Via) (l : Loc) (reads : Bool) (f : Nat → Option Nat) (h : s.WfMem) : (s.rmw via l reads f).2.WfMem :=
  State.rmwDone_wfMem _ _ _ _ (State.rmwReady_wfMem _ _ _ _ h)

/-! ## The device's own writes, and taking a trap -/

/-- A write of the front end: refused, done, or waiting for a rod. -/
theorem State.frontTry_wfMem (s : State) (w : FrontWork) (h : s.WfMem) : (s.frontTry w).1.WfMem := by
  unfold State.frontTry
  dsimp only
  have hl := State.locate_wfMem s (s.viaQueue w.part w.qid) w.va w.bytes.length .store h
  split
  · rename_i ls s1 e
    have h1 : s1.WfMem := hl.of_ok e
    split
    · exact h1
    · split
      · exact h1
      · have h2 := State.storeReady_wfMem s1 (s.viaQueue w.part w.qid) ls h1
        split
        · rename_i e2
          have h3 := fun bs => State.writeLocs_wfMem _ (s.viaQueue w.part w.qid) ls bs (h2.of_ok e2)
          split
          · exact h3 _
          · exact State.WfMem.of_eq (h3 _) (State.releaseRods_mem ..)
        · rename_i e2; rw [e2] at h2; exact h2
        · rename_i e2; rw [e2] at h2; exact h2
  · rename_i e; rw [e] at hl; exact hl
  · rename_i e; rw [e] at hl; exact hl

theorem State.frontWrite_wfMem (s : State) (part qid : Nat) (why : FrontWhy) (va : Word) (bs : List Byte) (h : s.WfMem) :
    (s.frontWrite part qid why va bs).1.WfMem := by
  have h1 := State.frontTry_wfMem s { part := part, qid := qid, why := why, va := va, bytes := bs } h
  unfold State.frontWrite
  dsimp only
  split
  · exact h1
  · split
    · exact h
    · split <;> exact h1

@[simp] theorem State.queueBad_mem (s : State) (q : Queue) : (s.queueBad q).mem = s.mem := by
  unfold State.queueBad
  split
  · rfl
  · exact (State.sendEvent_mem ..).trans rfl

theorem State.putLive_wfMem (s : State) (q : Queue) (off : Nat) (bs : List Byte) (h : s.WfMem) : (s.putLive q off bs).WfMem := by
  unfold State.putLive
  have hf := State.frontWrite_wfMem s q.part q.qid .live (q.va off) bs h
  split
  · exact h
  · split
    · rename_i e; rw [e] at hf; exact hf
    · rename_i e
      rw [e] at hf
      split
      · exact hf.of_eq (State.queueBad_mem ..)
      · exact hf

theorem State.leaveThread_wfMem (s : State) (q : Queue) (h : s.WfMem) : (s.leaveThread q).WfMem :=
  State.putLive_wfMem _ _ _ _ (State.putLive_wfMem _ _ _ _ h)

theorem State.putRecord_wfMem (s : State) (q : Queue) (bs : List Byte) (h : s.WfMem) : (s.putRecord q bs).WfMem := by
  unfold State.putRecord
  split
  · exact State.frontWrite_wfMem _ _ _ _ _ _ h
  · exact h

theorem State.afterError_wfMem (s : State) (part qid : Nat) (stops : Bool) (h : s.WfMem) : (s.afterError part qid stops).WfMem := by
  unfold State.afterError
  split
  · exact h
  · split
    · exact State.leaveThread_wfMem _ _ h
    · split
      · exact State.putLive_wfMem _ _ _ _ h
      · exact h

theorem State.queueError_wfMem (s : State) (part qid code pkt utag : Nat) (args : List Word) (h : s.WfMem) :
    (s.queueError part qid code pkt utag args).WfMem := by
  unfold State.queueError
  split
  · exact h
  · refine State.afterError_wfMem _ _ _ _ (State.WfMem.of_eq (State.putLive_wfMem _ _ _ _ ?_) (State.sendEvent_mem ..))
    exact (State.putRecord_wfMem _ _ _ h).of_eq rfl

theorem State.frontFault_wfMem (s : State) (w : FrontWork) (c : Nat) (h : s.WfMem) : (s.frontFault w c).WfMem := by
  unfold State.frontFault
  split
  · split
    · exact h.of_eq (State.queueBad_mem ..)
    · exact h
  · exact State.queueError_wfMem _ _ _ _ _ _ _ h
  · exact State.logEntry_wfMem _ _ _ h
  · exact h

theorem State.frontDrain_wfMem (s : State) (n i : Nat) (h : s.WfMem) : (s.frontDrain n i).WfMem := by
  induction n generalizing s i with
  | zero => exact h
  | succ n ih =>
    unfold State.frontDrain
    split
    · exact h
    · rename_i w _
      dsimp only
      have ht := State.frontTry_wfMem s w h
      split
      · exact ih _ _ h
      · split
        · exact ih _ _ h
        · split
          · exact ih _ _ (State.frontFault_wfMem _ _ _ ht)
          · exact ih _ _ ht
          · exact ih _ _ ht

theorem State.launchWrite_wfMem (s : State) (l : Launch) (w : Nat) (va : Word) (bs : List Byte) (h : s.WfMem) : (s.launchWrite l w va bs).WfMem := by
  unfold State.launchWrite
  have hf := State.frontWrite_wfMem s l.part l.qid (.report w) va bs h
  split
  · rename_i s1 e; rw [e] at hf; exact hf
  · rename_i s1 c e; rw [e] at hf; exact State.logEntry_wfMem _ _ _ hf

theorem State.errRecord_wfMem (s : State) (launch cause hart flags lin : Nat) (epc tval i0 i1 : Word) (h : s.WfMem) :
    (s.errRecord launch cause hart flags lin epc tval i0 i1).WfMem := by
  unfold State.errRecord State.errHeader
  split
  · exact h
  · split
    · exact h
    · split
      · exact State.launchWrite_wfMem _ _ _ _ _ (h.of_eq (State.setLaunch_mem ..))
      · exact State.launchWrite_wfMem _ _ _ _ _ (State.launchWrite_wfMem _ _ _ _ _ (h.of_eq (State.setLaunch_mem ..)))

theorem State.reportTrap_wfMem (s : State) (hart cause : Nat) (epc tval : Word) (h : s.WfMem) : (s.reportTrap hart cause epc tval).WfMem := by
  unfold State.reportTrap
  dsimp only
  have h1 := fun (q : Seq) (p : Nat) (e : LogEntry) => State.logEntry_wfMem (s.setSeq hart q) p e (h.of_eq (State.setSeq_mem ..))
  split
  · exact h1 _ _ _
  · split
    · exact State.WfMem.of_eq (h1 _ _ _) (State.modLaunch_mem ..)
    · exact State.errRecord_wfMem _ _ _ _ _ _ _ _ _ _ (h1 _ _ _)

theorem State.takeTrap_wfMem (s : State) (cause : Nat) (tval : Word) (h : s.WfMem) : (s.takeTrap cause tval).WfMem := by
  unfold State.takeTrap State.supTrap
  dsimp only
  split
  · split
    · exact h.of_eq (by simp)
    · exact h.of_eq (by simp)
  · refine State.WfMem.of_eq ?_ (State.upd_mem ..)
    split
    · exact State.reportTrap_wfMem _ _ _ _ _ h
    · exact h

theorem State.retire_wfMem (s : State) (next : Word) (jump : Bool) (h : s.WfMem) : (s.retire next jump).WfMem := by
  obtain ⟨_, _, _, _, _, e⟩ := retire_seq s next jump
  rw [e]; exact h

theorem State.ringRecord_wfMem (s : State) (i : VInfo) (h : s.WfMem) : (s.ringRecord i).WfMem := by
  unfold State.ringRecord
  dsimp only
  refine State.WfMem.of_eq ?_ (State.upd_mem ..)
  split
  · exact State.putBytes_wfMem _ _ _ _ h
  · exact h

/-- An instruction whose part keeps the form keeps it. -/
theorem finish_wfMem {r : Res Unit} {t : State} (h : r.WfMem) (e : finish r = .next t) : t.WfMem := by
  rcases finish_next e with ⟨s, rfl, rfl⟩ | ⟨c, v, s, rfl, rfl⟩ | ⟨w, s, rfl, rfl⟩
  · exact State.retire_wfMem _ _ _ h
  · exact State.takeTrap_wfMem _ _ _ h
  · exact State.WfMem.of_eq h (State.stalled_mem ..)

theorem finishAt_wfMem {r : Res (Word × Bool)} {t : State} (h : r.WfMem) (e : finishAt r = .next t) : t.WfMem := by
  rcases finishAt_next e with ⟨p, s, rfl, rfl⟩ | ⟨c, v, s, rfl, rfl⟩ | ⟨w, s, rfl, rfl⟩
  · exact State.retire_wfMem _ _ _ h
  · exact State.takeTrap_wfMem _ _ _ h
  · exact State.WfMem.of_eq h (State.stalled_mem ..)

theorem finishV_wfMem {r : Res VInfo} {t : State} (h : r.WfMem) (e : finishV r = .next t) : t.WfMem := by
  refine finish_wfMem ?_ e
  refine Res.wfMem_bind h fun i s hs => ?_
  exact State.WfMem.of_eq (State.ringRecord_wfMem s i hs) (State.upd_mem ..)

theorem finishEvent_wfMem {r : Res Unit} {t : State} (h : r.WfMem) (e : finishEvent r = .next t) : t.WfMem := by
  cases r with
  | ok a s => cases e; exact h
  | trap c v s => cases e; exact h
  | stall w s => cases e; exact h

/-- Making another hart the running one, and a free draw, leave memory alone. -/
@[simp] theorem State.switch_mem (s : State) (h : Nat) : (s.switch h).mem = s.mem := by unfold State.switch; split <;> rfl
@[simp] theorem State.draw_mem (s : State) : s.draw.2.mem = s.mem := rfl

end Sys2Proof.Machine
end

