-- ==== Sys2Proof/Laws/Completion.lean ====
section
/-! SUPPORT. From the end of an instruction to the terms of the statements: what an instruction that completes leaves unchanged. -/

namespace Sys2Proof.Machine.Claim

/-- Retiring changes what `Retired` says, and nothing else. -/
theorem retired_retire (e : State) (next : Word) (jump : Bool) : Retired e next (e.retire next jump) := by
  have hp := retire_pc e next jump
  obtain ⟨pc, loops, edge, cgen, form, h⟩ := retire_seq e next jump
  rw [h] at hp ⊢
  exact ⟨rfl, rfl, fun _ => rfl, fun hl ht => hp hl ht⟩

/-- An instruction that ends by `finish` with the effect `e` completes with it. -/
theorem completes_of_finish {i : Instr} {s e : State} (h : exec i s = finish (.ok () e)) : Completes i s e :=
  ⟨_, h, retired_retire e e.nextPc false⟩

/-- One that ends by `finishAt` goes where it says. -/
theorem jumps_of_finishAt {i : Instr} {s e : State} {next : Word} {jump : Bool} (h : exec i s = finishAt (.ok (next, jump) e)) : Jumps i s e next :=
  ⟨_, h, retired_retire e next jump⟩

/-- A vector instruction that ends by `finishV` completes with its record. -/
theorem vcompletes_of_finishV {i : Instr} {s e : State} {info : VInfo} (h : exec i s = finishV (.ok info e)) :
    ∃ t, exec i s = .next t ∧ Retired ((e.ringRecord info).upd Seq.vecDirty) (((e.ringRecord info).upd Seq.vecDirty).nextPc) t :=
  ⟨_, h, retired_retire _ _ false⟩

/-- Writing one x register and going on changes nothing else. -/
theorem onlyX_of_setX (s : State) (rd : Reg) (v : Word) : OnlyX s rd v ((s.setX rd v).retire (s.setX rd v).nextPc false) := by
  have hf := retire_falls (s.setX rd v) (s.setX rd v).nextPc
  obtain ⟨pc, loops, edge, cgen, form, h⟩ := retire_seq (s.setX rd v) (s.setX rd v).nextPc false
  rw [h] at hf ⊢
  have hx (r : Reg) : (s.setX rd v).x r = if r = rd ∧ rd ≠ 0 then v else s.x r := State.x_setX s rd r v
  have hq : (s.setX rd v).seq = { s.seq with x := (s.setX rd v).seq.x } := Seq.wx_eq s.seq rd v
  have hn : (s.setX rd v).nextPc = s.nextPc := by
    show (s.setX rd v).seq.pc + _ = _
    rw [hq]; rfl
  refine ⟨?_, ?_, ?_, ?_, ?_, rfl, fun _ => rfl, ?_⟩
  · show (s.setX rd v).x rd = _
    rw [hx]
    by_cases h0 : rd = 0
    · subst h0; rw [if_neg (fun c : (0 : Reg) = 0 ∧ (0 : Reg) ≠ 0 => c.2 rfl), if_pos rfl]; exact State.x_zero s
    · rw [if_pos ⟨rfl, h0⟩, if_neg h0]
  · intro r hr
    show (s.setX rd v).x r = _
    rw [hx, if_neg (fun c : r = rd ∧ rd ≠ 0 => hr c.1)]
  · intro r
    show (s.setX rd v).f r = _
    simp
  · show (s.setX rd v).seq.fflags = _ ∧ (s.setX rd v).seq.frm = _ ∧ (s.setX rd v).seq.ctl.xsflags = _
    rw [hq]; exact ⟨rfl, rfl, rfl⟩
  · show RetiredFrom _ { (s.setX rd v).seq with pc := pc, loops := loops, atEdge := edge, stall := none, since := none, peerGot := [], elems := [], armed := none,
                                                priv := { (s.setX rd v).seq.priv with minstret := (s.setX rd v).seq.priv.minstret + 1 },
                                                ctl := { (s.setX rd v).seq.ctl with cgen := cgen },
                                                latch := { (s.setX rd v).seq.latch with form := form } }
    rw [hq]; rfl
  · intro hl
    rw [← hn]
    refine hf ?_
    rw [hq]; exact hl

end Sys2Proof.Machine.Claim
end

