-- ==== Sys2Proof/Tests/Slice0.lean ====
section
/-! SUPPORT. Tests of the model: ill-formed terms that the checks refuse, words and bytes of the spec's worked encodings,
and the results of its worked examples. Each test's comment names where its expected result stands. -/

namespace Sys2Proof.Machine.Tests

set_option Elab.async false

/-! ## Ill-formed terms (R87) -/

theorem test_wf_loop_distance : Instr.wellFormed (.loop 1 4) = false := by decide
theorem test_wf_loopi_distance : Instr.wellFormed (.loopi 3 4) = false := by decide
theorem test_wf_lidx_level : Instr.wellFormed (.lidx 5 6) = false := by decide
theorem test_wf_lcnt_level : Instr.wellFormed (.lcnt 5 6) = false := by decide
theorem test_wf_lbrk_level : Instr.wellFormed (.lbrk 6) = false := by decide
theorem test_wf_vsetvlz_target : Instr.wellFormed (.vsetvlz 5 10 0xD0 2) = false := by decide
theorem test_wf_load_scope : Instr.wellFormed (.ldAq 3 0 1 2) = false := by decide
theorem test_wf_store_scope : Instr.wellFormed (.stRl 3 0 1 2) = false := by decide
theorem test_wf_fence_scope : Instr.wellFormed (.fenceS 3) = false := by decide
theorem test_wf_red_tag : Instr.wellFormed (.red 0 1 2 3) = false := by decide
theorem test_wf_red_scope : Instr.wellFormed (.red 1 3 2 3) = false := by decide
theorem test_wf_bupd_tag : Instr.wellFormed (.bupd 0 2 3) = false := by decide
theorem test_wf_amo_number : Instr.wellFormed (.amoScoped 10 true 1 1 2 3) = false := by decide
theorem test_wf_stream_number : Instr.wellFormed (.scfg 1 2 4) = false := by decide
theorem test_wf_pair_guard : Instr.wellFormed (.pair 0 false (.alu .add 10 10 11) (.vmpush 1)) = false := by decide
theorem test_wf_pair_member : Instr.wellFormed (.pair 12 false (.lidx 5 6) (.vmpush 1)) = false := by decide
theorem test_wf_standard_cas : Instr.wellFormed (.standardAmo .cas true false false 1 2 3) = false := by decide
theorem test_wf_lr_source : Instr.wellFormed (.standardAmo .lr true false false 1 2 3) = false := by decide
theorem test_wf_fence_tso : Instr.wellFormed (.fence .tso 3 2) = false := by decide
theorem test_wf_shift_amount : Instr.wellFormed (.aluImm .slli 1 1 64) = false := by decide
theorem test_wf_hint_space : Instr.wellFormed (.aluImm .slti 0 1 1) = false := by decide
theorem test_wf_branch_offset : Instr.wellFormed (.branch .beq 1 2 (2 ^ 40)) = false := by decide
theorem test_wf_fp_source : Instr.wellFormed (.fpOp .sqrt .d 1 2 3 0 0) = false := by decide
theorem test_wf_fp_same_format : Instr.wellFormed (.fpOp .ofS .s 1 2 0 0 0) = false := by decide
theorem test_wf_cluster : Instr.wellFormed (.lgrantWrite 64 0) = false := by decide
theorem test_wf_core : Instr.wellFormed (.rejoin 1024) = false := by decide
theorem test_wf_lane_group : Instr.wellFormed (.laneRetire 0 8) = false := by decide
theorem test_wf_sequencer : Instr.wellFormed (.haltRequest 4096) = false := by decide
theorem test_wf_hart : Instr.wellFormed (.pageWalkComplete 4160 0 false) = false := by decide
theorem test_wf_agent : Instr.wellFormed (.draw 9) = false := by decide
theorem test_wf_die : Instr.wellFormed (.plimitWrite 4 3200) = false := by decide
theorem test_wf_host_tag : Instr.wellFormed (.fhtNotifyRed 1 ⟨0, 0, 0, 7460, false, 1, 3, 0x2200, 0, 0, 0, 0, 0, 0, []⟩) = false := by decide

/-! ## Encodings: words and Lammel bytes written out in the spec -/

-- 07, worked loop after R95.
theorem test_word_loopi : decode32 0x00C1900B = some (.loopi 3 24) := by decide
theorem test_word_lidx : decode32 0x0010230B = some (.lidx 6 1) := by decide
-- R242, R244, R245, and the worked lines of R231, R234, R236 and R239.
theorem test_word_barWg : decode32 0x0A0062AB = some (.barWg 5) := by decide
theorem test_word_waitGe : decode32 0x6CC5A52B = some (.waitGe 10 11 12 13) := by decide
theorem test_word_vwait : decode32 0x1A85A25B = some (.vwait true 4 8 11) := by decide
theorem test_word_red : decode32 0x0A65402B = some (.red 1 1 6 10) := by decide
theorem test_word_bupd : decode32 0xF065402B = some (.bupd 14 6 10) := by decide
theorem test_word_amo : decode32 0x1AB6552B = some (.amoScoped 1 true 1 10 11 12) := by decide
theorem test_word_bankArm : decode32 0x06C5E52B = some (.bankArm 10 11 12) := by decide
-- 08 (R115), 10 (R145, R152), 11, 12, 16, 18: their worked encodings.
theorem test_word_vsetvlz : decode32 0x6D05528B = some (.vsetvlz 5 10 0xD0 12) := by decide
theorem test_word_ldAq : decode32 0x0C05852B = some (.ldAq 1 2 10 11) := by decide
theorem test_word_stRl : decode32 0x266E002B = some (.stRl 0 3 6 28) := by decide
theorem test_word_cp2d : decode32 0x26C59E2B = some (.cp2d 28 11 12 4) := by decide
theorem test_word_vmxscale : decode32 0x0B00115B = some (.vmxscale true 2 16 0) := by decide
theorem test_word_vfcvtE2 : decode32 0x0301145B = some (.vfcvtE2 true 8 16 2) := by decide
theorem test_word_mma : decode32 0x08D6017B = some (.mmaE4e4 2 12 13 1) := by decide
theorem test_word_mst : decode32 0x02F7297B = some (.mstBf16 2 14 15) := by decide
theorem test_word_msend : decode32 0x00C5F52B = some (.msend 10 11 12) := by decide
theorem test_word_texdec : decode32 0x0642345B = some (.texdec true 8 4 4) := by decide
theorem test_word_clzx : decode32 0x08C5B50B = some (.clzx 10 11 12) := by decide
-- R80 and the ratified encodings: fields written out bit by bit, funct7 rs2 rs1 funct3 rd opcode.
theorem test_word_add : decode32 0b0000000_01011_01010_000_01010_0110011 = some (.alu .add 10 10 11) := by decide
theorem test_word_ld : decode32 0b000000001000_00010_011_00101_0000011 = some (.scalarLoad .ld 5 2 8) := by decide
theorem test_word_sd : decode32 0b0000000_00101_00010_011_01000_0100011 = some (.scalarStore .sd 5 2 8) := by decide
theorem test_word_beq : decode32 0b0000000_01011_01010_000_10000_1100011 = some (.branch .beq 10 11 16) := by decide
theorem test_word_csrrw : decode32 0b100000000001_00101_001_00000_1110011 = some (.csrAccess .rw false 0 5 0x801) := by decide
theorem test_word_vadd : decode32 0b000000_1_00010_00011_000_00001_1010111 = some (.vectorArithmetic 0 true 2 3 0 1) := by decide
theorem test_word_fadd_d : decode32 0b0000001_00011_00010_000_00001_1010011 = some (.fpOp .add .d 1 2 3 0 0) := by decide
-- R87: scope 3, tag 0 and a reserved field decode to a reserved form or to no instruction.
theorem test_word_custom3_bit9 : decode32 0x08D6037B = none := by decide
-- R65 to R67: the worked Lammel lines.
theorem test_lammel_addi : decodeLammel 32 [0x13, 0x05, 0x05, 0xD0, 0x0F] = .ok (.aluImm .addi 5 5 1000) 5 := by decide
theorem test_lammel_bne : decodeLammel 32 [0x33, 0x0A, 0x0B, 0x1F] = .ok (.branch .bne 10 11 (0 - 16)) 4 := by decide
theorem test_lammel_pair : decodeLammel 32 [0x00, 0x0C, 0x63, 0x0A, 0x10, 0xAC, 0x02, 0x81, 0x82, 0x83, 0x00] =
    .ok (.pair 12 false (.aluImm .addi 10 10 8) (.vectorArithmetic 0 true 2 3 1 1)) 11 := by decide
theorem test_lammel_mma : decodeLammel 32 [0x80, 0x22, 0xC1, 0x0A, 0x0B, 0x43] = .ok (.mmaE4e4 1 10 11 3) 6 := by decide
theorem test_lammel_vsetvlz : decodeLammel 32 [0x8E, 0x20, 0x05, 0x0A, 0xA0, 0x03, 0x18] = .ok (.vsetvlz 5 10 0xD0 12) 7 := by decide
theorem test_lammel_amo : decodeLammel 32 [0x96, 0x21, 0x0A, 0x0B, 0x00, 0x0C] = .ok (.amoScoped 1 true 1 10 11 12) 6 := by decide

/-! ## Results of worked examples -/

-- R97, R98 and their worked line.
theorem test_bilv3_first : evalBilv3 6 0 = 0x48 := by decide
theorem test_bilv3_second : evalBilv3 3 0x48 = 0x99 := by decide
theorem test_bilv3_third : evalBilv3 5 0x99 = 0x173 := by decide
theorem test_bdlv3 : evalBdlv3 0x173 1 = 3 := by decide
theorem test_clzx_differing : evalClzx 371 375 0 = 61 := by decide
theorem test_clzx_equal : evalClzx 371 371 3 = 126 := by decide
theorem test_fold : evalFold 0x01000800 4 = 9 := by decide
-- R56: the home of the base line and of line 1 over cores 80 to 95.
theorem test_home_base : HomeEntry.home ⟨0xA0000000, 0xFFFF <<< 80, false⟩ 0x80040000 = 89 := by decide +kernel
theorem test_home_line1 : HomeEntry.home ⟨0xA0000000, 0xFFFF <<< 80, false⟩ 0x80041000 = 91 := by decide +kernel

/-- The grid header of the worked line of R18: NLEV 3, WGLEVEL 0, W 4, 6, 2, WALK 0, 2, 1, N 16, 40, 3. -/
def grid : List Byte :=
  leBytes 4 0x0101 ++ [3, 0, 0, 0] ++ [4, 6, 2, 0, 0, 0] ++ [0, 2, 1, 0, 0, 0] ++ leBytes 4 0 ++ leBytes 8 16 ++ leBytes 8 40 ++ leBytes 8 3

def gridTask (l : Nat) : Nat := [5, 7, 2].getD l 0

theorem test_grid_size : gridTotal grid = 1920 ∧ gridWg grid = 16 := by decide +kernel
theorem test_grid_wid : widOf grid gridTask = 0x875 := by decide +kernel
theorem test_grid_lin : linOf grid gridTask = 373 := by decide +kernel

-- R285: an edge four pixels down, pixels (1, 0) and (-1, 0).
theorem test_edge_right : edgeValue 0 0 0 1024 true 1 0 = 393216 := by decide
theorem test_edge_left : edgeValue 0 0 0 1024 true (-1) 0 = -131072 := by decide

/-- The 4 × 4 RGBA8 texture of the worked line of R291. -/
def texture : Texture := { base := 0x1000, pitch := 16, width := 4, height := 4, fmt := 0, filt := 1, mu := 0, mv := 0 }

theorem test_tex_footprint : texture.foot (0x3EA00000 + 0x3F000000 * 2 ^ 32) = ⟨0, 1, 192, 1, 2, 128⟩ := by decide +kernel
theorem test_tex_red : sampleChan 0 0 [(0, 8192), (255, 24576), (100, 8192), (200, 24576)] = 0x3F37D7D8 := by decide +kernel
theorem test_tex_alpha : sampleChan 0 3 [(0xFF000000, 8192), (0xFF000000, 24576), (0xFF000000, 8192), (0xFF000000, 24576)] = 0x3F800000 := by
  decide +kernel

-- R295: the box from (2, -1, -1) to (4, 1, 1) on the ray along x.
theorem test_boxt : boxHit (fun k => [0, 0, 0, 0x3F800000, 0, 0, 0x3F800000, 0x7F800000, 0x7F800000, 0, 0x42C80000].getD k 0)
    (fun k => [0x40000000, 0xBF800000, 0xBF800000, 0x40800000, 0x3F800000, 0x3F800000].getD k 0) = 0x40000000 := by decide +kernel

-- R171 to R173: the FP32 block 7.0, 0.3, -2.5, 1.0.
theorem test_mx_scale : scaleOf .e2 ([0x40E00000, 0x3E99999A, 0xC0200000, 0x3F800000].map fmt32.unpack ++ List.replicate 28 (fmt32.unpack 0)) = 0x4E7F := by
  decide +kernel
theorem test_mx_extra : (narrow .e2 .rne (fmt32.unpack 0x40E00000) 0x7F 0x4E).1 = 8 := by decide +kernel
theorem test_mx_nearest : (narrow .e2 .rne (fmt32.unpack 0x3E99999A) 0x7F 0x4E).1 = 1 := by decide +kernel
theorem test_mx_tie : (narrow .e2 .rne (fmt32.unpack 0xC0200000) 0x7F 0x4E).1 = 12 := by decide +kernel
theorem test_mx_widen : (widen .e2 fmt32 .rne 8 0x7F 0x4E).1 = 0x40E00000 := by decide +kernel

/-- 1e8, 1, -1e8 and 1 in an empty accumulator (R175). -/
def xsum4 : BitVec 320 × BitVec 3 := [0x4CBEBC20, 0x3F800000, 0xCCBEBC20, 0x3F800000].foldl (fun a v => xsumAdd a.1 a.2 v) (0, 0)

theorem test_xsum_acc : xsum4 = (2 ^ 150, 0) := by decide +kernel
theorem test_xsum_read : (xsumRead xsum4.1 xsum4.2).1 = 0x40000000 := by decide +kernel

-- R219: the first placement of the worked reckoning: 1.0 on core 32; 1e16, 1.0 on core 83; -1e16 on core 89.
theorem test_reckon_first : mergeParts 15
    [⟨32, 0, none, .osum [(0, 0x3FF0000000000000)], []⟩, ⟨83, 0, none, .osum [(0, 0x4341C37937E08000), (1, 0x3FF0000000000000)], []⟩,
     ⟨89, 0, none, .osum [(0, 0xC341C37937E08000)], []⟩] none (some (.word 0)) = some (.word 0x3FF0000000000000) := by decide +kernel

-- R186: cell (0, 0) of the worked mma, with the scales 7F 7F and 7F 85.
def mmaA : List FVal := e4m3Unpack 0x7E :: e4m3Unpack 0xFE :: List.replicate 30 (e4m3Unpack 1)
def mmaB : List FVal := e4m3Unpack 0x7E :: e4m3Unpack 0x7E :: List.replicate 30 (e4m3Unpack 1)

theorem test_mma_cell : cell .e4e4 0x00007F7F mmaA mmaB 0 = 0x38F00000 := by decide +kernel
theorem test_mma_scale : cell .e4e4 0x00007F85 mmaA mmaB 0 = 0x3BF00000 := by decide +kernel

/-- The rectangle of the worked line of R279, as its four records. -/
def rectangle : List Piece :=
  (piecesOf [(32768, 0), (32768, 65536)]).getD [] ++ (piecesOf [(32768, 65536), (131072, 65536)]).getD [] ++
    (piecesOf [(131072, 65536), (131072, 0)]).getD [] ++ (piecesOf [(131072, 0), (32768, 0)]).getD []

theorem test_path_sums : (rowS ⟨0, 0, 1, 1⟩ (rectangle.map contribOf) 0).take 4 = [128849018880, 257698037760, 0, 0] := by decide +kernel
theorem test_path_coverage : [coverage false 255 128849018880, coverage true 255 257698037760, coverage false 65535 128849018880] = [128, 255, 32768] := by
  decide +kernel

-- R282: MODE 1, colour (200, 100, 50, 128), coverages 128 and 255, over (10, 20, 30, 255).
theorem test_blend_half : blend 1 0x803264C8 0xFF1E140A 128 = 0xFF23283A := by decide
theorem test_blend_full : blend 1 0x803264C8 0xFF1E140A 255 = 0xFF283C69 := by decide

/-! ## One step of an instruction on a small state -/

/-- The state after a step, where there is one. -/
def after (o : Host.Outcome State Fault Refusal) : State := match o with | .next t => t | _ => State.reset

/-- The f result and the flags of a floating-point operation. -/
def fpPair (o : FpOut) : Nat × BitVec 5 := match o with | .f v fl => (v, fl) | _ => (0, 0)

/-- Hart 0 after reset with some x registers set. -/
def start (rs : List (Reg × Word)) : State := rs.foldl (fun s p => s.setX p.1 p.2) State.reset

theorem test_add_wraps : (after (exec (.alu .add 3 1 2) (start [(1, 0xFFFFFFFFFFFFFFFF), (2, 2)]))).x 3 = 1 := by decide +kernel
theorem test_x0_discards : (after (exec (.alu .add 0 1 1) (start [(1, 5)]))).x 0 = 0 := by decide +kernel
theorem test_addw_sign : (after (exec (.alu .addw 3 1 2) (start [(1, 0x7FFFFFFF), (2, 1)]))).x 3 = 0xFFFFFFFF80000000 := by decide +kernel
-- Division by zero, and the most negative number by -1 (the ratified M extension).
theorem test_div_zero : (after (exec (.alu .div 3 1 2) (start [(1, 7)]))).x 3 = 0xFFFFFFFFFFFFFFFF := by decide +kernel
theorem test_div_overflow : (after (exec (.alu .div 3 1 2) (start [(1, 0x8000000000000000), (2, 0xFFFFFFFFFFFFFFFF)]))).x 3 = 0x8000000000000000 := by
  decide +kernel
-- Bytes at the lowest address hold bits 7:0 (R1).
theorem test_sd_little_endian : memRead (after (exec (.scalarStore .sd 2 1 0) (start [(1, 0x1000), (2, 0x0102030405060708)]))).mem 0x1000 2 = [8, 7] := by
  decide +kernel
theorem test_lb_sign : (after (exec (.scalarLoad .lb 3 1 1) { start [(1, 0x1000)] with mem := [(0x1001, 0x80)] })).x 3 = 0xFFFFFFFFFFFFFF80 := by
  decide +kernel
-- A load from the host window goes on with a free value (log 11).
theorem test_host_window : (after (exec (.scalarLoad .ld 3 1 0) (start [(1, 0x100000000000)]))).seq.pc = 4 := by decide +kernel
-- R237: amoadd answers the old value; cas with an unequal rd stores nothing.
theorem test_amoadd_old : (after (exec (.amoScoped 1 true 1 3 2 1) { start [(1, 0x1000), (2, 5)] with mem := [(0x1000, 7)] })).x 3 = 7 := by decide +kernel
theorem test_amoadd_word : memGet (after (exec (.amoScoped 1 true 1 3 2 1) { start [(1, 0x1000), (2, 5)] with mem := [(0x1000, 7)] })).mem 0x1000 = 12 := by
  decide +kernel
-- R297: ecall in M mode is cause 11; scope 3 is cause 2 (R87).
theorem test_ecall_cause : (after (exec .ecall State.reset)).seq.priv.mcause = 11 := by decide +kernel
theorem test_scope3_cause : (after (exec (.fenceS 3) State.reset)).seq.priv.mcause = 2 := by decide +kernel
-- R93, R92: a seventh loop is cause 27; loopi of count 0 skips its body.
theorem test_loop_skips : (after (exec (.loopi 0 24) State.reset)).seq.pc = 24 := by decide +kernel
theorem test_loop_depth : (after (exec (.loopi 3 24) { State.reset with seq := { State.reset.seq with
    loops := List.replicate 6 ⟨4, 40, 2, 0, .m⟩ } })).seq.priv.mcause = 27 := by decide +kernel
-- R78: a write of 1s to xsflags clears those bits.
theorem test_xsflags_w1c : ((State.reset.xflag 7).csrWrite 0x804 5).seq.ctl.xsflags = 2 := by decide +kernel
-- fadd.d of 1.0 and 1.0 is 2.0; 1.0 / 3.0 raises NX (IEEE 754).
theorem test_fadd : fpPair (evalFp .add .d (some .rne) 0x3FF0000000000000 0x3FF0000000000000 0 0) = (0x4000000000000000, 0) := by decide +kernel
theorem test_fdiv_inexact : fpPair (evalFp .div .d (some .rne) 0x3FF0000000000000 0x4008000000000000 0 0) = (0x3FD5555555555555, 1) := by decide +kernel
-- A supervisor software interrupt, pending and enabled, reaches U mode at the base of stvec (ratified; mideleg bit 1).
theorem test_software_interrupt : (let p : Priv := { Priv.reset with mip := 2, mie := 2, stvec := 0x800 }
    let q := (after (step { State.reset with seq := { State.reset.seq with mode := .u, priv := p } })).seq
    q.pc = 0x800 ∧ q.mode = .s ∧ q.priv.scause = 0x8000000000000001) := by decide +kernel
-- SHA-256 of the empty message (FIPS 180-4).
theorem test_sha_empty : (sha256 []).take 4 = [0xE3, 0xB0, 0xC4, 0x42] := by decide +kernel

end Sys2Proof.Machine.Tests
end

