-- ==== Sys2Proof/Tests/Witnesses.lean ====
section
/-! SUPPORT. Witnesses: for each statement of Obligations.lean that has hypotheses, states and operands that meet them, clause by clause,
at boundary values. A test names the statement it belongs to. -/

namespace Sys2Proof.Machine.Tests

set_option Elab.async false

open Sys2Proof.Machine.Claim

/-! ## Helpers -/

/-- Does a part answer a value and a state that pass a test? -/
def okP {α : Type} (r : Res α) (p : α → State → Bool) : Bool := match r with | .ok a s => p a s | _ => false
/-- Does a part trap with a cause? -/
def trapP {α : Type} (r : Res α) (c : Nat) : Bool := match r with | .trap c' _ _ => c' == c | _ => false
/-- Does a part wait for this? -/
def stallP {α : Type} (r : Res α) (w : Stall) : Bool := match r with | .stall w' _ => w' == w | _ => false
/-- Is an access located in one piece that passes a test? -/
def oneP (r : Res (List Loc)) (p : Loc → State → Bool) : Bool := match r with | .ok [l] s => p l s | _ => false
/-- Does an outcome go on? -/
def nextP (o : Host.Outcome State Fault Refusal) (p : State → Bool) : Bool := match o with | .next t => p t | _ => false
def plainB (l : Loc) : Bool := match l.t with | .hbm => l.kind != .p | .scratch _ _ | .ring _ => true | _ => false
def sharedB (l : Loc) : Bool := l.t == .hbm && (l.kind == .s || l.kind == .b)

def withSeq (s : State) (f : Seq → Seq) : State := { s with seq := f s.seq }

/-- Hart 0 in S mode under Sv57: a 512 GiB leaf maps the first addresses to themselves, with HOMEIDX 5 of partition 0's homing table
where that is used, else under PBMTE, and with PBMT and the table's KIND as given. -/
def paged (homen : Bool) (pbmt : BitVec 2) (kind : Nat) (rs : List (Reg × Word)) : State :=
  let s := start rs
  let pte : Nat := 0xCF + (if homen then 5 * 2 ^ 54 else 0) + pbmt.toNat * 2 ^ 61
  let p : Priv := { Priv.reset with satp := 0xA000000000000010, menvcfg := if homen then 2 ^ 57 else 2 ^ 62 }
  { s with seq := { s.seq with mode := .s, priv := p }, mem := memWrite (memWrite [] 0x10000 (leBytes 8 0x4401)) 0x11000 (leBytes 8 pte),
           parts := [(0, { Part.zero with homing := [(5, ⟨BitVec.ofNat 32 (0x80000000 + kind * 2 ^ 27), 0, false⟩)] })] }

/-- A P page, a U page. -/
def pPage (rs : List (Reg × Word)) : State := paged true 0 0 rs
def uPage (rs : List (Reg × Word)) : State := paged false 1 0 rs

/-! ## Encodings and the step -/

theorem witness_DecodeOfEncode : ((Instr.alu .add 10 10 11).wellFormed && (encode (.alu .add 10 10 11)).isSome &&
    (Instr.pair 12 false (.aluImm .addi 10 10 8) (.vectorArithmetic 0 true 2 3 1 1)).wellFormed &&
    (encode (.pair 12 false (.aluImm .addi 10 10 8) (.vectorArithmetic 0 true 2 3 1 1))).isSome) = true := by decide +kernel

theorem witness_EncodeOfDecode : ([0x00C1900B, 0x0C05852B, 0x0B00115B, 0x08D6017B].all fun w => (decode32 w).isSome) = true := by decide +kernel

/-- The running hart's next instruction; that of a hart on the agenda; an event, and one of a core whose partition is isolated. -/
theorem witness_StepExecutes : (let s := State.reset.withFetchWord 32 0x00B50533
      decide (s.agenda = []) && s.tick.mayIssue && !s.tick.seq.lands && s.tick.pendingInterrupt.isNone &&
        okP s.tick.fetch fun i s1 => i == .alu .add 10 10 11 && !s1.mustWait i) = true ∧
    (let s : State := { State.reset.withFetchWord 32 0x00B50533 with agenda := [.run 0] }
     let u := ({ s.tick with agenda := [] } : State).switch 0
     u.mayIssue && !u.seq.lands && u.pendingInterrupt.isNone && okP u.fetch fun i s1 => i == .alu .add 10 10 11 && !s1.mustWait i) = true ∧
    State.reset.tick.held (.handlerStart 0) = false ∧
    ({ State.reset with parts := State.reset.parts.map fun p => (p.1, { p.2 with isolated := true }) } : State).tick.held (.handlerStart 0) = true := by decide +kernel

/-! ## Integer, loop and control-transfer instructions -/

theorem witness_IntegerInstructions : (intResult State.reset (.lidx 5 5)).isSome = true ∧ (intResult State.reset (.alu .add 0 1 2)).isSome = true := by
  decide +kernel

theorem witness_LoopEnter : (loopOperands State.reset (.loopi 1 6)).isSome = true ∧ loopOffOk State.reset.seq 6 ∧ ¬ loopOffOk State.reset.seq 4 := by
  refine ⟨by decide +kernel, ?_, ?_⟩ <;> simp [loopOffOk, State.reset, Seq.reset]

/-- A hart with n loops open, pushed in M mode. -/
def looping (n : Nat) (mode : Mode) : State :=
  withSeq State.reset fun q => { q with loops := List.replicate n ⟨8, 40, 3, 2, mode⟩ }

theorem witness_LoopLeave : (looping 1 .m).seq.loops[(0 : BitVec 5).toNat]?.isSome = true ∧ (looping 6 .m).seq.loops.length = 6 ∧
    (∀ x ∈ (looping 1 .m).seq.loops.take 1, x.mode = (looping 1 .m).seq.mode) ∧ (looping 1 .m).seq.loops.length ≤ (1 : BitVec 5).toNat ∧
    (∃ x ∈ (looping 1 .u).seq.loops.take 1, x.mode ≠ (looping 1 .u).seq.mode) := by decide +kernel

/-- Each clause of the end check: away from END; with another iteration left; in the last iteration. -/
theorem witness_EndCheck : (let e : LoopEntry := ⟨8, 40, 3, 1, .m⟩
    let l : LoopEntry := ⟨8, 40, 3, 2, .m⟩
    decide (e.mode = Mode.m ∧ (12 : Word) ≠ e.stop ∧ e.start ≠ e.stop ∧ e.index.toNat + 1 < e.count.toNat ∧ l.count.toNat ≤ l.index.toNat + 1)) = true := by
  decide +kernel

theorem witness_Branches : evalBranch .beq (State.reset.x 0) (State.reset.x 0) = true ∧ evalBranch .bne (State.reset.x 0) (State.reset.x 0) = false := by
  decide +kernel

theorem witness_Hints : idle .vfenceSv = true ∧ State.reset.seq.halt = none ∧ State.reset.seq.mode = .m ∧
    (withSeq State.reset fun q => { q with halt := some 0 }).seq.halt ≠ none ∧
    (uPage []).seq.mode ≠ .m ∧ (withSeq (uPage []) fun q => { q with priv := { q.priv with mstatus := 2 ^ 21 } }).seq.priv.mstatus.getLsbD 21 = true := by
  decide +kernel

/-! ## Memory -/

/-- R55 with one core, with 16 (a power of two) and with 3 in MASK. -/
theorem witness_Homes : ([0x20, 0xFFFF, 7].all fun m => let h : HomeEntry := ⟨0xA0000000, m, false⟩
    h.valid && h.ctrl.getLsbD 29) = true ∧ rankIn 0x20 256 = 1 ∧ rankIn 0xFFFF 256 = 2 ^ 4 ∧ rankIn 7 256 = 3 := by decide +kernel

/-- The leaf that a walk from the root of `via` finds. -/
def walkP (s : State) (via : Via) (ak : AKind) (p : Leaf → State → Bool) : Bool :=
  okP (s.walk via 0x8000 ak (via.satp.toNat % 2 ^ 44 * 4096) 5) p
/-- `uPage` with A and D of its leaf not set. -/
def faded : State := { uPage [] with mem := memWrite (uPage []).mem 0x11000 [0x0F] }

/-- Access refused (U mode at a leaf without U); A and D set already; D to be set in a leaf that lies on no code page. -/
theorem witness_Translation : Memory.wf (uPage []).mem = true ∧ Memory.wf faded.mem = true ∧
    walkP (uPage []) { (uPage []).via with mode := .u } .load (fun l _ => permOk l.pte .load .u false false == false) = true ∧
    walkP (uPage []) (uPage []).via .store (fun l _ => permOk l.pte .store .s false false && (l.pte ||| 192) == l.pte) = true ∧
    walkP faded faded.via .store (fun l s1 => permOk l.pte .store .s false false && (l.pte ||| 192) != l.pte && !s1.isCodePage l.addr) = true := by
  decide +kernel

/-- No Bead partial, no parked line. -/
theorem poolSound_start (rs : List (Reg × Word)) (h : (start rs).coh.beads = [] ∧ (start rs).coh.away = []) : poolSound (start rs) := by
  unfold poolSound; rw [h.1, h.2]; simp

/-- A P page of which core 0 has stored byte 0x8000. -/
def owned1 : State := { pPage [] with coh := { (pPage []).coh with plocal := [((0, 0x8000), 7)] } }

theorem witness_Reads : poolSound (start []) ∧ okP ((start []).locate (start []).via 0x1000 8 .load) (fun ls s1 => okP (s1.loadLocs s1.via false ls) fun _ _ =>
    ls.length == 1 && ls.all plainB && Memory.wf s1.mem) = true ∧
    (owned1.via.num < 1024 ∧ (owned1.coh.plocal.find? fun x => x.1.1 == owned1.via.num && x.1.2 == 0x8000).isSome = true) :=
  ⟨poolSound_start [] (by decide +kernel), by decide +kernel⟩

/-- A P line answers a read, whatever the core makes of its copy. -/
theorem readLine_answers (s : State) (via : Via) (l : Loc) : ∃ b t, s.readLine via l = .ok b t := by
  simp only [State.readLine]; split <;> exact ⟨_, _, rfl⟩

theorem witness_Reads_line : ∃ b t, owned1.loadLocs owned1.via false [⟨0x8000, 0x8000, .hbm, .p, 0, 0, 8⟩] = .ok b t := by
  have h : owned1.readHbm owned1.via ⟨0x8000, 0x8000, .hbm, .p, 0, 0, 8⟩ false = (owned1.wakeHome 0).readLine owned1.via ⟨0x8000, 0x8000, .hbm, .p, 0, 0, 8⟩ := by
    have n : (owned1.wakeHome 0).poisonAt owned1.via ⟨0x8000, 0x8000, .hbm, .p, 0, 0, 8⟩ = none := by decide +kernel
    have m : owned1.via.num < 1024 := by decide +kernel
    simp only [State.readHbm, n, m]; simp
  obtain ⟨b, t, e⟩ := readLine_answers (owned1.wakeHome 0) owned1.via ⟨0x8000, 0x8000, .hbm, .p, 0, 0, 8⟩
  refine ⟨b ++ [], t, ?_⟩
  simp only [State.loadLocs, State.readLocs, State.readLoc]
  rw [h, e]; rfl

theorem witness_Stores : poolSound (start []) ∧ okP ((start []).locate (start []).via 0xFF8 8 .store) (fun ls s1 => okP (s1.storeLocs s1.via ls (leBytes 8 7)) fun _ _ =>
    ls.length == 1 && ls.all (fun l => plainB l && l.len == 8) && s1.via.hart == some s1.hart) = true ∧
    okP ((pPage []).locate (pPage []).via 0x8000 8 .store) (fun ls s1 => okP (s1.storeLocs s1.via ls (leBytes 8 7)) fun _ _ =>
      ls.all (fun l => l.t == .hbm && l.kind == .p && l.len == 8) && decide (s1.via.num < 1024)) = true :=
  ⟨poolSound_start [] (by decide +kernel), by decide +kernel⟩

/-- Each outcome of ld.aq and ld.inv: done, faulting at the access, faulting in translation. -/
theorem witness_Acquires : (0x1000 : Word).toNat % widthBytes 3 = 0 ∧
    (okP ((start [(1, 0x1000)]).locate (start []).via 0x1000 8 .load) fun ls s0 => (peerOf ls).isNone && okP (s0.loadLocs s0.via false ls) fun _ _ => true) = true ∧
    (let s := { start [] with coh := { Coh.reset with poison := [0x1000 / 32] } }
     okP (s.locate s.via 0x1000 8 .load) fun ls s0 => (peerOf ls).isNone && trapP (s0.loadLocs s0.via false ls) 30) = true ∧
    trapP ((start []).locate (start []).via 0x00C000000000 8 .load) 5 = true ∧
    (okP ((start []).loadAt (start []).via 0x1000 8 true) fun _ _ => true) = true ∧ trapP ((start []).loadAt (start []).via 0x00C000000000 8 true) 5 = true := by
  decide +kernel

/-- A load that completes, one that faults, a misaligned ld.aq, a floating-point load with FS on and with FS off. -/
theorem witness_Loads : (okP ((start [(1, 0x1000)]).loadAt (start []).via 0x1000 8 false) fun _ _ => true) = true ∧
    trapP ((start []).loadAt (start []).via 0x00C000000000 8 false) 5 = true ∧
    (0x1001 : Word).toNat % widthBytes 1 ≠ 0 ∧ isFpLoad .fld = true ∧ State.reset.fpOn = true ∧
    (withSeq State.reset fun q => { q with priv := { q.priv with mstatus := 0 } }).fpOn = false := by decide +kernel

/-- The rod of a hart, granted at time 0 for 1,000 ns. -/
def rodOf (h : Nat) (ws : List Party) (rec : Bool) (area : Option Nat) : Rod :=
  { holder := some (.ctx (.bare h)), granted := 0, expiry := 1000, lastW := none, recalled := rec, waiters := ws, area := area, home := 0, atHalt := none, va := 0 }

/-- Region 1 of memory is held by another hart. -/
def rodTaken (rs : List (Reg × Word)) : State :=
  { start rs with coh := { Coh.reset with rods := [(1, rodOf 9 [] false none)] } }

/-- Partition 0 with a valid entry of peer 0. -/
def peered (rs : List (Reg × Word)) : State :=
  { start rs with parts := [(0, { Part.zero with peers := [(0, ⟨true, 1 :: List.replicate 31 0⟩)] })] }
/-- Hart 0 owes the acknowledgement of what it sent to peer 0: a red or another write. -/
def owing (red : Bool) (rs : List (Reg × Word)) : State :=
  { peered rs with host := { (peered rs).host with out := [⟨.ctx (.bare 0), 0, 0, 64, 0, red⟩] } }

theorem witness_Acquires_peer : (okP ((peered []).locate (peered []).via 0x200000000000 8 .load) fun ls _ => (peerOf ls).isSome) = true := by decide +kernel

/-- Every outcome of a store; one to a peer after fence.s.sys; releases at each scope, here and to a peer, and one that waits. -/
theorem witness_StoresPerform : (okP ((start []).scalarStore 0x1000 (leBytes 8 1)) fun _ _ => true) = true ∧
    trapP ((start []).scalarStore 0x00C000000000 (leBytes 8 1)) 7 = true ∧ stallP ((rodTaken []).scalarStore 0x1000 (leBytes 8 1)) .rod = true ∧
    (start []).seq.fenced = false ∧ isFpStore .fsd = true ∧
    (let s := withSeq (peered []) fun q => { q with fenced := true }
     okP (s.locate s.via 0x200000000000 8 .store) fun ls s1 => match peerOf ls with
       | some (l, p) => okP (s1.peerRelease l p 5) fun _ _ => storeSize .sd == 8 | none => false) = true ∧
    (let s := start [(1, 0x1000)]
     okP (s.locate s.via (s.x 1) 8 .store) fun ls s1 => (peerOf ls).isNone && !s1.peerOwes s1.via.party && decide (s1.redsOut s1.via.party = 0) &&
       (okP (((s1.flushP s1.hart).settled s1.hart).storeAt ((s1.flushP s1.hart).settled s1.hart).via (s.x 1) (leBytes 8 1)) fun _ _ => true) && okP (s1.storeAt s1.via (s.x 1) (leBytes 8 1)) fun _ _ => true) = true ∧
    [true, false].all (fun red => let s := owing red [(1, 0x1000)]
      okP (s.locate s.via (s.x 1) 8 .store) fun ls s1 => (peerOf ls).isNone && s1.peerOwes s1.via.party && decide (0 < s1.redsOut s1.via.party) == red) = true ∧
    (okP ((peered []).locate (peered []).via 0x200000000000 1 .store) fun ls s1 => match peerOf ls with
       | some (l, p) => okP (s1.peerRelease l p 5) fun _ _ => true | none => false) = true ∧
    ((peered []).peerBase 0 0).isSome = true ∧ (peered []).peerOwes (peered []).via.party = false ∧
    (let u := ((peered []).flushP 0).settled 0; u.flowFull u.via.part 0 = false ∧ u.laterOf (u.via.part, u.peerFlow u.via.part 0) = []) ∧ (0x1001 : Word).toNat % widthBytes 1 ≠ 0 := by decide +kernel

/-- Nothing owed, a write owed, a red owed; entries of the TLB that match and that do not; rows of a queued matrix operation held and not held. -/
theorem witness_Fences : isSupervisor State.reset.hart = false ∧ (uPage []).seq.mode = .s ∧ ¬ (State.reset.seq.mode = .u) ∧
    (withSeq (uPage []) fun q => { q with priv := { q.priv with mstatus := 2 ^ 20 } }).seq.priv.mstatus.getLsbD 20 = true ∧
    (start []).peerOwes (start []).via.party = false ∧ (start []).redsOut (start []).via.party = 0 ∧ (owing false []).peerOwes (owing false []).via.party = true ∧
    (owing false []).redsOut (owing false []).via.party = 0 ∧ 0 < (owing true []).redsOut (owing true []).via.party ∧ (1 : BitVec 4).getLsbD 0 = true ∧
    (4 : BitVec 4).getLsbD 2 = true ∧ ((2 : BitVec 4) ≠ 0 ∧ (2 : BitVec 4).getLsbD 0 = false ∧ (2 : BitVec 4).getLsbD 2 = false) ∧
    (start []).coh.unsure = [] ∧ (start []).rowsHeld 0 0 none = false := by decide +kernel

/-- A Bead word whose one partial is parked in an entry of the pool that is poisoned, so that its reckoning loses it. -/
def lostPark : State :=
  { start [] with coh := { Coh.reset with beads := [(0x1008, ⟨1, [⟨0, 0, some 3, .word 1, []⟩], 0⟩)], poison := [((start []).poolEntry 0 3) / 32] } }

/-- A word of memory and one of scratch; a poisoned one; one that its reckoning poisons. -/
theorem witness_Amo : Memory.wf (start []).mem = true ∧ oneP ((start []).locate (start []).via 0x1008 8 .store) (fun l s1 => plainB l && (s1.poisonAt s1.via l).isNone &&
      okP (s1.ordered true true) (fun _ s2 => (s2.poisonAt s2.via l).isNone && ((s2.rmwReady s2.via l true).firstPoison l.pa 8).isNone && !(s2.rmwReady s2.via l true).isCodePage l.pa) &&
      (match l.t with | .ring _ => false | _ => true)) = true ∧
    oneP ((start []).locate (start []).via (BitVec.ofNat 64 Config.scratchBase) 4 .store) (fun l s1 => plainB l && (s1.poisonAt s1.via l).isNone) = true ∧
    (let s := { start [] with coh := { Coh.reset with poison := [0x1008 / 32] } }
     oneP (s.locate s.via 0x1008 8 .store) fun l s1 => (s1.poisonAt s1.via l).isSome) = true ∧
    oneP (lostPark.locate lostPark.via 0x1008 8 .store) (fun l s1 => (s1.poisonAt s1.via l).isNone && ((s1.rmwReady s1.via l true).firstPoison l.pa 8).isSome) = true := by
  decide +kernel

/-- Each order of an AMO: neither, an acquire, a release; with a red owed, with a write owed. -/
theorem witness_Atomics : ([(false, false), (false, true), (true, true)].all fun p => okP ((start []).amoAt false .add 8 0x1000 1 0 fun st => st.ordered p.1 p.2) fun _ _ => true) = true ∧
    (okP ((start []).amoAt true .cas 4 0x1004 1 0 fun st => st.ordered true true) fun _ _ => true) = true ∧ (okP ((start []).amoAt true .cas 4 0x1004 1 0 State.releaseNear) fun _ _ => true) = true ∧
    ([(false, false), (false, true), (true, true)].all fun p => okP ((start []).ordered p.1 p.2) fun _ _ => true) = true ∧
    (okP (start []).releaseNear fun _ _ => true) = true ∧ (okP (owing false []).releaseNear fun _ _ => true) = true ∧ stallP (owing true []).releaseNear .peer = true ∧
    (owing false []).peerOwes (owing false []).via.party = true ∧
    (okP ((start []).lrAt 8 0x1000) fun _ _ => true) = true ∧ (okP ((start []).scAt 8 0x1000 1) fun a _ => a == 1) = true ∧
    oneP ((start []).locate (start []).via 0x1000 8 .store) (fun l s1 => s1.seq.resv != some (resvBase l.pa)) = true ∧
    (okP ((withSeq (start []) fun q => { q with resv := some 0x1000 }).scAt 8 0x1000 1) fun a _ => a == 0) = true ∧
    scopedOp 9 = some .cas ∧ 10 ≤ (10 : BitVec 4).toNat := by decide +kernel

/-- A word of memory, of scratch (aligned for xsum32, and one that is not), of a peer, at .sys and below. -/
theorem witness_Reductions : Memory.wf (start []).mem = true ∧ oneP ((start []).locate (start []).via 0x1000 4 .store) (fun l s1 => okP s1.releaseSys (fun _ s2 =>
      l.t == .hbm && l.kind != .p && !s2.isCodePage l.pa && (s2.firstPoison l.pa 4).isNone && s2.beadsIn l.pa 4 == [] && (aget s2.coh.away (l.pa / 128)).isNone) &&
      okP s1.releaseNear fun _ s2 => (s2.firstPoison l.pa 4).isNone) = true ∧
    oneP ((start []).locate (start []).via (BitVec.ofNat 64 Config.scratchBase) 4 .store) (fun l s1 => (match l.t with | .scratch _ _ => true | _ => false) &&
      okP s1.releaseNear fun _ s2 => okP (s2.scratchTag l 14 0 0) fun _ _ => true) = true ∧
    oneP ((start []).locate (start []).via (BitVec.ofNat 64 (Config.scratchBase + 4)) 4 .store) (fun l _ => (match l.t with | .scratch _ _ => true | _ => false) &&
      decide ((BitVec.ofNat 64 (Config.scratchBase + 4)).toNat % 64 ≠ 0)) = true ∧
    oneP ((peered []).locate (peered []).via 0x200000000000 4 .store) (fun l s1 => match l.t with
      | .peer p => okP (s1.peerRed l p 13 1 true) fun _ _ => true | _ => false) = true := by decide +kernel

theorem witness_Beads : oneP ((start []).locate (start []).via 0x1000 4 .store) (fun l s1 => sharedB l && (s1.firstPoison l.pa 4).isNone &&
      ((s1.clearTags l.pa 1).firstPoison l.pa 4).isNone) = true ∧
    oneP ((uPage []).locate (uPage []).via 0x8000 4 .store) (fun l _ => l.t == .hbm && !sharedB l) = true ∧ isSupervisor (start []).hart = false ∧
    oneP ((start []).locate (start []).via (BitVec.ofNat 64 Config.scratchBase) 4 .store) (fun l s1 => (match l.t with | .scratch _ _ => true | _ => false) &&
      okP (s1.scratchTag l 13 0 0) fun _ _ => true) = true ∧
    oneP ((start []).locate (start []).via 0x1000 128 .load) (fun l _ => sharedB l) = true ∧
    oneP ((uPage []).locate (uPage []).via 0x8000 128 .load) (fun l _ => !sharedB l) = true := by decide +kernel

/-- Does rod.acq of the running hart get the rod of a region? -/
def getsRod (s1 : State) (l : Loc) : Bool :=
  let region := l.pa / 4096
  (if s1.holdsRod s1.via.party region then (s1, true) else s1.askRod s1.via.party region l.rhome).2

/-- A free rod, one that another hart holds, a U page; a rod held here without and with a waiter, recalled and not. -/
theorem witness_Rods : (okP ((start []).rodLoc 0x1000) fun l s1 => sharedB l && getsRod s1 l) = true ∧
    (okP ((rodTaken []).rodLoc 0x1000) fun l s1 => sharedB l && !getsRod s1 l) = true ∧
    (okP ((uPage []).rodLoc 0x8000) fun l _ => !sharedB l) = true ∧
    ([([], false), ([Party.hub], true)].all fun ws =>
      let s := { start [] with coh := { Coh.reset with rods := [(1, rodOf 0 ws.1 ws.2 none)] } }
      okP (s.rodLoc 0x1000) fun l s1 => sharedB l && getsRod s1 l && match aget s1.coh.rods (l.pa / 4096) with
        | some x => x.holder == some s1.via.party && x.area.isNone && x.waiters == ws.1 | none => false) = true := by decide +kernel

/-- Scratch word 0 of core 0, in state s. -/
def bank (s : State) (p : Loc → State → Bool) : Bool := okP (s.bankLoc (BitVec.ofNat 64 Config.scratchBase) 4) fun l s1 => match l with | some l => p l s1 | none => false

/-- Core 0 with n words armed in bank 0, and scratch word 0 not 0. -/
def armed (n : Nat) : State :=
  { start [] with mem := [(Config.scratchBase, 1)],
                  cores := [(0, { Core.reset with armed := (List.range n).map fun i => ⟨Config.scratchBase + 4 + 4 * i, 0, false, 0, 0, .bare 0⟩ })] }

/-- No scratch; a misaligned word, a poisoned one; the word is 0; it is not 0 with seven and with eight words armed; it is armed already. -/
theorem witness_ZeroTriggers : (okP ((start []).bankLoc 0x1000 4) fun l _ => l.isNone) = true ∧
    (okP ((start []).bankLoc (BitVec.ofNat 64 (Config.scratchBase + 2)) 4) fun l _ => l.isSome) = true ∧
    bank { start [] with coh := { Coh.reset with poison := [Config.scratchBase / 32] } } (fun l s1 => (s1.firstPoison l.pa 4).isSome) = true ∧
    bank (start []) (fun l s1 => (s1.firstPoison l.pa 4).isNone && leNat (memRead s1.mem l.pa 4) == 0) = true ∧
    bank (armed 7) (fun l s1 => leNat (memRead s1.mem l.pa 4) != 0 && ((s1.core 0).armed.filter fun x => bankOf x.pa == bankOf l.pa).length == 7) = true ∧
    bank (armed 8) (fun l s1 => ((s1.core 0).armed.filter fun x => bankOf x.pa == bankOf l.pa).length == 8 &&
      !((s1.core 0).armed.any fun x => decide (x.pa < l.pa + 4 ∧ l.pa < x.pa + 4))) = true ∧
    (okP ((armed 1).bankLoc (BitVec.ofNat 64 (Config.scratchBase + 4)) 4) fun l s1 => match l with
      | some l => (s1.core 0).armed.any fun x => x.pa == l.pa && x.owner == ctxOf s1.seq s1.hart
      | none => false) = true := by decide +kernel

/-- Hart 0 at a wait that began at time 0. -/
def waited (now : Nat) : State := { (start []).arm [] with time := now }

/-- A word that meets the condition and one that does not, before and after the timeout; a read that faults. -/
theorem witness_WordWaits : (okP (((start []).arm []).loadAt ((start []).arm []).via 0x1000 8 false) fun b _ => decide ((0 : Nat) ≤ leNat b ∧ ¬ (1 ≤ leNat b) ∧ leNat b = 0)) = true ∧
    (0x1000 : Word).toNat % 8 = 0 ∧ (start []).seq.armed.isSome = false ∧ (waited 5).seq.armed.isSome = true ∧ (waited 5).armedAt = 0 ∧ 5 ≤ (waited 5).time - (waited 5).armedAt ∧
    ¬ (6 ≤ (waited 5).time - (waited 5).armedAt) ∧ trapP ((start []).loadAt (start []).via 0x00C000000000 8 false) 5 = true := by decide +kernel

/-! ## A task -/

/-- A launch of a grid of one workgroup of n tasks. -/
def launchOf (n : Nat) : Launch :=
  { id := 1, part := 0, qid := 0, pkt := 0, eff := 0, kind := 1, hdr := 0, header := leBytes 4 0x0101 ++ [1, 0, 0, 0] ++ [6, 0, 0, 0, 0, 0] ++ [0, 0, 0, 0, 0, 0] ++ leBytes 4 0 ++ leBytes 8 n,
    kernels := [(0, 0)], taccept := 0, total := n, resume := none, die := none, lastCluster := none, cursor := 1, homes := [(0, 0)], retired := [], lost := [], utag := 0, wrote := false,
    wgLeft := [(0, n)], status := 0, faulted := false, killed := false, severed := false, reset := false, ranges := [], nrec := 0, drop := 0, done := false }

def taskOf (hm : Bool) : Task :=
  { launch := 1, lin := 0, wg := 0, wglin := 0, obj := 0, part := 0, hm := hm, pipe := none, scrBase := BitVec.ofNat 64 Config.scratchBase, scrLen := 4096,
    top := 0, tp := 0, gp := 0 }

/-- Hart 0 runs a task in U mode; its workgroup has n tasks. -/
def tasked (hm : Bool) (n : Nat) (rs : List (Reg × Word)) : State :=
  { withSeq (start rs) fun q => { q with mode := .u, task := some (taskOf hm) } with launches := [launchOf n] }

/-- The last of its workgroup; the first of two; one whose generation has passed. -/
theorem witness_Barrier : (tasked false 1 []).wgTasks 1 0 ≤ ((tasked false 1 []).barrier 1 0).arrived.length + 1 ∧
    ((tasked false 2 []).barrier 1 0).arrived.length + 1 < (tasked false 2 []).wgTasks 1 0 ∧ (tasked false 1 []).seq.barGen = none ∧
    ({ tasked false 2 [] with barriers := [⟨1, 0, 1, [], [(0, 0)]⟩] }.barrier 1 0).gen = 1 := by decide +kernel

/-! ## Floating point, control registers, traps -/

/-- A result in f, a result in x, a reserved rounding mode. -/
theorem witness_Fp : (match fpResult State.reset .add .d 1 2 0 0 with | .f _ _ => true | _ => false) = true ∧
    (match fpResult State.reset .eq .d 1 2 0 2 with | .x _ _ => true | _ => false) = true ∧
    (match fpResult State.reset .add .d 1 2 0 5 with | .bad => true | _ => false) = true := by decide +kernel

/-- A register that may be written, one that names nothing, one that is read-only, one above the mode. -/
theorem witness_Csr : State.reset.csrOk 0x801 true = true ∧ (State.reset.csrRead 0x801).isSome = true ∧ State.reset.csrRead 0x7FF = none ∧
    (0xC01 : BitVec 12).toNat / 1024 = 3 ∧ csrWrites .rw 0 = true ∧ modeCode (tasked false 1 []).seq.mode < (0x300 : BitVec 12).toNat / 256 % 4 := by decide +kernel

/-- U mode with the cause delegated, and M mode. -/
theorem witness_Traps : (∀ c ∈ [2, 4, 8, 12], plainCause c) ∧ (tasked false 1 []).seq.priv.medeleg.getLsbD 2 = true ∧ (tasked false 1 []).seq.mode ≠ .m ∧
    State.reset.seq.mode = .m ∧ setsEpend 24 = true ∧ setsEpend 30 = true ∧ setsEpend 48 = true ∧ (tasked false 1 []).seq.task.isSome = true ∧ State.reset.seq.task = none := by
  refine ⟨?_, by decide +kernel⟩
  simp [plainCause, setsEpend]

theorem witness_Returns : (uPage []).seq.mode = .s ∧ (uPage []).seq.priv.mstatus.getLsbD 22 = false ∧ (uPage []).seq.loops = [] ∧ (uPage []).seq.task = none ∧
    (uPage []).seq.halt = none ∧ (withSeq State.reset fun q => { q with mode := .u }).seq.priv.medeleg.getLsbD 2 = true ∧
    State.reset.seq.pc &&& 1 = 0 ∧ (withSeq (uPage []) fun q => { q with priv := { q.priv with mstatus := 2 ^ 22 } }).seq.priv.mstatus.getLsbD 22 = true := by
  decide +kernel

/-! ## Vector instructions -/

/-- Hart 0 with one lane group (VLEN 2,048) and some vector state. -/
def vecAt (t : Word) (vl : Nat) (rs : List (Reg × Word)) (f : Vec → Vec := id) : State :=
  withSeq (start rs) fun q => { q with vec := f { Vec.reset with vlen := 2048, hmask := 1, grant := 1, vtype := t, vl := vl, fresh := false } }

/-- e32 m1 with 64 elements, the whole of VLMAX, and with x1 = 0x1000. -/
def v32 (f : Vec → Vec := id) : State := vecAt 0xD0 64 [(1, 0x1000), (2, 8)] f
def v16 : State := vecAt 0xC8 128 [(1, 0x1000)]
def v64 (vl : Nat) (rs : List (Reg × Word)) : State := vecAt 0xD8 vl rs

def ready (s : State) : Bool := VState s true && s.lostLanes == 0
def computeP (s : State) (i : Instr) (ok : Bool) : Bool := ready s && match vecCompute s i with | some (o, _) => o == ok | none => false
def accessP (s : State) (i : Instr) (ok : Bool) (p : Res VInfo → Bool) : Bool :=
  ready s && match vecAccess s i with | some (_, o, r) => o == ok && p r | none => false

/-- A group that ends at the last register, and a block of elements. -/
theorem witness_Elements : (0 < 16 ∧ 0 < v32.seq.vec.vlen ∧ v32.seq.vec.vlen % 16 = 0 ∧ 30 + (200 * 16 + v32.seq.vec.vlen - 1) / v32.seq.vec.vlen ≤ 32) ∧
    okP (runElems (fun _ => true) (fun i st => if i = 2 then .trap 5 0 st else .ok () st) 3 State.reset) (fun k _ => k == some 2) = true ∧
    trapP (runElems (fun _ => true) (fun _ st => (.trap 5 0 st : Res Unit)) 3 State.reset) 5 = true ∧
    okP (runElems (fun i => i == 1) (fun _ st => .ok () st) 3 State.reset) (fun k _ => k == none) = true := by decide +kernel

/-- Groups in order, and groups that overlap or are not aligned. -/
theorem witness_Computations : ([.vmdepth 5, .vidxc true 5 2 3, .vwmulxE8 true 2 4 5, .vfcvtE2 true 2 4 5, .vfcvtE5 true 2 4 5, .vfwcvtE4 true 2 4 5,
      .vmxscale true 2 4 2, .texdec true 8 4 4, .vectorArithmetic 0 true 2 3 0 1, .vectorArithmetic 0x25 false 2 3 2 1].all fun i => computeP v32 i true) = true ∧
    ([.vidxc true 5 2 2, .vwmulxE8 true 3 4 5, .vfcvtE2 true 4 4 5, .vfwcvtE4 false 0 4 5, .vmxscale true 2 4 3, .texdec true 8 4 5,
      .vectorArithmetic 0x25 false 2 3 2 0].all fun i => computeP v32 i false) = true := by decide +kernel

/-- A load, store or invariant load done as a whole; a trap at element 0; operands out of order. -/
theorem witness_Accesses : ([.vectorLoad 0 0 true 0 1 2 2, .vectorLoad 0 0 true 16 1 2 2, .vectorLoad 1 2 true 2 1 2 2, .vectorStore 0 0 true 0 1 2 2,
      .vle32Inv true 2 1].all fun i => accessP (vecAt 0xD0 2 [(1, 0x1000), (2, 8)]) i true fun r => okP r fun _ _ => true) = true ∧
    accessP (vecAt 0xC8 2 [(1, 0x1000)]) (.vsmx true 8 1 2) true (fun r => okP r fun _ _ => true) = true ∧
    accessP (vecAt 0xD0 2 [(1, 0xC000000000)]) (.vectorLoad 0 0 true 0 1 2 2) true (fun r => trapP r 5) = true ∧
    accessP v32 (.vectorLoad 0 0 false 0 1 2 0) false (fun _ => true) = true := by decide +kernel

/-- Unit off, released, not configured, vstart not 0, vill; and a held group retired. -/
theorem witness_OutOfOrder : (VState (withSeq v32 fun q => { q with priv := { q.priv with mstatus := 0 } }) true ||
      VState (v32 fun v => { v with released := true }) true || VState (v32 fun v => { v with fresh := true }) true ||
      VState (v32 fun v => { v with vstart := 1 }) true || VState (v32 fun v => { v with vtype := 0x8000000000000000 }) true) = false ∧
    (let s := { v32 with cores := [(0, { Core.reset with dis := 1 })] }
     VState s true && s.lostLanes != 0 && match vecCompute s (.vmdepth 5) with | some (o, _) => o | none => false) = true := by decide +kernel

theorem witness_Vset : (let s := withSeq (start []) fun q => { q with vec := { q.vec with grant := 8 } }
    s.onCore && s.vecOn && !s.seq.vec.released && s.seq.vec.vstart == 0 && okP s.takeLanes (fun _ s1 => s1.seq.vec.vlen == 16384)) = true ∧
    stallP (start []).takeLanes .lanes = true ∧ (start []).laneGrant = 0 ∧ (start []).seq.vec.grant = 0 ∧ badVtype 0xD0 = false ∧ badVtype 0x100 = true ∧ badVtype 0x1F = true := by
  decide +kernel

theorem witness_Vregcfg : v32.onCore = true ∧ v32.vecOn = true ∧ v32.seq.vec.vstart = 0 ∧ v32.seq.vec.released = false ∧ v32.seq.vec.mdepth = 0 ∧
    (v32.x 2).toNat = 8 ∧ (v32.x 3).toNat ≠ 8 ∧ (v32.x 3).toNat ≠ 16 ∧ (v32.x 3).toNat ≠ 32 ∧ (v32 fun v => { v with mdepth := 1 }).seq.vec.mdepth ≠ 0 ∧
    (v32 fun v => { v with released := true }).seq.vec.released = true ∧
    (v32 fun v => { v with fresh := true }).seq.vec.vlen ≠ 0 ∧ v32.seq.vec.fresh = false := by decide +kernel

/-- v31 as the condition, with seven entries on the stack, the largest number that still leaves one free. -/
theorem witness_MaskStack : (let s := v32 fun v => { v with mstack := List.replicate 7 ⟨0, 0, 2048, 1⟩, mdepth := 7 }
    ready s && decide ((31 : Reg).toNat < s.seq.vec.nregs ∧ s.seq.vec.mdepth + 1 < 2 ^ 32 ∧ s.seq.vec.mstack.length < 8 ∧ s.seq.vec.vl ≤ s.seq.vec.vlen)) = true ∧
    ready v32 = true ∧ v32.seq.vec.mdepth = 0 := by decide +kernel

/-- The descriptor of `texture` at 0x2000, and coordinates 0. -/
def textured (t : Word) : State :=
  { vecAt t 2 [(1, 0x2000), (2, 0x1004), (3, 0x3000)] with mem := memWrite [] 0x2000 (leBytes 8 0x1000 ++ leBytes 4 16 ++ leBytes 2 4 ++ leBytes 2 4 ++ [0, 1]) }

theorem witness_Shading : (let v := v64 2 [(1, 0x4000)]
      ready v && v.seq.vec.shadeOk 64 true true (v.seq.vec.grp 2 64) (v.seq.vec.grp 2 64) && okP (v.readBlock (v.x 1) 32 32) fun b _ => field b 0x10 4 == 0) = true ∧
    (let s := textured 0xD8; ready s && s.seq.vec.shadeOk 64 true false (s.seq.vec.grpK 4 64 2) (s.seq.vec.grpK 2 64 1) && okP (s.readTexture (s.x 1)) fun _ _ => true) = true ∧
    (let s := textured 0xD0
     ready s && s.seq.vec.shadeOk 32 true false (s.seq.vec.grpK 4 32 4) (s.seq.vec.grpK 2 64 2) && okP (s.readTexture (s.x 1)) fun t s1 =>
       okP (runElems (s.seq.vec.active true) (fun i st => (st.sample st.via t (s.seq.vec.get 2 64 i)).bind fun l st1 =>
         .ok () (st1.updVec fun u => u.put4 4 i fun ch => l.getD ch 0)) 2 s1) fun k _ => k == none) = true ∧
    (let s := vecAt 0xD0 1 [(1, 0x3000)]
     ready s && s.seq.vec.shadeOk 32 true false (s.seq.vec.grpK 4 32 1) (s.seq.vec.grpK 2 64 2) && [(32, boxHit), (48, triHit)].all fun p =>
       okP (runElems (s.seq.vec.active true) (fun i st => (st.rayElem i (s.x 1 + BitVec.ofNat 64 (48 * i)) (BitVec.ofNat 64 (s.seq.vec.get 2 64 i)) p.1 p.2).bind fun x st1 =>
         .ok () (st1.updVec fun u => u.put 4 32 i x)) 1 s) fun _ _ => true) = true ∧
    ((textured 0xD8).x 2).toNat % 32 ≠ 0 := by decide +kernel

/-! ## Engines -/

/-- Hart 0 after some instructions on a state. -/
def then_ (s : State) (is : List Instr) : State := is.foldl (fun s i => after (exec i s)) s

def regs : List (Reg × Word) := [(1, 0x1000), (2, 0x2000), (3, 64), (4, 0x4000), (5, 1), (6, 2), (7, 3)]

/-- Memory with what the descriptors of a copy and a chain need, and the regions they move. -/
def copying : State :=
  { start regs with mem := memWrite (memWrite (memWrite [] 0x1000 (leBytes 8 1 ++ leBytes 8 0x8000 ++ leBytes 8 0x9000 ++ leBytes 8 64)) 0x1038 [1]) 0x2000 [1] }

/-- An mma word at 0x1018, and at 0x5018 the same with one of its register fields not 0. -/
def follows : State :=
  { start ((8, 0x5000) :: regs) with mem := memWrite (memWrite [] 0x1018 (leBytes 4 0x0000017B)) 0x5018 (leBytes 4 0x0006017B) }

theorem witness_Copies : (start regs).onCore = true ∧ (start regs).seq.copy.full = false ∧ ((start regs).x 4).toNat % 64 = 0 ∧ ((start regs).x 5).toNat % 64 ≠ 0 ∧
    (linearOp 0 (start regs).seq.pc 0 64).rows * (linearOp 0 0 0 64).rowBytes ≠ 0 ∧ (linearOp 0 0 0 0).failed = none ∧ (linearOp 0 0 0 0).rowBytes = 0 ∧
    (okP ((start regs).loadAt (start regs).via 0x1000 32 false) fun _ _ => true) = true ∧
    (okP (follows.loadAt follows.via 0x1000 64 false) fun b _ => (mmaWord (BitVec.ofNat 32 (fld b 0x18 4))).isSome) = true ∧
    (okP (follows.loadAt follows.via 0x5000 64 false) fun b _ => (mmaWord (BitVec.ofNat 32 (fld b 0x18 4))).isNone) = true ∧ follows.seq.mat.ops.length < 4 ∧
    ((start regs).x 2).toNat % 16 = 0 ∧ (start regs).seq.copy.chains.length < 2 ∧
    (okP ((start regs).loadAt (start regs).via 0x2000 16 false) fun _ _ => true) = true ∧ trapP ((start regs).loadAt (start regs).via 0x00C000000000 16 false) 5 = true ∧
    (then_ (start regs) [.cpChain 9 1 2, .cpChain 10 1 2]).seq.copy.chains.length = 2 ∧ (withSeq (start regs) fun q => { q with mode := .m }).onCore = true ∧
    ({ start regs with hart := supervisorOf 0 } : State).onCore = false ∧
    (then_ (start regs) (List.replicate 15 (.cpG2g 9 1 2 3))).seq.copy.full = false ∧ (then_ (start regs) (List.replicate 16 (.cpG2g 9 1 2 3))).seq.copy.full = true := by
  decide +kernel

/-- A stream of four doublewords at 0x2000, its descriptor at 0x1000. -/
def streamed (n : Nat) : State :=
  let s := { v64 2 [(1, 0x1000)] with mem := memWrite [] 0x1000 (leBytes 8 0x2000 ++ leBytes 8 8 ++ leBytes 8 4 ++ leBytes 8 3) }
  then_ s (.scfg 5 1 0 :: List.replicate n (.streamFetch 0 0))

/-- Stream 0 with its end marker, after a fault. -/
def faulted : State := withSeq (streamed 0) fun q => q.setStream 0 { q.stream 0 with state := .faulted, fcause := 5, marker := some 5 }

/-- Stream 0 faulted with one element read before its marker, and none; vl 0 and 2. -/
def marked (n vl : Nat) : State :=
  withSeq (streamed n) fun q => { q.setStream 0 { q.stream 0 with state := .faulted, fcause := 5, marker := some n } with vec := { q.vec with vl := vl } }

/-- Each way in which spop ends: enough elements, fewer before a marker or before COUNT, a marker alone (for vl 2 and vl 0), and a queue that is too short. -/
theorem witness_Pops : (let t := (streamed 4).seq.stream 0; t.open && decide (t.next + t.queue.length = t.count ∧ t.queue ≠ [])) = true ∧
    (let t := (marked 1 2).seq.stream 0; t.open && t.marker.isSome && decide (t.queue.length = 1 ∧ min (marked 1 2).seq.vec.vl 1 < (marked 1 2).seq.vec.vl)) = true ∧
    ([0, 2].all fun vl => let t := (marked 0 vl).seq.stream 0; t.open && t.queue == [] && t.marker == some 0) = true ∧
    (let t := (streamed 1).seq.stream 0; t.open && t.marker.isNone && decide (t.queue.length < (streamed 1).seq.vec.vl ∧ t.next + t.queue.length ≠ t.count)) = true := by
  decide +kernel

/-- A deferred matrix error under operation 2, with operation 2 complete. -/
def pended : State := withSeq (start regs) fun q => { q with mat := { q.mat with iss := 2, count := 2, pend := some (29, 2) } }

theorem witness_Timelines : (let s := then_ (start regs) [.cpG2g 9 1 2 3]
      decide (s.seq.tlCount 0 < min (s.x 5).toNat (s.seq.tlIss 0)) && s.onCore) = true ∧
    min ((start regs).x 5).toNat ((start regs).seq.tlIss 2) ≤ (start regs).seq.tlCount 2 ∧
    (min (pended.x 6).toNat (pended.seq.tlIss 1) = 2 ∧ pended.seq.mat.count = 2 ∧ pended.seq.mat.pend = some (29, 2) ∧ min (pended.x 5).toNat (pended.seq.tlIss 1) < 2) ∧
    (State.reset.seq.tlValue 0).isSome = true ∧ State.reset.seq.tlValue 31 = none ∧ ((start regs).x 1).toNat % 32 = 0 ∧
    ((streamed 0).seq.stream 0).open = true ∧ ((streamed 0).seq.stream 0).queue = [] ∧ ((streamed 0).seq.stream 0).marker = none ∧
    ((streamed 2).seq.stream 0).queue.length = 2 ∧ (streamed 2).seq.vec.vl ≤ ((streamed 2).seq.stream 0).queue.length ∧ ready (streamed 2) = true ∧
    0 < (streamed 0).seq.vec.vl ∧ ((streamed 0).seq.stream 0).next ≠ ((streamed 0).seq.stream 0).count ∧ (streamed 2).seq.vec.sew = 8 * ((streamed 2).seq.stream 0).bytes ∧ ((streamed 2).seq.vec.grp 31 64).ok 32 = true ∧ ((streamed 2).seq.stream 1).open = false ∧
    (faulted.seq.stream 0).state = .faulted ∧ (faulted.seq.stream 0).marker.isSome = true ∧
    (streamOf (leBytes 24 0 ++ leBytes 8 4) 1 Issuer.task) = none ∧ (streamOf (leBytes 24 0 ++ leBytes 8 3) 1 Issuer.task).isSome = true ∧
    (let s := streamed 3; let st := s.seq.stream 0
     decide (st.state = .running ∧ st.next + st.queue.length < st.count ∧ st.queue.length < st.room) &&
       okP (s.loadAt (s.viaEng 0 st.issuer false) (st.base + st.stride * BitVec.ofNat 64 (st.next + st.queue.length)) st.bytes false) fun _ _ => true) = true := by
  decide +kernel

/-- Hart 0 holds core 0's matrix context; x2 is the control word of a tile of one row. -/
def holding (n : Nat) : State :=
  then_ (start [(1, 0x1000), (2, 0), (5, 1), (6, 2), (7, 3)]) (.mcfg 9 5 :: List.replicate n (.mload 0 1 2))

def matP (s : State) (i : Instr) : Bool := (matCommand s i).isSome

theorem witness_Matrix : (holding 3).holdsMat = true ∧ (holding 3).seq.mat.pend = none ∧ (holding 3).seq.mat.ops.length = 3 ∧ (holding 4).seq.mat.ops.length = 4 ∧
    ((holding 3).core 0).fenced ≠ 3 ∧ (start []).holdsMat = false ∧ (start []).onCore = true ∧
    ([.mmaE4e4 0 1 2 0, .mmaI8i8 3 1 2 0, .mmaBfbf 1 1 2, .mload 0 1 2, .mstF32 0 1 2, .mstE4m3 0 1 2 0, .mzero 2].all fun i => matP (holding 0) i && matP (start []) i) = true ∧
    (withSeq (holding 1) fun q => { q with mat := { q.mat with pend := some (29, 1) } }).seq.mat.pend.isSome = true ∧
    matP { holding 0 with cores := [(0, { (holding 0).core 0 with fenced := 3 })] } (.mload 0 1 2) = true ∧
    ((start []).core 0).holder = none ∧ ((holding 0).core 0).holder = some 0 ∧ (({ start [] with cores := (holding 0).cores, hart := 1 } : State).core 0).holder = some 0 ∧
    (2 : Nat) < ((holding 0).x 7).toNat := by decide +kernel

def finishedP : CopyRun → Bool | .finished _ => true | _ => false
def failedP (c : Nat) : CopyRun → Bool | .failed c' _ _ => c' == c | _ => false
def opOf (s : State) : CopyOp := s.seq.copy.ops.headD (linearOp 0 0 0 0)

/-- An entry of a chain: CTRL, a copy of n bytes from 0x9000 to 0x8000, no next entry, number k. -/
def entryOf (ctrl n k : Nat) : List Byte := leBytes 8 ctrl ++ leBytes 8 0x8000 ++ leBytes 8 0x9000 ++ leBytes 8 n ++ leBytes 24 0 ++ leBytes 8 k

/-- A chain whose first entry stands at 0x1000 and whose TAIL, at 0x2000, is as given. -/
def chainedBy (entry : List Byte) (tail : Nat) : State :=
  let s := start [(1, 0x1000), (2, 0x2000)]
  then_ { s with mem := memWrite (memWrite [] 0x1000 entry) 0x2000 (leBytes 8 tail) } [.cpChain 9 1 2]
def chained (tail : Nat) : State := chainedBy (entryOf 1 64 1) tail

/-- Its chain with some fields set. -/
def rechain (s : State) (f : Chain → Chain) : State := withSeq s fun q => { q with copy := { q.copy with chains := q.copy.chains.map f } }

/-- The chain, the state after its TAIL is read, and what the read of its entry gives, pass a test. -/
def chainP (s : State) (p : Chain → State → Res (List Byte) → Bool) : Bool :=
  match s.seq.copy.chains with
  | [c] =>
    let via := s.viaEng 0 c.issuer true
    okP (s.readBytes via c.pair 8) fun b s1 => decide (c.k ≤ leNat b) && p c s1 (s1.readBytes via c.next 64)
  | _ => false

/-- Three other entries in progress. -/
def busyWith (n : Nat) (c : Chain) : Chain := { c with running := (List.range n).map fun i => (i + 2, linearOp 2 0x8000 0x9000 64) }

/-- Entries: an ill formed one; one with FENCE, alone and behind another; a fourth and a fifth at once; the stop entry, with DONE written and refused; one that
cannot be read, and a pair that cannot. -/
theorem witness_Chains : chainP (chainedBy (entryOf 3 64 1) 1) (fun c _ r => okP r fun d _ => (chainEntry d c.k).isNone) = true ∧
    chainP (chainedBy (entryOf 0x101 64 1) 1) (fun c _ r => c.running == [] && okP r fun d _ => match chainEntry d c.k with | some (k, fence, _, _) => k == 1 && fence | none => false) = true ∧
    chainP (rechain (chainedBy (entryOf 0x101 64 1) 1) (busyWith 1)) (fun c _ r => c.running != [] && !c.running.any (fun e => e.1 == c.k) && okP r fun _ _ => true) = true ∧
    chainP (rechain (chained 1) (busyWith 3)) (fun c _ r => c.running.length == 3 && okP r fun _ _ => true) = true ∧
    chainP (rechain (chained 1) (busyWith 4)) (fun c _ r => c.running.length == 4 && okP r fun _ _ => true) = true ∧
    chainP (chainedBy (entryOf 0 0 1) 1) (fun c _ r => c.running == [] && okP r fun d w => (match chainEntry d c.k with | some (k, _, _, _) => k == 0 | none => false) &&
      okP (w.chainDone 0 c c.k) fun _ _ => true) = true ∧
    chainP (rechain (chainedBy (entryOf 0 0 1) 1) fun c => { c with pair := 0x2000 }) (fun c _ r => okP r fun _ w =>
      trapP (({ w with coh := { w.coh with rods := [] }, parts := [(0, { Part.zero with granules := 0 })], seq := { w.seq with mode := .m } } : State).chainDone 0 { c with issuer := { c.issuer with mode := .u } } c.k) 7) = true ∧
    chainP (rechain (chained 1) fun c => { c with next := 0xC000000000 }) (fun _ _ r => trapP r 5) = true ∧
    (match (rechain (chained 1) fun c => { c with pair := 0xC000000000 }).seq.copy.chains with
      | [c] => trapP ((chained 1).readBytes ((chained 1).viaEng 0 c.issuer true) c.pair 8) 5 | _ => false) = true := by decide +kernel

/-- A chain with one entry in progress, the one of its number that comes next in order or a later one. -/
def going (k : Nat) (op : CopyOp) : State := rechain (chained 1) fun c => { c with k := 3, running := [(k, { op with issuer := c.issuer })] }

/-- Which entry goes on is free; of one there is no choice. -/
theorem witness_Going (k : Nat) (op : CopyOp) : ∀ c, (going k op).seq.copy.chains = [c] → c.running[((going k op).draw).1.toNat % c.running.length]? = c.running[0]? := by
  intro c h
  have l : (chained 1).seq.copy.chains.length = 1 := by decide +kernel
  have e : c.running.length = 1 := by
    match x : (chained 1).seq.copy.chains, l with
    | [c0], _ => simp [going, rechain, withSeq, x] at h; simp [← h]
  simp [e, Nat.mod_one]

/-- A copy of an entry that finishes, next in order and not, with DONE written; and one that fails. -/
theorem witness_Entries : (going 1 (linearOp 2 0x8000 0x9000 64)).seq.copy.ops = [] ∧
    finishedP ((going 1 (linearOp 2 0x8000 0x9000 64)).draw.2.copyAll 0 (linearOp 2 0x8000 0x9000 64)) = true ∧
    failedP 7 ((going 1 (linearOp 2 0xC000000000 0x9000 64)).draw.2.copyAll 0 (linearOp 2 0xC000000000 0x9000 64)) = true ∧
    (tlComplete 0 [] 1).1 = 1 ∧ (tlComplete 0 [] 2).1 = 0 ∧
    (match (going 1 (linearOp 2 0x8000 0x9000 64)).seq.copy.chains with | [c] => okP ((going 1 (linearOp 2 0x8000 0x9000 64)).chainDone 0 c 1) fun _ _ => true | _ => false) = true := by
  decide +kernel

/-- A copy that finishes and one that faults; a chain before and after its entry is published; a matrix operation, a clearing one; sampling whose writes
are acknowledged and whose writes to a peer are not. -/
theorem witness_Engines : (let s := then_ (start regs) [.cpG2g 9 1 2 3]; finishedP (s.copyAll 0 (opOf s)) && decide ((opOf s).follow = none)) = true ∧
    (let s := then_ (start [(1, 0xC000000000), (2, 0x2000), (3, 64)]) [.cpG2g 9 1 2 3]; failedP 7 (s.copyAll 0 (opOf s)) && decide ((opOf s).tok ≠ 0)) = true ∧
    ((chained 0).seq.copy.chains.map fun c => (c.k, okP ((chained 0).readBytes ((chained 0).viaEng 0 c.issuer true) c.pair 8) fun b _ => decide (leNat b < c.k))) = [(1, true)] ∧
    ((chained 1).seq.copy.chains.map fun c => okP ((chained 1).readBytes ((chained 1).viaEng 0 c.issuer true) c.pair 8) fun b s1 => decide (c.k ≤ leNat b) &&
      okP (s1.readBytes ((chained 1).viaEng 0 c.issuer true) c.next 64) fun d _ => (match chainEntry d c.k with | some (kind, fence, _, _) => kind != 0 && !fence | none => false) &&
        decide (c.running.length < 4) && !c.ended.contains c.k && !c.running.any (fun e => e.1 == c.k)) = [true] ∧
    ((holding 1).seq.mat.ops.map fun op => (match (holding 1).runMat 0 op with | .ended e _ => decide (e = .good) | _ => false) && decide (op.copyN = none) && !op.failed && !op.follow) = [true] ∧
    ((then_ (holding 0) [.mzero 2]).seq.mat.ops.map fun op => decide (op.kind = .mzero)) = [true] ∧
    ([true, false].map fun owed =>
      let op : TexOp := { desc := leBytes 8 0x1000 ++ leBytes 4 16 ++ leBytes 2 4 ++ leBytes 2 4 ++ leBytes 16 256, out := 0x6000, rtag := 0, rhidx := 0, count := 1, coords := [(0, 0)],
                          issuer := Issuer.task }
      let s0 := withSeq (tasked true 1 []) fun q => { q with tex := [op] }
      let via := s0.viaEng 0 op.issuer false
      let s := if owed then { s0 with host := { s0.host with out := [⟨via.party, 0, 0, 64, 0, false⟩] } } else s0
      match textureOf op.desc with
      | some t => (match texRun via t op op.coords s with | .ended _ _ s1 => s1.peerOwes via.party == owed | _ => false)
      | none => false) = [true, true] := by decide +kernel

/-! ## Messages, contexts and pairs -/

/-- Hart 0 runs a message task with eight doublewords of payload at 0x1000; x3 is the control word, and n messages of its core are on their way. -/
def sender (c : Word) (n : Nat) (reqs : Nat) : State :=
  { tasked true 1 [(1, 0x1000), (2, c), (3, 0x1001)] with
      seq := { (tasked true 1 [(1, 0x1000), (2, c), (3, 0x1001)]).seq with reqs := (List.range reqs).map fun i => ⟨i, 0, 0⟩ },
      net := (List.range n).map fun i => { message with hidx := i } }
where
  message : Msg := Msg.blank 0 0 0 0

/-- Bits of a control word: LEN 448, the largest; a request; a reserved bit; a hart id that is none. -/
def lenMax : Word := 448 * 2 ^ 24

theorem witness_Sends : sendBad lenMax = false ∧ sendBad (lenMax + 2 ^ 24) = true ∧ sendBad (2 ^ 48) = true ∧ (sender lenMax 0 0).destOk (getBits lenMax 0 13) = true ∧
    (sender 4096 0 0).destOk (getBits (4096 : Word) 0 13) = false ∧ (sender 0 0 0).destOk (getBits (4095 : Word) 0 13) = true ∧
    (okP ((sender lenMax 7 0).readPayload 0x1000 448) fun _ s1 => decide (s1.redsOut s1.via.party = 0)) = true ∧
    getBits lenMax 24 9 ≤ 448 ∧ (sender lenMax 7 0).sourceFull 0 = false ∧
    (sender lenMax 8 0).sourceFull 0 = true ∧ ((sender 0 0 0).x 3).toNat % 8 ≠ 0 ∧ (lenMax + 2 ^ 33).getLsbD 33 = true ∧ sendBad (lenMax + 2 ^ 33) = false ∧
    (sender 0 0 7).requestsFull = false ∧ (sender 0 0 8).requestsFull = true ∧ (sender 0 0 0).seq.hs.inside = false := by decide +kernel

/-- The same task inside a handler that owes a reply; and idle, with the messages in its inbox. -/
def replier : State := withSeq (sender 0 0 0) fun q => { q with hs := { q.hs with mode := true, inside := true, owed := true, reqHart := 7 } }
def idler (chan : Bool) : State :=
  { withSeq (sender 0 0 0) fun q => { q with run := .idle, hs := { q.hs with mode := true } } with
      cores := [(0, { Core.reset with inbox := [{ sender.message with chan := chan }] })] }

theorem witness_Replies : (replier.seq.hs.inside && replier.seq.hs.owed) = true ∧ getBits (448 : Word) 9 55 = 0 ∧ sendRoom replier 0x1000 (getBits (448 : Word) 0 9) ∧
    (∃ t, (sender 0 0 0).seq.task = some t ∧ t.hm = true) ∧ (sender 0 0 0).seq.mode = .u ∧ (sender 0 0 0).seq.vec.mdepth = 0 ∧ (sender 0 0 0).seq.hs.owed = false ∧
    (sender 0 0 0).seq.halt = none ∧ (sender 0 0 0).redsOut (sender 0 0 0).via.party = 0 ∧ (withSeq (sender 0 8 0) fun q => { q with hs := replier.seq.hs }).sourceFull 0 = true ∧
    State.reset.seq.mode ≠ .u := by
  refine ⟨by decide +kernel, by decide, by unfold sendRoom; decide +kernel, ⟨taskOf true, by decide +kernel⟩, ?_⟩
  decide +kernel

/-- An element each of msendv and vwait; the descriptor of vwait at 0x1000 is mode 0, value 0, without a timeout; value 1, of which the element falls
short, without and with a timeout that has passed; and a wait tested again. -/
theorem witness_VectorMessages : (let s := v64 2 [(1, 0)]
      ready s && !sendBad (s.x 1) && decide (getBits (s.x 1) 0 13 = 0) && !(s.x 1).getLsbD 33 && decide (s.redsOut s.via.party = 0) &&
        s.seq.vec.legalSrcs true [s.seq.vec.grp 2 64, s.seq.vec.grp 3 64] &&
        okP (runElems (s.seq.vec.active true) (fun i st => st.sendElem (s.x 1) 2 3 i) 2 s) fun k _ => k == none) = true ∧
    (let s := { v64 1 [(1, 0x1000)] with mem := memWrite [] 0x1008 (leBytes 8 (2 ^ 64 - 1)) }
     ready s && s.seq.vec.legalSrcs true [s.seq.vec.grp 2 64] && !(maskGrp 31).overlaps (s.seq.vec.grp 2 64) && s.seq.armed.isNone &&
       okP ((s.arm []).readCmd 0x1000 32) fun b s1 =>
         !waitBad b && okP (runElems (s.seq.vec.active true) (fun i st => st.testWord (fld b 0x10 4 == 0) (fld b 0 8) (s.seq.vec.get 2 64 i) i) 1 s1) fun k s2 =>
           k == none && s2.seq.elems == [0]) = true ∧
    ([2 ^ 64 - 1, 0].map fun limit =>
      let s := { v64 1 [(1, 0x1000)] with mem := memWrite [] 0x1000 (leBytes 8 1 ++ leBytes 8 limit) }
      okP ((s.arm []).readCmd 0x1000 32) fun b s1 =>
        okP (runElems (s.seq.vec.active true) (fun i st => st.testWord (fld b 0x10 4 == 0) (fld b 0 8) (s.seq.vec.get 2 64 i) i) 1 s1) fun k s2 =>
          k == none && s2.seq.elems == [] && decide (limit ≠ 2 ^ 64 - 1 ∧ limit ≤ s2.time - s2.armedAt) == decide (limit = 0)) = [true, true] ∧
    (let s := (v64 1 [(1, 0x1000)]).arm (leBytes 8 0 ++ leBytes 8 (2 ^ 64 - 1) ++ leBytes 16 0 ++ leBytes 8 1)
     s.seq.armed.isSome && okP (runElems (s.seq.vec.active true) (fun i st => st.testAgain true 0 (s.seq.vec.get 2 64 i) i) 1 s) fun k s2 =>
       k == none && s2.seq.elems == [0]) = true ∧
    waitBad (leBytes 16 0 ++ [2]) = true := by decide +kernel

/-- A pipeline of two stages of one task each, with channel 0 from the first to the second; hart 0 runs the task of a stage. -/
def pipeHeader (handler : Bool) (i : Nat) : Byte :=
  if i = 4 then 2
  else if i = 5 ∨ i = 0x38 ∨ i = 0x48 ∨ i = 0xB1 then 1
  else if i = 0x4A ∧ handler then 1
  else if i = 0xB0 then 8
  else if i = 0xB2 then 4
  else 0
def pipeline (handler : Bool) : Launch :=
  { launchOf 1 with kind := 2, total := 2, homes := [(0, 0), (1, 0)], retired := [0], header := (List.range 256).map (pipeHeader handler) }
def piped (handler : Bool) (stage : Nat) (items : List ChanItem) (closed : Bool) (rs : List (Reg × Word)) : State :=
  { withSeq (tasked handler 1 rs) fun q => { q with task := some { taskOf handler with lin := stage, pipe := some (stage, 0) } } with
      launches := [pipeline handler],
      cores := [(0, { Core.reset with chans := [⟨1, 0, 1, 0, Config.scratchBase, 4, 64, items, [], closed, false⟩] })] }
/-- The buffer of channel 0 for the consumer that hart 0 runs. -/
def bufP (s : State) (p : ChanBuf → Bool) : Bool :=
  match s.consumes (s.x 5) with | some (_, t, ch) => (match s.chanBuf t ch with | some k => p k | none => false) | none => false

theorem witness_Channels : ((piped false 0 [] false []).sendChan 0).isSome = true ∧ ((piped false 0 [] false []).sendChan (64 * 2 ^ 16)).isSome = true ∧
    (piped false 0 [] false []).sendChan (65 * 2 ^ 16) = none ∧ (piped false 0 [] false []).sendChan 1 = none ∧ (piped false 0 [] false []).consumes 0 = none ∧
    bufP (piped false 1 [⟨0, 64, 0⟩] false []) (fun k => !k.filled.isEmpty) = true ∧ bufP (piped false 1 [] true []) (fun k => k.filled.isEmpty && k.closed) = true ∧
    bufP (piped false 1 [] false []) (fun k => k.filled.isEmpty && !k.closed) = true ∧ (pipeline false).isHandlerStage 1 = false ∧
    (pipeline false).stageOver 0 = true ∧ ({ pipeline false with retired := [] }).stageOver 0 = false := by decide +kernel

/-- The block of agent 1, its ring of two slots with q pushed; a command in x2. -/
def agented (q : Nat) : State :=
  { tasked false 1 [(1, agentBlock 1), (2, 0x1000)] with agents := [(1, { Agent.reset with en := true, qsize := 2, qbase := 0x8000, qtail := q })] }
/-- A push onto an agent's ring that may be made: it is written and announced, on the ring or past its end. -/
def pushP (s : State) (k : Nat) (full : Bool) : Bool :=
  okP (s.writeBytes s.via ((s.agent 1).slotVa k) (List.replicate 64 0)) fun _ s3 => match s3.agentNotify 1 k with | .done _ => !full | .full => full
/-- `agented` whose ring lies under a region that hart 9 holds, a slot reserved before it waits; and with the boundaries of die 0 cut off. -/
def agentRod : State := { agented 1 with coh := { Coh.reset with rods := [(8, rodOf 9 [] false none)] } }
def cutOff (s : State) : State := { s with dev := { s.dev with severed := [0], rerouted := [2] } }
/-- With room; full; with a slot kept; no agent block; past a cut; a misaligned command; a write that waits. -/
theorem witness_Aqpush : [(agented 1), (agented 2)].map (fun s => oneP (s.locate s.via (s.x 1) 8 .store) fun l s1 =>
      decide ((s.x 1).toNat % 4096 = 0) && l.t == .agent 1 0 && okP (s1.readWords s1.via (s.x 2) 8 64) fun b s2 => let g := s2.agent 1
        decide (s2.redsOut s2.via.party = 0) && s2.seq.elems == [] && b == List.replicate 64 0 && (decide (g.qsize ≤ (g.qtail + 2 ^ 64 - g.qhead) % 2 ^ 64) ||
          pushP (s2.modAgent 1 fun x => { x with qtail := (x.qtail + 1) % 2 ^ 64 }) g.qtail false)) = [true, true] ∧ ((agented 2).agent 1).qsize ≤ ((agented 2).agent 1).qtail ∧
    pushP (agented 1) 0 false = true ∧ pushP ((agented 3)) 2 true = true ∧
    [(agented 1).x 2, agentBlock 15].map (fun p => oneP ((agented 1).locate (agented 1).via p 8 .store) fun l _ => decide (p.toNat % 4096 = 0) &&
      match l.t with | .agent n o => o != 0 || n % 16 == 15 | .void => false | _ => true) = [true, true] ∧ ((agented 1).x 2 + 8).toNat % 4096 ≠ 0 ∧
    oneP ((cutOff (agented 1)).locate (agented 1).via (agentBlock 17) 8 .store) (fun l _ => l.t == .void) = true ∧ ((agented 1).x 2 + 1).toNat % 8 ≠ 0 ∧
    stallP (agentRod.writeBytes agentRod.via ((agentRod.agent 1).slotVa 1) (List.replicate 64 0)) .rod = true := by decide +kernel

/-- The command of tex.sa at 0x5000 names the descriptor at 0x2000. -/
theorem witness_TexSa : (let s0 := { textured 0xD0 with mem := memWrite (textured 0xD0).mem 0x5000 (leBytes 8 0x2000 ++ leBytes 8 0x6000) }
    let s := withSeq s0 fun q => { q with x := (q.x.set 1 0x5000), task := some (taskOf true) }
    ready s && s.seq.vec.sew == 32 && (s.seq.vec.grpK 2 64 2).ok 32 && okP (s.readBlock (s.x 1) 32 32) fun b s1 => fld b 8 8 % 16 == 0 && fld b 0x19 7 == 0 &&
      okP (s1.readBlock (fldW b 0) 32 32) fun d s2 => (textureOf d).isSome && !s2.requestsFull && s2.seq.vec.legalSrcs true [s2.seq.vec.grpK 2 64 2]) = true := by decide +kernel

/-- A message under way to hart 0: taken; with its inbox full; bounced; forwarded. -/
def toHandler (n : Nat) (fwd : List Forward) : State :=
  { withSeq (sender 0 1 0) fun q => { q with run := .idle, hs := { q.hs with mode := true } } with
      cores := [(0, { Core.reset with inbox := List.replicate n sender.message, fwd := fwd })] }
theorem witness_Arrivals : ((toHandler 63 []).net[0]?.map fun m => (toHandler 63 []).inOrder 0 m && ((toHandler 63 []).forwardOf m.dest).isNone && (toHandler 63 []).taker m == some none &&
      decide ((toHandler 63 []).msgPath m = .open)) = some true ∧
    (let m := { sender.message with src := 0x400 }
      let cut (a b : List Nat) : Path := { State.reset with dev := { State.reset.dev with severed := a, rerouted := b } }.msgPath m
      cut [0] [] = .waits ∧ cut [] [0] = .open ∧ cut [0] [2] = .lost) ∧
    ((sender 0 2 0).net[1]?.map fun m => (sender 0 2 0).inOrder 1 { m with hidx := 0 }) = some false ∧
    (toHandler 63 []).inboxRoom 0 = true ∧ (toHandler 64 []).inboxRoom 0 = false ∧ (tasked false 1 []).taker sender.message = none ∧
    (toHandler 0 [⟨0, 5, 1⟩]).forwardOf 0 = some 5 ∧ ((idler false).firstFor 0).isSome = true ∧ (idler false).seq.mayStart = true ∧
    ((idler true).firstFor 0).map (·.chan) = some true ∧ (okP ((idler false).loadAt ((idler false).viaTask 0) 0 8 false) fun _ _ => true) = true ∧
    trapP ((idler false).loadAt ((idler false).viaTask 0) 0x00C000000000 8 false) 5 = true ∧
    (((piped true 1 [] false []).core 0).chans.find? fun x => x.hart == 0 && x.chan == 0).isSome = true ∧
    (okP (((idler false).safePoint 0).loadAt ((idler false).viaTask 0) 0 8 false) fun _ _ => true) = true ∧
    trapP (((idler false).safePoint 0).loadAt ((idler false).viaTask 0) 0x00C000000000 8 false) 5 = true := by decide +kernel

/-- A message that has bounced, its context now on hart 5, or nowhere; a zero trigger in a kexit; a message that stands in the network, and one that does not. -/
theorem witness_Bounced : (let away (m : List (Nat × Ctx)) : State := { start [] with
        net := [{ sender.message with bounced := true, cls := .request }], moved := m, seqs := [(5, { Seq.reset with task := some (taskOf true) })] }
      ((away [(0, .task 1 0)]).net[0]?.map fun m => m.bounced && (away [(0, .task 1 0)]).newHome m == some 5) = some true ∧
      ((away []).net[0]?.map fun m => m.bounced && ((away []).newHome m).isNone && ((away []).taker m).isNone && m.cls == .request) = some true) ∧
    (withSeq (start []) fun q => { q with stall := some .exit }).spent { sender.message with cls := .trigger } = true ∧ (start []).spent sender.message = false ∧
    (start []).waitsOnGo { sender.message with gone := true } = true ∧ (start []).waitsOnGo sender.message = false ∧ sender.message.bounced = false := by decide +kernel

/-- A halted context on hart 1, hart 0 its supervisor in S mode, and an area at 0x20000. -/
def supervising (rs : List (Reg × Word)) : State :=
  { withSeq (start rs) fun q => { q with mode := .s } with
      seqs := [(1, { Seq.reset with run := .halted, mode := .u, since := some 0, task := some { taskOf false with scrLen := 0 } })],
      launches := [{ launchOf 1 with homes := [(0, 1)] }] }
/-- A supervisor hart with the area of that context at 0x20000: its bytes that are not 0 are of FW, SIZE, the hart, the time, the part offsets, mode and CSRs. -/
def unloaded : State :=
  { withSeq (start [(1, 1), (2, 0x20000)]) fun q => { q with mode := .s } with
      mem := [(0x20000, 1), (0x20005, 8), (0x20008, 1), (0x20015, 240), (0x20029, 8), (0x20031, 8), (0x20035, 8), (0x20257, 128), (0x2025A, 1), (0x20260, 2)],
      saved := [⟨0x20000, 1, { Seq.reset with mode := .u, task := some { taskOf false with scrLen := 0 } }⟩], launches := [{ launchOf 1 with homes := [(0, 1)] }] }

theorem witness_Contexts : (let s := supervising [(1, 1), (2, 0x20000)]
      let s0 := (s.flushP s.hart).settled s.hart
      decide ((s.x 1).toNat < 4096 ∧ hartCluster 1 = hartCluster s.hart ∧ (s.getSeq 1).run = .halted ∧ (s.x 2).toNat % 128 = 0 ∧ (s.getSeq 1).engRecs.length ≤ 16) &&
        (s.getSeq 1).drained && !s.peerOwes s.via.party &&
        okP (s0.locateAll s0.via .store (pieces 200 (s.x 2) (s.saveArea 1).bytes.length)) fun ls s1 => okP (s1.storeLocs s1.via ls (s.saveArea 1).bytes) fun _ _ => true) = true ∧
    (let s := supervising [(1, 1), (2, 0xC000000000)]
     let s0 := (s.flushP s.hart).settled s.hart
     trapP (s0.locateAll s0.via .store (pieces 200 (s.x 2) (s.saveArea 1).bytes.length)) 7 && trapP (s.locate s.via (s.x 2) 64 .load) 5) = true ∧
    (let owes (s : State) : State := { s with host := { s.host with out := [⟨s.via.party, 0, 0, 64, 0, false⟩] } }
     let s := owes (supervising [(1, 1), (2, 0x20000)])
     (s.getSeq 1).drained && decide ((s.getSeq 1).engRecs.length ≤ 16) && s.peerOwes s.via.party) = true ∧
    16 < (then_ follows (List.replicate 13 (.cpG2g 9 1 2 3) ++ List.replicate 3 (.cpMma 9 1))).seq.engRecs.length ∧
    (supervising []).getSeq 2 = Seq.reset ∧ (supervising []).moveStatus 1 2 = none ∧ (supervising []).replyRoom 1 2 = true ∧ ((supervising []).moveStatus 1 1).isSome = true ∧
    (okP (unloaded.locate unloaded.via 0x20000 64 .load) fun ls s1 => okP (s1.loadRun s1.via 32 0x20000 2048) fun hd s2 =>
      let pa := firstByte ls; let base := s2.savedAt pa (fld hd 0x08 2)
      !s2.loadPlace 4096 (fld hd 0x08 2) base && s2.loadPlace 1 (fld hd 0x08 2) base && okP (s2.loadRest 1 pa 0x20000 hd base) fun p s3 =>
        match p with | .inl p => (s3.loadRoom p).isNone | .inr _ => false) = true ∧
    (let w := (tasked false 1 []).windDown 0; w.seq.engineIdle && !w.peerOwes w.via.party) = true ∧
    (let s := tasked false 1 []
     let w := ({ s with host := { s.host with out := [⟨s.via.party, 0, 0, 64, 0, false⟩] } } : State).windDown 0
     w.seq.engineIdle && w.peerOwes w.via.party) = true ∧ ((then_ (tasked false 1 regs) [.cpG2g 9 1 2 3]).windDown 0).seq.engineIdle = false ∧
    getBits (0xFFFFFFFF00030FFF : Word) 18 14 = 0 ∧ getBits (2 ^ 18 : Word) 18 14 ≠ 0 ∧ getBits (0x20000 : Word) 16 2 ≠ 3 ∧ getBits (0x30000 : Word) 16 2 = 3 := by decide +kernel

theorem witness_Pairs : membersClash (.alu .add 3 4 5) (.vmdepth 3) = true ∧ membersClash (.alu .add 3 4 5) (.vectorArithmetic 0 true 2 3 0 1) = false ∧
    memberAssigned (.vectorArithmetic 0 true 2 3 0 1) = true ∧ memberAssigned (.spop 2 4) = false ∧ (v32.x 1 != 0) = true ∧ (v32.x 0 != 0) = false ∧ v32.seq.vec.released = false ∧
    scalarMemberOk (.alu .add 3 4 5) = true ∧ vectorMemberOk (.vectorArithmetic 0 true 2 3 0 1) = true ∧ ((0 : Reg) ≠ 0 ∨ true = true) ∧
    (okP (doPair v32 (.alu .add 3 4 5) (.vectorArithmetic 0 true 2 3 0 1)) fun _ e => decide (e.seq.f = v32.seq.f)) = true ∧
    trapP (doScalar (.scalarLoad .ld 3 4 0) (withSeq v32 fun q => { q with x := q.x.set 4 0xC000000000 })) 5 = true ∧
    (okP (doScalar (.alu .add 3 4 5) v32) fun _ _ => true) = true ∧ trapP (doVector (.vectorArithmetic 0 true 2 3 0 1) (v32 fun v => { v with vstart := 1 })) 2 = true := by
  decide +kernel

/-! ## Lanes, pre-emption, code, homes and failing parts -/

/-- The contexts of core 0 all want lanes, one group is in service, hart 1 has waited 1 ms for those that hart 0 holds. -/
def crowded : State :=
  { withSeq (start []) fun q => { q with mode := .u, task := some (taskOf false), vec := { q.vec with wants := true, hmask := 0x80 } } with
      seqs := [1, 2, 3].map fun i => (i, { Seq.reset with stall := if i = 1 then some .lanes else none, since := some 0, vec := { Vec.reset with wants := true } }),
      cores := [(0, { Core.reset with dis := 0x7F })], time := 1000000, clusters := [(0, { Cluster.reset with lreq := 2 })] }

/-- Hart 0 of `crowded` with some state, seen from hart 1. -/
def from1 (f : Seq → Seq) : State := (withSeq crowded f).switch 1

theorem witness_Lanes : (crowded.cluster 0).lreq ≠ 0 ∧ (crowded.wanting 0).length = 4 ∧ min (crowded.capOf 0) (8 - popcount (crowded.core 0).dis) = 1 ∧
    (start []).wanting 0 = [] ∧ (crowded.getSeq 0).vec.hmask ≠ 0 ∧ (crowded.getSeq 1).stall = some .lanes ∧ (crowded.getSeq 1).since = some 0 ∧ crowded.time = 0 + 1000000 ∧
    (crowded.core 0).dis.getLsbD 7 = false ∧ (0x83FF : Word).getLsbD 7 = true ∧
    ({ start [] with seqs := [(supervisorOf 0, { Seq.reset with mode := .u, priv := { Priv.reset with mie := 0x10000 } })] }.getSeq (supervisorOf 0)).takesLrip = true := by
  decide +kernel

theorem witness_Halts : ((from1 id).getSeq 0).task.isSome = true ∧ ((from1 id).getSeq 0).halt = none ∧ ((from1 id).getSeq 0).run = .running ∧
    ((from1 fun q => { q with run := .idle }).getSeq 0).run = .idle ∧ ((from1 fun q => { q with halt := some 0 }).getSeq 0).lands = true ∧
    ((from1 fun q => { q with halt := some 0, loops := [⟨8, 40, 3, 2, .u⟩] }).getSeq 0).lands = false ∧ (from1 id).time = 1000000 ∧
    ((from1 id).getSeq 0).ctl.itbudget.toNat ≤ 3 * 1000000 ∧ ((from1 fun q => { q with run := .halted }).getSeq 0).run = .halted ∧
    ((from1 fun q => { q with stall := some .word }).getSeq 0).stall = some .word := by decide +kernel

theorem witness_BarrierEvent : (let s := { tasked false 1 [] with barriers := [⟨1, 0, 0, [0], []⟩] }; let b := s.barrier 1 0
    decide (b.arrived ≠ [] ∧ s.wgTasks 1 0 ≤ b.arrived.length ∧ b.launch = 1 ∧ b.wg = 0)) = true ∧
    (okP ((start []).xlate ((start []).viaHart 0) 0x1000 .store) fun _ _ => true) = true ∧
    trapP ((start []).xlate ((start []).viaHart 0) 0x1000000000000 .store) 7 = true := by decide +kernel

/-- An object with one page at 0x40000, one function, and a translation area of one page; `st` is the page's state. -/
def objOf (st : PageSt) : Obj :=
  { part := 0, cbase := 0x40000, phys := [some 0x40000], hashes := [0], pages := [st], lammel := (0x40000, 4096), native := (0x41000, 0), kinfo := (0, 0), names := [],
    gen := 1, desc := 0x50000, dtab := 0x60000, ndtab := 1, dtabPa := 0x60000, data := [], tarea := 0x80000, tareaPa := 0x90000, tsize := 4096, xonly := [0x90000],
    quarantined := false, retired := none, newObj := none, freed := false }
def coded (st : PageSt) : State := { start [] with objs := [objOf st], mem := memWrite [] 0x60000 (leBytes 8 0x40000) }

/-- A PTE on a code page, which no walk writes (R59). -/
theorem witness_TranslationOnCode : (let s := { faded with objs := [{ objOf .verified with phys := [some 0x11000] }] }
    walkP s s.via .store fun l s1 => permOk l.pte .store .s false false && (l.pte ||| 192) != l.pte && s1.isCodePage l.addr) = true := by decide +kernel

theorem witness_Code : ((objOf .unverified).pages[0]? = some .unverified ∧ (objOf .hashing).pages[0]? = some .hashing) ∧ (coded .hashing).poisoned ((objOf .hashing).pagePa 0) 4096 = false ∧
    (coded .verified).obj? 0 = some (objOf .verified) ∧ ((coded .verified).part 0).isSome = true ∧ Memory.wf (coded .verified).mem = true ∧
    (objOf .verified).rangeVerified ((coded .verified).functionRange (objOf .verified) 0) = true ∧
    ({ tasked false 1 [] with objs := [{ objOf .verified with retired := some 1 }] }.allReached 0 1 1) = false ∧
    ({ start [] with objs := [{ objOf .verified with retired := some 1 }] }.allReached 0 1 1) = true := by decide +kernel

/-- A body at the start of the area: its length is free (log 16), so that it ends within the page stands as the premise. -/
theorem witness_Body (h : Config.bodyBytes 0x80000 2 ≤ 4096) : (objOf .verified).bodyReady 0x80000 (max 1 (Config.bodyBytes 0x80000 2)) = true := by
  have one : 0x80000 - 0x80000 + max 1 (Config.bodyBytes 0x80000 2) - 1 < 4096 := by omega
  have zero : (0x80000 - 0x80000 + max 1 (Config.bodyBytes 0x80000 2) - 1) / 4096 + 1 - (0x80000 - 0x80000) / 4096 = 1 := by omega
  have fits : 0x80000 ≤ 0x80000 ∧ 0x80000 + max 1 (Config.bodyBytes 0x80000 2) ≤ 0x80000 + 4096 := by omega
  simp only [Obj.bodyReady, objOf, zero, fits]
  decide

/-- Region 1 is held by hart 0, with or without a waiter, recalled or not, or its rod is reserved for a save area. -/
def rodHeld (ws : List Party) (rec : Bool) (area : Option Nat) (now : Nat) : State :=
  { start [] with coh := { Coh.reset with rods := [(1, rodOf 0 ws rec area)] }, time := now }

/-- A core whose lane group 3 has had 15 corrected errors within the last second (R317). -/
theorem witness_CorrectedErrors : 15 ≤ ((((start []).setCore 5 { Core.reset with corr := List.replicate 15 (3, 0) }).core 5).corr.filter
    fun p => decide ((start []).time ≤ p.2 + 1000000000) && p.1 == 3).length := by decide +kernel

theorem witness_Homes2 : physTarget (128 * 32) = some .hbm ∧ 31 + 1 ≤ 32 ∧ (start []).coh.beads = [] ∧ (start []).coh.away = [] ∧
    ((rodHeld [] false none 0).coreHolds 0 1 = true ∧ 4096 % 128 + 128 ≤ 128) ∧ (start []).isCodePage 4096 = false ∧ (start []).isParkPool 4096 = false ∧
    0 + Config.minHold ≤ (rodHeld [.hub] true none 1000).time ∧ (rodHeld [.hub] true none (Config.minHold - 1)).time < 0 + Config.minHold ∧
    ((aget (rodHeld [.hub] false none 0).coh.rods 1).map fun r => (r.recalled, r.waiters, r.area)) = some (false, [.hub], none) ∧
    ((aget (rodHeld [.hub] true none 1000).coh.rods 1).map fun r => (r.recalled, r.waiters, decide (r.expiry ≤ 1000))) = some (true, [.hub], true) ∧
    ((aget (rodHeld [] false (some 0x20000) 1000).coh.rods 1).map fun r => (r.waiters, r.area)) = some ([], some 0x20000) ∧
    (∀ i, i < 4 → ((start []).getSeq (4 * 5 + i)).task = none) ∧ ((start []).core 0).dis.getLsbD (7 % 8) = false ∧ 1023 < 1024 ∧
    ((holding 0).core 0).holder = some 0 ∧ ((holding 0).getSeq 0).mat.ops = [] ∧ ((holding 1).getSeq 0).mat.ops.length = 1 ∧
    (start []).dev.severed.contains 3 = false ∧ (start []).dev.rerouted.contains 3 = false ∧ ({ (start []).dev with severed := [3] }).severed.contains 3 = true := by
  decide +kernel

/-! ## The queue processor -/

/-- Queue 0 of partition 0 on thread 0: ring of 16 slots at 0x10000, QCB at 0x20000, the packet b at its head, CTRL c. -/
def queue0 : Queue :=
  { part := 0, qid := 0, qcb := 0x20000, thread := some 0, cfgOk := true, bad := false, rdidx := 0, qstate := .ready, effprio := 3, age := 0, lastGrant := 0,
    errcnt := 0, seqword := none, waitFrom := none, waiting := 0, postErr := [], granted := false, grantEff := 3, noHalt := false, hand := .none,
    cfg := some { prio := 3, enable := true, devpost := true, ringBase := 0x10000, ringLog2 := 4, quantum := 0, errBase := 0x30000, errLog2 := 6, saveBase := 0 } }
def queued (b : List Byte) (ctrl : Nat) (f : Queue → Queue := id) : State :=
  { start [] with mem := memWrite (memWrite [] 0x10000 b) 0x20040 (leBytes 8 1 ++ leBytes 8 0 ++ leBytes 4 ctrl), qp := { queues := [f queue0], hub := [], rr := [], qstart := 0, hubInc := 0 } }

def packetP (s : State) (p : Packet → State → Bool) : Bool := okP (s.takePacket 0 0) fun r s1 => match r with | some k => p k s1 | none => false
/-- The first eight bytes of a packet of a type, with PHASE 1. -/
def typed (t : Byte) (w : List Nat) : List Byte := [t, 1, 0, 0, 0, 0, 0, 0] ++ w.flatMap (leBytes 8)

/-- A copy of the hub from 0x5000 to `dst`, from `done` on. -/
def hubOf (dst : Word) (done : Nat) : HubCopy :=
  { part := 0, qid := 0, pkt := 0, utag := 7, src := 0x5000, dst := dst, bytes := 64, done := done, tl := 0x7000, value := 1, dead := false }
def hubP (s : State) (c : HubCopy) (p : CopyRun → State → Bool) : Bool := p (hubRun (s.viaHub 0 false) c (c.bytes + 1 - c.done) c.done s) s
def signalP (c : HubCopy) (s : State) : Bool := okP (s.amoMax (s.viaHub 0 false) c.tl false c.value.toNat) fun _ _ => true

/-- Each type of packet taken; none taken; each outcome of a wait, with its first test now and earlier; each outcome of a copy of the hub. -/
theorem witness_Packets : packetP (queued (typed 1 []) 0) (fun p _ => p.type == 1) = true ∧ (okP ((queued [9, 1] 0).takePacket 0 0) fun r _ => r.isNone) = true ∧
    packetP (queued (typed 4 [0x5000, 0, 0]) 0) (fun p s1 => p.type == 4 && okP (s1.qpRead p.q (p.w 8) 8) fun b _ => p.met (leNat b)) = true ∧
    packetP (queued (typed 4 [0x5000, 1, 0]) 0) (fun p s1 => okP (s1.qpRead p.q (p.w 8) 8) fun b _ => !p.met (leNat b) && p.timeout == 0 && p.q.qstate != .blocked) = true ∧
    packetP { queued (typed 4 [0x5000, 1, 9]) 0 (fun q => { q with qstate := .blocked, waitFrom := some 0 }) with time := 8 } (fun p s1 =>
      p.timeout == 9 && decide (s1.time - p.q.waitFrom.getD s1.time < p.timeout) && p.q.qstate == .blocked) = true ∧
    packetP { queued (typed 4 [0x5000, 1, 9]) 0 (fun q => { q with qstate := .blocked, waitFrom := some 0 }) with time := 9 } (fun p s1 =>
      p.timeout == 9 && decide (p.timeout ≤ s1.time - p.q.waitFrom.getD s1.time)) = true ∧
    packetP (queued (typed 5 [0xC000000000]) 0) (fun p s1 => p.type == 5 && trapP (s1.qpRead p.q (p.w 8) 8) 5) = true ∧
    packetP (queued (typed 5 [0x5004]) 0) (fun p _ => p.type == 5 && (p.w 8).toNat % 8 != 0) = true ∧
    packetP (queued (typed 6 [0x5000, 7, 0]) 0) (fun p s1 => p.type == 6 && okP (s1.amoVa (s1.viaQueue 0 0) (p.w 8) false fun _ => 7) fun _ _ => true) = true ∧
    packetP (queued (typed 6 [0xC000000000, 7, 0]) 0) (fun p s1 => trapP (s1.amoVa (s1.viaQueue 0 0) (p.w 8) false fun _ => 7) 7) = true ∧
    packetP (queued (typed 7 [0x5000, 0x6000, 64, 0x7000, 1]) 0) (fun p _ => p.type == 7 && decide ((p.w 0x18).toNat ≤ 2 ^ 40) && (p.w 0x20).toNat % 8 == 0) = true ∧
    packetP (queued (typed 7 [0x5000, 0x6000, 2 ^ 40 + 1, 0x7000, 1]) 0) (fun p _ => decide (2 ^ 40 < (p.w 0x18).toNat)) = true ∧
    packetP (queued (typed 2 [0x5000]) 0 fun q => { q with granted := true }) (fun p s1 => p.type == 2 && p.q.granted && okP (s1.qpRead p.q (p.w 8) 256) fun _ _ => true) = true ∧
    packetP (queued (typed 3 [0x5000]) 0) (fun p _ => p.type == 3 && !p.q.granted) = true ∧
    [0, 32, 64].all (fun d => hubP (start []) (hubOf 0x6000 d) fun r _ => match r with | .finished s1 => signalP (hubOf 0x6000 d) s1 | _ => false) = true ∧
    hubP (queued [] 0) (hubOf 0xC000000000 0) (fun r _ => match r with
      | .failed c v s1 => c == 7 && signalP (hubOf 0 0) (s1.queueError 0 0 0x44 0 7 [v]) | _ => false) = true ∧
    hubP { start [] with coh := { Coh.reset with rods := [(6, rodOf 9 [] false none)] } } (hubOf 0x6000 32) (fun r _ => match r with | .waits 32 _ => true | _ => false) = true := by decide +kernel

/-- The thread of queue 0, or the hub, owes the acknowledgement of what it sent to peer 0. -/
def owedBy (p : Party) (s : State) : State := { s with parts := (peered []).parts, host := { s.host with out := [⟨p, 0, 0, 64, 0, false⟩] } }
/-- The words of a MARKER at a. -/
def markP (a : Nat) (f : State → State) (p : Res Bool → Bool) : Bool :=
  let s := f (queued (typed 8 [a, 1]) 0)
  packetP s fun k s1 => (k.w 8).toNat % 8 == 0 && !s1.peerOwes (.queue 0 0) && k.q.hand != .sent && p (s1.markWords (s1.viaQueue 0 0) (k.w 8) (k.w 0x10).toNat)
def rod6 (s : State) : State := { s with coh := { Coh.reset with rods := [(6, rodOf 9 [] false none), (7, rodOf 9 [] false none)] } }

/-- Releases that wait; a MARKER here, through a peer window, refused, waiting, and whose words were sent; a word misaligned; timelines of COPYs. -/
theorem witness_Releases : packetP (owedBy (.queue 0 0) (queued (typed 6 [0x5000, 7, 0]) 0)) (fun p s1 => (p.w 8).toNat % 8 == 0 && s1.peerOwes (.queue 0 0)) = true ∧
    packetP (owedBy (.queue 0 0) (queued (typed 8 [0x5000, 7, 0]) 0)) (fun p s1 => p.type == 8 && s1.peerOwes (.queue 0 0)) = true ∧
    packetP (queued (typed 8 [0x5000, 7, 0]) 0 fun q => { q with hand := .sent }) (fun p s1 => p.q.hand == .sent && !s1.peerOwes (.queue 0 0)) = true ∧
    markP 0x6000 id (fun r => okP r fun w _ => w) = true ∧ markP 0x200000000000 (fun s => { s with parts := (peered []).parts }) (fun r => okP r fun w _ => !w) = true ∧
    markP 0xC000000000 id (fun r => trapP r 7) = true ∧ markP 0x6000 rod6 (fun r => stallP r .rod) = true ∧
    (let s := queued (typed 8 [0x6000, 1]) 0; packetP s fun _ s1 => oneP (s1.locate (s1.viaQueue 0 0) 0x6000 8 .store) fun l t0 =>
      oneP (t0.locate (t0.viaQueue 0 0) 0x6008 8 .store) fun m t1 => !isPeer l && !isPeer m && okP (t1.markReady (t1.viaQueue 0 0) l) fun _ t2 =>
        okP (t2.markReady (t2.viaQueue 0 0) m) fun _ _ => true) = true ∧
    [typed 6 [0x5004, 7, 0], typed 8 [0x5004, 7, 0], typed 2 [0x5004]].map (fun b => packetP (queued b 0) fun p _ => (p.w 8).toNat % 8 != 0) = [true, true, true] ∧
    packetP (queued (typed 7 [0x5000, 0x6000, 64, 0x7004, 1]) 0) (fun p _ => (p.w 0x20).toNat % 8 != 0) = true ∧
    packetP (queued (typed 2 [0xC000000000]) 0 fun q => { q with granted := true }) (fun p s1 => trapP (s1.qpRead p.q (p.w 8) 256) 5) = true ∧
    hubP (owedBy .hub (start [])) (hubOf 0x6000 0) (fun r _ => match r with | .finished s1 => s1.peerOwes .hub | _ => false) = true ∧
    hubP (start []) (hubOf 0x8000 0) (fun r _ => match r with | .finished s1 => trapP (s1.amoMax (s1.viaHub 0 false) 0xC000000000 false 1) 7 | _ => false) = true ∧
    ({ hubOf 0 0 with dead := true }).dead = true := by decide +kernel

/-- A granted grid whose resume list lies at r. -/
def resuming (r : Nat) (severed : List Nat) : State :=
  let s := queued (typed 2 [0x5000]) 0 fun q => { q with granted := true }
  { s with mem := memWrite s.mem 0x5080 (leBytes 8 r ++ leBytes 4 1), dev := { s.dev with severed := severed } }
def acceptP (s : State) (f : Res Unit → Bool) : Bool := packetP s fun p s1 => okP (s1.qpRead p.q (p.w 8) 256) fun b s2 => f (s2.acceptGrid p b)

/-- On a hub party's way to die 2, by the boundary to C0 that has failed, an access waits. -/
theorem hub_waits (h : Config.hubVia 2 = false) (s : State) (via : Via) (ak : AKind) (n : Nat) (hl : pieces 3 (0x6000006000 : Word) n = [(0x6000006000, n)])
    (hd : s.dev = { State.reset.dev with severed := [2] }) (hp : via.party.dieTo via.hart 2 = hubSide 2)
    (hx : s.xlate via 0x6000006000 ak = .ok ⟨0x6000006000, 0, 128, none⟩ s) (ha : s.allowed via .hbm 0x6000006000 n ak = true)
    (hk : s.kindOf via 0 128 0x6000006000 = some (.s, bareHome 0x6000006000)) : s.locate via 0x6000006000 n ak = .stall .link s := by
  have ht : physTarget 0x6000006000 = some .hbm := by decide +kernel
  have hw : s.path via .hbm (bareHome 0x6000006000) = .waits := by
    have d : Target.hbm.die (bareHome 0x6000006000) = some 2 := by decide +kernel
    unfold State.path
    rw [hd, d]
    simp only [hp, hubSide, h]
    decide +kernel
  unfold State.locate
  rw [hl]
  unfold State.locateAll State.locate1
  rw [hx]
  simp only [Res.bind, ht, ha, hk, State.reach, hw, Bool.true_eq_false, if_false]

/-- So wait a resume list, a SIGNAL and a COPY's timeline there. -/
theorem witness_HubWaits (h : Config.hubVia 2 = false) : stallP ((resuming 0 [2]).readFront ((resuming 0 [2]).viaQueue 0 0) 0x6000006000 16) .link = true ∧
    stallP ((resuming 0 [2]).amoVa ((resuming 0 [2]).viaQueue 0 0) 0x6000006000 false fun _ => 7) .link = true ∧
    stallP ((resuming 0 [2]).amoMax ((resuming 0 [2]).viaHub 0 false) 0x6000006000 false 1) .link = true := by
  refine ⟨?_, ?_, ?_⟩
  · unfold State.readFront
    rw [hub_waits h _ _ _ 16 (by decide +kernel) rfl rfl rfl (by decide +kernel) (by decide +kernel)]
    rfl
  · unfold State.amoVa
    rw [hub_waits h _ _ _ 8 (by decide +kernel) rfl rfl rfl (by decide +kernel) (by decide +kernel)]
    rfl
  · unfold State.amoMax State.amoVa
    rw [hub_waits h _ _ _ 8 (by decide +kernel) rfl rfl rfl (by decide +kernel) (by decide +kernel)]
    rfl

/-- A header that the front end reads whole. -/
theorem witness_LaunchAnswered : acceptP (resuming 0x6000 []) (fun r => okP r fun _ _ => true) = true := by decide +kernel

/-- A queue with a configuration: a ring that is full, and one with room; no queue, and one without a configuration. -/
theorem witness_Posts : ([(16, true), (15, true)].all fun p =>
      let s := { queued [] 0 with mem := memWrite [] 0x20040 (leBytes 8 p.1) }
      okP (s.qpRead queue0 (queue0.va 0x40) 8) fun b s1 => (s.queue? 0 0 == some queue0) && queue0.cfg.isSome && leNat b == p.1 &&
        okP (s1.amoVa (s1.viaQueue 0 0) (queue0.va 0x40) false fun w => (w + 1) % 2 ^ 64) fun _ _ => true) = true ∧
    (start []).queue? 0 0 = none ∧ ((queued [] 0 fun q => { q with cfg := none }).queue? 0 0).map (·.cfg.isNone) = some true ∧
    (queued [] 0).peerOwes (queued [] 0).via.party = false ∧
    (okP (((queued [] 0).flushP 0).post 0 6 []) fun w _ => w == 1) = true ∧ (okP ((start []).post 0 6 []) fun w _ => w == minus 1) = true := by decide +kernel

def queue0P (s : State) (p : Queue → Bool) : Bool := match s.queue? 0 0 with | some q => p q | none => false

/-- The QCB of queue 0 with a configuration: SEQ, QID and RINGLOG2. -/
def configured (seq qid log2 : Nat) : State :=
  { queued [] 0 with mem := memWrite [] 0x20000 (leBytes 4 seq ++ leBytes 2 qid ++ [0, 3] ++ leBytes 8 0x10000 ++ leBytes 8 log2) }
def configP (s : State) (p : List Byte → Bool) : Bool := okP (s.qpRead queue0 (queue0.va 0) 64) fun b _ => p b
/-- Hart 0 at a word, with x1 to x2. -/
def posting (w : Nat) (c : Word) : State := (withSeq (queued [] 0) fun q => { q with x := q.x.set 2 c }).withFetchWord 32 w

/-- Each request of CTRL, and none; a queue that has taken a packet, one that is bad; a QCB that cannot be read. -/
theorem witness_Control : ([0, 1, 2, 4, 5].all fun c => queue0P (queued (typed 1 []) c) fun q => q.thread.isSome && !q.bad && !q.taken &&
      okP ((queued (typed 1 []) c).qpRead q (q.va 0x50) 8) fun b s1 => leNat b % 8 == c &&
        okP (s1.amoVa (s1.viaQueue 0 0) (q.va 0x50) false fun w => w - c) fun _ _ => true) = true ∧
    queue0P (queued [] 4 fun q => { q with qstate := .stopped }) (fun q => q.qstate == .stopped) = true ∧
    queue0P (queued [] 4 fun q => { q with qstate := .blocked }) (fun q => q.taken) = true ∧ queue0P (queued [] 4 fun q => { q with bad := true }) (fun q => q.bad && !q.taken) = true ∧
    queue0P (queued [] 4 fun q => { q with qcb := 0xC000000000 }) (fun q => !q.taken && trapP ((queued [] 4).qpRead q (q.va 0x50) 8) 5) = true ∧
    configP (configured 1 0 4) (fun b => fld b 0 4 % 2 == 1) = true ∧
    configP (configured 2 0 4) (fun b => fld b 0 4 % 2 == 0 && queue0.seqword != some (fld b 0 4) && fld b 4 2 == queue0.qid && (cfgBad b).isNone) = true ∧
    configP (configured 2 0 17) (fun b => fld b 4 2 == queue0.qid && cfgBad b == some 0x10) = true ∧ configP (configured 2 9 4) (fun b => fld b 4 2 != queue0.qid) = true := by decide +kernel

/-- One swapped in at a boundary and one that must wait; launches ready and none; the watchdog before and at its time; a queue that ages. -/
theorem witness_Queues : queue0P (queued [] 0 fun q => { q with thread := none }) (fun q => q.thread.isNone) = true ∧ (queued [] 0 fun q => { q with thread := none }).freeThread = some 0 ∧
    (queued [] 0 fun q => { q with thread := none }).atBoundary = true ∧
    (queued [] 0 fun q => { q with cfg := q.cfg.map fun c => { c with quantum := 5 } }).atBoundary = false ∧
    queue0P (queued [] 0 fun q => { q with qstate := .awaiting }) (fun q => q.qstate == .awaiting) = true ∧
    (queued [] 0).earlierDone 0 0 = true ∧ ({ queued [] 0 with launches := [launchOf 1] }).earlierDone 0 0 = false ∧
    ((queued (typed 2 [0x5000]) 0).qp.queues.filter fun q => !q.granted && (queued (typed 2 [0x5000]) 0).launchReady q).length = 1 ∧
    (afterSlot none ((queued (typed 2 [0x5000]) 0).qp.queues.filter fun q => q.effprio == 3)).isSome = true ∧
    ((queued [] 0).qp.queues.filter fun q => !q.granted && (queued [] 0).launchReady q) = [] ∧
    (queue0.thread.isSome = true ∧ queue0.granted = false ∧ (queued (typed 2 [0x5000]) 0).launchReady queue0 = true ∧ queue0.age + 1 ≠ 4) ∧
    (State.reset.time < State.reset.dev.alive + Config.wdt ∧ State.reset.dev.alive + Config.wdt ≤ ({ State.reset with time := Config.wdt }).time) ∧
    State.reset.seq.canRun 0 = true ∧ (let s := { start [] with seqs := [(supervisorOf 0, { Seq.reset with mode := .s })] }; supervisorOf 0 ∈ s.harts ∧ (s.getSeq (supervisorOf 0)).mode ≠ .m) := by decide +kernel

/-- A hart that has reached a launch or a qsignal: reserved bits, no queue, and a queue with room. -/
theorem witness_QpPost : ([(0x820F1AB, Instr.launch 3 1 2), (0xA20F1AB, .qsignal 3 1 2)].all fun p => [0x1000, 1, 0].all fun c =>
      let s := posting p.1 c
      (s.getSeq 0).canRun 0 && okP (s.switch 0).fetch fun i s1 => i == p.2 && !s1.mustWait i && s1.x 2 == c &&
        (decide (getBits c 12 4 ≠ 0) || (s1.queue? (s1.partOf s1.hart) (getBits c 0 12)).isNone ||
          (decide (getBits c 12 4 = 0 ∧ getBits c 18 14 = 0 ∧ getBits c 19 13 = 0 ∧ getBits c 16 2 ≠ 3) && !s1.peerOwes s1.via.party &&
            okP (((s1.flushP s1.hart).settled s1.hart).post 0 6 []) fun _ _ => true))) = true ∧
    ((withSeq (start []) fun q => { q with run := .idle }).getSeq 0).canRun 0 = false := by decide +kernel

/-- Launches that may bind: a grid of two workgroups, under OS, and a pipeline. -/
def bindable (l : Launch) : State := { start [] with launches := [l] }
def twoGroups (flags : Nat) : Launch :=
  { launchOf 2 with
      cursor := 0, homes := [], wgLeft := [],
      header := leBytes 4 (0x0001 + 65536 * flags) ++ [2, 0, 0, 0] ++ [6, 6, 0, 0, 0, 0] ++ [0, 1, 0, 0, 0, 0] ++ leBytes 4 0 ++ leBytes 8 1 ++ leBytes 8 2 }

theorem witness_Launches : (twoGroups 0).os = false ∧ (twoGroups 1).os = true ∧ ((twoGroups 1).runEnd (gridGroups (twoGroups 1).header) 0).isSome = true ∧ (bindable (twoGroups 0)).binds (twoGroups 0) = true ∧ gridGroups (twoGroups 0).header = 2 ∧ (twoGroups 0).group 1 ≠ [] ∧
    (bindable (pipeline false)).binds (pipeline false) = true ∧ (pipeline false).total = 2 ∧ ({ pipeline false with cursor := 2 }.nextStage ((pipeline false).releaseOrder 0)).isSome = true ∧
    (bindable { launchOf 1 with retired := [0] }).launchOver { launchOf 1 with retired := [0] } = true ∧ (launchOf 1).severed = false ∧
    ((bindable (twoGroups 0)).placeGroup 1 0 ((twoGroups 0).group 0)).isSome = true ∧ (({ bindable (twoGroups 0) with parts := [(0, { Part.zero with clusters := 0 })] } : State).placeGroup 1 0 ((twoGroups 0).group 0)).isNone = true ∧
    (placeRun 1 (twoGroups 1) [0, 1] (bindable (twoGroups 1))).isSome = true ∧ ((bindable (pipeline false)).placeGroup 1 0 [(pipeline false).pipeSpec 0]).isSome = true ∧
    (let l := { launchOf 1 with retired := [0] }
     (bindable l).frontBusy 0 0 = false ∧ ((bindable l).raiseTimeline l).isSome = true) ∧ (bindable (twoGroups 0)).launchOver (twoGroups 0) = false ∧
    ({ lin := 0, wglin := 0, wid := 0, args := List.replicate 6 0, stage := none } : TaskSpec).args.length ≤ 6 := by decide +kernel

/-! ## Supervision -/

/-- Hart 0 holds three groups under a grant of 1 and has since time 0; hart 1 has waited since time 0 for a second group. -/
def hoarding : State :=
  { withSeq (start []) fun q => { q with vec := { q.vec with hmask := 7, grant := 1, setAt := 0 } } with
      seqs := [(1, { Seq.reset with stall := some .lanes, since := some 0, vec := { Vec.reset with hmask := 8, grant := 2 } })], time := 1000000 }

/-- A task of PRIO 0 on hart 0, and a launch granted at 7 whose workgroup needs every sequencer of the cluster. -/
def prompted : State :=
  { tasked false 1 [] with
      launches := [launchOf 1, { launchOf 64 with id := 2, qid := 1, eff := 7, cursor := 0, homes := [], wgLeft := [] }],
      parts := [(0, { Part.zero with clusters := 1 })],
      qp := { queues := [{ queue0 with cfg := queue0.cfg.map fun c => { c with prio := 0 } }, { queue0 with qid := 1 }], hub := [], rr := [], qstart := 0, hubInc := 0 } }

/-- The policy chooses hart 0, and no other. -/
theorem witness_Policy : prompted.policyHalts = [0] ∧ (prompted.getSeq 0).halt = none ∧ (prompted.getSeq 0).run = .running := by decide +kernel

theorem witness_Supervision : (let q := hoarding.getSeq 0
      min q.vec.grant (hoarding.usable 0) < popcount q.vec.hmask ∧ q.vec.setAt + 1000000 ≤ hoarding.time ∧ (hoarding.getSeq 1).stall = some .lanes ∧ 0 < (hoarding.getSeq 1).vec.grant ∧
        popcount (hoarding.getSeq 1).vec.hmask < (hoarding.getSeq 1).vec.grant ∧ (hoarding.getSeq 1).since = some 0 ∧ 0 + 1000000 ≤ hoarding.time ∧
        ({ hoarding with time := 999999 }).time < q.vec.setAt + 1000000) ∧ popcount ((start []).getSeq 0).vec.hmask ≤ min ((start []).getSeq 0).vec.grant ((start []).usable 0) ∧
    (crowded.usable 0 = 1 ∧ (crowded.getSeq 0).vec.wants = true ∧ ((start []).getSeq 0).vec.wants = false ∧ ({ crowded with cores := [] } : State).usable 0 = 8) ∧
    (start []).policyHalts = [] ∧ (((start []).getSeq 0).lands = false ∧ ((start []).getSeq 0).run ≠ .halted) ∧
    (((tasked false 1 []).getSeq 0).task.bind fun t => ((tasked false 1 []).launch? t.launch).map (·.killed)) = some false ∧
    (okP ((coded .verified).runtimeStore 0 0x60008 (leBytes 24 1)) fun _ _ => true) = true ∧ ((coded .verified).leadOf 0).isSome = true ∧ (coded .verified).beadsIn 0x60008 24 = [] ∧
    (coded .verified).isCodePage 0x60008 = false ∧
    stallP (({ coded .verified with coh := { Coh.reset with rods := [(0x60, rodOf 9 [] false none)] } }).runtimeStore 0 0x60008 (leBytes 24 1)) .rod = true ∧
    (okP ((start []).raiseSaved 0 1 (start []).saved) fun _ _ => true) = true := by decide +kernel

/-! ## Agents, the host port, root and start -/

theorem witness_AgentRegisters : mayStore (start []) 1 0x040 ∧ ¬ mayStore (start []) 1 0x044 ∧ ¬ mayStore (tasked false 1 []) 1 0x008 ∧ mayStore (tasked false 1 []) 16 0x080 ∧
    mayStore (start []) 15 0 ∧ ((start []).agent 1).en = false ∧
    (match (start []).agentStore 1 0x018 1 (BitVec.allOnes 64) .m with | .done _ => true | .full => false) = true ∧ ((agented 2).agent 1).qhead ≤ 1 ∧ 1 < ((agented 2).agent 1).qtail ∧
    1 < ((agented 2).agent 1).qhead + ((agented 2).agent 1).qsize ∧ 1 ∉ ((agented 2).agent 1).ready ∧ 1 ∉ ((agented 2).agent 1).inProgress ∧
    ((agented 2).agent 1).broken = [] ∧ ((agented 2).agent 1).qtail ≤ 2 := by
  unfold mayStore; decide +kernel

/-- Agent a with a ring of four slots at 0x8000, slot 0 ready and holding b. -/
def slotted (a : Nat) (b : List Byte) (f : Agent → Agent := id) : State :=
  { start [] with mem := memWrite [] 0x8000 b, agents := [(a, f { Agent.reset with en := true, qsize := 4, qbase := 0x8000, qtail := 1, ready := [0] })] }
/-- Slot 0 is taken for an operation, by the model's own steps. -/
def takesP (s : State) (a op : Nat) (p : List Byte → State → Bool) : Bool :=
  okP (s.agentAdvance a) fun _ s1 => okP (s1.readSlot a) fun r s2 => match r with
    | .frame 0 b => fld b 0 1 == op && okP (s2.frameFault a 0 b) fun f s3 => f == (0, 0) && p b s3
    | _ => false
def blendsP (s : State) (a op : Nat) (p : List Byte → State → Bool) : Bool :=
  okP (s.blendReady a) fun _ s1 => okP (s1.readSlot a) fun r s2 => match r with
    | .frame 0 b => fld b 0 1 == op && okP (s2.frameFault a 0 b) fun f s3 => f == (0, 0) && p b s3
    | _ => false

/-- A draw of one meshlet to one handler; a draw in progress. -/
def drawSlot : List Byte := leBytes 8 1 ++ leBytes 8 0x5000 ++ leBytes 4 1 ++ [1, 1, 0, 0] ++ leBytes 8 0x6000
def drawing (run : Nat) (acked : List Nat) : State :=
  slotted 0 drawSlot fun g => { g with draw := some { slot := 0, body := drawSlot ++ List.replicate 32 0 ++ List.replicate 16 0, next := 1, acked := acked, run := run, failed := false } }

/-- A blend unit with no slot; a slot of an operation that a raster agent does not have; a draw whose close marker is for a unit of another partition. -/
theorem witness_AgentSlots2 : agentKind 5 = 2 ∧ (okP ((start []).blendReady 5) fun _ s1 => !(s1.agent 5).mayTake) = true ∧ agentKind 1 = 1 ∧
    (okP ((slotted 1 [3]).agentAdvance 1) fun _ s1 => okP (s1.readSlot 1) fun r s2 => match r with
      | .frame 0 b => fld b 0 1 == 3 && decide (opsOf 1 < 3) && okP (s2.frameFault 1 0 b) fun f _ => f.1 == 1 | _ => false) = true ∧
    (let s0 := drawing 0 [0]
     let s : State := { s0.modAgent 0 fun g => { g with draw := g.draw.map fun d => { d with body := d.body.set 0x17 1 } } with
        parts := [(0, { Part.zero with agents := 1 }), (1, { Part.zero with agents := 0x20 })] }
     okP (s.agentAdvance 0) fun _ s1 => match (s1.agent 0).draw with
       | some d => decide (d.run ≠ d.nm ∧ d.run < runFrom d.acked d.acked.length 0) && ((d.units 0).find? (fun u => s1.partOfAgent u != s1.partOfAgent 0)).isSome
       | none => false) = true := by decide +kernel

theorem witness_AgentSlots : okP ((start []).agentAdvance 1) (fun _ s1 => !(s1.agent 1).mayTake) = true ∧ takesP (slotted 1 []) 1 0 (fun _ _ => true) = true ∧
    takesP (slotted 0 drawSlot) 0 1 (fun b s2 => !badDraw b && okP (s2.readBytes (s2.viaAgent 0) (fldW b 0x18) (16 * fld b 0x14 1)) fun t _ => !badTarget t 0) = true ∧
    takesP (slotted 0 [1]) 0 1 (fun b _ => badDraw b) = true ∧
    [(1, [0]), (0, []), (0, [0])].map (fun p => okP ((drawing p.1 p.2).agentAdvance 0) fun _ s1 => match (s1.agent 0).draw with
      | some d => if d.run = d.nm then true else if runFrom d.acked d.acked.length 0 ≤ d.run then okP (s1.sendMeshlet 0 d) fun _ _ => true else okP (s1.pushClose 0 d 1) fun _ _ => true
      | none => false) = [true, true, true] ∧
    takesP (slotted 1 (leBytes 4 1 ++ leBytes 4 1 ++ leBytes 8 0x5000 ++ leBytes 8 0x6000 ++ leBytes 4 0 ++ leBytes 4 0x10001)) 1 1 (fun b s2 => (regionOf b).ok && fld b 4 4 == 1 && decide (fld b 0x20 4 < 2) &&
      okP (State.trisFrom 1 b 0 1 s2) fun r s3 => okP (s3.startWork 1 ⟨0, r.1, r.2.1, r.2.2⟩) fun _ _ => true) = true ∧
    takesP (slotted 1 (leBytes 4 2 ++ leBytes 4 1 ++ leBytes 8 0x5000 ++ leBytes 8 0x6000 ++ leBytes 4 0 ++ leBytes 4 0x10001)) 1 2 (fun b s2 => (regionOf b).ok && decide (fld b 0x20 4 < 4) &&
      okP (State.pathFrom 1 (fldW b 8) 0 1 none s2) fun r s3 => match r with
        | .ok ps => okP (s3.startWork 1 ⟨0, pathTiles (regionOf b) false false (fldW b 0x10) ps, 0, 0⟩) fun _ _ => true | _ => false) = true ∧
    blendsP (slotted 5 [1]) 5 1 (fun b s2 => blendBad b == 0 && (fldW b 8).toNat / 256 == (s2.agent 5).nextOpen.toNat / 256) = true ∧
    blendsP (slotted 5 [2, 0, 0, 0, 8]) 5 2 (fun b _ => blendBad b != 0) = true ∧ blendsP (slotted 5 [1, 0, 0, 0, 0, 0, 0, 0, 0, 1]) 5 1 (fun b s2 =>
      decide ((s2.agent 5).nextOpen.toNat / 256 < (fldW b 8).toNat / 256) && (s2.agent 5).ord) = true ∧
    blendsP (slotted 5 [1] fun g => { g with nextOpen := 256 }) 5 1 (fun b s2 => decide ((fldW b 8).toNat / 256 < (s2.agent 5).nextOpen.toNat / 256)) = true ∧
    blendsP (slotted 5 [3, 0, 0, 0, 0, 0, 0, 0, 0, 1]) 5 3 (fun b _ => fld b 8 1 == 0 && fld b 0x10 32 == 0) = true ∧
    blendsP (slotted 5 [3, 0, 0, 0, 0, 0, 0, 0, 1]) 5 3 (fun b _ => fld b 8 1 != 0) = true := by decide +kernel

/-- A frame of partition 0 on flow 0: TYPE, SEQ, FLAGS (8 for ROOT, OP from bit 8, TAG from bit 12), ADDR, ARG and n bytes. -/
def msg (type seq : Nat) (flags : BitVec 16) (addr arg : Word) (n : Nat) : FhtMsg := ⟨0, 0, 0, 7460, false, 1, type, flags, 0, n, seq, 0, addr, arg, List.replicate n 1⟩

/-- Flow 0 with two messages not acknowledged, the first sent at time 0. -/
def flowing (resends now : Nat) (lost : Bool) : State :=
  { start [] with host := { (start []).host with flows := [{ Flow.start 0 0 with next := 2, resends := resends, lost := lost }] }, time := now }
/-- Is a message in sequence, and a test of the state once its ACK is taken? -/
def inSeqP (m : FhtMsg) (p : State → Bool) : Bool :=
  let s := start []
  let s0 := s.takeAck 0 (flowKey m) m.ack m.ece
  s.fhtPart m == some 0 && !s.frameBad m && s.serves 0 && m.seq == (s0.flowOf 0 (flowKey m)).expect && (s0.part 0).isSome && p s0
def romStage : State := { start [] with dev := { (start []).dev with stage := 6 } }

theorem witness_Frames : Carries (msg 1 0 0 0x5000 0 64) (.fhtWrite (msg 1 0 0 0x5000 0 64)) ∧ (msg 1 0 0 0 0 0).is 1 = true ∧
    [{ msg 1 0 0 0 0 0 with udp := 7461 }, { msg 1 0 0 0 0 0 with mac := 1 }, { msg 1 0 0 0 0 0 with ver := 2 }, { msg 1 0 0 0 0 0 with flow := 64 }, msg 1 0 0 0 0 8193,
      { msg 1 0 0 0 0 0 with len := 1 }].all (fun m => m.udp != 7460 || ((start []).fhtPart m).isNone || m.ver != 1 || decide (63 < m.flow) || decide (8192 < m.len) || m.payload.length != m.len) = true ∧
    (let s : State := { start [] with parts := [(0, Part.zero), (1, { Part.zero with mac := 1 })], dev := { (start []).dev with minimal := true } }
     s.fhtPart { msg 1 0 0 0 0 0 with mac := 1 } = some 1 ∧ s.dev.minimal = true ∧ s.dev.stage ≠ 6) ∧
    (romStage.dev.stage = 6 ∧ (msg 2 0 0 0 0 0).is 1 = false ∧ romStage.fhtPart (msg 1 0 0 0x5000 0 64) = some 0 ∧ romStage.frameBad (msg 1 0 0 0x5000 0 64) = false ∧
      (romStage.flowOf 0 0).expect = 0) ∧
    ((start []).frameBad (msg 1 1 0 0 0 0) = false ∧ (start []).serves 0 = true ∧ (((start []).takeAck 0 0 0 false).flowOf 0 0).expect ≠ 1) := by
  refine ⟨.inl ⟨by decide, rfl⟩, ?_⟩; decide +kernel

/-- A WRITE, a READ and a NOTIFY of each kind, done, refused, and of the mailbox, the largest and the last of their range. -/
theorem witness_HostMessages : inSeqP (msg 1 0 0 0x5000 8192 64) (fun s0 => okP (s0.hubLocs 0 (msg 1 0 0 0x5000 0 64) 64 .store) fun ls s1 =>
      okP (s1.storeLocs (s1.viaHub 0 true) ls (List.replicate 64 1)) fun _ _ => true) = true ∧
    inSeqP (msg 1 0 0 0xC000000000 0 64) (fun s0 => trapP (s0.hubLocs 0 (msg 1 0 0 0xC000000000 0 64) 64 .store) 7) = true ∧
    inSeqP (msg 1 0 8 0xFC0 0 64) (fun _ => (msg 1 0 8 0xFC0 0 64).root && decide ((msg 1 0 8 0xFC0 0 64).addr.toNat + 64 ≤ 4096 ∧ 4096 < (msg 1 0 8 0xFC1 0 64).addr.toNat + 64)) = true ∧
    inSeqP (msg 2 0 0 0x5000 8192 0) (fun s0 => okP (s0.hubLocs 0 (msg 2 0 0 0x5000 8192 0) 8192 .load) fun ls _ =>
      ls.length == 2) = true ∧
    inSeqP (msg 2 0 0 0x5000 64 0) (fun s0 => okP (s0.hubLocs 0 (msg 2 0 0 0x5000 64 0) 64 .load) fun ls s1 => okP (s1.readLocs (s1.viaHub 0 true) false ls) fun _ _ => true) = true ∧
    inSeqP (msg 2 0 0 0xC000000000 64 0) (fun s0 => trapP (s0.hubLocs 0 (msg 2 0 0 0xC000000000 64 0) 64 .load) 5) = true ∧
    inSeqP (msg 2 0 8 0xFC0 64 0) (fun _ => (msg 2 0 8 0xFC0 64 0).root && decide ((0xFC0 : Word).toNat + 64 ≤ 4096)) = true ∧
    inSeqP (msg 3 0 0 0x5008 1 0) (fun s0 => okP (s0.notifyWord 0 (msg 3 0 0 0x5008 1 0)) fun l s1 =>
      (okP (s1.storeLocs (s1.viaHub 0 true) [l] (leBytes 8 1)) fun _ _ => true) && (s1.atHome (s1.viaHub 0 true) l true).1.isNone) = true ∧
    (match (start []).notifyWord 0 (msg 3 0 0 0x5004 1 0) with | .trap _ _ _ => true | _ => false) = true ∧
    [(0x000, 0, 0), (0x100, 1, 0), (0x1200, 2, 1), (0x0200, 2, 0), (0xE200, 2, 14), (0x300, 3, 0), (0xF00, 15, 0)].all (fun p =>
      inSeqP (msg 3 0 p.1 0x5008 1 0) fun _ => (msg 3 0 p.1 0 0 0).is 3 && (msg 3 0 p.1 0 0 0).op == p.2.1 && (msg 3 0 p.1 0 0 0).tag == p.2.2) = true ∧
    (msg 3 0 8 0 0 0).root = true ∧ (0xFF8 : Word).toNat % 8 = 0 ∧ (0xFF8 : Word).toNat < 4096 ∧ [2, 11].map tagBytes = [8, 8] := by decide +kernel

theorem witness_Flows : [(0, 20000), (63, 20000), (64, 20000), (0, 19999)].all (fun p => let s := flowing p.1 p.2 false; let f := s.flowOf 0 0
      f.next != f.oldest && !f.lost && decide (f.sentAt + 20000 ≤ s.time) == decide (p.2 = 20000) && decide (f.resends < 64) == decide (p.1 < 64) &&
        decide ((2 + 2 ^ 32 - f.oldest % 2 ^ 32) % 2 ^ 32 ≤ (f.next + 2 ^ 32 - f.oldest % 2 ^ 32) % 2 ^ 32)) = true ∧
    ((flowing 0 0 true).flowOf 0 0).lost = true ∧ (0 = ((flowing 0 0 false).flowOf 0 0).expect) ∧
    ((withSeq (start []) fun q => { q with peerAsk := some (0x200000000000, 8) }).getSeq 0).peerAsk = some (0x200000000000, 8) := by decide +kernel

/-- Partition 0 with a command of some arguments at the head of its line. -/
def commanded (code a0 a1 : Nat) (f : Part → Part := id) : State :=
  { start [] with parts := [(0, f { Part.zero with cmds := [code], mailbox := memWrite [] 8 (leBytes 8 code ++ leBytes 8 a0 ++ leBytes 8 a1) })] }

def commandP (s : State) (code : Nat) (p : Part → Bool) : Bool :=
  match s.part 0 with | some x => x.cmds.head? == some code && leNat (x.mailRead 0x08 8) == code && p x | none => false

theorem witness_Commands : ([1, 2, 3, 4, 5, 6, 7, 8, 9, 10, 11, 12, 13, 14, 15, 16, 17, 18].all fun c => commandP (commanded c 0 0) c fun _ => true) = true ∧
    (commanded 1 0 0).placeObject 0 0 0 2 = none ∧ (commanded 2 0 0).objAt 0 0 = none ∧ ({ commanded 2 0x50000 0 with objs := [objOf .verified] }.objAt 0 0x50000).isSome = true ∧
    commandP (commanded 4 4095 0x20000) 4 (fun p => decide (p.arg 0 < 4096) && (aget p.queues (p.arg 0)).isNone) = true ∧ commandP (commanded 4 4096 0) 4 (fun p => decide (4096 ≤ p.arg 0)) = true ∧
    commandP (commanded 5 7 0 fun p => { p with queues := [(7, 0x20000)] }) 5 (fun p => (aget p.queues (p.arg 0)).isSome) = true ∧
    commandP (commanded 6 1000 0) 6 (fun p => p.arg 0 == 1000) = true ∧ commandP (commanded 6 1000001 0) 6 (fun p => decide (1000000 < p.arg 0)) = true ∧
    (commanded 7 0x40000 16).ownsRange 0 0x40000 (64 * (1 + 2 ^ 16)) = true ∧ ((commanded 8 127 0x5000).rootGet 0 0x5000 64).isSome = true ∧ (commanded 11 0 0).saved = [] ∧
    (commanded 13 0 0).signedBy Part.zero [] = none ∧ (commanded 15 0x5000 0).dev.ownerKey = none ∧
    ((commanded 15 0x5000 0).rootGet 0 0x5000 56).isSome = true ∧
    ({ commanded 15 0x5000 0 with dev := { (commanded 15 0x5000 0).dev with ownerKey := some [] } }.signedBy Part.zero []).isNone = true ∧ (commanded 16 0x200000 20).ownsRange 0 0x200000 (2048 * 2 ^ 20) = true ∧
    (commanded 16 0x200000 8).poolUse 0 = [] ∧
    ({ commanded 16 0x200000 8 with coh := { Coh.reset with away := [(0, 3)] } }.poolUse 0) ≠ [] ∧ Part.zero.isolated = false ∧
    ((commanded 9 0 0).isolate 0 Part.zero).isolatedPart 0 = true ∧ ((commanded 17 191 0x5000).rootGet 0 0x5000 32).isSome = true ∧
    ({ commanded 4 0 0 with parts := [(0, { Part.zero with cmds := [4] })] }.part 0).map (fun (p : Part) => leNat (p.mailRead 8 8) != 4) = some true ∧ managementOnly 18 = true ∧
    (commanded 8 0 0).rowsHeldIn 0 Part.zero = false ∧ (withSeq (holding 1) fun q => { q with mat := { q.mat with ops := q.mat.ops.map fun o => { o with rows := [[⟨0, 0, .hbm, .s, 0, 0, 64⟩]] } } }).rowsHeldIn 0 Part.zero = true ∧
    ((start []).flowOf 0 63).room ≠ 0 ∧ (start []).laterOf (0, 63) = [] ∧
    (({ start [] with host := { (start []).host with flows := [{ Flow.start 0 63 with next := 512 }] } } : State).flowOf 0 63).room = 0 := by decide +kernel

/-- A descriptor of partition n with cluster 63, granule 700 and a key of a parameter set. -/
def descOf (n set : Nat) : List Byte :=
  leBytes 8 n ++ leBytes 8 (2 ^ 63) ++ leBytes 96 (2 ^ 700) ++ leBytes 8 0 ++ leBytes 8 1 ++ [0, 0, 0, leByte set, 0, 0, 0, 4] ++ List.replicate 120 0
where leByte (n : Nat) : Byte := BitVec.ofNat 8 n
theorem witness_Create : keyOk (descPart (descOf 1 5)).2.codeKey = true ∧ keyOk (descPart (descOf 1 9)).2.codeKey = false ∧
    (commanded 12 0 0).canCreate Part.zero (descOf 1 5) = true ∧ (commanded 12 0 0).canCreate Part.zero (descOf 0 5) = false := by decide +kernel

/-- A partition reset: its first firing isolates; with no launch left the second is the last. -/
theorem witness_Reset : (let s := (commanded 9 0 0).isolate 0 Part.zero
    match s.part 0 with | some p => p.isolated && !(s.resetLaunches 0).launches.any fun l => l.part == 0 && !l.done | none => false) = true := by decide +kernel

/-- An LMS key of 56 bytes (R331). -/
def ownerKey : List Byte := [0, 0, 0, 5, 0, 0, 0, 4] ++ List.replicate 48 0
def owned : State := { State.reset with dev := { State.reset.dev with ownerKey := some ownerKey } }

/-- A command whose signature the verifier takes: its answer is free (log 10), so it stands as the premise. -/
theorem witness_Signed (h : Config.lmsVerify ownerKey (Part.zero.mailRead 0x08 0x80 ++ []) (Part.zero.mailRead 0x800 0) = true) :
    (owned.signedBy Part.zero []).isSome = true := by
  have n : leNat (Part.zero.mailRead 0x80 8) = 0 := by decide +kernel
  have k : keyOk ownerKey = true := by decide +kernel
  simpa [State.signedBy, owned, n, k, State.reset] using h

/-- A device in a stage that began at time 0. -/
def staged (n now : Nat) : State := { State.reset with dev := { State.reset.dev with stage := n, stageAt := 0 }, time := now }

/-- Stages in which what is asked of Config is free (log 10): that it succeeds, or that it does not, stands as the premise, and either is met in each stage. -/
theorem witness_StartGood (n : Nat) (h : Config.imageVerifies n (staged 1 0).draws = true) : (n = 0 ∨ n = 1 → ((staged 1 0).dev.stage = 1 ∧
      (Config.imageVerifies 0 (staged 1 0).draws = true ∨ Config.imageVerifies 1 (staged 1 0).draws = true))) ∧
    (n = 3 → (staged 2 0).dev.stage = 2 ∧ Config.imageVerifies 3 (staged 2 0).draws = true) ∧ (n = 2 → (staged 3 0).dev.stage = 3 ∧ Config.imageVerifies 2 (staged 3 0).draws = true) := by
  refine ⟨?_, ?_, ?_⟩
  · rintro (rfl | rfl)
    · exact ⟨rfl, .inl h⟩
    · exact ⟨rfl, .inr h⟩
  · rintro rfl; exact ⟨rfl, h⟩
  · rintro rfl; exact ⟨rfl, h⟩

theorem witness_Starts : State.reset.dev.stage = 0 ∧ (∀ n ∈ [1, 2, 3, 4, 5, 6], (staged n 0).dev.stage = n) ∧
    ([(1, 50000000), (2, 2000000000), (3, 50000000), (4, 1000000000)].all fun p => decide ((staged p.1 p.2).dev.stageAt + p.2 ≤ (staged p.1 p.2).time) &&
      decide ((staged p.1 (p.2 - 1)).time < (staged p.1 (p.2 - 1)).dev.stageAt + p.2)) = true ∧
    (State.reset.powerOf 0).tickAt = 0 ∧ (staged 5 100000).time = (State.reset.powerOf 0).tickAt + 100000 ∧
    (let s := State.reset; let m := [500, 600, 700, 800, 900, 1000, 1100, 3201, 3000, 0]
     (s.powerOf 0).plimit < projAt m (s.powerOf 0).cap ∧ 1 ≤ (s.powerOf 0).cap) ∧
    (let p := { Power.reset with cap := 7, lowFor := 9 }; let s := { State.reset with power := [(0, p)] }; let m := [500, 600, 700, 800, 900, 1000, 1100, 1200, 1000, 0]
     projAt m (s.powerOf 0).cap ≤ (s.powerOf 0).plimit ∧ 100 * projAt m (s.powerOf 0).cap < 95 * (s.powerOf 0).plimit ∧ 9 ≤ (s.powerOf 0).lowFor ∧ (s.powerOf 0).whold = false) ∧
    (let m := [3040, 3040, 3040, 3040, 3040, 3040, 3040, 3040, 1000, 0]; let s := State.reset
     projAt m (s.powerOf 0).cap ≤ (s.powerOf 0).plimit ∧ 95 * (s.powerOf 0).plimit ≤ 100 * projAt m (s.powerOf 0).cap) := by
  decide +kernel

theorem witness_EveryStep : Memory.wf State.reset.mem = true ∧ nextP (step (State.reset.withFetchWord 32 0x00B50533)) (fun _ => true) = true := by decide +kernel

end Sys2Proof.Machine.Tests
end

section
/-! What a write of a Salica CSR leaves (R4, R78). -/

namespace Sys2Proof.Machine

/-- The numbers from 0x323 up that neither salicaWrite nor userWrite names and that lie outside the PMP registers: privWrite passes them by. -/
theorem State.csrWrite_ctl (s : State) (n : Nat) (v : Word) (hn : 0x800 ≤ n ∧ n ≤ 0x806) : s.csrWrite n v = s.salicaWrite n v := by
  obtain ⟨h1, h2⟩ := hn
  interval_cases n <;> rfl

/-- So they do with vshare. -/
theorem State.csrWrite_vshare (s : State) (v : Word) : s.csrWrite 0x5C0 v = s.salicaWrite 0x5C0 v := rfl

theorem getBits_low (v : Word) (n : Nat) : getBits v 0 n = v.toNat % 2 ^ n := by simp [getBits]

theorem capGrant_eq (g : Nat) : capGrant g = min 8 g := by
  unfold capGrant; omega

/-- Settles O27: each number meets one arm of salicaWrite, which updates the fields named. -/
theorem salicaCsrWritesKeepTheirFields : Obligations.SalicaCsrWritesKeepTheirFields := by
  intro s v
  rw [s.csrWrite_ctl 0x804 v (by decide), s.csrWrite_ctl 0x805 v (by decide), s.csrWrite_ctl 0x801 v (by decide),
    s.csrWrite_ctl 0x800 v (by decide), s.csrWrite_ctl 0x806 v (by decide), s.csrWrite_vshare v]
  refine ⟨⟨_, rfl, rfl, rfl⟩, ⟨_, rfl, rfl, rfl⟩, ⟨_, rfl, rfl, getBits_low v 6⟩, ⟨_, rfl, rfl, rfl⟩, ⟨_, rfl, rfl, rfl⟩, ⟨_, rfl, rfl, ?_, rfl⟩⟩
  show capGrant (getBits v 0 4) = _
  rw [capGrant_eq, getBits_low v 4]
  rfl

end Sys2Proof.Machine
end

section
/-! SUPPORT. Memory stays canonical: what the results of the model's parts carry. Each function that a step calls has one lemma in the sections
below, in the order of the model: `f_mem` says that f leaves the memory alone, `f_wfMem` that f keeps it canonical. Its proof follows the branches
of f, and cites the lemma of what each branch calls. -/

namespace Sys2Proof.Machine

theorem Res.WfMem.of_trap {α : Type} {r : Res α} {c : Nat} {v : Word} {s : State} (h : r.WfMem) (e : r = .trap c v s) : s.WfMem := by subst e; exact h

theorem Res.WfMem.of_stall {α : Type} {r : Res α} {w : Stall} {s : State} (h : r.WfMem) (e : r = .stall w s) : s.WfMem := by subst e; exact h

theorem State.WfMem.ite {c : Prop} {d : Decidable c} {s t : State} (hs : s.WfMem) (ht : t.WfMem) : (if c then s else t).WfMem := by
  split
  · exact hs
  · exact ht

theorem Res.WfMem.ite {α : Type} {c : Prop} {d : Decidable c} {r q : Res α} (hr : r.WfMem) (hq : q.WfMem) : (if c then r else q).WfMem := by
  split
  · exact hr
  · exact hq

theorem State.WfMem.of_fst {α : Type} {p : State × α} {s : State} {a : α} (h : p.1.WfMem) (e : p = (s, a)) : s.WfMem := by subst e; exact h

theorem State.WfMem.of_snd {α : Type} {p : α × State} {s : State} {a : α} (h : p.2.WfMem) (e : p = (a, s)) : s.WfMem := by subst e; exact h

/-- The state that a register store answers. -/
def RegStore.WfMem : RegStore → Prop
  | .done s => s.WfMem
  | .full => True

theorem RegStore.WfMem.of_done {r : RegStore} {s : State} (h : r.WfMem) (e : r = .done s) : s.WfMem := by subst e; exact h

/-- The state that a pass over rows answers. -/
def Pass.WfMem : Pass → Prop
  | .all _ s => s.WfMem
  | .fault _ _ _ _ s => s.WfMem
  | .waits _ s => s.WfMem

theorem Pass.WfMem.of_all {r : Pass} {rows : List (List Loc)} {s : State} (h : r.WfMem) (e : r = .all rows s) : s.WfMem := by subst e; exact h

theorem Pass.WfMem.of_fault {r : Pass} {c : Nat} {v : Word} {m : Nat} {rows : List (List Loc)} {s : State} (h : r.WfMem)
    (e : r = .fault c v m rows s) : s.WfMem := by subst e; exact h

theorem Pass.WfMem.of_waits {r : Pass} {w : Stall} {s : State} (h : r.WfMem) (e : r = .waits w s) : s.WfMem := by subst e; exact h

/-- The state that a run of a matrix operation answers. -/
def MatRun.WfMem : MatRun → Prop
  | .ended _ s => s.WfMem
  | .waits _ _ s => s.WfMem
  | .faults _ _ s => s.WfMem

theorem MatRun.WfMem.of_ended {r : MatRun} {x : MatEnd} {s : State} (h : r.WfMem) (e : r = .ended x s) : s.WfMem := by subst e; exact h

theorem MatRun.WfMem.of_waits {r : MatRun} {m : Nat} {w : Stall} {s : State} (h : r.WfMem) (e : r = .waits m w s) : s.WfMem := by subst e; exact h

theorem MatRun.WfMem.of_faults {r : MatRun} {c : Nat} {v : Word} {s : State} (h : r.WfMem) (e : r = .faults c v s) : s.WfMem := by subst e; exact h

/-- The state that a run of a copy answers. -/
def CopyRun.WfMem : CopyRun → Prop
  | .finished s => s.WfMem
  | .failed _ _ s => s.WfMem
  | .waits _ s => s.WfMem

theorem CopyRun.WfMem.of_finished {r : CopyRun} {s : State} (h : r.WfMem) (e : r = .finished s) : s.WfMem := by subst e; exact h

theorem CopyRun.WfMem.of_failed {r : CopyRun} {c : Nat} {v : Word} {s : State} (h : r.WfMem) (e : r = .failed c v s) : s.WfMem := by subst e; exact h

theorem CopyRun.WfMem.of_waits {r : CopyRun} {n : Nat} {s : State} (h : r.WfMem) (e : r = .waits n s) : s.WfMem := by subst e; exact h

/-- The state that a run of an asynchronous sample answers. -/
def TexRun.WfMem : TexRun → Prop
  | .ended _ _ s => s.WfMem
  | .waits _ s => s.WfMem

theorem TexRun.WfMem.of_ended {r : TexRun} {op : TexOp} {f : Option (Nat × Word)} {s : State} (h : r.WfMem) (e : r = .ended op f s) : s.WfMem := by
  subst e; exact h

theorem TexRun.WfMem.of_waits {r : TexRun} {op : TexOp} {s : State} (h : r.WfMem) (e : r = .waits op s) : s.WfMem := by subst e; exact h

/-- The state that an attempt answers, where it succeeds. -/
def SomeWfMem : Option State → Prop
  | some s => s.WfMem
  | none => True

theorem SomeWfMem.of_some {o : Option State} {s : State} (h : SomeWfMem o) (e : o = some s) : s.WfMem := by subst e; exact h

/-- The state that a command of root answers with its status. -/
def AnswerWfMem : Option (Nat × Nat × State) → Prop
  | some (_, _, s) => s.WfMem
  | none => True

theorem AnswerWfMem.of_state {s : State} {c a : Nat} (h : s.WfMem) : AnswerWfMem (some (c, a, s)) := h

theorem AnswerWfMem.ite {c : Prop} {d : Decidable c} {o p : Option (Nat × Nat × State)} (ho : AnswerWfMem o) (hp : AnswerWfMem p) :
    AnswerWfMem (if c then o else p) := by
  split
  · exact ho
  · exact hp

theorem AnswerWfMem.of_some {o : Option (Nat × Nat × State)} {c a : Nat} {s : State} (h : AnswerWfMem o) (e : o = some (c, a, s)) : s.WfMem := by
  subst e; exact h

/-- The state that an instruction or event goes on to, if it goes on, has its memory in canonical form. -/
def NextWfMem : Host.Outcome State Fault Refusal → Prop
  | .next t => t.WfMem
  | .fault _ => True
  | .refused _ => True

theorem NextWfMem.ite {c : Prop} {d : Decidable c} {o p : Host.Outcome State Fault Refusal} (ho : NextWfMem o) (hp : NextWfMem p) :
    NextWfMem (if c then o else p) := by
  split
  · exact ho
  · exact hp

theorem NextWfMem.of_next {o : Host.Outcome State Fault Refusal} {s : State} (h : NextWfMem o) (e : o = .next s) : s.WfMem := by subst e; exact h

theorem finish_nextWfMem {r : Res Unit} (h : r.WfMem) : NextWfMem (finish r) := by
  cases r <;> exact finish_wfMem h rfl

theorem finishAt_nextWfMem {r : Res (Word × Bool)} (h : r.WfMem) : NextWfMem (finishAt r) := by
  cases r <;> exact finishAt_wfMem h rfl

theorem finishV_nextWfMem {r : Res VInfo} (h : r.WfMem) : NextWfMem (finishV r) := by
  cases r <;> exact finishV_wfMem h rfl

theorem finishEvent_nextWfMem {r : Res Unit} (h : r.WfMem) : NextWfMem (finishEvent r) := by
  cases r <;> exact finishEvent_wfMem h rfl

end Sys2Proof.Machine
end

section
/-! SUPPORT. Memory stays canonical: accesses to memory, and the instructions that make them. -/

namespace Sys2Proof.Machine

variable {s : State}

/-! ## Homes and accesses -/

@[simp] theorem State.modQueue_mem (s : State) (part qid : Nat) (f : Queue → Queue) : (s.modQueue part qid f).mem = s.mem := rfl

@[simp] theorem State.setQueue_mem (s : State) (q : Queue) : (s.setQueue q).mem = s.mem := rfl

@[simp] theorem State.copyDrop_mem (s : State) (core : Nat) (sel : Nat → Bool) : (s.copyDrop core sel).mem = s.mem := rfl

@[simp] theorem State.emit_mem (s : State) (m : Sent) : (s.emit m).mem = s.mem := by
  unfold State.emit
  split <;> rfl

@[simp] theorem State.sendLater_mem (s : State) (k : Nat × Nat) : (s.sendLater k).mem = s.mem := foldl_mem _ (fun _ _ => by simp) _ _

theorem State.peerReadHart_wfMem {via : Via} {l : Loc} {p base h : Nat} (hs : s.WfMem) : (s.peerReadHart via l p base h).WfMem := by
  unfold State.peerReadHart
  split
  · exact Res.WfMem.ite hs hs
  · exact Res.WfMem.ite hs (hs.of_eq (by simp))

theorem State.peerReadAsk_wfMem {via : Via} {l : Loc} {p base : Nat} (h : s.WfMem) : (s.peerReadAsk via l p base).WfMem := by
  unfold State.peerReadAsk
  split
  · split
    · exact h
    · exact Res.WfMem.ite h h
  · exact .ite h (h.of_eq (by simp))

@[simp] theorem State.setRod_mem (s : State) (region : Nat) (r : Rod) : (s.setRod region r).mem = s.mem := rfl

@[simp] theorem State.grantRod_mem (s : State) (region : Nat) (party : Party) (waiters : List Party) (home : Nat) :
    (s.grantRod region party waiters home).mem = s.mem := rfl

@[simp] theorem State.settled_mem (s : State) (h : Nat) : (s.settled h).mem = s.mem := by
  unfold State.settled
  split <;> rfl

/-! ## Writes of the front end, and register blocks -/

theorem State.logSkip_wfMem {part qid which : Nat} {va : Word} {c : Nat} (h : s.WfMem) : (s.logSkip part qid which va c).WfMem := State.logEntry_wfMem _ _ _ h

theorem State.errHeader_wfMem {l : Launch} {hcode : Nat} (h : s.WfMem) : (s.errHeader l hcode).WfMem := State.launchWrite_wfMem _ _ _ _ _ h

theorem State.amoWord_wfMem {via : Via} {l : Loc} {f : Nat → Nat} (h : s.WfMem) : (s.amoWord via l f).WfMem := by
  unfold State.amoWord
  split
  case h_3 | h_4 => exact h
  all_goals
    split
    · rename_i e
      exact State.WfMem.of_snd (State.atHome_wfMem _ _ _ _ h) e
    · rename_i e
      exact State.rmwDone_wfMem _ _ _ _ (State.WfMem.of_snd (State.atHome_wfMem _ _ _ _ h) e)

theorem State.amoVa_wfMem {via : Via} {va : Word} {hbm : Bool} {f : Nat → Nat} (h : s.WfMem) : (s.amoVa via va hbm f).WfMem := by
  unfold State.amoVa
  refine Res.wfMem_bind (State.locate_wfMem _ _ _ _ _ h) fun _ _ h1 => ?_
  split
  · exact Res.WfMem.ite h1 (State.amoWord_wfMem h1)
  · exact h1

theorem State.amoMax_wfMem {via : Via} {va : Word} {hbm : Bool} {v : Nat} (h : s.WfMem) : (s.amoMax via va hbm v).WfMem :=
  Res.wfMem_bind (State.amoVa_wfMem h) fun _ _ h1 => h1

theorem State.doneAt_wfMem {a : Nat} {va : Word} (h : s.WfMem) : (s.doneAt a va).WfMem := by
  unfold State.doneAt
  refine .ite h ?_
  split
  · rename_i e1
    have h1 := (State.locate_wfMem _ _ _ _ _ h).of_ok e1
    split <;> exact h1
  · rename_i e1
    exact (State.locate_wfMem _ _ _ _ _ h).of_ok e1
  · rename_i e1
    exact (State.locate_wfMem _ _ _ _ _ h).of_trap e1
  · rename_i e1
    exact (State.locate_wfMem _ _ _ _ _ h).of_stall e1

theorem State.signalDone_wfMem {a k : Nat} (h : s.WfMem) : (s.signalDone a k).WfMem := by
  unfold State.signalDone
  split
  · exact h
  · split
    · rename_i e2
      exact (State.amoWord_wfMem h).of_ok e2
    · rename_i e2
      exact State.logEntry_wfMem _ _ _ ((State.amoWord_wfMem h).of_trap e2)
    · exact h

theorem State.agentEnd_wfMem {a k result : Nat} {addr : Word} (h : s.WfMem) : (s.agentEnd a k result addr).1.WfMem := by
  unfold State.agentEnd
  split
  · rename_i e
    exact (State.writeBytes_wfMem _ _ _ _ h).of_stall e
  · split
    · rename_i s1 e
      have h1 := (State.writeBytes_wfMem _ _ _ _ h).of_ok e
      split <;> exact State.WfMem.of_eq (s := s1.signalDone a k) (State.signalDone_wfMem h1) (by simp)
    · split <;> exact State.WfMem.of_eq (s := s.signalDone a k) (State.signalDone_wfMem h) (by simp)

theorem State.agentDrain_wfMem {a n : Nat} (h : s.WfMem) : (s.agentDrain a n).WfMem := by
  induction n generalizing s a with
  | zero => exact h
  | succ _ ih =>
    unfold State.agentDrain
    dsimp only
    split
    · exact h
    · split
      · rename_i e2
        exact ih (State.WfMem.of_fst (State.agentEnd_wfMem h) e2)
      · rename_i e2
        exact State.WfMem.of_fst (State.agentEnd_wfMem h) e2

theorem State.agentFinish_wfMem {a k result : Nat} {addr : Word} (h : s.WfMem) : (s.agentFinish a k result addr).WfMem := State.agentDrain_wfMem h

@[simp] theorem State.agentReset_mem (s : State) (a : Nat) : (s.agentReset a).mem = s.mem := by
  unfold State.agentReset
  extract_lets mine s1 s2 dir s3
  have h1 : s1.mem = s.mem := by
    refine foldl_mem _ (fun st r => ?_) _ _
    split
    · split
      · exact State.poisonRange_mem ..
      · rfl
    · rfl
  exact (State.modAgent_mem ..).trans ((State.releaseRods_mem ..).trans h1)

theorem State.agentEnable_wfMem {a : Nat} (h : s.WfMem) : (s.agentEnable a).WfMem := State.WfMem.ite h (State.agentDrain_wfMem h)

theorem State.agentNotify_wfMem {a k : Nat} (h : s.WfMem) : (s.agentNotify a k).WfMem := by
  unfold State.agentNotify
  dsimp only
  split
  · exact h
  · split
    · trivial
    · exact h

@[simp] theorem State.agentMdone_mem (s : State) (a m : Nat) : (s.agentMdone a m).mem = s.mem := by
  unfold State.agentMdone
  dsimp only
  repeat' split
  all_goals rfl

@[simp] theorem State.setPlimit_mem (s : State) (w : Nat) : (s.setPlimit w).mem = s.mem := rfl

theorem State.agentStore_wfMem {a off : Nat} {v mask : Word} {mode : Mode} (h : s.WfMem) : (s.agentStore a off v mask mode).WfMem := by
  unfold State.agentStore
  split
  · split <;> exact h
  · dsimp only
    split
    any_goals exact State.WfMem.ite h h
    · split
      · exact h
      · split
        · split <;> exact h.of_eq (by simp)
        · split
          · exact State.WfMem.ite (State.WfMem.ite h h) (State.agentEnable_wfMem (State.WfMem.ite h h))
          · split <;> exact h
    · exact h
    · exact h
    · split
      · exact State.agentNotify_wfMem h
      · exact h
    · split
      · split
        · exact h.of_eq (by simp)
        · exact h
      · split <;> exact h
    · exact h

/-! ## What every instruction shares -/

@[simp] theorem State.safePoint_mem (s : State) (h : Nat) : (s.safePoint h).mem = s.mem := by
  unfold State.safePoint
  simp

@[simp] theorem State.functionEntry_mem (s : State) (h : Nat) (a : Word) : (s.functionEntry h a).1.mem = s.mem := by
  unfold State.functionEntry
  split
  · rfl
  · split
    · split
      · simp
      · rfl
    · rfl

@[simp] theorem State.loopSafe_mem (s : State) (h : Nat) (start target : Word) : (s.loopSafe h start target).1.mem = s.mem := by
  unfold State.loopSafe
  dsimp only
  repeat' split
  all_goals simp

@[simp] theorem State.supTrap_mem (s : State) (cluster : Nat) (epc : Word) (cause : Nat) (tval : Word) : (s.supTrap cluster epc cause tval).mem = s.mem := by
  unfold State.supTrap
  simp

theorem State.illegal_wfMem {α : Type} (h : s.WfMem) : (s.illegal : Res α).WfMem := h

theorem State.loadLocs_wfMem {via : Via} {inv : Bool} {ls : List Loc} (h : s.WfMem) : (s.loadLocs via inv ls).WfMem := by
  unfold State.loadLocs
  split
  · split
    · exact Res.WfMem.ite h h
    · exact State.readLocs_wfMem _ _ _ _ h
  · exact State.readLocs_wfMem _ _ _ _ h

theorem State.loadAt_wfMem {via : Via} {va : Word} {n : Nat} {inv : Bool} (h : s.WfMem) : (s.loadAt via va n inv).WfMem :=
  Res.wfMem_bind (State.locate_wfMem _ _ _ _ _ h) fun _ _ h1 => State.loadLocs_wfMem h1

theorem State.storeReg_wfMem {via : Via} {va : Word} {a off : Nat} {bytes : List Byte} (h : s.WfMem) : (s.storeReg via va a off bytes).WfMem := by
  unfold State.storeReg
  refine .ite ?_ h
  dsimp only
  split
  · rename_i e1
    exact (State.agentStore_wfMem h).of_done e1
  · exact h

theorem State.storeAt_wfMem {via : Via} {va : Word} {bytes : List Byte} (h : s.WfMem) : (s.storeAt via va bytes).WfMem := by
  unfold State.storeAt
  refine Res.wfMem_bind (State.locate_wfMem _ _ _ _ _ h) fun _ _ h1 => ?_
  split
  · split
    · exact State.storeReg_wfMem h1
    · exact State.storeLocs_wfMem _ _ _ _ h1
  · exact State.storeLocs_wfMem _ _ _ _ h1

/-! ## Loads, stores and fences -/

theorem doLoad_wfMem {op : LoadOp} {rd rs1 : Reg} {imm : BitVec 12} (h : s.WfMem) : (doLoad s op rd rs1 imm).WfMem :=
  .ite (State.illegal_wfMem h) (Res.wfMem_bind (State.loadAt_wfMem h) fun _ _ h1 => State.WfMem.ite h1 h1)

theorem State.releaseSys_wfMem (h : s.WfMem) : s.releaseSys.WfMem := Res.WfMem.ite h ((State.flushP_wfMem _ _ h).of_eq (State.settled_mem ..))

theorem State.releaseNear_wfMem (h : s.WfMem) : s.releaseNear.WfMem := Res.WfMem.ite h h

theorem State.peerRelease_wfMem {l : Loc} {p v : Nat} (h : s.WfMem) : (s.peerRelease l p v).WfMem := by
  unfold State.peerRelease
  split
  · exact h
  · exact Res.wfMem_bind (State.releaseSys_wfMem h) fun _ _ h1 => Res.WfMem.ite h1 (h1.of_eq (by simp))

theorem State.scalarStore_wfMem {va : Word} {bytes : List Byte} (h : s.WfMem) : (s.scalarStore va bytes).WfMem := by
  unfold State.scalarStore
  refine .ite ?_ (State.storeAt_wfMem h)
  refine Res.wfMem_bind (State.locate_wfMem _ _ _ _ _ h) fun _ _ h1 => ?_
  split
  · exact Res.wfMem_bind (State.peerRelease_wfMem h1) fun _ _ h3 => h3
  · exact State.storeAt_wfMem h1

theorem doStore_wfMem {op : StoreOp} {rs2 rs1 : Reg} {imm : BitVec 12} (h : s.WfMem) : (doStore s op rs2 rs1 imm).WfMem :=
  Res.WfMem.ite (State.illegal_wfMem h) (State.scalarStore_wfMem h)

theorem execLdAq_wfMem {scope width : BitVec 2} {rd rs1 : Reg} (h : s.WfMem) : NextWfMem (execLdAq scope width rd rs1 s) := by
  unfold execLdAq
  refine finish_nextWfMem ?_
  refine .ite (State.illegal_wfMem h) (.ite h ?_)
  refine Res.wfMem_bind (State.locate_wfMem _ _ _ _ _ h) fun _ _ h0 => ?_
  exact .ite h0 (Res.wfMem_bind (State.loadLocs_wfMem h0) fun _ _ h1 => (State.WfMem.ite (State.flushP_wfMem _ _ h1) h1).of_eq rfl)

theorem execStRl_wfMem {scope width : BitVec 2} {rs2 rs1 : Reg} (h : s.WfMem) : NextWfMem (execStRl scope width rs2 rs1 s) := by
  unfold execStRl
  refine finish_nextWfMem ?_
  refine .ite (State.illegal_wfMem h) (.ite h ?_)
  refine Res.wfMem_bind (State.locate_wfMem _ _ _ _ _ h) fun _ _ h1 => ?_
  split
  · exact Res.WfMem.ite (State.peerRelease_wfMem h1) h1
  · exact Res.wfMem_bind (Res.WfMem.ite (State.releaseSys_wfMem h1) (State.releaseNear_wfMem h1)) fun _ _ h2 => State.storeAt_wfMem h2

theorem execFenceS_wfMem {scope : BitVec 2} (h : s.WfMem) : NextWfMem (execFenceS scope s) := by
  unfold execFenceS
  refine finish_nextWfMem ?_
  refine .ite (State.illegal_wfMem h) (.ite (State.releaseNear_wfMem h) ?_)
  split
  · exact Res.wfMem_bind (State.releaseNear_wfMem h) fun _ _ h1 => State.flushP_wfMem _ _ h1
  · exact Res.wfMem_bind (State.releaseSys_wfMem h) fun _ _ h1 => h1

theorem execVfenceSv_wfMem (h : s.WfMem) : NextWfMem (execVfenceSv s) := finish_nextWfMem h

theorem execVfenceVs_wfMem (h : s.WfMem) : NextWfMem (execVfenceVs s) := finish_nextWfMem h

theorem execVfenceVv_wfMem (h : s.WfMem) : NextWfMem (execVfenceVv s) := finish_nextWfMem h

theorem execFence_wfMem {kind : FenceKind} {pred succ : BitVec 4} (h : s.WfMem) : NextWfMem (execFence kind pred succ s) := by
  unfold execFence
  refine finish_nextWfMem ?_
  split
  · exact h
  · exact State.releaseSys_wfMem h
  · exact Res.WfMem.ite h (Res.WfMem.ite (State.releaseSys_wfMem h) (State.flushP_wfMem _ _ h))

@[simp] theorem State.tlbDrop_mem (s : State) (cluster : Nat) (sel : TlbEntry → Bool) : (s.tlbDrop cluster sel).mem = s.mem := rfl

/-! ## Updates of words in memory -/

theorem State.qtailAdd_wfMem {a off n : Nat} {op : AmoOp} {v : Nat} {va : Word} (h : s.WfMem) : (s.qtailAdd a off n op v va).WfMem := .ite h h

theorem State.amoAt_wfMem {salica : Bool} {op : AmoOp} {n : Nat} {va : Word} {v c : Nat} {pre : State → Res Unit} (h : s.WfMem)
    (hp : ∀ s1, s1.WfMem → (pre s1).WfMem) :
    (s.amoAt salica op n va v c pre).WfMem := by
  unfold State.amoAt
  refine .ite h ?_
  refine Res.wfMem_bind (State.locate_wfMem _ _ _ _ _ h) fun _ _ h1 => ?_
  split
  · extract_lets +onlyGivenNames update
    have hupdate : update.WfMem := by
      unfold update
      split
      · exact h1
      · refine Res.wfMem_bind (hp _ h1) fun _ _ h2 => ?_
        split
        · rename_i e2
          exact State.WfMem.of_snd (State.atHome_wfMem _ _ _ _ h2) e2
        · rename_i e2
          have h3 := State.WfMem.of_snd (State.atHome_wfMem _ _ _ _ h2) e2
          exact State.rmwDone_wfMem _ _ _ _ h3
    split
    any_goals exact h1
    · exact Res.WfMem.ite h1 (State.qtailAdd_wfMem h1)
    · exact Res.WfMem.ite h1 hupdate
    · exact hupdate
    · exact hupdate
  · exact h1

theorem State.lrAt_wfMem {n : Nat} {va : Word} (h : s.WfMem) : (s.lrAt n va).WfMem := by
  unfold State.lrAt
  refine .ite h ?_
  refine Res.wfMem_bind (State.locate_wfMem _ _ _ _ _ h) fun _ _ h1 => ?_
  split
  · split
    any_goals exact Res.wfMem_bind (State.readLocs_wfMem _ _ _ _ (State.homeView_wfMem _ _ _ h1)) fun _ _ h2 => h2
    · exact h1
    · exact h1
  · exact h1

theorem State.scAt_wfMem {n : Nat} {va : Word} {v : Nat} (h : s.WfMem) : (s.scAt n va v).WfMem := by
  unfold State.scAt
  refine .ite h ?_
  refine Res.wfMem_bind (State.locate_wfMem _ _ _ _ _ h) fun _ _ h1 => ?_
  split
  · split
    any_goals exact Res.WfMem.ite (State.rmw_wfMem _ _ _ _ _ h1) h1
    · exact h1
    · exact h1
  · exact h1

theorem State.ordered_wfMem {rl aq : Bool} (h : s.WfMem) : (s.ordered rl aq).WfMem :=
  Res.WfMem.ite (State.releaseSys_wfMem h) (State.WfMem.ite (State.flushP_wfMem _ _ h) h)

theorem execStandardAmo_wfMem {op : AmoOp} {dword aq rl : Bool} {rd rs2 rs1 : Reg} (h : s.WfMem) : NextWfMem (execStandardAmo op dword aq rl rd rs2 rs1 s) := by
  unfold execStandardAmo
  refine finish_nextWfMem ?_
  refine Res.wfMem_bind ?_ fun _ _ h1 => ?_
  · split
    · exact Res.wfMem_bind (State.ordered_wfMem h) fun _ _ h0 => State.lrAt_wfMem h0
    · exact Res.wfMem_bind (State.ordered_wfMem h) fun _ _ h0 => State.scAt_wfMem h0
    · exact State.illegal_wfMem h
    · exact State.amoAt_wfMem h fun _ h1 => State.ordered_wfMem h1
  · exact h1

theorem execAmoScoped_wfMem {op : BitVec 4} {dword : Bool} {scope : BitVec 2} {rd rs2 rs1 : Reg} (h : s.WfMem) :
    NextWfMem (execAmoScoped op dword scope rd rs2 rs1 s) := by
  unfold execAmoScoped
  refine finish_nextWfMem ?_
  dsimp only
  split
  · exact State.illegal_wfMem h
  · refine .ite (State.illegal_wfMem h) ?_
    refine Res.wfMem_bind ?_ fun _ _ h1 => ?_
    · exact State.amoAt_wfMem h fun _ h1 => Res.WfMem.ite (State.ordered_wfMem h1) (State.releaseNear_wfMem h1)
    · exact h1

theorem State.discarded_wfMem {va : Word} {code : Nat} (h : s.WfMem) : (s.discarded va code).WfMem := State.logEntry_wfMem _ _ _ h

theorem State.bankUpdate_wfMem {l : Loc} {tag v : Nat} (h : s.WfMem) : (s.bankUpdate l tag v).WfMem :=
  .ite ((State.putBytes_wfMem _ _ _ _ h).of_eq (State.fireArmed_mem ..)) (State.rmw_wfMem _ _ _ _ _ h)

theorem State.scratchTag_wfMem {l : Loc} {tag v : Nat} {va : Word} (h : s.WfMem) : (s.scratchTag l tag v va).WfMem :=
  Res.WfMem.ite h (Res.WfMem.ite (State.discarded_wfMem h) (State.bankUpdate_wfMem h))

theorem State.homeTag_wfMem {s0 : State} {l : Loc} {tag v : Nat} {va : Word} (h : s0.WfMem) : (s0.homeTag l tag v va).WfMem := by
  unfold State.homeTag
  extract_lets +onlyGivenNames s
  have hs : s.WfMem := State.bringLines_wfMem _ _ _ (State.homeView_wfMem _ _ _ h)
  refine .ite (State.discarded_wfMem hs) (.ite (State.putBytes_wfMem _ _ _ _ (hs.of_eq (by simp))) ?_)
  split
  · rename_i e1
    exact State.discarded_wfMem (State.WfMem.of_snd (State.atHome_wfMem _ _ _ _ hs) e1)
  · rename_i e1
    exact State.rmwDone_wfMem _ _ _ _ (State.WfMem.of_snd (State.atHome_wfMem _ _ _ _ hs) e1)

theorem State.peerRed_wfMem {l : Loc} {p tag v : Nat} {sys : Bool} (h : s.WfMem) : (s.peerRed l p tag v sys).WfMem := by
  unfold State.peerRed
  split
  · exact h
  · exact .ite h (.ite h (Res.wfMem_bind (State.releaseSys_wfMem h) fun _ _ h1 => Res.WfMem.ite h1 (h1.of_eq (by simp))))

theorem execRed_wfMem {tag : BitVec 4} {scope : BitVec 2} {rs2 rs1 : Reg} (h : s.WfMem) : NextWfMem (execRed tag scope rs2 rs1 s) := by
  unfold execRed
  refine finish_nextWfMem ?_
  dsimp only
  refine .ite (State.illegal_wfMem h) (.ite h ?_)
  refine Res.wfMem_bind (State.locate_wfMem _ _ _ _ _ h) fun _ _ h1 => ?_
  split
  · refine .ite h1 ?_
    split
    · refine Res.wfMem_bind (Res.WfMem.ite (State.releaseSys_wfMem h1) (State.releaseNear_wfMem h1)) fun _ _ h2 => ?_
      exact (State.homeTag_wfMem h2).of_eq (State.noteWrite_mem ..)
    · exact Res.wfMem_bind (Res.WfMem.ite (State.releaseSys_wfMem h1) (State.releaseNear_wfMem h1)) fun _ _ h2 => h2.of_eq (by simp)
    · refine .ite h1 ?_
      refine Res.wfMem_bind (Res.WfMem.ite (State.releaseSys_wfMem h1) (State.releaseNear_wfMem h1)) fun _ _ h2 => ?_
      exact Res.wfMem_bind (State.scratchTag_wfMem h2) fun _ _ h3 => h3.of_eq (by simp)
    · exact State.peerRed_wfMem h1
    · exact h1
  · exact h1

theorem State.poolFullLog_wfMem {core line tag : Nat} (h : s.WfMem) : (s.poolFullLog core line tag).WfMem := State.logEntry_wfMem _ _ _ h

@[simp] theorem State.modBeads_mem (s : State) (line : Nat) (f : Bead → Bead) : (s.modBeads line f).mem = s.mem := rfl

theorem State.giveUpLine_wfMem {core line : Nat} (h : s.WfMem) : (s.giveUpLine core line).WfMem := by
  unfold State.giveUpLine
  extract_lets words low s1 rest
  have h1 : s1.WfMem := foldl_wfMem _ (fun _ _ hst => State.reckonWord_wfMem _ _ _ hst) _ _ h
  refine .ite h1 ?_
  split
  · exact h1.of_eq (State.modBeads_mem ..)
  · exact State.poolFullLog_wfMem (foldl_wfMem _ (fun _ _ hst => State.reckonWord_wfMem _ _ _ hst) _ _ h1)

theorem State.beadRoom_wfMem {core line tag : Nat} (h : s.WfMem) : (s.beadRoom core line tag).WfMem := by
  have hgive {st : State} {o : Option Nat} (hst : st.WfMem) : (match o with | some l => st.giveUpLine core l | none => st : State).WfMem := by
    split
    · exact State.giveUpLine_wfMem hst
    · exact hst
  unfold State.beadRoom
  extract_lets side s1 all
  have h1 : s1.WfMem := .ite (hgive h) h
  exact .ite (hgive h1) h1

theorem State.unpark_wfMem {core pa tag : Nat} (h : s.WfMem) : (s.unpark core pa tag).WfMem :=
  State.WfMem.ite (foldl_wfMem _ (fun _ _ hst => State.losePartial_wfMem _ _ _ _ hst) _ _ h) h

theorem State.clearTags_wfMem {pa tag : Nat} (h : s.WfMem) : (s.clearTags pa tag).WfMem := by
  unfold State.clearTags
  refine foldl_wfMem _ (fun _ _ hs1 => ?_) _ _ (foldl_wfMem _ (fun _ _ hst => State.reckonWord_wfMem _ _ _ hst) _ _ (State.bringLines_wfMem _ _ _ h))
  exact State.reckonWord_wfMem _ _ _ hs1

theorem State.placeBead_wfMem {l : Loc} {tag v : Nat} (h : s.WfMem) : (s.placeBead l tag v).WfMem := by
  unfold State.placeBead
  extract_lets core pa line s2 s3 inc b old owners mine b' s4
  have h2 : s2.WfMem := h.of_eq (by simp [s2])
  have h3 : s3.WfMem := State.unpark_wfMem (State.beadRoom_wfMem h2)
  exact h3.of_eq rfl

theorem execBupd_wfMem {tag : BitVec 4} {rs2 rs1 : Reg} (h : s.WfMem) : NextWfMem (execBupd tag rs2 rs1 s) := by
  unfold execBupd
  refine finish_nextWfMem ?_
  refine .ite (State.illegal_wfMem h) (.ite h ?_)
  refine Res.wfMem_bind (State.locate_wfMem _ _ _ _ _ h) fun _ _ h1 => ?_
  split
  · refine .ite h1 ?_
    split
    · exact State.scratchTag_wfMem h1
    · refine .ite h1 (.ite (State.discarded_wfMem h1) ?_)
      split
      · exact State.homeTag_wfMem h1
      · exact State.WfMem.ite (State.discarded_wfMem (State.clearTags_wfMem h1)) (State.placeBead_wfMem (State.clearTags_wfMem h1))
    · exact h1.of_eq (by simp)
    · exact h1
  · exact h1

theorem execBreckon_wfMem {rs1 : Reg} (h : s.WfMem) : NextWfMem (execBreckon rs1 s) := by
  unfold execBreckon
  refine finish_nextWfMem ?_
  refine Res.wfMem_bind (State.locate_wfMem _ _ _ _ _ h) fun _ _ h1 => ?_
  split
  · exact State.WfMem.ite (State.reckonRange_wfMem _ _ _ _ (h1.of_eq (by simp))) h1
  · exact h1

theorem State.rodLoc_wfMem {va : Word} (h : s.WfMem) : (s.rodLoc va).WfMem := by
  unfold State.rodLoc
  refine Res.wfMem_bind (State.locate_wfMem _ _ _ _ _ h) fun _ _ h1 => ?_
  split
  · split
    any_goals exact h1
    · exact Res.WfMem.ite h1 h1
    · exact Res.WfMem.ite h1 h1
  · exact h1

theorem execRodAcq_wfMem {rd rs1 : Reg} (h : s.WfMem) : NextWfMem (execRodAcq rd rs1 s) := by
  unfold execRodAcq
  refine finish_nextWfMem ?_
  refine Res.wfMem_bind (State.rodLoc_wfMem h) fun _ _ h1 => ?_
  refine .ite ?_ h1
  split
  · exact Res.WfMem.ite (h1.of_eq (by simp)) h1
  · exact Res.WfMem.ite (h1.of_eq (by simp)) (h1.of_eq (by simp))

theorem execRodRel_wfMem {rs1 : Reg} (h : s.WfMem) : NextWfMem (execRodRel rs1 s) :=
  finish_nextWfMem (Res.wfMem_bind (State.rodLoc_wfMem h) fun _ _ h1 => State.WfMem.ite (h1.of_eq (by simp)) h1)

theorem State.bankLoc_wfMem {va : Word} {n : Nat} (h : s.WfMem) : (s.bankLoc va n).WfMem := by
  unfold State.bankLoc
  refine Res.wfMem_bind (State.locate_wfMem _ _ _ _ _ h) fun _ _ h1 => ?_
  split
  · split
    any_goals exact Res.WfMem.ite h1 h1
    · exact h1
    · exact h1
  · exact h1

theorem execBankArm_wfMem {rd rs1 rs2 : Reg} (h : s.WfMem) : NextWfMem (execBankArm rd rs1 rs2 s) := by
  unfold execBankArm
  refine finish_nextWfMem ?_
  refine Res.wfMem_bind (State.bankLoc_wfMem h) fun _ _ h1 => ?_
  split
  · exact h1
  · refine .ite h1 (.ite h1 ?_)
    split
    · exact h1
    · exact Res.WfMem.ite h1 (Res.WfMem.ite h1 (Res.WfMem.ite h1 h1))

theorem execBankDisarm_wfMem {rd rs1 : Reg} (h : s.WfMem) : NextWfMem (execBankDisarm rd rs1 s) := by
  unfold execBankDisarm
  refine finish_nextWfMem ?_
  refine Res.wfMem_bind (State.bankLoc_wfMem h) fun _ _ h1 => ?_
  split
  · exact h1
  · exact Res.WfMem.ite h1 (Res.WfMem.ite h1 h1)

theorem waitWord_wfMem {ge : Bool} {rd rs1 rs2 rs3 : Reg} (h : s.WfMem) : (waitWord s ge rd rs1 rs2 rs3).WfMem := by
  unfold waitWord
  refine .ite h ?_
  refine Res.wfMem_bind (State.loadAt_wfMem (State.WfMem.ite h h)) fun _ _ h1 => ?_
  exact Res.WfMem.ite ((State.flushP_wfMem _ _ h1).of_eq rfl) (Res.WfMem.ite h1 h1)

@[simp] theorem State.setBarrier_mem (s : State) (b : Barrier) : (s.setBarrier b).mem = s.mem := rfl

theorem State.barStep_wfMem {t : Task} {rd : Reg} (h : s.WfMem) : (s.barStep t rd).WfMem := by
  unfold State.barStep
  split
  · exact Res.WfMem.ite h h
  · exact Res.wfMem_bind (State.releaseNear_wfMem h) fun _ _ h1 => Res.WfMem.ite h1 h1

theorem execBarWg_wfMem {rd : Reg} (h : s.WfMem) : NextWfMem (execBarWg rd s) := by
  unfold execBarWg
  refine finish_nextWfMem ?_
  split
  · exact h
  · exact State.barStep_wfMem h

@[simp] theorem State.depart_mem (s : State) (launch wg lin left : Nat) : (s.depart launch wg lin left).mem = s.mem := by
  unfold State.depart
  dsimp only
  repeat' split
  all_goals rfl

end Sys2Proof.Machine
end

section
/-! SUPPORT. Memory stays canonical: the engines, and the scalar instructions. -/

namespace Sys2Proof.Machine

variable {s : State}

/-! ## Timelines, tokens, reads and writes of an engine -/

theorem State.rawRead_wfMem {via : Via} {l : Loc} (h : s.WfMem) : (s.rawRead via l).WfMem := by
  unfold State.rawRead
  split
  case h_4 => exact Res.wfMem_bind (State.readLoc_wfMem _ _ _ _ h) fun _ _ h1 => h1
  all_goals
    extract_lets s0
    have h0 : s0.WfMem := State.WfMem.ite (h.of_eq (by simp)) h
    exact State.WfMem.ite ((State.reckonRange_wfMem _ _ _ _ h0).of_eq (State.modLines_mem ..)) h0

theorem State.rawReads_wfMem {via : Via} {xs : List Loc} (h : s.WfMem) : (s.rawReads via xs).WfMem := by
  induction xs generalizing s with
  | nil => exact h
  | cons _ _ ih =>
    unfold State.rawReads
    exact Res.wfMem_bind (State.rawRead_wfMem h) fun _ _ h1 => Res.wfMem_bind (ih h1) fun _ _ h2 => h2

theorem State.homeLocs_wfMem {via : Via} {ls : List Loc} (h : s.WfMem) : (s.homeLocs via ls).WfMem := State.WfMem.ite (State.pFlush_wfMem _ _ _ h) h

theorem State.engStore_wfMem {via : Via} {ls : List Loc} {bytes : List Byte} (h : s.WfMem) : (s.engStore via ls bytes).WfMem :=
  Res.wfMem_bind (State.storeLocs_wfMem _ _ _ _ h) fun _ _ h1 => State.homeLocs_wfMem h1

theorem State.engWrite_wfMem {via : Via} {va : Word} {bytes : List Byte} (h : s.WfMem) : (s.engWrite via va bytes).WfMem :=
  Res.wfMem_bind (State.locate_wfMem _ _ _ _ _ h) fun _ _ h1 => State.engStore_wfMem h1

theorem State.matReport_wfMem {h kind acc group src elem n : Nat} (hs : s.WfMem) : (s.matReport h kind acc group src elem n).WfMem :=
  State.logEntry_wfMem _ _ _ (hs.of_eq (by simp))

theorem State.takePend_wfMem {c n : Nat} {α : Type} (h : s.WfMem) : (s.takePend c n : Res α).WfMem := h

theorem execTlwait_wfMem {rd rs1 : Reg} {sel : BitVec 5} (h : s.WfMem) : NextWfMem (execTlwait rd rs1 sel s) := by
  unfold execTlwait
  refine finish_nextWfMem ?_
  refine .ite (State.illegal_wfMem h) (.ite h ?_)
  split
  · exact Res.WfMem.ite (State.takePend_wfMem h) h
  · exact h

theorem execTlread_wfMem {rd : Reg} {sel : BitVec 5} (h : s.WfMem) : NextWfMem (execTlread rd sel s) := by
  unfold execTlread
  refine finish_nextWfMem ?_
  split
  · exact State.illegal_wfMem h
  · exact h

/-! ## The matrix engine -/

theorem State.loadCheck_wfMem {via : Via} {xs : List Loc} (h : s.WfMem) : (s.loadCheck via xs).WfMem := by
  induction xs generalizing s with
  | nil => exact h
  | cons _ _ ih =>
    unfold State.loadCheck
    split
    · exact h
    · exact h
    · exact Res.WfMem.ite h (ih h)
    · exact ih h

theorem State.passRow_wfMem {via : Via} {store : Bool} {va : Word} {n e : Nat} (h : s.WfMem) : (s.passRow via store va n e).WfMem := by
  unfold State.passRow
  refine .ite h ?_
  refine Res.wfMem_bind (State.locate_wfMem _ _ _ _ _ h) fun _ _ h1 => ?_
  exact Res.wfMem_bind (Res.WfMem.ite (State.storeCheck_wfMem _ _ _ h1) (State.loadCheck_wfMem h1)) fun _ _ h2 => h2

theorem passRows_wfMem {via : Via} {store : Bool} {addr : Nat → Word} {n e n1 n2 : Nat} {xs : List (List Loc)} (h : s.WfMem) :
    (passRows via store addr n e n1 n2 xs s).WfMem := by
  induction n1 generalizing store addr n e n2 xs s with
  | zero => exact h
  | succ _ ih =>
    unfold passRows
    split
    · rename_i e1
      exact ih ((State.passRow_wfMem h).of_ok e1)
    · rename_i e1
      exact (State.passRow_wfMem h).of_trap e1
    · rename_i e1
      exact (State.passRow_wfMem h).of_stall e1

theorem passB_wfMem {via : Via} {f : MmaFmt} {b strb : Word} (h : s.WfMem) : (passB via f b strb s).WfMem := passRows_wfMem h

theorem passA_wfMem {via : Via} {f : MmaFmt} {a stra : Word} {m0 : Nat} (h : s.WfMem) : (passA via f a stra m0 s).WfMem := passRows_wfMem h

theorem readRows_wfMem {via : Via} {xs : List (List Loc)} (h : s.WfMem) : (readRows via xs s).WfMem := by
  induction xs generalizing s with
  | nil => exact h
  | cons _ _ ih =>
    unfold readRows
    exact Res.wfMem_bind (State.rawReads_wfMem h) fun _ _ h1 => Res.wfMem_bind (ih h1) fun _ _ h2 => h2

theorem readTile_wfMem {via : Via} {rows : List (List Loc)} (h : s.WfMem) : (readTile via rows s).WfMem :=
  Res.wfMem_bind (readRows_wfMem h) fun _ _ h1 => State.mergeSpans_wfMem _ _ _ h1

theorem State.runMma_wfMem {h : Nat} {f : MmaFmt} {op : MatOp} (hs : s.WfMem) : (s.runMma h f op).WfMem :=
  Res.wfMem_bind (readTile_wfMem hs) fun _ _ h1 => Res.wfMem_bind (readTile_wfMem h1) fun _ _ h2 => h2

theorem State.runMzero_wfMem {h : Nat} {op : MatOp} (hs : s.WfMem) : (s.runMzero h op).WfMem := hs

theorem State.runMload_wfMem {h : Nat} {op : MatOp} (hs : s.WfMem) : (s.runMload h op).WfMem := Res.wfMem_bind (readTile_wfMem hs) fun _ _ h1 => h1

theorem State.mstRow_wfMem {h : Nat} {f : MstFmt} {op : MatOp} {ls : List Loc} {m : Nat} (hs : s.WfMem) : (s.mstRow h f op ls m).WfMem := by
  unfold State.mstRow
  refine Res.wfMem_bind (State.engStore_wfMem hs) fun _ _ h1 => ?_
  extract_lets marks s2
  have h2 : s2.WfMem := by
    refine foldl_wfMem _ (fun _ _ hst => ?_) _ _ h1
    split
    · exact .ite hst (hst.of_eq (State.poisonRange_mem ..))
    · exact hst
  exact State.WfMem.ite (h2.of_eq (State.setXV_mem ..)) h2

theorem State.mstRows_wfMem {k : Nat} {f : MstFmt} {op : MatOp} {rows : List (List Loc)} {m : Nat} (h : s.WfMem) :
    (State.mstRows k f op rows m s).2.WfMem := by
  induction rows generalizing m s with
  | nil => exact h
  | cons ls rows ih =>
    unfold State.mstRows
    have h1 := State.mstRow_wfMem (h := k) (f := f) (op := op) (ls := ls) (m := m) h
    split
    · rename_i e
      exact ih (h1.of_ok e)
    · exact h1

theorem MatRun.of_wfMem {m0 : Nat} {a : Res MatEnd} (h : a.WfMem) : (MatRun.of m0 a).WfMem := by
  unfold MatRun.of
  split <;> exact h

theorem State.runMst_wfMem {k : Nat} {f : MstFmt} {op : MatOp} (h : s.WfMem) : (s.runMst k f op).WfMem := by
  have h1 := State.mstRows_wfMem (k := k) (f := f) (op := op) (rows := op.rows) (m := op.m0) h
  unfold State.runMst
  split
  · rename_i e
    rw [e] at h1
    split <;> exact h1
  · rename_i e
    rw [e] at h1
    exact h1
  · rename_i e
    rw [e] at h1
    exact h1

theorem State.runMat_wfMem {h : Nat} {op : MatOp} (hs : s.WfMem) : (s.runMat h op).WfMem := by
  unfold State.runMat
  split
  · exact MatRun.of_wfMem (State.runMma_wfMem hs)
  · exact MatRun.of_wfMem (State.runMzero_wfMem hs)
  · exact MatRun.of_wfMem (State.runMload_wfMem hs)
  · exact State.runMst_wfMem hs

theorem State.matPoison_wfMem {h : Nat} {op : MatOp} {n : Nat} {p : Nat × Nat} (hs : s.WfMem) : (s.matPoison h op n p).WfMem :=
  (State.matReport_wfMem hs).of_eq (State.modSeq_mem ..)

theorem State.doMat_wfMem {h : Nat} {op : MatOp} (hs : s.WfMem) : NextWfMem (s.doMat h op) := by
  unfold State.doMat
  split
  · rename_i e1
    have h1 := (State.runMat_wfMem hs).of_ended e1
    change State.WfMem _
    refine State.WfMem.of_eq ?_ (State.modSeq_mem ..)
    refine State.WfMem.of_eq ?_ (State.dropAsks_mem ..)
    split
    · exact State.matPoison_wfMem h1
    · exact h1
  · rename_i e1
    exact ((State.runMat_wfMem hs).of_faults e1).of_eq (by simp)
  · rename_i e1
    exact State.WfMem.ite ((State.runMat_wfMem hs).of_waits e1) (((State.runMat_wfMem hs).of_waits e1).of_eq (State.modSeq_mem ..))

theorem State.failArray_wfMem {h cell : Nat} {op : MatOp} (hs : s.WfMem) : (s.failArray h cell op).WfMem := by
  unfold State.failArray
  extract_lets +onlyGivenNames s1
  have h1 : s1.WfMem := by
    unfold s1
    split <;> exact hs
  exact (State.matReport_wfMem h1).of_eq (State.modSeq_mem ..)

theorem State.doFollow_wfMem {h : Nat} {f : MmaFmt} {op : MatOp} (hs : s.WfMem) : NextWfMem (s.doFollow h f op) := by
  unfold State.doFollow
  refine .ite (State.failArray_wfMem hs) ?_
  split
  · rename_i e1
    exact (State.matReport_wfMem ((passB_wfMem hs).of_fault e1)).of_eq (State.modSeq_mem ..)
  · rename_i e1
    exact (passB_wfMem hs).of_waits e1
  · rename_i e1
    have h1 := (passB_wfMem hs).of_all e1
    split
    · rename_i e2
      exact (State.matReport_wfMem ((passA_wfMem h1).of_fault e2)).of_eq (State.modSeq_mem ..)
    · rename_i e2
      exact (passA_wfMem h1).of_waits e2
    · rename_i e2
      exact State.doMat_wfMem ((passA_wfMem h1).of_all e2)

theorem execMatrixOpComplete_wfMem {hart : Nat} (h : s.WfMem) : NextWfMem (execMatrixOpComplete hart s) := by
  unfold execMatrixOpComplete
  split
  · exact h
  · refine .ite h (.ite (h.of_eq (by simp)) ?_)
    split
    · exact State.doFollow_wfMem h
    · exact State.doMat_wfMem h

theorem State.matGuard_wfMem {r : Res Unit} (h : s.WfMem) (hr : r.WfMem) : (s.matGuard r).WfMem := by
  unfold State.matGuard
  refine .ite (State.illegal_wfMem h) ?_
  split
  · exact State.takePend_wfMem h
  · exact Res.WfMem.ite h (Res.WfMem.ite h hr)

@[simp] theorem State.setMprog_mem (s : State) (n : Nat) : (s.setMprog n).mem = s.mem := rfl

theorem State.matRetire_wfMem {op : MatOp} {zeroProg : Bool} (h : s.WfMem) : (s.matRetire op zeroProg).WfMem := State.WfMem.ite h h

theorem State.matFault_wfMem {op : MatOp} {row c : Nat} {v : Word} (h : s.WfMem) : (s.matFault op row c v).WfMem := by
  unfold State.matFault
  refine .ite h (.ite h ?_)
  split
  · rename_i e1
    have h1 := (State.runMat_wfMem h).of_ended e1
    change State.WfMem _
    refine State.WfMem.of_eq ?_ (State.setMprog_mem ..)
    refine State.WfMem.of_eq ?_ (State.dropAsks_mem ..)
    split
    · exact State.matPoison_wfMem h1
    · exact h1
  · rename_i e1
    exact ((State.runMat_wfMem h).of_waits e1).of_eq rfl
  · rename_i e1
    exact (State.runMat_wfMem h).of_faults e1

theorem State.matPass_wfMem {op : MatOp} {p : Pass} (h : p.WfMem) : (State.matPass op p).WfMem := by
  unfold State.matPass
  split
  · exact State.matRetire_wfMem h
  · exact State.matFault_wfMem h
  · exact h

theorem State.mma_wfMem {f : MmaFmt} {acc : BitVec 2} {rs1 rs2 : Reg} {fs3 : Option Reg} (h : s.WfMem) : (s.mma f acc rs1 rs2 fs3).WfMem := by
  unfold State.mma
  refine .ite (State.illegal_wfMem h) ?_
  refine State.matGuard_wfMem h ?_
  split
  · rename_i e1
    exact ((passB_wfMem h).of_fault e1).of_eq rfl
  · rename_i e1
    exact (passB_wfMem h).of_waits e1
  · rename_i e1
    exact State.matPass_wfMem (passA_wfMem ((passB_wfMem h).of_all e1))

theorem State.tile_wfMem {kind : MatKind} {store : Bool} {e : Nat} {acc : BitVec 2} {rs1 rs2 : Reg} {w : BitVec 32} (h : s.WfMem) :
    (s.tile kind store e acc rs1 rs2 w).WfMem := Res.WfMem.ite (State.illegal_wfMem h) (State.matGuard_wfMem h (State.matPass_wfMem (passRows_wfMem h)))

theorem State.mst_wfMem {f : MstFmt} {acc : BitVec 2} {rs1 rs2 : Reg} (h : s.WfMem) : (s.mst f acc rs1 rs2).WfMem := State.tile_wfMem h

theorem State.mstScaled_wfMem {f : MstFmt} {acc : BitVec 2} {rs1 rs2 fs3 : Reg} (h : s.WfMem) : (s.mstScaled f acc rs1 rs2 fs3).WfMem :=
  Res.WfMem.ite (State.illegal_wfMem h) (State.tile_wfMem h)

@[simp] theorem State.claim_mem (s : State) : s.claim.mem = s.mem := rfl

theorem execMcfg_wfMem {rd rs1 : Reg} (h : s.WfMem) : NextWfMem (execMcfg rd rs1 s) := by
  unfold execMcfg
  refine finish_nextWfMem ?_
  refine .ite (State.illegal_wfMem h) ?_
  split
  · exact h
  · exact Res.WfMem.ite h (Res.WfMem.ite h h)
  · refine .ite h ?_
    split
    · exact State.takePend_wfMem h
    · exact Res.WfMem.ite h h
  · exact h

theorem execMerr_wfMem {rd : Reg} {sel : BitVec 5} (h : s.WfMem) : NextWfMem (execMerr rd sel s) :=
  finish_nextWfMem (Res.WfMem.ite (State.illegal_wfMem h) (Res.WfMem.ite h (Res.WfMem.ite h h)))

/-! ## Integer instructions -/

theorem doAlu_wfMem {op : AluOp} {rd rs1 rs2 : Reg} (h : s.WfMem) : (doAlu s op rd rs1 rs2).WfMem := h

theorem doAluImm_wfMem {op : AluImmOp} {rd rs1 : Reg} {imm : BitVec 12} (h : s.WfMem) : (doAluImm s op rd rs1 imm).WfMem := h

theorem doLui_wfMem {rd : Reg} {imm : BitVec 20} (h : s.WfMem) : (doLui s rd imm).WfMem := h

theorem execAuipc_wfMem {rd : Reg} {imm : BitVec 20} (h : s.WfMem) : NextWfMem (execAuipc rd imm s) := finish_nextWfMem h

theorem execJal_wfMem {rd : Reg} {off : Word} (h : s.WfMem) : NextWfMem (execJal rd off s) := finishAt_nextWfMem h

theorem execJalr_wfMem {rd rs1 : Reg} {imm : BitVec 12} (h : s.WfMem) : NextWfMem (execJalr rd rs1 imm s) := by
  unfold execJalr
  exact finishAt_nextWfMem h

theorem execHintPf_wfMem {_rs1 : Reg} {_imm : BitVec 12} (h : s.WfMem) : NextWfMem (execHintPf _rs1 _imm s) := finish_nextWfMem h

theorem execHintUnroll_wfMem {_imm : BitVec 12} (h : s.WfMem) : NextWfMem (execHintUnroll _imm s) := finish_nextWfMem h

theorem execHintAff_wfMem {_shamt : BitVec 6} (h : s.WfMem) : NextWfMem (execHintAff _shamt s) := finish_nextWfMem h

theorem execHintPair_wfMem {_shamt : BitVec 6} (h : s.WfMem) : NextWfMem (execHintPair _shamt s) := finish_nextWfMem h

/-! ## Control and status registers, returns from traps -/

@[simp] theorem State.lgrant_mem (s : State) (cluster : Nat) (v : Word) : (s.lgrant cluster v).mem = s.mem := by
  unfold State.lgrant
  simp

@[simp] theorem State.updPriv_mem (s : State) (f : Priv → Priv) : (s.updPriv f).mem = s.mem := rfl

@[simp] theorem State.updCtl_mem (s : State) (f : Ctl → Ctl) : (s.updCtl f).mem = s.mem := rfl

@[simp] theorem State.updVec_mem (s : State) (f : Vec → Vec) : (s.updVec f).mem = s.mem := rfl

@[simp] theorem State.salicaWrite_mem (s : State) (n : Nat) (v : Word) : (s.salicaWrite n v).mem = s.mem := by
  unfold State.salicaWrite
  split
  case h_13 => exact State.lgrant_mem ..
  all_goals rfl

@[simp] theorem State.userWrite_mem (s : State) (n : Nat) (v : Word) : (s.userWrite n v).mem = s.mem := by
  unfold State.userWrite
  split <;> rfl

@[simp] theorem State.privWrite_mem (s : State) (n : Nat) (v : Word) : (s.privWrite n v).mem = s.mem := by
  unfold State.privWrite
  repeat' split
  all_goals rfl

@[simp] theorem State.csrWrite_mem (s : State) (n : Nat) (v : Word) : (s.csrWrite n v).mem = s.mem := by
  unfold State.csrWrite
  simp

theorem execCsrAccess_wfMem {op : CsrOp} {imm : Bool} {rd src : Reg} {csr : BitVec 12} (h : s.WfMem) : NextWfMem (execCsrAccess op imm rd src csr s) := by
  unfold execCsrAccess
  refine finish_nextWfMem ?_
  dsimp only
  split
  · exact State.illegal_wfMem h
  · exact (State.WfMem.ite (h.of_eq (by simp)) h).of_eq rfl

theorem execEcall_wfMem (h : s.WfMem) : NextWfMem (execEcall s) := finish_nextWfMem h

theorem execEbreak_wfMem (h : s.WfMem) : NextWfMem (execEbreak s) := finish_nextWfMem h

@[simp] theorem State.openEdge_mem (s : State) : s.openEdge.mem = s.mem := by
  unfold State.openEdge
  split <;> rfl

theorem execSret_wfMem (h : s.WfMem) : NextWfMem (execSret s) := by
  unfold execSret
  dsimp only
  split
  · exact finish_nextWfMem (State.illegal_wfMem h)
  · exact State.WfMem.of_eq (s := (s.upd Seq.leaveS).retire (s.returnPc s.seq.priv.sepc) true) (State.retire_wfMem _ _ _ h) (by simp)

theorem execMret_wfMem (h : s.WfMem) : NextWfMem (execMret s) := by
  unfold execMret
  split
  · exact finish_nextWfMem (State.illegal_wfMem h)
  · exact State.WfMem.of_eq (s := (s.upd Seq.leaveM).retire (s.returnPc s.seq.priv.mepc) true) (State.retire_wfMem _ _ _ h) (by simp)

theorem execErack_wfMem {rd : Reg} (h : s.WfMem) : NextWfMem (execErack rd s) := finish_nextWfMem h

/-! ## Pending tokens and landing -/

@[simp] theorem State.landAt_mem (s : State) (h : Nat) : (s.landAt h).mem = s.mem := by
  unfold State.landAt
  dsimp only
  split <;> simp

@[simp] theorem State.takeInterrupt_mem (s : State) (code : Nat) : (s.takeInterrupt code).mem = s.mem := rfl

/-! ## Copies and chains -/

theorem State.failAt_wfMem {cause : Nat} {a : Option Word} (h : s.WfMem) : (s.failAt cause a).WfMem := by
  unfold State.failAt
  split <;> exact h

@[simp] theorem State.poisonLocs_mem (s : State) (xs : List Loc) : (s.poisonLocs xs).mem = s.mem := by
  induction xs generalizing s with
  | nil => rfl
  | cons _ _ ih =>
    unfold State.poisonLocs
    split
    · exact (ih ..).trans (by simp)
    · exact (ih ..).trans (by simp)
    · exact (ih ..).trans rfl

theorem State.discardComb_wfMem {h : Nat} {va : Word} {comb : Nat} (hs : s.WfMem) : (s.discardComb h va comb).WfMem := State.logEntry_wfMem _ _ _ hs

theorem State.copyChunk_wfMem {h : Nat} {op : CopyOp} {d a : Word} {n : Nat} (hs : s.WfMem) : (s.copyChunk h op d a n).WfMem := by
  unfold State.copyChunk
  refine Res.wfMem_bind (State.locate_wfMem _ _ _ _ _ hs) fun _ _ h1 => ?_
  refine Res.wfMem_bind (State.failAt_wfMem h1) fun _ _ h2 => ?_
  refine Res.wfMem_bind (State.rawReads_wfMem h2) fun _ _ h3 => ?_
  refine Res.wfMem_bind (State.locate_wfMem _ _ _ _ _ h3) fun _ _ h4 => ?_
  refine Res.wfMem_bind (State.failAt_wfMem h4) fun _ _ h5 => ?_
  split
  · exact Res.wfMem_bind (State.engStore_wfMem h5) fun _ _ h6 => (State.WfMem.ite (h6.of_eq (by simp)) h6).of_eq (State.dropAsks_mem ..)
  · split
    · split
      · rename_i e1
        exact (State.discardComb_wfMem (State.WfMem.of_snd (State.atHome_wfMem _ _ _ _ h5) e1)).of_eq (State.dropAsks_mem ..)
      · rename_i e1
        have h6 := State.WfMem.of_snd (State.atHome_wfMem _ _ _ _ h5) e1
        exact (State.WfMem.ite ((State.rmwDone_wfMem _ _ _ _ h6).of_eq (State.poisonLocs_mem ..)) (State.rmwDone_wfMem _ _ _ _ h6)).of_eq (State.dropAsks_mem ..)
    · exact h5

theorem State.copyRun_wfMem {h : Nat} {op : CopyOp} {n n1 : Nat} (hs : s.WfMem) : (State.copyRun h op n n1 s).WfMem := by
  induction n generalizing n1 s with
  | zero => exact hs
  | succ _ ih =>
    unfold State.copyRun
    split
    · exact hs
    · dsimp only
      split
      · rename_i e1
        exact ih ((State.copyChunk_wfMem hs).of_ok e1)
      · rename_i e1
        exact ((State.copyChunk_wfMem hs).of_trap e1).of_eq (State.dropAsks_mem ..)
      · rename_i e1
        exact (State.copyChunk_wfMem hs).of_stall e1

theorem State.copyAll_wfMem {h : Nat} {op : CopyOp} (hs : s.WfMem) : (s.copyAll h op).WfMem := by
  unfold State.copyAll
  split
  · exact hs
  · split
    · rename_i e2
      have h1 := (State.copyRun_wfMem hs).of_finished e2
      split <;> exact h1
    · exact State.copyRun_wfMem hs

theorem State.issueCopy_wfMem {rd : Reg} {op : CopyOp} (h : s.WfMem) : (s.issueCopy rd op).WfMem := h

theorem State.linearCopy_wfMem {form : Nat} {rd rs1 rs2 rs3 : Reg} (h : s.WfMem) : (s.linearCopy form rd rs1 rs2 rs3).WfMem :=
  Res.WfMem.ite (State.illegal_wfMem h) (Res.WfMem.ite h (State.issueCopy_wfMem h))

theorem State.readCmd_wfMem {va : Word} {n : Nat} (h : s.WfMem) : (s.readCmd va n).WfMem := Res.WfMem.ite h (State.loadAt_wfMem h)

theorem execCp2d_wfMem {rd rs1 rs2 rs3 : Reg} (h : s.WfMem) : NextWfMem (execCp2d rd rs1 rs2 rs3 s) :=
  finish_nextWfMem (.ite (State.illegal_wfMem h) (.ite h (Res.wfMem_bind (State.readCmd_wfMem h) fun _ _ h1 => State.issueCopy_wfMem h1)))

theorem State.issueCpMma_wfMem {rd : Reg} {b : List Byte} {f : MmaFmt} {acc : BitVec 2} (h : s.WfMem) : (s.issueCpMma rd b f acc).WfMem := h

theorem execCpMma_wfMem {rd rs1 : Reg} (h : s.WfMem) : NextWfMem (execCpMma rd rs1 s) := by
  unfold execCpMma
  refine finish_nextWfMem ?_
  refine .ite (State.illegal_wfMem h) (.ite h ?_)
  refine Res.wfMem_bind (State.readCmd_wfMem h) fun _ _ h1 => ?_
  dsimp only
  split
  · exact h1
  · exact State.issueCpMma_wfMem h1

theorem State.followOn_wfMem {h : Nat} {op : CopyOp} {copied : Bool} (hs : s.WfMem) : (s.followOn h op copied).WfMem := by
  unfold State.followOn
  split
  · exact hs
  · exact State.WfMem.ite (State.matReport_wfMem (hs.of_eq (by simp))) (hs.of_eq (by simp))

theorem execCpChain_wfMem {rd rs1 rs2 : Reg} (h : s.WfMem) : NextWfMem (execCpChain rd rs1 rs2 s) :=
  finish_nextWfMem (.ite (State.illegal_wfMem h) (.ite h (.ite h (.ite h (Res.wfMem_bind (State.readCmd_wfMem h) fun _ _ h1 => h1)))))

@[simp] theorem State.setChain_mem (s : State) (h : Nat) (c : Chain) : (s.setChain h c).mem = s.mem := by
  unfold State.setChain
  simp

@[simp] theorem State.endChain_mem (s : State) (h : Nat) (c : Chain) (fail : Option CopyFail) : (s.endChain h c fail).mem = s.mem := by
  unfold State.endChain
  simp

theorem State.chainDone_wfMem {h : Nat} {c : Chain} {k : Nat} (hs : s.WfMem) : (s.chainDone h c k).WfMem := State.engWrite_wfMem hs

theorem State.endEntry_wfMem {h : Nat} {c : Chain} {k : Nat} {op : CopyOp} (hs : s.WfMem) : NextWfMem (s.endEntry h c k op) := by
  unfold State.endEntry
  refine .ite (hs.of_eq (by simp)) ?_
  split
  · rename_i e1
    exact ((State.chainDone_wfMem hs).of_ok e1).of_eq (State.setChain_mem ..)
  · rename_i e1
    exact ((State.chainDone_wfMem hs).of_trap e1).of_eq (State.endChain_mem ..)
  · rename_i e1
    exact ((State.chainDone_wfMem hs).of_stall e1).of_eq (State.setChain_mem ..)

theorem State.runEntry_wfMem {h : Nat} {c : Chain} {k : Nat} {op : CopyOp} (hs : s.WfMem) : NextWfMem (s.runEntry h c k op) := by
  unfold State.runEntry
  split
  · rename_i e1
    exact State.endEntry_wfMem ((State.copyAll_wfMem hs).of_finished e1)
  · rename_i e1
    exact ((State.copyAll_wfMem hs).of_failed e1).of_eq (State.endChain_mem ..)
  · rename_i e1
    exact ((State.copyAll_wfMem hs).of_waits e1).of_eq (State.setChain_mem ..)

theorem execCopyComplete_wfMem {hart n : Nat} (h : s.WfMem) : NextWfMem (execCopyComplete hart n s) := by
  unfold execCopyComplete
  dsimp only
  split
  · split
    · rename_i e2
      exact State.followOn_wfMem (((State.copyAll_wfMem h).of_finished e2).of_eq (State.modSeq_mem ..))
    · rename_i e2
      exact State.followOn_wfMem (((State.copyAll_wfMem h).of_failed e2).of_eq (State.modSeq_mem ..))
    · rename_i e2
      exact ((State.copyAll_wfMem h).of_waits e2).of_eq (State.modSeq_mem ..)
  · split
    · split
      · exact State.runEntry_wfMem h
      · exact h
    · exact h

theorem State.takeEntry_wfMem {h : Nat} {c : Chain} {e : Option (Nat × Bool × CopyOp × Word)} (hs : s.WfMem) : NextWfMem (s.takeEntry h c e) := by
  unfold State.takeEntry
  split
  · exact hs.of_eq (by simp)
  · refine .ite (hs.of_eq (by simp)) (.ite hs ?_)
    refine .ite ?_ (NextWfMem.ite hs (hs.of_eq (by simp)))
    split
    · rename_i e2
      exact ((State.chainDone_wfMem hs).of_ok e2).of_eq (State.endChain_mem ..)
    · rename_i e2
      exact ((State.chainDone_wfMem hs).of_trap e2).of_eq (State.endChain_mem ..)
    · rename_i e2
      exact (State.chainDone_wfMem hs).of_stall e2

theorem execChainEntryStart_wfMem {hart n : Nat} (h : s.WfMem) : NextWfMem (execChainEntryStart hart n s) := by
  unfold execChainEntryStart
  split
  · exact h
  · dsimp only
    split
    · rename_i e2
      exact ((State.readBytes_wfMem _ _ _ _ _ h).of_trap e2).of_eq (by simp)
    · rename_i e2
      exact (State.readBytes_wfMem _ _ _ _ _ h).of_stall e2
    · rename_i e2
      have h1 := (State.readBytes_wfMem _ _ _ _ _ h).of_ok e2
      refine .ite (h1.of_eq (by simp)) ?_
      split
      · rename_i e3
        exact ((State.readBytes_wfMem _ _ _ _ _ h1).of_trap e3).of_eq (by simp)
      · rename_i e3
        exact (State.readBytes_wfMem _ _ _ _ _ h1).of_stall e3
      · rename_i e3
        exact State.takeEntry_wfMem (((State.readBytes_wfMem _ _ _ _ _ h1).of_ok e3).of_eq (State.dropAsks_mem ..))

/-! ## Scalar floating point -/

theorem execFpOp_wfMem {op : FpOp} {fmt : FpFmt} {rd rs1 rs2 rs3 : Reg} {rm : BitVec 3} (h : s.WfMem) : NextWfMem (execFpOp op fmt rd rs1 rs2 rs3 rm s) := by
  unfold execFpOp
  refine finish_nextWfMem ?_
  refine .ite (State.illegal_wfMem h) ?_
  split
  · exact h
  · rename_i fl _
    exact State.WfMem.of_eq (s := if fl = 0 then s else s.fpFlag fl) (State.WfMem.ite h h) rfl
  · exact State.illegal_wfMem h

end Sys2Proof.Machine
end

section
/-! SUPPORT. Memory stays canonical: the vector instructions. -/

namespace Sys2Proof.Machine

variable {s : State}

/-! ## Configuration and the mask stack -/

@[simp] theorem State.putV_mem (s : State) (a : VAcc) : (s.putV a).mem = s.mem := by
  unfold State.putV
  split <;> rfl

theorem State.vguard_wfMem {α : Type} {typed legal : Bool} {r : Res α} (h : s.WfMem) (hr : r.WfMem) : (s.vguard typed legal r).WfMem :=
  Res.WfMem.ite (State.illegal_wfMem h) (Res.WfMem.ite h hr)

theorem State.takeLanes_wfMem (h : s.WfMem) : s.takeLanes.WfMem := Res.WfMem.ite (Res.WfMem.ite h h) (Res.WfMem.ite h h)

theorem State.vset_wfMem {rd : Reg} {t : Word} {avl : Avl} {ord : Nat} (h : s.WfMem) : (s.vset rd t avl ord).WfMem :=
  .ite (State.illegal_wfMem h) (Res.wfMem_bind (State.takeLanes_wfMem h) fun _ _ h1 => h1)

theorem execVsetvlz_wfMem {rd rs1 : Reg} {vtypei : BitVec 8} {off : Word} (h : s.WfMem) : NextWfMem (execVsetvlz rd rs1 vtypei off s) := by
  unfold execVsetvlz
  refine .ite (finish_nextWfMem (State.illegal_wfMem h)) ?_
  exact finishAt_nextWfMem (Res.wfMem_bind (State.vset_wfMem h) fun _ _ h1 => (State.ringRecord_wfMem _ _ h1).of_eq rfl)

theorem execVregcfg_wfMem {rd rs1 : Reg} (h : s.WfMem) : NextWfMem (execVregcfg rd rs1 s) := by
  unfold execVregcfg
  refine finishV_nextWfMem ?_
  extract_lets v c s1
  have h1 : s1.WfMem := h.of_eq (State.updVec_mem ..)
  clear_value s1
  exact .ite (State.illegal_wfMem h) (.ite h h1)

theorem State.storeRun_wfMem {via : Via} {va : Word} {bs : List Byte} (h : s.WfMem) : (s.storeRun via va bs).WfMem :=
  Res.wfMem_bind (State.locateAll_wfMem _ _ _ _ h) fun _ _ h1 => State.storeLocs_wfMem _ _ _ _ h1

theorem State.loadRun_wfMem {via : Via} {n : Nat} {a : Word} {n1 : Nat} (h : s.WfMem) : (s.loadRun via n a n1).WfMem := by
  induction n generalizing s a n1 with
  | zero => exact h
  | succ _ ih =>
    unfold State.loadRun
    exact .ite h (Res.wfMem_bind (State.loadAt_wfMem h) fun _ _ h1 => Res.wfMem_bind (ih h1) fun _ _ h2 => h2)

theorem Res.spillFault_wfMem {α : Type} {r : Res α} (h : r.WfMem) : r.spillFault.WfMem := by
  unfold Res.spillFault
  split <;> exact h

theorem State.spill_wfMem (h : s.WfMem) : s.spill.WfMem := by
  unfold State.spill
  split
  · exact h
  · exact Res.wfMem_bind (Res.spillFault_wfMem (State.storeRun_wfMem h)) fun _ _ h1 => h1

theorem State.fillMask_wfMem (h : s.WfMem) : s.fillMask.WfMem := by
  unfold State.fillMask
  refine Res.wfMem_bind (Res.spillFault_wfMem (State.loadRun_wfMem h)) fun _ _ h1 => ?_
  refine Res.wfMem_bind (Res.spillFault_wfMem (State.loadRun_wfMem h1)) fun _ _ h2 => ?_
  exact Res.wfMem_bind (Res.spillFault_wfMem (State.loadRun_wfMem h2)) fun _ _ h3 => h3

theorem doVmpush_wfMem {vs1 : Reg} (h : s.WfMem) : (doVmpush s vs1).WfMem :=
  State.vguard_wfMem h (.ite (State.illegal_wfMem h) (Res.wfMem_bind (Res.WfMem.ite (State.spill_wfMem h) h) fun _ _ h1 => h1))

theorem State.topMask_wfMem {i : VInfo} (h : s.WfMem) : (s.topMask i).WfMem := by
  unfold State.topMask
  refine .ite (State.illegal_wfMem h) ?_
  split
  · exact h
  · refine Res.wfMem_bind (State.fillMask_wfMem h) fun _ _ h1 => ?_
    split
    · exact h1
    · exact State.illegal_wfMem h1

theorem doVmelse_wfMem (h : s.WfMem) : (doVmelse s).WfMem :=
  State.vguard_wfMem h (Res.wfMem_bind (State.topMask_wfMem h) fun _ _ h1 => h1)

theorem doVmpop_wfMem (h : s.WfMem) : (doVmpop s).WfMem :=
  State.vguard_wfMem h (Res.wfMem_bind (State.topMask_wfMem h) fun _ _ h1 => h1)

theorem doVmdepth_wfMem {rd : Reg} (h : s.WfMem) : (doVmdepth s rd).WfMem := State.vguard_wfMem h h

theorem doVidxc_wfMem {vm : Bool} {rd vd vs2 : Reg} (h : s.WfMem) : (doVidxc s vm rd vd vs2).WfMem := State.vguard_wfMem h h

theorem doVwmulx_wfMem {w : Nat} {vm : Bool} {vd vs2 vs1 : Reg} {ord : Nat} (h : s.WfMem) : (doVwmulx s w vm vd vs2 vs1 ord).WfMem :=
  State.vguard_wfMem h (h.of_eq (by simp))

/-! ## OP-V arithmetic -/

theorem State.runPlan_wfMem {p : EPlan} {vm : Bool} {vd vs2 vs1 sc : Nat} (h : s.WfMem) : (s.runPlan p vm vd vs2 vs1 sc).WfMem :=
  State.vguard_wfMem h (h.of_eq (by simp))

theorem State.reduce_wfMem {vm : Bool} {vd vs2 vs1 a d ord : Nat} {g : Nat → List Nat → Nat × BitVec 5} (h : s.WfMem) : (s.reduce vm vd vs2 vs1 a d ord g).WfMem :=
  State.vguard_wfMem h (Res.WfMem.ite h (h.of_eq (by simp)))

theorem State.fpReduce_wfMem {f6 : Nat} {rm : Rm} {vm : Bool} {vd vs2 vs1 : Nat} (h : s.WfMem) : (s.fpReduce f6 rm vm vd vs2 vs1).WfMem := by
  unfold State.fpReduce
  refine .ite (State.illegal_wfMem h) ?_
  split <;> exact State.reduce_wfMem h

theorem State.permute_wfMem {apart vm : Bool} {vd : Nat} {srcs : List Grp} {ord : Nat} {g : Nat → Option Nat} (h : s.WfMem) :
    (s.permute apart vm vd srcs ord g).WfMem := State.vguard_wfMem h (h.of_eq (by simp))

theorem State.slideUp_wfMem {vm : Bool} {vd vs2 off ord : Nat} (h : s.WfMem) : (s.slideUp vm vd vs2 off ord).WfMem := State.permute_wfMem h

theorem State.slideDown_wfMem {vm : Bool} {vd vs2 off ord : Nat} (h : s.WfMem) : (s.slideDown vm vd vs2 off ord).WfMem := State.permute_wfMem h

theorem State.slide1Up_wfMem {vm : Bool} {vd vs2 x ord : Nat} (h : s.WfMem) : (s.slide1Up vm vd vs2 x ord).WfMem := State.permute_wfMem h

theorem State.slide1Down_wfMem {vm : Bool} {vd vs2 x ord : Nat} (h : s.WfMem) : (s.slide1Down vm vd vs2 x ord).WfMem := State.permute_wfMem h

theorem State.compress_wfMem {vd vs2 vs1 ord : Nat} (h : s.WfMem) : (s.compress vd vs2 vs1 ord).WfMem := State.vguard_wfMem h h

theorem State.moveRegs_wfMem {vd vs2 nr : Nat} (h : s.WfMem) : (s.moveRegs vd vs2 nr).WfMem := State.vguard_wfMem h h

theorem State.splat_wfMem {vd : Nat} {src : Option Nat} {x ord : Nat} (h : s.WfMem) : (s.splat vd src x ord).WfMem := State.vguard_wfMem h (h.of_eq (by simp))

theorem State.moveIn_wfMem {vd x ord : Nat} (h : s.WfMem) : (s.moveIn vd x ord).WfMem := State.vguard_wfMem h (State.WfMem.ite h h)

theorem State.maskOp_wfMem {f6 vd vs2 vs1 : Nat} (h : s.WfMem) : (s.maskOp f6 vd vs2 vs1).WfMem := State.vguard_wfMem h (h.of_eq (by simp))

theorem State.maskSet_wfMem {sel : Nat} {vm : Bool} {vd vs2 : Nat} (h : s.WfMem) : (s.maskSet sel vm vd vs2).WfMem := State.vguard_wfMem h (h.of_eq (by simp))

theorem State.iota_wfMem {id vm : Bool} {vd vs2 : Nat} (h : s.WfMem) : (s.iota id vm vd vs2).WfMem := State.vguard_wfMem h (h.of_eq (by simp))

theorem State.moveOut_wfMem {sel : Nat} {vm : Bool} {rd : Reg} {vs2 : Nat} (h : s.WfMem) : (s.moveOut sel vm rd vs2).WfMem := State.vguard_wfMem h h

theorem State.moveOutF_wfMem {rd : Reg} {vs2 : Nat} (h : s.WfMem) : (s.moveOutF rd vs2).WfMem := State.vguard_wfMem h h

theorem doOpi_wfMem {f6 : Nat} {vm : Bool} {vs2 vs1 : Reg} {f3 : Nat} {vd : Reg} (h : s.WfMem) : (doOpi s f6 vm vs2 vs1 f3 vd).WfMem := by
  unfold doOpi
  dsimp only
  split
  · exact Res.WfMem.ite (State.permute_wfMem h) (State.permute_wfMem h)
  · exact Res.WfMem.ite (State.permute_wfMem h) (State.slideUp_wfMem h)
  · exact Res.WfMem.ite (State.illegal_wfMem h) (State.slideDown_wfMem h)
  · split
    · refine .ite (State.illegal_wfMem h) ?_
      split <;> exact State.splat_wfMem h
    · split
      · exact State.runPlan_wfMem h
      · exact State.illegal_wfMem h
  · exact Res.WfMem.ite (State.reduce_wfMem h) (State.illegal_wfMem h)
  · exact Res.WfMem.ite (State.reduce_wfMem h) (State.illegal_wfMem h)
  · refine .ite (Res.WfMem.ite (State.moveRegs_wfMem h) (State.illegal_wfMem h)) ?_
    split
    · exact State.runPlan_wfMem h
    · exact State.illegal_wfMem h

theorem doOpm_wfMem {f6 : Nat} {vm : Bool} {vs2 vs1 : Reg} {f3 : Nat} {vd : Reg} (h : s.WfMem) : (doOpm s f6 vm vs2 vs1 f3 vd).WfMem := by
  unfold doOpm
  refine .ite (State.reduce_wfMem h) (.ite (Res.WfMem.ite (State.maskOp_wfMem h) (State.illegal_wfMem h)) ?_)
  split
  · exact Res.WfMem.ite (State.slide1Up_wfMem h) (State.illegal_wfMem h)
  · exact Res.WfMem.ite (State.slide1Down_wfMem h) (State.illegal_wfMem h)
  · split
    · exact Res.WfMem.ite (State.moveOut_wfMem h) (State.illegal_wfMem h)
    · exact Res.WfMem.ite (State.moveIn_wfMem h) (State.illegal_wfMem h)
  · refine .ite (State.illegal_wfMem h) ?_
    split
    · exact State.maskSet_wfMem h
    · exact Res.WfMem.ite (State.iota_wfMem h) (Res.WfMem.ite (State.iota_wfMem h) (State.illegal_wfMem h))
  · exact Res.WfMem.ite (State.compress_wfMem h) (State.illegal_wfMem h)
  · split
    · exact State.runPlan_wfMem h
    · exact State.illegal_wfMem h

theorem doOpf_wfMem {f6 : Nat} {vm : Bool} {vs2 vs1 : Reg} {f3 : Nat} {vd : Reg} (h : s.WfMem) : (doOpf s f6 vm vs2 vs1 f3 vd).WfMem := by
  unfold doOpf
  split
  · exact State.illegal_wfMem h
  · refine .ite (State.illegal_wfMem h) (.ite (State.fpReduce_wfMem h) ?_)
    split
    · exact Res.WfMem.ite (State.slide1Up_wfMem h) (State.illegal_wfMem h)
    · exact Res.WfMem.ite (State.slide1Down_wfMem h) (State.illegal_wfMem h)
    · split
      · exact Res.WfMem.ite (State.moveOutF_wfMem h) (State.illegal_wfMem h)
      · exact Res.WfMem.ite (State.moveIn_wfMem h) (State.illegal_wfMem h)
    · refine .ite (Res.WfMem.ite (State.splat_wfMem h) (State.illegal_wfMem h)) ?_
      split
      · exact State.runPlan_wfMem h
      · exact State.illegal_wfMem h
    · split
      · exact State.runPlan_wfMem h
      · exact State.illegal_wfMem h

theorem doVArith_wfMem {funct6 : BitVec 6} {vm : Bool} {vs2 vs1 : Reg} {funct3 : BitVec 3} {vd : Reg} (h : s.WfMem) :
    (doVArith s funct6 vm vs2 vs1 funct3 vd).WfMem := by
  unfold doVArith
  split
  any_goals exact doOpi_wfMem h
  · exact doOpm_wfMem h
  · exact doOpm_wfMem h
  · exact doOpf_wfMem h
  · exact doOpf_wfMem h
  · exact State.illegal_wfMem h

/-! ## Vector loads and stores -/

theorem runElems_wfMem {act : Nat → Bool} {f : Nat → State → Res Unit} {n : Nat} (h : s.WfMem)
    (hf : ∀ i s1, s1.WfMem → (f i s1).WfMem) :
    (runElems act f n s).WfMem := by
  induction n generalizing act f s with
  | zero => exact h
  | succ _ ih =>
    unfold runElems
    split
    · rename_i e1
      have h1 := (ih h hf).of_ok e1
      refine .ite ?_ h1
      split
      · rename_i e2
        exact (hf _ _ h1).of_ok e2
      · exact Res.WfMem.ite h h1
      · rename_i e2
        exact (hf _ _ h1).of_stall e2
    · exact ih h hf

theorem runAll_wfMem {f : Nat → State → Res Unit} {n : Nat} (h : s.WfMem) (hf : ∀ i s1, s1.WfMem → (f i s1).WfMem) : (runAll f n s).WfMem := by
  induction n generalizing f s with
  | zero => exact h
  | succ _ ih =>
    unfold runAll
    exact Res.wfMem_bind (ih h hf) fun _ _ h1 => hf _ _ h1

theorem State.loadFields_wfMem {via : Via} {inv : Bool} {va : Word} {b n : Nat} (h : s.WfMem) : (s.loadFields via inv va b n).WfMem := by
  induction n generalizing s inv va b with
  | zero => exact h
  | succ _ ih =>
    unfold State.loadFields
    exact Res.wfMem_bind (ih h) fun _ _ h1 => Res.wfMem_bind (State.loadAt_wfMem h1) fun _ _ h2 => h2

theorem Res.keepVec_wfMem {α : Type} {v : Vec} {r : Res α} (h : r.WfMem) : (Res.keepVec v r).WfMem := by
  unfold Res.keepVec
  split <;> exact h

theorem State.loadSegs_wfMem {inv vm : Bool} {addr : Nat → Word} {w nf vd step cls ord : Nat} (h : s.WfMem) :
    (s.loadSegs inv vm addr w nf vd step cls ord).WfMem := by
  unfold State.loadSegs
  refine Res.wfMem_bind ?_ fun _ _ h1 => ?_
  · exact Res.keepVec_wfMem (runElems_wfMem h fun _ _ h1 => Res.wfMem_bind (State.loadFields_wfMem h1) fun _ _ ht1 => ht1)
  · change State.WfMem _
    split
    · exact (State.WfMem.ite h1 (State.mergeSpans_wfMem _ _ _ h1)).of_eq rfl
    · exact State.WfMem.ite h1 (State.mergeSpans_wfMem _ _ _ h1)

theorem State.prepStore_wfMem {via : Via} {va : Word} {n : Nat} (h : s.WfMem) : (s.prepStore via va n).WfMem := by
  unfold State.prepStore
  refine Res.wfMem_bind (State.locate_wfMem _ _ _ _ _ h) fun _ _ h1 => ?_
  split
  · split
    · exact Res.WfMem.ite h1 h1
    · exact State.storeReady_wfMem _ _ _ h1
  · exact State.storeReady_wfMem _ _ _ h1

theorem State.prepFields_wfMem {via : Via} {va : Word} {xs : List Nat} (h : s.WfMem) : (s.prepFields via va xs).WfMem := by
  induction xs generalizing s va with
  | nil => exact h
  | cons _ _ ih =>
    unfold State.prepFields
    exact Res.wfMem_bind (State.prepStore_wfMem h) fun _ _ h1 => ih h1

theorem State.storeNow_wfMem {via : Via} {va : Word} {bytes : List Byte} (h : s.WfMem) : (s.storeNow via va bytes).WfMem := by
  unfold State.storeNow
  refine Res.wfMem_bind (State.locate_wfMem _ _ _ _ _ h) fun _ _ h1 => ?_
  split
  · split
    · exact State.storeReg_wfMem h1
    · exact State.writeLocs_wfMem _ _ _ _ h1
  · exact State.writeLocs_wfMem _ _ _ _ h1

theorem State.storeFields_wfMem {via : Via} {va : Word} {xs : List (List Byte)} (h : s.WfMem) : (s.storeFields via va xs).WfMem := by
  induction xs generalizing s va with
  | nil => exact h
  | cons _ _ ih =>
    unfold State.storeFields
    exact Res.wfMem_bind (State.storeNow_wfMem h) fun _ _ h1 => ih h1

@[simp] theorem State.cleanSectors_mem (s : State) (via : Via) (ls : List Loc) : (s.cleanSectors via ls).mem = s.mem := by
  unfold State.cleanSectors
  split <;> rfl

theorem State.storeSegs_wfMem {vm : Bool} {addr : Nat → Word} {data : Nat → List (List Byte)} {bytes cls ord : Nat} (h : s.WfMem) :
    (s.storeSegs vm addr data bytes cls ord).WfMem := by
  unfold State.storeSegs
  refine Res.wfMem_bind ?_ fun _ _ h1 => ?_
  · exact runElems_wfMem h fun _ _ h1 => State.prepFields_wfMem h1
  · refine Res.wfMem_bind ?_ fun _ _ h2 => ?_
    · exact runElems_wfMem h1 fun _ _ h2 => State.storeFields_wfMem h2
    · exact State.WfMem.ite (h2.of_eq (by simp)) (h2.of_eq (by simp))

theorem State.loadPlain_wfMem {inv vm : Bool} {addr : Nat → Word} {w nf vd cls ord : Nat} (h : s.WfMem) : (s.loadPlain inv vm addr w nf vd cls ord).WfMem :=
  State.vguard_wfMem h (State.loadSegs_wfMem h)

theorem State.loadWhole_wfMem {typed legal : Bool} {base : Word} {w n vd ord : Nat} (h : s.WfMem) : (s.loadWhole typed legal base w n vd ord).WfMem := by
  unfold State.loadWhole
  extract_lets via addr
  refine State.vguard_wfMem h ?_
  have h1 := fun f hf => Res.keepVec_wfMem (v := s.seq.vec) (runAll_wfMem (f := f) (n := n) h hf)
  split
  · rename_i e
    refine State.mergeSpans_wfMem _ _ _ ((h1 _ fun _ _ hs => ?_).of_ok e)
    exact Res.wfMem_bind (State.loadAt_wfMem hs) fun _ _ hs1 => hs1
  · exact h
  · rename_i e
    refine (h1 _ fun _ _ hs => ?_).of_stall e
    exact Res.wfMem_bind (State.loadAt_wfMem hs) fun _ _ hs1 => hs1

theorem State.storeWhole_wfMem {typed legal : Bool} {base : Word} {n vs3 ord : Nat} (h : s.WfMem) : (s.storeWhole typed legal base n vs3 ord).WfMem := by
  unfold State.storeWhole
  refine State.vguard_wfMem h ?_
  refine Res.wfMem_bind ?_ fun _ _ h1 => ?_
  · exact runAll_wfMem h fun _ _ h1 => State.prepStore_wfMem h1
  · refine Res.wfMem_bind ?_ fun _ _ h2 => ?_
    · exact runAll_wfMem h1 fun _ _ h2 => State.storeNow_wfMem h2
    · exact h2.of_eq (by simp)

theorem doVLoad_wfMem {nf : BitVec 3} {mop : BitVec 2} {vm : Bool} {rs2 rs1 : Reg} {width : BitVec 2} {vd : Reg} (h : s.WfMem) :
    (doVLoad s nf mop vm rs2 rs1 width vd).WfMem := by
  unfold doVLoad
  split
  · split
    · exact State.loadPlain_wfMem h
    · exact State.loadPlain_wfMem h
    · exact State.loadWhole_wfMem h
    · exact State.loadWhole_wfMem h
    · exact State.illegal_wfMem h
  · exact State.loadPlain_wfMem h
  · exact State.vguard_wfMem h (State.loadSegs_wfMem h)

theorem doVStore_wfMem {nf : BitVec 3} {mop : BitVec 2} {vm : Bool} {rs2 rs1 : Reg} {width : BitVec 2} {vs3 : Reg} (h : s.WfMem) :
    (doVStore s nf mop vm rs2 rs1 width vs3).WfMem := by
  unfold doVStore
  split
  · split
    · exact State.vguard_wfMem h (State.storeSegs_wfMem h)
    · exact State.storeWhole_wfMem h
    · exact State.storeWhole_wfMem h
    · exact State.illegal_wfMem h
  · exact State.vguard_wfMem h (State.storeSegs_wfMem h)
  · exact State.vguard_wfMem h (State.storeSegs_wfMem h)

theorem doVleInv_wfMem {vm : Bool} {vd rs1 : Reg} {w ord : Nat} (h : s.WfMem) : (doVleInv s vm vd rs1 w ord).WfMem := State.loadPlain_wfMem h

theorem doVsmx_wfMem {vm : Bool} {vs3 rs1 vs2 : Reg} (h : s.WfMem) : (doVsmx s vm vs3 rs1 vs2).WfMem := State.vguard_wfMem h (State.storeSegs_wfMem h)

end Sys2Proof.Machine
end

section
/-! SUPPORT. Memory stays canonical: streams, messages and sampling. -/

namespace Sys2Proof.Machine

variable {s : State}

/-! ## Streams -/

@[simp] theorem State.startStream_mem (s : State) (rd : Reg) (i : Nat) (b : List Byte) : (s.startStream rd i b).mem = s.mem := by
  unfold State.startStream
  dsimp only
  split <;> rfl

theorem execScfg_wfMem {rd rs1 : Reg} {sid : BitVec 5} (h : s.WfMem) : NextWfMem (execScfg rd rs1 sid s) :=
  finish_nextWfMem (.ite (State.illegal_wfMem h) (Res.wfMem_bind (State.readCmd_wfMem h) fun _ _ h1 => h1.of_eq (by simp)))

theorem execSwait_wfMem {rd : Reg} {sid : BitVec 5} (h : s.WfMem) : NextWfMem (execSwait rd sid s) :=
  finish_nextWfMem (Res.WfMem.ite (State.illegal_wfMem h) (Res.WfMem.ite h h))

theorem execSresume_wfMem {sid : BitVec 5} (h : s.WfMem) : NextWfMem (execSresume sid s) :=
  finish_nextWfMem (Res.WfMem.ite (State.illegal_wfMem h) (Res.WfMem.ite h h))

theorem execStreamFetch_wfMem {hart sid : Nat} (h : s.WfMem) : NextWfMem (execStreamFetch hart sid s) := by
  unfold execStreamFetch
  dsimp only
  refine .ite h ?_
  split
  · rename_i e1
    exact ((State.loadAt_wfMem h).of_ok e1).of_eq (by simp)
  · rename_i e1
    exact ((State.loadAt_wfMem h).of_trap e1).of_eq (by simp)
  · rename_i e1
    exact (State.loadAt_wfMem h).of_stall e1

@[simp] theorem State.popInto_mem (s : State) (vd sid n : Nat) (short : Bool) : (s.popInto vd sid n short).mem = s.mem := by
  unfold State.popInto
  split <;> rfl

theorem doSpop_wfMem {vd : Reg} {sid : BitVec 5} (h : s.WfMem) : (doSpop s vd sid).WfMem :=
  State.vguard_wfMem h (Res.WfMem.ite h (Res.WfMem.ite (Res.WfMem.ite h (h.of_eq (by simp))) h))

/-! ## Messages and channels -/

@[simp] theorem State.inject_mem (s : State) (m : Msg) : (s.inject m).mem = s.mem := rfl

theorem State.readWords_wfMem {via : Via} {va : Word} {n n1 : Nat} (h : s.WfMem) : (s.readWords via va n n1).WfMem := by
  induction n generalizing s va n1 with
  | zero => exact h
  | succ _ ih =>
    unfold State.readWords
    exact .ite h (Res.wfMem_bind (State.loadAt_wfMem h) fun _ _ h1 => Res.wfMem_bind (ih h1) fun _ _ h2 => h2)

theorem State.readPayload_wfMem {p : Word} {n : Nat} (h : s.WfMem) : (s.readPayload p n).WfMem := Res.WfMem.ite h (Res.WfMem.ite h (State.readWords_wfMem h))

theorem execMsend_wfMem {rd rs1 rs2 : Reg} (h : s.WfMem) : NextWfMem (execMsend rd rs1 rs2 s) := by
  unfold execMsend
  refine finish_nextWfMem ?_
  refine .ite h ?_
  refine .ite h ?_
  refine .ite h ?_
  refine .ite h ?_
  refine .ite h ?_
  refine Res.wfMem_bind (State.readPayload_wfMem h) fun _ _ h0 => ?_
  refine Res.wfMem_bind (State.releaseNear_wfMem h0) fun _ _ h1 => ?_
  change State.WfMem _
  refine State.WfMem.of_eq ?_ (State.setX_mem ..)
  refine State.WfMem.of_eq ?_ (State.inject_mem ..)
  exact State.WfMem.ite h1 h1

theorem execMreply_wfMem {rd rs1 rs2 : Reg} (h : s.WfMem) : NextWfMem (execMreply rd rs1 rs2 s) := by
  unfold execMreply
  refine finish_nextWfMem ?_
  refine .ite h ?_
  exact .ite h (.ite h (.ite h (Res.wfMem_bind (State.readPayload_wfMem h) fun _ _ h0 => Res.wfMem_bind (State.releaseNear_wfMem h0) fun _ _ h1 => h1)))

theorem State.sendElem_wfMem {c : Word} {vs3 vs2 i : Nat} (h : s.WfMem) : (s.sendElem c vs3 vs2 i).WfMem :=
  .ite h (.ite h (.ite h (.ite h (Res.wfMem_bind (State.readPayload_wfMem h) fun _ _ h1 => h1))))

theorem doMsendv_wfMem {vm : Bool} {vs3 vs2 rs1 : Reg} (h : s.WfMem) : (doMsendv s vm vs3 vs2 rs1).WfMem := by
  unfold doMsendv
  refine State.vguard_wfMem h ?_
  refine Res.wfMem_bind (State.releaseNear_wfMem h) fun _ _ h0 => ?_
  refine Res.wfMem_bind ?_ fun _ _ h1 => ?_
  · exact runElems_wfMem h0 fun _ _ h1 => State.sendElem_wfMem h1
  · exact State.WfMem.ite h1 h1

theorem State.agentAt_wfMem {b : Word} (h : s.WfMem) : (s.agentAt b).WfMem := by
  unfold State.agentAt
  refine .ite h ?_
  split
  · rename_i e1
    have h1 := (State.locate_wfMem _ _ _ _ _ h).of_ok e1
    split
    · exact Res.WfMem.ite h1 h
    · exact h1
    · exact h
  · rename_i e1
    exact (State.locate_wfMem _ _ _ _ _ h).of_stall e1
  · rename_i e1
    exact (State.locate_wfMem _ _ _ _ _ h).of_trap e1
  · exact h

theorem State.pushSlot_wfMem {rd : Reg} {a k : Nat} {buf : List Byte} (h : s.WfMem) : (s.pushSlot rd a k buf).WfMem := by
  unfold State.pushSlot
  split
  · rename_i e
    have h1 := (State.writeBytes_wfMem _ _ _ _ h).of_ok e
    change State.WfMem (State.setX _ _ _)
    refine State.WfMem.of_eq ?_ (State.setX_mem ..)
    split
    · rename_i e2
      exact (State.agentNotify_wfMem h1).of_done e2
    · exact h1
  · rename_i e
    exact (State.writeBytes_wfMem _ _ _ _ h).of_trap e
  · rename_i e
    exact ((State.writeBytes_wfMem _ _ _ _ h).of_stall e).of_eq rfl

theorem State.reserveSlot_wfMem {b : Word} {a : Nat} (h : s.WfMem) : (s.reserveSlot b a).WfMem := by
  unfold State.reserveSlot
  split
  · exact h
  · exact Res.WfMem.ite h h

theorem execAqpush_wfMem {rd rs1 rs2 : Reg} (h : s.WfMem) : NextWfMem (execAqpush rd rs1 rs2 s) := by
  unfold execAqpush
  refine finish_nextWfMem ?_
  refine Res.wfMem_bind (State.agentAt_wfMem h) fun _ _ h1 => ?_
  refine .ite h1 ?_
  refine Res.wfMem_bind (State.readWords_wfMem h1) fun _ _ h0 => ?_
  exact Res.wfMem_bind (State.releaseNear_wfMem h0) fun _ _ h2 => Res.wfMem_bind (State.reserveSlot_wfMem h2) fun _ _ h3 => State.pushSlot_wfMem h3

@[simp] theorem State.modChan_mem (s : State) (c : Nat) (f : ChanBuf → ChanBuf) : (s.modChan c f).mem = s.mem := rfl

@[simp] theorem State.freeHandlerSlot_mem (s : State) : s.freeHandlerSlot.mem = s.mem := by
  unfold State.freeHandlerSlot
  split <;> rfl

theorem execHret_wfMem (h : s.WfMem) : NextWfMem (execHret s) := by
  unfold execHret
  refine .ite (finish_nextWfMem (State.illegal_wfMem h)) (.ite h ?_)
  split
  · exact NextWfMem.ite h ((State.retire_wfMem _ _ _ (h.of_eq (by simp))).of_eq (State.safePoint_mem ..))
  · exact (State.retire_wfMem _ _ _ (h.of_eq (by simp))).of_eq (State.safePoint_mem ..)

@[simp] theorem State.dropMsg_mem (s : State) (idx : Nat) : (s.dropMsg idx).mem = s.mem := rfl

theorem State.logBounce_wfMem {m : Msg} {cls idx : Nat} (h : s.WfMem) : (s.logBounce m cls idx).WfMem := State.logEntry_wfMem _ _ _ h

theorem State.bounce_wfMem {m : Msg} (h : s.WfMem) : (s.bounce m).WfMem := by
  unfold State.bounce
  extract_lets s0 d a s1 c s2 s3
  have h0 : s0.WfMem := .ite (State.logBounce_wfMem h) h
  have h1 : s1.WfMem := State.rootPut_wfMem _ _ _ h0
  have h2 : s2.WfMem := h1.of_eq (by simp [s2])
  have h3 : s3.WfMem := .ite (h2.of_eq (State.safePoint_mem ..)) h2
  exact h3.of_eq (State.modSeq_mem ..)

@[simp] theorem State.waitsInNet_mem (s : State) (idx : Nat) (m : Msg) : (s.waitsInNet idx m).mem = s.mem := rfl

@[simp] theorem State.requestLost_mem (s : State) (m : Msg) : (s.requestLost m).mem = s.mem := by
  unfold State.requestLost
  split <;> rfl

theorem State.pathDead_wfMem {m : Msg} (h : s.WfMem) : (s.pathDead m).WfMem := (State.logEntry_wfMem _ _ _ h).of_eq (State.requestLost_mem ..)

theorem execPathTimeout_wfMem {idx : Nat} (h : s.WfMem) : NextWfMem (execPathTimeout idx s) := by
  unfold execPathTimeout
  change State.WfMem _
  split
  · exact h
  · exact State.WfMem.ite h (State.pathDead_wfMem h)

theorem State.reinject_wfMem {idx : Nat} {m : Msg} (h : s.WfMem) : (s.reinject idx m).WfMem := by
  unfold State.reinject
  extract_lets d s1 _ m1 again s2
  have h1 : s1.WfMem := h.of_eq (State.draw_mem s)
  have ha (k : Nat) : (again k).WfMem := h1.of_eq rfl
  split
  · exact ha _
  · refine .ite (ha _) ?_
    have h2 : s2.WfMem := .ite h1 (State.logBounce_wfMem h1)
    exact .ite (h2.of_eq (State.requestLost_mem ..)) h2

theorem execMessageArrival_wfMem {idx : Nat} (h : s.WfMem) : NextWfMem (execMessageArrival idx s) := by
  unfold execMessageArrival
  change State.WfMem _
  split
  · exact h
  · refine .ite (State.reinject_wfMem h) (.ite h (.ite h ?_))
    split
    · exact h
    · exact State.pathDead_wfMem h
    · split
      · exact h
      · refine .ite h ?_
        split
        · exact State.bounce_wfMem h
        · exact State.WfMem.ite h h

theorem State.trapHart_wfMem {h cause : Nat} {epc tval : Word} (hs : s.WfMem) : (s.trapHart h cause epc tval).WfMem := by
  unfold State.trapHart
  extract_lets +onlyGivenNames s1
  have h1 : s1.WfMem := State.WfMem.ite (State.reportTrap_wfMem _ _ _ _ _ hs) hs
  exact h1.of_eq (by simp)

@[simp] theorem State.takeFirst_mem (s : State) (h : Nat) : (s.takeFirst h).mem = s.mem := rfl

theorem State.nicPut_wfMem {pa : Nat} {bytes : List Byte} (h : s.WfMem) : (s.nicPut pa bytes).WfMem := State.putBytes_wfMem _ _ _ _ h

theorem State.enterHandler_wfMem {k : Nat} {t : Task} {entry a0 a1 a2 a3 : Word} {hs : Handler} (h : s.WfMem) :
    (s.enterHandler k t entry a0 a1 a2 a3 hs).WfMem := by
  unfold State.enterHandler
  extract_lets s1 p
  have h1 : s1.WfMem := h.of_eq (State.modSeq_mem ..)
  refine .ite (State.trapHart_wfMem (h1.of_eq (State.modSeq_mem ..))) ?_
  have hp : p.1.WfMem := h1.of_eq (by simp [p])
  exact hp.of_eq (State.modSeq_mem ..)

theorem State.withEntry_wfMem {h i : Nat} {f : Word → State → State} (hs : s.WfMem) (hf : ∀ w s1, s1.WfMem → (f w s1).WfMem) :
    NextWfMem (s.withEntry h i f) := by
  unfold State.withEntry
  dsimp only
  split
  · rename_i e1
    exact hf _ _ ((State.loadAt_wfMem (hs.of_eq (by simp))).of_ok e1)
  · rename_i e1
    exact (State.trapHart_wfMem ((State.loadAt_wfMem (hs.of_eq (by simp))).of_trap e1)).of_eq (State.modSeq_mem ..)
  · rename_i e1
    exact (State.loadAt_wfMem (hs.of_eq (by simp))).of_stall e1

theorem State.startMsg_wfMem {k : Nat} {t : Task} {m : Msg} {entry : Word} (h : s.WfMem) : (s.startMsg k t m entry).WfMem := by
  unfold State.startMsg
  extract_lets base st s1 s2
  have h1 : s1.WfMem := State.nicPut_wfMem (h.of_eq (by simp))
  have h2 : s2.WfMem := .ite (h1.of_eq (by simp)) h1
  exact State.enterHandler_wfMem h2

theorem execHandlerStart_wfMem {hart : Nat} (h : s.WfMem) : NextWfMem (execHandlerStart hart s) := by
  unfold execHandlerStart
  dsimp only
  split
  · exact .ite (State.withEntry_wfMem h fun _ _ h1 => State.startMsg_wfMem h1) h
  · exact h

theorem execChsend_wfMem {rd rs1 rs2 : Reg} (h : s.WfMem) : NextWfMem (execChsend rd rs1 rs2 s) := by
  unfold execChsend
  refine finish_nextWfMem ?_
  refine .ite h ?_
  split
  · exact h
  · exact .ite h (.ite h (Res.wfMem_bind (State.readPayload_wfMem h) fun _ _ h0 => Res.wfMem_bind (State.releaseNear_wfMem h0) fun _ _ h1 => h1))

theorem execChrecv_wfMem {rd rs1 : Reg} (h : s.WfMem) : NextWfMem (execChrecv rd rs1 s) := by
  unfold execChrecv
  refine finish_nextWfMem ?_
  split
  · exact State.illegal_wfMem h
  · refine .ite (State.illegal_wfMem h) ?_
    split
    · exact h
    · split
      · exact Res.WfMem.ite h h
      · exact h

theorem execChdone_wfMem {rs1 : Reg} (h : s.WfMem) : NextWfMem (execChdone rs1 s) := by
  unfold execChdone
  refine finish_nextWfMem ?_
  split
  · exact State.illegal_wfMem h
  · exact h

@[simp] theorem State.markItem_mem (s : State) (b : ChanBuf) (src : Nat) (close : Bool) : (s.markItem b src close).mem = s.mem := by
  unfold State.markItem
  repeat' split
  all_goals rfl

theorem execChannelItemArrival_wfMem {idx : Nat} (h : s.WfMem) : NextWfMem (execChannelItemArrival idx s) := by
  unfold execChannelItemArrival
  change State.WfMem _
  split
  · exact h
  · refine .ite h (.ite h ?_)
    split
    · exact h
    · exact State.pathDead_wfMem h
    · split
      · exact State.bounce_wfMem h
      · split
        · exact h
        · extract_lets +onlyGivenNames s1
          have h1 : s1.WfMem := State.nicPut_wfMem h
          exact h1.of_eq (by simp)

theorem execChannelClose_wfMem {hart chan : Nat} (h : s.WfMem) : NextWfMem (execChannelClose hart chan s) := by
  unfold execChannelClose
  change State.WfMem _
  split
  · exact h
  · split
    · exact h
    · exact State.WfMem.ite h (h.of_eq (by simp))

theorem State.startItem_wfMem {k : Nat} {t : Task} {m : Msg} {hidx : Nat} {entry : Word} (h : s.WfMem) : (s.startItem k t m hidx entry).WfMem := by
  unfold State.startItem
  extract_lets hs s1 d
  have h1 : s1.WfMem := h.of_eq (by simp [s1])
  have h2 : d.2.WfMem := h1.of_eq (by simp [d])
  refine .ite (State.enterHandler_wfMem (h2.of_eq (by simp))) ?_
  split
  · exact State.enterHandler_wfMem (h1.of_eq (by simp))
  · exact h1

theorem execChannelHandlerStart_wfMem {hart : Nat} (h : s.WfMem) : NextWfMem (execChannelHandlerStart hart s) := by
  unfold execChannelHandlerStart
  dsimp only
  split
  · exact .ite (State.withEntry_wfMem h fun _ _ h1 => State.startItem_wfMem h1) h
  · exact h

theorem State.testWord_wfMem {ge : Bool} {value a i : Nat} (h : s.WfMem) : (s.testWord ge value a i).WfMem :=
  .ite h (.ite h (Res.wfMem_bind (State.loadAt_wfMem h) fun _ _ h1 => State.WfMem.ite ((State.flushP_wfMem _ _ h1).of_eq rfl) h1))

theorem State.testAgain_wfMem {ge : Bool} {value a i : Nat} (h : s.WfMem) : (s.testAgain ge value a i).WfMem := by
  unfold State.testAgain
  split
  · exact h
  · exact State.testWord_wfMem h

@[simp] theorem State.endWait_mem (s : State) (vm : Bool) (vd n : Nat) (short : Bool) : (s.endWait vm vd n short).mem = s.mem := by
  unfold State.endWait
  split <;> rfl

theorem State.waitOn_wfMem {vm : Bool} {vd vs2 : Nat} {blk : Word} {b : List Byte} {n : Nat} {short : Bool} (h : s.WfMem) :
    (s.waitOn vm vd vs2 blk b n short).WfMem := Res.WfMem.ite (h.of_eq (by simp)) h

theorem doVwait_wfMem {vm : Bool} {vd vs2 rs1 : Reg} (h : s.WfMem) : (doVwait s vm vd vs2 rs1).WfMem := by
  unfold doVwait
  refine State.vguard_wfMem h ?_
  refine .ite h ?_
  split
  · refine Res.wfMem_bind ?_ fun _ _ h1 => ?_
    · exact runElems_wfMem h fun _ _ h1 => State.testAgain_wfMem h1
    · exact State.waitOn_wfMem h1
  · refine Res.wfMem_bind (State.readCmd_wfMem (State.WfMem.ite h h)) fun _ _ h1 => ?_
    refine .ite (State.illegal_wfMem h1) ?_
    refine Res.wfMem_bind ?_ fun _ _ h2 => ?_
    · exact runElems_wfMem h1 fun _ _ h2 => State.testWord_wfMem h2
    · exact State.waitOn_wfMem h2

/-! ## Edge, texel, sampling and ray instructions -/

theorem State.readBlock_wfMem {va : Word} {align n : Nat} (h : s.WfMem) : (s.readBlock va align n).WfMem := Res.WfMem.ite h (State.loadAt_wfMem h)

theorem doEdge_wfMem {vm : Bool} {vd vs2 rs1 : Reg} (h : s.WfMem) : (doEdge s vm vd vs2 rs1).WfMem :=
  State.vguard_wfMem h (Res.wfMem_bind (State.readBlock_wfMem h) fun _ _ h1 => Res.WfMem.ite (State.illegal_wfMem h1) (h1.of_eq (by simp)))

theorem doTexdec_wfMem {vm : Bool} {vd vs2 : Reg} {fmt : BitVec 5} (h : s.WfMem) : (doTexdec s vm vd vs2 fmt).WfMem := State.vguard_wfMem h h

theorem State.readTexture_wfMem {va : Word} (h : s.WfMem) : (s.readTexture va).WfMem := by
  unfold State.readTexture
  refine Res.wfMem_bind (State.readBlock_wfMem h) fun _ _ h1 => ?_
  split
  · exact h1
  · exact State.illegal_wfMem h1

theorem doTexw_wfMem {vm : Bool} {vd vs2 rs1 : Reg} (h : s.WfMem) : (doTexw s vm vd vs2 rs1).WfMem :=
  State.vguard_wfMem h (Res.wfMem_bind (State.readTexture_wfMem h) fun _ _ h1 => h1)

theorem State.readTexels_wfMem {via : Via} {t : Texture} {xs : List (Nat × Nat × Nat)} (h : s.WfMem) : (s.readTexels via t xs).WfMem := by
  induction xs generalizing s t with
  | nil => exact h
  | cons _ _ ih =>
    unfold State.readTexels
    split
    · exact Res.wfMem_bind (ih h) fun _ _ h1 => h1
    · exact Res.wfMem_bind (State.loadAt_wfMem h) fun _ _ h1 => Res.wfMem_bind (ih h1) fun _ _ h2 => h2

theorem State.sample_wfMem {via : Via} {t : Texture} {uv : Nat} (h : s.WfMem) : (s.sample via t uv).WfMem :=
  Res.wfMem_bind (State.readTexels_wfMem h) fun _ _ h1 => h1

@[simp] theorem State.truncLoad_mem (s : State) (k : Option Nat) : (s.truncLoad k).mem = s.mem := by
  unfold State.truncLoad
  split <;> rfl

theorem doTexS_wfMem {vm : Bool} {vd vs2 rs1 : Reg} (h : s.WfMem) : (doTexS s vm vd vs2 rs1).WfMem := by
  unfold doTexS
  refine State.vguard_wfMem h ?_
  refine Res.wfMem_bind (State.readTexture_wfMem h) fun _ _ h1 => ?_
  refine Res.wfMem_bind ?_ fun _ _ h2 => ?_
  · exact Res.keepVec_wfMem (runElems_wfMem h1 fun _ _ h2 => Res.wfMem_bind (State.sample_wfMem h2) fun _ _ ht1 => ht1)
  · exact (State.mergeSpans_wfMem _ _ _ h2).of_eq (State.truncLoad_mem ..)

theorem State.nodeError_wfMem {i : Nat} {va : Word} (h : s.WfMem) : (s.nodeError i va).WfMem := State.WfMem.ite h ((State.logEntry_wfMem _ _ _ h).of_eq rfl)

theorem State.rayElem_wfMem {i : Nat} {ray node : Word} {n : Nat} {f : (Nat → Nat) → (Nat → Nat) → Nat} (h : s.WfMem) : (s.rayElem i ray node n f).WfMem := by
  unfold State.rayElem
  refine .ite h ?_
  refine Res.wfMem_bind (State.loadAt_wfMem h) fun _ _ h1 => ?_
  refine .ite h1 ?_
  split
  · rename_i e1
    exact (State.loadAt_wfMem h1).of_ok e1
  · rename_i e1
    exact State.nodeError_wfMem ((State.loadAt_wfMem h1).of_trap e1)
  · rename_i e1
    exact (State.loadAt_wfMem h1).of_trap e1
  · rename_i e1
    exact (State.loadAt_wfMem h1).of_stall e1

theorem doRay_wfMem {vm : Bool} {vd vs2 rs1 : Reg} {n ord : Nat} {f : (Nat → Nat) → (Nat → Nat) → Nat} (h : s.WfMem) : (doRay s vm vd vs2 rs1 n ord f).WfMem := by
  unfold doRay
  refine State.vguard_wfMem h ?_
  refine Res.wfMem_bind ?_ fun _ _ h1 => ?_
  · exact Res.keepVec_wfMem (runElems_wfMem h fun _ _ h1 => Res.wfMem_bind (State.rayElem_wfMem h1) fun _ _ ht1 => ht1)
  · exact (State.mergeSpans_wfMem _ _ _ h1).of_eq (State.truncLoad_mem ..)

theorem doBoxt_wfMem {vm : Bool} {vd vs2 rs1 : Reg} (h : s.WfMem) : (doBoxt s vm vd vs2 rs1).WfMem := doRay_wfMem h

theorem doTrit_wfMem {vm : Bool} {vd vs2 rs1 : Reg} (h : s.WfMem) : (doTrit s vm vd vs2 rs1).WfMem := doRay_wfMem h

/-! ## Asynchronous sampling -/

theorem doTexSa_wfMem {vm : Bool} {rd vs2 rs1 : Reg} (h : s.WfMem) : (doTexSa s vm rd vs2 rs1).WfMem := by
  unfold doTexSa
  refine State.vguard_wfMem h ?_
  refine Res.wfMem_bind (State.readBlock_wfMem h) fun _ _ h1 => ?_
  exact Res.wfMem_bind (State.readBlock_wfMem h1) fun _ _ h2 => Res.WfMem.ite (State.illegal_wfMem h2) (Res.WfMem.ite h2 h2)

theorem State.texPut_wfMem {via : Via} {va : Word} {l : List Nat} (h : s.WfMem) : (s.texPut via va l).WfMem :=
  Res.wfMem_bind (State.locate_wfMem _ _ _ _ _ h) fun _ _ h1 => Res.WfMem.ite h1 (State.storeLocs_wfMem _ _ _ _ h1)

theorem texRun_wfMem {via : Via} {t : Texture} {op : TexOp} {xs : List (Nat × Word)} (h : s.WfMem) : (texRun via t op xs s).WfMem := by
  induction xs generalizing op s with
  | nil => exact h
  | cons x xs ih =>
    unfold texRun
    extract_lets here r
    have hr : r.WfMem := Res.wfMem_bind (State.sample_wfMem h) fun _ _ h1 => State.texPut_wfMem (State.mergeSpans_wfMem _ _ _ h1)
    clear_value r
    split
    · exact ih (State.WfMem.of_eq hr (State.dropAsks_mem ..))
    · exact State.WfMem.of_eq hr (State.dropAsks_mem ..)
    · exact hr

@[simp] theorem State.modTex_mem (s : State) (h : Nat) (area : Option Nat) (f : List TexOp → List TexOp) : (s.modTex h area f).mem = s.mem := by
  unfold State.modTex
  split
  · rfl
  · simp

theorem execTexSaComplete_wfMem {hart idx : Nat} (h : s.WfMem) : NextWfMem (execTexSaComplete hart idx s) := by
  unfold execTexSaComplete
  split
  · exact h
  · split
    · exact h
    · dsimp only
      split
      · rename_i e3
        have h1 := (texRun_wfMem h).of_ended e3
        exact NextWfMem.ite (h1.of_eq (by simp)) (h1.of_eq (by simp))
      · rename_i e3
        exact ((texRun_wfMem h).of_waits e3).of_eq (State.modTex_mem ..)

end Sys2Proof.Machine
end

section
/-! SUPPORT. Memory stays canonical: contexts. -/

namespace Sys2Proof.Machine

variable {s : State}

/-! ## How a task ends -/

@[simp] theorem State.freeMatrix_mem (s : State) (h : Nat) : (s.freeMatrix h).mem = s.mem := rfl

@[simp] theorem State.disarmAll_mem (s : State) (c : Ctx) : (s.disarmAll c).mem = s.mem := rfl

@[simp] theorem State.freeScratch_mem (s : State) (sel : Alloc → Bool) : (s.freeScratch sel).mem = s.mem := rfl

@[simp] theorem State.freeBuffers_mem (s : State) (launch lin : Nat) : (s.freeBuffers launch lin).mem = s.mem := rfl

theorem State.bounceWaiting_wfMem {h : Nat} {owner : Option Nat} (hs : s.WfMem) : (s.bounceWaiting h owner).WfMem :=
  foldl_wfMem _ (fun _ _ hst => State.WfMem.ite hst (State.bounce_wfMem hst)) _ _ hs

@[simp] theorem State.leaveGroup_mem (s : State) (t : Task) : (s.leaveGroup t).mem = s.mem := by
  unfold State.leaveGroup
  dsimp only
  split <;> simp

@[simp] theorem State.giveBack_mem (s : State) (t : Task) : (s.giveBack t).mem = s.mem := by
  unfold State.giveBack
  simp

theorem State.freeHart_wfMem {h : Nat} (hs : s.WfMem) : (s.freeHart h).WfMem := State.bounceWaiting_wfMem (hs.of_eq (by simp))

@[simp] theorem State.endIdleChains_mem (s : State) (h : Nat) (xs : List Chain) : (s.endIdleChains h xs).mem = s.mem := by
  induction xs generalizing s h with
  | nil => rfl
  | cons _ _ ih =>
    unfold State.endIdleChains
    split
    · exact (ih ..).trans (by simp)
    · exact (ih ..).trans rfl

@[simp] theorem State.windDown_mem (s : State) (h : Nat) : (s.windDown h).mem = s.mem := by
  unfold State.windDown
  simp

theorem State.drainRecords_wfMem {h : Nat} {t : Task} {xs : List EngFail} (hs : s.WfMem) : (s.drainRecords h t xs).WfMem := by
  induction xs generalizing s with
  | nil => exact hs
  | cons _ _ ih => exact ih (State.WfMem.of_eq (State.errRecord_wfMem _ _ _ _ _ _ _ _ _ _ hs) (State.modLaunch_mem ..))

@[simp] theorem State.dropTriggers_mem (s : State) (h : Nat) : (s.dropTriggers h).mem = s.mem := rfl

@[simp] theorem State.dropTex_mem (s : State) (h : Nat) : (s.dropTex h).mem = s.mem := rfl

theorem State.exitTask_wfMem {k : Nat} {t : Task} (h : s.WfMem) : (s.exitTask k t).WfMem := by
  unfold State.exitTask
  extract_lets s1 s2
  have h1 : s1.WfMem := State.drainRecords_wfMem (State.flushP_wfMem _ _ h)
  have h2 : s2.WfMem := h1.of_eq (by simp [s2])
  exact (State.freeHart_wfMem (h2.of_eq (by simp))).of_eq (State.safePoint_mem ..)

theorem execKexit_wfMem (h : s.WfMem) : NextWfMem (execKexit s) := by
  unfold execKexit
  split
  · exact finish_nextWfMem (State.illegal_wfMem h)
  · refine .ite (finish_nextWfMem (State.illegal_wfMem h)) ?_
    extract_lets +onlyGivenNames s1
    have h1 : s1.WfMem := h.of_eq (by simp [s1])
    exact NextWfMem.ite (State.exitTask_wfMem h1) h1

theorem State.discardHart_wfMem {h : Nat} {t : Task} (hs : s.WfMem) : (s.discardHart h t).WfMem := State.freeHart_wfMem (hs.of_eq (by simp))

@[simp] theorem State.lapse_mem (s : State) (region : Nat) : (s.lapse region).mem = s.mem := by
  unfold State.lapse
  split
  · rfl
  · split
    · rfl
    · simp

theorem State.discardSaved_wfMem {x : Saved} (h : s.WfMem) : (s.discardSaved x).WfMem := by
  unfold State.discardSaved
  extract_lets mine s1
  have h1 : s1.WfMem := h.of_eq (foldl_mem _ (fun _ _ => by simp) _ _)
  split
  · exact h1
  · exact State.bounceWaiting_wfMem (h1.of_eq (by simp))

theorem State.endedRecord_wfMem {h : Nat} {t : Task} {cause : Nat} {epc tval : Word} (hs : s.WfMem) : (s.endedRecord h t cause epc tval).WfMem :=
  (State.errRecord_wfMem _ _ _ _ _ _ _ _ _ _ hs).of_eq rfl

theorem execEndTask_wfMem {hart : Nat} (h : s.WfMem) : NextWfMem (execEndTask hart s) := by
  unfold execEndTask
  change State.WfMem _
  dsimp only
  split
  · exact State.WfMem.ite h (State.discardHart_wfMem (State.endedRecord_wfMem h))
  · split
    · exact h
    · split
      · exact State.discardSaved_wfMem (State.endedRecord_wfMem h)
      · exact State.discardSaved_wfMem h

/-! ## ctx.save -/

@[simp] theorem State.endHaltRods_mem (s : State) (c : Ctx) : (s.endHaltRods c).mem = s.mem := rfl

@[simp] theorem State.poisonArea_mem (s0 s : State) (h : Nat) (ls : List Loc) (a : Area) : (State.poisonArea s0 s h ls a).mem = s.mem := by
  have mark (st : State) (off : Nat) : (match byteAt ls off with | some pa => st.poisonRange pa 1 | none => st : State).mem = st.mem := by
    split
    · exact State.poisonRange_mem ..
    · rfl
  unfold State.poisonArea
  extract_lets q m s1
  have h1 : s1.mem = s.mem := by
    unfold s1
    split
    · exact foldl_mem _ (fun st x => mark st _) _ _
    · rfl
  split
  · exact h1
  · refine (foldl_mem _ (fun st i => ?_) _ _).trans h1
    split
    · exact mark st _
    · rfl

@[simp] theorem State.reserveRods_mem (s : State) (c : Ctx) (pa : Nat) : (s.reserveRods c pa).mem = s.mem := foldl_mem _ (fun _ _ => by simp) _ _

@[simp] theorem State.releaseScratch_mem (s : State) (t : Task) : (s.releaseScratch t).mem = s.mem := rfl

@[simp] theorem State.toArea_mem (s : State) (h pa : Nat) : (s.toArea h pa).mem = s.mem := by
  unfold State.toArea
  dsimp only
  split <;> simp

theorem State.runLowest_wfMem {k : Nat} (h : s.WfMem) : (s.runLowest k).WfMem := by
  unfold State.runLowest
  extract_lets c nums
  split
  · exact h
  · have h1 := fun n => execCopyComplete_wfMem (hart := k) (n := n) h
    split
    · rename_i e
      exact (h1 _).of_next e
    · exact h

@[simp] theorem State.barHalts_mem (s : State) (h : Nat) (a : Word) : (s.barHalts h a).mem = s.mem := by
  unfold State.barHalts
  repeat' split
  all_goals rfl

theorem Res.barHalts_wfMem {α : Type} {r : Res α} {k : Nat} {a : Word} (h : r.WfMem) : (r.barHalts k a).WfMem := by
  cases r with
  | ok a s => exact h
  | trap c v s => exact State.WfMem.of_eq h (State.barHalts_mem ..)
  | stall w s => exact h

theorem execCtxSave_wfMem {rd rs1 rs2 : Reg} (h : s.WfMem) : NextWfMem (execCtxSave rd rs1 rs2 s) := by
  unfold execCtxSave
  refine finish_nextWfMem ?_
  extract_lets k a q r
  clear_value r
  refine .ite (State.illegal_wfMem h) (.ite h (.ite h (.ite (State.runLowest_wfMem h) (.ite h ?_))))
  refine Res.wfMem_bind (State.releaseSys_wfMem h) fun _ _ h0 => Res.barHalts_wfMem ?_
  refine Res.wfMem_bind (State.locateAll_wfMem _ _ _ _ h0) fun _ _ h1 => Res.wfMem_bind (State.storeLocs_wfMem _ _ _ _ h1) fun _ s2 h2 => ?_
  extract_lets s3
  have h3 : s3.WfMem := State.flushP_wfMem _ _ (h2.of_eq (State.poisonArea_mem ..))
  exact h3.of_eq (by simp)

/-! ## ctx.load and migrate -/

@[simp] theorem State.regainRods_mem (s : State) (c : Ctx) (pa : Nat) (xs : List (List Byte)) : (s.regainRods c pa xs).mem = s.mem := by
  induction xs generalizing s c pa with
  | nil => rfl
  | cons _ _ ih =>
    unfold State.regainRods
    dsimp only
    repeat' split
    all_goals exact (ih ..).trans rfl

@[simp] theorem State.sendHeld_mem (s : State) (c : Ctx) (h : Nat) : (s.sendHeld c h).mem = s.mem := rfl

@[simp] theorem State.redirect_mem (s : State) (core area new : Nat) : (s.redirect core area new).mem = s.mem := rfl

@[simp] theorem State.noteMove_mem (s : State) (old new : Nat) (c : Ctx) : (s.noteMove old new c).mem = s.mem := by
  unfold State.noteMove
  split <;> rfl

theorem State.fromArea_wfMem {p : LoadPlan} (h : s.WfMem) : (s.fromArea p).WfMem := by
  unfold State.fromArea
  extract_lets k core b hmask rodOff scrOff s1 s2 n s3 s4 s5 c recs
  have h1 : s1.WfMem := h.of_eq (State.modSeq_mem ..)
  have h2 : s2.WfMem := .ite (h1.of_eq (State.modCore_mem ..)) h1
  have h3 : s3.WfMem := .ite h2 (foldl_wfMem _ (fun _ _ hst => .ite (hst.of_eq (State.poisonRange_mem ..)) hst) _ _ (State.nicPut_wfMem h2))
  have h4 : s4.WfMem := by
    unfold s4
    split
    · exact .ite h3 (h3.of_eq (State.modCore_mem ..))
    · exact h3
  exact h4.of_eq (by simp [s5])

theorem State.loadArea_wfMem {a : Word} {carry : Bool} {n n1 n2 : Nat} (h : s.WfMem) : (s.loadArea a carry n n1 n2).WfMem := by
  induction n generalizing s a carry n1 n2 with
  | zero => exact h
  | succ _ ih =>
    unfold State.loadArea
    refine .ite h ?_
    refine Res.wfMem_bind (State.locate_wfMem _ _ _ _ _ h) fun _ _ h1 => ?_
    refine Res.wfMem_bind ?_ fun _ _ h2 => ?_
    · exact .ite (State.rawReads_wfMem h1) (Res.wfMem_bind (State.readLocs_wfMem _ _ _ _ h1) fun _ _ h2 => h2)
    · exact Res.wfMem_bind (ih h2) fun _ _ h3 => h3

theorem State.loadRest_wfMem {h pa : Nat} {a : Word} {hd : List Byte} {base : Option Saved} (hs : s.WfMem) : (s.loadRest h pa a hd base).WfMem := by
  unfold State.loadRest
  refine .ite hs ?_
  refine Res.wfMem_bind (State.loadArea_wfMem hs) fun _ _ h1 => ?_
  refine Res.wfMem_bind (State.loadArea_wfMem h1) fun _ _ h2 => ?_
  split
  · exact .ite h2 (.ite h2 (Res.wfMem_bind (State.loadArea_wfMem h2) fun _ _ h3 => h3))
  · exact h2

theorem execCtxLoad_wfMem {rd rs1 rs2 : Reg} (h : s.WfMem) : NextWfMem (execCtxLoad rd rs1 rs2 s) := by
  unfold execCtxLoad
  refine finish_nextWfMem ?_
  refine .ite (State.illegal_wfMem h) (.ite h ?_)
  refine Res.wfMem_bind (State.locate_wfMem _ _ _ _ _ h) fun _ _ h0 => ?_
  refine Res.wfMem_bind (State.loadRun_wfMem h0) fun _ _ h1 => ?_
  refine .ite h1 ?_
  refine Res.wfMem_bind (State.loadRest_wfMem h1) fun _ _ h2 => ?_
  split
  · exact h2
  · split
    · exact h2
    · exact (State.fromArea_wfMem h2).of_eq rfl

@[simp] theorem State.moveMatrix_mem (s : State) (src dst : Nat) : (s.moveMatrix src dst).mem = s.mem := by
  unfold State.moveMatrix
  dsimp only
  split <;> rfl

@[simp] theorem State.moveInbox_mem (s : State) (src dst : Nat) : (s.moveInbox src dst).mem = s.mem := rfl

@[simp] theorem State.moveContext_mem (s : State) (src dst : Nat) : (s.moveContext src dst).mem = s.mem := by
  unfold State.moveContext
  simp

theorem execMigrate_wfMem {rd rs1 rs2 : Reg} (h : s.WfMem) : NextWfMem (execMigrate rd rs1 rs2 s) := by
  unfold execMigrate
  refine finish_nextWfMem ?_
  refine .ite (State.illegal_wfMem h) (.ite h ?_)
  split
  · exact h
  · exact Res.WfMem.ite h (h.of_eq (by simp))

end Sys2Proof.Machine
end

section
/-! SUPPORT. Memory stays canonical: events of lanes, homes and code pages. -/

namespace Sys2Proof.Machine

variable {s : State}

/-! ## Lanes, pre-emption and waiting -/

theorem execLgrantWrite_wfMem {sup : Nat} {value : Word} (h : s.WfMem) : NextWfMem (execLgrantWrite sup value s) := by
  unfold execLgrantWrite
  change State.WfMem _
  refine .ite ?_ h
  dsimp only
  split <;> exact h.of_eq (by simp)

theorem execLaneRotation_wfMem {core : Nat} (h : s.WfMem) : NextWfMem (execLaneRotation core s) :=
  State.WfMem.ite h (foldl_wfMem _ (fun _ _ hst => hst.of_eq (by simp)) _ _ h)

theorem State.killHalted_wfMem {h : Nat} (hs : s.WfMem) : (s.killHalted h).WfMem := by
  unfold State.killHalted
  split
  · exact State.WfMem.ite (State.discardHart_wfMem hs) hs
  · exact hs

theorem State.landOn_wfMem {h : Nat} (hs : s.WfMem) : (s.landOn h).WfMem := State.killHalted_wfMem (hs.of_eq (by simp))

theorem State.askHalt_wfMem {h : Nat} (hs : s.WfMem) : (s.askHalt h).WfMem :=
  State.killHalted_wfMem ((State.WfMem.ite (hs.of_eq (by simp)) hs).of_eq (State.modSeq_mem ..))

theorem State.retireGroup_wfMem {core group : Nat} (h : s.WfMem) : (s.retireGroup core group).WfMem := State.WfMem.ite h (State.logEntry_wfMem _ _ _ h)

theorem execItbudgetExpiry_wfMem {hart : Nat} (h : s.WfMem) : NextWfMem (execItbudgetExpiry hart s) := by
  unfold execItbudgetExpiry
  change State.WfMem _
  dsimp only
  split
  · exact State.WfMem.ite (h.of_eq (by simp)) h
  · exact h

@[simp] theorem State.wake_mem (s : State) (h : Nat) : (s.wake h).mem = s.mem := by
  unfold State.wake
  split <;> rfl

theorem execPageWalkComplete_wfMem {hart : Nat} {va : Word} {store : Bool} (h : s.WfMem) : NextWfMem (execPageWalkComplete hart va store s) := by
  unfold execPageWalkComplete
  change State.WfMem _
  split
  · rename_i e1
    exact (State.xlate_wfMem _ _ _ _ h).of_ok e1
  · exact h

/-! ## Homes -/

theorem State.evictLine_wfMem {line : Nat} (h : s.WfMem) : (s.evictLine line).WfMem := by
  unfold State.evictLine
  extract_lets words s1 rest _ s2
  have h1 : s1.WfMem := foldl_wfMem _ (fun _ _ hst => State.reckonWord_wfMem _ _ _ hst) _ _ h
  have h2 : s2.WfMem := by
    clear_value rest
    cases rest with
    | nil => exact h1
    | cons b bs =>
      unfold s2
      dsimp only
      split
      · exact h1.of_eq rfl
      · exact State.poolFullLog_wfMem (foldl_wfMem _ (fun _ _ hst => State.reckonWord_wfMem _ _ _ hst) _ _ h1)
  exact h2.of_eq (State.modDir_mem ..)

theorem State.mayEvict_wfMem {line : Nat} (h : s.WfMem) : (s.mayEvict line).WfMem := by
  unfold State.mayEvict
  dsimp only
  split
  · exact State.evictLine_wfMem h
  · exact h

@[simp] theorem State.readerOn_mem (s : State) (core : Nat) : (s.readerOn core).2.mem = s.mem := rfl

theorem execSpanRead_wfMem {core line word count : Nat} (h : s.WfMem) : NextWfMem (execSpanRead core line word count s) := by
  unfold execSpanRead
  extract_lets pa home r
  have hr : r.2.WfMem := (State.mayEvict_wfMem (h.of_eq (State.wakeHome_mem ..))).of_eq (State.readerOn_mem ..)
  exact State.WfMem.ite h ((State.reckonRange_wfMem _ _ _ _ hr).of_eq (State.modLines_mem ..))

theorem execHomeWrite_wfMem {core addr : Nat} {bytes : List Byte} (h : s.WfMem) : NextWfMem (execHomeWrite core addr bytes s) := by
  unfold execHomeWrite
  change State.WfMem _
  refine .ite h ?_
  split
  · exact h
  · exact State.putBytes_wfMem _ _ _ _ (State.reckonRange_wfMem _ _ _ _ (h.of_eq (by simp)))

theorem execRodPass_wfMem {region : Nat} (h : s.WfMem) : NextWfMem (execRodPass region s) := by
  unfold execRodPass
  change State.WfMem _
  split
  · split
    · exact State.WfMem.ite h (State.WfMem.ite h (State.WfMem.ite (h.of_eq (by simp)) h))
    · exact h
  · exact h

theorem execLeaseExpiry_wfMem {region : Nat} (h : s.WfMem) : NextWfMem (execLeaseExpiry region s) := by
  unfold execLeaseExpiry
  change State.WfMem _
  split
  · split
    · exact State.WfMem.ite (h.of_eq (by simp)) h
    · exact h
  · exact h

theorem execReservationLapse_wfMem {region : Nat} (h : s.WfMem) : NextWfMem (execReservationLapse region s) := by
  unfold execReservationLapse
  change State.WfMem _
  split
  · exact State.WfMem.ite (h.of_eq (by simp)) h
  · exact h

@[simp] theorem State.reclaim_mem (s : State) (p : Nat × Rod) : (s.reclaim p).mem = s.mem := by
  unfold State.reclaim
  split
  · rfl
  · split <;> simp

theorem State.losePartials_wfMem {core : Nat} {sel : Nat → Bool} (h : s.WfMem) : (s.losePartials core sel).WfMem := by
  unfold State.losePartials
  refine foldl_wfMem _ (fun st p hs => ?_) _ _ h
  exact State.losePartial_wfMem _ _ _ _ (State.WfMem.of_eq hs rfl)

@[simp] theorem State.dropCopies_mem (s : State) (party : Nat) : (s.dropCopies party).mem = s.mem := rfl

@[simp] theorem State.clearL1_mem (s : State) (core : Nat) : (s.clearL1 core).mem = s.mem := rfl

theorem State.rejoinCore_wfMem {core : Nat} (h : s.WfMem) : (s.rejoinCore core).WfMem := by
  unfold State.rejoinCore
  extract_lets +onlyGivenNames s1
  have h1 : s1.WfMem := foldl_wfMem _ (fun _ _ hst => hst.of_eq (by simp)) _ _ h
  exact (State.losePartials_wfMem h1).of_eq rfl

@[simp] theorem State.rejoinHub_mem (s : State) : s.rejoinHub.mem = s.mem := (State.dropCopies_mem ..).trans (foldl_mem _ (fun _ _ => by simp) _ _)

theorem execRejoin_wfMem {party : Nat} (h : s.WfMem) : NextWfMem (execRejoin party s) := by
  unfold execRejoin
  change State.WfMem _
  refine .ite ?_ ((State.rejoinCore_wfMem h).of_eq rfl)
  extract_lets +onlyGivenNames s1
  have h1 : s1.WfMem := h.of_eq (by simp [s1])
  exact h1

/-! ## Fetching -/

@[simp] theorem State.startHash_mem (s : State) (obj page : Nat) : (s.startHash obj page).mem = s.mem := by
  unfold State.startHash
  simp

theorem State.codeLoc_wfMem {via : Via} {va : Word} {pa : Nat} (h : s.WfMem) : (s.codeLoc via va pa).WfMem := Res.WfMem.ite (State.reach_wfMem _ _ _ _ h) h

theorem State.codeFetch_wfMem {via : Via} {obj : Nat} {o : Obj} {i : Nat} {va : Word} (h : s.WfMem) : (s.codeFetch via obj o i va).WfMem := by
  unfold State.codeFetch
  split
  · exact State.codeLoc_wfMem h
  · exact h
  · exact Res.WfMem.ite h (h.of_eq (by simp))
  · exact h

theorem State.areaFetch_wfMem {via : Via} {o : Obj} {va : Word} (h : s.WfMem) : (s.areaFetch via o va).WfMem := by
  unfold State.areaFetch
  split
  · rename_i e1
    exact Res.WfMem.ite ((State.locate_wfMem _ _ _ _ _ h).of_ok e1) ((State.locate_wfMem _ _ _ _ _ h).of_ok e1)
  · rename_i e1
    exact (State.locate_wfMem _ _ _ _ _ h).of_ok e1
  · rename_i e1
    exact (State.locate_wfMem _ _ _ _ _ h).of_trap e1
  · rename_i e1
    exact (State.locate_wfMem _ _ _ _ _ h).of_stall e1

theorem State.fetchLoc_wfMem {va : Word} (h : s.WfMem) : (s.fetchLoc va).WfMem := by
  unfold State.fetchLoc
  split
  · split
    · exact h
    · split
      · exact State.codeFetch_wfMem h
      · exact Res.WfMem.ite (State.areaFetch_wfMem h) h
  · refine Res.wfMem_bind (State.locate_wfMem _ _ _ _ _ h) fun _ _ h1 => ?_
    split <;> exact h1

theorem State.fetchBytes_wfMem {va : Word} {n : Nat} (h : s.WfMem) : (s.fetchBytes va n).WfMem := by
  unfold State.fetchBytes
  refine Res.wfMem_bind (State.fetchLoc_wfMem h) fun _ _ h1 => ?_
  extract_lets +onlyGivenNames s2
  have h2 : s2.WfMem := h1.of_eq (by simp [s2])
  extract_lets +onlyGivenNames s3
  have h3 : s3.WfMem := State.WfMem.ite (State.reckonRange_wfMem _ _ _ _ h2) h2
  dsimp only
  split
  · exact h3
  · exact Res.WfMem.ite h3 h3

@[simp] theorem State.latchAs_mem (s : State) (f : Form) (len : Nat) (bytes : List Byte) : (s.latchAs f len bytes).mem = s.mem := rfl

/-- Decoding what was fetched lays the bytes in the latch. -/
theorem State.decoded_wfMem {f : Form} {pc : Word} {bs : List Byte} {d : Decoded} {r : Res Instr} (h : s.WfMem) (e : s.decoded f pc bs d = some r) :
    r.WfMem := by
  unfold State.decoded at e
  split at e
  · cases e
    exact h.of_eq (State.latchAs_mem ..)
  · cases e
    exact h.of_eq (State.latchAs_mem ..)
  · cases e

theorem State.fetchMore_wfMem {f : Form} {pc : Word} {bs : List Byte} {n : Nat} (h : s.WfMem) : (s.fetchMore f pc bs n).WfMem := by
  induction n generalizing bs s with
  | zero => exact h
  | succ n ih =>
    unfold State.fetchMore
    refine .ite h ?_
    have hf := State.fetchBytes_wfMem (va := pc + BitVec.ofNat 64 bs.length) (n := 80 - bs.length) h
    split
    · rename_i e
      have h1 := hf.of_ok e
      split
      · rename_i e'
        exact State.decoded_wfMem h1 e'
      · exact ih h1
    · rename_i e
      exact hf.of_trap e
    · rename_i e
      exact hf.of_trap e
    · rename_i e
      exact hf.of_stall e

theorem State.fetch_wfMem (h : s.WfMem) : s.fetch.WfMem := Res.WfMem.ite h (State.fetchMore_wfMem h)

/-! ## Data errors and a die boundary that fails -/

theorem State.logCorrected_wfMem {part type cls idx addr code : Nat} (h : s.WfMem) : (s.logCorrected part type cls idx addr code).WfMem :=
  State.logEntry_wfMem _ _ _ h

theorem State.poisonError_wfMem {part cls idx addr code : Nat} (h : s.WfMem) : (s.poisonError part cls idx addr code).WfMem := State.logEntry_wfMem _ _ _ h

theorem State.accError_wfMem {core cell : Nat} {uncorrectable : Bool} (h : s.WfMem) : (s.accError core cell uncorrectable).WfMem := by
  unfold State.accError
  dsimp only
  split
  · exact h
  · split
    · exact State.matReport_wfMem h
    · refine State.WfMem.of_eq ?_ (State.modSeq_mem ..)
      exact State.matReport_wfMem h

theorem State.arrayError_wfMem {core cell : Nat} (h : s.WfMem) : (s.arrayError core cell).WfMem := by
  unfold State.arrayError
  dsimp only
  split
  · exact h
  · split
    · exact State.matReport_wfMem h
    · exact State.WfMem.ite (State.failArray_wfMem h) (State.matReport_wfMem h)

theorem State.countCorrected_wfMem {core group : Nat} (h : s.WfMem) : (s.countCorrected core group).WfMem := State.WfMem.ite (State.retireGroup_wfMem h) h

theorem execSramError_wfMem {unit : SramUnit} {core addr : Nat} {uncorrectable : Bool} (h : s.WfMem) : NextWfMem (execSramError unit core addr uncorrectable s) := by
  unfold execSramError
  change State.WfMem _
  refine .ite h ?_
  split
  · exact State.accError_wfMem h
  · exact State.arrayError_wfMem h
  · refine .ite (State.WfMem.ite (State.countCorrected_wfMem (State.logCorrected_wfMem h)) (State.logCorrected_wfMem h)) ?_
    split
    · exact State.retireGroup_wfMem h
    · exact State.losePartials_wfMem h
    · exact State.poisonError_wfMem h

theorem execHbmError_wfMem {addr : Nat} {uncorrectable : Bool} (h : s.WfMem) : NextWfMem (execHbmError addr uncorrectable s) :=
  State.WfMem.ite h (State.WfMem.ite (State.poisonError_wfMem h) (State.logEntry_wfMem _ _ _ h))

@[simp] theorem State.addRange_mem (s : State) (launch : Nat) (va : Word) (n : Nat) : (s.addRange launch va n).mem = s.mem := rfl

@[simp] theorem State.loseRod_mem (s : State) (b : Nat) (p : Nat × Rod) : (s.loseRod b p).mem = s.mem := by
  unfold State.loseRod
  split
  · rfl
  · dsimp only
    split
    · split
      · rfl
      · repeat' split
        all_goals simp
    · split
      · rfl
      · repeat' split
        all_goals simp

@[simp] theorem State.loseCopies_mem (s : State) (b : Nat) : (s.loseCopies b).mem = s.mem := rfl

theorem State.loseCore_wfMem {b core : Nat} (h : s.WfMem) : (s.loseCore b core).WfMem := by
  unfold State.loseCore
  exact foldl_wfMem _ (fun _ _ hs => hs.of_eq (State.addRange_mem ..)) _ _ (State.losePartials_wfMem h)

@[simp] theorem State.loseWrites_mem (s : State) (b : Nat) (xs : List Unsure) : (s.loseWrites b xs).mem = s.mem := by
  induction xs generalizing s b with
  | nil => rfl
  | cons _ _ ih =>
    unfold State.loseWrites
    dsimp only
    split <;> exact (ih ..).trans rfl

theorem State.loseMsgs_wfMem {b : Nat} {xs : List Msg} (h : s.WfMem) : (s.loseMsgs b xs).WfMem := by
  induction xs generalizing s b with
  | nil => exact h
  | cons _ _ ih =>
    unfold State.loseMsgs
    exact ih (State.WfMem.ite (State.pathDead_wfMem h) h)

theorem State.severTask_wfMem {h : Nat} {t : Task} (hs : s.WfMem) : (s.severTask h t).WfMem := State.discardHart_wfMem (State.endedRecord_wfMem hs)

theorem State.severLaunch_wfMem {b : Nat} {l : Launch} (h : s.WfMem) : (s.severLaunch b l).WfMem := by
  unfold State.severLaunch
  extract_lets +onlyGivenNames s1
  have h1 : s1.WfMem := by
    unfold s1
    refine foldl_wfMem _ (fun _ _ hs1 => ?_) _ _ h
    split
    · exact State.WfMem.ite (State.severTask_wfMem hs1) hs1
    · exact hs1
  extract_lets +onlyGivenNames s2
  have h2 : s2.WfMem := by
    unfold s2
    refine foldl_wfMem _ (fun _ _ hs1 => ?_) _ _ h1
    split
    · exact State.WfMem.ite (State.discardSaved_wfMem (State.endedRecord_wfMem hs1)) hs1
    · exact hs1
  exact State.logEntry_wfMem _ _ _ h2

end Sys2Proof.Machine
end

section
/-! SUPPORT. Memory stays canonical: the queue processor. -/

namespace Sys2Proof.Machine

variable {s : State}

/-! ## Queues -/

theorem State.qpRead_wfMem {q : Queue} {va : Word} {n : Nat} (h : s.WfMem) : (s.qpRead q va n).WfMem := State.readBytes_wfMem _ _ _ _ _ h

theorem State.takeConfig_wfMem {q : Queue} {c : QCfg} (h : s.WfMem) : (s.takeConfig q c).WfMem := State.WfMem.ite h (State.leaveThread_wfMem _ _ h)

theorem State.readConfig_wfMem {q : Queue} {force : Bool} (h : s.WfMem) : (s.readConfig q force).WfMem := by
  unfold State.readConfig
  split
  · rename_i e1
    have h1 := (State.qpRead_wfMem h).of_ok e1
    refine .ite h1 (.ite (State.WfMem.ite h1 (State.queueError_wfMem _ _ _ _ _ _ _ h1)) ?_)
    split
    · exact State.WfMem.ite h1 (State.queueError_wfMem _ _ _ _ _ _ _ h1)
    · exact State.takeConfig_wfMem h1
  · rename_i e1
    exact ((State.qpRead_wfMem h).of_trap e1).of_eq (State.queueBad_mem ..)
  · rename_i e1
    exact (State.qpRead_wfMem h).of_stall e1

theorem State.discardSavedOf_wfMem {id : Nat} (h : s.WfMem) : (s.discardSavedOf id).WfMem := by
  unfold State.discardSavedOf
  refine foldl_wfMem _ (fun _ _ hs1 => ?_) _ _ h
  split
  · exact State.WfMem.ite (State.discardSaved_wfMem hs1) hs1
  · exact hs1

theorem State.onTasks_wfMem {id : Nat} {f : State → Nat → Task → State} (h : s.WfMem) (hf : ∀ s1 k t, s1.WfMem → (f s1 k t).WfMem) :
    (s.onTasks id f).WfMem := by
  unfold State.onTasks
  refine foldl_wfMem _ (fun _ _ hs1 => ?_) _ _ h
  split
  · exact State.WfMem.ite (hf _ _ _ hs1) hs1
  · exact hs1

theorem State.discardTasks_wfMem {id : Nat} (h : s.WfMem) : (s.discardTasks id).WfMem := by
  unfold State.discardTasks
  exact State.discardSavedOf_wfMem (State.onTasks_wfMem h fun _ _ _ h1 => State.discardHart_wfMem h1)

theorem State.killLaunch_wfMem {id : Nat} (h : s.WfMem) : (s.killLaunch id).WfMem := by
  unfold State.killLaunch
  exact State.discardSavedOf_wfMem (State.onTasks_wfMem h fun _ _ _ h1 => State.WfMem.ite (State.askHalt_wfMem h1) (State.discardHart_wfMem h1))

theorem State.ctrlAct_wfMem {part qid bit : Nat} (h : s.WfMem) : (s.ctrlAct part qid bit).WfMem := by
  unfold State.ctrlAct
  split
  · exact (foldl_wfMem _ (fun _ _ hst => State.killLaunch_wfMem hst) _ _ h).of_eq rfl
  · exact h
  · exact h

theorem State.testCtrl_wfMem {q : Queue} {asked : Nat → Bool} (h : s.WfMem) : (s.testCtrl q asked).WfMem := by
  unfold State.testCtrl
  refine .ite h ?_
  split
  · rename_i e1
    have h1 := (State.qpRead_wfMem h).of_ok e1
    refine .ite h1 ?_
    split
    · rename_i e2
      exact State.ctrlAct_wfMem ((State.amoVa_wfMem h1).of_ok e2)
    · rename_i e2
      exact ((State.amoVa_wfMem h1).of_trap e2).of_eq (State.queueBad_mem ..)
    · rename_i e2
      exact (State.amoVa_wfMem h1).of_stall e2
  · rename_i e1
    exact ((State.qpRead_wfMem h).of_trap e1).of_eq (State.queueBad_mem ..)
  · rename_i e1
    exact (State.qpRead_wfMem h).of_stall e1

theorem State.swapIn_wfMem {q : Queue} {thread : Nat} (h : s.WfMem) : (s.swapIn q thread).WfMem := by
  unfold State.swapIn
  refine .ite h ?_
  split
  · rename_i e
    have hr := (State.qpRead_wfMem h).of_ok e
    extract_lets q1 s2 s3
    have h2 : s2.WfMem := State.readConfig_wfMem (hr.of_eq (State.setQueue_mem ..))
    have h3 : s3.WfMem := by
      unfold s3
      split
      · exact State.testCtrl_wfMem h2
      · exact h2
    split
    · exact .ite h3 (State.leaveThread_wfMem _ _ h3)
    · exact h3
  · rename_i e
    exact ((State.qpRead_wfMem h).of_trap e).of_eq (State.queueBad_mem ..)
  · rename_i e
    exact (State.qpRead_wfMem h).of_stall e

theorem State.head_wfMem {q : Queue} {c : QCfg} (h : s.WfMem) : (s.head q c).WfMem := by
  unfold State.head
  split
  · rename_i e1
    have h1 := (State.qpRead_wfMem h).of_ok e1
    refine .ite h1 (.ite h1 (.ite h1 ?_))
    split
    · rename_i e2
      exact (State.qpRead_wfMem h1).of_ok e2
    · rename_i e2
      exact (State.qpRead_wfMem h1).of_trap e2
    · rename_i e2
      exact (State.qpRead_wfMem h1).of_stall e2
  · rename_i e1
    exact (State.qpRead_wfMem h).of_trap e1
  · rename_i e1
    exact (State.qpRead_wfMem h).of_stall e1

theorem State.endPacket_wfMem {q : Queue} (h : s.WfMem) : (s.endPacket q).WfMem := by
  unfold State.endPacket
  extract_lets q1 s1 s2
  have h1 : s1.WfMem := (State.putLive_wfMem _ _ _ _ (h.of_eq (State.setQueue_mem ..))).of_eq (State.releaseRods_mem ..)
  have h2 : s2.WfMem := h1.of_eq (by simp [s2])
  split
  · exact .ite h2 (State.leaveThread_wfMem _ _ h2)
  · exact h2

theorem State.takePacket_wfMem {part qid : Nat} (h : s.WfMem) : (s.takePacket part qid).WfMem := by
  unfold State.takePacket
  split
  · exact h
  · split
    · split
      · rename_i e4
        have h1 := (State.head_wfMem h).of_ok e4
        split
        · exact State.queueError_wfMem _ _ _ _ _ _ _ (State.endPacket_wfMem h1)
        · split
          · exact State.queueError_wfMem _ _ _ _ _ _ _ h1
          · exact .ite h1 h1
      · rename_i e4
        exact State.WfMem.ite (((State.head_wfMem h).of_ok e4).of_eq rfl) ((State.head_wfMem h).of_ok e4)
      · rename_i e4
        exact State.queueError_wfMem _ _ _ _ _ _ _ ((State.head_wfMem h).of_ok e4)
      · rename_i e4
        exact ((State.head_wfMem h).of_ok e4).of_eq (State.queueBad_mem ..)
      · rename_i e4
        exact (State.head_wfMem h).of_stall e4
      · rename_i e4
        exact (State.head_wfMem h).of_trap e4
    · exact h

theorem State.swapOut_wfMem {q : Queue} (h : s.WfMem) : (s.swapOut q).WfMem := State.leaveThread_wfMem _ _ h

theorem State.packetFault_wfMem {p : Packet} {args : List Word} (h : s.WfMem) : (s.packetFault p args).WfMem := by
  unfold State.packetFault
  exact State.WfMem.of_eq (s := s.queueError p.q.part p.q.qid 68 p.q.rdidx p.utag args) (State.queueError_wfMem _ _ _ _ _ _ _ h) (by simp)

/-! ## Launch headers and completion records -/

theorem Res.orNone_wfMem {α : Type} {r : Res α} (h : r.WfMem) : r.orNone.WfMem := by
  unfold Res.orNone
  split <;> exact h

theorem State.kernel_wfMem {via : Via} {part : Nat} {entry : Word} (h : s.WfMem) : (s.kernel via part entry).WfMem := by
  unfold State.kernel
  split
  · exact h
  · split
    · exact h
    · exact Res.wfMem_bind (Res.orNone_wfMem (State.readBytes_wfMem _ _ _ _ _ h)) fun _ _ h2 => h2

theorem State.kernelsAt_wfMem {via : Via} {part : Nat} {xs : List Word} (h : s.WfMem) : (s.kernelsAt via part xs).WfMem := by
  induction xs generalizing s part with
  | nil => exact h
  | cons _ _ ih =>
    unfold State.kernelsAt
    exact Res.wfMem_bind (State.kernel_wfMem h) fun _ _ h1 => Res.wfMem_bind (ih h1) fun _ _ h2 => h2

theorem State.readFront_wfMem {via : Via} {va : Word} {n : Nat} (h : s.WfMem) : (s.readFront via va n).WfMem :=
  Res.wfMem_bind (State.locate_wfMem _ _ _ _ _ h) fun _ _ h1 => Res.WfMem.ite (State.readLocs_wfMem _ _ _ _ h1) h1

theorem State.readResume_wfMem {via : Via} {n : Nat} {a : Word} (h : s.WfMem) : (s.readResume via n a).WfMem := by
  induction n generalizing s a with
  | zero => exact h
  | succ _ ih =>
    unfold State.readResume
    exact Res.wfMem_bind (State.readFront_wfMem h) fun _ _ h1 => Res.wfMem_bind (ih h1) fun _ _ h2 => h2

theorem State.resumeList_wfMem {via : Via} {b : List Byte} (h : s.WfMem) : (s.resumeList via b).WfMem :=
  .ite h (.ite h (Res.wfMem_bind (Res.orNone_wfMem (State.readResume_wfMem h)) fun _ _ h1 => h1))

theorem State.raiseTimeline_wfMem {l : Launch} (h : s.WfMem) : SomeWfMem (s.raiseTimeline l) := by
  unfold State.raiseTimeline
  split
  · exact State.logEntry_wfMem _ _ _ h
  · split
    · rename_i e1
      exact (State.amoMax_wfMem h).of_ok e1
    · rename_i e1
      exact State.logEntry_wfMem _ _ _ ((State.amoMax_wfMem h).of_trap e1)
    · trivial

theorem State.completeLaunch_wfMem {l : Launch} (h : s.WfMem) : (s.completeLaunch l).WfMem := by
  unfold State.completeLaunch
  refine .ite h ?_
  extract_lets s1 s2
  have h1 : s1.WfMem := .ite h (State.launchWrite_wfMem _ _ _ _ _ h)
  have h2 : s2.WfMem := h1.of_eq (by simp [s2])
  refine .ite h2 ?_
  split
  · exact h2
  · rename_i e
    exact ((State.raiseTimeline_wfMem h2).of_some e).of_eq rfl

/-! ## Packets -/

theorem State.inHand_wfMem {p : Packet} {r : Res Unit} (h : r.WfMem) : (State.inHand p r).WfMem := by
  unfold State.inHand
  split <;> exact h

theorem State.onPacket_wfMem {part qid : Nat} {types : List Nat} {f : State → Packet → Res Unit} (h : s.WfMem)
    (hf : ∀ s1 p, s1.WfMem → (f s1 p).WfMem) :
    NextWfMem (s.onPacket part qid types f) := by
  unfold State.onPacket
  refine finishEvent_nextWfMem ?_
  refine Res.wfMem_bind (State.takePacket_wfMem h) fun _ _ h1 => ?_
  split
  · exact Res.WfMem.ite (State.inHand_wfMem (hf _ _ h1)) h1
  · exact h1

theorem execNop_wfMem {part qid : Nat} (h : s.WfMem) : NextWfMem (execNop part qid s) := by
  unfold execNop
  exact State.onPacket_wfMem h fun _ _ h1 => State.endPacket_wfMem h1

theorem execInvalidPacket_wfMem {part qid : Nat} (h : s.WfMem) : NextWfMem (execInvalidPacket part qid s) := by
  unfold execInvalidPacket
  exact State.onPacket_wfMem h fun _ _ h1 => h1

theorem orFault_wfMem {p : Packet} {r : Res Unit} (h : r.WfMem) : (orFault p r).WfMem := by
  unfold orFault
  split
  · exact State.packetFault_wfMem h
  · exact h

theorem State.applyPolicy_wfMem (h : s.WfMem) : s.applyPolicy.WfMem := by
  unfold State.applyPolicy
  refine foldl_wfMem _ (fun _ _ hs1 => ?_) _ _ (foldl_wfMem _ (fun _ _ hst => State.WfMem.ite (State.swapOut_wfMem hst) hst) _ _ h)
  split
  · exact State.WfMem.ite (State.swapIn_wfMem hs1) hs1
  · exact hs1

theorem State.testWait_wfMem {p : Packet} (h : s.WfMem) : (s.testWait p).WfMem := by
  unfold State.testWait
  refine .ite (State.packetFault_wfMem h) ?_
  refine orFault_wfMem ?_
  refine Res.wfMem_bind (State.qpRead_wfMem h) fun _ _ h1 => ?_
  refine .ite (State.endPacket_wfMem (h1.of_eq (by simp))) ?_
  split
  · exact State.queueError_wfMem _ _ _ _ _ _ _ (h1.of_eq (by simp))
  · exact State.WfMem.ite (h1.of_eq (by simp)) (State.applyPolicy_wfMem (h1.of_eq (by simp)))

theorem execWaitTl_wfMem {part qid : Nat} (h : s.WfMem) : NextWfMem (execWaitTl part qid s) := by
  unfold execWaitTl
  exact State.onPacket_wfMem h fun _ _ h1 => State.testWait_wfMem h1

theorem execWaitMem_wfMem {part qid : Nat} (h : s.WfMem) : NextWfMem (execWaitMem part qid s) := by
  unfold execWaitMem
  exact State.onPacket_wfMem h fun _ _ h1 => State.testWait_wfMem h1

theorem execWaitPacketTimeout_wfMem {part qid : Nat} (h : s.WfMem) : NextWfMem (execWaitPacketTimeout part qid s) := by
  unfold execWaitPacketTimeout
  exact State.onPacket_wfMem h fun _ _ h1 => State.testWait_wfMem h1

theorem State.afterPeers_wfMem {party : Party} (h : s.WfMem) : (s.afterPeers party).WfMem := Res.WfMem.ite h h

theorem State.doSignal_wfMem {p : Packet} (h : s.WfMem) : (s.doSignal p).WfMem := by
  unfold State.doSignal
  refine .ite (State.packetFault_wfMem h) ?_
  refine orFault_wfMem ?_
  refine Res.wfMem_bind (State.afterPeers_wfMem h) fun _ _ h0 => ?_
  exact Res.wfMem_bind (State.amoVa_wfMem h0) fun _ _ h1 => State.endPacket_wfMem (State.WfMem.ite (h1.of_eq (by simp)) h1)

theorem execSignal_wfMem {part qid : Nat} (h : s.WfMem) : NextWfMem (execSignal part qid s) := by
  unfold execSignal
  exact State.onPacket_wfMem h fun _ _ h1 => State.doSignal_wfMem h1

theorem State.markReady_wfMem {via : Via} {l : Loc} (h : s.WfMem) : (s.markReady via l).WfMem := by
  unfold State.markReady
  split
  · split
    · exact h
    · exact Res.WfMem.ite h h
  · exact h
  · exact State.storeReady_wfMem _ _ _ h

theorem State.markWord_wfMem {via : Via} {l : Loc} {v : Nat} (h : s.WfMem) : (s.markWord via l v).WfMem := by
  unfold State.markWord
  split
  · exact h.of_eq (by simp)
  · exact State.writeLocs_wfMem _ _ _ _ h

theorem State.markWords_wfMem {via : Via} {a : Word} {tag : Nat} (h : s.WfMem) : (s.markWords via a tag).WfMem := by
  unfold State.markWords
  refine Res.wfMem_bind (State.locate_wfMem _ _ _ _ _ h) fun _ _ h0 => ?_
  refine Res.wfMem_bind (State.locate_wfMem _ _ _ _ _ h0) fun _ _ h1 => ?_
  split
  · refine Res.wfMem_bind (State.markReady_wfMem h1) fun _ _ h2 => ?_
    exact Res.wfMem_bind (State.markReady_wfMem h2) fun _ _ h3 => State.markWord_wfMem (State.markWord_wfMem h3)
  · exact h1

theorem State.doMarker_wfMem {p : Packet} (h : s.WfMem) : (s.doMarker p).WfMem := by
  unfold State.doMarker
  refine .ite (State.packetFault_wfMem h) ?_
  refine orFault_wfMem ?_
  refine Res.wfMem_bind (State.afterPeers_wfMem h) fun _ _ h0 => ?_
  exact .ite (State.endPacket_wfMem h0) (Res.wfMem_bind (State.markWords_wfMem h0) fun _ _ h2 => Res.WfMem.ite (State.endPacket_wfMem h2) h2)

theorem execMarker_wfMem {part qid : Nat} (h : s.WfMem) : NextWfMem (execMarker part qid s) := by
  unfold execMarker
  exact State.onPacket_wfMem h fun _ _ h1 => State.doMarker_wfMem h1

theorem State.doCopy_wfMem {p : Packet} (h : s.WfMem) : (s.doCopy p).WfMem :=
  Res.WfMem.ite (State.packetFault_wfMem h) (Res.WfMem.ite (State.packetFault_wfMem h) (State.endPacket_wfMem h))

theorem execCopy_wfMem {part qid : Nat} (h : s.WfMem) : NextWfMem (execCopy part qid s) := by
  unfold execCopy
  exact State.onPacket_wfMem h fun _ _ h1 => State.doCopy_wfMem h1

theorem hubRun_wfMem {via : Via} {c : HubCopy} {n done : Nat} (h : s.WfMem) : (hubRun via c n done s).WfMem := by
  induction n generalizing done s with
  | zero => exact h
  | succ n ih =>
    unfold hubRun
    split
    · exact h
    · extract_lets d k r
      have hr : r.WfMem := by
        refine Res.wfMem_bind (State.locate_wfMem _ _ _ _ _ h) fun _ _ h1 => Res.wfMem_bind (State.rawReads_wfMem h1) fun _ _ h2 => ?_
        refine Res.wfMem_bind (State.locate_wfMem _ _ _ _ _ h2) fun _ _ h3 => Res.wfMem_bind (State.storeLocs_wfMem _ _ _ _ h3) fun _ _ h4 => ?_
        exact State.WfMem.of_eq (State.WfMem.ite (h4.of_eq (State.poisonLocs_mem ..)) h4) (State.dropAsks_mem ..)
      clear_value r
      split
      · exact ih hr
      · exact hr
      · exact hr

@[simp] theorem State.setHub_mem (s : State) (idx : Nat) (c : Option HubCopy) : (s.setHub idx c).mem = s.mem := by
  unfold State.setHub
  simp

theorem State.hubTimeline_wfMem {idx : Nat} {c : HubCopy} (h : s.WfMem) : (s.hubTimeline idx c).WfMem := by
  unfold State.hubTimeline
  extract_lets last
  have h1 : ((s.afterPeers .hub).bind fun _ s0 => s0.amoMax (s0.viaHub c.part false) c.tl false c.value.toNat).WfMem :=
    Res.wfMem_bind (State.afterPeers_wfMem h) fun _ _ h0 => State.amoMax_wfMem h0
  split
  · rename_i e
    exact (h1.of_ok e).of_eq (State.setHub_mem ..)
  · rename_i e
    exact (State.queueError_wfMem _ _ _ _ _ _ _ (h1.of_trap e)).of_eq (State.setHub_mem ..)
  · rename_i e
    exact (h1.of_stall e).of_eq (State.setHub_mem ..)

theorem execHubCopyDone_wfMem {idx : Nat} (h : s.WfMem) : NextWfMem (execHubCopyDone idx s) := by
  unfold execHubCopyDone
  split
  · exact h
  · refine .ite h ?_
    split
    · rename_i e2
      exact finishEvent_nextWfMem (State.hubTimeline_wfMem ((hubRun_wfMem h).of_finished e2))
    · rename_i e2
      exact finishEvent_nextWfMem (State.hubTimeline_wfMem (State.queueError_wfMem _ _ _ _ _ _ _ ((hubRun_wfMem h).of_failed e2)))
    · rename_i e2
      exact ((hubRun_wfMem h).of_waits e2).of_eq rfl

theorem State.answerHeader_wfMem {p : Packet} {l : Launch} (h : s.WfMem) : (s.answerHeader p l).WfMem := by
  unfold State.answerHeader
  split
  · exact State.endPacket_wfMem h
  · exact State.queueError_wfMem _ _ _ _ _ _ _ (State.endPacket_wfMem (State.completeLaunch_wfMem (State.WfMem.ite h (State.errHeader_wfMem h))))

theorem State.acceptGrid_wfMem {s0 : State} {p : Packet} {b : List Byte} (h : s0.WfMem) : (s0.acceptGrid p b).WfMem :=
  Res.wfMem_bind (State.kernel_wfMem h) fun _ _ h1 => Res.wfMem_bind (State.resumeList_wfMem h1) fun _ _ h2 => State.answerHeader_wfMem h2

theorem State.acceptPipe_wfMem {s0 : State} {p : Packet} {b : List Byte} (h : s0.WfMem) : (s0.acceptPipe p b).WfMem :=
  Res.wfMem_bind (State.kernelsAt_wfMem h) fun _ _ h1 => State.answerHeader_wfMem h1

theorem State.doLaunch_wfMem {accept : State → Packet → List Byte → Res Unit} {p : Packet} (h : s.WfMem)
    (hf : ∀ s1 p b, s1.WfMem → (accept s1 p b).WfMem) :
    (s.doLaunch accept p).WfMem := .ite (State.packetFault_wfMem h) (.ite h (orFault_wfMem (Res.wfMem_bind (State.qpRead_wfMem h) fun _ _ h1 => hf _ _ _ h1)))

theorem execLaunchGrid_wfMem {part qid : Nat} (h : s.WfMem) : NextWfMem (execLaunchGrid part qid s) := by
  unfold execLaunchGrid
  exact State.onPacket_wfMem h fun _ _ h1 => State.doLaunch_wfMem h1 fun _ _ _ h2 => State.acceptGrid_wfMem h2

theorem execLaunchPipe_wfMem {part qid : Nat} (h : s.WfMem) : NextWfMem (execLaunchPipe part qid s) := by
  unfold execLaunchPipe
  exact State.onPacket_wfMem h fun _ _ h1 => State.doLaunch_wfMem h1 fun _ _ _ h2 => State.acceptPipe_wfMem h2

theorem execLaunchGrant_wfMem (h : s.WfMem) : NextWfMem (execLaunchGrant s) := by
  unfold execLaunchGrant
  change State.WfMem _
  dsimp only
  split <;> exact h

@[simp] theorem State.ageQueue_mem (s : State) (q : Queue) : (s.ageQueue q).mem = s.mem := by
  unfold State.ageQueue
  repeat' split
  all_goals rfl

theorem execQuantumEnd_wfMem (h : s.WfMem) : NextWfMem (execQuantumEnd s) := by
  unfold execQuantumEnd
  change State.WfMem _
  refine .ite ?_ h
  extract_lets +onlyGivenNames s1
  have h1 : s1.WfMem := foldl_wfMem _ (fun _ _ hst => hst.of_eq (by simp)) _ _ h
  exact State.applyPolicy_wfMem h1

theorem execQcbConfigRead_wfMem {part qid : Nat} (h : s.WfMem) : NextWfMem (execQcbConfigRead part qid s) := by
  unfold execQcbConfigRead
  change State.WfMem _
  split
  · exact h
  · refine .ite (State.readConfig_wfMem h) ?_
    split
    · exact State.WfMem.ite (State.swapIn_wfMem h) h
    · exact h

theorem execBarrierRelease_wfMem {part qid : Nat} (h : s.WfMem) : NextWfMem (execBarrierRelease part qid s) := by
  unfold execBarrierRelease
  change State.WfMem _
  split
  · exact State.WfMem.ite h h
  · exact h

theorem State.onCtrl_wfMem {part qid bit : Nat} (h : s.WfMem) : NextWfMem (s.onCtrl part qid bit) := by
  unfold State.onCtrl
  change State.WfMem _
  split
  · exact h
  · exact State.WfMem.ite h (State.testCtrl_wfMem h)

theorem State.repairQcb_wfMem {q : Queue} (h : s.WfMem) : (s.repairQcb q).WfMem := by
  unfold State.repairQcb
  split
  · exact State.WfMem.ite (State.frontWrite_wfMem _ _ _ _ _ _ (State.frontWrite_wfMem _ _ _ _ _ _ h)) h
  · exact h

@[simp] theorem State.restartRuntime_mem (s : State) (h : Nat) : (s.restartRuntime h).mem = s.mem := by
  unfold State.restartRuntime
  simp

theorem execRuntimeWatchdog_wfMem (h : s.WfMem) : NextWfMem (execRuntimeWatchdog s) := by
  unfold execRuntimeWatchdog
  change State.WfMem _
  refine .ite h ?_
  extract_lets +onlyGivenNames s1
  have h1 : s1.WfMem := foldl_wfMem _ (fun _ _ hst => State.repairQcb_wfMem hst) _ _ h
  extract_lets +onlyGivenNames s2
  have h2 : s2.WfMem := foldl_wfMem _ (fun _ _ hst => hst.of_eq (by simp)) _ _ h1
  exact h2

theorem State.publish_wfMem {q : Queue} {c : QCfg} {k word0 : Nat} {body : List Byte} (h : s.WfMem) : (s.publish q c k word0 body).WfMem := by
  unfold State.publish
  dsimp only
  split
  · rename_i e1
    have h1 := State.WfMem.of_fst (State.frontWrite_wfMem _ _ _ _ _ _ h) e1
    split
    · rename_i e2
      exact State.WfMem.of_fst (State.frontWrite_wfMem _ _ _ _ _ _ h1) e2
    · rename_i e2
      exact State.queueError_wfMem _ _ _ _ _ _ _ (State.WfMem.of_fst (State.frontWrite_wfMem _ _ _ _ _ _ h1) e2)
  · rename_i e1
    exact State.queueError_wfMem _ _ _ _ _ _ _ (State.WfMem.of_fst (State.frontWrite_wfMem _ _ _ _ _ _ h) e1)

theorem State.post_wfMem {qid word0 : Nat} {body : List Byte} (h : s.WfMem) : (s.post qid word0 body).WfMem := by
  unfold State.post
  dsimp only
  split
  · exact h
  · split
    · exact h
    · split
      · rename_i e3
        have h1 := (State.qpRead_wfMem h).of_ok e3
        refine .ite h1 ?_
        split
        · rename_i e4
          have h2 := (State.amoVa_wfMem h1).of_ok e4
          exact State.WfMem.ite (State.publish_wfMem h2) ((State.publish_wfMem h2).of_eq rfl)
        · rename_i e4
          exact ((State.amoVa_wfMem h1).of_trap e4).of_eq (State.queueBad_mem ..)
        · rename_i e4
          exact (State.amoVa_wfMem h1).of_stall e4
      · rename_i e3
        exact ((State.qpRead_wfMem h).of_trap e3).of_eq (State.queueBad_mem ..)
      · rename_i e3
        exact (State.qpRead_wfMem h).of_stall e3

theorem execLaunch_wfMem {rd rs1 rs2 : Reg} (h : s.WfMem) : NextWfMem (execLaunch rd rs1 rs2 s) :=
  finish_nextWfMem (.ite h (Res.wfMem_bind (State.releaseSys_wfMem h) fun _ _ h1 => Res.wfMem_bind (State.post_wfMem h1) fun _ _ h2 => h2))

theorem execQsignal_wfMem {rd rs1 rs2 : Reg} (h : s.WfMem) : NextWfMem (execQsignal rd rs1 rs2 s) :=
  finish_nextWfMem (.ite h (Res.wfMem_bind (State.releaseSys_wfMem h) fun _ _ h1 => Res.wfMem_bind (State.post_wfMem h1) fun _ _ h2 => h2))

theorem execQpPost_wfMem {hart : Nat} (h : s.WfMem) : NextWfMem (execQpPost hart s) := by
  unfold execQpPost
  extract_lets back
  have hb (r : Host.Outcome State Fault Refusal) (hr : NextWfMem r) : NextWfMem (back r) := by
    cases r with
    | next t => exact State.WfMem.of_eq hr (State.switch_mem ..)
    | fault _ => trivial
    | refused _ => trivial
  have hf := State.fetch_wfMem (h.of_eq (State.switch_mem s hart))
  refine .ite h ?_
  split
  · rename_i e
    exact .ite h (hb _ (execLaunch_wfMem (hf.of_ok e)))
  · rename_i e
    exact .ite h (hb _ (execQsignal_wfMem (hf.of_ok e)))
  · exact h

/-! ## Binding -/

theorem State.claimCore_wfMem {core part : Nat} (h : s.WfMem) : (s.claimCore core part).WfMem := by
  unfold State.claimCore
  refine .ite h ?_
  extract_lets lo
  have h1 : ({ s with mem := s.mem.filter fun c => !(decide (lo ≤ c.1 ∧ c.1 < lo + Config.scratchBytes)) } : State).WfMem := filter_wf _ _ h
  exact h1.of_eq (by simp)

theorem State.bindTask_wfMem {l : Launch} {wg k : Nat} {t : TaskSpec} (h : s.WfMem) : SomeWfMem (s.bindTask l wg k t) := by
  unfold State.bindTask
  dsimp only
  split
  · trivial
  · exact State.WfMem.of_eq (s := s.claimCore (coreOf k) l.part) (State.claimCore_wfMem h) (by simp)

theorem bindAll_wfMem {l : Launch} {wg : Nat} {cs : List Nat} {ts : List TaskSpec} {hs hs' : List Nat} {t : State} (h : s.WfMem)
    (e : bindAll l wg cs ts hs s = some (t, hs')) : t.WfMem := by
  induction cs generalizing ts hs s with
  | nil =>
    cases ts with
    | nil => cases e; exact h
    | cons x ts => cases e
  | cons c cs ih =>
    cases ts with
    | nil => cases e; exact h
    | cons x ts =>
      unfold bindAll at e
      dsimp only at e
      split_ifs at e
      · split at e
        · rename_i e'
          exact ih ((State.bindTask_wfMem h).of_some e') e
        · exact ih h e
      · exact ih h e

theorem State.bindWgScratch_wfMem {l : Launch} {wg : Nat} {hs : List Nat} (h : s.WfMem) : SomeWfMem (s.bindWgScratch l wg hs) := by
  unfold State.bindWgScratch
  split
  · exact h
  · dsimp only
    split
    · trivial
    · exact foldl_wfMem _ (fun _ _ hst => hst.of_eq (by simp)) _ _ h

theorem State.bindGroup_wfMem {l : Launch} {wg : Nat} {ts : List TaskSpec} {cluster : Nat} (h : s.WfMem) : SomeWfMem (s.bindGroup l wg ts cluster) := by
  unfold State.bindGroup
  split
  · trivial
  · rename_i s1 hs e
    have h2 := State.bindWgScratch_wfMem (l := l) (wg := wg) (hs := hs) (bindAll_wfMem h e)
    cases e2 : s1.bindWgScratch l wg hs with
    | none => trivial
    | some s2 => exact (h2.of_some e2).of_eq rfl

theorem State.placeGroup_wfMem {id wg : Nat} {ts : List TaskSpec} (h : s.WfMem) : SomeWfMem (s.placeGroup id wg ts) := by
  unfold State.placeGroup
  split
  · trivial
  · rename_i l _
    cases e : (s.clustersFor l).findSome? fun c => s.bindGroup l wg ts c with
    | none => trivial
    | some t =>
      obtain ⟨c, _, ec⟩ := List.exists_of_findSome?_eq_some e
      exact (State.bindGroup_wfMem h).of_some ec

theorem execWorkgroupBind_wfMem {launch : Nat} (h : s.WfMem) : NextWfMem (execWorkgroupBind launch s) := by
  unfold execWorkgroupBind
  change State.WfMem _
  split
  · exact h
  · refine .ite h (.ite h ?_)
    split
    · rename_i e2
      exact ((State.placeGroup_wfMem h).of_some e2).of_eq rfl
    · exact h

theorem placeRun_wfMem {id : Nat} {l : Launch} {os : List Nat} (h : s.WfMem) : SomeWfMem (placeRun id l os s) := by
  induction os generalizing s with
  | nil => exact h
  | cons o os ih =>
    unfold placeRun
    split
    · exact ih h
    · cases e : s.placeGroup id o (l.group o) with
      | none => trivial
      | some t => exact ih ((State.placeGroup_wfMem h).of_some e)

theorem execRunBind_wfMem {launch : Nat} (h : s.WfMem) : NextWfMem (execRunBind launch s) := by
  unfold execRunBind
  change State.WfMem _
  split
  · exact h
  · refine .ite h ?_
    split
    · exact h
    · split
      · rename_i e3
        exact ((placeRun_wfMem h).of_some e3).of_eq rfl
      · exact h

@[simp] theorem State.releaseStage_mem (s : State) (l : Launch) (st : Nat) : (s.releaseStage l st).mem = s.mem := by
  unfold State.releaseStage
  refine foldl_mem _ (fun _ _ => ?_) _ _
  split
  · simp
  · rfl

theorem execPipelineBind_wfMem {launch : Nat} (h : s.WfMem) : NextWfMem (execPipelineBind launch s) := by
  unfold execPipelineBind
  change State.WfMem _
  split
  · exact h
  · refine .ite h ?_
    split
    · split
      · rename_i e2
        exact ((State.placeGroup_wfMem h).of_some e2).of_eq rfl
      · exact h
    · split
      · exact h.of_eq (by simp)
      · exact h

theorem execLaunchCompletion_wfMem {launch : Nat} (h : s.WfMem) : NextWfMem (execLaunchCompletion launch s) := by
  unfold execLaunchCompletion
  change State.WfMem _
  split
  · exact h
  · extract_lets +onlyGivenNames s1
    have h1 : s1.WfMem := State.WfMem.ite (State.severLaunch_wfMem h) h
    split
    · exact h1
    · exact State.WfMem.ite (State.completeLaunch_wfMem h1) h1

end Sys2Proof.Machine
end

section
/-! SUPPORT. Memory stays canonical: events of code, and the agents. -/

namespace Sys2Proof.Machine

variable {s : State}

/-! ## Events of code -/

theorem State.failPage_wfMem {i page : Nat} {o : Obj} {poison : Bool} (h : s.WfMem) : (s.failPage i page o poison).WfMem :=
  State.logEntry_wfMem _ _ _ (foldl_wfMem _ (fun _ _ hst => State.queueError_wfMem _ _ _ _ _ _ _ hst) _ _ (h.of_eq (by simp)))

theorem execPageHashDone_wfMem {obj page : Nat} (h : s.WfMem) : NextWfMem (execPageHashDone obj page s) := by
  unfold execPageHashDone
  split
  · exact h
  · exact .ite h (NextWfMem.ite (State.failPage_wfMem h) (NextWfMem.ite (h.of_eq (by simp)) (State.failPage_wfMem h)))

theorem State.runtimeStore_wfMem {part pa : Nat} {bytes : List Byte} (h : s.WfMem) : (s.runtimeStore part pa bytes).WfMem := by
  unfold State.runtimeStore
  split
  · exact h
  · exact State.storeLocs_wfMem _ _ _ _ h

theorem State.raiseSaved_wfMem {part gen : Nat} {xs : List Saved} (h : s.WfMem) : (s.raiseSaved part gen xs).WfMem := by
  induction xs generalizing s part gen with
  | nil => exact h
  | cons _ _ ih =>
    unfold State.raiseSaved
    exact .ite (Res.wfMem_bind (State.runtimeStore_wfMem h) fun _ _ h1 => ih h1) (ih h)

theorem execGenerationFree_wfMem {part gen : Nat} (h : s.WfMem) : NextWfMem (execGenerationFree part gen s) := by
  unfold execGenerationFree
  split
  · exact h
  · exact .ite h (finishEvent_nextWfMem (Res.wfMem_bind (State.raiseSaved_wfMem h) fun _ _ h1 => h1.of_eq (by simp)))

@[simp] theorem State.nextGen_mem (s : State) (part : Nat) : (s.nextGen part).1.mem = s.mem := by
  unfold State.nextGen
  split <;> rfl

theorem execRetranslate_wfMem {part obj fn : Nat} {native : Word} (h : s.WfMem) : NextWfMem (execRetranslate part obj fn native s) := by
  unfold execRetranslate
  change State.WfMem _
  split
  · exact h
  · extract_lets _ _ pa
    refine .ite h ?_
    split
    rename_i w s1 e
    have h1 : s1.WfMem := State.WfMem.of_snd (h.of_eq (State.draw_mem s)) e
    have h2 := fun bs => State.runtimeStore_wfMem (part := part) (pa := pa + 8) (bytes := bs) h1
    dsimp only
    split
    · rename_i e2
      have h3 := ((h2 _).of_ok e2).of_eq (State.nextGen_mem _ part)
      exact .ite h3 h3
    · rename_i e2
      exact (h2 _).of_trap e2
    · rename_i e2
      exact (h2 _).of_stall e2

theorem execMakeExecuteOnly_wfMem {obj page : Nat} (h : s.WfMem) : NextWfMem (execMakeExecuteOnly obj page s) := by
  unfold execMakeExecuteOnly
  change State.WfMem _
  split
  · exact h
  · exact State.WfMem.ite h (h.of_eq (by simp))

/-! ## The agents' queues -/

theorem State.blockStore_wfMem {a off : Nat} {v : Word} (h : s.WfMem) : (s.blockStore a off v).WfMem := by
  unfold State.blockStore
  refine .ite ?_ (State.takeTrap_wfMem _ _ _ h)
  split
  · rename_i e1
    exact (State.agentStore_wfMem h).of_done e1
  · exact State.takeTrap_wfMem _ _ _ h

theorem State.frameFault_wfMem {a k : Nat} {b : List Byte} (h : s.WfMem) : (s.frameFault a k b).WfMem := by
  unfold State.frameFault
  refine .ite h ?_
  refine Res.wfMem_bind (State.doneAt_wfMem h) fun _ _ h1 => ?_
  split <;> exact h1

theorem State.readSlot_wfMem {a : Nat} (h : s.WfMem) : (s.readSlot a).WfMem := by
  unfold State.readSlot
  refine .ite h ?_
  split
  · rename_i e1
    exact (State.readBytes_wfMem _ _ _ _ _ h).of_ok e1
  · rename_i e1
    exact (State.readBytes_wfMem _ _ _ _ _ h).of_trap e1
  · rename_i e1
    exact (State.readBytes_wfMem _ _ _ _ _ h).of_stall e1

theorem State.takeSlot_wfMem {a op : Nat} {f : Nat → List Byte → State → Res Unit} (h : s.WfMem)
    (hf : ∀ k b s1, s1.WfMem → (f k b s1).WfMem) :
    (s.takeSlot a op f).WfMem := by
  unfold State.takeSlot
  refine Res.wfMem_bind (State.readSlot_wfMem h) fun _ _ h1 => ?_
  split
  · refine .ite h1 ?_
    refine Res.wfMem_bind (State.frameFault_wfMem h1) fun _ _ h2 => ?_
    split
    · exact hf _ _ _ h2
    · exact State.agentFinish_wfMem h2
  · exact h1

theorem State.doWrites_wfMem {a : Nat} {w : SlotWork} {xs : List (Word × List Byte)} (h : s.WfMem) : (State.doWrites a w xs s).WfMem := by
  induction xs generalizing a w s with
  | nil => exact h
  | cons _ _ ih =>
    unfold State.doWrites
    split
    · rename_i e1
      exact ih ((State.writeBytes_wfMem _ _ _ _ h).of_ok e1)
    · rename_i e1
      exact (State.writeBytes_wfMem _ _ _ _ h).of_trap e1
    · rename_i e1
      exact ((State.writeBytes_wfMem _ _ _ _ h).of_stall e1).of_eq rfl

theorem State.agentWork_wfMem {a : Nat} (h : s.WfMem) : (s.agentWork a).WfMem := by
  unfold State.agentWork
  split
  · exact h
  · exact Res.wfMem_bind (State.doWrites_wfMem h) fun _ _ h1 => State.agentFinish_wfMem h1

theorem State.startWork_wfMem {a : Nat} {w : SlotWork} (h : s.WfMem) : (s.startWork a w).WfMem := State.agentWork_wfMem h

theorem State.agentAdvance_wfMem {a : Nat} (h : s.WfMem) : (s.agentAdvance a).WfMem := State.agentWork_wfMem (State.agentDrain_wfMem h)

/-! ## The rasteriser -/

theorem State.trisFrom_wfMem {a : Nat} {b : List Byte} {n n1 : Nat} (h : s.WfMem) : (State.trisFrom a b n n1 s).WfMem := by
  induction n1 generalizing a b n s with
  | zero => exact h
  | succ _ ih =>
    unfold State.trisFrom
    split
    · rename_i e1
      have h1 := (State.readBytes_wfMem _ _ _ _ _ h).of_ok e1
      exact Res.wfMem_bind (ih h1) fun _ _ h2 => h2
    · rename_i e1
      exact (State.readBytes_wfMem _ _ _ _ _ h).of_trap e1
    · rename_i e1
      exact (State.readBytes_wfMem _ _ _ _ _ h).of_stall e1

theorem execTris_wfMem {agent : Nat} (h : s.WfMem) : NextWfMem (execTris agent s) := by
  unfold execTris
  refine finishEvent_nextWfMem ?_
  refine Res.wfMem_bind (State.agentAdvance_wfMem h) fun _ _ h1 => ?_
  refine .ite h1 ?_
  refine State.takeSlot_wfMem h1 fun _ _ _ h2 => ?_
  exact .ite (State.agentFinish_wfMem h2) (Res.wfMem_bind (State.trisFrom_wfMem h2) fun _ _ h3 => State.startWork_wfMem h3)

theorem State.pathFrom_wfMem {a : Nat} {sa : Word} {n n1 : Nat} {a1 : Option PathSt} (h : s.WfMem) : (State.pathFrom a sa n n1 a1 s).WfMem := by
  induction n1 generalizing a sa n a1 s with
  | zero =>
    unfold State.pathFrom
    repeat' split
    all_goals exact h
  | succ _ ih =>
    unfold State.pathFrom
    split
    · rename_i e1
      have h1 := (State.readBytes_wfMem _ _ _ _ _ h).of_ok e1
      split
      · exact ih h1
      · exact h1
    · rename_i e1
      exact (State.readBytes_wfMem _ _ _ _ _ h).of_trap e1
    · rename_i e1
      exact (State.readBytes_wfMem _ _ _ _ _ h).of_stall e1

theorem execPath_wfMem {agent : Nat} (h : s.WfMem) : NextWfMem (execPath agent s) := by
  unfold execPath
  refine finishEvent_nextWfMem ?_
  refine Res.wfMem_bind (State.agentAdvance_wfMem h) fun _ _ h1 => ?_
  refine .ite h1 ?_
  refine State.takeSlot_wfMem h1 fun _ _ _ h2 => ?_
  refine .ite (State.agentFinish_wfMem h2) ?_
  refine Res.wfMem_bind (State.pathFrom_wfMem h2) fun _ _ h3 => ?_
  split
  · exact State.startWork_wfMem h3
  · exact State.agentFinish_wfMem h3

/-! ## The mesh distributor -/

theorem execDraw_wfMem {agent : Nat} (h : s.WfMem) : NextWfMem (execDraw agent s) := by
  unfold execDraw
  refine finishEvent_nextWfMem ?_
  refine Res.wfMem_bind (State.agentAdvance_wfMem h) fun _ _ h1 => ?_
  refine .ite h1 ?_
  refine State.takeSlot_wfMem h1 fun _ _ _ h2 => ?_
  refine .ite (State.agentFinish_wfMem h2) ?_
  dsimp only
  split
  · rename_i e1
    have h3 := (State.readBytes_wfMem _ _ _ _ _ h2).of_ok e1
    exact Res.WfMem.ite (State.agentFinish_wfMem h3) h3
  · rename_i e1
    exact State.agentFinish_wfMem ((State.readBytes_wfMem _ _ _ _ _ h2).of_trap e1)
  · rename_i e1
    exact (State.readBytes_wfMem _ _ _ _ _ h2).of_stall e1

theorem State.endDraw_wfMem {a : Nat} {d : DrawSt} {result : Nat} {addr : Word} (h : s.WfMem) : (s.endDraw a d result addr).WfMem := State.agentFinish_wfMem h

theorem State.streamBits_wfMem {via : Via} {base : Word} {pos n : Nat} (h : s.WfMem) : (s.streamBits via base pos n).WfMem :=
  Res.wfMem_bind (State.readBytes_wfMem _ _ _ _ _ h) fun _ _ h1 => h1

theorem State.meshVerts_wfMem {via : Via} {base : Word} {qb n n1 : Nat} {a : Int × Int × Int} (h : s.WfMem) : (State.meshVerts via base qb n n1 a s).WfMem := by
  induction n generalizing base qb n1 a s with
  | zero => exact h
  | succ _ ih =>
    unfold State.meshVerts
    refine Res.wfMem_bind (State.streamBits_wfMem h) fun _ _ h1 => ?_
    refine Res.wfMem_bind (State.streamBits_wfMem h1) fun _ _ h2 => ?_
    exact Res.wfMem_bind (State.streamBits_wfMem h2) fun _ _ h3 => .ite (Res.wfMem_bind (ih h3) fun _ _ h4 => h4) h3

theorem State.meshTris_wfMem {via : Via} {base : Word} {nv n n1 : Nat} {a : Option (Nat × Nat × Nat)} {n2 : Nat} (h : s.WfMem) :
    (State.meshTris via base nv n n1 a n2 s).WfMem := by
  induction n generalizing base nv n1 a n2 s with
  | zero => exact h
  | succ _ ih =>
    unfold State.meshTris
    refine Res.wfMem_bind (State.streamBits_wfMem h) fun _ _ h1 => ?_
    dsimp only
    refine Res.wfMem_bind (Res.WfMem.ite h1 (State.streamBits_wfMem h1)) fun _ _ h2 => ?_
    split
    · exact h2
    · exact Res.wfMem_bind (ih h2) fun _ _ h3 => h3

theorem State.decodeMeshlet_wfMem {via : Via} {base : Word} (h : s.WfMem) : (s.decodeMeshlet via base).WfMem := by
  unfold State.decodeMeshlet
  refine Res.wfMem_bind (State.readBytes_wfMem _ _ _ _ _ h) fun _ _ h1 => ?_
  refine .ite h1 ?_
  refine Res.wfMem_bind (State.streamBits_wfMem h1) fun _ _ h2 => ?_
  refine Res.wfMem_bind (State.streamBits_wfMem h2) fun _ _ h3 => ?_
  refine Res.wfMem_bind (State.streamBits_wfMem h3) fun _ _ h4 => ?_
  exact Res.wfMem_bind (State.meshVerts_wfMem h4) fun _ _ h5 => .ite h5 (Res.wfMem_bind (State.meshTris_wfMem h5) fun _ _ h6 => Res.WfMem.ite h6 h6)

@[simp] theorem State.bufferWrites_mem (s : State) (buf : Word) (num : Nat) (m : Meshlet) (h : List Byte) : (s.bufferWrites buf num m h).2.mem = s.mem := by
  unfold State.bufferWrites
  split
  · rfl
  · simp

theorem State.writeAll_wfMem {via : Via} {ws : List (Word × List Byte)} (h : s.WfMem) : (s.writeAll via ws).WfMem := by
  unfold State.writeAll
  extract_lets rods
  have hr : rods.1.WfMem := by
    refine List.foldlRecOn (motive := fun p : State × Bool => p.1.WfMem) _ _ h fun p hp w _ => ?_
    have hl := State.locate_wfMem p.1 via w.1 w.2.length .store hp
    dsimp only
    split
    · rename_i e
      exact (hl.of_ok e).of_eq (State.takeRods_mem ..)
    · exact hp
  exact .ite hr (List.foldlRecOn (motive := Res.WfMem) _ _ hr fun r hp w _ => Res.wfMem_bind hp fun _ _ h1 => State.writeBytes_wfMem _ _ _ _ h1)

theorem State.sendMeshlet_wfMem {a : Nat} {d : DrawSt} (h : s.WfMem) : (s.sendMeshlet a d).WfMem := by
  unfold State.sendMeshlet
  refine .ite h ?_
  refine Res.wfMem_bind (State.readBytes_wfMem _ _ _ _ _ h) fun _ _ h1 => ?_
  exact Res.wfMem_bind (State.decodeMeshlet_wfMem h1) fun _ _ h2 => Res.wfMem_bind (State.writeAll_wfMem (h2.of_eq (by simp))) fun _ _ h3 => h3

theorem State.pushClose_wfMem {a : Nat} {d : DrawSt} {run : Nat} (h : s.WfMem) : (s.pushClose a d run).WfMem := by
  unfold State.pushClose
  extract_lets us
  split
  · exact h
  · refine .ite h (Res.wfMem_bind (State.writeAll_wfMem h) fun _ s1 h1 => ?_)
    extract_lets s2
    have h2 : s2.WfMem := by
      refine foldl_wfMem _ (fun st u hst => ?_) _ _ h1
      have hn := State.agentNotify_wfMem (a := u) (k := (st.agent u).qtail) (s := st.modAgent u fun g => { g with qtail := (st.agent u).qtail + 1 }) hst
      dsimp only
      split
      · rename_i e
        exact hn.of_done e
      · exact hst
    exact h2.of_eq rfl

theorem State.drawStep_wfMem {a : Nat} {d : DrawSt} (h : s.WfMem) : (s.drawStep a d).WfMem :=
  Res.WfMem.ite (State.endDraw_wfMem h) (Res.WfMem.ite (State.pushClose_wfMem h) (State.sendMeshlet_wfMem h))

theorem execMeshletDispatch_wfMem {agent : Nat} (h : s.WfMem) : NextWfMem (execMeshletDispatch agent s) := by
  unfold execMeshletDispatch
  refine finishEvent_nextWfMem ?_
  refine Res.wfMem_bind (State.agentAdvance_wfMem h) fun _ _ h1 => ?_
  split
  · exact h1
  · split
    · rename_i e2
      exact State.endDraw_wfMem ((State.drawStep_wfMem h1).of_trap e2)
    · exact State.drawStep_wfMem h1

/-! ## The blend units -/

theorem State.readPixel_wfMem {a : Nat} {new : List (Nat × Byte)} {va : Word} (h : s.WfMem) : (s.readPixel a new va).WfMem :=
  Res.wfMem_bind (State.locate_wfMem _ _ _ _ _ h) fun _ _ h1 => .ite h1 (Res.wfMem_bind (State.readBytes_wfMem _ _ _ _ _ h1) fun _ _ h2 => h2)

theorem State.blendAll_wfMem {a mode : Nat} {xs : List Pixel} {xs1 : List (Nat × Byte)} {xs2 : List (Word × List Byte)} (h : s.WfMem) :
    (State.blendAll a mode xs xs1 xs2 s).WfMem := by
  induction xs generalizing a mode xs1 xs2 s with
  | nil => exact h
  | cons _ _ ih =>
    unfold State.blendAll
    dsimp only
    refine .ite (ih h) ?_
    split
    · rename_i e1
      exact ih ((State.readPixel_wfMem h).of_ok e1)
    · rename_i e1
      exact (State.readPixel_wfMem h).of_trap e1
    · rename_i e1
      exact (State.readPixel_wfMem h).of_stall e1

@[simp] theorem State.leaveWindow_mem (s : State) (a k : Nat) : (s.leaveWindow a k).mem = s.mem := rfl

theorem State.applySlot_wfMem {a k : Nat} {b : List Byte} (h : s.WfMem) : (s.applySlot a k b).WfMem := by
  unfold State.applySlot
  extract_lets go
  have hgo (ps : List Pixel) (s1 : State) (h1 : s1.WfMem) : (go ps s1).WfMem :=
    Res.wfMem_bind (State.blendAll_wfMem h1) fun _ _ h2 => State.startWork_wfMem (h2.of_eq (State.leaveWindow_mem ..))
  clear_value go
  generalize (if fld b 0x20 1 % 2 = 1 then 1024 else 2048) = n
  generalize fldW b 0x10 = va
  refine .ite (hgo _ _ h) ?_
  have hr := State.readBytes_wfMem s (s.viaAgent a) va n false h
  split
  · rename_i e
    exact hgo _ _ (hr.of_ok e)
  · rename_i e
    exact State.agentFinish_wfMem ((hr.of_trap e).of_eq (State.leaveWindow_mem ..))
  · rename_i e
    exact hr.of_stall e

theorem State.blendAdvance_wfMem {a n : Nat} (h : s.WfMem) : (State.blendAdvance a n s).WfMem := by
  induction n generalizing a s with
  | zero =>
    unfold State.blendAdvance
    exact State.agentAdvance_wfMem h
  | succ _ ih =>
    unfold State.blendAdvance
    refine Res.wfMem_bind (State.agentAdvance_wfMem h) fun _ _ h1 => ?_
    split
    · exact h1
    · exact Res.wfMem_bind (State.applySlot_wfMem h1) fun _ _ h2 => ih h2

theorem State.blendReady_wfMem {a : Nat} (h : s.WfMem) : (s.blendReady a).WfMem := State.blendAdvance_wfMem h

theorem State.orderSlot_wfMem {a k : Nat} {b : List Byte} (h : s.WfMem) : (s.orderSlot a k b).WfMem := by
  unfold State.orderSlot
  dsimp only
  split
  · exact State.agentFinish_wfMem h
  · exact Res.WfMem.ite (State.applySlot_wfMem h) (Res.WfMem.ite h (State.agentFinish_wfMem h))

theorem execFrag_wfMem {agent : Nat} (h : s.WfMem) : NextWfMem (execFrag agent s) := by
  unfold execFrag
  refine finishEvent_nextWfMem ?_
  exact Res.wfMem_bind (State.blendReady_wfMem h) fun _ _ h1 => .ite h1 (State.takeSlot_wfMem h1 fun _ _ _ h2 => State.orderSlot_wfMem h2)

theorem execCover_wfMem {agent : Nat} (h : s.WfMem) : NextWfMem (execCover agent s) := by
  unfold execCover
  refine finishEvent_nextWfMem ?_
  exact Res.wfMem_bind (State.blendReady_wfMem h) fun _ _ h1 => .ite h1 (State.takeSlot_wfMem h1 fun _ _ _ h2 => State.orderSlot_wfMem h2)

theorem execClose_wfMem {agent : Nat} (h : s.WfMem) : NextWfMem (execClose agent s) := by
  unfold execClose
  refine finishEvent_nextWfMem ?_
  refine Res.wfMem_bind (State.blendReady_wfMem h) fun _ _ h1 => ?_
  exact .ite h1 (State.takeSlot_wfMem h1 fun _ _ _ h2 => .ite (State.agentFinish_wfMem h2) (State.blendReady_wfMem (State.agentFinish_wfMem h2)))

theorem execAgentNop_wfMem {agent : Nat} (h : s.WfMem) : NextWfMem (execAgentNop agent s) := by
  unfold execAgentNop
  refine finishEvent_nextWfMem ?_
  refine Res.wfMem_bind (Res.WfMem.ite (State.blendReady_wfMem h) (State.agentAdvance_wfMem h)) fun _ _ h1 => ?_
  refine Res.wfMem_bind (State.readSlot_wfMem h1) fun _ _ h2 => ?_
  split
  · exact h2
  · exact State.agentFinish_wfMem h2
  · exact .ite (Res.wfMem_bind (State.frameFault_wfMem h2) fun _ _ h3 => State.agentFinish_wfMem h3) h2

end Sys2Proof.Machine
end

section
/-! SUPPORT. Memory stays canonical: the host port, pairs and rerouting. -/

namespace Sys2Proof.Machine

variable {s : State}

/-! ## FHT at the device -/

@[simp] theorem State.rootAnswer_mem (s : State) (part status addr : Nat) : (s.rootAnswer part status addr).mem = s.mem := by
  unfold State.rootAnswer
  simp

@[simp] theorem State.nextCmd_mem (part n : Nat) (s : State) : (State.nextCmd part n s).mem = s.mem := by
  induction n generalizing part s with
  | zero => rfl
  | succ _ ih =>
    unfold State.nextCmd
    split
    · split
      · rfl
      · exact (ih ..).trans (by simp)
    · rfl

@[simp] theorem State.takeCmd_mem (s : State) (part code : Nat) : (s.takeCmd part code).mem = s.mem := by
  unfold State.takeCmd
  dsimp only
  split <;> simp

@[simp] theorem State.consume_mem (s : State) (k : Nat × Nat) : (s.consume k).mem = s.mem := rfl

@[simp] theorem State.seqDrop_mem (s : State) (part flow : Nat) (ce : Bool) : (s.seqDrop part flow ce).mem = s.mem := rfl

@[simp] theorem State.ackOut_mem (s : State) (f : Flow) (n : Nat) : (s.ackOut f n).mem = s.mem := rfl

@[simp] theorem State.takeAck_mem (s : State) (part flow ack : Nat) (ece : Bool) : (s.takeAck part flow ack ece).mem = s.mem := by
  unfold State.takeAck
  extract_lets f n f1
  clear_value n f1
  split
  · rfl
  · rw [State.sendLater_mem, State.setFlow_mem, State.ackOut_mem]

@[simp] theorem State.dropFrame_mem (s : State) : s.dropFrame.mem = s.mem := rfl

theorem State.takeAck_wfMem {part flow ack : Nat} {ece : Bool} (h : s.WfMem) : (s.takeAck part flow ack ece).WfMem :=
  h.of_eq (State.takeAck_mem ..)

theorem State.fhtTake_wfMem {m : FhtMsg} {mine : Bool} {f : Nat → State → Res Unit} (h : s.WfMem)
    (hf : ∀ part s1, s1.WfMem → (f part s1).WfMem) : (s.fhtTake m mine f).WfMem := by
  unfold State.fhtTake
  split
  · exact h.of_eq (State.dropFrame_mem s)
  · rename_i part _
    have h1 := State.takeAck_wfMem (part := part) (flow := flowKey m) (ack := m.ack) (ece := m.ece) h
    generalize s.takeAck part (flowKey m) m.ack m.ece = s1 at h1 ⊢
    exact .ite (h.of_eq (State.dropFrame_mem s)) (.ite h (.ite (h1.of_eq (State.seqDrop_mem ..)) (hf _ _ h1)))

@[simp] theorem State.answer_mem (s : State) (part : Nat) (m : FhtMsg) (nak : Bool) (arg : Word) (payload : List Byte) :
    (s.answer part m nak arg payload).mem = s.mem := by
  unfold State.answer
  simp

@[simp] theorem State.nak_mem (s : State) (part : Nat) (m : FhtMsg) : (s.nak part m).mem = s.mem := by
  unfold State.nak
  simp

theorem State.hubLocs_wfMem {part : Nat} {m : FhtMsg} {n : Nat} {ak : AKind} (h : s.WfMem) : (s.hubLocs part m n ak).WfMem :=
  Res.wfMem_bind (State.locate_wfMem _ _ _ _ _ h) fun _ _ h1 => Res.WfMem.ite h1 h1

theorem orNak_wfMem {part : Nat} {m : FhtMsg} {r : Res Unit} (h : r.WfMem) : (orNak part m r).WfMem := by
  unfold orNak
  split
  · exact h.of_eq (by simp)
  · exact h

@[simp] theorem State.wrote_mem (s : State) (part : Nat) (m : FhtMsg) : (s.wrote part m).mem = s.mem := rfl

theorem execFhtWrite_wfMem {msg : FhtMsg} (h : s.WfMem) : NextWfMem (execFhtWrite msg s) := by
  unfold execFhtWrite
  split
  · exact h
  · refine finishEvent_nextWfMem ?_
    refine State.fhtTake_wfMem h fun _ _ h1 => ?_
    refine .ite (Res.WfMem.ite (h1.of_eq (by simp)) (h1.of_eq (by simp))) ?_
    exact orNak_wfMem (Res.wfMem_bind (State.hubLocs_wfMem h1) fun _ _ h2 => Res.wfMem_bind (State.storeLocs_wfMem _ _ _ _ h2) fun _ _ h3 => h3)

theorem execFhtRead_wfMem {msg : FhtMsg} (h : s.WfMem) : NextWfMem (execFhtRead msg s) := by
  unfold execFhtRead
  refine finishEvent_nextWfMem ?_
  refine State.fhtTake_wfMem h fun _ _ h1 => ?_
  refine .ite (h1.of_eq (by simp)) (.ite (h1.of_eq (by simp)) ?_)
  refine orNak_wfMem ?_
  exact Res.wfMem_bind (State.hubLocs_wfMem h1) fun _ _ h2 => Res.wfMem_bind (State.readLocs_wfMem _ _ _ _ h2) fun _ _ h3 => h3.of_eq (by simp)

theorem State.notifyWord_wfMem {part : Nat} {m : FhtMsg} (h : s.WfMem) : (s.notifyWord part m).WfMem := by
  unfold State.notifyWord
  refine .ite h ?_
  refine Res.wfMem_bind (State.hubLocs_wfMem h) fun _ _ h1 => ?_
  split <;> exact h1

@[simp] theorem State.notifyRoot_mem (s : State) (part : Nat) (m : FhtMsg) (f : Nat → Nat) (old : Bool) : (s.notifyRoot part m f old).mem = s.mem := by
  unfold State.notifyRoot
  split <;> simp

theorem execFhtNotifyStore_wfMem {msg : FhtMsg} (h : s.WfMem) : NextWfMem (execFhtNotifyStore msg s) := by
  unfold execFhtNotifyStore
  refine finishEvent_nextWfMem ?_
  refine State.fhtTake_wfMem h fun _ _ h1 => ?_
  refine .ite (h1.of_eq (by simp)) (.ite (State.WfMem.ite (h1.of_eq (by simp)) (h1.of_eq (by simp))) ?_)
  refine orNak_wfMem ?_
  exact Res.wfMem_bind (State.notifyWord_wfMem h1) fun _ _ h2 => Res.wfMem_bind (State.storeLocs_wfMem _ _ _ _ h2) fun _ _ h3 => h3.of_eq (by simp)

theorem execFhtNotifyFetchAdd_wfMem {msg : FhtMsg} (h : s.WfMem) : NextWfMem (execFhtNotifyFetchAdd msg s) := by
  unfold execFhtNotifyFetchAdd
  refine finishEvent_nextWfMem ?_
  refine State.fhtTake_wfMem h fun _ _ h1 => ?_
  refine .ite (h1.of_eq (by simp)) ?_
  refine orNak_wfMem ?_
  refine Res.wfMem_bind (State.notifyWord_wfMem h1) fun _ _ h2 => ?_
  split
  · rename_i e1
    exact State.WfMem.of_snd (State.atHome_wfMem _ _ _ _ h2) e1
  · rename_i e1
    have h3 := State.WfMem.of_snd (State.atHome_wfMem _ _ _ _ h2) e1
    exact (State.rmwDone_wfMem _ _ _ _ h3).of_eq (State.answer_mem ..)

theorem State.hubRed_wfMem {s0 : State} {part : Nat} {l : Loc} {tag v : Nat} (h : s0.WfMem) : (s0.hubRed part l tag v).WfMem := by
  unfold State.hubRed
  extract_lets n s1 via same discard
  have h1 : s1.WfMem := State.bringLines_wfMem _ _ _ h
  have hd (st : State) (hst : st.WfMem) : (discard st).WfMem := State.logEntry_wfMem _ _ _ hst
  clear_value discard
  refine .ite (hd _ h1) (.ite (State.putBytes_wfMem _ _ _ _ h1) ?_)
  split
  · rename_i e
    exact hd _ (State.WfMem.of_snd (State.atHome_wfMem _ _ _ _ h1) e)
  · rename_i e
    exact State.rmwDone_wfMem _ _ _ _ (State.WfMem.of_snd (State.atHome_wfMem _ _ _ _ h1) e)

theorem execFhtNotifyRed_wfMem {tag : BitVec 4} {msg : FhtMsg} (h : s.WfMem) : NextWfMem (execFhtNotifyRed tag msg s) := by
  unfold execFhtNotifyRed
  refine finishEvent_nextWfMem ?_
  refine State.fhtTake_wfMem h fun _ _ h1 => ?_
  refine .ite (h1.of_eq (by simp)) (.ite (h1.of_eq (by simp)) ?_)
  exact orNak_wfMem (Res.wfMem_bind (State.notifyWord_wfMem h1) fun _ _ h2 => (State.hubRed_wfMem h2).of_eq (State.answer_mem ..))

@[simp] theorem State.losePeer_mem (s : State) (part flow : Nat) : (s.losePeer part flow).mem = s.mem := rfl

theorem State.loseFlow_wfMem {f : Flow} (h : s.WfMem) : (s.loseFlow f).WfMem := by
  unfold State.loseFlow
  have h1 : (s.freeBytes 16).2.WfMem := h.of_eq (State.freeBytes_mem ..)
  generalize s.freeBytes 16 = p at h1 ⊢
  obtain ⟨free, s1⟩ := p
  dsimp -zeta only
  extract_lets e port _ s2 s3 _
  have h3 : s3.mem = s1.mem := by
    unfold s3
    split
    · exact State.losePeer_mem ..
    · rfl
  clear_value s3 port e
  exact State.logEntry_wfMem _ _ _ ((State.WfMem.of_eq h1 h3).of_eq (State.setFlow_mem ..))

@[simp] theorem State.askAnswered_mem (s : State) (id : Nat) (payload : List Byte) (lost : Bool) : (s.askAnswered id payload lost).mem = s.mem := rfl

/-! ## The MX conversions -/

@[simp] theorem State.putMx_mem (s : State) (a : VAcc) : (s.putMx a).mem = s.mem := by
  unfold State.putMx
  split <;> simp

theorem doNarrow_wfMem {n : MxFmt} {vm : Bool} {vd vs2 vs1 : Reg} {ord : Nat} (h : s.WfMem) : (doNarrow s n vm vd vs2 vs1 ord).WfMem :=
  State.vguard_wfMem h (h.of_eq (by simp))

theorem doWiden_wfMem {n : MxFmt} {vm : Bool} {vd vs2 vs1 : Reg} {ord : Nat} (h : s.WfMem) : (doWiden s n vm vd vs2 vs1 ord).WfMem :=
  State.vguard_wfMem h (h.of_eq (by simp))

theorem doVmxscale_wfMem {vm : Bool} {vd vs2 : Reg} {fmt : BitVec 5} (h : s.WfMem) : (doVmxscale s vm vd vs2 fmt).WfMem :=
  State.vguard_wfMem h (h.of_eq (by simp))

theorem doVfcvtE2_wfMem {vm : Bool} {vd vs2 vs1 : Reg} (h : s.WfMem) : (doVfcvtE2 s vm vd vs2 vs1).WfMem := doNarrow_wfMem h

theorem doVfcvtE4_wfMem {vm : Bool} {vd vs2 vs1 : Reg} (h : s.WfMem) : (doVfcvtE4 s vm vd vs2 vs1).WfMem := doNarrow_wfMem h

theorem doVfcvtE5_wfMem {vm : Bool} {vd vs2 vs1 : Reg} (h : s.WfMem) : (doVfcvtE5 s vm vd vs2 vs1).WfMem := doNarrow_wfMem h

theorem doVfwcvtE2_wfMem {vm : Bool} {vd vs2 vs1 : Reg} (h : s.WfMem) : (doVfwcvtE2 s vm vd vs2 vs1).WfMem := doWiden_wfMem h

theorem doVfwcvtE4_wfMem {vm : Bool} {vd vs2 vs1 : Reg} (h : s.WfMem) : (doVfwcvtE4 s vm vd vs2 vs1).WfMem := doWiden_wfMem h

theorem doVfwcvtE5_wfMem {vm : Bool} {vd vs2 vs1 : Reg} (h : s.WfMem) : (doVfwcvtE5 s vm vd vs2 vs1).WfMem := doWiden_wfMem h

/-! ## The pair word -/

theorem doScalar_wfMem {i : Instr} (h : s.WfMem) : (doScalar i s).WfMem := by
  unfold doScalar
  split
  · exact doAlu_wfMem h
  · exact doAluImm_wfMem h
  · exact doLui_wfMem h
  · exact doLoad_wfMem h
  · exact doStore_wfMem h
  · exact h
  · exact State.illegal_wfMem h

theorem doVector_wfMem {i : Instr} (h : s.WfMem) : (doVector i s).WfMem := by
  cases i
  case vectorArithmetic => exact doVArith_wfMem h
  case vectorLoad => exact doVLoad_wfMem h
  case vectorStore => exact doVStore_wfMem h
  case vmpush => exact doVmpush_wfMem h
  case vmelse => exact doVmelse_wfMem h
  case vmpop => exact doVmpop_wfMem h
  case vmdepth => exact doVmdepth_wfMem h
  case vidxc => exact doVidxc_wfMem h
  case vfcvtE2 => exact doVfcvtE2_wfMem h
  case vfcvtE4 => exact doVfcvtE4_wfMem h
  case vfcvtE5 => exact doVfcvtE5_wfMem h
  case vmxscale => exact doVmxscale_wfMem h
  case vfwcvtE2 => exact doVfwcvtE2_wfMem h
  case vfwcvtE4 => exact doVfwcvtE4_wfMem h
  case vfwcvtE5 => exact doVfwcvtE5_wfMem h
  case vwmulxE8 => exact doVwmulx_wfMem h
  case vwmulxE16 => exact doVwmulx_wfMem h
  case vwmulxE32 => exact doVwmulx_wfMem h
  case vwmulxE64 => exact doVwmulx_wfMem h
  case vle8Inv => exact doVleInv_wfMem h
  case vle16Inv => exact doVleInv_wfMem h
  case vle32Inv => exact doVleInv_wfMem h
  case vle64Inv => exact doVleInv_wfMem h
  case vsmx => exact doVsmx_wfMem h
  case spop => exact doSpop_wfMem h
  case vwait => exact doVwait_wfMem h
  case msendv => exact doMsendv_wfMem h
  case edge => exact doEdge_wfMem h
  case texdec => exact doTexdec_wfMem h
  case texw => exact doTexw_wfMem h
  case texS => exact doTexS_wfMem h
  case texSa => exact doTexSa_wfMem h
  case boxt => exact doBoxt_wfMem h
  case trit => exact doTrit_wfMem h
  all_goals exact State.illegal_wfMem h

theorem doPair_wfMem {a b : Instr} (h : s.WfMem) : (doPair s a b).WfMem := by
  unfold doPair
  split
  · exact h
  · rename_i e
    exact (doScalar_wfMem h).of_stall e
  · split
    · exact h
    · rename_i e
      exact (doVector_wfMem h).of_stall e
    · rename_i s1 e
      have h1 (g : Seq → Seq) : (s1.upd g).WfMem := State.WfMem.of_eq ((doVector_wfMem h).of_ok e) rfl
      have h2 := doScalar_wfMem (i := a) (h1 fun q => { q with x := s.seq.x, f := s.seq.f })
      generalize doScalar a (s1.upd fun q => { q with x := s.seq.x, f := s.seq.f }) = r at h2 ⊢
      cases r with
      | ok _ s2 =>
        change State.WfMem (s2.upd _)
        exact State.WfMem.of_eq (s := s2) h2 (State.upd_mem s2 _)
      | trap c v s2 => exact h
      | stall w s2 => exact h

theorem execPair_wfMem {g : Reg} {sense : Bool} {scalar vector : Instr} (h : s.WfMem) : NextWfMem (execPair g sense scalar vector s) := by
  unfold execPair
  split
  · exact finish_nextWfMem (State.illegal_wfMem h)
  · exact NextWfMem.ite (finish_nextWfMem h) (finishV_nextWfMem (doPair_wfMem h))

/-! ## Rerouting -/

theorem accessOutcome_nextWfMem {s0 : State} {i : Instr} (h0 : s0.WfMem) (h : s.WfMem) : NextWfMem ((accessOutcome i s).getD (.next s0)) := by
  cases i
  case vle8Inv | vle16Inv | vle32Inv | vle64Inv => exact finishV_nextWfMem (doVleInv_wfMem h)
  case waitGe | waitEq => exact finish_nextWfMem (waitWord_wfMem h)
  case scalarLoad => exact finish_nextWfMem (doLoad_wfMem h)
  case scalarStore => exact finish_nextWfMem (doStore_wfMem h)
  case standardAmo => exact execStandardAmo_wfMem h
  case amoScoped => exact execAmoScoped_wfMem h
  case ldAq => exact execLdAq_wfMem h
  case stRl => exact execStRl_wfMem h
  case ldInv => exact finish_nextWfMem (Res.wfMem_bind (State.loadAt_wfMem h) fun _ _ h1 => h1)
  case red => exact execRed_wfMem h
  case bupd => exact execBupd_wfMem h
  case breckon => exact execBreckon_wfMem h
  case rodAcq => exact execRodAcq_wfMem h
  case bankArm => exact execBankArm_wfMem h
  case bankDisarm => exact execBankDisarm_wfMem h
  case cp2d => exact execCp2d_wfMem h
  case cpMma => exact execCpMma_wfMem h
  case cpChain => exact execCpChain_wfMem h
  case scfg => exact execScfg_wfMem h
  case msend => exact execMsend_wfMem h
  case mreply => exact execMreply_wfMem h
  case msendv => exact finishV_nextWfMem (doMsendv_wfMem h)
  case aqpush => exact execAqpush_wfMem h
  case chsend => exact execChsend_wfMem h
  case vmpush => exact finishV_nextWfMem (doVmpush_wfMem h)
  case vmelse => exact finishV_nextWfMem (doVmelse_wfMem h)
  case vmpop => exact finishV_nextWfMem (doVmpop_wfMem h)
  case vectorLoad => exact finishV_nextWfMem (doVLoad_wfMem h)
  case vectorStore => exact finishV_nextWfMem (doVStore_wfMem h)
  case vsmx => exact finishV_nextWfMem (doVsmx_wfMem h)
  case vwait => exact finishV_nextWfMem (doVwait_wfMem h)
  case texw => exact finishV_nextWfMem (doTexw_wfMem h)
  case texS => exact finishV_nextWfMem (doTexS_wfMem h)
  case texSa => exact finishV_nextWfMem (doTexSa_wfMem h)
  case boxt => exact finishV_nextWfMem (doBoxt_wfMem h)
  case trit => exact finishV_nextWfMem (doTrit_wfMem h)
  case edge => exact finishV_nextWfMem (doEdge_wfMem h)
  case pair => exact execPair_wfMem h
  case ctxSave => exact execCtxSave_wfMem h
  case ctxLoad => exact execCtxLoad_wfMem h
  all_goals exact h0

theorem State.tryLose_wfMem {b k n : Nat} {f : State → Host.Outcome State Fault Refusal} (h : s.WfMem)
    (hf : ∀ s1, s1.WfMem → NextWfMem (f s1)) : (s.tryLose b k n f).WfMem := by
  unfold State.tryLose
  extract_lets s0
  have h0 : s0.WfMem := h.of_eq (State.switch_mem ..)
  have h1 := hf { s0 with dev := { s0.dev with cut := some (b, n, false) } } (h0.of_eq rfl)
  split
  · rename_i t e
    have ht : t.WfMem := h1.of_next e
    split
    · exact State.WfMem.of_eq (ht.of_eq rfl) (State.switch_mem ..)
    · exact h
  · exact h

theorem State.accessAtPc_wfMem (h : s.WfMem) : NextWfMem s.accessAtPc := by
  unfold State.accessAtPc
  split
  · rename_i e
    have h1 := (State.fetch_wfMem h).of_ok e
    exact .ite h (accessOutcome_nextWfMem h (h1.of_eq (State.upd_mem ..)))
  · exact h

theorem State.engineWork_nextWfMem {h : Nat} {f : State → Host.Outcome State Fault Refusal} {s1 : State} (hf : f ∈ s.engineWork h)
    (h1 : s1.WfMem) : NextWfMem (f s1) := by
  unfold State.engineWork at hf
  simp only [List.mem_append, List.mem_map] at hf
  obtain (((⟨o, _, rfl⟩ | ⟨c, _, rfl⟩) | hm) | ⟨i, _, rfl⟩) | ⟨i, _, rfl⟩ := hf
  · exact execCopyComplete_wfMem h1
  · exact execChainEntryStart_wfMem h1
  · split at hm
    · cases hm
    · obtain rfl := List.mem_singleton.mp hm
      exact execMatrixOpComplete_wfMem h1
  · exact execStreamFetch_wfMem h1
  · exact execTexSaComplete_wfMem h1

theorem State.loseAt_wfMem {b k : Nat} (h : s.WfMem) : (s.loseAt b k).WfMem := by
  unfold State.loseAt
  extract_lets one
  have hone (st : State) (f : State → Host.Outcome State Fault Refusal) (hst : st.WfMem) (hf : ∀ s1, s1.WfMem → NextWfMem (f s1)) : (one st f).WfMem := by
    have hd : st.draw.2.WfMem := hst.of_eq (State.draw_mem st)
    exact .ite (State.tryLose_wfMem hd hf) hd
  clear_value one
  refine List.foldlRecOn _ _ h fun st hst f hf => hone st f hst fun s1 h1 => ?_
  rcases List.mem_append.mp hf with hf | hf
  · split at hf
    · obtain rfl := List.mem_singleton.mp hf
      exact State.accessAtPc_wfMem h1
    · cases hf
  · exact State.engineWork_nextWfMem hf h1

theorem execLinkFailure_wfMem {boundary : Nat} (h : s.WfMem) : NextWfMem (execLinkFailure boundary s) := by
  unfold execLinkFailure
  refine State.WfMem.ite h ?_
  extract_lets s0 s1 s2 s3 s4 s5
  have h0 : s0.WfMem := h.of_eq (State.loseWrites_mem ..)
  have h1 : s1.WfMem := foldl_wfMem _ (fun _ _ hs => State.loseAt_wfMem hs) _ _ h0
  have h2 : s2.WfMem := foldl_wfMem _ (fun _ _ hs => hs.of_eq (State.loseRod_mem ..)) _ _ h1
  have h3 : s3.WfMem := foldl_wfMem _ (fun _ _ hs => State.loseCore_wfMem hs) _ _ h2
  have h4 : s4.WfMem := State.loseMsgs_wfMem (h3.of_eq (State.loseCopies_mem ..))
  have h5 : s5.WfMem := foldl_wfMem _ (fun _ _ hs => State.severLaunch_wfMem hs) _ _ h4
  exact h5.of_eq rfl

end Sys2Proof.Machine
end

section
/-! SUPPORT. Memory stays canonical: loops, pre-emption, root and starts. -/

namespace Sys2Proof.Machine

variable {s : State}

/-! ## Hardware loops, interleave and fold -/

theorem loopEnter_wfMem {n off : Word} (h : s.WfMem) : (loopEnter s n off).WfMem := Res.WfMem.ite (State.illegal_wfMem h) (Res.WfMem.ite h (Res.WfMem.ite h h))

theorem loopRead_wfMem {rd : Reg} {n : BitVec 5} {f : LoopEntry → Word} (h : s.WfMem) : (loopRead s rd n f).WfMem := Res.WfMem.ite (State.illegal_wfMem h) h

theorem execLdepth_wfMem {rd : Reg} (h : s.WfMem) : NextWfMem (execLdepth rd s) := finish_nextWfMem h

theorem execLbrk_wfMem {n : BitVec 5} (h : s.WfMem) : NextWfMem (execLbrk n s) := by
  unfold execLbrk
  refine finishAt_nextWfMem ?_
  split
  · exact State.illegal_wfMem h
  · exact Res.WfMem.ite (State.illegal_wfMem h) h

theorem execBilv2_wfMem {rd rs1 rs2 : Reg} (h : s.WfMem) : NextWfMem (execBilv2 rd rs1 rs2 s) := finish_nextWfMem h

theorem execBilv3_wfMem {rd rs1 rs2 : Reg} (h : s.WfMem) : NextWfMem (execBilv3 rd rs1 rs2 s) := finish_nextWfMem h

theorem execBdlv2_wfMem {rd rs1 rs2 : Reg} (h : s.WfMem) : NextWfMem (execBdlv2 rd rs1 rs2 s) := finish_nextWfMem h

theorem execBdlv3_wfMem {rd rs1 rs2 : Reg} (h : s.WfMem) : NextWfMem (execBdlv3 rd rs1 rs2 s) := finish_nextWfMem h

theorem execClzx_wfMem {rd rs1 rs2 : Reg} (h : s.WfMem) : NextWfMem (execClzx rd rs1 rs2 s) := finish_nextWfMem h

theorem execFold_wfMem {rd rs1 rs2 : Reg} (h : s.WfMem) : NextWfMem (execFold rd rs1 rs2 s) := finish_nextWfMem h

/-! ## The default policy of pre-emption -/

theorem firstUnplaced_wfMem {l : Launch} {os : List Nat} {s1 : State} {o : Nat} {ts : List TaskSpec} (h : s.WfMem)
    (e : firstUnplaced l os s = some (s1, o, ts)) : s1.WfMem := by
  induction os generalizing s with
  | nil => cases e
  | cons x xs ih =>
    unfold firstUnplaced at e
    split at e
    · exact ih h e
    · split at e
      · rename_i e1
        exact ih ((State.placeGroup_wfMem h).of_some e1) e
      · cases e
        exact h

theorem State.waitsFor_wfMem {l : Launch} {s1 : State} {o : Nat} {ts : List TaskSpec} (h : s.WfMem)
    (e : s.waitsFor l = some (s1, o, ts)) : s1.WfMem := by
  unfold State.waitsFor at e
  dsimp only at e
  split_ifs at e
  · cases e
    exact h
  · split at e
    · exact firstUnplaced_wfMem h e
    · cases e
  · exact firstUnplaced_wfMem h e

@[simp] theorem State.vacated_mem (s : State) (hs : List Nat) : (s.vacated hs).mem = s.mem := foldl_mem _ (fun _ _ => by simp) _ _

/-! ## Objects of root -/

theorem State.placeObject_mem {part a n gen d : Nat} {s1 : State} (e : s.placeObject part a n gen = some (d, s1)) : s1.mem = s.mem := by
  unfold State.placeObject at e
  split at e
  · split at e
    · cases e
    · split at e
      · cases e
      · extract_lets at e
        cases e
        rfl
  · cases e

/-! ## The commands of root -/

@[simp] theorem State.endCmd_mem (s : State) (part status addr : Nat) : (s.endCmd part status addr).mem = s.mem := by
  unfold State.endCmd
  simp

theorem State.onCommand_wfMem {part code : Nat} {f : Part → State} (h : s.WfMem) (hf : ∀ p, (f p).WfMem) : NextWfMem (s.onCommand part code f) := by
  unfold State.onCommand
  change State.WfMem _
  split
  · exact h
  · exact State.WfMem.ite h (State.WfMem.ite (h.of_eq (by simp)) (hf _))

@[simp] theorem State.waitCmd_mem (s : State) (part code : Nat) : (s.waitCmd part code).mem = s.mem := by
  unfold State.waitCmd
  split <;> rfl

theorem State.command_wfMem {part code : Nat} {f : Part → Option (Nat × Nat × State)} (h : s.WfMem) (hf : ∀ p, AnswerWfMem (f p)) :
    NextWfMem (s.command part code f) := by
  refine State.onCommand_wfMem h fun p => ?_
  split
  · rename_i e
    exact ((hf p).of_some e).of_eq (State.endCmd_mem ..)
  · exact h.of_eq (State.waitCmd_mem ..)

@[simp] theorem State.useLeaf_mem (s : State) (q : Nat) : (s.useLeaf q).mem = s.mem := by
  unfold State.useLeaf
  split <;> rfl

theorem execLoadObject_wfMem {part : Nat} (h : s.WfMem) : NextWfMem (execLoadObject part s) := by
  refine State.command_wfMem h fun p => ?_
  split
  · rename_i e
    exact .of_state ((h.of_eq (State.placeObject_mem e)).of_eq (State.modPart_mem ..))
  · exact .of_state h

@[simp] theorem State.retireObj_mem (s : State) (i gen : Nat) (new : Option Nat) : (s.retireObj i gen new).mem = s.mem := by
  unfold State.retireObj
  simp

theorem execUnload_wfMem {part : Nat} (h : s.WfMem) : NextWfMem (execUnload part s) := by
  unfold execUnload
  refine State.command_wfMem h fun _ => ?_
  split
  · exact h
  · exact h.of_eq (by simp)

theorem execReplace_wfMem {part : Nat} (h : s.WfMem) : NextWfMem (execReplace part s) := by
  refine State.command_wfMem h fun p => ?_
  split
  · exact .of_state h
  · split
    · exact .of_state h
    · rename_i e
      have h1 := h.of_eq (State.placeObject_mem e)
      exact .of_state ((h1.of_eq (State.retireObj_mem ..)).of_eq (State.modPart_mem ..))

theorem execCreateQueue_wfMem {part : Nat} (h : s.WfMem) : NextWfMem (execCreateQueue part s) := by
  refine State.command_wfMem h fun p => ?_
  extract_lets qid s1
  have h1 : s1.WfMem := h.of_eq (State.modPart_mem ..)
  clear_value s1
  exact .ite (.of_state h) (.of_state (h1.of_eq rfl))

theorem execDestroyQueue_wfMem {part : Nat} (h : s.WfMem) : NextWfMem (execDestroyQueue part s) := by
  unfold execDestroyQueue
  refine State.command_wfMem h fun _ => ?_
  dsimp only
  split
  · exact h
  · exact h.of_eq (by simp)

theorem execSetLease_wfMem {part : Nat} (h : s.WfMem) : NextWfMem (execSetLease part s) := by
  refine State.command_wfMem h fun p => ?_
  split
  · exact .of_state (h.of_eq (State.modPart_mem ..))
  · exact .of_state h

theorem execSetLog_wfMem {part : Nat} (h : s.WfMem) : NextWfMem (execSetLog part s) := by
  refine State.command_wfMem h fun p => ?_
  extract_lets base log2
  split
  · exact .of_state (State.rootPut_wfMem _ _ _ (h.of_eq (State.modPart_mem ..)))
  · exact .of_state h

theorem State.flushPart_wfMem {part : Nat} {p : Part} (h : s.WfMem) : (s.flushPart part p).WfMem := by
  unfold State.flushPart
  extract_lets cores s1 words s2 _
  have h1 : s1.WfMem := foldl_wfMem _ (fun _ _ hs => (State.pFlush_wfMem _ _ _ hs).of_eq (State.copyDrop_mem ..)) _ _ h
  have h2 : s2.WfMem := foldl_wfMem _ (fun _ _ hs => State.reckonWord_wfMem _ _ _ hs) _ _ h1
  clear_value s2
  exact foldl_wfMem _ (fun _ _ hs => hs.of_eq (State.tlbDrop_mem ..)) _ _ (h2.of_eq rfl)

theorem execWriteHomingEntry_wfMem {part : Nat} (h : s.WfMem) : NextWfMem (execWriteHomingEntry part s) := by
  unfold execWriteHomingEntry
  refine State.command_wfMem h fun _ => ?_
  split
  · exact h
  · split
    · trivial
    · exact (State.flushPart_wfMem h).of_eq (State.modPart_mem ..)

theorem execSetParkPool_wfMem {part : Nat} (h : s.WfMem) : NextWfMem (execSetParkPool part s) := by
  refine State.command_wfMem h fun p => ?_
  extract_lets base log2
  split
  · exact .of_state h
  · split
    · trivial
    · exact .of_state (h.of_eq (State.modPart_mem ..))

theorem execSetPeerEntry_wfMem {part : Nat} (h : s.WfMem) : NextWfMem (execSetPeerEntry part s) := by
  unfold execSetPeerEntry
  refine State.command_wfMem h fun _ => ?_
  split
  · exact h
  · exact h.of_eq (by simp)

@[simp] theorem State.clearCore_mem (s : State) (c : Nat) : (s.clearCore c).mem = s.mem := rfl

theorem State.resetCore_wfMem {c : Nat} (h : s.WfMem) : (s.resetCore c).WfMem := by
  unfold State.resetCore
  extract_lets words s1 s2
  have h1 : s1.WfMem := State.pFlush_wfMem _ _ _ (foldl_wfMem _ (fun _ _ hst => State.reckonWord_wfMem _ _ _ hst) _ _ h)
  have h2 : s2.WfMem := by
    refine foldl_wfMem _ (fun _ _ hst => ?_) _ _ (h1.of_eq rfl)
    split
    · exact hst.of_eq (State.releaseRod_mem ..)
    · exact hst
  exact h2.of_eq (State.clearCore_mem ..)

theorem State.endCore_wfMem {c : Nat} (h : s.WfMem) : (s.endCore c).WfMem := State.WfMem.ite h (State.resetCore_wfMem h)

theorem State.zeroScratch_wfMem {c : Nat} (h : s.WfMem) : (s.zeroScratch c).WfMem := filter_wf _ _ h

theorem State.resetLaunch_wfMem {l : Launch} (h : s.WfMem) : (s.resetLaunch l).WfMem := by
  unfold State.resetLaunch
  extract_lets +onlyGivenNames s1
  have h1 : s1.WfMem := State.discardTasks_wfMem h
  split
  · exact State.completeLaunch_wfMem h1
  · exact h1

theorem State.isolate_wfMem {s0 : State} {part : Nat} {p : Part} (h : s0.WfMem) : (s0.isolate part p).WfMem := by
  unfold State.isolate
  extract_lets s1 _
  have h1 : s1.WfMem := foldl_wfMem _ (fun _ _ hs => State.rejoinCore_wfMem hs) _ _ h
  clear_value s1
  exact h1.of_eq (State.modPart_mem s1 part _)

theorem State.resetLaunches_wfMem {part : Nat} (h : s.WfMem) : (s.resetLaunches part).WfMem := foldl_wfMem _ (fun _ _ hst => State.resetLaunch_wfMem hst) _ _ h

@[simp] theorem State.releasePart_mem (s : State) (part : Nat) (p : Part) : (s.releasePart part p).mem = s.mem := by
  unfold State.releasePart
  extract_lets s1 s2
  have h1 : s1.mem = s.mem := foldl_mem _ (fun st _ => State.releaseRods_mem st _) _ _
  have h2 : s2.mem = s1.mem := foldl_mem _ (fun st _ => State.releaseRods_mem st _) _ _
  exact (foldl_mem _ (fun st _ => State.releaseRods_mem st _) _ _).trans (h2.trans h1)

theorem State.clearPart_wfMem {part : Nat} {p : Part} (h : s.WfMem) : (s.clearPart part p).WfMem := by
  unfold State.clearPart
  extract_lets +onlyGivenNames s1
  have h1 : s1.WfMem := foldl_wfMem _ (fun _ _ hst => State.zeroScratch_wfMem (State.endCore_wfMem hst)) _ _ (h.of_eq (by simp))
  extract_lets +onlyGivenNames s2
  have h2 : s2.WfMem := foldl_wfMem _ (fun _ _ hst => hst.of_eq (by simp)) _ _ h1
  exact h2.of_eq (by simp)

theorem State.resetPart_wfMem {part : Nat} {p : Part} (h : s.WfMem) : (s.resetPart part p).1.WfMem := by
  unfold State.resetPart
  split
  · exact State.isolate_wfMem h
  · dsimp only
    split
    · exact State.resetLaunches_wfMem h
    · exact State.clearPart_wfMem (State.resetLaunches_wfMem h)

theorem execResetPartition_wfMem {part : Nat} (h : s.WfMem) : NextWfMem (execResetPartition part s) := by
  unfold execResetPartition
  exact State.onCommand_wfMem h fun _ => State.WfMem.ite ((State.resetPart_wfMem h).of_eq (State.endCmd_mem ..)) ((State.resetPart_wfMem h).of_eq rfl)

theorem execCreatePartition_wfMem {part : Nat} (h : s.WfMem) : NextWfMem (execCreatePartition part s) := by
  unfold execCreatePartition
  refine State.command_wfMem h fun _ => ?_
  split
  · exact h
  · split
    · exact h
    · extract_lets +onlyGivenNames s1
      have h1 : s1.WfMem := h.of_eq (by simp [s1])
      split
      · exact h1
      · split
        · exact h1
        · split
          · extract_lets +onlyGivenNames s2
            have h2 : s2.WfMem := h1.of_eq (by simp [s2])
            exact State.rootPut_wfMem _ _ _ (foldl_wfMem _ (fun _ _ hst => State.zeroScratch_wfMem hst) _ _ h2)

theorem State.zeroGranules_wfMem {p : Part} (h : s.WfMem) : (s.zeroGranules p).WfMem := filter_wf _ _ h

theorem State.endPart_wfMem {n : Nat} {x : Part} (h : s.WfMem) : (s.endPart n x).WfMem := by
  unfold State.endPart
  extract_lets +onlyGivenNames s1
  have h1 : s1.WfMem := (State.zeroGranules_wfMem h).of_eq (State.modPart_mem ..)
  exact h1

theorem execDestroyPartition_wfMem {part : Nat} (h : s.WfMem) : NextWfMem (execDestroyPartition part s) := by
  refine State.onCommand_wfMem h fun p => ?_
  have hend (st : State) (c : Nat) (hst : st.WfMem) : (st.endCmd part c 0).WfMem := hst.of_eq (State.endCmd_mem ..)
  split
  · exact hend _ _ h
  · rename_i q _
    have hq := hend (s.useLeaf q) 6 (h.of_eq (State.useLeaf_mem ..))
    extract_lets n
    split
    · exact hq
    · rename_i x _
      have hr := State.resetPart_wfMem (part := n) (p := x) h
      refine .ite hq (.ite (hend _ _ ?_) ?_)
      · exact (State.endPart_wfMem hr).of_eq (State.useLeaf_mem ..)
      · exact hr.of_eq (State.waitCmd_mem ..)

theorem execSetCodeKey_wfMem {part : Nat} (h : s.WfMem) : NextWfMem (execSetCodeKey part s) := by
  unfold execSetCodeKey
  refine State.command_wfMem h fun _ => ?_
  split
  · exact h
  · split
    · exact h
    · extract_lets +onlyGivenNames s1
      have h1 : s1.WfMem := h.of_eq (by simp [s1])
      split
      · exact h1
      · split
        · exact h1
        · exact h1.of_eq (by simp)

theorem execSetOwnerKey_wfMem {part : Nat} (h : s.WfMem) : NextWfMem (execSetOwnerKey part s) := by
  unfold execSetOwnerKey
  refine State.command_wfMem h fun _ => ?_
  split
  · exact h
  · dsimp only
    split
    · split <;> exact h
    · split <;> exact h.of_eq (by simp)
    · exact h

theorem execAttest_wfMem {part : Nat} (h : s.WfMem) : NextWfMem (execAttest part s) := by
  unfold execAttest
  refine State.command_wfMem h fun _ => ?_
  split
  · exact h
  · exact State.WfMem.ite (State.rootPut_wfMem _ _ _ h) h

theorem execActivateFirmware_wfMem {part : Nat} (h : s.WfMem) : NextWfMem (execActivateFirmware part s) := by
  unfold execActivateFirmware
  refine State.command_wfMem h fun _ => ?_
  split
  · rename_i e1
    have h1 := State.WfMem.of_snd h e1
    dsimp only
    split
    · exact h1
    · exact h1.of_eq (by simp)

/-! ## Starts and power -/

theorem State.ended_wfMem {cause fails : Nat} : (s.ended cause fails).WfMem := rfl

theorem State.failStart_wfMem {cause : Nat} : (s.failStart cause).WfMem := rfl

theorem State.trip_wfMem {cause : Nat} : (s.trip cause).WfMem := State.WfMem.ite State.failStart_wfMem State.ended_wfMem

@[simp] theorem State.toStage_mem (s : State) (n : Nat) : (s.toStage n).mem = s.mem := rfl

@[simp] theorem State.beginStart_mem (s : State) : s.beginStart.mem = s.mem := rfl

theorem State.endStage_wfMem {good : Bool} (h : s.WfMem) : (s.endStage good).WfMem := State.WfMem.ite State.failStart_wfMem (h.of_eq rfl)

theorem execDeviceStart_wfMem (h : s.WfMem) : NextWfMem (execDeviceStart s) := by
  unfold execDeviceStart
  change State.WfMem _
  split
  any_goals exact h
  · exact State.endStage_wfMem h
  · exact State.endStage_wfMem h
  · exact State.endStage_wfMem h

theorem execStartComplete_wfMem (h : s.WfMem) : NextWfMem (execStartComplete s) := by
  unfold execStartComplete
  change State.WfMem _
  exact .ite h (.ite State.failStart_wfMem (h.of_eq (by simp)))

theorem execResetDevice_wfMem {part : Nat} (h : s.WfMem) : NextWfMem (execResetDevice part s) := by
  refine State.onCommand_wfMem h fun p => ?_
  split
  · exact h.of_eq (State.endCmd_mem ..)
  · exact State.ended_wfMem

/-! ## The step -/

/-- The meanings of the instructions and events, in the order of the constructors of Instr. -/
theorem exec_wfMem {i : Instr} (h : s.WfMem) : NextWfMem (exec i s) := by
  unfold exec
  split
  exacts [
    finishAt_nextWfMem (loopEnter_wfMem h), finishAt_nextWfMem (loopEnter_wfMem h), finish_nextWfMem (loopRead_wfMem h),
    finish_nextWfMem (loopRead_wfMem h), execLbrk_wfMem h, execLdepth_wfMem h, execBilv2_wfMem h, execBilv3_wfMem h, execBdlv2_wfMem h,
    execBdlv3_wfMem h, execClzx_wfMem h, execFold_wfMem h, execVregcfg_wfMem h, execVsetvlz_wfMem h, finishV_nextWfMem (State.vset_wfMem h),
    finishV_nextWfMem (State.vset_wfMem h), finishV_nextWfMem (State.vset_wfMem h), execCtxSave_wfMem h, execCtxLoad_wfMem h, execMigrate_wfMem h,
    execErack_wfMem h, execLdAq_wfMem h, execStRl_wfMem h, finish_nextWfMem (Res.wfMem_bind (State.loadAt_wfMem h) fun _ _ h1 => h1),
    execFenceS_wfMem h, finish_nextWfMem (State.linearCopy_wfMem h), finish_nextWfMem (State.linearCopy_wfMem h),
    finish_nextWfMem (State.linearCopy_wfMem h), execCp2d_wfMem h, execCpMma_wfMem h, execCpChain_wfMem h, finish_nextWfMem (waitWord_wfMem h),
    finish_nextWfMem (waitWord_wfMem h), execScfg_wfMem h, execSwait_wfMem h, execSresume_wfMem h,
    finish_nextWfMem (Res.WfMem.ite (State.illegal_wfMem h) h), execTlwait_wfMem h, execTlread_wfMem h, execRed_wfMem h, execBupd_wfMem h,
    execAmoScoped_wfMem h, execBreckon_wfMem h, execRodAcq_wfMem h, execRodRel_wfMem h, execBankArm_wfMem h, execBankDisarm_wfMem h,
    execBarWg_wfMem h, execMsend_wfMem h, execMreply_wfMem h, execAqpush_wfMem h, execLaunch_wfMem h, execQsignal_wfMem h, execChsend_wfMem h,
    execChrecv_wfMem h, execChdone_wfMem h, finishV_nextWfMem (doVmpush_wfMem h), finishV_nextWfMem (doVmdepth_wfMem h),
    finishV_nextWfMem (doVidxc_wfMem h), finishV_nextWfMem (doVfcvtE2_wfMem h), finishV_nextWfMem (doVfcvtE4_wfMem h),
    finishV_nextWfMem (doVmxscale_wfMem h), finishV_nextWfMem (doVfwcvtE2_wfMem h), finishV_nextWfMem (doVfwcvtE4_wfMem h),
    finishV_nextWfMem (doVfwcvtE5_wfMem h), finishV_nextWfMem (doVfcvtE5_wfMem h), finishV_nextWfMem (doVwmulx_wfMem h),
    finishV_nextWfMem (doVwmulx_wfMem h), finishV_nextWfMem (doVwmulx_wfMem h), finishV_nextWfMem (doVwmulx_wfMem h),
    finishV_nextWfMem (doVleInv_wfMem h), finishV_nextWfMem (doVleInv_wfMem h), finishV_nextWfMem (doVleInv_wfMem h),
    finishV_nextWfMem (doVleInv_wfMem h), finishV_nextWfMem (doVsmx_wfMem h), finishV_nextWfMem (doSpop_wfMem h),
    finishV_nextWfMem (doVwait_wfMem h), finishV_nextWfMem (doMsendv_wfMem h), finishV_nextWfMem (doEdge_wfMem h),
    finishV_nextWfMem (doTexdec_wfMem h), finishV_nextWfMem (doTexw_wfMem h), finishV_nextWfMem (doTexS_wfMem h),
    finishV_nextWfMem (doTexSa_wfMem h), finishV_nextWfMem (doBoxt_wfMem h), finishV_nextWfMem (doTrit_wfMem h),
    finish_nextWfMem (State.mma_wfMem h), finish_nextWfMem (State.mma_wfMem h), finish_nextWfMem (State.mma_wfMem h),
    finish_nextWfMem (State.mma_wfMem h), finish_nextWfMem (State.mma_wfMem h), finish_nextWfMem (State.mma_wfMem h),
    finish_nextWfMem (State.mma_wfMem h), finish_nextWfMem (State.mma_wfMem h), finish_nextWfMem (State.mma_wfMem h),
    finish_nextWfMem (State.mma_wfMem h), finish_nextWfMem (State.mma_wfMem h), execMcfg_wfMem h,
    finish_nextWfMem (State.matGuard_wfMem h (State.matRetire_wfMem h)), finish_nextWfMem (State.tile_wfMem h), execMerr_wfMem h,
    finish_nextWfMem (State.mst_wfMem h), finish_nextWfMem (State.mst_wfMem h), finish_nextWfMem (State.mst_wfMem h),
    finish_nextWfMem (State.mst_wfMem h), finish_nextWfMem (State.mstScaled_wfMem h), finish_nextWfMem (State.mstScaled_wfMem h), execPair_wfMem h,
    execHintPf_wfMem h, execHintUnroll_wfMem h, execHintAff_wfMem h, execHintPair_wfMem h, execLgrantWrite_wfMem h,
    State.WfMem.ite (h.of_eq (by simp)) h, execLaneRotation_wfMem h, State.WfMem.ite (State.askHalt_wfMem h) h, State.retireGroup_wfMem h,
    h.of_eq (by simp), execPageHashDone_wfMem h, execGenerationFree_wfMem h, State.WfMem.ite (State.askHalt_wfMem h) h,
    State.WfMem.ite (State.landOn_wfMem h) (State.killHalted_wfMem h), execItbudgetExpiry_wfMem h, h, execMessageArrival_wfMem h,
    execHandlerStart_wfMem h, execChannelItemArrival_wfMem h, execChannelClose_wfMem h, execChannelHandlerStart_wfMem h, execPathTimeout_wfMem h,
    h.of_eq (by simp), h.of_eq (by simp), State.WfMem.ite h h, execCopyComplete_wfMem h, execChainEntryStart_wfMem h, execMatrixOpComplete_wfMem h,
    execStreamFetch_wfMem h, execTexSaComplete_wfMem h, execPageWalkComplete_wfMem h, execSpanRead_wfMem h, execHomeWrite_wfMem h,
    execRodPass_wfMem h, execLeaseExpiry_wfMem h, execReservationLapse_wfMem h, execRejoin_wfMem h, State.WfMem.ite h h, h, execSramError_wfMem h,
    execHbmError_wfMem h, execLinkFailure_wfMem h, State.WfMem.ite h h, execNop_wfMem h, execLaunchGrid_wfMem h, execLaunchPipe_wfMem h,
    execWaitTl_wfMem h, execWaitMem_wfMem h, execWaitPacketTimeout_wfMem h, execSignal_wfMem h, execCopy_wfMem h, execHubCopyDone_wfMem h,
    execMarker_wfMem h, execInvalidPacket_wfMem h, execBarrierRelease_wfMem h, State.onCtrl_wfMem h, State.onCtrl_wfMem h, State.onCtrl_wfMem h,
    execQcbConfigRead_wfMem h, execQpPost_wfMem h, execWorkgroupBind_wfMem h, execRunBind_wfMem h, execPipelineBind_wfMem h,
    execLaunchCompletion_wfMem h, State.blockStore_wfMem h, State.blockStore_wfMem h, State.blockStore_wfMem h, State.blockStore_wfMem h,
    NextWfMem.ite h (State.takeTrap_wfMem _ _ _ h), State.blockStore_wfMem h, execAgentNop_wfMem h, execDraw_wfMem h, execMeshletDispatch_wfMem h,
    State.blockStore_wfMem h, execTris_wfMem h, execPath_wfMem h, execFrag_wfMem h, execCover_wfMem h, execClose_wfMem h, execFhtWrite_wfMem h,
    execFhtRead_wfMem h, execFhtNotifyStore_wfMem h, execFhtNotifyFetchAdd_wfMem h, execFhtNotifyRed_wfMem h, h.of_eq (by simp),
    NextWfMem.ite h (NextWfMem.ite (State.loseFlow_wfMem h) h), execLoadObject_wfMem h, execUnload_wfMem h, execReplace_wfMem h,
    execCreateQueue_wfMem h, execDestroyQueue_wfMem h, execSetLease_wfMem h, execSetLog_wfMem h, execWriteHomingEntry_wfMem h,
    execResetPartition_wfMem h, execAttest_wfMem h, execActivateFirmware_wfMem h, execCreatePartition_wfMem h, execDestroyPartition_wfMem h,
    execSetCodeKey_wfMem h, execSetOwnerKey_wfMem h, execSetParkPool_wfMem h, execSetPeerEntry_wfMem h, execResetDevice_wfMem h,
    State.blockStore_wfMem h, State.WfMem.ite h h, finish_nextWfMem (doLoad_wfMem h), finish_nextWfMem (doStore_wfMem h), execStandardAmo_wfMem h,
    execFence_wfMem h, finish_nextWfMem (.ite (State.illegal_wfMem h) (Res.WfMem.ite h h)), execCsrAccess_wfMem h, execJalr_wfMem h,
    finishV_nextWfMem (doVLoad_wfMem h), finishV_nextWfMem (doVStore_wfMem h), finishV_nextWfMem (doVArith_wfMem h),
    State.WfMem.ite (h.of_eq (by simp)) h, execEndTask_wfMem h, execRetranslate_wfMem h, execMakeExecuteOnly_wfMem h,
    NextWfMem.ite h (NextWfMem.ite h h), State.WfMem.ite h (h.of_eq (by simp)), finish_nextWfMem (doLui_wfMem h), execAuipc_wfMem h, execJal_wfMem h,
    NextWfMem.ite (finishAt_nextWfMem h) (finish_nextWfMem h), finish_nextWfMem (doAluImm_wfMem h), finish_nextWfMem (doAlu_wfMem h),
    execFpOp_wfMem h, finishV_nextWfMem (Res.WfMem.ite (State.illegal_wfMem h) h), execKexit_wfMem h,
    (State.retire_wfMem _ _ _ h).of_eq (State.openEdge_mem ..), execVfenceSv_wfMem h, execVfenceVs_wfMem h, execVfenceVv_wfMem h, execHret_wfMem h,
    finishV_nextWfMem (doVmelse_wfMem h), finishV_nextWfMem (doVmpop_wfMem h), h, execLaunchGrant_wfMem h, execQuantumEnd_wfMem h,
    execRuntimeWatchdog_wfMem h, h, execDeviceStart_wfMem h, State.WfMem.ite State.failStart_wfMem h, execStartComplete_wfMem h, State.trip_wfMem,
    State.trip_wfMem, execSret_wfMem h, finish_nextWfMem (State.illegal_wfMem h), h, execEcall_wfMem h, execEbreak_wfMem h, execMret_wfMem h,
    finish_nextWfMem (Res.WfMem.ite (State.illegal_wfMem h) h)]

theorem State.tick_wfMem (h : s.WfMem) : s.tick.WfMem := State.WfMem.ite h (State.frontDrain_wfMem _ _ _ h)

theorem stepHart_wfMem (h : s.WfMem) : NextWfMem (stepHart s) := by
  unfold stepHart
  refine .ite ?_ h
  split
  · exact h
  · refine .ite (State.landOn_wfMem h) ?_
    split
    · rename_i e2
      exact NextWfMem.ite (((State.fetch_wfMem h).of_ok e2).of_eq rfl) (exec_wfMem (((State.fetch_wfMem h).of_ok e2).of_eq rfl))
    · rename_i e2
      exact State.takeTrap_wfMem _ _ _ ((State.fetch_wfMem h).of_trap e2)
    · rename_i e2
      exact ((State.fetch_wfMem h).of_stall e2).of_eq rfl

theorem step_wfMem (h : s.WfMem) : NextWfMem (step s) := by
  have ht := State.tick_wfMem h
  unfold step
  split
  · exact stepHart_wfMem ht
  · exact .ite (ht.of_eq rfl) (exec_wfMem (ht.of_eq rfl))
  · exact stepHart_wfMem (State.WfMem.of_eq (ht.of_eq rfl) (State.switch_mem ..))

/-- Settles O59: each function that a step calls leaves the memory alone, or writes it by memWrite or memSet, or drops bytes of it by a filter;
each of the three keeps the canonical form. -/
theorem everyStepKeepsMemoryCanonical : Obligations.EveryStepKeepsMemoryCanonical := fun _ _ h e => (step_wfMem h).of_next e

end Sys2Proof.Machine
end

section
/-! The machine right after reset (R7, R78, R213, R331, R336). No core, cluster, agent or power controller is listed there, so each is at the value of
its own reset, whatever its number. -/

namespace Sys2Proof.Machine

@[simp] theorem State.core_reset (k : Nat) : State.reset.core k = Core.reset := rfl

@[simp] theorem State.cluster_reset (k : Nat) : State.reset.cluster k = Cluster.reset := rfl

@[simp] theorem State.agent_reset (a : Nat) : State.reset.agent a = Agent.reset := rfl

@[simp] theorem State.powerOf_reset (d : Nat) : State.reset.powerOf d = Power.reset := rfl

@[simp] theorem State.capOf_reset (k : Nat) : State.reset.capOf k = 8 := congrArg Power.cap (State.powerOf_reset (dieOf k))

@[simp] theorem State.part_reset : State.reset.part 0 = some Part.zero := rfl

/-- Settles O60: the named fields of the running hart are those of Vec.reset, Ctl.reset and the contexts; what is asked for every number is the
reset value of the unit asked for. -/
theorem resetLeavesTheStatedValues : Obligations.ResetLeavesTheStatedValues := by
  have hcore (k : Nat) : State.reset.capOf k = 8 ∧ (State.reset.core k).dis = 0 ∧ (State.reset.core k).holder = none := by
    simp [Core.reset]
  have hcluster (k : Nat) : (State.reset.cluster k).lreq = 0 := by simp [Cluster.reset]
  have hpower (d : Nat) : (State.reset.powerOf d).plimit = 3200 := by simp [Power.reset]
  have hpart : ∃ p, State.reset.part 0 = some p ∧ p.clusters = BitVec.allOnes 64 ∧ p.granules = BitVec.allOnes 768 ∧ p.lease = Config.defaultLease ∧
      p.gen = 1 := ⟨Part.zero, State.part_reset, rfl, rfl, rfl, rfl⟩
  have hagent (a : Nat) : (State.reset.agent a).en = false ∧ (State.reset.agent a).ord = true ∧ (State.reset.agent a).qhead = 0 ∧
      (State.reset.agent a).qtail = 0 := by simp [Agent.reset]
  exact ⟨rfl, rfl,
    -- Ctl.reset: R78's Reset column
    rfl, rfl, rfl, rfl, rfl, rfl, rfl, rfl, rfl, rfl,
    -- Vec.reset: the registers, the lanes, vill, and the mask stack
    rfl, rfl, rfl, rfl, rfl, rfl, rfl,
    -- the counts of the contexts, the loop stack, and EPEND
    rfl, rfl, rfl, rfl, rfl,
    hcore, hcluster, hpower, hpart, hagent⟩

end Sys2Proof.Machine
end

section
/-! Starts (R333 to R335): the stage under way, its limit, and what a failed start leaves. -/

namespace Sys2Proof.Machine

variable {s : State}

/-! ## Stages and their limits -/

/-- The stage under way has run for its limit of R333 or longer. -/
def State.StageOverruns (s : State) : Prop :=
  ∃ limit, (s.dev.stage, limit) ∈ [(1, 50000000), (2, 2000000000), (3, 50000000), (4, 1000000000)] ∧ s.dev.stageAt + limit ≤ s.time

/-- What the stage under way asks for succeeds: an image verifies (stages 1 and 3), or the bring-up (stage 2). -/
def State.StageSucceeds (s : State) : Prop :=
  (s.dev.stage = 1 ∧ (Config.imageVerifies 0 s.draws = true ∨ Config.imageVerifies 1 s.draws = true)) ∨ (s.dev.stage = 2 ∧ Config.imageVerifies 3 s.draws = true) ∨
    (s.dev.stage = 3 ∧ Config.imageVerifies 2 s.draws = true)

theorem State.stageOverruns_iff : s.StageOverruns ↔ (1 ≤ s.dev.stage ∧ s.dev.stage ≤ 4) ∧ s.stageLate = true := by
  have hlate : s.stageLate = true ↔ s.dev.stageAt + stageLimit s.dev.stage ≤ s.time := decide_eq_true_iff
  rw [hlate]
  constructor
  · rintro ⟨limit, hmem, ht⟩
    simp only [List.mem_cons, Prod.mk.injEq, List.not_mem_nil, or_false] at hmem
    rcases hmem with ⟨h, rfl⟩ | ⟨h, rfl⟩ | ⟨h, rfl⟩ | ⟨h, rfl⟩ <;> simpa [h, stageLimit] using ht
  · rintro ⟨⟨h1, h4⟩, ht⟩
    refine ⟨_, ?_, ht⟩
    generalize s.dev.stage = n at h1 h4 ⊢
    interval_cases n <;> simp [stageLimit]

/-! ## The end of operation and of a start (R334, R335) -/

@[simp] theorem State.ended_cause (s : State) (cause fails : Nat) : (s.ended cause fails).dev.cause = cause := rfl

@[simp] theorem State.ended_stage (s : State) (cause fails : Nat) : (s.ended cause fails).dev.stage = 0 := rfl

@[simp] theorem State.ended_launches (s : State) (cause fails : Nat) : (s.ended cause fails).launches = [] := rfl

@[simp] theorem State.failStart_cause (s : State) (cause : Nat) : (s.failStart cause).dev.cause = cause := rfl

@[simp] theorem State.failStart_fails (s : State) (cause : Nat) : (s.failStart cause).dev.fails = min 255 (s.dev.fails + 1) := rfl

@[simp] theorem State.failStart_stage (s : State) (cause : Nat) :
    (s.failStart cause).dev.stage = if s.dev.stage = 1 ∧ cause = 3 then 6 else 0 := rfl

/-- Operation that no start interrupts ends without a failed start. -/
theorem State.trip_of_up (h : s.dev.stage = 5) (cause : Nat) : s.trip cause = s.ended cause s.dev.fails := by
  simp [State.trip, h]

theorem State.stageCause_eq (h1 : 1 ≤ s.dev.stage) (h3 : s.dev.stage ≤ 3) : s.stageCause = s.dev.stage + 2 := by
  unfold State.stageCause
  generalize s.dev.stage = n at h1 h3 ⊢
  interval_cases n <;> rfl

/-- e is where the start under way in s has failed: with the CAUSE of its stage, FAILS raised, and the ROM left to serve where stage 1 failed. -/
def State.StartFailed (s e : State) : Prop :=
  (s.dev.stage ≤ 3 → e.dev.cause = s.dev.stage + 2) ∧ e.dev.fails = min 255 (s.dev.fails + 1) ∧ e.dev.stage = (if s.dev.stage = 1 then 6 else 0)

theorem State.failStart_startFailed (h1 : 1 ≤ s.dev.stage) : s.StartFailed (s.failStart s.stageCause) := by
  refine ⟨State.stageCause_eq h1, State.failStart_fails .., ?_⟩
  rw [State.failStart_stage]
  by_cases h : s.dev.stage = 1
  · simp [h, State.stageCause_eq h1 (by omega)]
  · simp [h]

/-! ## What each event of a start leaves -/

/-- Out of a start, the firing begins one. -/
theorem execDeviceStart_begin (h : s.dev.stage = 0 ∨ s.dev.stage = 6) : execDeviceStart s = .next s.beginStart := by
  unfold execDeviceStart
  rcases h with h | h <;> simp only [h]

/-- In stages 1 to 3, the firing ends the stage, well where what it asks for succeeds. -/
theorem execDeviceStart_stage (h1 : 1 ≤ s.dev.stage) (h3 : s.dev.stage ≤ 3) :
    ∃ ok : Bool, (ok = true ↔ s.StageSucceeds) ∧ execDeviceStart s = .next (s.endStage ok) := by
  have hn : s.dev.stage = 1 ∨ s.dev.stage = 2 ∨ s.dev.stage = 3 := by omega
  unfold execDeviceStart State.StageSucceeds
  rcases hn with h | h | h <;> rw [h]
  · exact ⟨_, by simp, rfl⟩
  · exact ⟨_, by simp, rfl⟩
  · exact ⟨_, by simp, rfl⟩

theorem execDeviceStart_succeeds (h1 : 1 ≤ s.dev.stage) (h3 : s.dev.stage ≤ 3) (hgood : s.StageSucceeds) (hin : ¬ s.StageOverruns) :
    execDeviceStart s = .next (s.toStage (s.dev.stage + 1)) := by
  obtain ⟨ok, hok, he⟩ := execDeviceStart_stage h1 h3
  have hlate : ¬ s.stageLate = true := fun hl => hin (State.stageOverruns_iff.mpr ⟨⟨h1, by omega⟩, hl⟩)
  rw [he, State.endStage, if_neg (by simp [hlate, hok.mpr hgood])]

theorem execDeviceStart_fails (h1 : 1 ≤ s.dev.stage) (h3 : s.dev.stage ≤ 3) (hbad : ¬ s.StageSucceeds ∨ s.StageOverruns) :
    execDeviceStart s = .next (s.failStart s.stageCause) := by
  obtain ⟨ok, hok, he⟩ := execDeviceStart_stage h1 h3
  have hfail : s.stageLate = true ∨ ok = false :=
    hbad.symm.imp (fun h => (State.stageOverruns_iff.mp h).2) fun h => Bool.eq_false_iff.mpr (mt hok.mp h)
  rw [he, State.endStage, if_pos hfail]

theorem execStartStageTimeout_late (h : s.StageOverruns) : execStartStageTimeout s = .next (s.failStart s.stageCause) := by
  obtain ⟨⟨h1, h4⟩, hl⟩ := State.stageOverruns_iff.mp h
  rw [execStartStageTimeout, if_pos ⟨h1, h4, hl⟩]

theorem execStartStageTimeout_inTime (h : ¬ s.StageOverruns) : execStartStageTimeout s = .next s := by
  rw [State.stageOverruns_iff, and_assoc] at h
  rw [execStartStageTimeout, if_neg h]

theorem execStartComplete_late (h4 : s.dev.stage = 4) (h : s.StageOverruns) : execStartComplete s = .next (s.failStart s.stageCause) := by
  rw [execStartComplete, if_neg (by simp [h4]), if_pos (State.stageOverruns_iff.mp h).2]

/-- The device up at EVENT 7: a full start clears FAILS, one in minimal mode raises it (R335). -/
def State.startedUp (s : State) : State :=
  { s with dev := { s.dev with stage := 5, alive := s.time, fails := if s.dev.minimal then min 255 (s.dev.fails + 1) else 0 } }

theorem execStartComplete_inTime (h4 : s.dev.stage = 4) (h : ¬ s.StageOverruns) :
    execStartComplete s = .next (s.startedUp.sendEvent 0 7 0 0 (if s.dev.minimal then 1 else 0)) := by
  have hlate : ¬ s.stageLate = true := fun hl => h (State.stageOverruns_iff.mpr ⟨by omega, hl⟩)
  rw [execStartComplete, if_neg (by simp [h4]), if_neg hlate]
  rfl

end Sys2Proof.Machine
end

section
/-! The power controllers (R9, R336), and with them O58. -/

namespace Sys2Proof.Machine

variable {s : State} {p : Power} {m : List Nat}

/-! ## The CAP that a decision finds -/

/-- capFor finds the highest CAP from n down that meets the limit. -/
theorem capFor_eq_some {limit n c : Nat} (h : capFor m limit n = some c) :
    c ≤ n ∧ 1 ≤ c ∧ (∀ d, c < d → d ≤ n → limit < projAt m d) ∧ projAt m c ≤ limit := by
  induction n with
  | zero => cases h
  | succ n ih =>
    rw [capFor] at h
    split at h
    next hmeets =>
      obtain rfl : n + 1 = c := Option.some.inj h
      exact ⟨le_rfl, by omega, fun d _ _ => by omega, hmeets⟩
    next hover =>
      obtain ⟨hle, hpos, habove, hmeets⟩ := ih h
      refine ⟨by omega, hpos, fun d hd hdn => ?_, hmeets⟩
      rcases Nat.lt_or_eq_of_le hdn with hlt | rfl
      · exact habove d hd (by omega)
      · omega

/-- Where capFor finds none, no CAP from n down meets the limit. -/
theorem capFor_eq_none {limit n : Nat} (h : capFor m limit n = none) : ∀ d, 1 ≤ d → d ≤ n → limit < projAt m d := by
  induction n with
  | zero => intro d h1 h0; omega
  | succ n ih =>
    rw [capFor] at h
    split at h
    next => cases h
    next hover =>
      intro d h1 hd
      rcases Nat.lt_or_eq_of_le hd with hlt | rfl
      · exact ih h d h1 (by omega)
      · omega

/-! ## One decision -/

/-- A decision keeps the limit and records the die's share. -/
theorem Power.decide_plimit_pnow (p : Power) (m : List Nat) : (p.decide m).plimit = p.plimit ∧ (p.decide m).pnow = m.getD 8 0 % 65536 := by
  unfold Power.decide
  repeat' split
  all_goals exact ⟨rfl, rfl⟩

/-- Over the limit, CAP falls to the highest value that meets it, or to 1 where none does. -/
theorem Power.decide_lowers (hover : p.plimit < projAt m p.cap) (hcap : 1 ≤ p.cap) :
    (p.decide m).cap ≤ p.cap ∧ 1 ≤ (p.decide m).cap ∧ (∀ d, (p.decide m).cap < d → d ≤ p.cap → p.plimit < projAt m d) ∧
      (projAt m (p.decide m).cap ≤ p.plimit ∨ ((p.decide m).cap = 1 ∧ (p.decide m).whold = true)) := by
  cases hc : capFor m p.plimit p.cap with
  | none =>
    have hone : (p.decide m).cap = 1 ∧ (p.decide m).whold = true := by simp [Power.decide, hover, hc]
    rw [hone.1]
    exact ⟨hcap, le_rfl, fun d h1 hd => capFor_eq_none hc d (by omega) hd, .inr ⟨rfl, hone.2⟩⟩
  | some c =>
    have hcapIs : (p.decide m).cap = c := by simp [Power.decide, hover, hc]
    obtain ⟨hle, hpos, habove, hmeets⟩ := capFor_eq_some hc
    rw [hcapIs]
    exact ⟨hle, hpos, habove, .inl hmeets⟩

/-- The tenth decision below 95 % of the limit raises CAP by one. -/
theorem Power.decide_raises (hmeets : projAt m p.cap ≤ p.plimit) (hlow : 100 * projAt m p.cap < 95 * p.plimit) (hten : 9 ≤ p.lowFor)
    (hhold : p.whold = false) : (p.decide m).cap = min 8 (p.cap + 1) := by
  rw [Power.decide, if_neg (by omega), if_pos hlow, if_neg (by omega), if_neg (by simp [hhold])]

/-- From 95 % of the limit up to it, CAP stays and the count of low decisions starts again. -/
theorem Power.decide_holds (hmeets : projAt m p.cap ≤ p.plimit) (hhigh : 95 * p.plimit ≤ 100 * projAt m p.cap) :
    (p.decide m).cap = p.cap ∧ (p.decide m).lowFor = 0 := by
  rw [Power.decide, if_neg (by omega), if_neg (by omega)]
  exact ⟨rfl, rfl⟩

/-! ## The tick of a controller -/

theorem execPowerControlTick_early {die : Nat} (h : s.time < (s.powerOf die).tickAt + 100000) : execPowerControlTick die m s = .next s := by
  rw [execPowerControlTick, if_pos h]

theorem execPowerControlTick_due {die : Nat} (h : (s.powerOf die).tickAt + 100000 ≤ s.time) :
    execPowerControlTick die m s = .next (s.setPower die { (s.powerOf die).decide m with tickAt := s.time }) := by
  rw [execPowerControlTick, if_neg (by omega)]

/-! ## The statement -/

/-- Settles O58: each event of a start by the stage it meets, each tick of a controller by the one decision it makes. -/
theorem startsAndPowerFollowTheirRules : Obligations.StartsAndPowerFollowTheirRules := by
  intro s die m late good failed
  refine ⟨?begins, ?stages, fun _ => rfl, ?overruns, execStartStageTimeout_inTime, ?completes, ?ends, execPowerControlTick_early, ?decides⟩
  case begins => exact fun h => ⟨s.beginStart, execDeviceStart_begin h, rfl, rfl, rfl, rfl, rfl⟩
  case stages =>
    exact fun h1 h3 => ⟨execDeviceStart_succeeds h1 h3, fun hbad => ⟨_, execDeviceStart_fails h1 h3 hbad, State.failStart_startFailed h1⟩⟩
  case overruns =>
    intro hlate
    have hfailed : s.StartFailed (s.failStart s.stageCause) := State.failStart_startFailed (State.stageOverruns_iff.mp hlate).1.1
    exact ⟨⟨_, execStartStageTimeout_late hlate, hfailed⟩, fun h4 => ⟨_, execStartComplete_late h4 hlate, hfailed⟩⟩
  case completes => exact fun h4 hin => execStartComplete_inTime h4 hin
  case ends =>
    intro h5
    have hends (cause : Nat) : (s.trip cause).dev.cause = cause ∧ (s.trip cause).dev.stage = 0 ∧ (s.trip cause).launches = [] := by
      simp [State.trip_of_up h5]
    exact ⟨⟨_, rfl, hends 7⟩, ⟨_, rfl, hends 6⟩⟩
  case decides =>
    intro hdue p now
    refine ⟨_, execPowerControlTick_due hdue, rfl, ?_⟩
    obtain ⟨hlimit, hshare⟩ := Power.decide_plimit_pnow p m
    rw [State.powerOf_setPower, if_pos rfl]
    exact ⟨hlimit, rfl, hshare, fun hover c hc hcap => hc ▸ Power.decide_lowers hover hcap, Power.decide_raises, Power.decide_holds⟩

end Sys2Proof.Machine
end

section
/-! Hints, local fences, yield and wfi (R14, R73, R102, R146). -/

namespace Sys2Proof.Machine

open Sys2Proof.Machine.Claim

variable {s t : State} {i : Instr}

/-- An instruction that only orders or advises ends with no effect of its own. -/
theorem exec_idle (h : idle i = true) (s : State) : exec i s = finish (.ok () s) :=
  match i, h with
  | .hintPf .., _ | .hintUnroll .., _ | .hintAff .., _ | .hintPair .., _ => rfl
  | .vfenceSv, _ | .vfenceVs, _ | .vfenceVv, _ => rfl
  | .fence .i _ _, _ => rfl

/-! ## yield -/

theorem State.openEdge_of_halt_none (h : s.seq.halt = none) : s.openEdge = s := by simp [State.openEdge, h]

theorem State.openEdge_of_halt (h : s.seq.halt ≠ none) : s.openEdge = s.upd fun q => { q with atEdge := true } := by
  rw [State.openEdge, if_pos (Option.isSome_iff_ne_none.mpr h)]

/-- Retiring keeps the registers of all three kinds and a pending halt. -/
theorem Claim.RetiredFrom.keeps {q q' : Seq} (h : RetiredFrom q q') : q'.x = q.x ∧ q'.f = q.f ∧ q'.vec = q.vec ∧ q'.halt = q.halt := by
  unfold RetiredFrom at h
  rw [h]
  exact ⟨rfl, rfl, rfl, rfl⟩

/-- Where the others are kept, changing the running hart keeps them too. -/
theorem Claim.KeepsOthers.upd (h : KeepsOthers s t) (f : Seq → Seq) : KeepsOthers s (t.upd f) :=
  congrArg (fun u : State => u.upd f) h

theorem completes_yield (h : s.seq.halt = none) : Completes .yield s s := by
  have hr := retired_retire s s.nextPc false
  obtain ⟨-, -, -, hhalt⟩ := hr.hart.keeps
  exact ⟨_, congrArg Host.Outcome.next (State.openEdge_of_halt_none (hhalt.trans h)), hr⟩

/-- With a halt pending, yield leaves the boundary open for it (R102). -/
theorem exec_yield_of_halt (h : s.seq.halt ≠ none) :
    ∃ t, exec .yield s = .next t ∧ t.seq.atEdge = true ∧ t.seq.x = s.seq.x ∧ t.seq.f = s.seq.f ∧ t.seq.vec = s.seq.vec ∧
      t.seq.halt = s.seq.halt ∧ KeepsOthers s t := by
  have hr := retired_retire s s.nextPc false
  obtain ⟨hx, hf, hvec, hhalt⟩ := hr.hart.keeps
  exact ⟨_, congrArg Host.Outcome.next (State.openEdge_of_halt (hhalt ▸ h)), rfl, hx, hf, hvec, hhalt, hr.others.upd _⟩

/-! ## wfi -/

theorem completes_wfi (h : s.seq.mode = .m ∨ s.seq.priv.mstatus.getLsbD 21 = false) : Completes .wfi s s := by
  refine completes_of_finish (congrArg finish (if_neg ?_))
  rintro ⟨hmode, htw⟩
  exact h.elim hmode fun hfree => Bool.eq_false_iff.mp hfree htw

theorem exec_wfi_of_tw (hmode : s.seq.mode ≠ .m) (htw : s.seq.priv.mstatus.getLsbD 21 = true) :
    exec .wfi s = .next (s.takeTrap 2 s.seq.latch.bits) :=
  congrArg finish (if_pos ⟨hmode, htw⟩)

/-- Settles O10: the idle instructions end by finish on the state they meet, yield retires, and wfi does so or is illegal. -/
theorem hintsYieldAndWfiChangeNothing : Obligations.HintsYieldAndWfiChangeNothing :=
  ⟨fun _ s h => completes_of_finish (exec_idle h s), fun _ => ⟨completes_yield, exec_yield_of_halt, completes_wfi, exec_wfi_of_tw⟩⟩

end Sys2Proof.Machine
end

section
/-! SUPPORT. What a write of the front end does to the harts: it breaks reservations of LR and SC (R132), and changes nothing else of any hart.
`f_bareHarts` says so of f, in the order of the model. -/

namespace Sys2Proof.Machine

/-- A hart but for its reservation. -/
def Seq.noResv (q : Seq) : Seq := { q with resv := none }

/-- The number of the running hart, and every hart but for its reservation. -/
def State.bareHarts (s : State) : Nat × Seq × List (Nat × Seq) := (s.hart, s.seq.noResv, s.seqs.map fun p => (p.1, p.2.noResv))

/-- The state that a part of an instruction answers. -/
def Res.state {α : Type} : Res α → State
  | .ok _ s => s
  | .trap _ _ s => s
  | .stall _ s => s

variable {s t : State}

/-! ## What the harts but for their reservations say -/

theorem State.bareHarts_of_eq (hhart : t.hart = s.hart) (hseq : t.seq = s.seq) (hseqs : t.seqs = s.seqs) : t.bareHarts = s.bareHarts := by
  rw [State.bareHarts, hhart, hseq, hseqs, ← State.bareHarts]

theorem State.harts_of_bareHarts (h : t.bareHarts = s.bareHarts) : t.harts = s.harts := by
  have hkeys (u : State) : u.harts = u.bareHarts.1 :: u.bareHarts.2.2.map (·.1) := by simp [State.harts, State.bareHarts]
  rw [hkeys, hkeys, h]

theorem aget_map {α β : Type} (f : α → β) (l : List (Nat × α)) (k : Nat) : aget (l.map fun p => (p.1, f p.2)) k = (aget l k).map f := by
  induction l with
  | nil => rfl
  | cons p l ih =>
    simp only [List.map_cons, aget, ih]
    split <;> rfl

theorem State.noResv_getSeq (s : State) (h : Nat) :
    (s.getSeq h).noResv = if h = s.bareHarts.1 then s.bareHarts.2.1 else (aget s.bareHarts.2.2 h).getD Seq.reset.noResv := by
  simp only [State.getSeq, State.bareHarts, aget_map]
  split
  · rfl
  · cases aget s.seqs h <;> rfl

theorem State.noResv_of_bareHarts (h : t.bareHarts = s.bareHarts) (k : Nat) : (t.getSeq k).noResv = (s.getSeq k).noResv := by
  rw [State.noResv_getSeq, State.noResv_getSeq, h]

theorem State.mode_of_bareHarts (h : t.bareHarts = s.bareHarts) (k : Nat) : (t.getSeq k).mode = (s.getSeq k).mode :=
  (congrArg Seq.mode (State.noResv_of_bareHarts h k) :)

theorem foldl_keeps {α β : Type} (view : State → β) {f : State → α → State} (h : ∀ s a, view (f s a) = view s) (l : List α) (s : State) :
    view (l.foldl f s) = view s := by
  induction l generalizing s with
  | nil => rfl
  | cons a l ih => exact (ih (f s a)).trans (h s a)

theorem Res.bind_bareHarts {α β : Type} {r : Res α} {f : α → State → Res β} (h : ∀ a t, (f a t).state.bareHarts = t.bareHarts) :
    (r.bind f).state.bareHarts = r.state.bareHarts := by
  cases r with
  | ok a t => exact h a t
  | trap c v t => rfl
  | stall w t => rfl

/-! ## Homes and the log -/

theorem Seq.breakResv_noResv (q : Seq) (pa n : Nat) : (q.breakResv pa n).noResv = q.noResv := by
  unfold Seq.breakResv
  split
  · rfl
  · split <;> rfl

@[simp] theorem State.breakResv_bareHarts (s : State) (pa n : Nat) (writer : Option Nat) : (s.breakResv pa n writer).bareHarts = s.bareHarts := by
  have hrun : (if some s.hart = writer then s.seq else s.seq.breakResv pa n).noResv = s.seq.noResv := by
    split
    · rfl
    · exact Seq.breakResv_noResv ..
  have hrest (p : Nat × Seq) : (if some p.1 = writer then p else (p.1, p.2.breakResv pa n)).2.noResv = p.2.noResv := by
    split
    · rfl
    · exact Seq.breakResv_noResv ..
  have hkey (p : Nat × Seq) : (if some p.1 = writer then p else (p.1, p.2.breakResv pa n)).1 = p.1 := by split <;> rfl
  simp [State.bareHarts, State.breakResv, hrun, hrest, hkey]

@[simp] theorem State.wakeHome_bareHarts (s : State) (home : Nat) : (s.wakeHome home).bareHarts = s.bareHarts := by
  unfold State.wakeHome; split <;> rfl

@[simp] theorem State.modDir_bareHarts (s : State) (line : Nat) (f : DirLine → DirLine) : (s.modDir line f).bareHarts = s.bareHarts := rfl

@[simp] theorem State.modLines_bareHarts (s : State) (pa n : Nat) (f : BitVec 32 → DirLine → DirLine) : (s.modLines pa n f).bareHarts = s.bareHarts := by
  unfold State.modLines
  split
  · rfl
  · refine foldl_keeps State.bareHarts (fun _ _ => ?_) _ _
    rfl

@[simp] theorem State.poisonRange_bareHarts (s : State) (pa n : Nat) : (s.poisonRange pa n).bareHarts = s.bareHarts := by
  refine foldl_keeps State.bareHarts (fun _ _ => ?_) _ _
  rfl

@[simp] theorem State.pWrite_bareHarts (s : State) (core pa : Nat) (bs : List Byte) : (s.pWrite core pa bs).bareHarts = s.bareHarts := by
  induction bs generalizing s pa with
  | nil => rfl
  | cons b bs ih => exact ih _ _

@[simp] theorem State.pStore_bareHarts (s : State) (core pa : Nat) (bs : List Byte) (h : Option Nat) : (s.pStore core pa bs h).bareHarts = s.bareHarts :=
  (State.breakResv_bareHarts ..).trans (State.pWrite_bareHarts _ core pa bs)

@[simp] theorem State.putBytes_bareHarts (s : State) (via : Via) (l : Loc) (bs : List Byte) : (s.putBytes via l bs).bareHarts = s.bareHarts := by
  have hwritten : (((({ (if l.t = .hbm then s.wakeHome l.home else s) with mem := memWrite s.mem l.pa bs } : State).breakResv l.pa bs.length via.hart).clearPoison
      l.pa bs.length)).bareHarts = s.bareHarts := by
    refine (State.breakResv_bareHarts ..).trans (Eq.trans (b := (if l.t = .hbm then s.wakeHome l.home else s).bareHarts) rfl ?_)
    split
    · exact State.wakeHome_bareHarts ..
    · rfl
  unfold State.putBytes
  dsimp only
  split
  · rfl
  · split
    · exact State.pStore_bareHarts ..
    · split
      · exact (State.modLines_bareHarts ..).trans hwritten
      · exact hwritten

@[simp] theorem State.send_bareHarts (s : State) (m : Sent) : (s.send m).bareHarts = s.bareHarts :=
  State.bareHarts_of_eq (State.send_hart ..) (State.send_seq ..) (State.send_seqs ..)

@[simp] theorem State.rootPut_bareHarts (s : State) (pa : Nat) (bs : List Byte) : (s.rootPut pa bs).bareHarts = s.bareHarts := State.putBytes_bareHarts ..

@[simp] theorem State.logEntry_bareHarts (s : State) (part : Nat) (e : LogEntry) : (s.logEntry part e).bareHarts = s.bareHarts := by
  unfold State.logEntry
  split
  · rfl
  · dsimp only
    split
    · exact State.rootPut_bareHarts ..
    · split <;> simp [State.sendEvent]

/-! ## Reckoning, where no hart reads -/

@[simp] theorem State.losePartial_bareHarts (s : State) (word tag core : Nat) : (s.losePartial word tag core).bareHarts = s.bareHarts :=
  (State.logEntry_bareHarts ..).trans (State.poisonRange_bareHarts ..)

@[simp] theorem State.bringBack_bareHarts (s : State) (line : Nat) : (s.bringBack line).bareHarts = s.bareHarts := by
  unfold State.bringBack
  split
  · rfl
  · dsimp only
    split
    · rfl
    · refine (foldl_keeps State.bareHarts (fun st b => ?_) _ _).trans rfl
      exact (foldl_keeps State.bareHarts (fun st' p => State.losePartial_bareHarts st' _ _ _) _ _).trans rfl

@[simp] theorem State.bringLines_bareHarts (s : State) (pa n : Nat) : (s.bringLines pa n).bareHarts = s.bareHarts := by
  unfold State.bringLines
  split
  · rfl
  · exact foldl_keeps State.bareHarts (fun st _ => State.bringBack_bareHarts st _) _ _

@[simp] theorem State.reckonWord_bareHarts (s : State) (word : Nat) : (s.reckonWord word none).bareHarts = s.bareHarts := by
  unfold State.reckonWord
  split
  · rfl
  · dsimp only
    refine (foldl_keeps State.bareHarts (fun st p => State.losePartial_bareHarts st _ _ _) _ _).trans ?_
    refine (foldl_keeps State.bareHarts (fun st p => ?_) _ _).trans ((State.modDir_bareHarts ..).trans ((State.breakResv_bareHarts ..).trans rfl))
    split
    · exact State.wakeHome_bareHarts ..
    · rfl

@[simp] theorem State.reckonRange_bareHarts (s : State) (pa n : Nat) : (s.reckonRange pa n none).bareHarts = s.bareHarts :=
  (foldl_keeps State.bareHarts (fun st w => State.reckonWord_bareHarts st w) _ _).trans (State.bringLines_bareHarts ..)

/-! ## Translation and location -/

theorem State.readPte_bareHarts (s : State) (via : Via) (va : Word) (ak : AKind) (a : Nat) : (s.readPte via va ak a).state.bareHarts = s.bareHarts := by
  unfold State.readPte
  split
  · rfl
  · dsimp only
    have hread := (State.reckonRange_bareHarts (s.wakeHome (bareHome a)) a 8).trans (State.wakeHome_bareHarts ..)
    split <;> exact hread

theorem State.walk_bareHarts (s : State) (via : Via) (va : Word) (ak : AKind) (base n : Nat) : (s.walk via va ak base n).state.bareHarts = s.bareHarts := by
  induction n generalizing s base with
  | zero => rfl
  | succ n ih =>
    unfold State.walk
    refine (Res.bind_bareHarts fun pte t => ?_).trans (State.readPte_bareHarts ..)
    dsimp only
    split
    · rfl
    · split
      · split
        · rfl
        · split <;> rfl
      · split
        · rfl
        · exact ih ..

theorem State.writePte_bareHarts (s : State) (via : Via) (va : Word) (ak : AKind) (a pte : Nat) : (s.writePte via va ak a pte).state.bareHarts = s.bareHarts := by
  unfold State.writePte
  split
  · rfl
  · dsimp only [Res.state]
    refine (State.modLines_bareHarts ..).trans ((State.breakResv_bareHarts ..).trans ?_)
    exact State.wakeHome_bareHarts s (bareHome a)

theorem State.l1Add_bareHarts (s : State) (via : Via) (ak : AKind) (e : TlbEntry) : (s.l1Add via ak e).bareHarts = s.bareHarts :=
  State.bareHarts_of_eq (State.l1Add_hart ..) (State.l1Add_seq ..) (State.l1Add_seqs ..)

theorem State.tlbAdd_bareHarts (s : State) (via : Via) (ak : AKind) (e : TlbEntry) : (s.tlbAdd via ak e).bareHarts = s.bareHarts :=
  State.bareHarts_of_eq (State.tlbAdd_hart ..) (State.tlbAdd_seq ..) (State.tlbAdd_seqs ..)

theorem State.walkFill_bareHarts (s : State) (via : Via) (va : Word) (ak : AKind) : (s.walkFill via va ak).state.bareHarts = s.bareHarts := by
  refine (Res.bind_bareHarts fun l t => ?_).trans (State.walk_bareHarts ..)
  split
  · rfl
  · dsimp only
    generalize l.pte ||| (64 + if ak = .store then 128 else 0) = pte
    split
    · exact State.tlbAdd_bareHarts ..
    · refine (Res.bind_bareHarts fun _ u => ?_).trans (State.writePte_bareHarts ..)
      exact State.tlbAdd_bareHarts ..

theorem State.tlbLookup_bareHarts (s : State) (via : Via) (va : Word) (ak : AKind) : (s.tlbLookup via va ak).state.bareHarts = s.bareHarts := by
  unfold State.tlbLookup
  split
  · rfl
  · split
    · exact State.l1Add_bareHarts ..
    · exact State.walkFill_bareHarts ..

theorem State.xlate_bareHarts (s : State) (via : Via) (va : Word) (ak : AKind) : (s.xlate via va ak).state.bareHarts = s.bareHarts := by
  have hbare : ((if va.toNat < 2 ^ 48 then .ok ⟨va.toNat, 0, 128, none⟩ s else .trap ak.accessFault va s : Res Xlated)).state.bareHarts = s.bareHarts := by
    split <;> rfl
  unfold State.xlate
  dsimp only
  split
  · exact hbare
  · split
    · split
      · rfl
      · split <;> rfl
    · split
      · exact hbare
      · split
        · rfl
        · exact (Res.bind_bareHarts fun _ _ => rfl).trans (State.tlbLookup_bareHarts ..)

theorem State.unanswered_bareHarts (s : State) (via : Via) (ak : AKind) (l : Loc) : (s.unanswered via ak l).state.bareHarts = s.bareHarts := by
  have hlost : (s.markLost via).bareHarts = s.bareHarts := by unfold State.markLost; split <;> rfl
  unfold State.unanswered
  dsimp only
  split <;> exact hlost

theorem State.reach_bareHarts (s : State) (via : Via) (ak : AKind) (l : Loc) : (s.reach via ak l).state.bareHarts = s.bareHarts := by
  unfold State.reach
  split
  · split
    · rfl
    · rfl
    · exact State.unanswered_bareHarts ..
  · rfl
  · exact State.unanswered_bareHarts ..

theorem State.locate1_bareHarts (s : State) (via : Via) (va : Word) (n : Nat) (ak : AKind) : (s.locate1 via va n ak).state.bareHarts = s.bareHarts := by
  refine (Res.bind_bareHarts fun x t => ?_).trans (State.xlate_bareHarts s via va ak)
  split
  · rfl
  · split
    · rfl
    · split
      · rfl
      · split
        · split
          · rfl
          · exact State.reach_bareHarts ..
        · exact State.reach_bareHarts ..

theorem State.locate_bareHarts (s : State) (via : Via) (va : Word) (n : Nat) (ak : AKind) : (s.locate via va n ak).state.bareHarts = s.bareHarts := by
  unfold State.locate
  generalize pieces 3 va n = ps
  induction ps generalizing s with
  | nil => rfl
  | cons p ps ih =>
    refine (Res.bind_bareHarts fun l t => ?_).trans (State.locate1_bareHarts s via p.1 p.2 ak)
    exact (Res.bind_bareHarts fun _ _ => rfl).trans (ih t)

/-! ## Rods and writes -/

theorem State.askRod_bareHarts (s : State) (p : Party) (region home : Nat) : (s.askRod p region home).1.bareHarts = s.bareHarts := by
  unfold State.askRod
  repeat' split
  all_goals rfl

theorem State.askRods_bareHarts (s : State) (via : Via) (ls : List Loc) : (s.askRods via ls).1.bareHarts = s.bareHarts := by
  induction ls generalizing s with
  | nil => rfl
  | cons l ls ih =>
    unfold State.askRods
    split
    · simp only
      split
      · exact (ih _).trans (State.askRod_bareHarts ..)
      · exact State.askRod_bareHarts ..
    · exact ih s

theorem State.renewRod_bareHarts (s : State) (p : Party) (region : Nat) (w : Bool) (va : Option Word) : (s.renewRod p region w va).bareHarts = s.bareHarts := by
  unfold State.renewRod
  split
  · split <;> rfl
  · rfl

theorem State.takeRods_bareHarts (s : State) (via : Via) (ls : List Loc) : (s.takeRods via ls).1.bareHarts = s.bareHarts := by
  unfold State.takeRods
  dsimp only
  split
  · refine (foldl_keeps State.bareHarts (fun st l => ?_) _ _).trans (State.askRods_bareHarts ..)
    split
    · exact State.renewRod_bareHarts ..
    · rfl
  · exact State.askRods_bareHarts ..

theorem State.releaseRods_bareHarts (s : State) (p : Party) : (s.releaseRods p).bareHarts = s.bareHarts := by
  refine foldl_keeps State.bareHarts (f := fun st g => st.releaseRod g p) (fun st g => ?_) _ s
  unfold State.releaseRod State.passRod
  repeat' split
  all_goals rfl

/-- What a store meets before its rods changes nothing. -/
theorem State.storeCheck_state (s : State) (via : Via) (ls : List Loc) : (s.storeCheck via ls).state = s := by
  induction ls with
  | nil => rfl
  | cons l ls ih =>
    unfold State.storeCheck
    split
    · rfl
    · rfl
    · split
      · rfl
      · split
        · rfl
        · exact ih
    · exact ih

theorem State.storeReady_bareHarts (s : State) (via : Via) (ls : List Loc) : (s.storeReady via ls).state.bareHarts = s.bareHarts := by
  refine (Res.bind_bareHarts fun _ t => ?_).trans (congrArg State.bareHarts (State.storeCheck_state s via ls))
  dsimp only
  split <;> exact State.takeRods_bareHarts ..

theorem State.noteWrite_bareHarts (s : State) (via : Via) (l : Loc) (n : Nat) : (s.noteWrite via l n).bareHarts = s.bareHarts := by
  unfold State.noteWrite
  repeat' split
  all_goals rfl

theorem State.writeLoc_bareHarts (s : State) (via : Via) (l : Loc) (bs : List Byte) : (s.writeLoc via l bs).bareHarts = s.bareHarts := by
  unfold State.writeLoc
  split
  · split
    · exact (State.send_bareHarts ..).trans rfl
    · rfl
  · rfl
  · unfold State.inFlight
    split <;> rfl
  · refine (State.noteWrite_bareHarts ..).trans ((State.putBytes_bareHarts ..).trans ?_)
    split
    · exact State.reckonRange_bareHarts ..
    · rfl

theorem State.writeLocs_bareHarts (s : State) (via : Via) (ls : List Loc) (bs : List Byte) : (s.writeLocs via ls bs).bareHarts = s.bareHarts := by
  induction ls generalizing s bs with
  | nil => rfl
  | cons l ls ih => exact (ih _ _).trans (State.writeLoc_bareHarts ..)

/-! ## Writes of the front end -/

theorem State.frontTry_bareHarts (s : State) (w : FrontWork) : (s.frontTry w).1.bareHarts = s.bareHarts := by
  have hlocated := State.locate_bareHarts s (s.viaQueue w.part w.qid) w.va w.bytes.length .store
  unfold State.frontTry
  dsimp only
  split
  next ls s1 e =>
    rw [e] at hlocated
    split
    · exact hlocated
    · split
      · exact hlocated
      · have hready := (State.storeReady_bareHarts s1 (s.viaQueue w.part w.qid) ls).trans hlocated
        split
        next s2 e2 =>
          rw [e2] at hready
          have hwritten := (State.writeLocs_bareHarts s2 (s.viaQueue w.part w.qid) ls w.bytes).trans hready
          split
          · exact hwritten
          · exact (State.releaseRods_bareHarts ..).trans hwritten
        next e2 => rw [e2] at hready; exact hready
        next e2 => rw [e2] at hready; exact hready
  next e => rw [e] at hlocated; exact hlocated
  next e => rw [e] at hlocated; exact hlocated

theorem State.frontWrite_bareHarts (s : State) (part qid : Nat) (why : FrontWhy) (va : Word) (bs : List Byte) :
    (s.frontWrite part qid why va bs).1.bareHarts = s.bareHarts := by
  have htried := State.frontTry_bareHarts s { part := part, qid := qid, why := why, va := va, bytes := bs }
  unfold State.frontWrite
  dsimp only
  split
  · exact htried
  · split
    · rfl
    · split <;> exact htried

end Sys2Proof.Machine
end

section
/-! The control of queues: CTRL (R37), the configuration (R29, R30), swaps (R39, R41), held packets (R35), the arbiter and the quantum (R40, R41). -/

namespace Sys2Proof.Machine

variable {s s1 s2 : State} {part qid : Nat} {q : Queue} {b : List Byte}

/-! ## CTRL -/

/-- The request of CTRL that is acted on: KILLREQ (1) before STOPREQ (0) before RESUMEREQ (2). -/
def topRequest (c : Nat) : Nat := if c / 2 % 2 = 1 then 1 else if c % 2 = 1 then 0 else 2

theorem topRequest_kill {c : Nat} (h : c / 2 % 2 = 1) : topRequest c = 1 := if_pos h

theorem topRequest_stop {c : Nat} (h : c = 1 ∨ c = 5) : topRequest c = 0 := by rcases h with rfl | rfl <;> rfl

theorem topRequest_ne_resume {c : Nat} (h : c % 2 = 1) : topRequest c ≠ 2 := by
  rw [topRequest, if_pos h]
  split <;> decide

theorem exec_request {i : Instr} (h : i = .stopreq part qid ∨ i = .killreq part qid ∨ i = .resumereq part qid) (s : State) :
    ∃ bit, exec i s = s.onCtrl part qid bit := by
  rcases h with rfl | rfl | rfl <;> exact ⟨_, rfl⟩

theorem State.onCtrl_untested (hq : s.queue? part qid = some q) (h : q.thread = none ∨ q.taken = true) (bit : Nat) : s.onCtrl part qid bit = .next s := by
  simp [State.onCtrl, hq, h]

theorem State.onCtrl_tests (hq : s.queue? part qid = some q) (hthread : q.thread.isSome = true) (htaken : q.taken = false) (bit : Nat) :
    s.onCtrl part qid bit = .next (s.testCtrl q (· == bit)) := by
  simp [State.onCtrl, hq, htaken, Option.isSome_iff_ne_none.mp hthread]

theorem State.testCtrl_bad (h : q.bad = true) (asked : Nat → Bool) : s.testCtrl q asked = s := by simp [State.testCtrl, h]

theorem State.testCtrl_trap (hbad : q.bad = false) {x : Nat} {v : Word} (hread : s.qpRead q (q.va 0x50) 8 = .trap x v s1) (asked : Nat → Bool) :
    s.testCtrl q asked = s1.queueBad q := by simp [State.testCtrl, hbad, hread]

/-- A test of CTRL that finds no request, or another than those asked for, only reads. -/
theorem State.testCtrl_passes (hbad : q.bad = false) (hread : s.qpRead q (q.va 0x50) 8 = .ok b s1) {asked : Nat → Bool}
    (h : leNat b % 8 = 0 ∨ asked (topRequest (leNat b % 8)) = false) : s.testCtrl q asked = s1 := by
  rw [State.testCtrl, if_neg (by simp [hbad])]
  simp only [hread]
  exact if_pos h

theorem State.testCtrl_acts (hbad : q.bad = false) (hread : s.qpRead q (q.va 0x50) 8 = .ok b s1) {asked : Nat → Bool}
    (h : ¬ (leNat b % 8 = 0 ∨ asked (topRequest (leNat b % 8)) = false)) {old : Nat}
    (hclear : s1.amoVa (s1.viaQueue q.part q.qid) (q.va 0x50) false (fun w => w - leNat b % 8) = .ok old s2) :
    s.testCtrl q asked = s2.ctrlAct q.part q.qid (topRequest (leNat b % 8)) := by
  rw [State.testCtrl, if_neg (by simp [hbad])]
  simp only [hread, hclear]
  exact if_neg h

section
variable (hq : s.queue? part qid = some q) (hthread : q.thread.isSome = true) (htaken : q.taken = false) (hbad : q.bad = false)
  (hread : s.qpRead q (q.va 0x50) 8 = .ok b s1)
include hq hthread htaken hbad hread

/-- A request below the highest one does nothing now. -/
theorem State.onCtrl_passes {bit : Nat} (h : topRequest (leNat b % 8) ≠ bit) : s.onCtrl part qid bit = .next s1 := by
  rw [State.onCtrl_tests hq hthread htaken, State.testCtrl_passes hbad hread (.inr (by simpa using h))]

theorem State.onCtrl_acts {bit : Nat} (h : topRequest (leNat b % 8) = bit) (hset : leNat b % 8 ≠ 0) {old : Nat}
    (hclear : s1.amoVa (s1.viaQueue q.part q.qid) (q.va 0x50) false (fun w => w - leNat b % 8) = .ok old s2) :
    s.onCtrl part qid bit = .next (s2.ctrlAct q.part q.qid bit) := by
  subst h
  rw [State.onCtrl_tests hq hthread htaken, State.testCtrl_acts hbad hread (by simp [hset]) hclear]

end

/-! ## The configuration -/

theorem State.readConfig_odd (hread : s.qpRead q (q.va 0) 64 = .ok b s1) (hodd : fld b 0 4 % 2 = 1) (force : Bool) : s.readConfig q force = s1 := by
  simp [State.readConfig, hread, hodd]

section
variable (hread : s.qpRead q (q.va 0) 64 = .ok b s1) (heven : fld b 0 4 % 2 = 0) (hnew : q.seqword ≠ some (fld b 0 4))
include hread heven hnew

theorem State.readConfig_valid (hqid : fld b 4 2 = q.qid) (hgood : cfgBad b = none) (force : Bool) :
    s.readConfig q force = s1.takeConfig { q with seqword := some (fld b 0 4), bad := false } (cfgOf b) := by
  simp [State.readConfig, hread, heven, hnew, hqid, hgood]

theorem State.readConfig_invalid {off : Nat} (hqid : fld b 4 2 = q.qid) (hbad : cfgBad b = some off) (force : Bool) :
    s.readConfig q force = (s1.setQueue { q with seqword := some (fld b 0 4), bad := false, cfgOk := false }).queueError q.part q.qid 0x49 q.rdidx 0
      [BitVec.ofNat 64 off, BitVec.ofNat 64 (fld b 0 4)] := by
  simp [State.readConfig, hread, heven, hnew, hqid, hbad]

theorem State.readConfig_otherQid (hqid : fld b 4 2 ≠ q.qid) (force : Bool) :
    s.readConfig q force = (s1.setQueue { q with seqword := some (fld b 0 4), bad := false, cfgOk := false }).queueError q.part q.qid 0x48 q.rdidx 0
      [BitVec.ofNat 64 (fld b 4 2)] := by
  simp [State.readConfig, hread, heven, hnew, hqid]

end

/-! ## Swaps and held packets -/

section
variable (hq : s.queue? part qid = some q)
include hq

theorem exec_qcbConfigRead_resident (h : q.thread.isSome = true) : exec (.qcbConfigRead part qid) s = .next (s.readConfig q false) := by
  simp [exec, execQcbConfigRead, hq, h]

theorem exec_qcbConfigRead_swapsIn {t : Nat} (h : q.thread = none) (hfree : s.freeThread = some t) (hbound : s.atBoundary = true) :
    exec (.qcbConfigRead part qid) s = .next (s.swapIn q t) := by
  simp [exec, execQcbConfigRead, hq, h, hfree, hbound]

theorem exec_qcbConfigRead_waits (h : q.thread = none) (hwait : s.freeThread = none ∨ s.atBoundary = false) :
    exec (.qcbConfigRead part qid) s = .next s := by
  rcases hwait with hnone | hinside
  · simp [exec, execQcbConfigRead, hq, h, hnone]
  · cases hfree : s.freeThread <;> simp [exec, execQcbConfigRead, hq, h, hfree, hinside]

theorem exec_barrierRelease_frees (h : q.qstate = .awaiting) (hdone : s.earlierDone part qid = true) :
    exec (.barrierRelease part qid) s = .next (s.setQueue { q with qstate := .ready }) := by
  simp [exec, execBarrierRelease, hq, h, hdone]

theorem exec_barrierRelease_holds (h : q.qstate ≠ .awaiting ∨ s.earlierDone part qid = false) : exec (.barrierRelease part qid) s = .next s := by
  have hnot : ¬ (q.qstate = .awaiting ∧ s.earlierDone part qid = true) := fun ⟨hawait, hdone⟩ => by simp [hawait, hdone] at h
  simp [exec, execBarrierRelease, hq, hnot]

end

/-! ## The arbiter and the quantum -/

/-- The queues that hold a LAUNCH ready to be accepted. -/
def State.readyQueues (s : State) : List Queue := s.qp.queues.filter fun q => !q.granted && s.launchReady q

/-- The highest of their levels. -/
def State.topLevel (s : State) : Nat := s.readyQueues.foldl (fun n q => max n q.effprio) 0

/-- The queue that the arbiter grants. -/
def State.grantee (s : State) : Option Queue := afterSlot (aget s.qp.rr s.topLevel) (s.readyQueues.filter fun q => q.effprio == s.topLevel)

/-- Queue g has the grant. -/
def State.grantTo (s : State) (g : Queue) : State :=
  let s1 := s.setQueue { g with granted := true, grantEff := g.effprio, effprio := (g.cfg.map (·.prio)).getD 0, age := 0, lastGrant := s.time }
  { s1 with qp := { s1.qp with rr := aput s.qp.rr s.topLevel (g.thread.getD 0) } }

theorem State.grantee_of_none (h : s.readyQueues = []) : s.grantee = none := by
  rw [State.grantee, h]
  rfl

theorem exec_launchGrant_grants {g : Queue} (h : s.grantee = some g) : exec .launchGrant s = .next (s.grantTo g) := by
  simp only [State.grantee, State.topLevel, State.readyQueues] at h
  simp only [exec, execLaunchGrant, h]
  rfl

theorem exec_launchGrant_idle (h : s.grantee = none) : exec .launchGrant s = .next s := by
  simp only [State.grantee, State.topLevel, State.readyQueues] at h
  simp only [exec, execLaunchGrant, h]

theorem exec_quantumEnd_atBoundary (h : s.atBoundary = true) :
    exec .quantumEnd s = .next (State.applyPolicy
      { s.qp.queues.foldl (fun st x => st.ageQueue x) s with qp := { (s.qp.queues.foldl (fun st x => st.ageQueue x) s).qp with qstart := s.time } }) :=
  congrArg Host.Outcome.next (if_pos h)

theorem exec_quantumEnd_inside (h : s.atBoundary = false) : exec .quantumEnd s = .next s :=
  congrArg Host.Outcome.next (if_neg (Bool.eq_false_iff.mp h))

theorem State.ageQueue_waiting (hthread : q.thread.isSome = true) (hgranted : q.granted = false) (hready : s.launchReady q = true) :
    s.ageQueue q = s.setQueue (if q.age + 1 = 4 then { q with age := 0, effprio := min 7 (q.effprio + 1) } else { q with age := q.age + 1 }) := by
  rw [State.ageQueue, if_pos ⟨hthread, by simp [hgranted], hready⟩]
  split <;> rfl

theorem State.ageQueue_other (h : q.thread = none ∨ q.granted = true ∨ s.launchReady q = false) : s.ageQueue q = s := by
  refine if_neg ?_
  rintro ⟨hthread, hgranted, hready⟩
  simp [Option.isSome_iff_ne_none.mp hthread, hready] at h
  simp [h] at hgranted

end Sys2Proof.Machine
end

section
/-! The watchdog (R31) and posting from a task (R107 to R109). -/

namespace Sys2Proof.Machine

open Sys2Proof.Machine.Claim

variable {s s1 t : State} {hart : Nat}

/-! ## The watchdog -/

/-- A hart that runs the runtime from its entry. -/
def State.AtEntry (s : State) (h : Nat) : Prop := (s.getSeq h).pc = Config.runtimeEntry ∧ (s.getSeq h).mode = .s ∧ (s.getSeq h).run = .running

theorem State.repairQcb_bareHarts (s : State) (q : Queue) : (s.repairQcb q).bareHarts = s.bareHarts := by
  unfold State.repairQcb
  split
  · split
    · exact (State.frontWrite_bareHarts ..).trans (State.frontWrite_bareHarts ..)
    · rfl
  · rfl

theorem State.restartRuntime_others {other : Nat} (hne : hart ≠ other) (s : State) : (s.restartRuntime other).getSeq hart = s.getSeq hart := by
  rw [State.restartRuntime, State.getSeq_modSeq, if_neg hne]

/-- Root restarts the runtime on a hart of it that is not in M mode. -/
theorem State.restartRuntime_atEntry (hsup : 4096 ≤ hart) (hmode : (s.getSeq hart).mode ≠ .m) : (s.restartRuntime hart).AtEntry hart := by
  rw [State.AtEntry, State.restartRuntime, State.getSeq_modSeq, if_pos rfl, if_neg (not_or.mpr ⟨Nat.not_lt.mpr hsup, hmode⟩)]
  exact ⟨rfl, rfl, rfl⟩

/-- After root has gone through a list of harts, each of them is at the entry. -/
theorem State.restartRuntimes_atEntry (hsup : 4096 ≤ hart) (l : List Nat) (s : State) (hmode : (s.getSeq hart).mode ≠ .m)
    (hin : hart ∈ l ∨ s.AtEntry hart) : (l.foldl (fun st g => st.restartRuntime g) s).AtEntry hart := by
  induction l generalizing s with
  | nil => exact hin.resolve_left List.not_mem_nil
  | cons g l ih =>
    by_cases hg : hart = g
    · subst hg
      have hentry := State.restartRuntime_atEntry hsup hmode
      exact ih _ (by rw [hentry.2.1]; decide) (.inr hentry)
    · have hsame := State.restartRuntime_others hg s
      refine ih _ (hsame ▸ hmode) ?_
      rw [State.AtEntry, hsame]
      exact hin.imp_left fun hmem => (List.mem_cons.mp hmem).resolve_left hg

theorem exec_runtimeWatchdog_early (h : s.time < s.dev.alive + Config.wdt) : exec .runtimeWatchdog s = .next s :=
  congrArg Host.Outcome.next (if_pos h)

/-- The repair of the QCBs, which comes first, changes no hart's mode. -/
theorem exec_runtimeWatchdog_due (h : s.dev.alive + Config.wdt ≤ s.time) (hart : Nat) :
    ∃ t : State, exec .runtimeWatchdog s = .next t ∧ t.dev.cause = 2 ∧ t.dev.alive = s.time ∧
      (hart ∈ s.harts → 4096 ≤ hart → (s.getSeq hart).mode ≠ .m → t.AtEntry hart) := by
  refine ⟨_, congrArg Host.Outcome.next (if_neg (Nat.not_lt.mpr h)), rfl, rfl, fun hmem hsup hmode => ?_⟩
  have hrepaired := foldl_keeps State.bareHarts State.repairQcb_bareHarts s.qp.queues s
  exact State.restartRuntimes_atEntry hsup _ _ (State.mode_of_bareHarts hrepaired hart ▸ hmode) (.inl (State.harts_of_bareHarts hrepaired ▸ hmem))

/-! ## Posting from a task -/

theorem State.flushP_bareHarts (s : State) (h : Nat) : (s.flushP h).bareHarts = s.bareHarts := by
  unfold State.flushP
  split
  · rfl
  · refine (foldl_keeps State.bareHarts (fun st p => ?_) _ _).trans rfl
    unfold State.pHome
    split
    · rfl
    · exact (State.breakResv_bareHarts ..).trans rfl

theorem State.flushP_parts_qp (s : State) (h : Nat) : ((s.flushP h).parts, (s.flushP h).qp) = (s.parts, s.qp) := by
  unfold State.flushP
  split
  · rfl
  · refine (foldl_keeps (fun st => (st.parts, st.qp)) (fun st p => ?_) _ _).trans rfl
    unfold State.pHome
    split <;> rfl

theorem State.settled_coh (s : State) (h : Nat) : ∃ c, s.settled h = { s with coh := c } := by
  unfold State.settled
  split
  · exact ⟨s.coh, rfl⟩
  · exact ⟨_, rfl⟩

/-- What a release writes back changes neither the partition of the running hart nor its queues. -/
theorem State.ownQueue_released (s : State) (qid : Nat) :
    ((s.flushP s.hart).settled s.hart).queue? (((s.flushP s.hart).settled s.hart).partOf ((s.flushP s.hart).settled s.hart).hart) qid =
      s.queue? (s.partOf s.hart) qid := by
  obtain ⟨c, hc⟩ := State.settled_coh (s.flushP s.hart) s.hart
  obtain ⟨hparts, hqp⟩ := Prod.mk.inj (State.flushP_parts_qp s s.hart)
  have hharts := State.flushP_bareHarts s s.hart
  have hhart : (s.flushP s.hart).hart = s.hart := congrArg Prod.fst hharts
  have htask : ((s.flushP s.hart).seq).task = s.seq.task := congrArg (fun v => v.2.1.task) hharts
  rw [hc]
  simp [State.queue?, State.partOf, State.getSeq, State.partOfCluster, hparts, hqp, hhart, htask]

/-- The queue processor executes the post that a hart has reached; then the running hart runs again. -/
theorem exec_qpPost {i : Instr} {rd rs1 rs2 : Reg} (hi : i = .launch rd rs1 rs2 ∨ i = .qsignal rd rs1 rs2) (hrun : (s.getSeq hart).canRun hart = true)
    (hfetch : (s.switch hart).fetch = .ok i s1) (hwait : s1.mustWait i = false) {e : State} (he : exec i s1 = .next e) :
    exec (.qpPost hart) s = .next (e.switch s.hart) := by
  rcases hi with rfl | rfl <;> simp only [exec] at he <;> simp [exec, execQpPost, hrun, hfetch, hwait, he]

theorem exec_qpPost_stopped (hrun : (s.getSeq hart).canRun hart = false) : exec (.qpPost hart) s = .next s := by simp [exec, execQpPost, hrun]

/-- A post completes with the answer w in x[rd]. -/
theorem exec_qpPost_answers {i : Instr} {rd rs1 rs2 : Reg} (hi : i = .launch rd rs1 rs2 ∨ i = .qsignal rd rs1 rs2) (hrun : (s.getSeq hart).canRun hart = true)
    (hfetch : (s.switch hart).fetch = .ok i s1) (hwait : s1.mustWait i = false) {w : Word} (hdone : exec i s1 = finish (.ok () (t.setX rd w))) :
    ∃ e, exec (.qpPost hart) s = .next (e.switch s.hart) ∧ Retired (t.setX rd w) (t.setX rd w).nextPc e :=
  have ⟨e, he, hretired⟩ := completes_of_finish hdone
  ⟨e, exec_qpPost hi hrun hfetch hwait he, hretired⟩

/-- A release at .sys that owes nothing to a peer goes on at once. -/
theorem State.releaseSys_of_settled (h : s.peerOwes s.via.party = false) : s.releaseSys = .ok () ((s.flushP s.hart).settled s.hart) :=
  if_neg (Bool.eq_false_iff.mp h)

/-- A post to a queue that the partition has not answers -1. -/
theorem State.post_noQueue {qid : Nat} (h : s.queue? (s.partOf s.hart) qid = none) (word0 : Nat) (body : List Byte) :
    s.post qid word0 body = .ok (minus 1) s := by
  simp [State.post, h]

variable {rd rs1 rs2 : Reg}

theorem exec_launch_reserved (h : getBits (s.x rs2) 12 4 ≠ 0 ∨ getBits (s.x rs2) 18 14 ≠ 0) :
    exec (.launch rd rs1 rs2) s = finish (.ok () (s.setX rd (minus 3))) :=
  congrArg finish (if_pos h)

theorem exec_launch_posts (h1 : getBits (s.x rs2) 12 4 = 0) (h2 : getBits (s.x rs2) 18 14 = 0) (howes : s.peerOwes s.via.party = false) {w : Word}
    (hpost : ((s.flushP s.hart).settled s.hart).post (getBits (s.x rs2) 0 12)
      (2 + getBits (s.x rs2) 17 1 + 512 * getBits (s.x rs2) 16 1 + getBits (s.x rs2) 32 32 * 2 ^ 32) (leBytes 8 (s.x rs1).toNat) = .ok w t) :
    exec (.launch rd rs1 rs2) s = finish (.ok () (t.setX rd w)) := by
  simp only [exec, execLaunch, h1, h2, State.releaseSys_of_settled howes, Res.bind_ok, hpost, ne_eq, not_true_eq_false, or_self, if_false]

theorem exec_qsignal_reserved (h : getBits (s.x rs2) 12 4 ≠ 0 ∨ getBits (s.x rs2) 19 13 ≠ 0 ∨ getBits (s.x rs2) 16 2 = 3) :
    exec (.qsignal rd rs1 rs2) s = finish (.ok () (s.setX rd (minus 3))) :=
  congrArg finish (if_pos h)

theorem exec_qsignal_posts (h1 : getBits (s.x rs2) 12 4 = 0) (h2 : getBits (s.x rs2) 19 13 = 0) (h3 : getBits (s.x rs2) 16 2 ≠ 3)
    (howes : s.peerOwes s.via.party = false) {w : Word}
    (hpost : ((s.flushP s.hart).settled s.hart).post (getBits (s.x rs2) 0 12) 6
      (leBytes 8 (s.x rs1).toNat ++ leBytes 8 (getBits (s.x rs2) 32 32) ++ leBytes 4 (getBits (s.x rs2) 16 2) ++ leBytes 4 (getBits (s.x rs2) 18 1)) = .ok w t) :
    exec (.qsignal rd rs1 rs2) s = finish (.ok () (t.setX rd w)) := by
  simp only [exec, execQsignal, h1, h2, h3, State.releaseSys_of_settled howes, Res.bind_ok, hpost, ne_eq, not_true_eq_false, or_self, if_false]

end Sys2Proof.Machine
end

section
/-! The life of a launch: binding of workgroups, runs and pipelines (R18, R25, R45 to R47), and its completion (R21). -/

namespace Sys2Proof.Machine

variable {s s1 : State} {launch : Nat} {l : Launch}

section
variable (hl : s.launch? launch = some l)
include hl

/-! ## Binding -/

/-- A launch that may bind nothing now is left as it is. -/
theorem exec_bind_closed (h : s.binds l = false) :
    exec (.workgroupBind launch) s = .next s ∧ exec (.runBind launch) s = .next s ∧ exec (.pipelineBind launch) s = .next s := by
  simp [exec, execWorkgroupBind, execRunBind, execPipelineBind, hl, h]

section
variable (hkind : l.kind = 1) (hos : l.os = false) (hbinds : s.binds l = true)
include hkind hos hbinds

theorem exec_workgroupBind_none (h : gridGroups l.header ≤ l.nextGroup 4096 l.cursor ∨ l.group (l.nextGroup 4096 l.cursor) = []) :
    exec (.workgroupBind launch) s = .next (s.modLaunch launch fun x => { x with cursor := l.nextGroup 4096 l.cursor }) := by
  simp [exec, execWorkgroupBind, hl, hkind, hos, hbinds, h]

/-- A workgroup is bound whole or not at all. -/
theorem exec_workgroupBind_next (hlt : l.nextGroup 4096 l.cursor < gridGroups l.header) (hne : l.group (l.nextGroup 4096 l.cursor) ≠ []) :
    exec (.workgroupBind launch) s = .next ((s.placeGroup launch (l.nextGroup 4096 l.cursor) (l.group (l.nextGroup 4096 l.cursor))).elim
      (s.modLaunch launch fun x => { x with cursor := l.nextGroup 4096 l.cursor })
      fun t => t.modLaunch launch fun x => { x with cursor := l.nextGroup 4096 l.cursor + 1 }) := by
  cases hplace : s.placeGroup launch (l.nextGroup 4096 l.cursor) (l.group (l.nextGroup 4096 l.cursor)) <;>
    simp [exec, execWorkgroupBind, hl, hkind, hos, hbinds, Nat.not_le.mpr hlt, hne, hplace]

end

/-- So is a run under OS. -/
theorem exec_runBind {e : Nat} (hkind : l.kind = 1) (hos : l.os = true) (hbinds : s.binds l = true) (hlt : l.cursor < gridGroups l.header)
    (hend : l.runEnd (gridGroups l.header) l.cursor = some e) :
    exec (.runBind launch) s = .next ((placeRun launch l ((List.range (e - l.cursor)).map fun i => l.cursor + i) s).elim s
      fun t => t.modLaunch launch fun x => { x with cursor := e }) := by
  cases hplace : placeRun launch l ((List.range (e - l.cursor)).map fun i => l.cursor + i) s <;>
    simp [exec, execRunBind, hl, hkind, hos, hbinds, Nat.not_le.mpr hlt, hend, hplace]

/-- So is the next task of a pipeline. -/
theorem exec_pipelineBind_task (hkind : l.kind = 2) (hbinds : s.binds l = true) (hlt : l.cursor < l.total) :
    exec (.pipelineBind launch) s = .next ((s.placeGroup launch l.cursor [l.pipeSpec l.cursor]).elim s
      fun t => t.modLaunch launch fun x => { x with cursor := l.cursor + 1 }) := by
  cases hplace : s.placeGroup launch l.cursor [l.pipeSpec l.cursor] <;>
    simp [exec, execPipelineBind, hl, hkind, hbinds, hlt, hplace]

theorem exec_pipelineBind_releases {stage : Nat} (hkind : l.kind = 2) (hbinds : s.binds l = true) (hall : l.total ≤ l.cursor)
    (hstage : l.nextStage (l.releaseOrder (l.cursor - l.total)) = some stage) :
    exec (.pipelineBind launch) s = .next ((s.releaseStage l stage).modLaunch launch fun x => { x with cursor := l.cursor + 1 }) := by
  simp [exec, execPipelineBind, hl, hkind, hbinds, Nat.not_lt.mpr hall, hstage]

/-! ## Completion -/

section
variable (hwhole : l.severed = false ∨ l.done = true)
include hwhole

theorem exec_launchCompletion_over (hdone : l.done = false) (hover : s.launchOver l = true) :
    exec (.launchCompletion launch) s = .next (s.completeLaunch l) := by
  have hsev : l.severed = false := hwhole.resolve_right (Bool.eq_false_iff.mp hdone)
  simp [exec, execLaunchCompletion, hl, hsev, hdone, hover]

theorem exec_launchCompletion_not (h : l.done = true ∨ s.launchOver l = false) : exec (.launchCompletion launch) s = .next s := by
  have hcut : (l.severed && !l.done) = false := by rcases hwhole with h | h <;> simp [h]
  have hnot : ¬ (l.done = false ∧ s.launchOver l = true) := fun ⟨hdone, hover⟩ => by simp [hdone, hover] at h
  simp [exec, execLaunchCompletion, hl, hcut, hnot]

end

end

/-- The completion record of a launch is written, where it asks for one. -/
def State.recordWritten (s : State) (l : Launch) : State :=
  (if l.cplrec = 0 ∨ l.wrote then s else s.launchWrite l 1 l.cplrec (l.record s.time)).modLaunch l.id fun x => { x with wrote := true }

theorem State.completeLaunch_eq (hfree : s.frontBusy l.part l.qid = false) (hwritten : (s.recordWritten l).frontBusy l.part l.qid = false)
    (htimeline : (s.recordWritten l).raiseTimeline l = some s1) :
    s.completeLaunch l = { s1.modLaunch l.id fun x => { x with done := true } with barriers := s1.barriers.filter fun b => b.launch != l.id } := by
  unfold State.recordWritten at hwritten htimeline
  simp only [State.completeLaunch, hfree, hwritten, htimeline, Bool.false_eq_true, if_false]

/-- A launch whose timeline is written is done, and its barriers go. -/
theorem State.completeLaunch_done (hfree : s.frontBusy l.part l.qid = false) (hwritten : (s.recordWritten l).frontBusy l.part l.qid = false)
    (htimeline : (s.recordWritten l).raiseTimeline l = some s1) :
    (∀ x ∈ (s.completeLaunch l).launches, x.id = l.id → x.done = true) ∧ ∀ x ∈ (s.completeLaunch l).barriers, x.launch ≠ l.id := by
  rw [State.completeLaunch_eq hfree hwritten htimeline]
  refine ⟨fun x hx hid => ?_, fun x hx => by simpa using (List.mem_filter.mp hx).2⟩
  obtain ⟨y, -, rfl⟩ := List.mem_map.mp hx
  by_cases hy : y.id = l.id
  · rw [if_pos hy]
  · rw [if_neg hy] at hid
    contradiction

end Sys2Proof.Machine
end

section
/-! The obligation on queues and launches, from the lemmas above. -/

namespace Sys2Proof.Machine

/-- Settles O52: each event by the case it meets. The watchdog restarts the harts that it finds, since the repair of the QCBs breaks
reservations at most. -/
theorem queuesAndLaunchesAreRun : Obligations.QueuesAndLaunchesAreRun := by
  refine ⟨?control, ?arbiter, ?quantum, ?runtime, ?launches⟩
  case control =>
    intro s s1 s2 part qid q b hq
    refine ⟨?untested, ?acts, exec_qcbConfigRead_resident hq, fun force hread hodd => State.readConfig_odd hread hodd force, ?config,
      fun t h => exec_qcbConfigRead_swapsIn hq h, exec_qcbConfigRead_waits hq, exec_barrierRelease_frees hq, exec_barrierRelease_holds hq⟩
    case untested =>
      intro i hi
      obtain ⟨bit, hbit⟩ := exec_request hi s
      rw [hbit]
      refine ⟨fun h => State.onCtrl_untested hq h bit, fun hthread htaken hbad => ?_, fun hthread htaken hbad hread hnone => ?_,
        fun x v hthread htaken hbad hread => ?_⟩ <;> rw [State.onCtrl_tests hq hthread htaken]
      · rw [State.testCtrl_bad hbad]
      · rw [State.testCtrl_passes hbad hread (.inl hnone)]
      · rw [State.testCtrl_trap hbad hread]
    case acts =>
      intro hthread htaken hbad hread c clear
      have hpasses {bit : Nat} : topRequest c ≠ bit → s.onCtrl part qid bit = .next s1 := State.onCtrl_passes hq hthread htaken hbad hread
      refine ⟨fun old hclear => ?_, fun hkill => ?_, fun hstop => hpasses (topRequest_ne_resume hstop)⟩
      · have hacts {bit : Nat} : topRequest c = bit → c ≠ 0 → s.onCtrl part qid bit = .next (s2.ctrlAct q.part q.qid bit) :=
          fun h hset => State.onCtrl_acts hq hthread htaken hbad hread h hset hclear
        exact ⟨fun h => hacts (topRequest_stop h) (by omega), fun h => hacts (topRequest_kill h) (by omega), fun h => hacts (h ▸ rfl) (by omega)⟩
      · have htop := topRequest_kill hkill
        exact ⟨hpasses (by omega), hpasses (by omega)⟩
    case config =>
      intro force hread heven hnew
      exact ⟨fun hqid hgood => State.readConfig_valid hread heven hnew hqid hgood force,
        fun off hqid hbad => State.readConfig_invalid hread heven hnew hqid hbad force, fun hqid => State.readConfig_otherQid hread heven hnew hqid force⟩
  case arbiter =>
    intro s ready top
    exact ⟨fun h => exec_launchGrant_idle (State.grantee_of_none h),
      fun g hg => ⟨s.grantTo g, exec_launchGrant_grants hg, rfl, by exact (aget_aput ..).trans (if_pos rfl), rfl⟩⟩
  case quantum => exact fun s q => ⟨exec_quantumEnd_atBoundary, exec_quantumEnd_inside, State.ageQueue_waiting, State.ageQueue_other⟩
  case runtime =>
    intro s s1 e h rd rs1 rs2 i
    refine ⟨exec_runtimeWatchdog_early, fun hdue => exec_runtimeWatchdog_due hdue h, rfl, exec_qpPost_stopped,
      fun hi hrun hfetch hwait he => exec_qpPost hi hrun hfetch hwait he, ?_⟩
    intro ready c qid answers post word0 signal
    have hanswers {w : Word} {t : State} (hi : i = .launch rd rs1 rs2 ∨ i = .qsignal rd rs1 rs2) (hready : ready)
        (hdone : exec i s1 = finish (.ok () (t.setX rd w))) : answers w t :=
      have ⟨hrun, hfetch, hwait⟩ := hready
      exec_qpPost_answers hi hrun hfetch hwait hdone
    constructor
    · rintro rfl hready
      refine ⟨fun hres => hanswers (.inl rfl) hready (exec_launch_reserved hres), fun h1 h2 howes => ⟨fun hnone => ?_, fun w st hpost => ?_⟩⟩
      · exact hanswers (.inl rfl) hready (exec_launch_posts h1 h2 howes (State.post_noQueue ((State.ownQueue_released s1 qid).trans hnone) _ _))
      · exact hanswers (.inl rfl) hready (exec_launch_posts h1 h2 howes hpost)
    · rintro rfl hready
      exact ⟨fun hres => hanswers (.inr rfl) hready (exec_qsignal_reserved hres),
        fun h1 h2 h3 howes w st hpost => hanswers (.inr rfl) hready (exec_qsignal_posts h1 h2 h3 howes hpost)⟩
  case launches =>
    intro s s1 launch l hl
    refine ⟨?groups, ?runs, ?pipeline, exec_bind_closed hl, fun hwhole => ⟨exec_launchCompletion_over hl hwhole, exec_launchCompletion_not hl hwhole⟩,
      State.completeLaunch_done⟩
    case groups =>
      intro hkind hos hbinds o
      refine ⟨exec_workgroupBind_none hl hkind hos hbinds, fun hlt hne => ⟨fun hplace => ?_, fun hplace => ?_⟩⟩ <;>
        rw [exec_workgroupBind_next hl hkind hos hbinds hlt hne, hplace] <;> rfl
    case runs =>
      intro e hkind hos hbinds hlt hend run
      refine ⟨fun hplace => ?_, fun hplace => ?_⟩ <;> rw [exec_runBind hl hkind hos hbinds hlt hend, hplace] <;> rfl
    case pipeline =>
      intro hkind hbinds
      refine ⟨fun hlt hplace => ?_, fun hlt hplace => ?_, fun stage hall hstage => exec_pipelineBind_releases hl hkind hbinds hall hstage⟩ <;>
        rw [exec_pipelineBind_task hl hkind hbinds hlt, hplace] <;> rfl

end Sys2Proof.Machine
end

section
/-! What an event does with the packet at the head of a queue (R33 to R36): the packet's action answers at once, at a fault, or with a wait. -/

namespace Sys2Proof.Machine

variable {s s1 t : State} {p : Packet} {part qid : Nat} {b : List Byte}

/-! ## Taking a packet -/

/-- The packet's queue keeps its place: the packet is in hand. -/
def State.begun (s : State) (p : Packet) : State :=
  s.modQueue p.q.part p.q.qid fun q => { q with hand := if q.hand = .none then .begun else q.hand }

/-- Every event on packets tries to take one of the types that it acts on. -/
theorem exec_packetEvent {i : Instr} (h : i = Instr.nop part qid ∨ i = .invalidPacket part qid ∨ i = .waitTl part qid ∨ i = .waitMem part qid ∨
    i = .waitPacketTimeout part qid ∨ i = .signal part qid ∨ i = .copy part qid ∨ i = .marker part qid ∨ i = .launchGrid part qid ∨
    i = .launchPipe part qid) (s : State) : ∃ types f, exec i s = s.onPacket part qid types f := by
  rcases h with rfl | rfl | rfl | rfl | rfl | rfl | rfl | rfl | rfl | rfl <;> exact ⟨_, _, rfl⟩

theorem exec_wait {i : Instr} (h : (i = Instr.waitTl part qid ∧ p.type = 4) ∨ (i = .waitMem part qid ∧ p.type = 5) ∨
    (i = .waitPacketTimeout part qid ∧ (p.type = 4 ∨ p.type = 5))) (s : State) :
    ∃ types, p.type ∈ types ∧ exec i s = s.onPacket part qid types State.testWait := by
  rcases h with ⟨rfl, h⟩ | ⟨rfl, h⟩ | ⟨rfl, h⟩ <;> exact ⟨_, by simp [h], rfl⟩

theorem exec_launchPacket {i : Instr} {accept : State → Packet → List Byte → Res Unit}
    (h : (i = Instr.launchGrid part qid ∧ p.type = 2 ∧ accept = State.acceptGrid) ∨ (i = .launchPipe part qid ∧ p.type = 3 ∧ accept = State.acceptPipe))
    (s : State) : ∃ types, p.type ∈ types ∧ exec i s = s.onPacket part qid types fun st k => st.doLaunch accept k := by
  rcases h with ⟨rfl, h, rfl⟩ | ⟨rfl, h, rfl⟩ <;> exact ⟨_, by simp [h], rfl⟩

theorem State.onPacket_none (h : s.takePacket part qid = .ok none s1) (types : List Nat) (f : State → Packet → Res Unit) :
    s.onPacket part qid types f = .next s1 := by
  simp [State.onPacket, h, finishEvent]

section
variable (htake : s.takePacket part qid = .ok (some p) s1) {types : List Nat} {f : State → Packet → Res Unit}
include htake

theorem State.onPacket_otherType (htype : p.type ∉ types) : s.onPacket part qid types f = .next s1 := by
  simp [State.onPacket, htake, htype, finishEvent]

/-- An action that ends leaves its state. -/
theorem State.onPacket_ends (htype : p.type ∈ types) (h : f s1 p = .ok () t) : s.onPacket part qid types f = .next t := by
  simp [State.onPacket, htake, htype, h, State.inHand, finishEvent]

/-- One that waits leaves the packet in hand. -/
theorem State.onPacket_waits (htype : p.type ∈ types) {w : Stall} (h : f s1 p = .stall w t) : s.onPacket part qid types f = .next (t.begun p) := by
  simp [State.onPacket, htake, htype, h, State.inHand, finishEvent, State.begun]

end

/-- A release goes on once its party owes no acknowledgement. -/
theorem State.afterPeers_owing {party : Party} (h : s.peerOwes party = true) : s.afterPeers party = .stall .peer s := if_pos h

theorem State.afterPeers_settled {party : Party} (h : s.peerOwes party = false) : s.afterPeers party = .ok () s := if_neg (Bool.eq_false_iff.mp h)

/-! ## Waits -/

theorem State.testWait_misaligned (h : (p.w 0x08).toNat % 8 ≠ 0) : s.testWait p = .ok () (s.packetFault p [p.w 0x08]) := if_pos h

section
variable (haligned : (p.w 0x08).toNat % 8 = 0)
include haligned

theorem State.testWait_trap {c : Nat} {v : Word} (hread : s.qpRead p.q (p.w 0x08) 8 = .trap c v t) : s.testWait p = .ok () (t.packetFault p [v]) := by
  simp [State.testWait, haligned, hread, orFault]

variable (hread : s.qpRead p.q (p.w 0x08) 8 = .ok b t)
include hread

theorem State.testWait_met (hmet : p.met (leNat b) = true) : s.testWait p = .ok () ((t.dropAsks (.queue p.q.part p.q.qid)).endPacket p.q) := by
  simp [State.testWait, haligned, hread, hmet, orFault]

variable (hunmet : p.met (leNat b) = false)
include hunmet

theorem State.testWait_timesOut (hset : p.timeout ≠ 0) (hover : p.timeout ≤ s.time - p.q.waitFrom.getD s.time) :
    s.testWait p = .ok () (((t.dropAsks (.queue p.q.part p.q.qid)).setQueue { p.q with waitFrom := some (p.q.waitFrom.getD s.time), hand := .none }).queueError
      p.q.part p.q.qid 0x43 p.q.rdidx p.utag [BitVec.ofNat 64 (leNat b)]) := by
  simp [State.testWait, haligned, hread, hunmet, hset, hover, orFault]

/-- A queue that a wait blocks anew lets the policy change the resident set. -/
theorem State.testWait_blocks (htime : p.timeout = 0 ∨ s.time - p.q.waitFrom.getD s.time < p.timeout) :
    let blocked := (t.dropAsks (.queue p.q.part p.q.qid)).setQueue { p.q with qstate := .blocked, waitFrom := some (p.q.waitFrom.getD s.time), hand := .none }
    s.testWait p = .ok () (if p.q.qstate = .blocked then blocked else blocked.applyPolicy) := by
  have hnot : ¬ (p.timeout ≠ 0 ∧ p.timeout ≤ s.time - p.q.waitFrom.getD s.time) := by omega
  simp only [State.testWait, haligned, hread, hunmet, hnot, orFault, Res.bind_ok, ne_eq, not_true_eq_false, Bool.false_eq_true, if_false]

end

/-! ## SIGNAL -/

/-- What a SIGNAL makes of its word. -/
def Packet.signalOp (p : Packet) (old : Nat) : Nat :=
  match fld p.b 0x18 4 with | 0 => (p.w 0x10).toNat | 1 => max old (p.w 0x10).toNat | _ => (old + (p.w 0x10).toNat) % 2 ^ 64

/-- The AMO of a SIGNAL. -/
def State.signalAmo (s : State) (p : Packet) : Res Nat := s.amoVa (s.viaQueue p.q.part p.q.qid) (p.w 0x08) false p.signalOp

theorem State.doSignal_misaligned (h : (p.w 0x08).toNat % 8 ≠ 0) : s.doSignal p = .ok () (s.packetFault p [p.w 0x08]) := if_pos h

section
variable (haligned : (p.w 0x08).toNat % 8 = 0)
include haligned

theorem State.doSignal_owing (howes : s.peerOwes (.queue p.q.part p.q.qid) = true) : s.doSignal p = .stall .peer s := by
  simp [State.doSignal, haligned, State.afterPeers_owing howes, orFault]

theorem State.doSignal_settled (howes : s.peerOwes (.queue p.q.part p.q.qid) = false) :
    s.doSignal p = orFault p ((s.signalAmo p).bind fun old s1 =>
      .ok () ((if fld p.b 0x1C 4 = 1 then s1.sendEvent p.q.part 1 p.q.qid (p.w 0x08) (BitVec.ofNat 64 (p.signalOp old)) else s1).endPacket p.q)) := by
  simp only [State.doSignal, haligned, State.afterPeers_settled howes, Res.bind_ok, ne_eq, not_true_eq_false, if_false]
  rfl

end

/-! ## MARKER -/

theorem State.doMarker_misaligned (h : (p.w 0x08).toNat % 8 ≠ 0) : s.doMarker p = .ok () (s.packetFault p [p.w 0x08]) := if_pos h

section
variable (haligned : (p.w 0x08).toNat % 8 = 0)
include haligned

theorem State.doMarker_owing (howes : s.peerOwes (.queue p.q.part p.q.qid) = true) : s.doMarker p = .stall .peer s := by
  have hpeers : s.afterPeers (s.viaQueue p.q.part p.q.qid).party = .stall .peer s := State.afterPeers_owing howes
  simp [State.doMarker, haligned, hpeers, orFault]

variable (howes : s.peerOwes (.queue p.q.part p.q.qid) = false)
include howes

theorem State.doMarker_sent (hsent : p.q.hand = .sent) : s.doMarker p = .ok () (s.endPacket p.q) := by
  have hpeers : s.afterPeers (s.viaQueue p.q.part p.q.qid).party = .ok () s := State.afterPeers_settled howes
  simp [State.doMarker, haligned, hpeers, hsent, orFault]

theorem State.doMarker_writes (hsent : p.q.hand ≠ .sent) :
    s.doMarker p = orFault p ((s.markWords (s.viaQueue p.q.part p.q.qid) (p.w 0x08) (p.w 0x10).toNat).bind fun whole s2 =>
      .ok () (if whole then s2.endPacket p.q else s2.modQueue p.q.part p.q.qid fun q => { q with hand := .sent })) := by
  have hpeers : s.afterPeers (s.viaQueue p.q.part p.q.qid).party = .ok () s := State.afterPeers_settled howes
  simp only [State.doMarker, haligned, hpeers, hsent, Res.bind_ok, ne_eq, not_true_eq_false, if_false]
  congr 2
  funext whole s2
  split <;> rfl

end

/-- A word of a MARKER that is not a peer's is written here. -/
theorem State.markWord_here {l : Loc} (h : isPeer l = false) (s : State) (via : Via) (v : Nat) : s.markWord via l v = s.writeLocs via [l] (leBytes 8 v) := by
  unfold State.markWord
  split
  next hpeer _ => simp [isPeer, hpeer] at h
  next => rfl

theorem State.markWords_here {via : Via} {a : Word} {l m : Loc} {t0 t1 t2 t3 : State} (hl : s.locate via a 8 .store = .ok [l] t0)
    (hm : t0.locate via (a + 8) 8 .store = .ok [m] t1) (hlhere : isPeer l = false) (hmhere : isPeer m = false)
    (hlready : t1.markReady via l = .ok () t2) (hmready : t2.markReady via m = .ok () t3) (tag : Nat) :
    s.markWords via a tag = .ok true ((t3.writeLocs via [l] (leBytes 8 tag)).writeLocs via [m] (leBytes 8 s.time)) := by
  simp only [State.markWords, hl, hm, hlready, hmready, hlhere, hmhere, Res.bind_ok, State.markWord_here, Bool.not_false, Bool.and_self]

/-! ## COPY -/

theorem State.doCopy_long (h : 2 ^ 40 < (p.w 0x18).toNat) : s.doCopy p = .ok () (s.packetFault p [0, p.w 0x18]) := if_pos h

theorem State.doCopy_misaligned (hlen : (p.w 0x18).toNat ≤ 2 ^ 40) (h : (p.w 0x20).toNat % 8 ≠ 0) : s.doCopy p = .ok () (s.packetFault p [p.w 0x20]) :=
  (if_neg (Nat.not_lt.mpr hlen)).trans (if_pos h)

/-- The copy that a COPY packet asks of the hub. -/
def Packet.hubCopy (p : Packet) : HubCopy :=
  { part := p.q.part, qid := p.q.qid, pkt := p.q.rdidx, utag := p.utag, src := p.w 0x08, dst := p.w 0x10, bytes := (p.w 0x18).toNat, done := 0,
    tl := p.w 0x20, value := p.w 0x28, dead := false }

theorem State.doCopy_issues (hlen : (p.w 0x18).toNat ≤ 2 ^ 40) (h : (p.w 0x20).toNat % 8 = 0) :
    s.doCopy p = .ok () (State.endPacket { s with qp := { s.qp with hub := s.qp.hub ++ [p.hubCopy] } } p.q) :=
  (if_neg (Nat.not_lt.mpr hlen)).trans (if_neg (not_not.mpr h))

/-- The timeline of a copy, once the hub owes no acknowledgement. -/
def State.hubRaise (s : State) (c : HubCopy) : Res Unit := s.amoMax (s.viaHub c.part false) c.tl false c.value.toNat

theorem State.hubTimeline_owing (h : s.peerOwes .hub = true) (idx : Nat) (c : HubCopy) :
    s.hubTimeline idx c = .ok () (s.setHub idx (some { c with bytes := c.done })) := by
  simp [State.hubTimeline, State.afterPeers_owing h]

section
variable (howes : s.peerOwes .hub = false) (idx : Nat) (c : HubCopy)
include howes

theorem State.hubTimeline_raised (h : s.hubRaise c = .ok () t) : s.hubTimeline idx c = .ok () (t.setHub idx none) := by
  rw [State.hubRaise] at h
  simp [State.hubTimeline, State.afterPeers_settled howes, h]

theorem State.hubTimeline_waits {w : Stall} (h : s.hubRaise c = .stall w t) :
    s.hubTimeline idx c = .ok () (t.setHub idx (some { c with bytes := c.done })) := by
  rw [State.hubRaise] at h
  simp [State.hubTimeline, State.afterPeers_settled howes, h]

theorem State.hubTimeline_trap {x : Nat} {v : Word} (h : s.hubRaise c = .trap x v t) :
    s.hubTimeline idx c = .ok () ((t.queueError c.part c.qid 0x44 c.pkt c.utag [v]).setHub idx (some { c with bytes := c.done, dead := true })) := by
  rw [State.hubRaise] at h
  simp [State.hubTimeline, State.afterPeers_settled howes, h]

end

section
variable {idx : Nat} {c : HubCopy} (hc : s.qp.hub[idx]? = some c)
include hc

/-- A copy whose timeline met a fault does nothing more. -/
theorem exec_hubCopyDone_dead (h : c.dead = true) : exec (.hubCopyDone idx) s = .next s := by
  simp [exec, execHubCopyDone, hc, h]

variable (halive : c.dead = false)
include halive

theorem exec_hubCopyDone_finished (hrun : hubRun (s.viaHub c.part false) c (c.bytes + 1 - c.done) c.done s = .finished s1) :
    exec (.hubCopyDone idx) s = finishEvent (s1.hubTimeline idx { c with done := c.bytes }) := by
  simp [exec, execHubCopyDone, hc, halive, hrun]

theorem exec_hubCopyDone_failed {x : Nat} {v : Word} (hrun : hubRun (s.viaHub c.part false) c (c.bytes + 1 - c.done) c.done s = .failed x v s1) :
    exec (.hubCopyDone idx) s = finishEvent ((s1.queueError c.part c.qid 0x44 c.pkt c.utag [v]).hubTimeline idx c) := by
  simp [exec, execHubCopyDone, hc, halive, hrun]

theorem exec_hubCopyDone_waits {n : Nat} (hrun : hubRun (s.viaHub c.part false) c (c.bytes + 1 - c.done) c.done s = .waits n s1) :
    exec (.hubCopyDone idx) s = .next { s1 with qp := { s1.qp with hub := s1.qp.hub.set idx { c with done := n } } } := by
  simp [exec, execHubCopyDone, hc, halive, hrun]

end

/-! ## LAUNCH -/

section
variable {accept : State → Packet → List Byte → Res Unit}

theorem State.doLaunch_misaligned (h : (p.w 0x08).toNat % 8 ≠ 0) : s.doLaunch accept p = .ok () (s.packetFault p [p.w 0x08]) := if_pos h

variable (haligned : (p.w 0x08).toNat % 8 = 0)
include haligned

theorem State.doLaunch_ungranted (h : p.q.granted = false) : s.doLaunch accept p = .ok () s := by simp [State.doLaunch, haligned, h]

theorem State.doLaunch_granted (h : p.q.granted = true) :
    s.doLaunch accept p = orFault p ((s.qpRead p.q (p.w 0x08) 256).bind fun b s1 => accept s1 p b) := by
  simp [State.doLaunch, haligned, h]

end

theorem State.answerHeader_accepted {l : Launch} (h : l.status = 0) :
    s.answerHeader p l = State.endPacket { s with launches := s.launches ++ [l] } p.q := if_pos h

theorem State.answerHeader_rejected {l : Launch} (h : l.status ≠ 0) :
    ∃ e : State, s.answerHeader p l = e.queueError p.q.part p.q.qid 0x47 p.q.rdidx p.utag [BitVec.ofNat 64 l.status, l.hdr] := ⟨_, if_neg h⟩

end Sys2Proof.Machine
end

section
/-! The obligation on the packets of a queue, from the lemmas above. -/

namespace Sys2Proof.Machine

/-- Settles O51: each packet by what its action answers, a wait leaving it in hand. -/
theorem packetsAreExecuted : Obligations.PacketsAreExecuted := by
  refine ⟨?nothing, ?packet, fun s p l => ⟨State.answerHeader_accepted, State.answerHeader_rejected⟩, ?hub⟩
  case nothing =>
    intro s s1 part qid htake i hi
    obtain ⟨types, f, hexec⟩ := exec_packetEvent hi s
    rw [hexec, State.onPacket_none htake]
  case packet =>
    intro s s1 s2 p part qid b htake a via t0 aligned me begun
    refine ⟨State.onPacket_otherType htake List.not_mem_nil, fun htype => State.onPacket_ends htake (by simp [htype]) rfl, ?wait, ?signal, ?marker, ?copy,
      ?launch⟩
    case wait =>
      intro i hi
      obtain ⟨types, htype, hexec⟩ := exec_wait hi s
      rw [hexec]
      have hends {t : State} (h : s1.testWait p = .ok () t) : s.onPacket part qid types State.testWait = .next t := State.onPacket_ends htake htype h
      refine ⟨fun h => hends (State.testWait_misaligned h), fun c v h hread => hends (State.testWait_trap h hread), fun h hread => ?_⟩
      refine ⟨fun hmet => hends (State.testWait_met h hread hmet), fun hunmet hset hover => hends (State.testWait_timesOut h hread hunmet hset hover),
        fun hunmet htime => ?_⟩
      have hblocks := hends (State.testWait_blocks h hread hunmet htime)
      exact ⟨fun hblocked => hblocks.trans (by rw [if_pos hblocked]), fun hfree => hblocks.trans (by rw [if_neg hfree])⟩
    case signal =>
      intro htype op
      have hmem : p.type ∈ [6] := by simp [htype]
      refine ⟨fun h => State.onPacket_ends htake hmem (State.doSignal_misaligned h), fun h howes => State.onPacket_waits htake hmem (State.doSignal_owing h howes),
        fun c v h howes hamo => State.onPacket_ends htake hmem ?_, fun w h howes hamo => State.onPacket_waits htake hmem (w := w) ?_,
        fun old h howes hamo => State.onPacket_ends htake hmem ?_⟩ <;>
      · rw [State.doSignal_settled h howes, show s1.signalAmo p = _ from hamo]
        rfl
    case marker =>
      intro htype w
      have hmem : p.type ∈ [8] := by simp [htype]
      refine ⟨fun h => State.onPacket_ends htake hmem (State.doMarker_misaligned h), fun h howes => State.onPacket_waits htake hmem (State.doMarker_owing h howes),
        fun h howes hsent => State.onPacket_ends htake hmem (State.doMarker_sent h howes hsent), fun h howes hsent => ?_,
        fun l m t0 t1 t2 t3 hl hm hlhere hmhere hlready hmready => State.markWords_here hl hm hlhere hmhere hlready hmready _⟩
      have hwrites := State.doMarker_writes h howes hsent
      refine ⟨fun c v hw => State.onPacket_ends htake hmem ?_, fun x hw => State.onPacket_waits htake hmem (w := x) ?_,
        fun hw => State.onPacket_ends htake hmem ?_, fun hw => State.onPacket_ends htake hmem ?_⟩ <;>
      · rw [hwrites, show s1.markWords _ _ _ = _ from hw]
        rfl
    case copy =>
      intro htype
      have hmem : p.type ∈ [7] := by simp [htype]
      exact ⟨fun h => State.onPacket_ends htake hmem (State.doCopy_long h),
        fun hlen h => State.onPacket_ends htake hmem (State.doCopy_misaligned hlen h),
        fun hlen h => ⟨p.hubCopy, _, State.onPacket_ends htake hmem (State.doCopy_issues hlen h), rfl, rfl, rfl, rfl, rfl, rfl, rfl, rfl, rfl, rfl, rfl, rfl⟩⟩
    case launch =>
      intro i accept hi
      obtain ⟨types, htype, hexec⟩ := exec_launchPacket hi s
      rw [hexec]
      refine ⟨fun h => State.onPacket_ends htake htype (State.doLaunch_misaligned h),
        fun h hgrant => State.onPacket_ends htake htype (State.doLaunch_ungranted h hgrant),
        fun c v h hgrant hread => State.onPacket_ends htake htype ?_, fun h hgrant hread e => ⟨fun haccept => State.onPacket_ends htake htype ?_,
        fun w haccept => State.onPacket_waits htake htype (w := w) ?_⟩⟩
      · rw [State.doLaunch_granted h hgrant, hread]
        rfl
      all_goals
        rw [State.doLaunch_granted h hgrant, hread, Res.bind_ok, haccept]
        rfl
  case hub =>
    intro s s1 s2 idx c hc run ends
    have hends {st : State} (d : Nat) : let k : HubCopy := { c with done := d }; exec (.hubCopyDone idx) s = finishEvent (st.hubTimeline idx k) → ends st k := by
      intro k hexec
      exact ⟨fun howes => hexec.trans (congrArg finishEvent (State.hubTimeline_owing howes idx k)), fun howes =>
        ⟨fun htl => hexec.trans (congrArg finishEvent (State.hubTimeline_raised howes idx k htl)),
          fun _ htl => hexec.trans (congrArg finishEvent (State.hubTimeline_waits howes idx k htl)),
          fun _ _ htl => hexec.trans (congrArg finishEvent (State.hubTimeline_trap howes idx k htl))⟩⟩
    exact ⟨exec_hubCopyDone_dead hc, fun halive hrun => hends c.bytes (exec_hubCopyDone_finished hc halive hrun),
      fun _ _ halive hrun => hends c.done (exec_hubCopyDone_failed hc halive hrun), fun _ halive hrun => exec_hubCopyDone_waits hc halive hrun⟩

end Sys2Proof.Machine
end

section
/-! Lanes, vtype and vl (R110 to R112, R115): what a vset* that gets its lanes leaves, and one that waits for them. -/

namespace Sys2Proof.Machine

open Sys2Proof.Machine.Claim

variable {s s1 : State}

/-! ## Lane groups -/

theorem foldl_count (p : Nat → Bool) (l : List Nat) (n : Nat) : l.foldl (fun n i => if p i then n + 1 else n) n = n + l.countP p := by
  induction l generalizing n with
  | nil => rfl
  | cons i l ih =>
    rw [List.foldl_cons, ih, List.countP_cons]
    split <;> omega

theorem popcount_eq_countP (m : BitVec 8) : popcount m = (List.range 8).countP m.getLsbD := (foldl_count m.getLsbD _ 0).trans (Nat.zero_add _)

theorem popcount_or_le (a b : BitVec 8) : popcount (a ||| b) ≤ popcount a + popcount b := by
  simp only [popcount_eq_countP]
  induction List.range 8 with
  | nil => simp
  | cons i l ih =>
    simp only [List.countP_cons, BitVec.getLsbD_or]
    cases a.getLsbD i <;> cases b.getLsbD i <;> simp <;> omega

theorem popcount_bit_le (i : Nat) : popcount ((1 : BitVec 8) <<< i) ≤ 1 := by
  rw [popcount_eq_countP]
  refine (List.countP_mono_left (q := (· == i)) fun g _ hg => ?_).trans (List.nodup_iff_count_le_one.mp List.nodup_range i)
  simp at hg ⊢
  omega

/-- The lowest n groups of a mask are at most n. -/
theorem popcount_lowestGroups_le (m : BitVec 8) (n i k : Nat) : popcount (lowestGroups m n i k) ≤ n := by
  induction k generalizing n i with
  | zero => simp [lowestGroups, popcount]
  | succ k ih =>
    unfold lowestGroups
    split
    · simp [popcount]
    next hn =>
      split
      · have hor := popcount_or_le ((1 : BitVec 8) <<< i) (lowestGroups m (n - 1) (i + 1) k)
        have hbit := popcount_bit_le i
        have hrest := ih (n - 1) (i + 1)
        omega
      · exact ih ..

theorem lowestGroups_subset (m : BitVec 8) (n i k g : Nat) (h : (lowestGroups m n i k).getLsbD g = true) : m.getLsbD g = true := by
  induction k generalizing n i with
  | zero => simp [lowestGroups] at h
  | succ k ih =>
    unfold lowestGroups at h
    split at h
    · simp at h
    · split at h
      next hi =>
        rw [BitVec.getLsbD_or, Bool.or_eq_true] at h
        rcases h with h | h
        · have hg : g = i := by simp at h; omega
          exact hg ▸ hi
        · exact ih _ _ h
      · exact ih _ _ h

/-! ## What a vset* takes (R110, R111) -/

/-- The groups that a vset* keeps of those it holds. -/
def State.lanesKept (s : State) : BitVec 8 := lowestGroups (s.seq.vec.hmask &&& ~~~(s.core (coreOf s.hart)).dis) s.laneGrant 0 8

/-- The groups that a vset* holds afterwards: with those kept, the lowest free ones. -/
def State.lanesTaken (s : State) : BitVec 8 :=
  s.lanesKept ||| lowestGroups (~~~(s.otherLanes s.hart ||| (s.core (coreOf s.hart)).dis ||| s.seq.vec.hmask)) (s.laneGrant - popcount s.lanesKept) 0 8

theorem State.popcount_lanesTaken_le (s : State) : popcount s.lanesTaken ≤ s.laneGrant := by
  have hkept : popcount s.lanesKept ≤ s.laneGrant := popcount_lowestGroups_le ..
  have hor := popcount_or_le s.lanesKept
    (lowestGroups (~~~(s.otherLanes s.hart ||| (s.core (coreOf s.hart)).dis ||| s.seq.vec.hmask)) (s.laneGrant - popcount s.lanesKept) 0 8)
  have hfree := popcount_lowestGroups_le (~~~(s.otherLanes s.hart ||| (s.core (coreOf s.hart)).dis ||| s.seq.vec.hmask))
    (s.laneGrant - popcount s.lanesKept) 0 8
  exact hor.trans (by omega)

/-- A group taken is in service, and held before or free of the core's other contexts. -/
theorem State.lanesTaken_getLsbD {g : Nat} (h : s.lanesTaken.getLsbD g = true) :
    (s.core (coreOf s.hart)).dis.getLsbD g = false ∧ (s.seq.vec.hmask.getLsbD g = true ∨ (s.otherLanes s.hart).getLsbD g = false) := by
  rw [State.lanesTaken, BitVec.getLsbD_or, Bool.or_eq_true] at h
  rcases h with h | h
  · have hm := lowestGroups_subset _ _ _ _ _ h
    simp at hm
    exact ⟨hm.2.2, .inl hm.1⟩
  · have hm := lowestGroups_subset _ _ _ _ _ h
    simp at hm
    exact ⟨hm.2.1.2, .inr hm.2.1.1⟩

theorem State.lanesTaken_and_dis (s : State) : s.lanesTaken &&& (s.core (coreOf s.hart)).dis = 0 := by
  refine BitVec.eq_of_getLsbD_eq fun g _ => ?_
  rw [BitVec.getLsbD_and, BitVec.ofNat_eq_ofNat, BitVec.getLsbD_zero, Bool.and_eq_false_imp]
  exact fun hg => (State.lanesTaken_getLsbD hg).1

theorem Vec.setIll_vill (v : Vec) : v.setIll.vill = true := by
  show (0x8000000000000000 : Word).getLsbD 63 = true
  decide

theorem Vec.setType_n {t : Word} (h : badVtype t = false) (v : Vec) (k : Nat) :
    v.setType t (.n k) = { v with vtype := t, vl := min k { v with vtype := t }.vlmax } := if_neg (Bool.eq_false_iff.mp h)

theorem Vec.setType_max {t : Word} (h : badVtype t = false) (v : Vec) :
    v.setType t .max = { v with vtype := t, vl := { v with vtype := t }.vlmax } := if_neg (Bool.eq_false_iff.mp h)

theorem Vec.resize_vlen (v : Vec) (lost : Bool) (n draws : Nat) : (v.resize lost n draws).vlen = n := by
  unfold Vec.resize
  generalize (if lost = true then 0 else min v.vlen n) = kept
  dsimp only
  split
  next h => exact h.2
  next => rfl

/-- What takes its lanes has a grant that the groups meet, and holds these groups under the VLEN that they give. -/
theorem State.takeLanes_ok (h : s.takeLanes = .ok () s1) :
    s.laneGrant ≠ 0 ∧ s.laneGrant ≤ popcount s.lanesTaken ∧ s1.seq.vec.hmask = s.lanesTaken ∧
      s1.seq.vec.vlen = 4 * s.laneGrant * Config.laneBits / s.seq.vec.nregs ∧ s1.seq.vec.fresh = false := by
  unfold State.takeLanes at h
  dsimp only at h
  split at h
  · split at h <;> simp at h
  next hgrant =>
    split at h
    · simp at h
    next henough =>
      simp only [Res.ok.injEq, true_and] at h
      subst h
      exact ⟨hgrant, Nat.not_lt.mp henough, rfl, Vec.resize_vlen .., rfl⟩

/-- Settles O37: vl by the case of the length asked for; the lanes by what the lowest groups of a mask are. -/
theorem lanesAndLengthFollowGrantAndRequest : Obligations.LanesAndLengthFollowGrantAndRequest := by
  refine ⟨fun v t k => ⟨fun hbad avl => ?_, fun hgood => ?_⟩, fun s s1 htake => ?_⟩
  · rw [Vec.setType, if_pos hbad]
    exact ⟨Vec.setIll_vill v, rfl⟩
  · have hlow : t.toNat < 256 := by
      simp [badVtype] at hgood
      omega
    have hvill : t.getLsbD 63 = false := by
      rw [BitVec.getLsbD, Nat.testBit_lt_two_pow (by omega)]
    rw [Vec.setType_n hgood, Vec.setType_max hgood]
    exact ⟨rfl, rfl, rfl, hvill, rfl, rfl⟩
  · obtain ⟨hgrant, henough, hmask, hvlen, hfresh⟩ := State.takeLanes_ok htake
    have hmin : s.laneGrant = min (min s.seq.vec.grant (s.capOf (coreOf s.hart))) (8 - popcount (s.core (coreOf s.hart)).dis) := rfl
    refine ⟨?_, Nat.pos_of_ne_zero hgrant, by omega, by omega, ?_, fun g _ hg => ?_, hvlen, hfresh⟩
    · rw [hmask]
      exact Nat.le_antisymm s.popcount_lanesTaken_le henough
    · rw [hmask]
      exact s.lanesTaken_and_dis
    · rw [hmask] at hg
      exact (State.lanesTaken_getLsbD hg).2

/-! ## How a vset* ends (R51, R112, R115) -/

/-- A write to the debug ring breaks reservations and moves the ring's head, and nothing else of the hart. -/
theorem State.ringRecord_nextPc (s : State) (i : VInfo) : (s.ringRecord i).nextPc = s.nextPc := by
  have hput (via : Via) (l : Loc) (bs : List Byte) : (s.putBytes via l bs).seq.noResv = s.seq.noResv :=
    congrArg (·.2.1) (State.putBytes_bareHarts s via l bs)
  unfold State.ringRecord
  dsimp only
  split
  · exact congrArg (fun q => q.pc + BitVec.ofNat 64 q.latch.len) (hput ..)
  · rfl

/-- A vector instruction that ends by `finishV` completes. -/
theorem vCompletes_of_finishV_ok {i : Instr} {s e : State} {info : VInfo} (h : exec i s = finishV (.ok info e)) : VCompletes i s e := by
  obtain ⟨t, hexec, hretired⟩ := vcompletes_of_finishV h
  exact ⟨info, t, hexec, State.ringRecord_nextPc e info ▸ hretired⟩

/-- The effect of a vset* whose lanes left the state s. -/
def State.typed (s : State) (rd : Reg) (t : Word) (avl : Avl) : State :=
  (s.updVec fun v => v.setType t avl).setX rd (BitVec.ofNat 64 (s.seq.vec.setType t avl).vl)

section
variable (hcore : s.onCore = true) (hvec : s.vecOn = true) (hheld : s.seq.vec.released = false) (hstart : s.seq.vec.vstart = 0)
include hcore hvec hheld hstart

theorem State.vset_eq (rd : Reg) (t : Word) (avl : Avl) (ord : Nat) :
    s.vset rd t avl ord = s.takeLanes.bind fun _ s1 => .ok ((s1.updVec fun v => v.setType t avl).vinfo 11 ord true) (s1.typed rd t avl) :=
  if_neg (by simp [hcore, hvec, hheld, hstart])

theorem State.vset_ok (htake : s.takeLanes = .ok () s1) (rd : Reg) (t : Word) (avl : Avl) (ord : Nat) :
    ∃ info, s.vset rd t avl ord = .ok info (s1.typed rd t avl) := by
  rw [State.vset_eq hcore hvec hheld hstart, htake]
  exact ⟨_, rfl⟩

theorem State.vset_stall (htake : s.takeLanes = .stall .lanes s1) (rd : Reg) (t : Word) (avl : Avl) (ord : Nat) :
    s.vset rd t avl ord = .stall .lanes s1 := by
  rw [State.vset_eq hcore hvec hheld hstart, htake]
  rfl

end

/-- Without a grant there are no lanes: the request is recorded where the wait begins (R51). -/
theorem State.takeLanes_ungranted (hgrant : s.laneGrant = 0) (hzero : s.seq.vec.grant = 0) :
    ∃ s2, s.takeLanes = .stall .lanes s2 ∧
      (s.seq.stall ≠ some .lanes → (s2.cluster (hartCluster s.hart)).lreq.getLsbD (s.hart % 64) = true) ∧
      (s.seq.stall = some .lanes → s2.clusters = s.clusters) := by
  by_cases hwait : s.seq.stall = some .lanes
  · exact ⟨_, (if_pos hgrant).trans (if_neg fun ⟨_, h⟩ => h hwait), fun h => absurd hwait h, fun _ => rfl⟩
  · refine ⟨_, (if_pos hgrant).trans (if_pos ⟨hzero, hwait⟩), fun _ => ?_, fun h => absurd h hwait⟩
    have hbit : s.hart % 64 < 64 := Nat.mod_lt _ (by decide)
    simp [State.cluster_setCluster, hbit]

/-- Settles O36: each form ends with what vset answers, which is what taking the lanes answers. -/
theorem vsetSetsTypeAndLength : Obligations.VsetSetsTypeAndLength := by
  intro s s1 rd rs1 rs2 hcore hvec hheld hstart after
  have hlz {vt : BitVec 8} {off : Word} (hoff : s.seq.latch.form = .native → 4 ≤ off.toNat) :
      exec (.vsetvlz rd rs1 vt off) s = finishAt ((s.vset rd (vt.setWidth 64) (.n (s.x rs1).toNat) 4110).bind fun i s1 =>
        .ok (if (s.x rs1).toNat = 0 then s.seq.pc + off else s.nextPc, (s.x rs1).toNat = 0) ((s1.ringRecord i).upd Seq.vecDirty)) :=
    if_neg fun ⟨hform, hnear⟩ => Nat.not_lt.mpr (hoff hform) hnear
  refine ⟨fun htake => ?granted, fun vt off hform hnear => ?near, fun htake => ?waits, State.takeLanes_ungranted⟩
  case granted =>
    have hok := State.vset_ok hcore hvec hheld hstart htake rd
    refine ⟨fun vt => ?_, fun avl vt => ?_, ?_, fun vt off hoff => ?_⟩
    · obtain ⟨info, h⟩ := hok (vt.setWidth 64) (avlOf s rd rs1) 1004
      exact vCompletes_of_finishV_ok (congrArg finishV h)
    · obtain ⟨info, h⟩ := hok (vt.setWidth 64) (.n avl.toNat) 1005
      exact vCompletes_of_finishV_ok (congrArg finishV h)
    · obtain ⟨info, h⟩ := hok (s.x rs2) (avlOf s rd rs1) 1006
      exact vCompletes_of_finishV_ok (congrArg finishV h)
    · obtain ⟨info, h⟩ := hok (vt.setWidth 64) (.n (s.x rs1).toNat) 4110
      rw [hlz hoff, h]
      exact ⟨info, _, rfl, retired_retire ..⟩
  case near =>
    exact if_pos ⟨hform, hnear⟩
  case waits =>
    have hstall := State.vset_stall hcore hvec hheld hstart htake rd
    refine ⟨fun vt => congrArg finishV (hstall ..), fun avl vt => congrArg finishV (hstall ..), congrArg finishV (hstall ..), fun vt off hoff => ?_⟩
    rw [hlz hoff, hstall]
    rfl

end Sys2Proof.Machine
end

section
/-! Homes of lines by a mask of cores (R55), and the walk that marks its leaf (R139). -/

namespace Sys2Proof.Machine

open Sys2Proof.Machine.Claim

/-! ## The o-th core of a mask -/

theorem rankIn_succ (m : BitVec 256) (j : Nat) : rankIn m (j + 1) = rankIn m j + if m.getLsbD j then 1 else 0 := by
  rw [rankIn, List.range_succ, List.filter_append, List.length_append, ← rankIn]
  cases h : m.getLsbD j <;> simp [h]

theorem countBits_eq_rankIn (m : BitVec 256) (n : Nat) : countBits m n = rankIn m n := by
  induction n with
  | zero => rfl
  | succ n ih => rw [countBits, rankIn_succ, ih]

/-- A mask that is not 0 has a core. -/
theorem rankIn_pos {m : BitVec 256} (h : m ≠ 0) : 0 < rankIn m 256 := by
  by_contra hnone
  refine h (BitVec.eq_of_getLsbD_eq fun i hi => ?_)
  have hempty : (List.range 256).filter (fun i => m.getLsbD i) = [] := List.length_eq_zero_iff.mp (Nat.eq_zero_of_not_pos hnone)
  simpa using List.filter_eq_nil_iff.mp hempty i (List.mem_range.mpr hi)

/-- nthSet finds the set bit of the given rank. -/
theorem nthSet_rank (m : BitVec 256) (o i n : Nat) (h : rankIn m i + o < rankIn m (i + n)) :
    nthSet m o i n < i + n ∧ m.getLsbD (nthSet m o i n) = true ∧ rankIn m (nthSet m o i n) = rankIn m i + o := by
  induction n generalizing o i with
  | zero => simp at h
  | succ n ih =>
    have hnext := rankIn_succ m i
    rw [nthSet]
    rw [show i + (n + 1) = i + 1 + n by omega] at h ⊢
    split
    next hset =>
      rw [if_pos hset] at hnext
      split
      next ho => exact ⟨by omega, hset, by rw [ho]; rfl⟩
      next ho =>
        obtain ⟨hlt, hbit, hrank⟩ := ih (o - 1) (i + 1) (by omega)
        exact ⟨hlt, hbit, by omega⟩
    next hclear =>
      rw [if_neg hclear] at hnext
      obtain ⟨hlt, hbit, hrank⟩ := ih o (i + 1) (by omega)
      exact ⟨hlt, hbit, by omega⟩

/-! ## The ordinal of a line -/

/-- The parity of those of the first m bits of a number whose place leaves rest k modulo b. -/
def bitParity (l b k m : Nat) : Bool := ((List.range m).filter fun p => p % b == k && l.testBit p).length % 2 == 1

theorem foldGroups_lt (l b n : Nat) : foldGroups l b n < 2 ^ b := by
  induction n generalizing l with
  | zero => exact Nat.two_pow_pos b
  | succ n ih => exact Nat.xor_lt_two_pow (Nat.mod_lt _ (Nat.two_pow_pos b)) (ih _)

/-- The lowest group has one such bit. -/
theorem filter_lowGroup (l : Nat) {b k : Nat} (hk : k < b) :
    ((List.range b).filter fun p => p % b == k && l.testBit p).length = (l.testBit k).toNat := by
  have hone : ((List.range b).filter fun p => p % b == k && l.testBit p) = ((List.range b).filter (· == k)).filter l.testBit := by
    rw [List.filter_filter]
    refine List.filter_congr fun p hp => ?_
    rw [Nat.mod_eq_of_lt (List.mem_range.mp hp), Bool.and_comm]
  have hsingle : (List.range b).filter (· == k) = [k] := by
    rw [List.filter_beq, List.count_eq_one_of_mem List.nodup_range (List.mem_range.mpr hk)]
    rfl
  rw [hone, hsingle]
  cases h : l.testBit k <;> simp [h]

theorem foldGroups_testBit (l : Nat) {b k : Nat} (hk : k < b) (n : Nat) : (foldGroups l b n).testBit k = bitParity l b k (b * n) := by
  induction n generalizing l with
  | zero => simp [foldGroups, bitParity]
  | succ n ih =>
    have hhigh : (((List.range (b * n)).map (b + ·)).filter fun p => p % b == k && l.testBit p).length =
        ((List.range (b * n)).filter fun p => p % b == k && (l / 2 ^ b).testBit p).length := by
      rw [List.filter_map, List.length_map]
      congr 1
      refine List.filter_congr fun p _ => ?_
      simp [Function.comp, Nat.testBit_div_two_pow, Nat.add_comm]
    rw [foldGroups, Nat.testBit_xor, Nat.testBit_mod_two_pow, ih, bitParity, bitParity, Nat.mul_succ, Nat.add_comm (b * n) b, List.range_add,
      List.filter_append, List.length_append, filter_lowGroup l hk, hhigh]
    generalize ((List.range (b * n)).filter _).length = c
    rcases Nat.mod_two_eq_zero_or_one c with hc | hc <;> cases l.testBit k <;> simp [hk, hc, Nat.add_mod]

/-- The line index has no bits from place 41 on. -/
theorem bitParity_lineIndex (pa b k : Nat) {m : Nat} (hm : 41 ≤ m) : bitParity (pa / 128 % 2 ^ 41) b k m = lineParity pa b k := by
  obtain ⟨d, rfl⟩ := Nat.exists_eq_add_of_le hm
  have hbit (p : Nat) : (pa / 128 % 2 ^ 41).testBit p = (decide (p < 41) && pa.testBit (7 + p)) := by
    rw [Nat.testBit_mod_two_pow, show 128 = 2 ^ 7 from rfl, Nat.testBit_div_two_pow, Nat.add_comm]
  have hlow : (List.range 41).filter (fun p => p % b == k && (pa / 128 % 2 ^ 41).testBit p) =
      (List.range 41).filter fun p => p % b == k && pa.testBit (7 + p) :=
    List.filter_congr fun p hp => by rw [hbit, decide_eq_true (List.mem_range.mp hp), Bool.true_and]
  have hhigh : ((List.range d).map (41 + ·)).filter (fun p => p % b == k && (pa / 128 % 2 ^ 41).testBit p) = [] :=
    List.filter_eq_nil_iff.mpr fun p hp => by
      obtain ⟨i, _, rfl⟩ := List.mem_map.mp hp
      rw [hbit, decide_eq_false (Nat.not_lt.mpr (Nat.le_add_right 41 i))]
      simp
  rw [bitParity, List.range_add, List.filter_append, hlow, hhigh, List.append_nil]
  rfl

theorem homeOrdinal_lt {n : Nat} (hn : 0 < n) (pa : Nat) : homeOrdinal n pa < n := by
  unfold homeOrdinal
  dsimp only
  split
  · exact hn
  · split
    next hpow => exact (foldGroups_lt ..).trans_eq hpow
    next =>
      have hf := foldGroups_lt (pa / 128 % 2 ^ 41) 8 6
      rw [Nat.div_lt_iff_lt_mul (by decide), Nat.mul_comm]
      exact Nat.mul_lt_mul_of_pos_left hf hn

theorem homeOrdinal_pow {b : Nat} (hb : 0 < b) (pa : Nat) : homeOrdinal (2 ^ b) pa = foldGroups (pa / 128 % 2 ^ 41) b 41 := by
  have hbig : ¬ 2 ^ b ≤ 1 := Nat.not_le.mpr (Nat.one_lt_two_pow (Nat.pos_iff_ne_zero.mp hb))
  simp [homeOrdinal, hbig, Nat.log2_two_pow]

theorem homeOrdinal_other {n : Nat} (hn : 1 < n) (hpow : ∀ b, n ≠ 2 ^ b) (pa : Nat) :
    homeOrdinal n pa = foldGroups (pa / 128 % 2 ^ 41) 8 6 * n / 256 :=
  (if_neg (Nat.not_le.mpr hn)).trans (if_neg fun h => hpow _ h.symm)

/-- R55, for an entry of mode 1: the core in DIE whose bit of MASK has the line's ordinal. -/
theorem HomeEntry.home_mode1 {h : HomeEntry} (hvalid : h.valid = true) (hmode : h.ctrl.getLsbD 29 = true) (pa : Nat) :
    ∃ j, j < 256 ∧ h.home pa = h.ctrl.toNat / 2 ^ 8 % 4 * 256 + j ∧ h.mask.getLsbD j = true ∧ rankIn h.mask j = homeOrdinal (rankIn h.mask 256) pa := by
  have hmask : h.mask ≠ 0 := by
    simp [HomeEntry.valid] at hvalid
    exact hvalid.2.resolve_left (by simpa using hmode)
  have hord := homeOrdinal_lt (rankIn_pos hmask) pa
  obtain ⟨hlt, hbit, hrank⟩ := nthSet_rank h.mask (homeOrdinal (rankIn h.mask 256) pa) 0 256 (by simpa [rankIn] using hord)
  refine ⟨_, by simpa using hlt, ?_, hbit, by simpa [rankIn] using hrank⟩
  rw [HomeEntry.home, if_neg (by simp [hmode])]
  simp only [countBits_eq_rankIn]

/-! ## Little-endian numbers -/

theorem leNat_lt (bs : List Byte) : leNat bs < 2 ^ (8 * bs.length) := by
  induction bs with
  | nil => simp [leNat]
  | cons b bs ih =>
    have hb := b.isLt
    rw [leNat, List.length_cons, Nat.mul_succ, Nat.pow_add]
    omega

@[simp] theorem leBytes_length (n v : Nat) : (leBytes n v).length = n := by
  induction n generalizing v with
  | zero => rfl
  | succ n ih => rw [leBytes, List.length_cons, ih]

theorem leNat_leBytes (n v : Nat) : leNat (leBytes n v) = v % 2 ^ (8 * n) := by
  induction n generalizing v with
  | zero => simp [leBytes, leNat, Nat.mod_one]
  | succ n ih =>
    rw [leBytes, leNat, ih, BitVec.toNat_ofNat, show 8 * (n + 1) = 8 + 8 * n by omega, Nat.pow_add, Nat.mod_mul]

/-! ## The walk's mark (R139) -/

section
variable {s s1 : State} {via : Via} {va : Word} {ak : AKind} {l : Leaf}

theorem State.readPte_lt {a pte : Nat} (h : s.readPte via va ak a = .ok pte s1) : pte < 2 ^ 64 := by
  unfold State.readPte at h
  dsimp only at h
  split at h
  · simp at h
  · split at h
    · simp at h
    · obtain ⟨rfl, -⟩ := Res.ok.inj h
      exact (leNat_lt _).trans_eq (by rw [memRead_length])

/-- A leaf is a PTE as some read of the walk found it. -/
theorem State.walk_pte_lt {base n : Nat} (h : s.walk via va ak base n = .ok l s1) : l.pte < 2 ^ 64 := by
  induction n generalizing s base with
  | zero => cases h
  | succ n ih =>
    obtain ⟨pte, t, hread, hrest⟩ := Res.bind_eq_ok h
    dsimp only at hrest
    split at hrest
    · cases hrest
    · split at hrest
      · split at hrest
        · cases hrest
        · split at hrest
          · obtain ⟨rfl, -⟩ := Res.ok.inj hrest
            exact State.readPte_lt hread
          · cases hrest
      · split at hrest
        · cases hrest
        · exact ih hrest

/-- The PTE with A set, and D for a store. -/
def marked (pte : Nat) (ak : AKind) : Nat := pte ||| (64 + if ak = .store then 128 else 0)

theorem marked_lt {pte : Nat} (h : pte < 2 ^ 64) (ak : AKind) : marked pte ak < 2 ^ 64 :=
  Nat.or_lt_two_pow h (by split <;> decide)

theorem State.writePte_refused {a pte : Nat} (h : s.isCodePage a = true ∨ s.pmpTable via a .store = false) :
    s.writePte via va ak a pte = .trap ak.accessFault va s := if_pos h

/-- The walker's AMO writes the PTE and no other byte. -/
theorem State.writePte_writes (hwf : s.WfMem) {a pte : Nat} (hpte : pte < 2 ^ 64) (hcode : s.isCodePage a = false) (hpmp : s.pmpTable via a .store = true) :
    ∃ t, s.writePte via va ak a pte = .ok () t ∧ leNat (memRead t.mem a 8) = pte ∧ ∀ b, b < a ∨ a + 8 ≤ b → memGet t.mem b = memGet s.mem b := by
  refine ⟨_, if_neg (by simp [hcode, hpmp]), ?_⟩
  have hmem := memRead_memWrite s.mem a (leBytes 8 pte) hwf
  rw [leBytes_length] at hmem
  simp only [State.modLines_mem, State.breakResv_mem, hmem, leNat_leBytes]
  refine ⟨Nat.mod_eq_of_lt hpte, fun b hb => memGet_memWrite_out _ _ _ _ hwf ?_⟩
  rwa [leBytes_length]

section
variable (hwalk : s.walk via va ak (via.satp.toNat % 2 ^ 44 * 4096) 5 = .ok l s1)
include hwalk

theorem State.walkFill_refused (hperm : permOk l.pte ak via.mode via.sum via.mxr = false) : s.walkFill via va ak = .trap ak.pageFault va s1 := by
  rw [State.walkFill, hwalk, Res.bind_ok, if_pos hperm]

variable (hperm : permOk l.pte ak via.mode via.sum via.mxr = true)
include hperm

theorem State.walkFill_marked (hset : marked l.pte ak = l.pte) :
    s.walkFill via va ak = .ok (l.entry via va.toNat (marked l.pte ak)) (s1.tlbAdd via ak (l.entry via va.toNat (marked l.pte ak))) := by
  rw [State.walkFill, hwalk, Res.bind_ok, if_neg (by simp [hperm])]
  exact if_pos hset

theorem State.walkFill_marks (hclear : marked l.pte ak ≠ l.pte) :
    s.walkFill via va ak = (s1.writePte via va ak l.addr (marked l.pte ak)).bind fun _ s2 =>
      .ok (l.entry via va.toNat (marked l.pte ak)) (s2.tlbAdd via ak (l.entry via va.toNat (marked l.pte ak))) := by
  rw [State.walkFill, hwalk, Res.bind_ok, if_neg (by simp [hperm])]
  exact if_neg hclear

end
end

/-- Settles O11: an entry of mode 1 by the core of its ordinal; a walk by what its leaf allows and has set. -/
theorem translationsMarkTheLeafAndFindTheHome : Obligations.TranslationsMarkTheLeafAndFindTheHome := by
  refine ⟨fun h pa hvalid hmode => ?home, fun s s1 via va ak l hwf hwalk => ?walk⟩
  case home =>
    obtain ⟨j, hj, hhome, hbit, hrank⟩ := HomeEntry.home_mode1 hvalid hmode pa
    have hmod : h.home pa % 256 = j := by omega
    dsimp only
    rw [hmod, hrank]
    refine ⟨hhome, hbit, fun hn => by rw [hn]; rfl, fun b hb hn k hk => ?_, fun hn hpow => ?_⟩
    · rw [hn, homeOrdinal_pow hb, foldGroups_testBit _ hk]
      exact bitParity_lineIndex pa b k (by omega)
    · exact ⟨_, foldGroups_lt _ 8 6, fun k hk => (foldGroups_testBit _ hk 6).trans (bitParity_lineIndex pa 8 k (by decide)), homeOrdinal_other hn hpow pa⟩
  case walk =>
    have hwf1 : s1.WfMem := Res.WfMem.of_ok (State.walk_wfMem s via va ak _ _ hwf) hwalk
    refine ⟨State.walkFill_refused hwalk, fun hperm => ⟨State.walkFill_marked hwalk hperm, fun hclear hrefuse => ?_, fun hclear hcode hpmp => ?_⟩⟩
    · rw [State.walkFill_marks hwalk hperm hclear, State.writePte_refused hrefuse]
      rfl
    · obtain ⟨s2, hwrite, hmem⟩ := State.writePte_writes hwf1 (marked_lt (State.walk_pte_lt hwalk) ak) hcode hpmp
      refine ⟨s2, ?_, hmem⟩
      rw [State.walkFill_marks hwalk hperm hclear, hwrite]
      rfl

end Sys2Proof.Machine
end

section
/-! SUPPORT. What accesses to memory, and the writes of the device, leave standing: the code objects, the partitions and the lane groups retired. `f_standing` says
so of f, in the order of the model. -/

namespace Sys2Proof.Machine

/-- The code objects, the partitions, and DIS of each core. -/
def State.standing (s : State) : List Obj × List (Nat × Part) × (Nat → BitVec 8) := (s.objs, s.parts, fun c => (s.core c).dis)

variable {s t : State}

theorem State.standing_of_eq (hobjs : t.objs = s.objs) (hparts : t.parts = s.parts) (hcores : t.cores = s.cores) : t.standing = s.standing := by
  rw [State.standing, State.standing, hobjs, hparts]
  simp only [State.core, hcores]

theorem State.objs_of_standing (h : t.standing = s.standing) : t.objs = s.objs := congrArg (·.1) h

theorem State.obj?_of_standing (h : t.standing = s.standing) (i : Nat) : t.obj? i = s.obj? i := by
  rw [State.obj?, State.objs_of_standing h, ← State.obj?]

theorem State.part_of_standing (h : t.standing = s.standing) (p : Nat) : t.part p = s.part p := by
  have hparts : t.parts = s.parts := congrArg (·.2.1) h
  rw [State.part, hparts, ← State.part]

theorem State.dis_of_standing (h : t.standing = s.standing) (c : Nat) : (t.core c).dis = (s.core c).dis := congrFun (congrArg (·.2.2) h) c

theorem State.modCore_standing (s : State) (c : Nat) {f : Core → Core} (hf : ∀ k, (f k).dis = k.dis) : (s.modCore c f).standing = s.standing := by
  have hdis (j : Nat) : ((s.modCore c f).core j).dis = (s.core j).dis := by
    rw [State.modCore, State.core_setCore]
    split
    next h => rw [hf, h]
    next => rfl
  simp only [State.standing, hdis]
  rfl

theorem Res.bind_standing {α β : Type} {r : Res α} {f : α → State → Res β} (h : ∀ a t, (f a t).state.standing = t.standing) :
    (r.bind f).state.standing = r.state.standing := by
  cases r with
  | ok a t => exact h a t
  | trap c v t => rfl
  | stall w t => rfl

/-! ## Homes and the log -/

@[simp] theorem State.breakResv_standing (s : State) (pa n : Nat) (writer : Option Nat) : (s.breakResv pa n writer).standing = s.standing := rfl

@[simp] theorem State.wakeHome_standing (s : State) (home : Nat) : (s.wakeHome home).standing = s.standing := by
  unfold State.wakeHome
  split
  · exact State.modCore_standing s home fun _ => rfl
  · rfl

@[simp] theorem State.modLines_standing (s : State) (pa n : Nat) (f : BitVec 32 → DirLine → DirLine) : (s.modLines pa n f).standing = s.standing := by
  unfold State.modLines
  split
  · rfl
  · refine foldl_keeps State.standing (fun _ _ => ?_) _ _
    rfl

theorem State.poisonRange_standing (s : State) (pa n : Nat) : (s.poisonRange pa n).standing = s.standing := by
  refine foldl_keeps State.standing (fun _ _ => ?_) _ _
  rfl

theorem State.pStore_standing (s : State) (core pa : Nat) (bs : List Byte) (h : Option Nat) : (s.pStore core pa bs h).standing = s.standing := by
  have hwrite (st : State) (a : Nat) (l : List Byte) : (st.pWrite core a l).standing = st.standing := by
    induction l generalizing st a with
    | nil => rfl
    | cons b l ih => exact ih _ _
  exact hwrite _ pa bs

theorem State.putBytes_standing (s : State) (via : Via) (l : Loc) (bs : List Byte) : (s.putBytes via l bs).standing = s.standing := by
  have hwoken : (if l.t = .hbm then s.wakeHome l.home else s).standing = s.standing := by
    split
    · exact State.wakeHome_standing ..
    · rfl
  unfold State.putBytes
  dsimp only
  split
  · rfl
  · split
    · exact State.pStore_standing ..
    · split
      · exact (State.modLines_standing ..).trans hwoken
      · exact hwoken

@[simp] theorem State.send_standing (s : State) (m : Sent) : (s.send m).standing = s.standing :=
  State.standing_of_eq (State.send_objs ..) (State.send_parts ..) (State.send_cores ..)

theorem State.logEntry_standing (s : State) (part : Nat) (e : LogEntry) : (s.logEntry part e).standing = s.standing := by
  have hput (st : State) (pa : Nat) (bs : List Byte) : (st.rootPut pa bs).standing = st.standing := State.putBytes_standing ..
  unfold State.logEntry
  split
  · rfl
  · dsimp only
    split
    · exact hput ..
    · split
      · exact (State.send_standing ..).trans ((hput ..).trans (hput ..))
      · exact (hput ..).trans (hput ..)

/-! ## Reckoning -/

theorem State.losePartial_standing (s : State) (word tag core : Nat) : (s.losePartial word tag core).standing = s.standing :=
  (State.logEntry_standing ..).trans (State.poisonRange_standing ..)

theorem State.bringLines_standing (s : State) (pa n : Nat) : (s.bringLines pa n).standing = s.standing := by
  have hline (st : State) (line : Nat) : (st.bringBack line).standing = st.standing := by
    unfold State.bringBack
    split
    · rfl
    · dsimp only
      split
      · rfl
      · refine (foldl_keeps State.standing (fun st b => ?_) _ _).trans rfl
        exact (foldl_keeps State.standing (fun st' p => State.losePartial_standing st' _ _ _) _ _).trans rfl
  unfold State.bringLines
  split
  · rfl
  · exact foldl_keeps State.standing (fun st _ => hline st _) _ _

theorem State.reckonWord_standing (s : State) (word : Nat) : (s.reckonWord word none).standing = s.standing := by
  unfold State.reckonWord
  split
  · rfl
  · dsimp only
    refine (foldl_keeps State.standing (fun st p => State.losePartial_standing st _ _ _) _ _).trans ?_
    refine (foldl_keeps State.standing (fun st p => ?_) _ _).trans rfl
    split
    · exact State.wakeHome_standing ..
    · rfl

theorem State.reckonRange_standing (s : State) (pa n : Nat) : (s.reckonRange pa n none).standing = s.standing :=
  (foldl_keeps State.standing (fun st w => State.reckonWord_standing st w) _ _).trans (State.bringLines_standing ..)

/-! ## Translation and location -/

theorem State.readPte_standing (s : State) (via : Via) (va : Word) (ak : AKind) (a : Nat) : (s.readPte via va ak a).state.standing = s.standing := by
  unfold State.readPte
  split
  · rfl
  · dsimp only
    have hread := (State.reckonRange_standing (s.wakeHome (bareHome a)) a 8).trans (State.wakeHome_standing ..)
    split <;> exact hread

theorem State.walk_standing (s : State) (via : Via) (va : Word) (ak : AKind) (base n : Nat) : (s.walk via va ak base n).state.standing = s.standing := by
  induction n generalizing s base with
  | zero => rfl
  | succ n ih =>
    unfold State.walk
    refine (Res.bind_standing fun pte t => ?_).trans (State.readPte_standing ..)
    dsimp only
    split
    · rfl
    · split
      · split
        · rfl
        · split <;> rfl
      · split
        · rfl
        · exact ih ..

theorem State.writePte_standing (s : State) (via : Via) (va : Word) (ak : AKind) (a pte : Nat) : (s.writePte via va ak a pte).state.standing = s.standing := by
  unfold State.writePte
  split
  · rfl
  · dsimp only [Res.state]
    exact (State.modLines_standing ..).trans (State.wakeHome_standing s (bareHome a))

theorem State.l1Add_standing (s : State) (via : Via) (ak : AKind) (e : TlbEntry) : (s.l1Add via ak e).standing = s.standing := by
  unfold State.l1Add
  split
  · exact State.modCore_standing s _ fun k => by split <;> rfl
  · rfl

theorem State.tlbAdd_standing (s : State) (via : Via) (ak : AKind) (e : TlbEntry) : (s.tlbAdd via ak e).standing = s.standing := by
  refine (State.l1Add_standing ..).trans ?_
  split
  · rfl
  · split <;> rfl

theorem State.walkFill_standing (s : State) (via : Via) (va : Word) (ak : AKind) : (s.walkFill via va ak).state.standing = s.standing := by
  refine (Res.bind_standing fun l t => ?_).trans (State.walk_standing ..)
  split
  · rfl
  · dsimp only
    generalize l.pte ||| (64 + if ak = .store then 128 else 0) = pte
    split
    · exact State.tlbAdd_standing ..
    · refine (Res.bind_standing fun _ u => ?_).trans (State.writePte_standing ..)
      exact State.tlbAdd_standing ..

theorem State.tlbLookup_standing (s : State) (via : Via) (va : Word) (ak : AKind) : (s.tlbLookup via va ak).state.standing = s.standing := by
  unfold State.tlbLookup
  split
  · rfl
  · split
    · exact State.l1Add_standing ..
    · exact State.walkFill_standing ..

theorem State.xlate_standing (s : State) (via : Via) (va : Word) (ak : AKind) : (s.xlate via va ak).state.standing = s.standing := by
  have hbare : ((if va.toNat < 2 ^ 48 then .ok ⟨va.toNat, 0, 128, none⟩ s else .trap ak.accessFault va s : Res Xlated)).state.standing = s.standing := by
    split <;> rfl
  unfold State.xlate
  dsimp only
  split
  · exact hbare
  · split
    · split
      · rfl
      · split <;> rfl
    · split
      · exact hbare
      · split
        · rfl
        · exact (Res.bind_standing fun _ _ => rfl).trans (State.tlbLookup_standing ..)

theorem State.reach_standing (s : State) (via : Via) (ak : AKind) (l : Loc) : (s.reach via ak l).state.standing = s.standing := by
  have hlost (st : State) : (st.unanswered via ak l).state.standing = st.standing := by
    have hmark : (st.markLost via).standing = st.standing := by unfold State.markLost; split <;> rfl
    unfold State.unanswered
    dsimp only
    split <;> exact hmark
  unfold State.reach
  split
  · split
    · rfl
    · rfl
    · exact hlost _
  · rfl
  · exact hlost _

theorem State.locate1_standing (s : State) (via : Via) (va : Word) (n : Nat) (ak : AKind) : (s.locate1 via va n ak).state.standing = s.standing := by
  refine (Res.bind_standing fun x t => ?_).trans (State.xlate_standing s via va ak)
  split
  · rfl
  · split
    · rfl
    · split
      · rfl
      · split
        · split
          · rfl
          · exact State.reach_standing ..
        · exact State.reach_standing ..

theorem State.locate_standing (s : State) (via : Via) (va : Word) (n : Nat) (ak : AKind) : (s.locate via va n ak).state.standing = s.standing := by
  unfold State.locate
  generalize pieces 3 va n = ps
  induction ps generalizing s with
  | nil => rfl
  | cons p ps ih =>
    refine (Res.bind_standing fun l t => ?_).trans (State.locate1_standing s via p.1 p.2 ak)
    exact (Res.bind_standing fun _ _ => rfl).trans (ih t)

/-! ## Rods and writes -/

/-- A state but for the rods. -/
def State.offRods (s : State) : State := { s with coh := { s.coh with rods := [] } }

theorem State.standing_of_offRods (h : t.offRods = s.offRods) : t.standing = s.standing := (congrArg State.standing h :)

theorem State.askRod_offRods (s : State) (p : Party) (region home : Nat) : (s.askRod p region home).1.offRods = s.offRods := by
  unfold State.askRod
  repeat' split
  all_goals rfl

theorem State.askRods_offRods (s : State) (via : Via) (ls : List Loc) : (s.askRods via ls).1.offRods = s.offRods := by
  induction ls generalizing s with
  | nil => rfl
  | cons l ls ih =>
    unfold State.askRods
    split
    · simp only
      split
      · exact (ih _).trans (State.askRod_offRods ..)
      · exact State.askRod_offRods ..
    · exact ih s

theorem State.renewRod_offRods (s : State) (p : Party) (region : Nat) (w : Bool) (va : Option Word) : (s.renewRod p region w va).offRods = s.offRods := by
  unfold State.renewRod
  split
  · split <;> rfl
  · rfl

/-- A write that asks for its rods changes nothing else. -/
theorem State.takeRods_offRods (s : State) (via : Via) (ls : List Loc) : (s.takeRods via ls).1.offRods = s.offRods := by
  unfold State.takeRods
  dsimp only
  split
  · refine (foldl_keeps State.offRods (fun st l => ?_) _ _).trans (State.askRods_offRods ..)
    split
    · exact State.renewRod_offRods ..
    · rfl
  · exact State.askRods_offRods ..

theorem State.storeReady_offRods (s : State) (via : Via) (ls : List Loc) : (s.storeReady via ls).state.offRods = s.offRods := by
  have hcheck := State.storeCheck_state s via ls
  unfold State.storeReady
  cases hc : s.storeCheck via ls with
  | ok a t =>
    rw [hc] at hcheck
    rw [Res.bind_ok, show t = s from hcheck]
    dsimp only
    split <;> exact State.takeRods_offRods ..
  | trap c v t => exact (congrArg State.offRods (hc ▸ hcheck) :)
  | stall w t => exact (congrArg State.offRods (hc ▸ hcheck) :)

theorem State.storeReady_standing (s : State) (via : Via) (ls : List Loc) : (s.storeReady via ls).state.standing = s.standing :=
  State.standing_of_offRods (State.storeReady_offRods ..)

theorem State.releaseRods_standing (s : State) (p : Party) : (s.releaseRods p).standing = s.standing := by
  refine foldl_keeps State.standing (f := fun st g => st.releaseRod g p) (fun st g => ?_) _ s
  unfold State.releaseRod State.passRod
  repeat' split
  all_goals rfl

theorem State.writeLoc_standing (s : State) (via : Via) (l : Loc) (bs : List Byte) : (s.writeLoc via l bs).standing = s.standing := by
  have hnote (st : State) (n : Nat) : (st.noteWrite via l n).standing = st.standing := by
    unfold State.noteWrite
    repeat' split
    all_goals rfl
  unfold State.writeLoc
  split
  · split
    · exact State.send_standing ..
    · rfl
  · rfl
  · unfold State.inFlight
    split <;> rfl
  · refine (hnote ..).trans ((State.putBytes_standing ..).trans ?_)
    split
    · exact State.reckonRange_standing ..
    · rfl

theorem State.writeLocs_standing (s : State) (via : Via) (ls : List Loc) (bs : List Byte) : (s.writeLocs via ls bs).standing = s.standing := by
  induction ls generalizing s bs with
  | nil => rfl
  | cons l ls ih => exact (ih _ _).trans (State.writeLoc_standing ..)

theorem State.storeLocs_standing (s : State) (via : Via) (ls : List Loc) (bs : List Byte) : (s.storeLocs via ls bs).state.standing = s.standing := by
  refine (Res.bind_standing fun _ t => ?_).trans (State.storeReady_standing s via ls)
  exact State.writeLocs_standing ..

/-! ## Writes of the front end, and an error of a queue -/

theorem State.frontWrite_standing (s : State) (part qid : Nat) (why : FrontWhy) (va : Word) (bs : List Byte) :
    (s.frontWrite part qid why va bs).1.standing = s.standing := by
  have htry (w : FrontWork) : (s.frontTry w).1.standing = s.standing := by
    have hlocated := State.locate_standing s (s.viaQueue w.part w.qid) w.va w.bytes.length .store
    unfold State.frontTry
    dsimp only
    split
    next ls s1 e =>
      rw [e] at hlocated
      split
      · exact hlocated
      · split
        · exact hlocated
        · have hready := (State.storeReady_standing s1 (s.viaQueue w.part w.qid) ls).trans hlocated
          split
          next s2 e2 =>
            rw [e2] at hready
            have hwritten := (State.writeLocs_standing s2 (s.viaQueue w.part w.qid) ls w.bytes).trans hready
            split
            · exact hwritten
            · exact (State.releaseRods_standing ..).trans hwritten
          next e2 => rw [e2] at hready; exact hready
          next e2 => rw [e2] at hready; exact hready
    next e => rw [e] at hlocated; exact hlocated
    next e => rw [e] at hlocated; exact hlocated
  unfold State.frontWrite
  dsimp only
  split
  · exact htry _
  · split
    · rfl
    · split <;> exact htry _

theorem State.putLive_standing (s : State) (q : Queue) (off : Nat) (bs : List Byte) : (s.putLive q off bs).standing = s.standing := by
  have hbad (st : State) (x : Queue) : (st.queueBad x).standing = st.standing := by
    unfold State.queueBad
    split
    · rfl
    · exact State.send_standing ..
  have hwrite := State.frontWrite_standing s q.part q.qid .live (q.va off) bs
  unfold State.putLive
  split
  · rfl
  · split
    next e => rw [e] at hwrite; exact hwrite
    next e =>
      rw [e] at hwrite
      split
      · exact (hbad ..).trans hwrite
      · exact hwrite

theorem State.queueError_standing (s : State) (part qid code pkt utag : Nat) (args : List Word) :
    (s.queueError part qid code pkt utag args).standing = s.standing := by
  have hrecord (st : State) (q : Queue) (bs : List Byte) : (st.putRecord q bs).standing = st.standing := by
    unfold State.putRecord
    split
    · exact State.frontWrite_standing ..
    · rfl
  have hafter (st : State) (b : Bool) : (st.afterError part qid b).standing = st.standing := by
    unfold State.afterError
    split
    · rfl
    · split
      · exact (State.putLive_standing ..).trans (State.putLive_standing ..)
      · split
        · exact State.putLive_standing ..
        · rfl
  unfold State.queueError
  split
  · rfl
  · exact (hafter ..).trans ((State.send_standing ..).trans ((State.putLive_standing ..).trans (hrecord ..)))

end Sys2Proof.Machine
end

section
/-! Supervision of lanes (R49 to R51, R113): the contexts that want lanes, their division, and the events that grant, move and retire groups. -/

namespace Sys2Proof.Machine

variable {s : State} {core h : Nat} {w : Want}

/-! ## The contexts of a core that want lanes (R49) -/

/-- The contexts that stand on a core's sequencers, of those that want lanes. -/
theorem State.wanting_unsaved (s : State) (core : Nat) :
    (s.wanting core).filter (fun w => !w.saved) = ((List.range 4).filter fun i => (s.getSeq (4 * core + i)).vec.wants).map fun i =>
      ⟨4 * core + i, max 1 (s.getSeq (4 * core + i)).vec.weight, false⟩ := by
  rw [State.wanting]
  induction List.range 4 with
  | nil => rfl
  | cons i l ih =>
    have hsaved (xs : List Saved) (f : Saved → Nat) :
        (xs.map fun x => (⟨4 * core + i, f x, true⟩ : Want)).filter (fun w => !w.saved) = [] := by simp
    rw [List.flatMap_cons, List.filter_append, List.filter_append, ih, hsaved, List.append_nil, List.filter_cons]
    cases hw : (s.getSeq (4 * core + i)).vec.wants <;> simp

theorem State.mem_wanting (h : Nat) (w : Want) (hw : w.saved = false) (hh : w.hart = h) :
    w ∈ s.wanting (coreOf h) ↔ (s.getSeq h).vec.wants = true ∧ w = ⟨h, max 1 (s.getSeq h).vec.weight, false⟩ := by
  have hfilter : w ∈ s.wanting (coreOf h) ↔ w ∈ (s.wanting (coreOf h)).filter (fun w => !w.saved) := by simp [hw]
  rw [hfilter, State.wanting_unsaved]
  have hsplit : 4 * coreOf h + h % 4 = h := by unfold coreOf; omega
  simp only [List.mem_map, List.mem_filter, List.mem_range]
  constructor
  · rintro ⟨i, ⟨-, hwants⟩, rfl⟩
    dsimp only at hh
    rw [hh] at hwants ⊢
    exact ⟨hwants, rfl⟩
  · rintro ⟨hwants, rfl⟩
    exact ⟨h % 4, ⟨Nat.mod_lt _ (by decide), by rw [hsplit]; exact hwants⟩, by rw [hsplit]⟩

/-! ## The division (R49) -/

/-- Each context has a share. -/
theorem divide_fst (ws : List Want) (u rot : Nat) : (divide ws u rot).map Prod.fst = ws := by
  unfold divide
  dsimp only
  split
  · simp [Function.comp_def]
  · simp [Function.comp_def]

theorem divide_share {ws : List Want} {u rot n : Nat} (hroom : ws.length ≤ u) (h : (w, n) ∈ divide ws u rot) :
    n = 1 + (u - ws.length) * w.weight / (ws.map (·.weight)).sum ∨ n = 1 + (u - ws.length) * w.weight / (ws.map (·.weight)).sum + 1 := by
  unfold divide at h
  dsimp only at h
  rw [if_pos hroom] at h
  simp only [List.mem_map, Prod.mk.injEq] at h
  obtain ⟨_, ⟨x, -, rfl⟩, rfl, rfl⟩ := h
  dsimp only
  split
  · exact .inr rfl
  · exact .inl rfl

theorem divide_turns {ws : List Want} {u : Nat} (hfew : u < ws.length) (rot : Nat) :
    divide ws u rot = ws.zipIdx.map fun p => (p.1, turnOf u ws.length (rot % ws.length) p.2) := if_neg (Nat.not_le.mpr hfew)

theorem divide_turn_le {ws : List Want} {u rot n : Nat} (hfew : u < ws.length) (h : (w, n) ∈ divide ws u rot) : n ≤ 1 := by
  rw [divide_turns hfew] at h
  simp only [List.mem_map, Prod.mk.injEq] at h
  obtain ⟨_, -, -, rfl⟩ := h
  unfold turnOf
  split <;> decide

theorem State.mem_division {n : Nat} :
    (h, n) ∈ s.division core ↔ ∃ w, (w, n) ∈ divide (s.wanting core) (s.usable core) (s.core core).rot ∧ w.saved = false ∧ w.hart = h := by
  simp only [State.division, List.mem_filterMap, Prod.exists]
  constructor
  · rintro ⟨w, m, hmem, hw⟩
    split at hw
    · cases hw
    next hsaved =>
      obtain ⟨rfl, rfl⟩ := Prod.mk.inj (Option.some.inj hw)
      exact ⟨w, hmem, Bool.eq_false_iff.mpr hsaved, rfl⟩
  · rintro ⟨w, hmem, hsaved, rfl⟩
    exact ⟨w, n, hmem, by rw [if_neg (Bool.eq_false_iff.mp hsaved)]⟩

theorem mem_of_aget {α : Type} {l : List (Nat × α)} {k : Nat} {v : α} (h : aget l k = some v) : (k, v) ∈ l := by
  induction l with
  | nil => cases h
  | cons p l ih =>
    rw [aget] at h
    split at h
    next hk =>
      obtain rfl := Option.some.inj h
      exact hk ▸ List.mem_cons_self ..
    next => exact List.mem_cons_of_mem _ (ih h)

theorem aget_isSome {α : Type} {l : List (Nat × α)} {k : Nat} {v : α} (h : (k, v) ∈ l) : (aget l k).isSome = true := by
  induction l with
  | nil => cases h
  | cons p l ih =>
    rw [aget]
    split
    · rfl
    next hk => exact ih ((List.mem_cons.mp h).resolve_left fun e => hk (e ▸ rfl))

/-- A context that wants no lanes has no share. -/
theorem State.division_none (h : Nat) (hwants : (s.getSeq h).vec.wants = false) : aget (s.division (coreOf h)) h = none := by
  by_contra hsome
  obtain ⟨n, hn⟩ := Option.ne_none_iff_exists'.mp hsome
  obtain ⟨w, hmem, hsaved, hhart⟩ := State.mem_division.mp (mem_of_aget hn)
  have hw : w ∈ s.wanting (coreOf h) := divide_fst (s.wanting (coreOf h)) _ _ ▸ List.mem_map_of_mem hmem
  simp [((State.mem_wanting h w hsaved hhart).mp hw).1] at hwants

/-- What R49 gives the context on hart h, of n contexts that want lanes and u groups. -/
def State.FairShare (s : State) (h n : Nat) : Prop :=
  let ws := s.wanting (coreOf h)
  let u := s.usable (coreOf h)
  let first := 1 + (u - ws.length) * max 1 (s.getSeq h).vec.weight / (ws.map (·.weight)).sum
  (ws.length ≤ u → n = first ∨ n = first + 1) ∧ (u < ws.length → n ≤ 1)

/-- One that wants lanes has a fair share. -/
theorem State.division_fair (h : Nat) (hwants : (s.getSeq h).vec.wants = true) : ∃ n, aget (s.division (coreOf h)) h = some n ∧ s.FairShare h n := by
  have hin : (⟨h, max 1 (s.getSeq h).vec.weight, false⟩ : Want) ∈ (divide (s.wanting (coreOf h)) (s.usable (coreOf h)) (s.core (coreOf h)).rot).map Prod.fst := by
    rw [divide_fst]
    exact (State.mem_wanting h _ rfl rfl).mpr ⟨hwants, rfl⟩
  obtain ⟨⟨_, m⟩, hm, rfl⟩ := List.mem_map.mp hin
  obtain ⟨n, hn⟩ := Option.isSome_iff_exists.mp (aget_isSome (State.mem_division.mpr ⟨_, hm, rfl, rfl⟩))
  obtain ⟨w, hmem, hsaved, hhart⟩ := State.mem_division.mp (mem_of_aget hn)
  have hw : w ∈ s.wanting (coreOf h) := divide_fst (s.wanting (coreOf h)) _ _ ▸ List.mem_map_of_mem hmem
  obtain ⟨-, rfl⟩ := (State.mem_wanting h w hsaved hhart).mp hw
  exact ⟨n, hn, fun hroom => divide_share hroom hmem, fun hfew => divide_turn_le hfew hmem⟩

/-! ## A write of lgrant (R49, R51) -/

/-- The grant of hart h is n. -/
def State.setGrant (s : State) (h n : Nat) : State := s.modSeq h fun q => { q with vec := { q.vec with grant := n } }

theorem State.getSeq_setGrant (s : State) (h n j : Nat) :
    (s.setGrant h n).getSeq j = if j = h then { s.getSeq h with vec := { (s.getSeq h).vec with grant := n } } else s.getSeq j := State.getSeq_modSeq ..

/-- The sequencer that a write of lgrant names. -/
def lgrantHart (sup : Nat) (v : Word) : Nat := sup * 64 + getBits v 0 6

theorem State.getSeq_lgrant (s : State) (sup : Nat) (v : Word) (j : Nat) :
    (s.lgrant sup v).getSeq j = if j = lgrantHart sup v then
      { s.getSeq (lgrantHart sup v) with vec := { (s.getSeq (lgrantHart sup v)).vec with
          grant := min 8 (getBits v 8 4), weight := if v.getLsbD 7 then getBits v 16 8 else (s.getSeq (lgrantHart sup v)).vec.weight } }
    else s.getSeq j := State.getSeq_modSeq ..

theorem exec_lgrantWrite {sup : Nat} (hsup : sup < 64) (v : Word) :
    exec (.lgrantWrite sup v) s = .next (match aget ((s.lgrant sup v).division (coreOf (lgrantHart sup v))) (lgrantHart sup v) with
      | some n => (s.lgrant sup v).setGrant (lgrantHart sup v) n
      | none => s.lgrant sup v) := congrArg Host.Outcome.next (if_pos hsup)

theorem exec_lgrantWrite_unwanted {sup : Nat} (hsup : sup < 64) {v : Word} (hwants : (s.getSeq (lgrantHart sup v)).vec.wants = false) :
    exec (.lgrantWrite sup v) s = .next (s.lgrant sup v) := by
  rw [exec_lgrantWrite hsup, State.division_none]
  rw [State.getSeq_lgrant, if_pos rfl]
  exact hwants

theorem exec_lgrantWrite_wanted {sup : Nat} (hsup : sup < 64) {v : Word} (hwants : (s.getSeq (lgrantHart sup v)).vec.wants = true) :
    ∃ n, exec (.lgrantWrite sup v) s = .next ((s.lgrant sup v).setGrant (lgrantHart sup v) n) ∧ (s.lgrant sup v).FairShare (lgrantHart sup v) n := by
  obtain ⟨n, hn, hfair⟩ := State.division_fair (s := s.lgrant sup v) (lgrantHart sup v) (by rw [State.getSeq_lgrant, if_pos rfl]; exact hwants)
  exact ⟨n, by rw [exec_lgrantWrite hsup, hn], hfair⟩

/-- The weight and the grant that a write of lgrant leaves. -/
theorem exec_lgrantWrite_effect {sup : Nat} (hsup : sup < 64) (v : Word) : ∃ e : State, exec (.lgrantWrite sup v) s = .next e ∧ e.mem = s.mem ∧
    (∀ j, j ≠ lgrantHart sup v → e.getSeq j = s.getSeq j) ∧
    (e.getSeq (lgrantHart sup v)).vec.weight = (if v.getLsbD 7 then getBits v 16 8 else (s.getSeq (lgrantHart sup v)).vec.weight) ∧
    ((s.getSeq (lgrantHart sup v)).vec.wants = false → (e.getSeq (lgrantHart sup v)).vec.grant = min 8 (getBits v 8 4)) ∧
    ((s.getSeq (lgrantHart sup v)).vec.wants = true → (s.lgrant sup v).FairShare (lgrantHart sup v) (e.getSeq (lgrantHart sup v)).vec.grant) := by
  have hothers (j : Nat) (hj : j ≠ lgrantHart sup v) : (s.lgrant sup v).getSeq j = s.getSeq j := by rw [State.getSeq_lgrant, if_neg hj]
  have hnamed := State.getSeq_lgrant s sup v (lgrantHart sup v)
  rw [if_pos rfl] at hnamed
  cases hwants : (s.getSeq (lgrantHart sup v)).vec.wants with
  | false => exact ⟨_, exec_lgrantWrite_unwanted hsup hwants, State.setSeq_mem .., hothers, by rw [hnamed], fun _ => by rw [hnamed], nofun⟩
  | true =>
    obtain ⟨n, hexec, hfair⟩ := exec_lgrantWrite_wanted hsup hwants
    have hgranted := State.getSeq_setGrant (s.lgrant sup v) (lgrantHart sup v) n (lgrantHart sup v)
    rw [if_pos rfl, hnamed] at hgranted
    refine ⟨_, hexec, (State.setSeq_mem ..).trans (State.setSeq_mem ..), fun j hj => ?_, by rw [hgranted], nofun, fun _ => by rw [hgranted]; exact hfair⟩
    rw [State.getSeq_setGrant, if_neg hj, hothers j hj]

/-! ## Rotation (R49) -/

theorem exec_laneRotation_holds (h : (s.wanting core).length ≤ s.usable core ∨ 3 * (s.time - (s.core core).rotAt) < 65536) :
    exec (.laneRotation core) s = .next s := congrArg Host.Outcome.next (if_pos h)

/-- The rotation of a core, before the grants that follow from it. -/
def State.turned (s : State) (core : Nat) : State :=
  s.setCore core { s.core core with rot := ((s.core core).rot + 1) % (s.wanting core).length, rotAt := s.time }

theorem exec_laneRotation_turns (hfew : s.usable core < (s.wanting core).length) (hdue : 65536 ≤ 3 * (s.time - (s.core core).rotAt)) :
    exec (.laneRotation core) s = .next (((s.turned core).division core).foldl (fun st p => st.setGrant p.1 p.2) (s.turned core)) :=
  congrArg Host.Outcome.next (if_neg (by omega))

/-- No sequencer has two shares. -/
theorem State.division_nodup (s : State) (core : Nat) : ((s.division core).map Prod.fst).Nodup := by
  have hharts : (s.division core).map Prod.fst = ((s.wanting core).filter fun w => !w.saved).map (·.hart) := by
    conv_rhs => rw [← divide_fst (s.wanting core) (s.usable core) (s.core core).rot]
    rw [State.division]
    induction divide (s.wanting core) (s.usable core) (s.core core).rot with
    | nil => rfl
    | cons p l ih => cases hp : p.1.saved <;> simp [hp, ih]
  rw [hharts, State.wanting_unsaved, List.map_map]
  exact (List.nodup_range.filter _).map fun i j hij => by simpa using hij

theorem foldl_setGrant_others {h : Nat} (l : List (Nat × Nat)) (s : State) (hout : h ∉ l.map Prod.fst) :
    (l.foldl (fun st p => st.setGrant p.1 p.2) s).getSeq h = s.getSeq h := by
  induction l generalizing s with
  | nil => rfl
  | cons p l ih =>
    simp only [List.map_cons, List.mem_cons, not_or] at hout
    rw [List.foldl_cons, ih _ hout.2, State.getSeq_setGrant, if_neg hout.1]

theorem foldl_setGrant_grant {h n : Nat} {l : List (Nat × Nat)} (hnodup : (l.map Prod.fst).Nodup) (hmem : (h, n) ∈ l) (s : State) :
    ((l.foldl (fun st p => st.setGrant p.1 p.2) s).getSeq h).vec.grant = n := by
  induction l generalizing s with
  | nil => cases hmem
  | cons p l ih =>
    rw [List.map_cons, List.nodup_cons] at hnodup
    rcases List.mem_cons.mp hmem with rfl | hmem
    · rw [List.foldl_cons, foldl_setGrant_others l _ hnodup.1, State.getSeq_setGrant, if_pos rfl]
    · exact ih hnodup.2 hmem _

theorem foldl_setGrant_rest (l : List (Nat × Nat)) (s : State) :
    (l.foldl (fun st p => st.setGrant p.1 p.2) s).mem = s.mem ∧ (l.foldl (fun st p => st.setGrant p.1 p.2) s).cores = s.cores :=
  ⟨foldl_keeps State.mem (fun _ _ => State.setSeq_mem ..) l s, foldl_keeps State.cores (fun _ _ => State.setSeq_cores ..) l s⟩

/-- After the rotation, the contexts from the turn on have a group each. -/
theorem State.mem_turned_division {i : Nat} (hfew : s.usable core < (s.wanting core).length) (hw : (s.wanting core)[i]? = some w) (hsaved : w.saved = false) :
    (w.hart, turnOf (s.usable core) (s.wanting core).length (((s.core core).rot + 1) % (s.wanting core).length) i) ∈ (s.turned core).division core := by
  have hwanting : (s.turned core).wanting core = s.wanting core := rfl
  have hself : (s.turned core).core core = { s.core core with rot := ((s.core core).rot + 1) % (s.wanting core).length, rotAt := s.time } := by
    rw [State.turned, State.core_setCore, if_pos rfl]
  have husable : (s.turned core).usable core = s.usable core := by
    rw [State.usable, hself]
    rfl
  rw [State.mem_division, hwanting, husable, hself]
  refine ⟨w, ?_, hsaved, rfl⟩
  rw [divide_turns hfew, Nat.mod_mod]
  exact List.mem_map.mpr ⟨(w, i), List.mem_zipIdx_iff_getElem?.mpr hw, rfl⟩

/-! ## Requests for lanes (R50, R51) -/

theorem exec_laneRequestInterrupt {sup : Nat} (hsup : sup < 64) (hreq : (s.cluster sup).lreq ≠ 0) (htakes : (s.getSeq (supervisorOf sup)).takesLrip = true) :
    exec (.laneRequestInterrupt sup) s = .next (s.setSeq (supervisorOf sup)
      { (s.getSeq (supervisorOf sup)).interruptTo (s.seePc (supervisorOf sup) (s.getSeq (supervisorOf sup)).pc) 16 with run := .running }) :=
  congrArg Host.Outcome.next (if_pos ⟨hsup, hreq, htakes⟩)

/-- A context waits for more groups than it holds, and has waited 1 ms. -/
def State.StuckForLanes (s : State) (h : Nat) : Prop :=
  ∃ t, (s.getSeq h).stall = some .lanes ∧ 0 < (s.getSeq h).vec.grant ∧ popcount (s.getSeq h).vec.hmask < (s.getSeq h).vec.grant ∧
    (s.getSeq h).since = some t ∧ t + 1000000 ≤ s.time

theorem exec_laneHoldTimeout_asks (hseq : h < 4096) (hover : min (s.getSeq h).vec.grant (s.usable (coreOf h)) < popcount (s.getSeq h).vec.hmask)
    (hlong : (s.getSeq h).vec.setAt + 1000000 ≤ s.time) {i : Nat} (hi : i < 4) (hother : 4 * coreOf h + i ≠ h) (hstuck : s.StuckForLanes (4 * coreOf h + i)) :
    exec (.laneHoldTimeout h) s = .next (s.askHalt h) := by
  obtain ⟨t, hstall, hgrant, hfew, hsince, ht⟩ := hstuck
  refine congrArg Host.Outcome.next (if_pos ⟨hseq, hover, hlong, List.any_eq_true.mpr ⟨4 * coreOf h + i, ?_, ?_⟩⟩)
  · simp [hi, hother]
  · simp [hstall, hgrant, hfew, hsince, ht]

theorem exec_laneHoldTimeout_holds (hlet : popcount (s.getSeq h).vec.hmask ≤ min (s.getSeq h).vec.grant (s.usable (coreOf h)) ∨
    s.time < (s.getSeq h).vec.setAt + 1000000) : exec (.laneHoldTimeout h) s = .next s :=
  congrArg Host.Outcome.next (if_neg fun ⟨_, hover, hlong, _⟩ =>
    hlet.elim (fun hfits => Nat.not_lt.mpr hfits hover) fun hsoon => Nat.not_lt.mpr hlong hsoon)

/-! ## Retirement (R113) -/

theorem exec_laneRetire {group : Nat} (hgroup : group < 8) (hserves : (s.core core).dis.getLsbD group = false) :
    ∃ e : State, exec (.laneRetire core group) s = .next e ∧ (e.core core).dis = (s.core core).dis ||| (1 : BitVec 8) <<< group := by
  refine ⟨_, congrArg Host.Outcome.next (if_neg ?_), ?_⟩
  · exact not_or.mpr ⟨Bool.eq_false_iff.mp hserves, Nat.not_le.mpr hgroup⟩
  · rw [State.dis_of_standing (State.logEntry_standing ..), State.core_setCore, if_pos rfl]

end Sys2Proof.Machine
end

section
/-! Pre-emption (R300, R301, R307) and waiting (R141, R242, R244): what each event does to the sequencer it happens to. -/

namespace Sys2Proof.Machine

variable {s s1 : State} {h : Nat}

/-! ## Halt requests (R37, R300, R348) -/

/-- The task on a hart is of no killed launch. -/
def State.SparedOn (s : State) (h : Nat) : Prop := ∀ t l, (s.getSeq h).task = some t → s.launch? t.launch = some l → l.killed = false

theorem State.killHalted_running (hrun : (s.getSeq h).run ≠ .halted) : s.killHalted h = s := by
  unfold State.killHalted
  split
  · exact if_neg fun c => hrun c.1
  · rfl

theorem State.killHalted_spared (hspared : s.SparedOn h) : s.killHalted h = s := by
  unfold State.killHalted
  split
  next t htask =>
    refine if_neg fun ⟨_, hkilled⟩ => ?_
    cases hl : s.launch? t.launch with
    | none => simp [hl] at hkilled
    | some l => simp [hl, hspared t l htask hl] at hkilled
  · rfl

theorem exec_haltRequest_asks (hseq : h < 4096) (hchosen : s.policyHalts = [] ∨ s.policyHalts.contains h = true) :
    exec (.haltRequest h) s = .next (s.askHalt h) := congrArg Host.Outcome.next (if_pos ⟨hseq, hchosen⟩)

theorem exec_haltRequest_other (hsome : s.policyHalts ≠ []) (hother : s.policyHalts.contains h = false) : exec (.haltRequest h) s = .next s :=
  congrArg Host.Outcome.next (if_neg fun ⟨_, hchosen⟩ => hchosen.elim hsome (Bool.eq_false_iff.mp hother))

/-- What a request makes of the sequencer that it asks. -/
def Seq.asked (q : Seq) (time : Nat) : Seq :=
  if q.task.isNone ∨ q.halt.isSome then q
  else if q.run = .idle then q.land time
  else if q.run = .running then { q with halt := some time, budget := false }
  else q

theorem State.askHalt_eq (s : State) (h : Nat) :
    s.askHalt h = ((if (s.getSeq h).run = .idle then s.safePoint h else s).modSeq h fun q => q.asked s.time).killHalted h := by
  unfold State.askHalt
  split <;> rfl

section
variable {q : Seq} {time : Nat} (htask : q.task.isSome = true) (hhalt : q.halt = none)
include htask hhalt

theorem Seq.asked_running (hrun : q.run = .running) : q.asked time = { q with halt := some time, budget := false } := by
  simp [Seq.asked, Option.isSome_iff_ne_none.mp htask, hhalt, hrun]

theorem Seq.asked_idle (hrun : q.run = .idle) : q.asked time = q.land time := by
  simp [Seq.asked, Option.isSome_iff_ne_none.mp htask, hhalt, hrun]

end

section
variable (htask : (s.getSeq h).task.isSome = true) (hhalt : (s.getSeq h).halt = none)
include htask hhalt

/-- On a running sequencer the request stays pending. -/
theorem State.askHalt_running (hrun : (s.getSeq h).run = .running) :
    s.askHalt h = s.setSeq h { s.getSeq h with halt := some s.time, budget := false } := by
  rw [State.askHalt_eq, if_neg (by simp [hrun]), State.modSeq, Seq.asked_running htask hhalt hrun, State.killHalted_running]
  simp [State.getSeq_setSeq, hrun]

/-- An idle handler halts at once, at a safe point. -/
theorem State.askHalt_idle (hrun : (s.getSeq h).run = .idle) (hspared : s.SparedOn h) :
    s.askHalt h = (s.safePoint h).modSeq h fun q => q.land s.time := by
  have hq : (s.safePoint h).getSeq h = { s.getSeq h with ctl := { (s.getSeq h).ctl with cgen := s.safeGen h } } := by
    rw [State.safePoint, State.getSeq_modSeq, if_pos rfl]
  have hasked : ((s.safePoint h).getSeq h).asked s.time = ((s.safePoint h).getSeq h).land s.time := by
    rw [hq]
    exact Seq.asked_idle htask hhalt hrun
  rw [State.askHalt_eq, if_pos hrun, State.modSeq, hasked]
  refine State.killHalted_spared fun t l ht hl => ?_
  rw [State.getSeq_setSeq, if_pos rfl, hq] at ht
  exact hspared t l ht (by rw [← hl]; simp [State.launch?, State.safePoint])

end

/-! ## Landing, and going on (R300, R301, R307) -/

theorem exec_haltLanding_lands (hrun : (s.getSeq h).run = .running) (hlands : (s.getSeq h).lands = true) (hspared : s.SparedOn h) :
    ∃ e : State, exec (.haltLanding h) s = .next e ∧ e.getSeq h = (s.getSeq h).land s.time ∧ e.mem = s.mem := by
  have hlanded : (s.landAt h).getSeq h = (s.getSeq h).land s.time ∧ (s.landAt h).mem = s.mem ∧ (s.landAt h).launches = s.launches := by
    unfold State.landAt
    dsimp only
    split
    · exact ⟨(State.getSeq_setSeq ..).trans (if_pos rfl), State.setSeq_mem .., State.setSeq_launches ..⟩
    · exact ⟨(State.getSeq_setSeq ..).trans (if_pos rfl), State.setSeq_mem .., State.setSeq_launches ..⟩
  obtain ⟨hseq, hmem, hlaunches⟩ := hlanded
  have hexec : exec (.haltLanding h) s = .next ((s.landAt h).killHalted h) := congrArg Host.Outcome.next (if_pos ⟨hrun, hlands⟩)
  refine ⟨_, hexec, ?_⟩
  rw [State.killHalted_spared]
  · exact ⟨hseq, hmem⟩
  · intro t l ht hl
    rw [hseq] at ht
    exact hspared t l ht (by rw [← hl, State.launch?, State.launch?, hlaunches])

theorem exec_haltLanding_holds (hlands : (s.getSeq h).lands = false) (hrun : (s.getSeq h).run ≠ .halted) : exec (.haltLanding h) s = .next s := by
  have hexec : exec (.haltLanding h) s = .next (s.killHalted h) :=
    congrArg Host.Outcome.next (if_neg fun c => Bool.eq_false_iff.mp hlands c.2)
  rw [hexec, State.killHalted_running hrun]

theorem exec_itbudgetExpiry_due {t : Nat} (hhalt : (s.getSeq h).halt = some t) (hdue : (s.getSeq h).ctl.itbudget.toNat ≤ 3 * (s.time - t)) :
    exec (.itbudgetExpiry h) s = .next (s.setSeq h { s.getSeq h with budget := true }) := by
  simp [exec, execItbudgetExpiry, hhalt, hdue]

theorem exec_forwardingExpiry (h : Nat) (s : State) :
    ∃ e : State, exec (.forwardingExpiry h) s = .next e ∧ e = { s with cores := e.cores } ∧
      ∀ f, f ∈ (e.core (coreOf h)).fwd ↔ f ∈ (s.core (coreOf h)).fwd ∧ ¬ (f.old = h ∧ f.expiry ≤ s.time) := by
  refine ⟨_, rfl, rfl, fun f => ?_⟩
  rw [State.modCore, State.core_setCore, if_pos rfl]
  simp [imp_iff_not_or]

theorem exec_sequencerResume_halted (hrun : (s.getSeq h).run = .halted) :
    ∃ e : State, exec (.sequencerResume h) s = .next e ∧ e.mem = s.mem ∧ (∀ g, g ≠ h → e.getSeq g = s.getSeq g) ∧
      e.getSeq h = { s.getSeq h with run := if (s.getSeq h).hs.mode && !(s.getSeq h).hs.inside then .idle else .running, since := none, atEdge := false } := by
  refine ⟨_, congrArg Host.Outcome.next (if_pos hrun), State.setSeq_mem .., fun g hg => (State.getSeq_setSeq ..).trans (if_neg hg),
    (State.getSeq_setSeq ..).trans ((if_pos rfl).trans ?_)⟩
  simp only [Bool.and_eq_true]

/-! ## Waiting (R141, R242, R244) -/

theorem State.wake_word (hstall : (s.getSeq h).stall = some .word) : s.wake h = { s with agenda := s.agenda ++ [.run h] } := if_pos hstall

theorem State.barrier_setBarrier (s : State) (b : Barrier) : (s.setBarrier b).barrier b.launch b.wg = b := by
  simp [State.barrier, State.setBarrier]

theorem exec_barrierComplete {launch wg : Nat} (harrived : (s.barrier launch wg).arrived ≠ [])
    (hall : s.wgTasks launch wg ≤ (s.barrier launch wg).arrived.length) :
    exec (.barrierComplete launch wg) s = .next (s.setBarrier (s.barrier launch wg).complete) := congrArg Host.Outcome.next (if_pos ⟨harrived, hall⟩)

section
variable {va : Word} {store : Bool}

theorem exec_pageWalkComplete_ok {x : Xlated} (hwalk : s.xlate (s.viaHart h) va (if store then .store else .load) = .ok x s1) :
    exec (.pageWalkComplete h va store) s = .next s1 := by
  simp only [exec, execPageWalkComplete, hwalk]

theorem exec_pageWalkComplete_trap {c : Nat} {a : Word} (hwalk : s.xlate (s.viaHart h) va (if store then .store else .load) = .trap c a s1) :
    exec (.pageWalkComplete h va store) s = .next s := by
  simp only [exec, execPageWalkComplete, hwalk]

end

end Sys2Proof.Machine
end

section
/-! Events of code (R58, R60, R61, R64, R70, R71): what becomes of pages, of a dispatch entry and of retired objects. -/

namespace Sys2Proof.Machine

variable {s s1 : State} {obj page part gen fn : Nat} {o : Obj} {p : Part} {native : Word}

theorem State.modObj_eq (ho : s.obj? obj = some o) (f : Obj → Obj) : s.modObj obj f = { s with objs := s.objs.set obj (f o) } := by
  unfold State.modObj
  rw [show s.objs[obj]? = some o from ho]

theorem State.obj?_modObj (ho : s.obj? obj = some o) (f : Obj → Obj) : (s.modObj obj f).obj? obj = some (f o) := by
  rw [State.modObj_eq ho]
  simp [State.obj?, (List.getElem?_eq_some_iff.mp ho).1]

/-! ## Pages (R58, R60, R71) -/

theorem exec_pageFetchUnverified (hpage : o.pages[page]? = some .unverified) (hgood : o.quarantined = false) :
    ∃ f : Obj → Obj, exec (.pageFetchUnverified obj page) s = .next (s.modObj obj f) ∧ f o = { o with pages := o.pages.set page .hashing } := by
  refine ⟨_, rfl, if_pos ⟨?_, by simp [hgood]⟩⟩
  simp [Obj.pageSt, List.getD, hpage]

section
variable (ho : s.obj? obj = some o) (hpage : o.pages[page]? = some .hashing)
include ho hpage

theorem exec_pageHashDone_verified (hsound : s.poisoned (o.pagePa page) 4096 = false)
    (hhash : o.hashes[page]? = some (sha256Num (memRead s.mem (o.pagePa page) 4096))) :
    exec (.pageHashDone obj page) s = .next (s.modObj obj fun x => { x with pages := x.pages.set page .verified }) := by
  simp [exec, execPageHashDone, ho, hpage, hsound, hhash]

theorem exec_pageHashDone_failed (hbad : s.poisoned (o.pagePa page) 4096 = true ∨ o.hashes[page]? ≠ some (sha256Num (memRead s.mem (o.pagePa page) 4096))) :
    ∃ poison, exec (.pageHashDone obj page) s = .next (s.failPage obj page o poison) := by
  by_cases hpoison : s.poisoned (o.pagePa page) 4096 = true
  · exact ⟨true, by simp [exec, execPageHashDone, ho, hpage, hpoison]⟩
  · exact ⟨false, by simp [exec, execPageHashDone, ho, hpage, hpoison, hbad.resolve_left hpoison]⟩

/-- The records of a failure leave the object quarantined and its page failed. -/
theorem State.failPage_obj (poison : Bool) :
    ∃ o', (s.failPage obj page o poison).obj? obj = some o' ∧ o'.quarantined = true ∧ o'.pages[page]? = some .failed := by
  refine ⟨_, (State.obj?_of_standing ((State.logEntry_standing ..).trans (foldl_keeps State.standing (fun st l => ?_) _ _)) obj).trans (State.obj?_modObj ho _),
    rfl, ?_⟩
  · exact State.queueError_standing ..
  · simp [(List.getElem?_eq_some_iff.mp hpage).1]

end

theorem mem_insNat (l : List Nat) (k : Nat) : k ∈ insNat l k := by
  induction l with
  | nil => exact List.mem_cons_self ..
  | cons x l ih =>
    unfold insNat
    split
    · exact List.mem_cons_self ..
    · split
      next hk => exact hk ▸ List.mem_cons_self ..
      next => exact List.mem_cons_of_mem _ ih

theorem exec_makeExecuteOnly (ho : s.obj? obj = some o) (hlive : o.freed = false) (hin : 4096 * page < o.tsize) :
    exec (.makeExecuteOnly obj page) s = .next (s.modObj obj fun x => { x with xonly := insNat x.xonly (x.tareaPa + 4096 * page) }) := by
  simp [exec, execMakeExecuteOnly, ho, hlive, hin]

/-! ## Stores of the runtime -/

theorem State.reckonRange_none {pa n : Nat} (haway : s.coh.away = []) (hbeads : s.beadsIn pa n = []) (r : Option Nat) : s.reckonRange pa n r = s := by
  have hlines : s.bringLines pa n = s := if_pos (.inl haway)
  simp [State.reckonRange, hlines, hbeads]

theorem State.putBytes_mem_of_home {via : Via} {l : Loc} (hcode : s.isCodePage l.pa = false) (hkind : l.kind ≠ .p) (bs : List Byte) :
    (s.putBytes via l bs).mem = memWrite s.mem l.pa bs := by
  have hmem : (if l.t = .hbm then s.wakeHome l.home else s).mem = s.mem := by
    split
    · exact State.wakeHome_mem ..
    · rfl
  unfold State.putBytes
  dsimp only
  rw [if_neg fun c => Bool.eq_false_iff.mp hcode c.2.2, if_neg fun c => hkind c.2.1]
  split <;> simp

/-- A store that completes writes once its rods are there. -/
theorem State.storeLocs_ok {via : Via} {ls : List Loc} {bs : List Byte} (h : s.storeLocs via ls bs = .ok () s1) :
    ∃ t : State, t.offRods = s.offRods ∧ s1 = t.writeLocs via ls bs := by
  obtain ⟨_, t, hready, hwrite⟩ := Res.bind_eq_ok h
  obtain ⟨-, rfl⟩ := Res.ok.inj hwrite
  have hoff := State.storeReady_offRods s via ls
  rw [hready] at hoff
  exact ⟨t, hoff, rfl⟩

/-- Where no Bead word and no code page is met, the runtime's store changes its bytes alone. -/
theorem State.runtimeStore_mem {pa : Nat} {bytes : List Byte} (hstore : s.runtimeStore part pa bytes = .ok () s1) (hlead : ∃ c, s.leadOf part = some c)
    (haway : s.coh.away = []) (hbeads : s.beadsIn pa bytes.length = []) (hcode : s.isCodePage pa = false) : s1.mem = memWrite s.mem pa bytes := by
  obtain ⟨c, hc⟩ := hlead
  rw [State.runtimeStore, hc] at hstore
  obtain ⟨t, hoff, rfl⟩ := State.storeLocs_ok hstore
  have hmem : t.mem = s.mem := (congrArg State.mem hoff :)
  have haway : t.coh.away = [] := (congrArg (fun st => st.coh.away) hoff :).trans haway
  have hbeads : t.beadsIn pa bytes.length = [] := (congrArg (fun st => st.beadsIn pa bytes.length) hoff :).trans hbeads
  have hcode : t.isCodePage pa = false := (congrArg (fun st => st.isCodePage pa) hoff :).trans hcode
  simp only [State.writeLocs, State.writeLoc, Loc.needsRod, List.take_length, State.noteWrite_mem]
  rw [State.putBytes_mem_of_home]
  · simp [State.reckonRange_none haway hbeads, hmem]
  · simpa [State.reckonRange_none haway hbeads] using hcode
  · simp

/-! ## Retranslation (R61, R70) -/

theorem memRead_take (m : List Host.Cell) (a n k : Nat) : (memRead m a (n + k)).take n = memRead m a n := by
  induction n generalizing a with
  | zero => rfl
  | succ n ih => rw [Nat.succ_add, memRead, memRead, List.take_succ_cons, ih]

/-- The word that the runtime writes as LMAP, of a free draw (log 16). -/
def State.freeLmap (s : State) (o : Obj) : Nat :=
  if s.draw.1.getLsbD 0 ∨ o.tsize < 16 then 0 else o.tarea + s.draw.1.toNat / 2 % (o.tsize / 8) * 8

/-- A function's new dispatch entry: the body's address, its generation, LMAP. -/
def State.newEntry (s : State) (o : Obj) (native : Word) (gen : Nat) : List Byte :=
  leBytes 8 native.toNat ++ leBytes 8 gen ++ leBytes 8 (s.freeLmap o)

/-- The store of a retranslation. -/
def State.entryStore (s : State) (part fn : Nat) (o : Obj) (p : Part) (native : Word) : Res Unit :=
  s.draw.2.runtimeStore part (o.dtabPa + 32 * fn + 8) (s.newEntry o native (p.gen + 1))

section
variable (hp : s.part part = some p) (ho : s.obj? obj = some o) (hpart : o.part = part) (hlive : o.freed = false) (hfn : fn < o.ndtab)
  (hverified : o.rangeVerified (s.functionRange o fn) = true) (hready : o.bodyReady native.toNat (max 1 (Config.bodyBytes native.toNat (p.gen + 1))) = true)
include hp ho hpart hlive hfn hverified hready

/-- The event takes the next generation once its store is done, and notes the body that it retires. -/
theorem exec_retranslate : (∀ t, s.entryStore part fn o p native = .ok () t →
      ∃ old, exec (.retranslate part obj fn native) s = .next { (t.nextGen part).1 with old := old }) ∧
    ∀ x t, s.entryStore part fn o p native = .stall x t → exec (.retranslate part obj fn native) s = .next t := by
  have hgen : (s.nextGen part).2 = p.gen + 1 := by simp [State.nextGen, hp]
  unfold State.entryStore State.newEntry State.freeLmap
  simp only [exec, execRetranslate, ho, hgen, hpart, hlive, hverified, hready, Nat.not_le.mpr hfn, ne_eq, not_true_eq_false, Bool.false_eq_true,
    Bool.true_eq_false, or_self, if_false]
  refine ⟨fun t hstore => ?_, fun x t hstore => by rw [hstore]⟩
  rw [hstore]
  dsimp only
  split
  · exact ⟨_, rfl⟩
  · exact ⟨_, rfl⟩

end

theorem State.entryStore_standing (s : State) (part fn : Nat) (o : Obj) (p : Part) (native : Word) :
    (s.entryStore part fn o p native).state.standing = s.standing := by
  unfold State.entryStore State.runtimeStore
  split
  · rfl
  · exact State.storeLocs_standing ..

/-- After the store, the partition is at the next generation. -/
theorem State.nextGen_part (hp : s.part part = some p) (hstore : s.entryStore part fn o p native = .ok () s1) (old : List OldBody) :
    ({ (s1.nextGen part).1 with old := old } : State).part part = some { p with gen := p.gen + 1 } := by
  have hstanding := State.entryStore_standing s part fn o p native
  rw [hstore] at hstanding
  have hp1 : s1.part part = some p := (State.part_of_standing hstanding part).trans hp
  show (s1.nextGen part).1.part part = _
  simp [State.nextGen, hp1, State.part_setPart]

/-- The new entry stands where the store put it, and no other byte changes. -/
theorem State.entryStore_mem (hstore : s.entryStore part fn o p native = .ok () s1) (hwf : s.WfMem) (hlead : ∃ c, s.leadOf part = some c)
    (haway : s.coh.away = []) (hbeads : s.beadsIn (o.dtabPa + 32 * fn + 8) 24 = []) (hcode : s.isCodePage (o.dtabPa + 32 * fn + 8) = false) :
    memRead s1.mem (o.dtabPa + 32 * fn + 8) 16 = leBytes 8 native.toNat ++ leBytes 8 (p.gen + 1) ∧
      ∀ b, b < o.dtabPa + 32 * fn + 8 ∨ o.dtabPa + 32 * fn + 8 + 24 ≤ b → memGet s1.mem b = memGet s.mem b := by
  have hlen : (s.newEntry o native (p.gen + 1)).length = 24 := by simp [State.newEntry]
  have hmem : s1.mem = memWrite s.mem (o.dtabPa + 32 * fn + 8) (s.newEntry o native (p.gen + 1)) :=
    State.runtimeStore_mem (s := s.draw.2) hstore hlead haway (by rw [hlen]; exact hbeads) hcode
  have hread := memRead_memWrite s.mem (o.dtabPa + 32 * fn + 8) (s.newEntry o native (p.gen + 1)) hwf
  rw [hlen, ← hmem] at hread
  refine ⟨?_, fun b hb => ?_⟩
  · rw [← memRead_take s1.mem _ 16 8, hread, State.newEntry, List.take_left']
    simp
  · rw [hmem]
    exact memGet_memWrite_out _ _ _ _ hwf (by rwa [hlen])

/-! ## Freeing (R64) -/

section
variable (hp : s.part part = some p)
include hp

theorem exec_generationFree_early (hreached : s.allReached part gen p.gen = false) : exec (.generationFree part gen) s = .next s := by
  simp [exec, execGenerationFree, hp, hreached]

theorem exec_generationFree_frees (hretired : ∃ o ∈ s.objs, o.part = part ∧ o.retired = some gen ∧ o.freed = false) (hgen : gen ≤ p.gen)
    (hreached : s.allReached part gen p.gen = true) (hraise : s.raiseSaved part p.gen s.saved = .ok () s1) :
    ∃ e : State, exec (.generationFree part gen) s = .next e ∧ ∀ o ∈ e.objs, o.part = part → o.retired = some gen → o.freed = true := by
  have hany : s.objs.any (fun o => o.part == part && o.retired == some gen && !o.freed) = true := by
    obtain ⟨o, hmem, hpart, hret, hlive⟩ := hretired
    exact List.any_eq_true.mpr ⟨o, hmem, by simp [hpart, hret, hlive]⟩
  refine ⟨_, by simp only [exec, execGenerationFree, hp, hany, hreached, hraise, Nat.not_lt.mpr hgen]; rfl, fun o hmem hpart hret => ?_⟩
  rw [State.sendEvent, State.send_objs] at hmem
  obtain ⟨x, -, rfl⟩ := List.mem_map.mp hmem
  split at hpart
  next hx => rw [if_pos hx]
  next hx =>
    rw [if_neg hx] at hret
    exact absurd ⟨hpart, hret⟩ hx

end

end Sys2Proof.Machine
end

section
/-! The obligation on supervision, from the lemmas above. -/

namespace Sys2Proof.Machine

/-- Settles O49: each event by its case, enabled or not. -/
theorem supervisionTakesEffect : Obligations.SupervisionTakesEffect := by
  intro s s1 h core sup group launch wg obj page part gen fn v q k sh ws u turn alive
  refine ⟨?lgrant, ?laneRequest, exec_laneRotation_holds, ?rotation, ?laneHold, exec_laneHoldTimeout_holds, exec_laneRetire, ?haltRequest,
    exec_haltRequest_other, ?landing, exec_haltLanding_holds, ?itbudget, exec_forwardingExpiry h s, ?resume, ?wake, ?barrier,
    ?walk, ?pages, ?free⟩
  case lgrant =>
    intro hsup
    obtain ⟨e, hexec, hmem, hothers, hweight, hunwanted, hwanted⟩ := exec_lgrantWrite_effect hsup v
    exact ⟨e, hexec, hmem, hothers, hweight, hunwanted, fun hwants => (hwanted hwants).1, fun hwants => (hwanted hwants).2⟩
  case laneRequest =>
    intro hsup hreq htakes
    exact ⟨_, exec_laneRequestInterrupt hsup hreq htakes, (State.getSeq_setSeq ..).trans (if_pos rfl), fun g hg => (State.getSeq_setSeq ..).trans (if_neg hg)⟩
  case rotation =>
    intro hfew hdue
    have hrest := foldl_setGrant_rest ((s.turned core).division core) (s.turned core)
    have hcore : (((s.turned core).division core).foldl (fun st p => st.setGrant p.1 p.2) (s.turned core)).core core =
        { k with rot := turn, rotAt := s.time } := by
      rw [State.core, hrest.2, ← State.core, State.turned, State.core_setCore, if_pos rfl]
    refine ⟨_, exec_laneRotation_turns hfew hdue, hrest.1, by rw [hcore], by rw [hcore], fun i w hw hsaved => ?_⟩
    exact foldl_setGrant_grant (State.division_nodup ..) (State.mem_turned_division hfew hw hsaved) _
  case laneHold =>
    rintro hseq hover hlong ⟨i, t, hi, hother, hstuck⟩
    exact exec_laneHoldTimeout_asks hseq hover hlong hi hother ⟨t, hstuck⟩
  case haltRequest =>
    intro hseq hchosen
    rw [exec_haltRequest_asks hseq hchosen]
    refine ⟨fun htask hhalt hrun => ⟨_, rfl, ?_⟩, fun htask hhalt hrun hspared => ⟨_, rfl, ?_⟩⟩
    · rw [State.askHalt_running htask hhalt hrun]
      exact ⟨(State.getSeq_setSeq ..).trans (if_pos rfl), fun g hg => (State.getSeq_setSeq ..).trans (if_neg hg)⟩
    · rw [State.askHalt_idle htask hhalt hrun hspared, State.getSeq_modSeq, if_pos rfl, State.safePoint, State.getSeq_modSeq, if_pos rfl]
      exact ⟨rfl, rfl, rfl⟩
  case landing =>
    intro hrun hlands hspared
    obtain ⟨e, hexec, hseq, hmem⟩ := exec_haltLanding_lands hrun hlands hspared
    refine ⟨e, hexec, ?_⟩
    rw [hseq]
    exact ⟨rfl, rfl, rfl, rfl, rfl, hmem⟩
  case itbudget =>
    intro t hhalt hdue
    exact ⟨_, exec_itbudgetExpiry_due hhalt hdue, (State.getSeq_setSeq ..).trans (if_pos rfl)⟩
  case resume =>
    intro hrun
    obtain ⟨e, hexec, hmem, hothers, hseq⟩ := exec_sequencerResume_halted hrun
    exact ⟨e, hexec, hseq ▸ ⟨rfl, rfl, rfl, hmem, hothers⟩⟩
  case wake =>
    intro hstall
    exact ⟨congrArg Host.Outcome.next (State.wake_word hstall), congrArg Host.Outcome.next (State.wake_word hstall)⟩
  case barrier =>
    intro b harrived hall hlaunch hwg
    have hb := State.barrier_setBarrier s b.complete
    rw [show b.complete.launch = launch from hlaunch, show b.complete.wg = wg from hwg] at hb
    exact ⟨_, exec_barrierComplete harrived hall, by rw [hb]; rfl, by rw [hb]; rfl, rfl⟩
  case walk =>
    rintro st r rfl
    exact ⟨fun x => exec_pageWalkComplete_ok, fun c a => exec_pageWalkComplete_trap⟩
  case pages =>
    intro o ho
    refine ⟨fun hpage hgood => ?_, fun hpage hsound hhash => ?_, fun hpage hbad => ?_, fun p hp hpart hlive hfn hverified hready => ?_,
      fun hlive hin => ?_⟩
    · obtain ⟨f, hexec, hf⟩ := exec_pageFetchUnverified hpage hgood
      exact ⟨_, _, hexec, State.obj?_modObj ho f, hf, State.modObj_mem ..⟩
    · exact ⟨_, _, exec_pageHashDone_verified ho hpage hsound hhash, State.obj?_modObj ho _, rfl, State.modObj_mem ..⟩
    · obtain ⟨poison, hexec⟩ := exec_pageHashDone_failed ho hpage hbad
      obtain ⟨o', hobj⟩ := State.failPage_obj ho hpage poison
      exact ⟨_, o', hexec, hobj⟩
    · obtain ⟨hdone, hwaits⟩ := exec_retranslate hp ho hpart hlive hfn hverified hready
      refine ⟨fun hstore => ?_, fun x hstore => hwaits x s1 hstore⟩
      obtain ⟨old, hexec⟩ := hdone s1 hstore
      refine ⟨_, hexec, State.nextGen_part hp hstore old, fun hwf hlead haway hbeads hcode => ?_⟩
      show memRead (s1.nextGen part).1.mem _ _ = _ ∧ ∀ b, _ → memGet (s1.nextGen part).1.mem b = _
      rw [State.nextGen_mem]
      exact State.entryStore_mem hstore hwf hlead haway hbeads hcode
    · exact ⟨_, _, exec_makeExecuteOnly ho hlive hin, State.obj?_modObj ho _, mem_insNat .., rfl, State.modObj_mem ..⟩
  case free =>
    intro p hp hretired hgen
    exact ⟨exec_generationFree_frees hp hretired hgen, exec_generationFree_early hp⟩

end Sys2Proof.Machine
end

section
/-! Jumps and branches (R66, R69, R73). -/

namespace Sys2Proof.Machine

open Sys2Proof.Machine.Claim

theorem jumps_jal (rd : Reg) (off : Word) (s : State) : Jumps (.jal rd off) s (s.setX rd s.linkPc) (s.seq.pc + off) :=
  jumps_of_finishAt rfl

/-- The target is read before the link is written, so rd may be rs1. -/
theorem jumps_jalr (rd rs1 : Reg) (imm : BitVec 12) (s : State) :
    Jumps (.jalr rd rs1 imm) s (s.setX rd s.linkPc)
      (if s.seq.latch.form = .lammel then s.x rs1 + imm.signExtend 64 else (s.x rs1 + imm.signExtend 64) &&& ~~~1) :=
  jumps_of_finishAt rfl

section
variable {op : BranchOp} {rs1 rs2 : Reg} {s : State}

theorem jumps_branch_of_taken (off : Word) (h : evalBranch op (s.x rs1) (s.x rs2) = true) :
    Jumps (.branch op rs1 rs2 off) s s (s.seq.pc + off) :=
  jumps_of_finishAt (if_pos h)

theorem completes_branch_of_not_taken (off : Word) (h : evalBranch op (s.x rs1) (s.x rs2) = false) :
    Completes (.branch op rs1 rs2 off) s s :=
  completes_of_finish (if_neg (Bool.eq_false_iff.mp h))

end

/-- Settles O9: a jump and a taken branch end by finishAt at their target, an untaken branch ends by finish. -/
theorem jumpsAndBranchesTransferControl : Obligations.JumpsAndBranchesTransferControl := by
  intro s
  refine ⟨?jal, ?jalr, ?taken, ?notTaken⟩
  case jal => exact fun rd off => jumps_jal rd off s
  case jalr => exact fun rd rs1 imm => jumps_jalr rd rs1 imm s
  case taken => exact fun _ _ _ off h => jumps_branch_of_taken off h
  case notTaken => exact fun _ _ _ off h => completes_branch_of_not_taken off h

end Sys2Proof.Machine
end

section
/-! Fields of an encoding: the bits of a word put together from fields, and a word put together from its bits. -/

namespace Sys2Proof

section
variable {n m k lo lo' k' : Nat}

theorem bits_append_right (a : BitVec n) (b : BitVec m) (h : lo + k ≤ m) : bits (a ++ b) lo k = bits b lo k :=
  BitVec.extractLsb'_append_eq_of_add_le h

theorem bits_append_left (a : BitVec n) (b : BitVec m) (h : m ≤ lo) : bits (a ++ b) lo k = bits a (lo - m) k :=
  BitVec.extractLsb'_append_eq_of_le h

@[simp] theorem bits_self (a : BitVec n) : bits a 0 n = a :=
  BitVec.extractLsb'_eq_self

theorem bits_bits (a : BitVec n) (h : lo' + k' ≤ k) : bits (bits a lo k) lo' k' = bits a (lo + lo') k' := by
  ext i hi
  have hlt : lo' + i < k := by omega
  simp [bits, hlt, Nat.add_assoc]

/-- Two neighbouring fields are one. -/
theorem bits_append_bits (a : BitVec n) (h : lo = lo' + k') : bits a lo k ++ bits a lo' k' = bits a lo' (k + k') := by
  subst h
  exact BitVec.extractLsb'_append_extractLsb'_eq_extractLsb' rfl

theorem toNat_eq_iff_eq_ofNat {b : BitVec n} : b.toNat = k ↔ k < 2 ^ n ∧ b = BitVec.ofNat n k := by
  constructor
  · rintro rfl
    exact ⟨b.isLt, by simp⟩
  · rintro ⟨h, rfl⟩
    simp [Nat.mod_eq_of_lt h]

end

section
variable (f7 : BitVec 7) (rs2 rs1 rd : Reg) (f3 : BitVec 3) (op : BitVec 7)

@[simp] theorem bits_encR_op : bits (encR f7 rs2 rs1 f3 rd op) 0 7 = op := by
  simp (disch := decide) only [encR, bits_append_right, bits_self]

@[simp] theorem bits_encR_rd : bits (encR f7 rs2 rs1 f3 rd op) 7 5 = rd := by
  simp (disch := decide) only [encR, bits_append_left, bits_append_right, bits_self, Nat.reduceSub]

@[simp] theorem bits_encR_f3 : bits (encR f7 rs2 rs1 f3 rd op) 12 3 = f3 := by
  simp (disch := decide) only [encR, bits_append_left, bits_append_right, bits_self, Nat.reduceSub]

@[simp] theorem bits_encR_rs1 : bits (encR f7 rs2 rs1 f3 rd op) 15 5 = rs1 := by
  simp (disch := decide) only [encR, bits_append_left, bits_append_right, bits_self, Nat.reduceSub]

@[simp] theorem bits_encR_rs2 : bits (encR f7 rs2 rs1 f3 rd op) 20 5 = rs2 := by
  simp (disch := decide) only [encR, bits_append_left, bits_append_right, bits_self, Nat.reduceSub]

@[simp] theorem bits_encR_f7 : bits (encR f7 rs2 rs1 f3 rd op) 25 7 = f7 := by
  simp (disch := decide) only [encR, bits_append_left, bits_self, Nat.reduceSub]

/-- A field within funct7. -/
theorem bits_encR_high {lo k : Nat} (h : 25 ≤ lo) : bits (encR f7 rs2 rs1 f3 rd op) lo k = bits f7 (lo - 25) k := by
  simp (disch := omega) only [encR, bits_append_left, Nat.sub_sub]
end

section
variable (imm : BitVec 12) (rs1 rd : Reg) (f3 : BitVec 3) (op : BitVec 7)

/-- Type I in the places of Type R. -/
theorem encI_eq_encR : encI imm rs1 f3 rd op = encR (bits imm 5 7) (bits imm 0 5) rs1 f3 rd op := by
  simp (disch := decide) only [encI, encR, bits_append_bits, bits_self]

@[simp] theorem bits_encI_op : bits (encI imm rs1 f3 rd op) 0 7 = op := encI_eq_encR imm rs1 rd f3 op ▸ bits_encR_op ..

@[simp] theorem bits_encI_rd : bits (encI imm rs1 f3 rd op) 7 5 = rd := encI_eq_encR imm rs1 rd f3 op ▸ bits_encR_rd ..

@[simp] theorem bits_encI_f3 : bits (encI imm rs1 f3 rd op) 12 3 = f3 := encI_eq_encR imm rs1 rd f3 op ▸ bits_encR_f3 ..

@[simp] theorem bits_encI_rs1 : bits (encI imm rs1 f3 rd op) 15 5 = rs1 := encI_eq_encR imm rs1 rd f3 op ▸ bits_encR_rs1 ..

@[simp] theorem bits_encI_imm : bits (encI imm rs1 f3 rd op) 20 12 = imm := by
  simp (disch := decide) only [encI, bits_append_left, bits_self, Nat.reduceSub]

/-- A field within the immediate. -/
theorem bits_encI_high {lo k : Nat} (h : 20 ≤ lo) : bits (encI imm rs1 f3 rd op) lo k = bits imm (lo - 20) k := by
  simp (disch := omega) only [encI, bits_append_left, Nat.sub_sub]

end

section
variable (f6 : BitVec 6) (vm : Bool) (vs2 vs1 vd : Reg) (f3 : BitVec 3) (op : BitVec 7)

/-- The OP-V layout in the places of Type R. -/
theorem encV_eq_encR : encV f6 vm vs2 vs1 f3 vd op = encR (f6 ++ BitVec.ofBool vm) vs2 vs1 f3 vd op := rfl

theorem bits_encV_vm : bits (encV f6 vm vs2 vs1 f3 vd op) 25 1 = BitVec.ofBool vm := by
  simp (disch := decide) only [encV_eq_encR, bits_encR_high, bits_append_right, bits_self, Nat.reduceSub]

theorem bits_encV_f6 : bits (encV f6 vm vs2 vs1 f3 vd op) 26 6 = f6 := by
  simp (disch := decide) only [encV_eq_encR, bits_encR_high, bits_append_left, bits_self, Nat.reduceSub]

end

section
variable (f7 : BitVec 7) (rs3 rs2 rs1 : Reg) (acc : BitVec 2)

/-- The fields of a custom-3 word. -/
theorem bits_encC3 {w : BitVec 32} (hw : w = encC3 f7 rs3 rs2 rs1 acc) :
    bits w 0 7 = 0x7B ∧ bits w 7 2 = acc ∧ bits w 9 1 = 0 ∧ bits w 15 5 = rs1 ∧ bits w 20 5 = rs2 ∧ bits w 27 5 = rs3 ∧
      bits w 10 2 ++ bits w 12 3 ++ bits w 25 2 = f7 := by
  subst hw
  simp (disch := decide) only [encC3, bits_append_left, bits_append_right, bits_self, Nat.reduceSub, true_and]
  simp (disch := decide) only [bits_append_bits, bits_self]
end

/-- Every word of custom-3 whose bit 9 is 0 is its fields put together. -/
theorem encC3_bits {w : BitVec 32} (hop : bits w 0 7 = 0x7B) (hzero : bits w 9 1 = 0) :
    encC3 (bits w 10 2 ++ bits w 12 3 ++ bits w 25 2) (bits w 27 5) (bits w 20 5) (bits w 15 5) (bits w 7 2) = w := by
  simp (disch := decide) only [encC3, ← hop, ← hzero, bits_append_left, bits_append_right, bits_self, Nat.reduceSub]
  simp (disch := decide) only [bits_append_bits, bits_self]

/-- Every word is its fields put together. -/
theorem encR_bits (w : BitVec 32) : encR (bits w 25 7) (bits w 20 5) (bits w 15 5) (bits w 12 3) (bits w 7 5) (bits w 0 7) = w := by
  simp (disch := decide) only [encR, bits_append_bits, bits_self]

theorem bitVec2_cases (f : BitVec 2) : f = 0#2 ∨ f = 1#2 ∨ f = 2#2 ∨ f = 3#2 := by
  revert f; decide

theorem bitVec3_cases (f : BitVec 3) : f = 0#3 ∨ f = 1#3 ∨ f = 2#3 ∨ f = 3#3 ∨ f = 4#3 ∨ f = 5#3 ∨ f = 6#3 ∨ f = 7#3 := by
  revert f; decide

section
variable (f : BitVec 7)

theorem exists_append_322 : ∃ (a : BitVec 3) (b c : BitVec 2), f = a ++ b ++ c :=
  ⟨bits f 4 3, bits f 2 2, bits f 0 2, by simp (disch := decide) only [bits_append_bits, bits_self]⟩

theorem exists_append_52 : ∃ (a : BitVec 5) (b : BitVec 2), f = a ++ b :=
  ⟨bits f 2 5, bits f 0 2, by simp (disch := decide) only [bits_append_bits, bits_self]⟩

theorem ofBool_decide_eq_one (b : BitVec 1) : BitVec.ofBool (b = 1#1) = b := by
  revert b; decide

theorem ofBool_eq_one (b : Bool) : BitVec.ofBool b = 1#1 ↔ b = true := by
  revert b; decide

theorem exists_append_142 : ∃ (a : Bool) (b : BitVec 4) (c : BitVec 2), f = BitVec.ofBool a ++ b ++ c :=
  ⟨bits f 6 1 = 1#1, bits f 2 4, bits f 0 2, by
    rw [ofBool_decide_eq_one]
    simp (disch := decide) only [bits_append_bits, bits_self]⟩

theorem exists_append_412 : ∃ (a : BitVec 4) (b : Bool) (c : BitVec 2), f = a ++ BitVec.ofBool b ++ c :=
  ⟨bits f 3 4, bits f 2 1 = 1#1, bits f 0 2, by
    rw [ofBool_decide_eq_one]
    simp (disch := decide) only [bits_append_bits, bits_self]⟩

theorem exists_append_61 : ∃ (a : BitVec 6) (b : Bool), f = a ++ BitVec.ofBool b :=
  ⟨bits f 1 6, bits f 0 1 = 1#1, by
    rw [ofBool_decide_eq_one]
    simp (disch := decide) only [bits_append_bits, bits_self]⟩

end

/-- A halfword immediate is read back from the distance that it gives. -/
theorem halfImm_double {n : Nat} (h : n < 64) (x : BitVec n) : halfImm n (2 * x.setWidth 64) = some x := by
  have hx : bits (2 * x.setWidth 64) 1 n = x := by
    rw [show (2 : Word) = 2#64 from rfl, BitVec.mul_comm, show 2#64 = BitVec.twoPow 64 1 from rfl, ← BitVec.shiftLeft_eq_mul_twoPow]
    ext j hj
    have hlow : 1 + j < 64 ∧ j < 64 := by omega
    simp [bits, hlow, BitVec.getLsbD_eq_getElem hj]
  rw [halfImm, hx, if_pos rfl]

end Sys2Proof
end

section
/-! Each word of the custom opcodes that decodes is the encoding of what it decodes to. -/

namespace Sys2Proof

section
variable {f7 : BitVec 7} {rs2 rs1 rd : Reg} {f3 : BitVec 3} {i : Instr} {w : BitVec 32}

theorem encR_eq_encI : encR f7 rs2 rs1 f3 rd 0x0B = encI (f7 ++ rs2) rs1 f3 rd 0x0B := by
  simp (disch := decide) only [encI_eq_encR, bits_append_left, bits_append_right, bits_self, Nat.reduceSub]

theorem exists_append_48 (imm : BitVec 12) : ∃ (a : BitVec 4) (b : BitVec 8), imm = a ++ b :=
  ⟨bits imm 8 4, bits imm 0 8, by simp (disch := decide) only [bits_append_bits, bits_self]⟩

/-- funct3 0, 1 and 5 of custom-0 hold a halfword immediate; the others select by funct7. -/
theorem encode32_of_decodeC0 (hw : w = encR f7 rs2 rs1 f3 rd 0x0B) (h : decodeC0 w f3.toNat f7.toNat rd rs1 rs2 = some i) :
    encode32 i = some w := by
  rcases bitVec3_cases f3 with rfl | rfl | rfl | rfl | rfl | rfl | rfl | rfl <;> simp only [decodeC0, BitVec.toNat_ofNat, Nat.reducePow, Nat.reduceMod] at h
  case inl =>
    split_ifs at h with hrd
    rw [hw, encR_eq_encI, bits_encI_imm, Option.some.injEq] at h
    rw [← h, hw, encR_eq_encI, hrd]
    show (halfImm 12 _).map _ = _
    rw [halfImm_double (by decide)]
    rfl
  case inr.inl =>
    rw [hw, encR_eq_encI, bits_encI_imm, Option.some.injEq] at h
    rw [← h, hw, encR_eq_encI]
    show (halfImm 12 _).map _ = _
    rw [halfImm_double (by decide), Option.map_some, bits_append_right _ _ (by decide), bits_append_left _ _ (by decide)]
    simp only [Nat.sub_self, bits_self]
    rfl
  case inr.inr.inr.inr.inr.inl =>
    obtain ⟨o, vt, himm⟩ : ∃ (o : BitVec 4) (vt : BitVec 8), f7 ++ rs2 = o ++ vt := exists_append_48 _
    rw [encR_eq_encI, himm] at hw
    rw [hw, bits_encI_high _ _ _ _ _ (by decide), bits_encI_high _ _ _ _ _ (by decide), bits_append_right _ _ (by decide),
      bits_append_left _ _ (by decide), Option.some.injEq] at h
    rw [← h, hw]
    show (halfImm 4 _).map _ = _
    rw [halfImm_double (by decide)]
    simp only [Nat.reduceSub, bits_self]
    rfl
  all_goals
    repeat' split at h
  all_goals simp_all only [toNat_eq_iff_eq_ofNat, Nat.reducePow, Nat.reduceLT, true_and, Option.some.injEq, reduceCtorEq]
  all_goals
    subst_vars
    rfl

theorem encode32_of_decodeC1 (hw : w = encR f7 rs2 rs1 f3 rd 0x2B) (h : decodeC1 w f3.toNat f7.toNat rd rs1 rs2 = some i) :
    encode32 i = some w := by
  rcases bitVec3_cases f3 with rfl | rfl | rfl | rfl | rfl | rfl | rfl | rfl <;> simp only [decodeC1, BitVec.toNat_ofNat, Nat.reducePow, Nat.reduceMod] at h
  case inl =>
    obtain ⟨t, s, v, rfl⟩ := exists_append_322 f7
    simp (disch := decide) only [hw, bits_encR_high, bits_append_left, bits_append_right, bits_self, Nat.reduceSub] at h
    repeat' split at h
    all_goals simp_all only [toNat_eq_iff_eq_ofNat, Nat.reducePow, Nat.reduceLT, true_and, Option.some.injEq, reduceCtorEq]
    all_goals
      subst_vars
      rfl
  case inr.inl | inr.inr.inl =>
    obtain ⟨r, v, rfl⟩ := exists_append_52 f7
    simp (disch := decide) only [hw, bits_encR_high, bits_append_left, bits_append_right, bits_self, Nat.reduceSub] at h
    rcases bitVec2_cases v with rfl | rfl | rfl | rfl
    all_goals
      simp only [BitVec.toNat_ofNat, Nat.reducePow, Nat.reduceMod] at h
      repeat' split at h
    all_goals simp_all only [Option.some.injEq, reduceCtorEq]
    all_goals
      subst_vars
      rfl
  case inr.inr.inr.inr.inl =>
    obtain ⟨r, t, v, rfl⟩ := exists_append_142 f7
    simp (disch := decide) only [hw, bits_encR_high, bits_append_left, bits_append_right, bits_self, Nat.reduceSub] at h
    cases r
    all_goals
      repeat' split at h
    all_goals simp_all only [Option.some.injEq, reduceCtorEq]
    all_goals
      subst_vars
      trivial
  case inr.inr.inr.inr.inr.inl =>
    obtain ⟨r, d, v, rfl⟩ := exists_append_412 f7
    simp (disch := decide) only [hw, bits_encR_high, bits_append_left, bits_append_right, bits_self, Nat.reduceSub,
      BitVec.ofNat_eq_ofNat, ofBool_eq_one, Bool.decide_eq_true, Option.some.injEq] at h
    subst h hw
    rfl
  all_goals
    repeat' split at h
  all_goals simp_all only [toNat_eq_iff_eq_ofNat, Nat.reducePow, Nat.reduceLT, true_and, Option.some.injEq, reduceCtorEq]
  all_goals
    subst_vars
    rfl

theorem encode32_of_decodeC2 {f6 : BitVec 6} {vm : Bool} (hw : w = encV f6 vm rs2 rs1 f3 rd 0x5B)
    (h : decodeC2 w f3.toNat f6.toNat rd rs1 rs2 = some i) : encode32 i = some w := by
  have hvm : bits w 25 1 = BitVec.ofBool vm := hw ▸ bits_encV_vm ..
  simp only [decodeC2, hvm, BitVec.ofNat_eq_ofNat, ofBool_eq_one, Bool.decide_eq_true] at h
  repeat' split at h
  all_goals simp_all only [toNat_eq_iff_eq_ofNat, Nat.reducePow, Nat.reduceLT, true_and, Option.some.injEq, reduceCtorEq]
  all_goals
    subst_vars
    rfl

theorem encode32_of_decodeC3 (hop : bits w 0 7 = 0x7B) (h : decodeC3 w = some i) : encode32 i = some w := by
  simp only [decodeC3] at h
  split at h
  · cases h
  next hbit =>
  have hzero : bits w 9 1 = 0 := by
    revert hbit
    generalize bits w 9 1 = b
    revert b; decide
  rw [← encC3_bits hop hzero]
  generalize bits w 10 2 ++ bits w 12 3 ++ bits w 25 2 = f7 at *
  generalize bits w 7 2 = acc at *
  generalize bits w 15 5 = rs1 at *
  generalize bits w 20 5 = rs2 at *
  generalize bits w 27 5 = rs3 at *
  repeat' split at h
  all_goals simp_all only [toNat_eq_iff_eq_ofNat, Nat.reducePow, Nat.reduceLT, true_and, Option.some.injEq, reduceCtorEq]
  all_goals
    subst_vars
    rfl

end

/-- Settles O3, one opcode at a time: the word is its fields put together, and each branch of the decoder fixes those
that the instruction does not name. -/
theorem encodeOfDecodeIsTheWord : Obligations.EncodeOfDecodeIsTheWord := by
  unfold Obligations.EncodeOfDecodeIsTheWord
  intro w i hop h
  have hw := (encR_bits w).symm
  rcases hop with hop | hop | hop | hop
  · rw [hop] at hw
    exact encode32_of_decodeC0 hw (by simpa [decode32, hop] using h)
  · rw [hop] at hw
    exact encode32_of_decodeC1 hw (by simpa [decode32, hop] using h)
  · rw [hop] at hw
    obtain ⟨f6, vm, hf7⟩ := exists_append_61 (bits w 25 7)
    rw [hf7, ← encV_eq_encR] at hw
    have hf6 : bits w 26 6 = f6 := by rw [hw]; exact bits_encV_f6 ..
    exact encode32_of_decodeC2 hw (by simpa [decode32, hop, hf6] using h)
  · exact encode32_of_decodeC3 hop (by simpa [decode32, hop] using h)

end Sys2Proof
end

section
/-! The 32-bit decoder on each form of encoding: which of its tables answers. -/

namespace Sys2Proof

section
variable (f7 : BitVec 7) (rs2 rs1 rd : Reg) (f3 : BitVec 3) (imm : BitVec 12)

theorem encS_eq_encR (op : BitVec 7) : encS imm rs2 rs1 f3 op = encR (bits imm 5 7) rs2 rs1 f3 (bits imm 0 5) op := rfl

theorem encQ_eq_encR (rs3 : Reg) (f2 : BitVec 2) (op : BitVec 7) : encQ rs3 f2 rs2 rs1 f3 rd op = encR (rs3 ++ f2) rs2 rs1 f3 rd op := rfl

theorem bits_encR_f2 (rs3 : Reg) (f2 : BitVec 2) (op : BitVec 7) : bits (encR (rs3 ++ f2) rs2 rs1 f3 rd op) 25 2 = f2 := by
  simp (disch := decide) only [bits_encR_high, bits_append_right, bits_self, Nat.reduceSub]

theorem bits_encR_f5 (rs3 : Reg) (f2 : BitVec 2) (op : BitVec 7) : bits (encR (rs3 ++ f2) rs2 rs1 f3 rd op) 27 5 = rs3 := by
  simp (disch := decide) only [bits_encR_high, bits_append_left, bits_self, Nat.reduceSub]

@[simp] theorem fmtOf_enc (fmt : FpFmt) : fmtOf fmt.enc.toNat = some fmt := by
  cases fmt <;> rfl

theorem decode32_encR_0B : decode32 (encR f7 rs2 rs1 f3 rd 0x0B) = decodeC0 (encR f7 rs2 rs1 f3 rd 0x0B) f3.toNat f7.toNat rd rs1 rs2 := by
  simp [decode32]

theorem decode32_encR_2B : decode32 (encR f7 rs2 rs1 f3 rd 0x2B) = decodeC1 (encR f7 rs2 rs1 f3 rd 0x2B) f3.toNat f7.toNat rd rs1 rs2 := by
  simp [decode32]

theorem decode32_encV_5B (f6 : BitVec 6) (vm : Bool) :
    decode32 (encV f6 vm rs2 rs1 f3 rd 0x5B) = decodeC2 (encV f6 vm rs2 rs1 f3 rd 0x5B) f3.toNat f6.toNat rd rs1 rs2 := by
  simp only [decode32, bits_encV_f6]
  simp [encV_eq_encR]

theorem decode32_encC3 (rs3 : Reg) (acc : BitVec 2) :
    decode32 (encC3 f7 rs3 rs2 rs1 acc) = decodeC3 (encC3 f7 rs3 rs2 rs1 acc) := by
  simp [decode32, (bits_encC3 f7 rs3 rs2 rs1 acc rfl).1]

theorem decode32_encI_03 : decode32 (encI imm rs1 f3 rd 0x03) = (loadOf false f3.toNat).map fun o => .scalarLoad o rd rs1 imm := by
  simp [decode32]

theorem decode32_encI_07 (op : LoadOp) (h : loadOf true f3.toNat = some op) :
    decode32 (encI imm rs1 f3 rd 0x07) = some (.scalarLoad op rd rs1 imm) := by
  simp [decode32, h]

theorem decode32_encI_13 : decode32 (encI imm rs1 f3 rd 0x13) = decodeOpImm f3.toNat rd rs1 imm := by
  simp [decode32]

theorem decode32_encI_1B : decode32 (encI imm rs1 f3 rd 0x1B) = decodeOpImm32 f3.toNat rd rs1 imm := by
  simp [decode32]

theorem decode32_encS_23 : decode32 (encS imm rs2 rs1 f3 0x23) = (storeOf false f3.toNat).map fun o => .scalarStore o rs2 rs1 imm := by
  rw [encS_eq_encR]
  simp only [decode32, bits_encR_op, bits_encR_f3, bits_encR_rs1, bits_encR_rs2, bits_encR_f7, bits_encR_rd]
  simp (disch := decide) only [bits_append_bits, bits_self]
  rfl

theorem decode32_encS_27 (op : StoreOp) (h : storeOf true f3.toNat = some op) :
    decode32 (encS imm rs2 rs1 f3 0x27) = some (.scalarStore op rs2 rs1 imm) := by
  rw [encS_eq_encR]
  simp only [decode32, bits_encR_op, bits_encR_f3, bits_encR_rs1, bits_encR_rs2, bits_encR_f7, bits_encR_rd, h]
  simp (disch := decide) only [bits_append_bits, bits_self]
  rfl

theorem decode32_encR_33 : decode32 (encR f7 rs2 rs1 f3 rd 0x33) = (opOf f7.toNat f3.toNat).map fun o => .alu o rd rs1 rs2 := by
  simp [decode32]

theorem decode32_encR_3B : decode32 (encR f7 rs2 rs1 f3 rd 0x3B) =
    if f7.toNat = 0x04 ∧ f3.toNat = 4 ∧ rs2 = 0 then some (.aluImm .zextH rd rs1 0)
    else (op32Of f7.toNat f3.toNat).map fun o => .alu o rd rs1 rs2 := by
  simp [decode32]

theorem decode32_encI_73 : decode32 (encI imm rs1 f3 rd 0x73) = decodeSystem (encI imm rs1 f3 rd 0x73) f3.toNat rd rs1 imm := by
  simp [decode32]

theorem decode32_encQ_53 (f5 : BitVec 5) (fmt : FpFmt) :
    decode32 (encQ f5 fmt.enc rs2 rs1 f3 rd 0x53) = decodeFp f5.toNat fmt rd rs1 rs2 f3 := by
  rw [encQ_eq_encR]
  simp only [decode32, bits_encR_f2, bits_encR_f5]
  simp

theorem decode32_encV_57 (f6 : BitVec 6) (vm : Bool) :
    decode32 (encV f6 vm rs2 rs1 f3 rd 0x57) = decodeOpV (encV f6 vm rs2 rs1 f3 rd 0x57) f3.toNat rd rs1 rs2 := by
  simp [decode32, encV_eq_encR]

theorem decode32_encI_57 : decode32 (encI imm rs1 f3 rd 0x57) = decodeOpV (encI imm rs1 f3 rd 0x57) f3.toNat rd rs1 (bits imm 0 5) := by
  simp [decode32, encI_eq_encR]

theorem decode32_encI_67 : decode32 (encI imm rs1 0 rd 0x67) = some (.jalr rd rs1 imm) := by
  simp [decode32]

theorem decide_ofBool_eq_one (b : Bool) : decide (BitVec.ofBool b = 1#1) = b := by
  cases b <;> rfl

theorem decode32_of_amo {w : BitVec 32} {op : BitVec 5} {aq rl : Bool} {o : AmoOp}
    (hw : w = encR (op ++ BitVec.ofBool aq ++ BitVec.ofBool rl) rs2 rs1 f3 rd 0x2F) (h : amoOf op.toNat = some o)
    (hlr : o = .lr → rs2 = 0) (hf3 : f3 = 2 ∨ f3 = 3) :
    decode32 w = some (.standardAmo o (f3 = 3) aq rl rd rs2 rs1) := by
  have hfields : bits w 27 5 = op ∧ bits w 26 1 = BitVec.ofBool aq ∧ bits w 25 1 = BitVec.ofBool rl := by
    subst hw
    simp (disch := decide) only [bits_encR_high, bits_append_left, bits_append_right, bits_self, Nat.reduceSub, and_self]
  obtain ⟨hop, haq, hrl⟩ := hfields
  have hcode : bits w 0 7 = 0x2F := hw ▸ bits_encR_op ..
  have hrd : bits w 7 5 = rd := hw ▸ bits_encR_rd ..
  have hf : bits w 12 3 = f3 := hw ▸ bits_encR_f3 ..
  have hrs1 : bits w 15 5 = rs1 := hw ▸ bits_encR_rs1 ..
  have hrs2 : bits w 20 5 = rs2 := hw ▸ bits_encR_rs2 ..
  simp only [decode32, hop, haq, hrl, h, hcode, hrd, hf, hrs1, hrs2]
  rcases hf3 with rfl | rfl
  all_goals
    cases o
    case lr => simp [hlr rfl, decide_ofBool_eq_one]
    all_goals simp [decide_ofBool_eq_one]

end

end Sys2Proof
end

section
/-! Operations with an immediate: the 32-bit decoder gives back what the encoder put together. -/

namespace Sys2Proof

section
variable {imm : BitVec 12}

theorem eq_setWidth_of_toNat_lt {n : Nat} (h : imm.toNat < 2 ^ n) : ∃ x : BitVec n, imm = x.setWidth 12 :=
  ⟨imm.setWidth n, BitVec.eq_of_toNat_eq (by
    rw [BitVec.toNat_setWidth, BitVec.toNat_setWidth, Nat.mod_eq_of_lt h, Nat.mod_eq_of_lt imm.isLt])⟩

/-- A 6-bit amount under the bits that select the operation. -/
theorem setWidth_or_append6 (c x : BitVec 6) : x.setWidth 12 ||| (c ++ 0#6) = c ++ x := by
  have hx : x.setWidth 12 = 0#6 ++ x := by revert x; decide
  rw [hx]
  exact BitVec.or_append.trans (by simp)

/-- A 5-bit amount under the bits that select the operation. -/
theorem setWidth_or_append5 (c : BitVec 7) (x : BitVec 5) : x.setWidth 12 ||| (c ++ 0#5) = c ++ x := by
  have hx : x.setWidth 12 = 0#7 ++ x := by revert x; decide
  rw [hx]
  exact BitVec.or_append.trans (by simp)

variable {op : AluImmOp} {rd a : Reg} (hwf : (Instr.aluImm op rd a imm).wellFormed = true)
include hwf

theorem decode32_aluImm_full (hsh : op.shape = .full) :
    decode32 (encI (imm ||| op.enc.1) a op.enc.2.1 rd op.enc.2.2) = some (.aluImm op rd a imm) := by
  simp only [Instr.wellFormed, Bool.and_eq_true, hsh, ImmShape.fits, true_and] at hwf
  have henc : op.enc.1 = 0#12 := by cases op <;> cases hsh <;> rfl
  rw [henc, BitVec.or_zero]
  cases op
  all_goals cases hsh
  case addiw => exact decode32_encI_1B ..
  case slti =>
    refine (decode32_encI_13 a rd _ _).trans (if_neg ?_)
    simpa using hwf
  case sltiu =>
    refine (decode32_encI_13 a rd _ _).trans (if_neg ?_)
    simpa [imp_iff_not_or] using hwf
  all_goals exact decode32_encI_13 ..

theorem decode32_aluImm_sh6 (hsh : op.shape = .sh6) :
    decode32 (encI (imm ||| op.enc.1) a op.enc.2.1 rd op.enc.2.2) = some (.aluImm op rd a imm) := by
  simp only [Instr.wellFormed, Bool.and_eq_true, hsh, ImmShape.fits, decide_eq_true_eq] at hwf
  obtain ⟨hfit, hhint⟩ := hwf
  obtain ⟨x, rfl⟩ := eq_setWidth_of_toNat_lt (n := 6) hfit
  have henc : op.enc.1 = bits op.enc.1 6 6 ++ 0#6 := by cases op <;> cases hsh <;> rfl
  have hlow (c : BitVec 6) : bits (c ++ x) 0 6 = x := by
    rw [bits_append_right _ _ (by decide), bits_self]
  have hhigh (c : BitVec 6) : bits (c ++ x) 6 6 = c := by
    rw [bits_append_left _ _ (by decide), Nat.sub_self, bits_self]
  rw [henc, setWidth_or_append6]
  cases op
  all_goals cases hsh
  case slliUw =>
    have hf7 : ∀ x : BitVec 6, ¬ (bits (2#6 ++ x) 5 7).toNat = 0 := by decide
    refine (decode32_encI_1B a rd _ _).trans ?_
    exact (if_neg (hf7 x)).trans ((if_pos (hhigh _)).trans (by rw [hlow]))
  case slli | srli =>
    refine (decode32_encI_13 a rd _ _).trans ?_
    simp only [decodeOpImm, hhigh, hlow]
    refine if_neg ?_
    simpa [imp_iff_not_or] using hhint
  all_goals
    refine (decode32_encI_13 a rd _ _).trans ?_
    simp only [decodeOpImm, hhigh, hlow]
    rfl

theorem decode32_aluImm_sh5 (hsh : op.shape = .sh5) :
    decode32 (encI (imm ||| op.enc.1) a op.enc.2.1 rd op.enc.2.2) = some (.aluImm op rd a imm) := by
  simp only [Instr.wellFormed, Bool.and_eq_true, hsh, ImmShape.fits, decide_eq_true_eq] at hwf
  obtain ⟨hfit, -⟩ := hwf
  obtain ⟨x, rfl⟩ := eq_setWidth_of_toNat_lt (n := 5) hfit
  have henc : op.enc.1 = bits op.enc.1 5 7 ++ 0#5 := by cases op <;> cases hsh <;> rfl
  have hhigh (c : BitVec 7) : bits (c ++ x) 5 7 = c := by
    rw [bits_append_left _ _ (by decide), Nat.sub_self, bits_self]
  have hamount (c : BitVec 7) (hc : c = 0 ∨ c = 0x20 ∨ c = 0x30) :
      (bits (c ++ x) 0 6).setWidth 12 = x.setWidth 12 ∧ (bits (c ++ x) 0 6).setWidth 12 &&& 0x1F = x.setWidth 12 := by
    revert x
    rcases hc with rfl | rfl | rfl <;> decide
  rw [henc, setWidth_or_append5]
  cases op
  all_goals cases hsh
  all_goals
    refine (decode32_encI_1B a rd _ _).trans ?_
    simp only [decodeOpImm32, hhigh]
  case slliw | srliw => exact congrArg (fun i => some (Instr.aluImm _ rd a i)) (hamount 0 (by decide)).1
  case sraiw => exact congrArg (fun i => some (Instr.aluImm _ rd a i)) (hamount 0x20 (by decide)).2
  case roriw => exact congrArg (fun i => some (Instr.aluImm _ rd a i)) (hamount 0x30 (by decide)).2

theorem decode32_aluImm_none (hsh : op.shape = .none) :
    decode32 (encI (imm ||| op.enc.1) a op.enc.2.1 rd op.enc.2.2) = some (.aluImm op rd a imm) := by
  simp only [Instr.wellFormed, Bool.and_eq_true, hsh, ImmShape.fits, beq_iff_eq] at hwf
  obtain ⟨rfl, -⟩ := hwf
  rw [show 0 ||| op.enc.1 = op.enc.1 from BitVec.zero_or]
  cases op
  all_goals cases hsh
  case zextH => exact (congrArg decode32 (encI_eq_encR ..)).trans (decode32_encR_3B ..)
  case clzw | ctzw | cpopw => exact decode32_encI_1B ..
  all_goals exact decode32_encI_13 ..

theorem decode32_aluImm : decode32 (encI (imm ||| op.enc.1) a op.enc.2.1 rd op.enc.2.2) = some (.aluImm op rd a imm) := by
  cases hsh : op.shape with
  | full => exact decode32_aluImm_full hwf hsh
  | sh6 => exact decode32_aluImm_sh6 hwf hsh
  | sh5 => exact decode32_aluImm_sh5 hwf hsh
  | none => exact decode32_aluImm_none hwf hsh

end

end Sys2Proof
end

section
/-! The 32-bit decoder gives back what the encoder put together. -/

namespace Sys2Proof

section
variable {i : Instr} {w : BitVec 32}

theorem halfImm_eq_some {n : Nat} {off : Word} {x : BitVec n} (h : halfImm n off = some x) : 2 * x.setWidth 64 = off := by
  unfold halfImm at h
  split_ifs at h with hoff
  rwa [← Option.some.inj h]

theorem decode32_encI_0B (imm : BitVec 12) (rs1 rd : Reg) (f3 : BitVec 3) : decode32 (encI imm rs1 f3 rd 0x0B) =
    decodeC0 (encI imm rs1 f3 rd 0x0B) f3.toNat (bits imm 5 7).toNat rd rs1 (bits imm 0 5) := by
  rw [encI_eq_encR, decode32_encR_0B]

theorem decode32_loop {rs1 : Reg} {off : Word} (h : encode32 (.loop rs1 off) = some w) : decode32 w = some (.loop rs1 off) := by
  obtain ⟨x, hx, rfl⟩ := Option.map_eq_some_iff.mp (show (halfImm 12 off).map _ = some w from h)
  rw [decode32_encI_0B, ← halfImm_eq_some hx]
  simp only [decodeC0, bits_encI_imm]
  rfl

theorem decode32_loopi {c : BitVec 10} {off : Word} (h : encode32 (.loopi c off) = some w) : decode32 w = some (.loopi c off) := by
  obtain ⟨x, hx, rfl⟩ := Option.map_eq_some_iff.mp (show (halfImm 12 off).map _ = some w from h)
  have hc : bits c 5 5 ++ bits c 0 5 = c := (bits_append_bits c rfl).trans (bits_self c)
  rw [decode32_encI_0B, ← halfImm_eq_some hx]
  simp only [decodeC0, bits_encI_imm, hc]
  rfl

theorem decode32_vsetvlz {rd a : Reg} {vt : BitVec 8} {off : Word} (h : encode32 (.vsetvlz rd a vt off) = some w) :
    decode32 w = some (.vsetvlz rd a vt off) := by
  obtain ⟨x, hx, rfl⟩ := Option.map_eq_some_iff.mp (show (halfImm 4 off).map _ = some w from h)
  have hvt : bits (encI (x ++ vt) a 5 rd 0x0B) 20 8 = vt := by
    rw [bits_encI_high _ _ _ _ _ (by decide), bits_append_right _ _ (by decide), bits_self]
  have hx' : bits (encI (x ++ vt) a 5 rd 0x0B) 28 4 = x := by
    rw [bits_encI_high _ _ _ _ _ (by decide), bits_append_left _ _ (by decide)]
    exact bits_self x
  rw [decode32_encI_0B, ← halfImm_eq_some hx]
  simp only [decodeC0, hvt, hx']
  rfl

theorem decode32_alu (op : AluOp) (rd a b : Reg) : decode32 (encR op.enc.1 b a op.enc.2.1 rd op.enc.2.2) = some (.alu op rd a b) := by
  cases op
  case addw | subw | sllw | srlw | sraw | mulw | divw | divuw | remw | remuw | addUw | sh1addUw | sh2addUw | sh3addUw | rolw | rorw =>
    exact decode32_encR_3B ..
  all_goals exact decode32_encR_33 ..

theorem decode32_scalarLoad (op : LoadOp) (rd a : Reg) (imm : BitVec 12) :
    decode32 (encI imm a op.enc.1 rd op.enc.2) = some (.scalarLoad op rd a imm) := by
  cases op
  case flh | flw | fld => exact decode32_encI_07 _ _ _ _ _ rfl
  all_goals exact decode32_encI_03 ..

theorem decode32_scalarStore (op : StoreOp) (b a : Reg) (imm : BitVec 12) :
    decode32 (encS imm b a op.enc.1 op.enc.2) = some (.scalarStore op b a imm) := by
  cases op
  case fsh | fsw | fsd => exact decode32_encS_27 _ _ _ _ _ rfl
  all_goals exact decode32_encS_23 ..

theorem decode32_standardAmo {op : AmoOp} {d aq rl : Bool} {rd b a : Reg} (hwf : (Instr.standardAmo op d aq rl rd b a).wellFormed = true) :
    decode32 (encR (op.enc ++ BitVec.ofBool aq ++ BitVec.ofBool rl) b a (if d then 3 else 2) rd 0x2F) =
      some (.standardAmo op d aq rl rd b a) := by
  simp only [Instr.wellFormed, Bool.and_eq_true, Bool.or_eq_true, bne_iff_ne, beq_iff_eq] at hwf
  obtain ⟨hcas, hlr⟩ := hwf
  have hop : amoOf op.enc.toNat = some op := by
    cases op
    case cas => exact absurd rfl hcas
    all_goals rfl
  have hdecode := decode32_of_amo b a rd (if d then 3 else 2) (aq := aq) (rl := rl) rfl hop
    (by simpa [imp_iff_not_or] using hlr) (by cases d <;> simp)
  rw [hdecode]
  cases d <;> rfl

theorem decode32_fpOp {op : FpOp} {fmt : FpFmt} {rd a b c : Reg} {rm : BitVec 3}
    (hwf : (Instr.fpOp op fmt rd a b c rm).wellFormed = true) :
    decode32 (op.encode fmt rd a b c rm) = some (.fpOp op fmt rd a b c rm) := by
  simp only [Instr.wellFormed, Bool.and_eq_true] at hwf
  obtain ⟨⟨⟨hc, hb⟩, hrm⟩, hfmt⟩ := hwf
  cases op
  case madd | msub | nmsub | nmadd =>
    simp only [FpOp.encode, decode32, encQ_eq_encR, bits_encR_f2, bits_encR_f5]
    simp
  all_goals
    simp [FpOp.sources, FpOp.hasRm] at hc hb hrm
  case add | sub | mul | div =>
    subst hc
    exact decode32_encQ_53 ..
  case sgnj | sgnjn | sgnjx | min | max | eq | lt | le =>
    subst hc hrm
    exact decode32_encQ_53 ..
  case cls | mvX | mvF =>
    subst hc hrm hb
    exact decode32_encQ_53 ..
  case ofS =>
    subst hc hb
    cases fmt with
    | s => cases hfmt
    | d | h => exact decode32_encQ_53 ..
  case ofD =>
    subst hc hb
    cases fmt with
    | d => cases hfmt
    | s | h => exact decode32_encQ_53 ..
  case ofH =>
    subst hc hb
    cases fmt with
    | h => cases hfmt
    | s | d => exact decode32_encQ_53 ..
  all_goals
    subst hc hb
    exact decode32_encQ_53 ..

theorem decode32_fence {kind : FenceKind} {p s : BitVec 4} (hwf : (Instr.fence kind p s).wellFormed = true)
    (h : encode32 (.fence kind p s) = some w) : decode32 w = some (.fence kind p s) := by
  cases kind with
  | fence =>
    have hw : w = encI (0#4 ++ p ++ s) 0 0 0 0x0F := (Option.some.inj h).symm
    have hfields : bits w 28 4 = 0#4 ∧ bits w 24 4 = p ∧ bits w 20 4 = s := by
      subst hw
      simp (disch := decide) only [bits_encI_high, bits_append_left, bits_append_right, bits_self, Nat.reduceSub, and_self]
    obtain ⟨hfm, hp, hs⟩ := hfields
    have hop : bits w 0 7 = 0x0F := hw ▸ bits_encI_op ..
    have hf3 : bits w 12 3 = 0 := hw ▸ bits_encI_f3 ..
    simp [decode32, hop, hf3, hfm, hp, hs]
  | tso =>
    obtain rfl := Option.some.inj h
    simp [Instr.wellFormed] at hwf
    obtain ⟨rfl, rfl⟩ := hwf
    rfl
  | i =>
    obtain rfl := Option.some.inj h
    simp [Instr.wellFormed] at hwf
    obtain ⟨rfl, rfl⟩ := hwf
    rfl

theorem decode32_sfenceVma (a b : Reg) : decode32 (encR 0x09 b a 0 0 0x73) = some (.sfenceVma a b) := by
  have hne (c : BitVec 32) (hc : bits c 25 7 ≠ 0x09) : encR 0x09 b a 0 0 0x73 ≠ c := by
    rintro rfl
    exact hc (bits_encR_f7 ..)
  have hsys : decode32 (encR 0x09 b a 0 0 0x73) = decodeSystem (encR 0x09 b a 0 0 0x73) 0 0 a (bits (encR 0x09 b a 0 0 0x73) 20 12) := by
    simp [decode32]
  simp only [hsys, decodeSystem]
  rw [if_neg (hne _ (by decide)), if_neg (hne _ (by decide)), if_neg (hne _ (by decide)), if_neg (hne _ (by decide)),
    if_neg (hne _ (by decide)), bits_bits _ (by decide), bits_bits _ (by decide)]
  simp

theorem decode32_csrAccess (op : CsrOp) (imm : Bool) (rd src : Reg) (csr : BitVec 12) :
    decode32 (encI csr src (op.enc + if imm then 4 else 0) rd 0x73) = some (.csrAccess op imm rd src csr) := by
  rw [decode32_encI_73]
  cases op <;> cases imm <;> rfl

theorem vwidthEnc_decodes (v : BitVec 2) :
    loadOf true (vwidthEnc v).toNat = none ∧ storeOf true (vwidthEnc v).toNat = none ∧ vwidthOf (vwidthEnc v).toNat = some v := by
  revert v; decide

theorem bits_encR_vmem (nf : BitVec 3) (mop : BitVec 2) (vm : Bool) (b a d : Reg) (f3 : BitVec 3) (op : BitVec 7)
    (hw : w = encR (nf ++ 0#1 ++ mop ++ BitVec.ofBool vm) b a f3 d op) :
    bits w 29 3 = nf ∧ bits w 28 1 = 0#1 ∧ bits w 26 2 = mop ∧ bits w 25 1 = BitVec.ofBool vm ∧ bits w 0 7 = op ∧ bits w 7 5 = d ∧
      bits w 12 3 = f3 ∧ bits w 15 5 = a ∧ bits w 20 5 = b := by
  subst hw
  simp (disch := decide) only [bits_encR_high, bits_append_left, bits_append_right, bits_self, Nat.reduceSub, bits_encR_op, bits_encR_rd,
    bits_encR_f3, bits_encR_rs1, bits_encR_rs2, and_self]

theorem decode32_vectorLoad {nf : BitVec 3} {mop v : BitVec 2} {vm : Bool} {b a d : Reg}
    (h : encode32 (.vectorLoad nf mop vm b a v d) = some w) : decode32 w = some (.vectorLoad nf mop vm b a v d) := by
  obtain ⟨hnf, hzero, hmop, hvm, hop, hd, hf3, ha, hb⟩ := bits_encR_vmem _ _ _ _ _ _ _ _ (Option.some.inj h).symm
  obtain ⟨hload, -, hwidth⟩ := vwidthEnc_decodes v
  simp only [decode32, hnf, hzero, hmop, hvm, hop, hd, hf3, ha, hb]
  simp [hload, hwidth, decide_ofBool_eq_one]

theorem decode32_vectorStore {nf : BitVec 3} {mop v : BitVec 2} {vm : Bool} {b a d : Reg}
    (h : encode32 (.vectorStore nf mop vm b a v d) = some w) : decode32 w = some (.vectorStore nf mop vm b a v d) := by
  obtain ⟨hnf, hzero, hmop, hvm, hop, hd, hf3, ha, hb⟩ := bits_encR_vmem _ _ _ _ _ _ _ _ (Option.some.inj h).symm
  obtain ⟨-, hstore, hwidth⟩ := vwidthEnc_decodes v
  simp only [decode32, hnf, hzero, hmop, hvm, hop, hd, hf3, ha, hb]
  simp [hstore, hwidth, decide_ofBool_eq_one]

theorem bits_encV_f3 (f6 : BitVec 6) (vm : Bool) (b a d : Reg) (f3 : BitVec 3) (op : BitVec 7) : bits (encV f6 vm b a f3 d op) 12 3 = f3 :=
  bits_encR_f3 ..

theorem decode32_vectorArithmetic {f6 : BitVec 6} {vm : Bool} {b a d : Reg} {f3 : BitVec 3}
    (h : encode32 (.vectorArithmetic f6 vm b a f3 d) = some w) : decode32 w = some (.vectorArithmetic f6 vm b a f3 d) := by
  have hsome : (if f3 = 7 then none else some (encV f6 vm b a f3 d 0x57)) = some w := h
  split_ifs at hsome with hf3
  obtain rfl := Option.some.inj hsome
  have hne : f3.toNat ≠ 7 := fun hn => hf3 (BitVec.eq_of_toNat_eq hn)
  rw [decode32_encV_57]
  simp only [decodeOpV, if_neg hne, bits_encV_vm, bits_encV_f6, bits_encV_f3, BitVec.ofNat_eq_ofNat, decide_ofBool_eq_one]

theorem decode32_vsetvli (rd a : Reg) (vt : BitVec 11) : decode32 (encI (0#1 ++ vt) a 7 rd 0x57) = some (.vsetvli rd a vt) := by
  rw [decode32_encI_57]
  simp (disch := decide) only [decodeOpV, bits_encI_high, bits_append_left, bits_append_right, bits_self, Nat.reduceSub]
  rfl

theorem decode32_vsetivli (rd a : Reg) (vt : BitVec 10) : decode32 (encI (3#2 ++ vt) a 7 rd 0x57) = some (.vsetivli rd a vt) := by
  rw [decode32_encI_57]
  simp (disch := decide) only [decodeOpV, bits_encI_high, bits_append_left, bits_append_right, bits_self, Nat.reduceSub]
  rfl

theorem decode32_vsetvl (rd a b : Reg) : decode32 (encR 0x40 b a 7 rd 0x57) = some (.vsetvl rd a b) := by
  have h := decode32_encV_57 b a rd 7 0x20 false
  rw [encV_eq_encR] at h
  refine h.trans ?_
  simp (disch := decide) only [decodeOpV, bits_encR_high, bits_append_left, bits_append_right, bits_self, Nat.reduceSub]
  rfl

section
variable (imm : BitVec 20) (rd : Reg) (op : BitVec 7)

theorem bits_encU : bits (imm ++ rd ++ op) 0 7 = op ∧ bits (imm ++ rd ++ op) 7 5 = rd ∧ bits (imm ++ rd ++ op) 12 20 = imm := by
  simp (disch := decide) only [bits_append_left, bits_append_right, bits_self, Nat.reduceSub, and_self]

theorem decode32_lui : decode32 (imm ++ rd ++ 0x37#7) = some (.lui rd imm) := by
  obtain ⟨hop, hrd, himm⟩ := bits_encU imm rd 0x37
  generalize imm ++ rd ++ 0x37#7 = w at *
  simp [decode32, hop, hrd, himm]

theorem decode32_auipc : decode32 (imm ++ rd ++ 0x17#7) = some (.auipc rd imm) := by
  obtain ⟨hop, hrd, himm⟩ := bits_encU imm rd 0x17
  generalize imm ++ rd ++ 0x17#7 = w at *
  simp [decode32, hop, hrd, himm]

end

theorem decode32_jal {rd : Reg} {off : Word} (h : encode32 (.jal rd off) = some w) : decode32 w = some (.jal rd off) := by
  have hsome : (if (bits off 0 21).signExtend 64 = off ∧ bits off 0 1 = 0 then some (encJ (bits off 0 21) rd) else none) = some w := h
  split_ifs at hsome with hoff
  obtain ⟨hsign, hzero⟩ := hoff
  have hw := (Option.some.inj hsome).symm
  have hfields : bits w 0 7 = 0x6F ∧ bits w 7 5 = rd ∧ bits w 12 8 = bits off 12 8 ∧ bits w 20 1 = bits off 11 1 ∧ bits w 21 10 = bits off 1 10 ∧
      bits w 31 1 = bits off 20 1 := by
    subst hw
    simp (disch := decide) only [encJ, bits_append_left, bits_append_right, bits_self, bits_bits, Nat.reduceSub, Nat.zero_add, and_self]
  obtain ⟨hop, hrd, h12, h20, h21, h31⟩ := hfields
  have himm : bits off 20 1 ++ bits off 12 8 ++ bits off 11 1 ++ bits off 1 10 ++ (0 : BitVec 1) = bits off 0 21 := by
    rw [← hzero]
    simp (disch := decide) only [bits_append_bits]
  simp only [decode32, hop, hrd, h12, h20, h21, h31, himm, hsign]
  rfl

theorem decode32_branch {op : BranchOp} {a b : Reg} {off : Word} (h : encode32 (.branch op a b off) = some w) :
    decode32 w = some (.branch op a b off) := by
  have hsome : (if (bits off 0 13).signExtend 64 = off ∧ bits off 0 1 = 0 then some (encB (bits off 0 13) b a op.enc) else none) = some w := h
  split_ifs at hsome with hoff
  obtain ⟨hsign, hzero⟩ := hoff
  have hw := (Option.some.inj hsome).symm
  have hfields : bits w 0 7 = 0x63 ∧ bits w 7 1 = bits off 11 1 ∧ bits w 8 4 = bits off 1 4 ∧ bits w 12 3 = op.enc ∧ bits w 15 5 = a ∧
      bits w 20 5 = b ∧ bits w 25 6 = bits off 5 6 ∧ bits w 31 1 = bits off 12 1 := by
    subst hw
    simp (disch := decide) only [encB, bits_append_left, bits_append_right, bits_self, bits_bits, Nat.reduceSub, Nat.zero_add, and_self]
  obtain ⟨hop, h7, h8, hf3, ha, hb, h25, h31⟩ := hfields
  have himm : bits off 12 1 ++ bits off 11 1 ++ bits off 5 6 ++ bits off 1 4 ++ (0 : BitVec 1) = bits off 0 13 := by
    rw [← hzero]
    simp (disch := decide) only [bits_append_bits]
  have hbr : branchOf op.enc.toNat = some op := by cases op <;> rfl
  simp only [decode32, hop, h7, h8, hf3, ha, hb, h25, h31, himm, hsign, hbr]
  rfl

/-- A shift with rd and rs1 x0 is a hint. -/
theorem decode32_hint {sh : BitVec 6} (f3 : BitVec 3) (hf3 : f3 = 1 ∨ f3 = 5) :
    decode32 (encI (sh.setWidth 12) 0 f3 0 0x13) = some (if f3 = 1 then .hintAff sh else .hintPair sh) := by
  have hsh : bits (sh.setWidth 12) 6 6 = 0 ∧ bits (sh.setWidth 12) 0 6 = sh := by revert sh; decide
  obtain ⟨hhigh, hlow⟩ := hsh
  rw [decode32_encI_13]
  simp only [decodeOpImm, hhigh, hlow]
  rcases hf3 with rfl | rfl <;> rfl

end

end Sys2Proof
end

section
/-! The 32-bit decoder gives back what the encoder put together, for every instruction. -/

namespace Sys2Proof

theorem decode32_encode32 {i : Instr} {w : BitVec 32} (hwf : i.wellFormed = true) (h : encode32 i = some w) : decode32 w = some i := by
  cases i
  case loop => exact decode32_loop h
  case loopi => exact decode32_loopi h
  case vsetvlz => exact decode32_vsetvlz h
  case fence => exact decode32_fence hwf h
  case vectorLoad => exact decode32_vectorLoad h
  case vectorStore => exact decode32_vectorStore h
  case vectorArithmetic => exact decode32_vectorArithmetic h
  case jal => exact decode32_jal h
  case branch => exact decode32_branch h
  case lidx | lcnt | lbrk | ldepth | bilv2 | bilv3 | bdlv2 | bdlv3 | clzx | fold | vregcfg | vrelease | kexit | yield | ctxSave | ctxLoad
    | migrate | erack =>
    obtain rfl := Option.some.inj h
    exact decode32_encR_0B ..
  case scfg | swait | sresume | sstop | tlwait | tlread | breckon | rodAcq | rodRel | bankArm | bankDisarm | barWg | msend | mreply | hret
    | aqpush | launch | qsignal | chsend | chrecv | chdone =>
    obtain rfl := Option.some.inj h
    exact decode32_encR_2B ..
  case ldAq | stRl | ldInv | fenceS | red | bupd =>
    obtain rfl := Option.some.inj h
    rw [decode32_encR_2B]
    simp (disch := decide) only [decodeC1, bits_encR_high, bits_append_left, bits_append_right, bits_self, Nat.reduceSub]
    rfl
  case amoScoped =>
    obtain rfl := Option.some.inj h
    rw [decode32_encR_2B]
    simp (disch := decide) only [decodeC1, bits_encR_high, bits_append_left, bits_append_right, bits_self, Nat.reduceSub,
      BitVec.ofNat_eq_ofNat, decide_ofBool_eq_one]
    rfl
  case cpG2s | cpS2g | cpG2g | cp2d | cpMma | cpChain | waitGe | waitEq =>
    obtain rfl := Option.some.inj h
    rw [encQ_eq_encR, decode32_encR_2B]
    simp only [decodeC1, bits_encR_f2, bits_encR_f5]
    rfl
  case vmpush | vmelse | vmpop | vmdepth | vidxc | vfcvtE2 | vfcvtE4 | vmxscale | vfwcvtE2 | vfwcvtE4 | vfwcvtE5 | vfcvtE5 | vwmulxE8
    | vwmulxE16 | vwmulxE32 | vwmulxE64 | vle8Inv | vle16Inv | vle32Inv | vle64Inv | vsmx | spop | vwait | msendv | edge | texdec | texw
    | texS | texSa | boxt | trit =>
    obtain rfl := Option.some.inj h
    rw [decode32_encV_5B]
    simp only [decodeC2, bits_encV_vm, BitVec.ofNat_eq_ofNat, decide_ofBool_eq_one]
    rfl
  case mmaE4e4 | mmaE4e5 | mmaE5e4 | mmaE5e5 | mmaE2e2 | mmaE2e4 | mmaE4e2 | mmaI8i8 | mmaBfbf | mmaHfhf | mmaDfdf | mcfg | mzero | mload
    | merr | mstF32 | mstBf16 | mstF16 | mstI32 | mstE4m3 | mstE5m2 =>
    obtain ⟨-, hacc, hzero, hrs1, hrs2, hrs3, hf7⟩ := bits_encC3 _ _ _ _ _ (Option.some.inj h).symm
    have hdecode : decode32 w = decodeC3 w := by
      rw [← Option.some.inj h]
      exact decode32_encC3 ..
    rw [hdecode]
    simp only [decodeC3, hacc, hzero, hrs1, hrs2, hrs3, hf7]
    rfl
  case alu =>
    obtain rfl := Option.some.inj h
    exact decode32_alu ..
  case aluImm =>
    obtain rfl := Option.some.inj h
    exact decode32_aluImm hwf
  case fpOp =>
    obtain rfl := Option.some.inj h
    exact decode32_fpOp hwf
  case scalarLoad =>
    obtain rfl := Option.some.inj h
    exact decode32_scalarLoad ..
  case scalarStore =>
    obtain rfl := Option.some.inj h
    exact decode32_scalarStore ..
  case standardAmo =>
    obtain rfl := Option.some.inj h
    exact decode32_standardAmo hwf
  case sfenceVma =>
    obtain rfl := Option.some.inj h
    exact decode32_sfenceVma ..
  case csrAccess =>
    obtain rfl := Option.some.inj h
    exact decode32_csrAccess ..
  case jalr =>
    obtain rfl := Option.some.inj h
    exact decode32_encI_67 ..
  case hintPf | hintUnroll =>
    obtain rfl := Option.some.inj h
    exact decode32_encI_13 ..
  case hintAff =>
    obtain rfl := Option.some.inj h
    exact decode32_hint 1 (.inl rfl)
  case hintPair =>
    obtain rfl := Option.some.inj h
    exact decode32_hint 5 (.inr rfl)
  case vsetvli =>
    obtain rfl := Option.some.inj h
    exact decode32_vsetvli ..
  case vsetivli =>
    obtain rfl := Option.some.inj h
    exact decode32_vsetivli ..
  case vsetvl =>
    obtain rfl := Option.some.inj h
    exact decode32_vsetvl ..
  case lui =>
    obtain rfl := Option.some.inj h
    exact decode32_lui ..
  case auipc =>
    obtain rfl := Option.some.inj h
    exact decode32_auipc ..
  case vfenceSv | vfenceVs | vfenceVv | sret | mret | wfi | ecall | ebreak =>
    obtain rfl := Option.some.inj h
    rfl
  all_goals cases h

end Sys2Proof
end

section
/-! Compressed encodings: the 16-bit decoder gives back what the encoder put together. -/

namespace Sys2Proof

/-! The immediates. -/

section
variable {imm : BitVec 12}

theorem bits_zero_of_aligned {k : Nat} (h : imm.toNat % 2 ^ k = 0) : bits imm 0 k = 0 :=
  BitVec.eq_of_toNat_eq (by simpa [bits, BitVec.extractLsb'_toNat] using h)

theorem setWidth_bits_of_lt {n : Nat} (h : imm.toNat < 2 ^ n) : (bits imm 0 n).setWidth 12 = imm :=
  BitVec.eq_of_toNat_eq (by
    simp [bits, BitVec.extractLsb'_toNat, Nat.mod_eq_of_lt h, Nat.mod_eq_of_lt imm.isLt])

end

theorem creg_of_creg3 {r : Reg} {q : BitVec 3} (h : creg3 r = some q) : creg q = r := by
  unfold creg3 at h
  split_ifs at h with hhigh
  rw [← Option.some.inj h, creg, ← hhigh]
  exact (bits_append_bits r rfl).trans (bits_self r)

theorem signExtend_of_cimm6 {imm : BitVec 12} {i : BitVec 6} (h : cimm6 imm = some i) : i.signExtend 12 = imm := by
  unfold cimm6 at h
  split_ifs at h with himm
  rw [← Option.some.inj h, himm]

/-! The fields of the forms. -/

section
variable {x : BitVec 16} {f3 : BitVec 3} {imm : BitVec 12} {r : Reg} {b q : BitVec 3}

theorem bits_encCI {i : BitVec 6} {op : BitVec 2} (hx : x = encCI f3 i r op) :
    bits x 0 2 = op ∧ bits x 13 3 = f3 ∧ bits x 7 5 = r ∧ bits x 12 1 ++ bits x 2 5 = i := by
  subst hx
  simp (disch := decide) only [encCI, bits_append_left, bits_append_right, bits_self, Nat.reduceSub, true_and]
  simp (disch := decide) only [bits_append_bits, bits_self]

theorem bits_loadSpD (hx : x = encCI f3 (bits imm 5 1 ++ bits imm 3 2 ++ bits imm 6 3) r 2) (hlow : bits imm 0 3 = 0) :
    bits x 2 3 ++ bits x 12 1 ++ bits x 5 2 ++ (0 : BitVec 3) = bits imm 0 9 := by
  subst hx
  simp (disch := decide) only [encCI, bits_append_left, bits_append_right, bits_self, bits_bits, Nat.reduceSub, Nat.zero_add, ← hlow]
  simp (disch := decide) only [bits_append_bits]

theorem bits_loadSpW (hx : x = encCI f3 (bits imm 5 1 ++ bits imm 2 3 ++ bits imm 6 2) r 2) (hlow : bits imm 0 2 = 0) :
    bits x 2 2 ++ bits x 12 1 ++ bits x 4 3 ++ (0 : BitVec 2) = bits imm 0 8 := by
  subst hx
  simp (disch := decide) only [encCI, bits_append_left, bits_append_right, bits_self, bits_bits, Nat.reduceSub, Nat.zero_add, ← hlow]
  simp (disch := decide) only [bits_append_bits]

theorem bits_storeSp {i : BitVec 6} (hx : x = f3 ++ i ++ r ++ (2 : BitVec 2)) :
    bits x 0 2 = 2 ∧ bits x 13 3 = f3 ∧ bits x 2 5 = r := by
  subst hx
  simp (disch := decide) only [bits_append_left, bits_append_right, bits_self, Nat.reduceSub, and_self]

theorem bits_storeSpD (hx : x = f3 ++ (bits imm 3 3 ++ bits imm 6 3) ++ r ++ (2 : BitVec 2)) (hlow : bits imm 0 3 = 0) :
    bits x 7 3 ++ bits x 10 3 ++ (0 : BitVec 3) = bits imm 0 9 := by
  subst hx
  simp (disch := decide) only [bits_append_left, bits_append_right, bits_self, Nat.reduceSub, ← hlow]
  simp (disch := decide) only [bits_append_bits]

theorem bits_storeSpW (hx : x = f3 ++ (bits imm 2 4 ++ bits imm 6 2) ++ r ++ (2 : BitVec 2)) (hlow : bits imm 0 2 = 0) :
    bits x 7 2 ++ bits x 9 4 ++ (0 : BitVec 2) = bits imm 0 8 := by
  subst hx
  simp (disch := decide) only [bits_append_left, bits_append_right, bits_self, Nat.reduceSub, ← hlow]
  simp (disch := decide) only [bits_append_bits]

theorem bits_encCLD (hx : x = encCLD f3 imm b q) (hlow : bits imm 0 3 = 0) :
    bits x 0 2 = 0 ∧ bits x 13 3 = f3 ∧ bits x 7 3 = b ∧ bits x 2 3 = q ∧ bits x 5 2 ++ bits x 10 3 ++ (0 : BitVec 3) = bits imm 0 8 := by
  subst hx
  simp (disch := decide) only [encCLD, bits_append_left, bits_append_right, bits_self, Nat.reduceSub, true_and, ← hlow]
  simp (disch := decide) only [bits_append_bits]

theorem bits_encCLW (hx : x = encCLW f3 imm b q) (hlow : bits imm 0 2 = 0) :
    bits x 0 2 = 0 ∧ bits x 13 3 = f3 ∧ bits x 7 3 = b ∧ bits x 2 3 = q ∧
      bits x 5 1 ++ bits x 10 3 ++ bits x 6 1 ++ (0 : BitVec 2) = bits imm 0 7 := by
  subst hx
  simp (disch := decide) only [encCLW, bits_append_left, bits_append_right, bits_self, Nat.reduceSub, true_and, ← hlow]
  simp (disch := decide) only [bits_append_bits]

/-- A compressed access has sp as its base, or two of the low registers. -/
theorem encCMem_cases {fsp fcl : BitVec 3} {store dword : Bool} {base : Reg} (h : encCMem fsp fcl store dword r base imm = some x) :
    (base = 2 ∧ imm.toNat < (if dword then 512 else 256) ∧ imm.toNat % (if dword then 8 else 4) = 0 ∧
      x = if store then fsp ++ (if dword then bits imm 3 3 ++ bits imm 6 3 else bits imm 2 4 ++ bits imm 6 2) ++ r ++ (2 : BitVec 2)
        else if dword then encCI fsp (bits imm 5 1 ++ bits imm 3 2 ++ bits imm 6 3) r 2
        else encCI fsp (bits imm 5 1 ++ bits imm 2 3 ++ bits imm 6 2) r 2) ∨
    (∃ b q, creg b = base ∧ creg q = r ∧ imm.toNat < (if dword then 256 else 128) ∧ imm.toNat % (if dword then 8 else 4) = 0 ∧
      x = if dword then encCLD fcl imm b q else encCLW fcl imm b q) := by
  unfold encCMem at h
  simp only [Bool.and_eq_true, decide_eq_true_eq] at h
  by_cases hsp : base = 2 ∧ imm.toNat < (if dword then 512 else 256) ∧ imm.toNat % (if dword then 8 else 4) = 0
  · rw [if_pos hsp] at h
    obtain ⟨hbase, hlt, hal⟩ := hsp
    refine .inl ⟨hbase, hlt, hal, ?_⟩
    cases store <;> cases dword <;> exact (Option.some.inj h).symm
  · rw [if_neg hsp] at h
    by_cases hlow : imm.toNat < (if dword then 256 else 128) ∧ imm.toNat % (if dword then 8 else 4) = 0
    · rw [if_pos hlow] at h
      cases hb : creg3 base with
      | none => simp [hb] at h
      | some b =>
        cases hq : creg3 r with
        | none => simp [hb, hq] at h
        | some q =>
          simp only [hb, hq, Option.some.injEq] at h
          exact .inr ⟨b, q, creg_of_creg3 hb, creg_of_creg3 hq, hlow.1, hlow.2, h.symm⟩
    · rw [if_neg hlow] at h
      cases h

theorem fields_of_loadD {f : BitVec 3} {base : Reg} (h : encCMem f f false true r base imm = some x) :
    (bits x 0 2 = 2 ∧ bits x 13 3 = f ∧ bits x 7 5 = r ∧ base = 2 ∧
      (bits x 2 3 ++ bits x 12 1 ++ bits x 5 2 ++ (0 : BitVec 3)).setWidth 12 = imm) ∨
    (bits x 0 2 = 0 ∧ bits x 13 3 = f ∧ creg (bits x 7 3) = base ∧ creg (bits x 2 3) = r ∧
      (bits x 5 2 ++ bits x 10 3 ++ (0 : BitVec 3)).setWidth 12 = imm) := by
  rcases encCMem_cases h with ⟨hbase, hlt, hal, hx⟩ | ⟨b, q, hb, hq, hlt, hal, hx⟩
  · obtain ⟨hop, hf3, hr, -⟩ := bits_encCI hx
    have himm := bits_loadSpD hx (bits_zero_of_aligned hal)
    exact .inl ⟨hop, hf3, hr, hbase, himm ▸ setWidth_bits_of_lt hlt⟩
  · obtain ⟨hop, hf3, hxb, hxq, himm⟩ := bits_encCLD hx (bits_zero_of_aligned hal)
    exact .inr ⟨hop, hf3, hxb ▸ hb, hxq ▸ hq, himm ▸ setWidth_bits_of_lt hlt⟩

theorem fields_of_loadW {f : BitVec 3} {base : Reg} (h : encCMem f f false false r base imm = some x) :
    (bits x 0 2 = 2 ∧ bits x 13 3 = f ∧ bits x 7 5 = r ∧ base = 2 ∧
      (bits x 2 2 ++ bits x 12 1 ++ bits x 4 3 ++ (0 : BitVec 2)).setWidth 12 = imm) ∨
    (bits x 0 2 = 0 ∧ bits x 13 3 = f ∧ creg (bits x 7 3) = base ∧ creg (bits x 2 3) = r ∧
      (bits x 5 1 ++ bits x 10 3 ++ bits x 6 1 ++ (0 : BitVec 2)).setWidth 12 = imm) := by
  rcases encCMem_cases h with ⟨hbase, hlt, hal, hx⟩ | ⟨b, q, hb, hq, hlt, hal, hx⟩
  · obtain ⟨hop, hf3, hr, -⟩ := bits_encCI hx
    have himm := bits_loadSpW hx (bits_zero_of_aligned hal)
    exact .inl ⟨hop, hf3, hr, hbase, himm ▸ setWidth_bits_of_lt hlt⟩
  · obtain ⟨hop, hf3, hxb, hxq, himm⟩ := bits_encCLW hx (bits_zero_of_aligned hal)
    exact .inr ⟨hop, hf3, hxb ▸ hb, hxq ▸ hq, himm ▸ setWidth_bits_of_lt hlt⟩

theorem fields_of_storeD {f : BitVec 3} {base : Reg} (h : encCMem f f true true r base imm = some x) :
    (bits x 0 2 = 2 ∧ bits x 13 3 = f ∧ bits x 2 5 = r ∧ base = 2 ∧
      (bits x 7 3 ++ bits x 10 3 ++ (0 : BitVec 3)).setWidth 12 = imm) ∨
    (bits x 0 2 = 0 ∧ bits x 13 3 = f ∧ creg (bits x 7 3) = base ∧ creg (bits x 2 3) = r ∧
      (bits x 5 2 ++ bits x 10 3 ++ (0 : BitVec 3)).setWidth 12 = imm) := by
  rcases encCMem_cases h with ⟨hbase, hlt, hal, hx⟩ | ⟨b, q, hb, hq, hlt, hal, hx⟩
  · obtain ⟨hop, hf3, hr⟩ := bits_storeSp hx
    have himm := bits_storeSpD hx (bits_zero_of_aligned hal)
    exact .inl ⟨hop, hf3, hr, hbase, himm ▸ setWidth_bits_of_lt hlt⟩
  · obtain ⟨hop, hf3, hxb, hxq, himm⟩ := bits_encCLD hx (bits_zero_of_aligned hal)
    exact .inr ⟨hop, hf3, hxb ▸ hb, hxq ▸ hq, himm ▸ setWidth_bits_of_lt hlt⟩

theorem fields_of_storeW {f : BitVec 3} {base : Reg} (h : encCMem f f true false r base imm = some x) :
    (bits x 0 2 = 2 ∧ bits x 13 3 = f ∧ bits x 2 5 = r ∧ base = 2 ∧
      (bits x 7 2 ++ bits x 9 4 ++ (0 : BitVec 2)).setWidth 12 = imm) ∨
    (bits x 0 2 = 0 ∧ bits x 13 3 = f ∧ creg (bits x 7 3) = base ∧ creg (bits x 2 3) = r ∧
      (bits x 5 1 ++ bits x 10 3 ++ bits x 6 1 ++ (0 : BitVec 2)).setWidth 12 = imm) := by
  rcases encCMem_cases h with ⟨hbase, hlt, hal, hx⟩ | ⟨b, q, hb, hq, hlt, hal, hx⟩
  · obtain ⟨hop, hf3, hr⟩ := bits_storeSp hx
    have himm := bits_storeSpW hx (bits_zero_of_aligned hal)
    exact .inl ⟨hop, hf3, hr, hbase, himm ▸ setWidth_bits_of_lt hlt⟩
  · obtain ⟨hop, hf3, hxb, hxq, himm⟩ := bits_encCLW hx (bits_zero_of_aligned hal)
    exact .inr ⟨hop, hf3, hxb ▸ hb, hxq ▸ hq, himm ▸ setWidth_bits_of_lt hlt⟩

end

end Sys2Proof
end

section
/-! The 16-bit decoder gives back every scalar member that has a compressed encoding. -/

namespace Sys2Proof

section
variable {x : BitVec 16} {imm : BitVec 12} {rd a b : Reg}

theorem decode16_scalarLoad {op : LoadOp} {r base : Reg} (h : encode16 (.scalarLoad op r base imm) = some x) :
    decode16 x = some (.scalarLoad op r base imm) := by
  cases op
  case fld =>
    rcases fields_of_loadD (f := 1) h with ⟨hop, hf3, rfl, rfl, rfl⟩ | ⟨hop, hf3, rfl, rfl, rfl⟩
    all_goals
      simp only [decode16, hop, hf3]
      rfl
  case ld =>
    have h' : (if base = 2 ∧ r = 0 then none else encCMem 3 3 false true r base imm) = some x := h
    split_ifs at h' with hne
    rcases fields_of_loadD h' with ⟨hop, hf3, rfl, rfl, rfl⟩ | ⟨hop, hf3, rfl, rfl, rfl⟩
    · simp only [decode16, hop, hf3]
      exact if_neg fun hr => hne ⟨rfl, hr⟩
    · simp only [decode16, hop, hf3]
      rfl
  case lw =>
    have h' : (if base = 2 ∧ r = 0 then none else encCMem 2 2 false false r base imm) = some x := h
    split_ifs at h' with hne
    rcases fields_of_loadW h' with ⟨hop, hf3, rfl, rfl, rfl⟩ | ⟨hop, hf3, rfl, rfl, rfl⟩
    · simp only [decode16, hop, hf3]
      exact if_neg fun hr => hne ⟨rfl, hr⟩
    · simp only [decode16, hop, hf3]
      rfl
  all_goals cases h

theorem decode16_scalarStore {op : StoreOp} {r base : Reg} (h : encode16 (.scalarStore op r base imm) = some x) :
    decode16 x = some (.scalarStore op r base imm) := by
  cases op
  case fsd =>
    rcases fields_of_storeD (f := 5) h with ⟨hop, hf3, rfl, rfl, rfl⟩ | ⟨hop, hf3, rfl, rfl, rfl⟩
    all_goals
      simp only [decode16, hop, hf3]
      rfl
  case sd =>
    rcases fields_of_storeD (f := 7) h with ⟨hop, hf3, rfl, rfl, rfl⟩ | ⟨hop, hf3, rfl, rfl, rfl⟩
    all_goals
      simp only [decode16, hop, hf3]
      rfl
  case sw =>
    rcases fields_of_storeW (f := 6) h with ⟨hop, hf3, rfl, rfl, rfl⟩ | ⟨hop, hf3, rfl, rfl, rfl⟩
    all_goals
      simp only [decode16, hop, hf3]
      rfl
  all_goals cases h

theorem decode16_of_addi4spn {d : BitVec 3} (hd : creg3 rd = some d) (hne : imm ≠ 0) (hlt : imm.toNat < 1024) (hal : imm.toNat % 4 = 0)
    (hx : x = (0 : BitVec 3) ++ bits imm 4 2 ++ bits imm 6 4 ++ bits imm 2 1 ++ bits imm 3 1 ++ d ++ (0 : BitVec 2)) :
    decode16 x = some (.aluImm .addi rd 2 imm) := by
  have hlow : bits imm 0 2 = 0 := bits_zero_of_aligned hal
  have hfields : bits x 0 2 = 0 ∧ bits x 13 3 = 0 ∧ bits x 2 3 = d := by
    subst hx
    simp (disch := decide) only [bits_append_left, bits_append_right, bits_self, Nat.reduceSub, and_self]
  have himm : bits x 7 4 ++ bits x 11 2 ++ bits x 5 1 ++ bits x 6 1 ++ (0 : BitVec 2) = bits imm 0 10 := by
    subst hx
    simp (disch := decide) only [bits_append_left, bits_append_right, bits_self, Nat.reduceSub, ← hlow]
    simp (disch := decide) only [bits_append_bits]
  obtain ⟨hop, hf3, hxd⟩ := hfields
  simp only [decode16, hop, hf3, hxd, himm, setWidth_bits_of_lt (n := 10) hlt, creg_of_creg3 hd]
  exact if_neg hne

theorem decode16_of_addi16sp (hsign : (bits imm 0 10).signExtend 12 = imm) (hlow : bits imm 0 4 = 0) (hne : imm ≠ 0)
    (hx : x = (3 : BitVec 3) ++ bits imm 9 1 ++ (2 : BitVec 5) ++ bits imm 4 1 ++ bits imm 6 1 ++ bits imm 7 2 ++ bits imm 5 1
      ++ (1 : BitVec 2)) :
    decode16 x = some (.aluImm .addi 2 2 imm) := by
  have hfields : bits x 0 2 = 1 ∧ bits x 13 3 = 3 ∧ bits x 7 5 = 2 := by
    subst hx
    simp (disch := decide) only [bits_append_left, bits_append_right, bits_self, Nat.reduceSub, and_self]
  have himm : bits x 12 1 ++ bits x 3 2 ++ bits x 5 1 ++ bits x 2 1 ++ bits x 6 1 ++ (0 : BitVec 4) = bits imm 0 10 := by
    subst hx
    simp (disch := decide) only [bits_append_left, bits_append_right, bits_self, Nat.reduceSub, ← hlow]
    simp (disch := decide) only [bits_append_bits]
  obtain ⟨hop, hf3, hrd⟩ := hfields
  simp only [decode16, hop, hf3, hrd, himm, hsign]
  exact if_neg hne

theorem ne_zero_of_cimm6 (h : cimm6 imm = none) : imm ≠ 0 := by
  rintro rfl
  cases h

theorem decode16_of_addi {i : BitVec 6} (hi : cimm6 imm = some i) (hx : x = encCI 0 i rd 1) :
    decode16 x = some (.aluImm .addi rd rd imm) := by
  obtain ⟨hop, hf3, hr, hi6⟩ := bits_encCI hx
  simp only [decode16, hop, hf3, hr, hi6, signExtend_of_cimm6 hi]
  rfl

theorem decode16_of_li {i : BitVec 6} (hi : cimm6 imm = some i) (hx : x = encCI 2 i rd 1) :
    decode16 x = some (.aluImm .addi rd 0 imm) := by
  obtain ⟨hop, hf3, hr, hi6⟩ := bits_encCI hx
  simp only [decode16, hop, hf3, hr, hi6, signExtend_of_cimm6 hi]
  rfl

theorem decode16_addi (h : encode16 (.aluImm .addi rd a imm) = some x) : decode16 x = some (.aluImm .addi rd a imm) := by
  simp only [encode16] at h
  cases hi : cimm6 imm with
  | some i =>
    cases hd : creg3 rd with
    | none =>
      simp only [hi, hd] at h
      split_ifs at h with hrd ha
      · exact hrd ▸ decode16_of_addi hi (Option.some.inj h).symm
      · exact ha ▸ decode16_of_li hi (Option.some.inj h).symm
    | some d =>
      simp only [hi, hd] at h
      split_ifs at h with hrd ha hsp hok
      · exact hrd ▸ decode16_of_addi hi (Option.some.inj h).symm
      · exact ha ▸ decode16_of_li hi (Option.some.inj h).symm
      · obtain ⟨hne, hlt, hal⟩ := hok
        exact hsp ▸ decode16_of_addi4spn hd hne hlt hal (Option.some.inj h).symm
  | none =>
    have hne := ne_zero_of_cimm6 hi
    cases hd : creg3 rd with
    | some d =>
      simp only [hi, hd] at h
      split_ifs at h with hok
      obtain ⟨ha, hlt, hal⟩ := hok
      exact ha ▸ decode16_of_addi4spn hd hne hlt hal (Option.some.inj h).symm
    | none =>
      simp only [hi, hd] at h
      split_ifs at h with hok
      obtain ⟨hrd, ha, hsign, hlow⟩ := hok
      exact hrd ▸ ha ▸ decode16_of_addi16sp hsign hlow hne (Option.some.inj h).symm

theorem fields_of_encCB {f2 : BitVec 2} {i : BitVec 6} (h : encCB f2 rd a i = some x) :
    rd = a ∧ bits x 0 2 = 1 ∧ bits x 13 3 = 4 ∧ bits x 10 2 = f2 ∧ creg (bits x 7 3) = rd ∧ bits x 12 1 ++ bits x 2 5 = i := by
  unfold encCB at h
  cases hd : creg3 rd with
  | none => simp [hd] at h
  | some d =>
    simp only [hd] at h
    split_ifs at h with hrd
    obtain rfl := Option.some.inj h
    have hi : bits i 5 1 ++ bits i 0 5 = i := (bits_append_bits i rfl).trans (bits_self i)
    simp (disch := decide) only [bits_append_left, bits_append_right, bits_self, Nat.reduceSub, true_and]
    exact ⟨hrd, creg_of_creg3 hd, hi⟩

theorem fields_of_encCA {b12 : BitVec 1} {f2 : BitVec 2} (h : encCA b12 f2 rd a b = some x) :
    rd = a ∧ bits x 0 2 = 1 ∧ bits x 13 3 = 4 ∧ bits x 10 2 = 3 ∧ bits x 12 1 = b12 ∧ bits x 5 2 = f2 ∧ creg (bits x 7 3) = rd ∧
      creg (bits x 2 3) = b := by
  unfold encCA at h
  cases hd : creg3 rd with
  | none => simp [hd] at h
  | some d =>
    cases hq : creg3 b with
    | none => simp [hd, hq] at h
    | some q =>
      simp only [hd, hq] at h
      split_ifs at h with hrd
      obtain rfl := Option.some.inj h
      simp (disch := decide) only [bits_append_left, bits_append_right, bits_self, Nat.reduceSub, true_and]
      exact ⟨hrd, creg_of_creg3 hd, creg_of_creg3 hq⟩

theorem decode16_aluImm {op : AluImmOp} (h : encode16 (.aluImm op rd a imm) = some x) :
    decode16 x = some (.aluImm op rd a imm) := by
  cases op
  case addi => exact decode16_addi h
  case addiw =>
    have h' : (if rd = a ∧ rd ≠ 0 then (cimm6 imm).map fun i => encCI 1 i rd 1 else none) = some x := h
    split_ifs at h' with hok
    obtain ⟨hrd, hne⟩ := hok
    obtain ⟨i, hi, hx⟩ := Option.map_eq_some_iff.mp h'
    obtain ⟨hop, hf3, hr, hi6⟩ := bits_encCI hx.symm
    simp only [decode16, hop, hf3, hr, hi6, signExtend_of_cimm6 hi, ← hrd]
    exact if_neg hne
  case slli =>
    have h' : (if rd = a ∧ rd ≠ 0 ∧ imm.toNat < 64 then some (encCI 0 (bits imm 0 6) rd 2) else none) = some x := h
    split_ifs at h' with hok
    obtain ⟨hrd, hne, hlt⟩ := hok
    obtain ⟨hop, hf3, hr, hi6⟩ := bits_encCI (Option.some.inj h').symm
    simp only [decode16, hop, hf3, hr, hi6, setWidth_bits_of_lt (n := 6) hlt, ← hrd]
    exact if_neg hne
  case srli =>
    have h' : (if imm.toNat < 64 then encCB 0 rd a (bits imm 0 6) else none) = some x := h
    split_ifs at h' with hlt
    obtain ⟨hrd, hop, hf3, hf2, hr, hi6⟩ := fields_of_encCB h'
    simp only [decode16, hop, hf3, hf2, hr, hi6, setWidth_bits_of_lt (n := 6) hlt, ← hrd]
    rfl
  case srai =>
    have h' : (if imm.toNat < 64 then encCB 1 rd a (bits imm 0 6) else none) = some x := h
    split_ifs at h' with hlt
    obtain ⟨hrd, hop, hf3, hf2, hr, hi6⟩ := fields_of_encCB h'
    simp only [decode16, hop, hf3, hf2, hr, hi6, setWidth_bits_of_lt (n := 6) hlt, ← hrd]
    rfl
  case andi =>
    simp only [encode16] at h
    cases hi : cimm6 imm with
    | none => simp [hi] at h
    | some i =>
      simp only [hi] at h
      obtain ⟨hrd, hop, hf3, hf2, hr, hi6⟩ := fields_of_encCB h
      simp only [decode16, hop, hf3, hf2, hr, hi6, signExtend_of_cimm6 hi, ← hrd]
      rfl
  all_goals cases h

theorem fields_of_add {k : BitVec 4} (hx : x = k ++ rd ++ b ++ (2 : BitVec 2)) :
    bits x 0 2 = 2 ∧ bits x 13 3 = bits k 1 3 ∧ bits x 12 1 = bits k 0 1 ∧ bits x 7 5 = rd ∧ bits x 2 5 = b := by
  subst hx
  simp (disch := decide) only [bits_append_left, bits_append_right, bits_self, Nat.reduceSub, and_self]

theorem decode16_add (h : encode16 (.alu .add rd a b) = some x) : decode16 x = some (.alu .add rd a b) := by
  simp only [encode16] at h
  split_ifs at h with hb ha hrd
  · obtain ⟨hop, hf3, h12, hr, h2⟩ := fields_of_add (Option.some.inj h).symm
    simp only [decode16, hop, hf3, h12, hr, h2, ha]
    exact if_neg hb
  · obtain ⟨hop, hf3, h12, hr, h2⟩ := fields_of_add (Option.some.inj h).symm
    simp only [decode16, hop, hf3, h12, hr, h2, ← hrd]
    exact if_neg hb

theorem decode16_alu {op : AluOp} (h : encode16 (.alu op rd a b) = some x) : decode16 x = some (.alu op rd a b) := by
  cases op
  case add => exact decode16_add h
  case sub | xor | or | and | subw | addw =>
    obtain ⟨hrd, hop, hf3, hten, h12, hf2, hr, hb⟩ := fields_of_encCA h
    simp only [decode16, hop, hf3, hten, h12, hf2, hr, hb, ← hrd]
    rfl
  all_goals cases h

theorem decode16_lui {i : BitVec 20} (h : encode16 (.lui rd i) = some x) : decode16 x = some (.lui rd i) := by
  simp only [encode16] at h
  split_ifs at h with hok
  obtain ⟨hrd, hne, hsign⟩ := hok
  obtain ⟨hop, hf3, hr, hi6⟩ := bits_encCI (Option.some.inj h).symm
  have hne6 : bits i 0 6 ≠ 0 := fun hz => hne (by rw [← hsign, hz]; rfl)
  simp only [decode16, hop, hf3, hr, hi6, hsign]
  exact (if_neg hrd).trans (if_neg hne6)

/-- Compressed round trip. -/
theorem decode16_encode16 {i : Instr} (h : encode16 i = some x) : decode16 x = some i := by
  cases i
  case scalarLoad => exact decode16_scalarLoad h
  case scalarStore => exact decode16_scalarStore h
  case aluImm => exact decode16_aluImm h
  case alu => exact decode16_alu h
  case lui => exact decode16_lui h
  case hintAff sh =>
    obtain ⟨hop, hf3, hr, hi6⟩ := bits_encCI (Option.some.inj h).symm
    simp only [decode16, hop, hf3, hr, hi6]
    rfl
  all_goals cases h

end

end Sys2Proof
end

section
/-! The bytes of an encoding, and what the native decoder answers for them. -/

namespace Sys2Proof

section

theorem leBytes_take {n m : Nat} (v : Nat) (h : m ≤ n) : (leBytes n v).take m = leBytes m v := by
  induction n generalizing m v with
  | zero =>
    obtain rfl := Nat.le_zero.mp h
    rfl
  | succ n ih =>
    cases m with
    | zero => rfl
    | succ m => simp [leBytes, ih (v / 256) (Nat.le_of_succ_le_succ h)]

/-- The first bytes of a word are its low bits. -/
theorem ofNat_leNat_take {k n m : Nat} (w : BitVec k) (h : m ≤ n) :
    BitVec.ofNat (8 * m) (leNat ((leBytes n w.toNat).take m)) = bits w 0 (8 * m) := by
  rw [leBytes_take _ h, Machine.leNat_leBytes]
  exact BitVec.eq_of_toNat_eq (by simp [bits, BitVec.extractLsb'_toNat])

/-- Bits 4:0 of a 32-bit encoding are neither those of a 16-bit one nor those of a longer one. -/
theorem decode32_length {w : BitVec 32} {i : Instr} (h : decode32 w = some i) : bits w 0 2 = 3 ∧ bits w 2 3 ≠ 7 := by
  have hlow : bits w 0 2 = bits (bits w 0 7) 0 2 ∧ bits w 2 3 = bits (bits w 0 7) 2 3 := by
    simp (disch := decide) only [bits_bits, Nat.zero_add, and_self]
  rw [hlow.1, hlow.2]
  generalize hop : bits w 0 7 = op
  simp only [decode32, hop] at h
  split at h
  case h_27 => cases h
  all_goals
    next heq =>
    obtain ⟨-, rfl⟩ := toNat_eq_iff_eq_ofNat.mp heq
    decide

theorem decodeNative_word {w : BitVec 32} {i : Instr} (h : decode32 w = some i) : decodeNative (leBytes 4 w.toNat) = .ok i 4 := by
  obtain ⟨hlen, hlong⟩ := decode32_length h
  have h16 : BitVec.ofNat 16 (leNat ((leBytes 4 w.toNat).take 2)) = bits w 0 16 := ofNat_leNat_take w (by decide)
  have h32 : BitVec.ofNat 32 (leNat ((leBytes 4 w.toNat).take 4)) = w := (ofNat_leNat_take w (by decide)).trans (bits_self w)
  have hlen' : bits (bits w 0 16) 0 2 = 3 := (bits_bits w (by decide)).trans hlen
  have hlong' : bits (bits w 0 16) 2 3 ≠ 7 := fun hl => hlong ((bits_bits w (by decide)).symm.trans hl)
  simp only [decodeNative, Machine.leBytes_length, h16, h32, hlen', if_pos hlong', h]
  rfl

theorem decodeNative_pair {w : BitVec 64} {i : Instr} (hop : bits w 0 7 = 0x3F) (hkind : bits w 12 3 = 0) (h : decodePair w = some i) :
    decodeNative (leBytes 8 w.toNat) = .ok i 8 := by
  have h16 : BitVec.ofNat 16 (leNat ((leBytes 8 w.toNat).take 2)) = bits w 0 16 := ofNat_leNat_take w (by decide)
  have h64 : BitVec.ofNat 64 (leNat ((leBytes 8 w.toNat).take 8)) = w := (ofNat_leNat_take w (by decide)).trans (bits_self w)
  have hlow (lo k : Nat) (hlt : lo + k ≤ 7) : bits (bits w 0 16) lo k = bits (0x3F : BitVec 7) lo k := by
    rw [bits_bits w (by omega), ← hop, bits_bits w hlt]
  have hkind' : bits (bits w 0 16) 12 3 = 0 := (bits_bits w (by decide)).trans hkind
  have hlen := hlow 0 2 (by decide)
  have hlong := hlow 2 3 (by decide)
  have hfive := hlow 5 1 (by decide)
  have hsix := hlow 6 1 (by decide)
  simp only [decodeNative, Machine.leBytes_length, h16, h64, hlen, hlong, hfive, hsix, hkind', h]
  rfl

theorem decode16_length {x : BitVec 16} {i : Instr} (h : decode16 x = some i) : bits x 0 2 ≠ 3 := by
  intro hop
  simp [decode16, hop] at h

end

theorem decodeMember16_encode16 {a : Instr} {x : BitVec 16} (h : encode16 a = some x) : decodeMember16 x = some a :=
  (if_neg (decode16_length (decode16_encode16 h))).trans (decode16_encode16 h)

/-- A pair word is its guard, its sense and its members. -/
theorem decodePair_word {g : Reg} {s : Bool} {a b : Instr} {x : BitVec 16} {w : BitVec 32} (ha : decodeMember16 x = some a)
    (hb : decode32 w = some b) (hok : ¬ ((g = 0 ∧ s = false) ∨ scalarMemberOk a = false ∨ vectorMemberOk b = false)) {p : BitVec 64}
    (hp : p = w ++ x ++ BitVec.ofBool s ++ (0 : BitVec 3) ++ g ++ (0x3F : BitVec 7)) :
    bits p 0 7 = 0x3F ∧ bits p 12 3 = 0 ∧ decodePair p = some (.pair g s a b) := by
  have hfields : bits p 0 7 = 0x3F ∧ bits p 12 3 = 0 ∧ bits p 7 5 = g ∧ bits p 15 1 = BitVec.ofBool s ∧ bits p 16 16 = x ∧
      bits p 32 32 = w := by
    subst hp
    simp (disch := decide) only [bits_append_left, bits_append_right, bits_self, Nat.reduceSub, and_self]
  obtain ⟨hop, hkind, hg, hs, hx, hw⟩ := hfields
  refine ⟨hop, hkind, ?_⟩
  simp only [decodePair, hg, hs, hx, hw, ha, hb, BitVec.ofNat_eq_ofNat, decide_ofBool_eq_one]
  exact if_neg hok

theorem decodeNative_encode_pair {g : Reg} {s : Bool} {a b : Instr} {n w : Nat} (hwf : (Instr.pair g s a b).wellFormed = true)
    (h : encode (.pair g s a b) = some (n, w)) : decodeNative (leBytes n w) = .ok (.pair g s a b) n := by
  simp only [Instr.wellFormed, Bool.and_eq_true] at hwf
  obtain ⟨-, hwfb⟩ := hwf
  simp only [encode] at h
  cases ha : encode16 a with
  | none => simp [ha] at h
  | some x =>
    cases hb : encode32 b with
    | none => simp [ha, hb] at h
    | some v =>
      simp only [ha, hb] at h
      split_ifs at h with hok
      obtain ⟨rfl, rfl⟩ := Prod.mk.inj (Option.some.inj h)
      obtain ⟨hop, hkind, hpair⟩ := decodePair_word (decodeMember16_encode16 ha) (decode32_encode32 hwfb hb) hok rfl
      exact decodeNative_pair hop hkind hpair

/-- Settles O2: a pair word by its members, every other instruction by its 32-bit encoding. -/
theorem decodeOfEncodeIsTheInstruction : Obligations.DecodeOfEncodeIsTheInstruction := by
  unfold Obligations.DecodeOfEncodeIsTheInstruction
  intro i n w hwf h
  by_cases hpair : ∃ g s a b, i = .pair g s a b
  · obtain ⟨g, s, a, b, rfl⟩ := hpair
    exact decodeNative_encode_pair hwf h
  · have henc : encode i = (encode32 i).map fun w => (4, w.toNat) := by
      cases i
      case pair g s a b => exact absurd ⟨g, s, a, b, rfl⟩ hpair
      all_goals rfl
    obtain ⟨v, hv, hnw⟩ := Option.map_eq_some_iff.mp (henc ▸ h)
    obtain ⟨rfl, rfl⟩ := Prod.mk.inj hnw
    exact decodeNative_word (decode32_encode32 hwf hv)

end Sys2Proof
end

section
/-! Words of the encoding tables, calls and integer instructions. -/

namespace Sys2Proof.Machine
open Sys2Proof.Machine.Claim

/-- Settles O1: the decoder evaluates on each word. -/
theorem wordsDecodeAsTheSpecWritesThem : Obligations.WordsDecodeAsTheSpecWritesThem := by
  unfold Obligations.WordsDecodeAsTheSpecWritesThem
  decide

/-- An instruction that ends by writing v to x[rd] writes nothing else. -/
theorem writesX_of_finish {i : Instr} {s : State} {rd : Reg} {v : Word} (h : exec i s = finish (.ok () (s.setX rd v))) : WritesX i s rd v :=
  ⟨_, h, onlyX_of_setX s rd v⟩

theorem writesX_of_loopRead {i : Instr} {s : State} {rd : Reg} {n : BitVec 5} {f : LoopEntry → Word} (h : exec i s = finish (loopRead s rd n f))
    (hn : n.toNat < 6) : WritesX i s rd (match s.seq.loops[n.toNat]? with | some e => f e | none => 0) :=
  writesX_of_finish (h.trans (congrArg finish (if_neg (Nat.not_le.mpr hn))))

/-- Settles O5, one instruction at a time: each ends by writing its result to rd. -/
theorem integerInstructionsWriteOnlyRd : Obligations.IntegerInstructionsWriteOnlyRd := by
  unfold Obligations.IntegerInstructionsWriteOnlyRd
  intro i s rd v h
  cases i
  case lui | auipc | alu | aluImm | bilv2 | bilv3 | bdlv2 | bdlv3 | clzx | fold | ldepth =>
    obtain ⟨rfl, rfl⟩ := Prod.mk.inj (Option.some.inj h)
    exact writesX_of_finish rfl
  case lidx | lcnt =>
    simp only [intResult] at h
    split_ifs at h with hn
    obtain ⟨rfl, rfl⟩ := Prod.mk.inj (Option.some.inj h)
    exact writesX_of_loopRead rfl hn
  all_goals cases h

/-- Settles O30: each of the three takes its trap and does nothing else; the cause of ecall is that of the mode. -/
theorem callsBreakpointsAndIllegalEncodingsTrap : Obligations.CallsBreakpointsAndIllegalEncodingsTrap := by
  unfold Obligations.CallsBreakpointsAndIllegalEncodingsTrap
  intro s
  refine ⟨?_, rfl, rfl⟩
  show Host.Outcome.next (s.takeTrap (match s.seq.mode with | .u => 8 | .s => 9 | .m => 11) 0) = _
  cases s.seq.mode <;> rfl

end Sys2Proof.Machine
end

section
/-! Loads and stores of a hart. -/

namespace Sys2Proof.Machine
open Sys2Proof.Machine.Claim

theorem Res.bind_of_ok {α β : Type} {r : Res α} {f : α → State → Res β} {a : α} {s : State} (h : r = .ok a s) : r.bind f = f a s := by
  rw [h]; rfl

theorem Res.bind_of_trap {α β : Type} {r : Res α} {f : α → State → Res β} {c : Nat} {v : Word} {s : State} (h : r = .trap c v s) :
    r.bind f = .trap c v s := by
  rw [h]; rfl

theorem Res.bind_of_stall {α β : Type} {r : Res α} {f : α → State → Res β} {w : Stall} {s : State} (h : r = .stall w s) :
    r.bind f = .stall w s := by
  rw [h]; rfl

section
variable {s s0 s1 : State} {rd rs1 rs2 : Reg} {imm : BitVec 12} {c : Nat} {v : Word}

theorem fp_refused_iff {fp on : Bool} : (fp && !on) = false ↔ (fp = true → on = true) := by
  cases fp <;> cases on <;> decide

/-- A load that FS allows is the access and the write of its register. -/
theorem doLoad_allowed {op : LoadOp} (hfs : isFpLoad op = true → s.fpOn = true) :
    doLoad s op rd rs1 imm = (s.loadAt s.via (s.x rs1 + imm.signExtend 64) (loadSize op) false).bind fun bs s1 =>
      .ok () (if isFpLoad op then s1.putF rd (loadValue op (leNat bs)) else s1.setX rd (loadValue op (leNat bs))) :=
  if_neg (by simp [fp_refused_iff.mpr hfs])

theorem doStore_allowed {op : StoreOp} (hfs : isFpStore op = true → s.fpOn = true) :
    doStore s op rs2 rs1 imm =
      s.scalarStore (s.x rs1 + imm.signExtend 64) (leBytes (storeSize op) (if isFpStore op then s.f rs2 else s.x rs2).toNat) :=
  if_neg (by simp [fp_refused_iff.mpr hfs])

/-- An instruction whose parts end in a trap takes it. -/
theorem traps_of_finish {i : Instr} {r : Res Unit} (h : exec i s = finish r) (hr : r = .trap c v s1) : exec i s = .next (s1.takeTrap c v) := by
  rw [h, hr]; rfl

theorem completes_of_ok {i : Instr} {r : Res Unit} (h : exec i s = finish r) (hr : r = .ok () s1) : Completes i s s1 :=
  completes_of_finish (h.trans (congrArg finish hr))

/-- ld.aq of an aligned address, once it is located. -/
theorem ldAq_located {scope width : BitVec 2} {ls : List Loc} (hscope : scope ≠ 3) (hal : (s.x rs1).toNat % widthBytes width = 0)
    (hloc : s.locate s.via (s.x rs1) (widthBytes width) .load = .ok ls s0) :
    exec (.ldAq scope width rd rs1) s = finish (
      if scope ≠ 2 ∧ (peerOf ls).isSome then .trap 7 (s.x rs1) s0
      else (s0.loadLocs s0.via false ls).bind fun bs s1 =>
        .ok () ((if scope = 2 then s1.flushP s.hart else s1).setX rd (sextBytes (widthBytes width) (leNat bs)))) := by
  exact congrArg finish ((if_neg hscope).trans ((if_neg (not_not.mpr hal)).trans (Res.bind_of_ok hloc)))

/-- At .sys, and where no peer window is in the way, ld.aq performs its access. -/
theorem ldAq_performs {scope width : BitVec 2} {ls : List Loc} (hscope : scope ≠ 3) (hal : (s.x rs1).toNat % widthBytes width = 0)
    (hloc : s.locate s.via (s.x rs1) (widthBytes width) .load = .ok ls s0) (hnear : scope = 2 ∨ peerOf ls = none) :
    exec (.ldAq scope width rd rs1) s = finish ((s0.loadLocs s0.via false ls).bind fun bs s1 =>
      .ok () ((if scope = 2 then s1.flushP s.hart else s1).setX rd (sextBytes (widthBytes width) (leNat bs)))) := by
  rw [ldAq_located hscope hal hloc, if_neg]
  rintro ⟨hne, hsome⟩
  rcases hnear with rfl | hnone
  · exact hne rfl
  · simp [hnone] at hsome

/-- Settles O14: each load is its access, whose answer decides whether it completes or traps. -/
theorem loadsDeliverTheirValue : Obligations.LoadsDeliverTheirValue := by
  unfold Obligations.LoadsDeliverTheirValue
  intro s s1 rd rs1 bs c v
  refine ⟨fun op imm hfs => ⟨fun hload => ?_, fun hload => ?_⟩, fun scope width ls s0 hscope hal hloc => ?_, fun width hload => ?_,
    fun scope width hscope hal hloc => ?_, fun width hload => ?_, fun scope width hscope hal => ?_, fun width => rfl, fun op imm hfp hoff => ?_⟩
  · exact completes_of_ok rfl ((doLoad_allowed hfs).trans (Res.bind_of_ok hload))
  · exact traps_of_finish rfl ((doLoad_allowed hfs).trans (Res.bind_of_trap hload))
  · refine ⟨fun hnear hload => ?_, fun hnear hload => ?_, fun hsys hpeer => ?_⟩
    · refine completes_of_ok (ldAq_performs hscope hal hloc hnear) ?_
      rw [Res.bind_of_ok hload]
      simp [released]
    · exact traps_of_finish (ldAq_performs hscope hal hloc hnear) (Res.bind_of_trap hload)
    · exact traps_of_finish (ldAq_located hscope hal hloc) (if_pos ⟨hsys, hpeer⟩)
  · exact completes_of_ok rfl (Res.bind_of_ok hload)
  · exact traps_of_finish rfl ((if_neg hscope).trans ((if_neg (not_not.mpr hal)).trans (Res.bind_of_trap hloc)))
  · exact traps_of_finish rfl (Res.bind_of_trap hload)
  · exact traps_of_finish rfl ((if_neg hscope).trans (if_pos hal))
  · exact traps_of_finish rfl (if_pos (by simp [hfp, hoff]))

/-- A message that its flow lets go is the newest one sent. -/
theorem State.emit_sent (s : State) (m : Sent) : (s.emit m).host.sent = s.host.sent ++ [m] := by
  unfold State.emit
  split <;> rfl

theorem State.send_sent {m : Sent} {k : Nat × Nat} (hflow : m.flow = some k) (hroom : (s.flowOf k.1 k.2).room ≠ 0) (hlater : s.laterOf k = []) :
    (s.send m).host.sent = s.host.sent ++ [m] := by
  simp [State.send, hflow, hroom, hlater, State.emit_sent]

theorem State.peerSend_sent {u : State} {via : Via} {p : Nat} {red : Bool} {m : Sent} (hflow : m.flow = some (via.part, u.peerFlow via.part p))
    (hfull : u.flowFull via.part p = false) (hlater : u.laterOf (via.part, u.peerFlow via.part p) = []) :
    (u.peerSend via p red m).host.sent = u.host.sent ++ [m] := by
  unfold State.peerSend
  exact State.send_sent hflow (beq_eq_false_iff_ne.mp hfull) hlater

theorem State.peerRelease_open {l : Loc} {p base w : Nat} (hbase : s.peerBase s.via.part p = some base) :
    s.peerRelease l p w = s.releaseSys.bind fun _ u =>
      if u.flowFull u.via.part p then .stall .peer u
      else .ok () (u.peerSend u.via p false (.peerNotify u.via.part (u.peerFlow u.via.part p) p 0 0 (remote base l.pa) (BitVec.ofNat 64 w))) := by
  unfold State.peerRelease
  rw [hbase]

/-- A release through an open peer window whose flow has room sends its NOTIFY. -/
theorem State.peerRelease_sends {l : Loc} {p base w : Nat} {u : State} (hbase : s.peerBase s.via.part p = some base)
    (howes : s.peerOwes s.via.party = false) (hu : u = (s.flushP s.hart).settled s.hart) (hfull : u.flowFull u.via.part p = false)
    (hlater : u.laterOf (u.via.part, u.peerFlow u.via.part p) = []) : ∃ t, s.peerRelease l p w = .ok () t ∧
      t.host.sent = u.host.sent ++ [.peerNotify u.via.part (u.peerFlow u.via.part p) p 0 0 (remote base l.pa) (BitVec.ofNat 64 w)] := by
  have hrel : s.releaseSys = .ok () u := hu ▸ State.releaseSys_of_settled howes
  have hroom : ¬ (u.flowFull u.via.part p = true) := by rw [hfull]; exact Bool.false_ne_true
  refine ⟨_, ?_, State.peerSend_sent (red := false) rfl hfull hlater⟩
  rw [State.peerRelease_open hbase, hrel, Res.bind_ok, if_neg hroom]

/-- A store that is not the aligned 8-byte one after fence.s.sys is a plain one. -/
theorem State.scalarStore_plain {va : Word} {bytes : List Byte} (h : s.seq.fenced = false ∨ bytes.length ≠ 8 ∨ va.toNat % 8 ≠ 0) :
    s.scalarStore va bytes = s.storeAt s.via va bytes := by
  refine if_neg ?_
  rintro ⟨hfenced, hlen, hal⟩
  simp [hfenced, hlen, hal] at h

/-- That store through a peer window is a release, and the fence is spent. -/
theorem State.scalarStore_fenced {va : Word} {bytes : List Byte} {ls : List Loc} {l : Loc} {p : Nat} {s2 : State} (hfenced : s.seq.fenced = true)
    (hlen : bytes.length = 8) (hal : va.toNat % 8 = 0) (hloc : s.locate s.via va 8 .store = .ok ls s1) (hpeer : peerOf ls = some (l, p))
    (hrel : s1.peerRelease l p (leNat bytes) = .ok () s2) : s.scalarStore va bytes = .ok () (s2.upd fun q => { q with fenced := false }) := by
  refine (if_pos ⟨hfenced, hlen, hal⟩).trans ((Res.bind_of_ok hloc).trans ?_)
  simp only [hpeer]
  exact Res.bind_of_ok hrel

theorem State.releaseNear_of_settled (h : s.redsOut s.via.party = 0) : s.releaseNear = .ok () s :=
  if_neg (by rw [h]; exact Nat.lt_irrefl 0)

/-- st.rl of an aligned address, once it is located. -/
theorem stRl_located {scope width : BitVec 2} {ls : List Loc} (hscope : scope ≠ 3) (hal : (s.x rs1).toNat % widthBytes width = 0)
    (hloc : s.locate s.via (s.x rs1) (widthBytes width) .store = .ok ls s1) :
    exec (.stRl scope width rs2 rs1) s = finish (match peerOf ls with
      | some (l, p) => if scope = 2 then s1.peerRelease l p (lowBits (s.x rs2) (8 * widthBytes width)) else .trap 7 (s.x rs1) s1
      | none => (if scope = 2 then s1.releaseSys else s1.releaseNear).bind fun _ s2 =>
          s2.storeAt s2.via (s.x rs1) (leBytes (widthBytes width) (s.x rs2).toNat)) :=
  congrArg finish ((if_neg hscope).trans ((if_neg (not_not.mpr hal)).trans (Res.bind_of_ok hloc)))

end

/-- Settles O15: a scalar store is plain or a release through a window; st.rl is settled once it is located. -/
theorem storesPerformTheirStore : Obligations.StoresPerformTheirStore := by
  unfold Obligations.StoresPerformTheirStore
  intro s s1 s2 rs1 rs2 c v ls
  refine ⟨fun op imm hfs => ?_, fun op imm hfp hoff => ?_, fun scope width hscope hal hloc => ?_, fun l p base w hbase howes => ?_,
    fun scope width hscope hal => ?_, fun width => rfl⟩
  · have hdo := doStore_allowed (s := s) (rs2 := rs2) (rs1 := rs1) (imm := imm) hfs
    refine ⟨fun hst => completes_of_ok rfl (hdo.trans hst), fun hst => traps_of_finish rfl (hdo.trans hst), fun hst => ?_, fun hplain => ?_,
      fun hfenced hsize hal hloc l p hpeer hrel => ?_⟩
    · exact congrArg finish (hdo.trans hst)
    · exact State.scalarStore_plain (by rwa [leBytes_length])
    · exact State.scalarStore_fenced hfenced (by rw [leBytes_length, hsize]) hal hloc hpeer hrel
  · exact traps_of_finish rfl (if_pos (by simp [hfp, hoff]))
  · have hexec := stRl_located (rs2 := rs2) hscope hal hloc
    refine ⟨fun hnone hsys howes hstore => ?_, fun hnone hnear hreds hstore => ?_, fun hnone hwait => ?_, fun l p hpeer => ⟨fun hsys hrel => ?_, fun hnear => ?_⟩⟩
    · rw [hnone, if_pos hsys, State.releaseSys_of_settled howes] at hexec
      exact completes_of_ok hexec hstore
    · rw [hnone, if_neg hnear, State.releaseNear_of_settled hreds] at hexec
      exact completes_of_ok hexec hstore
    · rw [hnone] at hexec
      split_ifs at hwait with hsys
      · exact hexec.trans (congrArg finish (Res.bind_of_stall ((if_pos hsys).trans (if_pos hwait))))
      · exact hexec.trans (congrArg finish (Res.bind_of_stall ((if_neg hsys).trans (if_pos hwait))))
    · rw [hpeer] at hexec
      exact completes_of_ok hexec ((if_pos hsys).trans hrel)
    · rw [hpeer] at hexec
      exact traps_of_finish hexec (if_neg hnear)
  · exact State.peerRelease_sends hbase howes rfl
  · exact traps_of_finish rfl ((if_neg hscope).trans (if_pos hal))

end Sys2Proof.Machine
end

section
/-! A reservation that is given up stays given up: a write at home breaks reservations and makes none (R132). `f_unreserved` says so of f, in the
order of the model. -/

namespace Sys2Proof.Machine

/-- The running hart holds no reservation. -/
def State.Unreserved (s : State) : Prop := s.seq.resv = none

section
variable {s t : State}

theorem State.Unreserved.of_seq (h : s.Unreserved) (hseq : t.seq = s.seq) : t.Unreserved := by
  unfold State.Unreserved
  rw [hseq]
  exact h

theorem foldl_unreserved {α : Type} {f : State → α → State} (hf : ∀ s a, s.Unreserved → (f s a).Unreserved) (l : List α) (s : State)
    (h : s.Unreserved) : (l.foldl f s).Unreserved := by
  induction l generalizing s with
  | nil => exact h
  | cons a l ih => exact ih (f s a) (hf s a h)

theorem Seq.breakResv_unreserved {q : Seq} {pa n : Nat} (h : q.resv = none) : q.breakResv pa n = q := by
  unfold Seq.breakResv
  rw [h]

theorem State.breakResv_unreserved {pa n : Nat} {writer : Option Nat} (h : s.Unreserved) : (s.breakResv pa n writer).Unreserved :=
  h.of_seq (by
    show (if some s.hart = writer then s.seq else s.seq.breakResv pa n) = s.seq
    rw [Seq.breakResv_unreserved h, ite_self])

theorem State.wakeHome_seq (s : State) (home : Nat) : (s.wakeHome home).seq = s.seq := by
  unfold State.wakeHome
  split <;> rfl

theorem State.modLines_seq (s : State) (pa n : Nat) (f : BitVec 32 → DirLine → DirLine) : (s.modLines pa n f).seq = s.seq := by
  unfold State.modLines
  split
  · rfl
  · refine foldl_keeps State.seq (fun _ _ => ?_) _ _
    rfl

theorem State.poisonRange_seq (s : State) (pa n : Nat) : (s.poisonRange pa n).seq = s.seq := by
  refine foldl_keeps State.seq (fun _ _ => ?_) _ _
  rfl

theorem State.pWrite_seq (s : State) (core pa : Nat) (bs : List Byte) : (s.pWrite core pa bs).seq = s.seq := by
  induction bs generalizing s pa with
  | nil => rfl
  | cons b bs ih => exact ih _ _

theorem State.pStore_unreserved {core pa : Nat} {bs : List Byte} {w : Option Nat} (h : s.Unreserved) : (s.pStore core pa bs w).Unreserved :=
  State.breakResv_unreserved (h.of_seq (State.pWrite_seq _ core pa bs))

theorem State.pHome_unreserved {pa : Nat} {b : Byte} (h : s.Unreserved) : (s.pHome pa b).Unreserved := by
  unfold State.pHome
  split
  · exact h
  · exact State.breakResv_unreserved (s := { s with mem := memSet s.mem pa b }) h

theorem State.pFlush_unreserved {core : Nat} {sel : Nat → Bool} (h : s.Unreserved) : (s.pFlush core sel).Unreserved :=
  foldl_unreserved (fun _ _ h => State.pHome_unreserved h) _ _ (h.of_seq rfl)

theorem State.putBytes_unreserved {via : Via} {l : Loc} {bs : List Byte} (h : s.Unreserved) : (s.putBytes via l bs).Unreserved := by
  have hwoken : (if l.t = .hbm then s.wakeHome l.home else s).Unreserved := by
    split
    · exact h.of_seq (State.wakeHome_seq ..)
    · exact h
  have hwritten : (((({ (if l.t = .hbm then s.wakeHome l.home else s) with mem := memWrite s.mem l.pa bs } : State).breakResv l.pa bs.length
      via.hart).clearPoison l.pa bs.length)).Unreserved :=
    (State.breakResv_unreserved (hwoken.of_seq rfl)).of_seq (State.clearPoison_seq ..)
  unfold State.putBytes
  dsimp only
  split
  · exact h
  · split
    · exact State.pStore_unreserved h
    · split
      · exact hwritten.of_seq (State.modLines_seq ..)
      · exact hwritten

theorem State.logEntry_unreserved {part : Nat} {e : LogEntry} (h : s.Unreserved) : (s.logEntry part e).Unreserved := by
  have hput {t : State} {pa : Nat} {bs : List Byte} (ht : t.Unreserved) : (t.rootPut pa bs).Unreserved := State.putBytes_unreserved ht
  unfold State.logEntry
  split
  · exact h
  · dsimp only
    split
    · exact hput h
    · split
      · exact (hput (hput h)).of_seq (State.sendEvent_seq ..)
      · exact hput (hput h)

theorem State.losePartial_unreserved {word tag core : Nat} (h : s.Unreserved) : (s.losePartial word tag core).Unreserved :=
  State.logEntry_unreserved (h.of_seq (State.poisonRange_seq ..))

theorem State.bringBack_unreserved {line : Nat} (h : s.Unreserved) : (s.bringBack line).Unreserved := by
  unfold State.bringBack
  split
  · exact h
  · dsimp only
    split
    · exact h
    · refine foldl_unreserved (fun st b hst => ?_) _ _ h
      exact foldl_unreserved (fun _ _ h => State.losePartial_unreserved h) _ _ hst

theorem State.bringLines_unreserved {pa n : Nat} (h : s.Unreserved) : (s.bringLines pa n).Unreserved := by
  unfold State.bringLines
  split
  · exact h
  · exact foldl_unreserved (fun _ _ h => State.bringBack_unreserved h) _ _ h

theorem State.reckonWord_unreserved {word : Nat} (h : s.Unreserved) : (s.reckonWord word none).Unreserved := by
  unfold State.reckonWord
  split
  · exact h
  · dsimp only
    refine foldl_unreserved (fun _ _ h => State.losePartial_unreserved h) _ _ (foldl_unreserved (fun st p hst => ?_) _ _ ?_)
    · split
      · exact hst.of_seq (State.wakeHome_seq ..)
      · exact hst
    · refine State.Unreserved.of_seq (State.breakResv_unreserved ?_) (State.modDir_seq ..)
      exact h

theorem State.reckonRange_unreserved {pa n : Nat} (h : s.Unreserved) : (s.reckonRange pa n none).Unreserved :=
  foldl_unreserved (fun _ _ h => State.reckonWord_unreserved h) _ _ (State.bringLines_unreserved h)

theorem State.rmwReady_unreserved {via : Via} {l : Loc} (h : s.Unreserved) : (s.rmwReady via l false).Unreserved := by
  have hview : (s.homeView via l).Unreserved := by
    unfold State.homeView
    dsimp only
    split
    · exact (State.pFlush_unreserved h).of_seq rfl
    · exact h
  have hwoken : (if l.t = .hbm then (s.homeView via l).wakeHome l.home else s.homeView via l).Unreserved := by
    split
    · exact hview.of_seq (State.wakeHome_seq ..)
    · exact hview
  unfold State.rmwReady
  dsimp only
  split
  · exact State.reckonRange_unreserved hwoken
  · exact hwoken

theorem State.fireArmed_seq (s : State) (pa n : Nat) : (s.fireArmed pa n).seq = s.seq := by
  unfold State.fireArmed
  dsimp only
  split
  · rfl
  · refine (foldl_keeps State.seq (fun st a => ?_) _ _).trans rfl
    split <;> rfl

theorem State.rmwDone_unreserved {via : Via} {l : Loc} {f : Nat → Option Nat} (h : s.Unreserved) : (s.rmwDone via l f).2.Unreserved := by
  unfold State.rmwDone
  dsimp only
  split
  · exact h
  · dsimp only
    split
    · exact (State.putBytes_unreserved h).of_seq (State.fireArmed_seq ..)
    · exact State.putBytes_unreserved h

theorem State.rmw_unreserved {via : Via} {l : Loc} {f : Nat → Option Nat} (h : s.Unreserved) : (s.rmw via l false f).2.Unreserved :=
  State.rmwDone_unreserved (State.rmwReady_unreserved h)

end

end Sys2Proof.Machine
end

section
/-! AMOs, LR and SC of a hart. -/

namespace Sys2Proof.Machine
open Sys2Proof.Machine.Claim

section
variable {s s1 : State} {n : Nat} {va : Word}

/-- An LR that answers has set the reservation. -/
theorem State.lrAt_reserves {old : Nat} (h : s.lrAt n va = .ok old s1) : s1.seq.resv.isSome = true := by
  unfold State.lrAt at h
  split at h
  · cases h
  obtain ⟨ls, u, -, h⟩ := Res.bind_eq_ok h
  split at h
  next l =>
    split at h
    case h_1 | h_2 | h_3 =>
      obtain ⟨bs, t, -, h⟩ := Res.bind_eq_ok h
      obtain ⟨-, rfl⟩ := Res.ok.inj h
      rfl
    all_goals cases h
  next => cases h

/-- An SC of an aligned word that is located at a place with reservations writes only under one, and gives it up. -/
theorem State.scAt_cases {old v : Nat} (h : s.scAt n va v = .ok old s1) : ∃ l u, s.locate s.via va n .store = .ok [l] u ∧
    let u' := u.upd fun q => { q with resv := none }
    (u.seq.resv = some (resvBase l.pa) ∧ old = 0 ∧ s1 = (u'.rmw u'.via l false fun _ => some v).2) ∨
    (u.seq.resv ≠ some (resvBase l.pa) ∧ old = 1 ∧ s1 = u') := by
  unfold State.scAt at h
  split at h
  · cases h
  obtain ⟨ls, u, hloc, h⟩ := Res.bind_eq_ok h
  split at h
  next l =>
    refine ⟨l, u, hloc, ?_⟩
    split at h
    case h_1 | h_2 | h_3 =>
      dsimp only at h
      split at h
      next hresv =>
        obtain ⟨rfl, rfl⟩ := Res.ok.inj h
        exact .inl ⟨hresv, rfl, rfl⟩
      next hresv =>
        obtain ⟨rfl, rfl⟩ := Res.ok.inj h
        exact .inr ⟨hresv, rfl, rfl⟩
    all_goals cases h
  next => cases h

theorem State.scAt_unreserved {old v : Nat} (h : s.scAt n va v = .ok old s1) : s1.seq.resv = none := by
  obtain ⟨l, u, -, ⟨-, -, rfl⟩ | ⟨-, -, rfl⟩⟩ := State.scAt_cases h
  · exact State.rmw_unreserved rfl
  · rfl

/-- Without a reservation on the word SC writes nothing. -/
theorem State.scAt_without {old v : Nat} {l : Loc} {s2 : State} (h : s.scAt n va v = .ok old s1) (hloc : s.locate s.via va n .store = .ok [l] s2)
    (hresv : s2.seq.resv ≠ some (resvBase l.pa)) : old = 1 ∧ s1.mem = s2.mem := by
  obtain ⟨l', u, hloc', hcase⟩ := State.scAt_cases h
  obtain ⟨hl, rfl⟩ := Res.ok.inj (hloc'.symm.trans hloc)
  obtain rfl := List.singleton_inj.mp hl
  rcases hcase with ⟨hheld, -, -⟩ | ⟨-, hold, rfl⟩
  · exact absurd hheld hresv
  · exact ⟨hold, rfl⟩

theorem State.ordered_eq (s : State) (rl aq : Bool) : s.ordered rl aq = (if rl && s.peerOwes s.via.party then .stall .peer s
    else .ok () (if rl then (s.flushP s.hart).settled s.hart else if aq then s.flushP s.hart else s)) := by
  unfold State.ordered State.releaseSys
  cases rl
  · rfl
  · simp

end

section
variable {s s0 s1 : State} {op : AmoOp} {d aq rl : Bool} {rd rs1 rs2 : Reg} {r : Res Nat}

/-- The three ways of a standard AMO: LR, SC and the others but cas. -/
theorem standardAmo_lr : exec (.standardAmo .lr d aq rl rd rs2 rs1) s = finish (((s.ordered rl aq).bind fun _ s0 =>
    s0.lrAt (if d then 8 else 4) (s.x rs1)).bind fun old s1 => .ok () (s1.setX rd (sextBytes (if d then 8 else 4) old))) := rfl

theorem standardAmo_sc : exec (.standardAmo .sc d aq rl rd rs2 rs1) s = finish (((s.ordered rl aq).bind fun _ s0 =>
    s0.scAt (if d then 8 else 4) (s.x rs1) (lowBits (s.x rs2) (8 * if d then 8 else 4))).bind fun old s1 =>
      .ok () (s1.setX rd (BitVec.ofNat 64 old))) := rfl

theorem standardAmo_amo (hlr : op ≠ .lr) (hsc : op ≠ .sc) (hcas : op ≠ .cas) : exec (.standardAmo op d aq rl rd rs2 rs1) s =
    finish ((s.amoAt false op (if d then 8 else 4) (s.x rs1) (lowBits (s.x rs2) (8 * if d then 8 else 4)) 0 fun st => st.ordered rl aq).bind
      fun old s1 => .ok () (s1.setX rd (sextBytes (if d then 8 else 4) old))) := by
  cases op
  case lr => exact absurd rfl hlr
  case sc => exact absurd rfl hsc
  case cas => exact absurd rfl hcas
  all_goals rfl

/-- A misaligned AMO traps before anything else. -/
theorem State.amoAt_misaligned {salica : Bool} {n v c : Nat} {va : Word} {pre : State → Res Unit} (h : va.toNat % n ≠ 0) :
    s.amoAt salica op n va v c pre = .trap 6 va s := if_pos h

/-- A scoped AMO with an assigned operation and scope. -/
theorem amoScoped_amo {f : BitVec 4} {scope : BitVec 2} (hop : scopedOp f = some op) (hscope : scope ≠ 3) :
    exec (.amoScoped f d scope rd rs2 rs1) s = finish ((s.amoAt true op (if d then 8 else 4) (s.x rs1)
      (lowBits (s.x rs2) (8 * if d then 8 else 4)) (lowBits (s.x rd) (8 * if d then 8 else 4))
      fun st => if scope = 2 then st.ordered true true else st.releaseNear).bind fun old s1 =>
        .ok () (s1.setX rd (sextBytes (if d then 8 else 4) old))) := by
  refine congrArg finish ?_
  simp only [hop]
  exact if_neg hscope

theorem scopedOp_eq_none {f : BitVec 4} : scopedOp f = none ↔ 10 ≤ f.toNat := by
  revert f; decide

/-- A reserved operation and scope 3 are cause 2. -/
theorem amoScoped_reserved {f : BitVec 4} {scope : BitVec 2} (h : 10 ≤ f.toNat ∨ scope = 3) :
    exec (.amoScoped f d scope rd rs2 rs1) s = .next (s.takeTrap 2 s.seq.latch.bits) := by
  cases hop : scopedOp f with
  | none =>
    refine traps_of_finish rfl ?_
    simp only [hop]
    rfl
  | some o =>
    have hf : ¬ 10 ≤ f.toNat := fun hle => by simp [scopedOp_eq_none.mpr hle] at hop
    refine traps_of_finish rfl ?_
    simp only [hop]
    exact if_pos (h.resolve_left hf)

end

/-- Settles O18, from the equation of each form: LR, SC, the other standard AMOs and the scoped ones. -/
theorem atomicsAnswerTheOldValue : Obligations.AtomicsAnswerTheOldValue := by
  unfold Obligations.AtomicsAnswerTheOldValue
  intro s s0 s1 rd rs1 rs2 d old
  refine ⟨fun op aq rl hlr hsc hcas hamo => ?_, fun aq rl hord hlr => ⟨?_, State.lrAt_reserves hlr⟩,
    fun aq rl hord hsc => ⟨?_, State.scAt_unreserved hsc, ?_, fun l s2 => State.scAt_without hsc⟩, fun op aq rl hcas hlr hsc hal => ?_,
    fun op aq rl hop hord hal => ?_, fun op o scope hop hscope hamo => ?_, fun op scope hres => ?_, fun op scope hop hscope hal => ?_,
    fun rl aq => State.ordered_eq s rl aq⟩
  · exact completes_of_ok (standardAmo_amo hlr hsc hcas) (Res.bind_of_ok hamo)
  · exact completes_of_ok standardAmo_lr (Res.bind_of_ok ((Res.bind_of_ok hord).trans hlr))
  · exact completes_of_ok standardAmo_sc (Res.bind_of_ok ((Res.bind_of_ok hord).trans hsc))
  · obtain ⟨l, u, -, ⟨-, hold, -⟩ | ⟨-, hold, -⟩⟩ := State.scAt_cases hsc
    · exact .inl hold
    · exact .inr hold
  · exact traps_of_finish (standardAmo_amo hlr hsc hcas) (Res.bind_of_trap (State.amoAt_misaligned hal))
  · rcases hop with rfl | rfl
    · exact traps_of_finish standardAmo_lr (Res.bind_of_trap ((Res.bind_of_ok hord).trans (if_pos hal)))
    · exact traps_of_finish standardAmo_sc (Res.bind_of_trap ((Res.bind_of_ok hord).trans (if_pos hal)))
  · exact completes_of_ok (amoScoped_amo hop hscope) (Res.bind_of_ok hamo)
  · exact amoScoped_reserved hres
  · obtain ⟨o, ho⟩ := Option.ne_none_iff_exists'.mp fun hnone => Nat.not_le.mpr hop (scopedOp_eq_none.mp hnone)
    exact traps_of_finish (amoScoped_amo ho hscope) (Res.bind_of_trap (State.amoAt_misaligned hal))

end Sys2Proof.Machine
end

section
/-! Bit fields of a word or a vector register: what a field holds after a field was written. -/

namespace Sys2Proof.Machine

/-- n bits from lo, of any bit vector, and the vector with those bits replaced: getBits and putBits of a word, getSlice and setSlice of a vector
register. -/
def getField {m : Nat} (w : BitVec m) (lo n : Nat) : Nat := w.toNat / 2 ^ lo % 2 ^ n
def setField {m : Nat} (w : BitVec m) (lo n v : Nat) : BitVec m :=
  (w &&& ~~~(BitVec.ofNat m ((2 ^ n - 1) * 2 ^ lo))) ||| BitVec.ofNat m (v % 2 ^ n * 2 ^ lo)

section
variable {m : Nat} {w : BitVec m} {lo n v lo' n' : Nat}

theorem testBit_getField (i : Nat) : (getField w lo n).testBit i = (decide (i < n) && w.getLsbD (lo + i)) := by
  rw [getField, Nat.testBit_mod_two_pow, Nat.testBit_div_two_pow, BitVec.testBit_toNat, Nat.add_comm]

theorem getLsbD_setField (h : lo + n ≤ m) (j : Nat) :
    (setField w lo n v).getLsbD j = if lo ≤ j ∧ j < lo + n then v.testBit (j - lo) else w.getLsbD j := by
  have hfield : (decide (j < m) && (decide (lo ≤ j) && decide (j - lo < n))) = decide (lo ≤ j ∧ j < lo + n) := by
    rw [← Bool.decide_and, ← Bool.decide_and]
    exact decide_eq_decide.mpr (by omega)
  have hmask : (BitVec.ofNat m ((2 ^ n - 1) * 2 ^ lo)).getLsbD j = decide (lo ≤ j ∧ j < lo + n) := by
    rw [BitVec.getLsbD_ofNat, Nat.testBit_mul_two_pow, Nat.testBit_two_pow_sub_one, hfield]
  have hval : (BitVec.ofNat m (v % 2 ^ n * 2 ^ lo)).getLsbD j = (decide (lo ≤ j ∧ j < lo + n) && v.testBit (j - lo)) := by
    rw [BitVec.getLsbD_ofNat, Nat.testBit_mul_two_pow, Nat.testBit_mod_two_pow, ← hfield]
    simp only [Bool.and_assoc]
  have hout (hj : m ≤ j) : w.getLsbD j = false := BitVec.getLsbD_of_ge w j hj
  simp only [setField, BitVec.getLsbD_or, BitVec.getLsbD_and, BitVec.getLsbD_not, hmask, hval]
  by_cases hj : lo ≤ j ∧ j < lo + n
  · simp [hj]
  · by_cases hjm : j < m
    · simp [hj, hjm]
    · simp [hj, hout (by omega)]

/-- A field reads what was written to it. -/
theorem getField_setField_same (h : lo + n ≤ m) : getField (setField w lo n v) lo n = v % 2 ^ n := by
  refine Nat.eq_of_testBit_eq fun i => ?_
  rw [testBit_getField, getLsbD_setField h, Nat.testBit_mod_two_pow]
  by_cases hi : i < n
  · rw [if_pos (by omega), Nat.add_sub_cancel_left]
  · simp [hi]

/-- A write leaves the other fields. -/
theorem getField_setField_other (h : lo + n ≤ m) (hd : lo' + n' ≤ lo ∨ lo + n ≤ lo') : getField (setField w lo n v) lo' n' = getField w lo' n' := by
  refine Nat.eq_of_testBit_eq fun i => ?_
  rw [testBit_getField, testBit_getField, getLsbD_setField h]
  by_cases hi : i < n'
  · rw [if_neg (by omega)]
  · simp [hi]

end

section
variable {w : Word} {lo n v lo' n' : Nat}

theorem getBits_putBits_same (h : lo + n ≤ 64) : getBits (putBits w lo n v) lo n = v % 2 ^ n := getField_setField_same h

theorem getBits_putBits_other (h : lo + n ≤ 64) (hd : lo' + n' ≤ lo ∨ lo + n ≤ lo') : getBits (putBits w lo n v) lo' n' = getBits w lo' n' :=
  getField_setField_other h hd

theorem getLsbD_putBits_other {j : Nat} (h : lo + n ≤ 64) (hd : j < lo ∨ lo + n ≤ j) : (putBits w lo n v).getLsbD j = w.getLsbD j :=
  (getLsbD_setField h j).trans (if_neg (by omega))

theorem getBits_lt (w : Word) (lo n : Nat) : getBits w lo n < 2 ^ n := Nat.mod_lt _ (Nat.two_pow_pos n)

end

section
variable {r : VBits} {off w v off' : Nat}

theorem getSlice_setSlice_same (h : off + w ≤ 65536) : getSlice (setSlice r off w v) off w = v % 2 ^ w := getField_setField_same h

theorem getSlice_setSlice_other (h : off + w ≤ 65536) (hd : off' + w ≤ off ∨ off + w ≤ off') :
    getSlice (setSlice r off w v) off' w = getSlice r off' w := getField_setField_other h hd

end

end Sys2Proof.Machine
end

section
/-! CSR and scalar floating-point instructions. -/

namespace Sys2Proof.Machine
open Sys2Proof.Machine.Claim

section
variable {s : State} {op : CsrOp} {imm : Bool} {rd src : Reg} {csr : BitVec 12}

theorem csrWrites_eq : (op == .rw || src != 0) = csrWrites op src := rfl

/-- A CSR instruction of a number that may be named and that names something. -/
theorem csrAccess_performs {old : Word} (hok : s.csrOk csr.toNat (csrWrites op src) = true) (hread : s.csrRead csr.toNat = some old) :
    exec (.csrAccess op imm rd src csr) s = finish (.ok () ((if csrWrites op src then
      s.csrWrite csr.toNat (csrNew op old (if imm then src.setWidth 64 else s.x src)) else s).setX rd old)) := by
  refine congrArg finish ?_
  simp only [csrWrites_eq, hok, hread, if_true]
  cases op <;> rfl

theorem csrAccess_refused (h : s.csrOk csr.toNat (csrWrites op src) = false ∨ s.csrRead csr.toNat = none) :
    exec (.csrAccess op imm rd src csr) s = .next (s.takeTrap 2 s.seq.latch.bits) := by
  refine congrArg finish (a₂ := .trap 2 s.tvalBits s) ?_
  rcases h with hok | hread
  · simp only [csrWrites_eq, hok, Bool.false_eq_true, if_false]
    rfl
  · simp only [hread, ite_self]
    rfl

end

/-- Settles O26: a CSR instruction performs its read and write where the number may be named, and is refused elsewhere. -/
theorem csrInstructionsReadAndWrite : Obligations.CsrInstructionsReadAndWrite := by
  unfold Obligations.CsrInstructionsReadAndWrite
  intro s op imm rd src csr
  refine ⟨fun old hok hread => completes_of_finish (csrAccess_performs hok hread), csrAccess_refused, fun hro hwrites => csrAccess_refused (.inl ?_),
    fun hmode => csrAccess_refused (.inl ?_)⟩
  · simp [State.csrOk, hro, hwrites]
  · simp [State.csrOk, Nat.not_le.mpr hmode]

section
variable {s : State} {op : FpOp} {fmt : FpFmt} {rd rs1 rs2 rs3 : Reg} {rm : BitVec 3} {fl : BitVec 5}

theorem fpOp_off (hoff : s.fpOn = false) : exec (.fpOp op fmt rd rs1 rs2 rs3 rm) s = .next (s.takeTrap 2 s.seq.latch.bits) :=
  traps_of_finish rfl (if_pos (by simp [hoff]))

/-- With FS on the operation's answer decides. -/
theorem fpOp_on (hon : s.fpOn = true) : exec (.fpOp op fmt rd rs1 rs2 rs3 rm) s = finish (match fpResult s op fmt rs1 rs2 rs3 rm with
    | .f v fl => .ok () ((s.fpFlag fl).setF rd (box (FpFmt.ffmt fmt) v))
    | .x v fl => .ok () ((if fl = 0 then s else s.fpFlag fl).setX rd v)
    | .bad => s.illegal) :=
  congrArg finish (if_neg (by simp [hon]))

theorem fpFlag_dirty (s : State) (fl : BitVec 5) : getBits (s.fpFlag fl).seq.priv.mstatus 13 2 = 3 :=
  getBits_putBits_same (by decide)

/-- The flags of an operation with an x result. -/
theorem flagged_reads (s : State) (fl : BitVec 5) {u : State} (hu : u = if fl = 0 then s else s.fpFlag fl) :
    (∀ r, u.x r = s.x r) ∧ (∀ r, u.f r = s.f r) ∧ u.seq.fflags = s.seq.fflags ||| fl ∧ u.seq.vec = s.seq.vec ∧ KeepsOthers s u ∧ u.mem = s.mem := by
  split_ifs at hu with hfl
  · subst hu hfl
    exact ⟨fun _ => rfl, fun _ => rfl, BitVec.or_zero.symm, rfl, rfl, rfl⟩
  · subst hu
    exact ⟨fun _ => rfl, fun _ => rfl, rfl, rfl, rfl, rfl⟩

theorem State.x_setX_self (s : State) (r : Reg) (v : Word) : (s.setX r v).x r = if r = 0 then 0 else v := by
  rw [State.x_setX]
  split_ifs with hr hz hz
  · exact absurd hz hr.2
  · rfl
  · rw [hz, State.x_zero]
  · exact absurd ⟨rfl, hz⟩ hr

theorem Claim.KeepsOthers.trans {e t : State} (h : KeepsOthers s e) (h' : KeepsOthers e t) : KeepsOthers s t :=
  Eq.trans h' (congrArg (fun u : State => { u with seq := t.seq }) h)

theorem setX_seq_reads (u : State) (rd : Reg) (v : Word) : (u.setX rd v).seq.fflags = u.seq.fflags ∧ (u.setX rd v).seq.vec = u.seq.vec := by
  have hseq : (u.setX rd v).seq = { u.seq with x := (u.setX rd v).seq.x } := Seq.wx_eq u.seq rd v
  rw [hseq]
  exact ⟨rfl, rfl⟩

/-- What the registers and the status read after an instruction has retired is what its effect left. -/
theorem Claim.Retired.reads {e t : State} {next : Word} (h : Retired e next t) :
    (∀ r, t.x r = e.x r) ∧ (∀ r, t.f r = e.f r) ∧ t.seq.fflags = e.seq.fflags ∧ t.seq.priv.mstatus = e.seq.priv.mstatus ∧ t.seq.vec = e.seq.vec := by
  obtain ⟨hx, hf, hvec, -⟩ := h.hart.keeps
  have hart := h.hart
  unfold RetiredFrom at hart
  refine ⟨fun r => ?_, fun r => ?_, ?_, ?_, hvec⟩
  · rw [State.x, State.x, Seq.rx, Seq.rx, hx]
  · rw [State.f, State.f, Seq.rf, Seq.rf, hf]
  all_goals rw [hart]

theorem fpOp_toF {v : Nat} (hon : s.fpOn = true) (hres : fpResult s op fmt rs1 rs2 rs3 rm = .f v fl) :
    ∃ t, exec (.fpOp op fmt rd rs1 rs2 rs3 rm) s = .next t ∧
      t.f rd = box (FpFmt.ffmt fmt) v ∧ (∀ r, r ≠ rd → t.f r = s.f r) ∧ (∀ r, t.x r = s.x r) ∧
      t.seq.fflags = s.seq.fflags ||| fl ∧ getBits t.seq.priv.mstatus 13 2 = 3 ∧ t.seq.vec = s.seq.vec ∧
      KeepsOthers s t ∧ ∀ a, memGet t.mem a = memGet s.mem a := by
  obtain ⟨t, hexec, hret⟩ := completes_of_ok (fpOp_on (rd := rd) hon) (by rw [hres])
  obtain ⟨hx, hf, hflags, hstatus, hvec⟩ := hret.reads
  refine ⟨t, hexec, ?_, fun r hr => ?_, hx, hflags, ?_, hvec, hret.others, hret.memory⟩
  · rw [hf, State.f_setF, if_pos rfl]
  · rw [hf, State.f_setF, if_neg hr]
    rfl
  · rw [hstatus]
    exact fpFlag_dirty s fl

theorem fpOp_toX {v : Word} (hon : s.fpOn = true) (hres : fpResult s op fmt rs1 rs2 rs3 rm = .x v fl) :
    ∃ t, exec (.fpOp op fmt rd rs1 rs2 rs3 rm) s = .next t ∧
      t.x rd = (if rd = 0 then 0 else v) ∧ (∀ r, r ≠ rd → t.x r = s.x r) ∧ (∀ r, t.f r = s.f r) ∧
      t.seq.fflags = s.seq.fflags ||| fl ∧ t.seq.vec = s.seq.vec ∧ KeepsOthers s t ∧ ∀ a, memGet t.mem a = memGet s.mem a := by
  obtain ⟨t, hexec, hret⟩ := completes_of_ok (fpOp_on (rd := rd) hon) (by rw [hres])
  obtain ⟨hx, hf, hflags, -, hvec⟩ := hret.reads
  obtain ⟨hux, huf, huflags, huvec, huothers, humem⟩ := flagged_reads s fl rfl
  obtain ⟨hsflags, hsvec⟩ := setX_seq_reads (if fl = 0 then s else s.fpFlag fl) rd v
  refine ⟨t, hexec, ?_, fun r hr => ?_, fun r => ?_, hflags.trans (hsflags.trans huflags), hvec.trans (hsvec.trans huvec), ?_, fun a => ?_⟩
  · rw [hx, State.x_setX_self]
  · rw [hx, State.x_setX, if_neg fun h => hr h.1, hux]
  · rw [hf, State.f_setX, huf]
  · exact (huothers.upd fun q => q.wx rd v).trans hret.others
  · rw [hret.memory, State.setX_mem, humem]

end

/-- Settles O25: FS decides whether the instruction is legal, and the operation's answer what it writes. -/
theorem fpInstructionsDeliverResultAndFlags : Obligations.FpInstructionsDeliverResultAndFlags := by
  unfold Obligations.FpInstructionsDeliverResultAndFlags
  intro s op fmt rd rs1 rs2 rs3 rm
  refine ⟨fpOp_off, fun hon => ⟨fun hbad => ?_, fun v fl => fpOp_toF hon, fun v fl => fpOp_toX hon⟩⟩
  exact traps_of_finish (fpOp_on hon) (by rw [hbad]; rfl)

end Sys2Proof.Machine
end

section
/-! Taking a trap and returning from it. -/

namespace Sys2Proof.Machine
open Sys2Proof.Machine.Claim

section
variable {s : State} {q : Seq} {c : Nat} {v epc : Word}

theorem takeTrap_of_plain (h : plainCause c) : s.takeTrap c v = s.upd fun q => q.trapTo (s.seePc s.hart s.seq.pc) c v := by
  obtain ⟨h28, h49, hepend⟩ := h
  simp [State.takeTrap, h28, h49, hepend]

theorem Seq.trapTo_keeps : (q.trapTo epc c v).x = q.x ∧ (q.trapTo epc c v).f = q.f ∧ (q.trapTo epc c v).fflags = q.fflags ∧
    (q.trapTo epc c v).loops = q.loops ∧ (q.trapTo epc c v).vec = { q.vec with vstart := 0 } ∧ (q.trapTo epc c v).ctl = q.ctl ∧
    (q.trapTo epc c v).task = q.task := by
  unfold Seq.trapTo
  dsimp only
  split <;> exact ⟨rfl, rfl, rfl, rfl, rfl, rfl, rfl⟩

theorem Seq.trapTo_delegated (hm : q.mode ≠ .m) (hd : q.priv.medeleg.getLsbD c = true) :
    (q.trapTo epc c v).mode = .s ∧ (q.trapTo epc c v).priv = (q.enterS epc (BitVec.ofNat 64 c) v 0).priv ∧
      (q.trapTo epc c v).pc = q.priv.stvec &&& ~~~3 := by
  unfold Seq.trapTo
  dsimp only
  rw [if_pos ⟨hm, hd⟩]
  exact ⟨rfl, rfl, BitVec.add_zero _⟩

theorem Seq.trapTo_machine (h : q.mode = .m ∨ q.priv.medeleg.getLsbD c = false) :
    (q.trapTo epc c v).mode = .m ∧ (q.trapTo epc c v).priv = (q.enterM epc (BitVec.ofNat 64 c) v 0).priv ∧
      (q.trapTo epc c v).pc = q.priv.mtvec &&& ~~~3 := by
  unfold Seq.trapTo
  dsimp only
  rw [if_neg]
  · exact ⟨rfl, rfl, BitVec.add_zero _⟩
  · rintro ⟨hm, hd⟩
    rcases h with h | h
    · exact hm h
    · rw [hd] at h
      cases h

theorem Seq.enterS_status {cause : Word} {off : Nat} : getBits (q.enterS epc cause v off).priv.mstatus 8 1 = (if q.mode = .u then 0 else 1) ∧
    getBits (q.enterS epc cause v off).priv.mstatus 5 1 = getBits q.priv.mstatus 1 1 ∧ getBits (q.enterS epc cause v off).priv.mstatus 1 1 = 0 ∧
    (q.enterS epc cause v off).priv.mstatus.getLsbD 22 = q.priv.mstatus.getLsbD 22 := by
  unfold Seq.enterS
  refine ⟨?_, ?_, ?_, ?_⟩
  · rw [getBits_putBits_same (by decide)]
    split <;> rfl
  · rw [getBits_putBits_other (by decide) (by decide), getBits_putBits_other (by decide) (by decide), getBits_putBits_same (by decide)]
    exact Nat.mod_eq_of_lt (getBits_lt ..)
  · rw [getBits_putBits_other (by decide) (by decide), getBits_putBits_same (by decide)]
    rfl
  · rw [getLsbD_putBits_other (by decide) (by decide), getLsbD_putBits_other (by decide) (by decide), getLsbD_putBits_other (by decide) (by decide)]

theorem Seq.enterM_status {cause : Word} {off : Nat} : getBits (q.enterM epc cause v off).priv.mstatus 11 2 = modeCode q.mode ∧
    getBits (q.enterM epc cause v off).priv.mstatus 7 1 = getBits q.priv.mstatus 3 1 ∧ getBits (q.enterM epc cause v off).priv.mstatus 3 1 = 0 := by
  unfold Seq.enterM
  refine ⟨?_, ?_, ?_⟩
  · rw [getBits_putBits_same (by decide)]
    cases q.mode <;> rfl
  · rw [getBits_putBits_other (by decide) (by decide), getBits_putBits_other (by decide) (by decide), getBits_putBits_same (by decide)]
    exact Nat.mod_eq_of_lt (getBits_lt ..)
  · rw [getBits_putBits_other (by decide) (by decide), getBits_putBits_same (by decide)]
    rfl

end

/-- Settles O28: a plain cause only changes the running hart, which enters S or M mode as medeleg says. -/
theorem trapEntrySavesAndVectors : Obligations.TrapEntrySavesAndVectors := by
  unfold Obligations.TrapEntrySavesAndVectors
  intro s c v hc
  rw [takeTrap_of_plain hc]
  refine ⟨?_, fun hm hd => ?_, fun hm => ?_⟩
  · obtain ⟨hx, hf, hflags, hloops, hvec, hctl, -⟩ := Seq.trapTo_keeps (q := s.seq) (c := c) (v := v) (epc := s.seePc s.hart s.seq.pc)
    exact ⟨rfl, hx, hf, hflags, hloops, hvec, hctl, fun _ => rfl⟩
  · obtain ⟨hmode, hpriv, hpc⟩ := Seq.trapTo_delegated (q := s.seq) (c := c) (v := v) (epc := s.seePc s.hart s.seq.pc) hm hd
    obtain ⟨hspp, hspie, hsie, -⟩ := Seq.enterS_status (q := s.seq) (v := v) (epc := s.seePc s.hart s.seq.pc) (cause := BitVec.ofNat 64 c) (off := 0)
    dsimp only [State.upd]
    rw [hpriv]
    exact ⟨hmode, rfl, rfl, rfl, hpc, hspp, hspie, hsie, rfl, rfl, rfl⟩
  · obtain ⟨hmode, hpriv, hpc⟩ := Seq.trapTo_machine (q := s.seq) (c := c) (v := v) (epc := s.seePc s.hart s.seq.pc) hm
    obtain ⟨hmpp, hmpie, hmie⟩ := Seq.enterM_status (q := s.seq) (v := v) (epc := s.seePc s.hart s.seq.pc) (cause := BitVec.ofNat 64 c) (off := 0)
    dsimp only [State.upd]
    rw [hpriv]
    exact ⟨hmode, rfl, rfl, rfl, hpc, hmpp, hmpie, hmie, rfl, rfl, rfl⟩

/-- What a program finds of a hart after it returned. -/
def Seq.visible (q : Seq) : Word × Mode × Vector Word 32 × Vector Word 32 × Vec × BitVec 5 × Word :=
  (q.pc, q.mode, q.x, q.f, q.vec, q.fflags, q.priv.mstatus)

section
variable {s e t : State} {q : Seq}

theorem Seq.afterSret_visible (q : Seq) (sepc : Word) (time : Nat) : (q.afterSret sepc time).visible = q.visible := by
  unfold Seq.afterSret
  split
  · dsimp only
    split
    · unfold Seq.haltIdle
      split <;> rfl
    · rfl
  · rfl

theorem State.openEdge_visible (s : State) : s.openEdge.seq.visible = s.seq.visible := by
  unfold State.openEdge
  split <;> rfl

theorem State.openEdge_keepsOthers (s : State) : KeepsOthers s s.openEdge := by
  unfold State.openEdge
  split <;> rfl

/-- What a program finds after a transfer is what its effect left, and the pc where it goes. -/
theorem returned {next : Word} (ht : t.seq.visible = (e.retire next true).seq.visible) :
    (e.seq.loops = [] → e.seq.task = none → t.seq.pc = next) ∧ t.seq.mode = e.seq.mode ∧ t.seq.priv.mstatus = e.seq.priv.mstatus ∧
      t.seq.x = e.seq.x ∧ t.seq.f = e.seq.f ∧ t.seq.vec = e.seq.vec ∧ t.seq.fflags = e.seq.fflags := by
  have hret := retired_retire e next true
  have hart := hret.hart
  unfold RetiredFrom at hart
  simp only [Seq.visible, Prod.mk.injEq] at ht
  obtain ⟨hpc, hmode, hx, hf, hvec, hflags, hstatus⟩ := ht
  refine ⟨fun hl hn => hpc.trans (hret.onward hl (.inl hn)), hmode.trans ?_, hstatus.trans ?_, hx.trans ?_, hf.trans ?_, hvec.trans ?_, hflags.trans ?_⟩
  all_goals rw [hart]

theorem State.returnPc_of_no_task (h : s.seq.task = none) (a : Word) : s.returnPc a = a &&& ~~~1 := by
  simp [State.returnPc, State.objOf, h]

theorem State.seePc_of_no_task (h : s.seq.task = none) (a : Word) : s.seePc s.hart a = a := by
  simp [State.seePc, State.inTrans, State.objOf, h]

theorem Claim.KeepsOthers.memory (h : KeepsOthers s t) (a : Nat) : memGet t.mem a = memGet s.mem a := by
  unfold KeepsOthers at h
  rw [h]

theorem and_not_one_of_even {a : Word} (h : a &&& 1 = 0) : a &&& ~~~1 = a := by
  have hsplit : (a &&& 1) ||| (a &&& ~~~1) = a := by
    rw [← BitVec.and_or_distrib_left, BitVec.or_not_self, BitVec.and_allOnes]
  rwa [h, show (0 : Word) ||| (a &&& ~~~1) = a &&& ~~~1 from BitVec.zero_or] at hsplit

theorem sret_allowed (h : s.seq.mode = .m ∨ (s.seq.mode = .s ∧ s.seq.priv.mstatus.getLsbD 22 = false)) :
    exec .sret s = .next ((((s.upd Seq.leaveS).retire (s.returnPc s.seq.priv.sepc) true).openEdge).upd fun x => x.afterSret s.seq.priv.sepc s.time) := by
  refine if_neg ?_
  rintro (hu | ⟨hs, htsr⟩)
  · rcases h with h | ⟨h, -⟩ <;> rw [h] at hu <;> cases hu
  · rcases h with h | ⟨-, h⟩
    · rw [h] at hs; cases hs
    · rw [h] at htsr; cases htsr

theorem sret_refused (h : s.seq.mode = .u ∨ (s.seq.mode = .s ∧ s.seq.priv.mstatus.getLsbD 22 = true)) :
    exec .sret s = .next (s.takeTrap 2 s.seq.latch.bits) := if_pos h

theorem Seq.leaveS_status : getBits q.leaveS.priv.mstatus 1 1 = getBits q.priv.mstatus 5 1 ∧ getBits q.leaveS.priv.mstatus 5 1 = 1 ∧
    getBits q.leaveS.priv.mstatus 8 1 = 0 ∧ getBits q.leaveS.priv.mstatus 17 1 = 0 := by
  unfold Seq.leaveS
  refine ⟨?_, ?_, ?_, getBits_putBits_same (by decide)⟩
  · rw [getBits_putBits_other (by decide) (by decide), getBits_putBits_other (by decide) (by decide), getBits_putBits_other (by decide) (by decide),
      getBits_putBits_same (by decide)]
    exact Nat.mod_eq_of_lt (getBits_lt ..)
  · rw [getBits_putBits_other (by decide) (by decide), getBits_putBits_other (by decide) (by decide), getBits_putBits_same (by decide)]
    rfl
  · rw [getBits_putBits_other (by decide) (by decide), getBits_putBits_same (by decide)]
    rfl

theorem Seq.leaveM_status : getBits q.leaveM.priv.mstatus 3 1 = getBits q.priv.mstatus 7 1 ∧ getBits q.leaveM.priv.mstatus 7 1 = 1 ∧
    getBits q.leaveM.priv.mstatus 11 2 = 0 := by
  have hmprv (w : Word) (lo n : Nat) (hd : lo + n ≤ 17) :
      getBits (if modeOf (getBits q.priv.mstatus 11 2) = .m then w else putBits w 17 1 0) lo n = getBits w lo n := by
    split
    · rfl
    · exact getBits_putBits_other (by decide) (.inl hd)
  unfold Seq.leaveM
  refine ⟨(hmprv _ 3 1 (by decide)).trans ?_, (hmprv _ 7 1 (by decide)).trans ?_, (hmprv _ 11 2 (by decide)).trans ?_⟩
  · rw [getBits_putBits_other (by decide) (by decide), getBits_putBits_other (by decide) (by decide), getBits_putBits_same (by decide)]
    exact Nat.mod_eq_of_lt (getBits_lt ..)
  · rw [getBits_putBits_other (by decide) (by decide), getBits_putBits_same (by decide)]
    rfl
  · rw [getBits_putBits_same (by decide)]
    rfl

/-- sret, where the mode may execute it. -/
theorem sret_returns (h : s.seq.mode = .m ∨ (s.seq.mode = .s ∧ s.seq.priv.mstatus.getLsbD 22 = false)) :
    ∃ t, exec .sret s = .next t ∧ (s.seq.loops = [] → s.seq.task = none → t.seq.pc = s.seq.priv.sepc &&& ~~~1) ∧
      t.seq.mode = (if getBits s.seq.priv.mstatus 8 1 = 1 then .s else .u) ∧ t.seq.priv.mstatus = s.seq.leaveS.priv.mstatus ∧
      t.seq.x = s.seq.x ∧ t.seq.f = s.seq.f ∧ t.seq.vec = s.seq.vec ∧ t.seq.fflags = s.seq.fflags ∧ KeepsOthers s t ∧
      ∀ a, memGet t.mem a = memGet s.mem a := by
  let r := (s.upd Seq.leaveS).retire (s.returnPc s.seq.priv.sepc) true
  have hvis : (r.openEdge.upd fun x => x.afterSret s.seq.priv.sepc s.time).seq.visible = r.seq.visible :=
    (Seq.afterSret_visible ..).trans (State.openEdge_visible r)
  have hothers : KeepsOthers s r := (retired_retire (s.upd Seq.leaveS) _ true).others
  obtain ⟨hpc, hmode, hstatus, hx, hf, hvec, hflags⟩ := returned hvis
  have hkept := (hothers.trans (State.openEdge_keepsOthers r)).upd fun x => x.afterSret s.seq.priv.sepc s.time
  exact ⟨_, sret_allowed h, fun hl hn => (hpc hl hn).trans (State.returnPc_of_no_task hn _), hmode, hstatus, hx, hf, hvec, hflags, hkept, hkept.memory⟩

theorem mret_returns (h : s.seq.mode = .m) :
    ∃ t, exec .mret s = .next t ∧ (s.seq.loops = [] → s.seq.task = none → t.seq.pc = s.seq.priv.mepc &&& ~~~1) ∧
      t.seq.mode = modeOf (getBits s.seq.priv.mstatus 11 2) ∧ t.seq.priv.mstatus = s.seq.leaveM.priv.mstatus ∧
      t.seq.x = s.seq.x ∧ t.seq.f = s.seq.f ∧ t.seq.vec = s.seq.vec ∧ t.seq.fflags = s.seq.fflags ∧ KeepsOthers s t ∧
      ∀ a, memGet t.mem a = memGet s.mem a := by
  let r := (s.upd Seq.leaveM).retire (s.returnPc s.seq.priv.mepc) true
  have hothers : KeepsOthers s r := (retired_retire (s.upd Seq.leaveM) _ true).others
  obtain ⟨hpc, hmode, hstatus, hx, hf, hvec, hflags⟩ := returned (State.openEdge_visible r)
  have hkept := hothers.trans (State.openEdge_keepsOthers r)
  exact ⟨_, if_neg (not_not.mpr h), fun hl hn => (hpc hl hn).trans (State.returnPc_of_no_task hn _), hmode, hstatus, hx, hf, hvec, hflags, hkept,
    hkept.memory⟩

/-- A delegated trap of a U-mode hart without a task, and its sret. -/
theorem trap_then_sret {c : Nat} {v : Word} (hc : plainCause c) (hu : s.seq.mode = .u) (htask : s.seq.task = none) (hloops : s.seq.loops = [])
    (hd : s.seq.priv.medeleg.getLsbD c = true) (htsr : s.seq.priv.mstatus.getLsbD 22 = false) (hpc : s.seq.pc &&& 1 = 0) :
    ∃ t, exec .sret (s.takeTrap c v) = .next t ∧ t.seq.pc = s.seq.pc ∧ t.seq.mode = .u ∧ t.seq.x = s.seq.x ∧ t.seq.f = s.seq.f ∧
      getBits t.seq.priv.mstatus 1 1 = getBits s.seq.priv.mstatus 1 1 ∧ (∀ a, memGet t.mem a = memGet s.mem a) := by
  have hepc : s.seePc s.hart s.seq.pc = s.seq.pc := State.seePc_of_no_task htask _
  have htrap := takeTrap_of_plain (s := s) (v := v) hc
  rw [hepc] at htrap
  rw [htrap]
  obtain ⟨hmode, hpriv, -⟩ := Seq.trapTo_delegated (q := s.seq) (c := c) (v := v) (epc := s.seq.pc) (by rw [hu]; decide) hd
  obtain ⟨hx, hf, -, hl, -, -, hn⟩ := Seq.trapTo_keeps (q := s.seq) (c := c) (v := v) (epc := s.seq.pc)
  obtain ⟨hspp, hspie, -, hbit⟩ := Seq.enterS_status (q := s.seq) (v := v) (epc := s.seq.pc) (cause := BitVec.ofNat 64 c) (off := 0)
  obtain ⟨t, hexec, htpc, htmode, htstatus, htx, htf, -, -, -, hmem⟩ :=
    sret_returns (s := s.upd fun q => q.trapTo s.seq.pc c v) (.inr ⟨hmode, by rw [State.upd, hpriv, hbit, htsr]⟩)
  refine ⟨t, hexec, ?_, ?_, htx.trans hx, htf.trans hf, ?_, hmem⟩
  · have hsepc : (s.seq.trapTo s.seq.pc c v).priv.sepc = s.seq.pc := congrArg Priv.sepc hpriv
    exact (htpc (hl.trans hloops) (hn.trans htask)).trans ((congrArg (· &&& ~~~1) hsepc).trans (and_not_one_of_even hpc))
  · rw [htmode, State.upd, hpriv, hspp, hu]
    rfl
  · rw [htstatus]
    exact Seq.leaveS_status.1.trans ((congrArg (fun p : Priv => getBits p.mstatus 5 1) hpriv).trans hspie)

end

/-- Settles O31: each return is a transfer from the state that leaveS or leaveM gives; the round trip joins trap entry and sret. -/
theorem returnsRestoreModeAndInterruptEnable : Obligations.ReturnsRestoreModeAndInterruptEnable := by
  unfold Obligations.ReturnsRestoreModeAndInterruptEnable
  refine ⟨fun s => ⟨fun h => ?_, sret_refused, fun h => ?_, fun h => if_pos h⟩, fun s c v => trap_then_sret⟩
  · obtain ⟨t, hexec, hpc, hmode, hstatus, hx, hf, hvec, hflags, hkept, hmem⟩ := sret_returns h
    obtain ⟨hsie, hspie, hspp, hmprv⟩ := Seq.leaveS_status (q := s.seq)
    rw [← hstatus] at hsie hspie hspp hmprv
    exact ⟨t, hexec, hpc, hmode, hsie, hspie, hspp, hmprv, hx, hf, hvec, hflags, hkept, hmem⟩
  · obtain ⟨t, hexec, hpc, hmode, hstatus, hx, hf, hvec, hflags, hkept, hmem⟩ := mret_returns h
    obtain ⟨hmie, hmpie, hmpp⟩ := Seq.leaveM_status (q := s.seq)
    rw [← hstatus] at hmie hmpie hmpp
    exact ⟨t, hexec, hpc, hmode, hmie, hmpie, hmpp, hx, hf, hvec, hflags, hkept, hmem⟩

end Sys2Proof.Machine
end

section
/-! Elements of register groups (R111): which register and which bits hold an element, and what writing elements leaves. -/

namespace Sys2Proof.Machine

section
variable {v : Vec} {vb w n i j r x : Nat}

theorem Vec.reg_setReg (hr : r < 32) (k : Nat) (b : VBits) : (v.setReg r b).reg k = if k = r then b else v.reg k := by
  unfold Vec.reg Vec.setReg
  rw [dif_pos hr]
  by_cases hk : k < 32
  · rw [dif_pos hk, dif_pos hk]
    by_cases hkr : k = r
    · subst hkr; simp
    · simp [hkr, Vector.getElem_set_ne _ _ (Ne.symm hkr)]
  · rw [dif_neg hk, dif_neg hk, if_neg (by omega)]

theorem Vec.setReg_eq (v : Vec) (r : Nat) (b : VBits) : v.setReg r b = { v with regs := (v.setReg r b).regs } := by
  unfold Vec.setReg
  split <;> rfl

/-- Writing an element changes no field but the registers. -/
theorem Vec.put_eq (v : Vec) (vb w j x : Nat) : v.put vb w j x = { v with regs := (v.put vb w j x).regs } := Vec.setReg_eq ..

theorem Vec.put_vlen (v : Vec) (vb w j x : Nat) : (v.put vb w j x).vlen = v.vlen := by
  rw [Vec.put_eq]

/-- An element lies within one register. -/
theorem elem_within {vlen : Nat} (hpos : 0 < vlen) (hdvd : w ∣ vlen) (j : Nat) : j * w % vlen + w ≤ vlen := by
  obtain ⟨k, rfl⟩ := hdvd
  rw [Nat.mul_comm j w, Nat.mul_mod_mul_left]
  have hk : 0 < k := Nat.pos_of_mul_pos_left hpos
  calc w * (j % k) + w = w * (j % k + 1) := (Nat.mul_succ ..).symm
    _ ≤ w * k := Nat.mul_le_mul_left w (Nat.mod_lt j hk)

/-- Two elements in one register do not overlap. -/
theorem elem_disjoint {vlen : Nat} (hne : i ≠ j) (hreg : i * w / vlen = j * w / vlen) :
    i * w % vlen + w ≤ j * w % vlen ∨ j * w % vlen + w ≤ i * w % vlen := by
  have hi := Nat.div_add_mod (i * w) vlen
  have hj := Nat.div_add_mod (j * w) vlen
  rw [hreg] at hi
  rcases Nat.lt_or_gt_of_ne hne with hlt | hlt
  · have hle : (i + 1) * w ≤ j * w := Nat.mul_le_mul_right w hlt
    rw [Nat.succ_mul] at hle
    exact .inl (by omega)
  · have hle : (j + 1) * w ≤ i * w := Nat.mul_le_mul_right w hlt
    rw [Nat.succ_mul] at hle
    exact .inr (by omega)

/-- The registers of n elements. -/
theorem elem_reg_lt {vlen : Nat} (hpos : 0 < vlen) (hw : 0 < w) (hj : j < n) : j * w / vlen < (n * w + vlen - 1) / vlen := by
  have hle : (j + 1) * w ≤ n * w := Nat.mul_le_mul_right w hj
  rw [Nat.succ_mul] at hle
  calc j * w / vlen < j * w / vlen + 1 := Nat.lt_succ_self _
    _ = (j * w + vlen) / vlen := (Nat.add_div_right _ hpos).symm
    _ ≤ (n * w + vlen - 1) / vlen := Nat.div_le_div_right (by omega)

theorem Vec.get_put (hpos : 0 < v.vlen) (hdvd : w ∣ v.vlen) (hlen : v.vlen ≤ 65536) (hr : vb + j * w / v.vlen < 32) (i x : Nat) :
    (v.put vb w j x).get vb w i = if i = j then x % 2 ^ w else v.get vb w i := by
  have hwithin := elem_within hpos hdvd j
  unfold Vec.get
  rw [Vec.put_vlen, Vec.put, Vec.reg_setReg hr]
  by_cases hij : i = j
  · subst hij
    rw [if_pos rfl, if_pos rfl, getSlice_setSlice_same (by omega)]
  · rw [if_neg hij]
    split
    next hreg =>
      rw [getSlice_setSlice_other (by omega) (elem_disjoint hij (by omega)), hreg]
    next => rfl

theorem Vec.reg_put_other (hr : vb + j * w / v.vlen < 32) {k : Nat} (hk : k ≠ vb + j * w / v.vlen) : (v.put vb w j x).reg k = v.reg k := by
  rw [Vec.put, Vec.reg_setReg hr, if_neg hk]

end

section
variable {a : VAcc} {vb w n : Nat} {f : Nat → Option Elem}

/-- The registers after an element that f may write. -/
def Vec.putElem (v : Vec) (vb w j : Nat) (e : Option Elem) : Vec := match e with | some e => v.put vb w j e.val | none => v

theorem VAcc.fill_vec_succ (a : VAcc) (vb w n : Nat) (f : Nat → Option Elem) : (a.fill vb w f (n + 1)).vec = (a.fill vb w f n).vec.putElem vb w n (f n) := by
  cases hf : f n <;> simp [VAcc.fill, Vec.putElem, hf]

theorem VAcc.fill_eq (a : VAcc) (vb w n : Nat) (f : Nat → Option Elem) : (a.fill vb w f n).vec = { a.vec with regs := (a.fill vb w f n).vec.regs } := by
  induction n with
  | zero => rfl
  | succ n ih =>
    rw [VAcc.fill_vec_succ]
    unfold Vec.putElem
    split
    · rw [Vec.put_eq, ih]
    · exact ih

theorem VAcc.fill_vlen (a : VAcc) (vb w n : Nat) (f : Nat → Option Elem) : (a.fill vb w f n).vec.vlen = a.vec.vlen := by
  rw [VAcc.fill_eq]

section
variable (hw : 0 < w) (hpos : 0 < a.vec.vlen) (hr : vb + (n * w + a.vec.vlen - 1) / a.vec.vlen ≤ 32)
include hw hpos hr

/-- What the group holds after the elements below n, in ascending order. -/
theorem VAcc.fill_get (hdvd : w ∣ a.vec.vlen) (hlen : a.vec.vlen ≤ 65536) (i : Nat) : (a.fill vb w f n).vec.get vb w i =
    if i < n then (match f i with | some e => e.val % 2 ^ w | none => a.vec.get vb w i) else a.vec.get vb w i := by
  induction n with
  | zero => rfl
  | succ n ih =>
    have hfirst := elem_reg_lt (n := n + 1) hpos hw (Nat.lt_succ_self n)
    have hle : (n * w + a.vec.vlen - 1) / a.vec.vlen ≤ ((n + 1) * w + a.vec.vlen - 1) / a.vec.vlen :=
      Nat.div_le_div_right (by rw [Nat.succ_mul]; omega)
    have ih := ih (by omega)
    rw [VAcc.fill_vec_succ]
    cases hf : f n with
    | none =>
      rw [Vec.putElem, ih]
      by_cases hin : i = n
      · subst hin; simp [hf]
      · rw [if_congr (show i < n ↔ i < n + 1 by omega) rfl rfl]
    | some e =>
      have hget := Vec.get_put (v := (a.fill vb w f n).vec) (vb := vb) (w := w) (j := n) (by rwa [VAcc.fill_vlen]) (by rwa [VAcc.fill_vlen])
        (by rwa [VAcc.fill_vlen]) (by rw [VAcc.fill_vlen]; omega) i e.val
      rw [Vec.putElem, hget, ih]
      by_cases hin : i = n
      · subst hin; simp [hf]
      · rw [if_neg hin, if_congr (show i < n ↔ i < n + 1 by omega) rfl rfl]

/-- Registers outside the group keep their values. -/
theorem VAcc.fill_reg_outside {r : Nat} (hout : r < vb ∨ vb + (n * w + a.vec.vlen - 1) / a.vec.vlen ≤ r) :
    (a.fill vb w f n).vec.reg r = a.vec.reg r := by
  induction n with
  | zero => rfl
  | succ n ih =>
    have hfirst := elem_reg_lt (n := n + 1) hpos hw (Nat.lt_succ_self n)
    have hle : (n * w + a.vec.vlen - 1) / a.vec.vlen ≤ ((n + 1) * w + a.vec.vlen - 1) / a.vec.vlen :=
      Nat.div_le_div_right (by rw [Nat.succ_mul]; omega)
    have ih := ih (by omega) (by omega)
    rw [VAcc.fill_vec_succ]
    cases hf : f n with
    | none => exact ih
    | some e =>
      have hne : r ≠ vb + n * w / a.vec.vlen := by
        rcases hout with hlt | hge
        · exact Nat.ne_of_lt (Nat.lt_of_lt_of_le hlt (Nat.le_add_right ..))
        · exact Nat.ne_of_gt (by omega)
      rw [Vec.putElem, Vec.reg_put_other (by rw [VAcc.fill_vlen]; omega) (by rw [VAcc.fill_vlen]; exact hne)]
      exact ih

end

end

section
variable {act : Nat → Bool} {f : Nat → State → Res Unit} {n : Nat} {s s' : State}

/-- A run that ended at element i had performed those before it; element i trapped, and is not the first. -/
theorem runElems_some {i : Nat} (h : runElems act f n s = .ok (some i) s') : i < n ∧ act i = true ∧ 0 < i ∧
    ∃ c v s2, runElems act f i s = .ok none s' ∧ f i s' = .trap c v s2 := by
  induction n with
  | zero => cases h
  | succ n ih =>
    unfold runElems at h
    split at h
    next s1 hrun =>
      split at h
      next hact =>
        split at h
        next => cases h
        next c v s2 htrap =>
          split at h
          next => cases h
          next hn =>
            obtain ⟨hi, rfl⟩ := Res.ok.inj h
            obtain rfl := Option.some.inj hi
            exact ⟨Nat.lt_succ_self n, hact, Nat.pos_of_ne_zero hn, c, v, s2, hrun, htrap⟩
        next => cases h
      next => cases h
    next =>
      obtain ⟨hlt, hrest⟩ := ih h
      exact ⟨Nat.lt_succ_of_lt hlt, hrest⟩

/-- A run that traps does so at element 0, with the state as it was. -/
theorem runElems_trap {c : Nat} {v : Word} (h : runElems act f n s = .trap c v s') : s' = s ∧ act 0 = true ∧ ∃ s2, f 0 s = .trap c v s2 := by
  induction n with
  | zero => cases h
  | succ n ih =>
    unfold runElems at h
    split at h
    next s1 hrun =>
      split at h
      next hact =>
        split at h
        next => cases h
        next c' v' s2 htrap =>
          split at h
          next hn =>
            subst hn
            obtain ⟨-, rfl⟩ := Res.ok.inj hrun
            obtain ⟨rfl, rfl, rfl⟩ := Res.trap.inj h
            exact ⟨rfl, hact, s2, htrap⟩
          next => cases h
        next => cases h
      next => cases h
    next => exact ih h

/-- A whole run of n + 1 elements is one of n, then the last element if it is active. -/
theorem runElems_none_succ (h : runElems act f (n + 1) s = .ok none s') : ∃ s1, runElems act f n s = .ok none s1 ∧
    (act n = true → f n s1 = .ok () s') ∧ (act n = false → s' = s1) := by
  unfold runElems at h
  split at h
  next s1 hrun =>
    refine ⟨s1, hrun, fun hact => ?_, fun hact => ?_⟩
    · rw [if_pos hact] at h
      split at h
      next s2 hf =>
        obtain ⟨-, rfl⟩ := Res.ok.inj h
        exact hf
      next =>
        split at h <;> cases h
      next => cases h
    · rw [hact] at h
      obtain ⟨-, rfl⟩ := Res.ok.inj h
      rfl
  next hne => exact (hne _ h).elim

/-- What a whole run has done by each of its elements. -/
theorem runElems_none (h : runElems act f n s = .ok none s') {i : Nat} (hi : i < n) : ∃ s1, runElems act f i s = .ok none s1 ∧
    (act i = true → ∃ s2, f i s1 = .ok () s2 ∧ runElems act f (i + 1) s = .ok none s2) ∧
    (act i = false → runElems act f (i + 1) s = .ok none s1) := by
  induction n generalizing s' with
  | zero => exact absurd hi (Nat.not_lt_zero i)
  | succ n ih =>
    obtain ⟨s1, hrun, hactive, hidle⟩ := runElems_none_succ h
    rcases Nat.lt_succ_iff_lt_or_eq.mp hi with hlt | rfl
    · exact ih hrun hlt
    · exact ⟨s1, hrun, fun hact => ⟨s', hactive hact, h⟩, fun hact => hidle hact ▸ h⟩

end

/-- Settles O32, by induction on the elements, in both parts. -/
theorem vectorElementsAreTakenInOrder : Obligations.VectorElementsAreTakenInOrder := by
  unfold Obligations.VectorElementsAreTakenInOrder
  refine ⟨fun v vb w n f hw hpos hdvd hlen hr => ⟨fun i hi => ?_, fun r hout => VAcc.fill_reg_outside hw hpos hr hout, VAcc.fill_eq ..⟩,
    fun act f n s s' k => ⟨fun h i hk => ?_, fun c v => runElems_trap, fun h i => runElems_none h⟩⟩
  · exact (VAcc.fill_get (a := ⟨v, 0, false⟩) hw hpos hr (Nat.dvd_of_mod_eq_zero hdvd) hlen i).trans (if_pos hi)
  · subst hk
    obtain ⟨hlt, hact, hi, c, v, s2, hrun, htrap⟩ := runElems_some h
    exact ⟨hlt, hact, hi, s', c, v, s2, hrun, htrap, rfl⟩

end Sys2Proof.Machine
end

section
/-! PROOFS. Vector computations, accesses and vector state out of order (R73, R74, R111, R113, R114, R124). -/

namespace Sys2Proof.Machine

open Claim

variable {s e : State} {i : Instr} {typed ok : Bool} {info : VInfo} {c : Nat} {v : Word}

/-! ## What every vector instruction checks first -/

/-- The model's guard, by the vector state as the statements name it. -/
theorem State.vguard_eq {α : Type} (s : State) (typed ok : Bool) (r : Res α) :
    s.vguard typed ok r =
      if (!VState s typed || !ok) = true then s.illegal else if s.lostLanes ≠ 0 then .trap 29 (s.lostLanes.setWidth 64) s else r := by
  unfold State.vguard VState
  simp [Bool.not_and, bne]

theorem State.vguard_ready {α : Type} {r : Res α} (h : VReady s typed) : s.vguard typed true r = r := by
  obtain ⟨hstate, hlanes⟩ := h
  simp [State.vguard_eq, hstate, hlanes]

theorem State.vguard_not_legal {α : Type} (s : State) (typed : Bool) (r : Res α) : s.vguard typed false r = s.illegal := by
  simp [State.vguard_eq]

theorem State.vguard_out_of_order {α : Type} {r : Res α} (h : VState s typed = false) : s.vguard typed ok r = s.illegal := by
  simp [State.vguard_eq, h]

theorem State.vguard_lanes_lost {α : Type} {r : Res α} (h : VState s typed = true) (hlost : s.lostLanes ≠ 0) :
    s.vguard typed true r = .trap 29 (s.lostLanes.setWidth 64) s := by
  rw [State.vguard_eq, h, if_neg (by simp), if_pos hlost]

/-! ## A vector instruction and its effect -/

/-- Each vector instruction that may be a member of a pair ends by its effect as a member. -/
theorem exec_vectorMember (s : State) (h : vectorMemberOk i = true) : exec i s = finishV (doVector i s) := by
  cases i <;> cases h <;> rfl

theorem traps_of_finishV (h : exec i s = finishV (.trap c v e)) : exec i s = .next (e.takeTrap c v) := h

/-- A Salica vector instruction checks the vector state first, and depends on vtype. -/
theorem exec_salicaVector (s : State) (h : salicaVector i = true) : ∃ legal r, exec i s = finishV (s.vguard true legal r) := by
  cases i <;> cases h <;> exact ⟨_, _, rfl⟩

/-- An instruction with a guard completes in a ready vector state where its operands are legal and its run ends. -/
theorem vCompletes_of_vguard {r : Res VInfo} (h : exec i s = finishV (s.vguard typed true r)) (hready : VReady s typed) (hr : r = .ok info e) :
    VCompletes i s e := by
  rw [State.vguard_ready hready, hr] at h
  exact vCompletes_of_finishV_ok h

theorem traps_of_vguard {r : Res VInfo} (h : exec i s = finishV (s.vguard typed true r)) (hready : VReady s typed) (hr : r = .trap c v e) :
    exec i s = .next (e.takeTrap c v) := by
  rw [State.vguard_ready hready, hr] at h
  exact h

theorem illegal_of_vguard {r : Res VInfo} (h : exec i s = finishV (s.vguard typed false r)) : exec i s = .next (s.takeTrap 2 s.seq.latch.bits) := by
  rw [State.vguard_not_legal] at h
  exact h

/-! ## Elementwise plans of OP-V -/

/-- The effect of an elementwise plan is what the statements write out. -/
theorem State.runPlan_eq (s : State) (p : EPlan) (vm : Bool) (vd vs2 vs1 sc : Nat) :
    s.runPlan p vm vd vs2 vs1 sc =
      s.vguard true (planned s p vm vd vs2 vs1 sc).1 (.ok (s.vinfo p.cls p.ord vm) (planned s p vm vd vs2 vs1 sc).2) := rfl

/-- An operation of OPIVV, OPIVX or OPIVI with an elementwise plan runs it: the others have numbers of their own. -/
theorem doOpi_of_plan {f6 f3 sc : Nat} {vm : Bool} {vs2 vs1 vd : Reg} {p : EPlan}
    (h : (if [0x0C, 0x0E, 0x0F, 0x17, 0x30, 0x31, 0x27].contains f6 then none
      else (opiPlan f6 f3 s.seq.vec.sew vm s.seq.vec.vxrm).map fun p => (p, opiScalar f6 f3 s.seq.vec.sew vs1 (s.x vs1))) = some (p, sc)) :
    doOpi s f6 vm vs2 vs1 f3 vd = s.runPlan p vm vd.toNat vs2.toNat vs1.toNat sc := by
  obtain ⟨hother, hplan⟩ := Option.ite_none_left_eq_some.mp h
  obtain ⟨q, hq, hsc⟩ := Option.map_eq_some_iff.mp hplan
  cases hsc
  have hmove : ¬ (f6 = 0x27 ∧ f3 = 3) := by
    rintro ⟨rfl, -⟩
    exact hother rfl
  unfold doOpi
  dsimp only
  split
  case h_7 => rw [if_neg hmove, hq]
  all_goals exact absurd rfl hother

/-- The same of OPMVV and OPMVX. -/
theorem doOpm_of_plan {f6 f3 sc : Nat} {vm : Bool} {vs2 vs1 vd : Reg} {p : EPlan}
    (h : (if f6 ≤ 7 ∨ [0x0E, 0x0F, 0x10, 0x14, 0x17, 0x18, 0x19, 0x1A, 0x1B, 0x1C, 0x1D, 0x1E, 0x1F].contains f6 then none
      else (opmPlan f6 f3 vs1.toNat s.seq.vec.sew s.seq.vec.vxrm).map fun p => (p, (s.x vs1).toNat % 2 ^ s.seq.vec.sew)) = some (p, sc)) :
    doOpm s f6 vm vs2 vs1 f3 vd = s.runPlan p vm vd.toNat vs2.toNat vs1.toNat sc := by
  obtain ⟨hother, hplan⟩ := Option.ite_none_left_eq_some.mp h
  obtain ⟨hreduce, hother⟩ := not_or.mp hother
  obtain ⟨q, hq, hsc⟩ := Option.map_eq_some_iff.mp hplan
  cases hsc
  have hmask : ¬ (f3 = 2 ∧ 0x18 ≤ f6 ∧ f6 ≤ 0x1F) := by
    rintro ⟨-, hlow, hhigh⟩
    interval_cases f6 <;> exact hother rfl
  unfold doOpm
  dsimp only
  rw [if_neg fun h => hreduce h.2, if_neg hmask]
  split
  case h_6 => rw [hq]
  all_goals exact absurd rfl hother

theorem funct3_cases (f3 : BitVec 3) : f3 = 0 ∨ f3 = 1 ∨ f3 = 2 ∨ f3 = 3 ∨ f3 = 4 ∨ f3 = 5 ∨ f3 = 6 ∨ f3 = 7 := by
  revert f3
  decide

theorem doVArith_of_planOf {f6 : BitVec 6} {vm : Bool} {vs2 vs1 vd : Reg} {f3 : BitVec 3} {p : EPlan} {sc : Nat}
    (h : planOf s f6 vm vs1 f3 = some (p, sc)) : doVArith s f6 vm vs2 vs1 f3 vd = s.runPlan p vm vd.toNat vs2.toNat vs1.toNat sc := by
  obtain rfl | rfl | rfl | rfl | rfl | rfl | rfl | rfl := funct3_cases f3
  · exact doOpi_of_plan h
  · cases h
  · exact doOpm_of_plan h
  · exact doOpi_of_plan h
  · exact doOpi_of_plan h
  · cases h
  · exact doOpm_of_plan h
  · cases h

/-! ## Computations -/

/-- A vector computation checks the vector state and its groups, and then has its elementwise effect. -/
theorem exec_vecCompute (h : vecCompute s i = some (ok, e)) : ∃ info, exec i s = finishV (s.vguard true ok (.ok info e)) := by
  unfold vecCompute at h
  split at h
  case h_15 f6 vm vs2 vs1 f3 vd =>
    split at h
    case h_1 p sc hp =>
      cases h
      exact ⟨_, congrArg finishV (doVArith_of_planOf hp)⟩
    case h_2 => cases h
  case h_16 => cases h
  all_goals
    cases h
    exact ⟨_, rfl⟩

/-! ## Accesses -/

theorem mop_cases (mop : BitVec 2) : mop = 0 ∨ mop = 1 ∨ mop = 2 ∨ mop = 3 := by
  revert mop
  decide

/-- A load that `vecAccess` describes has its guard and its run: it is unit-stride (whole, or fault-first), strided or indexed. -/
theorem doVLoad_of_vecAccess {nf : BitVec 3} {mop : BitVec 2} {vm : Bool} {rs2 rs1 vd : Reg} {width : BitVec 2} {r : Res VInfo}
    (h : vecAccess s (.vectorLoad nf mop vm rs2 rs1 width vd) = some (typed, ok, r)) :
    doVLoad s nf mop vm rs2 rs1 width vd = s.vguard typed ok r := by
  obtain rfl | rfl | rfl | rfl := mop_cases mop
  · by_cases hunit : rs2 = 0#5
    · subst hunit
      cases h
      rfl
    · by_cases hfirst : rs2 = 16#5
      · subst hfirst
        cases h
        rfl
      · simp [vecAccess, hunit, hfirst] at h
  all_goals
    cases h
    rfl

/-- The same of a store. -/
theorem doVStore_of_vecAccess {nf : BitVec 3} {mop : BitVec 2} {vm : Bool} {rs2 rs1 vs3 : Reg} {width : BitVec 2} {r : Res VInfo}
    (h : vecAccess s (.vectorStore nf mop vm rs2 rs1 width vs3) = some (typed, ok, r)) :
    doVStore s nf mop vm rs2 rs1 width vs3 = s.vguard typed ok r := by
  obtain rfl | rfl | rfl | rfl := mop_cases mop
  · by_cases hunit : rs2 = 0#5
    · subst hunit
      cases h
      rfl
    · simp [vecAccess, hunit] at h
  all_goals
    cases h
    rfl

/-- A vector access checks the vector state and its groups, and then runs. -/
theorem exec_vecAccess {r : Res VInfo} (h : vecAccess s i = some (typed, ok, r)) : exec i s = finishV (s.vguard typed ok r) := by
  have haccess := h
  unfold vecAccess at h
  split at h
  case h_1 => exact congrArg finishV (doVLoad_of_vecAccess haccess)
  case h_2 => exact congrArg finishV (doVStore_of_vecAccess haccess)
  case h_8 => cases h
  all_goals
    cases h
    rfl

end Sys2Proof.Machine

namespace Sys2Proof.Machine

open Claim

/-- Settles O33: the guard passes, and the effect is the one written out. -/
theorem vectorComputationsComplete : Obligations.VectorComputationsComplete := by
  refine ⟨fun i s e ok hready hcompute => ?_, fun s e info f6 vm vs2 vs1 vd f3 hdo => ?_⟩
  · obtain ⟨info, hexec⟩ := exec_vecCompute hcompute
    refine ⟨?_, ?_⟩
    · rintro rfl
      exact vCompletes_of_vguard hexec hready rfl
    · rintro rfl
      exact illegal_of_vguard hexec
  · exact vCompletes_of_finishV_ok (congrArg finishV hdo)

/-- Settles O34: the guard passes, and the run ends or traps. -/
theorem vectorAccessesComplete : Obligations.VectorAccessesComplete := by
  refine ⟨fun i s e typed ok r info c v hready haccess => ?_, fun s e info c v nf mop vm rs2 rs1 width vd => ?_⟩
  · have hexec := exec_vecAccess haccess
    refine ⟨?_, ?_, ?_⟩
    · rintro rfl hr
      exact vCompletes_of_vguard hexec hready hr
    · rintro rfl hr
      exact traps_of_vguard hexec hready hr
    · rintro rfl
      exact illegal_of_vguard hexec
  · exact ⟨fun h => vCompletes_of_finishV_ok (congrArg finishV h), fun h => traps_of_finishV (congrArg finishV h),
      fun h => vCompletes_of_finishV_ok (congrArg finishV h), fun h => traps_of_finishV (congrArg finishV h)⟩

/-- Settles O35: the guard refuses, before it looks at the lane groups, and then for them. -/
theorem vectorStateOutOfOrderIsIllegal : Obligations.VectorStateOutOfOrderIsIllegal := by
  refine fun i s => ⟨fun hsalica hstate => ?_, fun e hcompute hstate hlost => ?_⟩
  · obtain ⟨legal, r, hexec⟩ := exec_salicaVector s hsalica
    rw [State.vguard_out_of_order hstate] at hexec
    exact traps_of_finishV hexec
  · obtain ⟨info, hexec⟩ := exec_vecCompute hcompute
    rw [State.vguard_lanes_lost hstate hlost] at hexec
    exact traps_of_finishV hexec

end Sys2Proof.Machine
end

section
/-! PROOFS. The pair word (R84, R99, R100). -/

namespace Sys2Proof.Machine

open Claim

variable {s e : State} {a b : Instr} {g : Reg} {sense : Bool} {info : VInfo} {c : Nat} {v : Word}

/-! ## Both members -/

/-- A pair that R99 or R124 refuses is cause 2, whatever its guard. -/
theorem execPair_of_refused (h : membersClash a b = true ∨ memberAssigned b = false ∨ s.seq.vec.released = true) :
    execPair g sense a b s = finish s.illegal := by
  refine if_pos ?_
  rwa [Bool.not_eq_true']

section
variable (hclash : membersClash a b = false) (hassigned : memberAssigned b = true) (hheld : s.seq.vec.released = false)
include hclash hassigned hheld

theorem not_refused : ¬ (membersClash a b = true ∨ (!memberAssigned b) = true ∨ s.seq.vec.released = true) := by
  simp [hclash, hassigned, hheld]

/-- A pair whose guard does not hold only goes on. -/
theorem execPair_of_not_guard (h : (s.x g != 0) = sense) : execPair g sense a b s = finish (.ok () s) :=
  (if_neg (not_refused hclash hassigned hheld)).trans (if_pos (beq_iff_eq.mpr h))

/-- One whose guard holds has the effect of both members. -/
theorem execPair_of_guard (h : (s.x g != 0) ≠ sense) : execPair g sense a b s = finishV (doPair s a b) :=
  (if_neg (not_refused hclash hassigned hheld)).trans (if_neg (mt beq_iff_eq.mp h))

end

/-- A scalar member's trap is the pair's. -/
theorem doPair_of_scalar_trap (h : doScalar a s = .trap c v e) : doPair s a b = .trap c v s := by
  unfold doPair
  rw [h]

/-- So is the vector member's, where the scalar member has none. -/
theorem doPair_of_vector_trap {s1 : State} (hscalar : doScalar a s = .ok () s1) (h : doVector b s = .trap c v e) : doPair s a b = .trap c v s := by
  unfold doPair
  rw [hscalar]
  dsimp only
  rw [h]

/-! ## An integer operation beside a vector member -/

theorem State.x_congr (h : e.seq.x = s.seq.x) (r : Reg) : e.x r = s.x r := by
  unfold State.x Seq.rx
  rw [h]

theorem State.f_congr (h : e.seq.f = s.seq.f) (r : Reg) : e.f r = s.f r := by
  unfold State.f Seq.rf
  rw [h]

/-- Where the vector member changed no register, the registers are the scalar member's. -/
theorem mergeRegs_of_unchanged (old sc : Vector Word 32) : mergeRegs old old sc = sc := by
  ext k hk
  simp [mergeRegs]

theorem doScalar_alu (s : State) (op : AluOp) (rd rs1 rs2 : Reg) :
    doScalar (.alu op rd rs1 rs2) s = .ok () (s.setX rd (evalAlu op (s.x rs1) (s.x rs2))) := rfl

/-- What a pair of an integer operation and a vector member leaves: the vector member's state with the integer result of the
registers as they stood before. -/
theorem doPair_alu (op : AluOp) (rd rs1 rs2 : Reg) (h : doVector b s = .ok info e) (hx : e.seq.x = s.seq.x) (hf : e.seq.f = s.seq.f) :
    doPair s (.alu op rd rs1 rs2) b = .ok info (e.setX rd (evalAlu op (s.x rs1) (s.x rs2))) := by
  have hrestore : (e.upd fun q => { q with x := s.seq.x, f := s.seq.f }) = e := by
    rw [← hx, ← hf]
    rfl
  have hagain : doScalar (.alu op rd rs1 rs2) (e.upd fun q => { q with x := s.seq.x, f := s.seq.f }) =
      .ok () (e.setX rd (evalAlu op (s.x rs1) (s.x rs2))) := by
    rw [hrestore, doScalar_alu, State.x_congr hx, State.x_congr hx]
  unfold doPair
  simp only [doScalar_alu s, h, hagain, hx, hf, mergeRegs_of_unchanged]
  rfl

/-- Writing a register leaves everything else of the state. -/
theorem State.setX_eq_with (s : State) (rd : Reg) (v : Word) :
    s.setX rd v = { s with seq := { s.seq with x := (s.setX rd v).seq.x, f := (s.setX rd v).seq.f } } := by
  unfold State.setX Seq.wx
  split <;> rfl

end Sys2Proof.Machine

namespace Sys2Proof.Machine

open Claim

/-- Settles O48: by the refusals, the guard and the members' own outcomes; an integer member writes rd over the vector member's state. -/
theorem pairMembersActTogether : Obligations.PairMembersActTogether := by
  intro s e g sense a b info
  refine ⟨fun hrefused => ?_, fun _ _ _ hclash hassigned hheld => ⟨fun hguard => ?_, fun hguard => ?_⟩, fun op rd rs1 rs2 hvector hx hf => ?_⟩
  · exact traps_of_finish (execPair_of_refused hrefused) rfl
  · exact completes_of_ok (execPair_of_not_guard hclash hassigned hheld hguard) rfl
  · have hexec : exec (.pair g sense a b) s = finishV (doPair s a b) := execPair_of_guard hclash hassigned hheld hguard
    refine ⟨fun hpair => ?_, fun c v hscalar => ?_, fun c v s1 hscalar hvector => ?_⟩
    · exact vCompletes_of_finishV_ok (hexec.trans (congrArg finishV hpair))
    · exact traps_of_finishV (hexec.trans (congrArg finishV (doPair_of_scalar_trap hscalar)))
    · exact traps_of_finishV (hexec.trans (congrArg finishV (doPair_of_vector_trap hscalar hvector)))
  · refine ⟨_, doPair_alu op rd rs1 rs2 hvector hx hf, ?_, fun r hr => ?_, fun r => ?_, ?_⟩
    · rw [State.x_setX_self]
    · rw [State.x_setX, if_neg fun h => hr h.1, State.x_congr hx]
    · rw [State.f_setX, State.f_congr hf]
    · exact State.setX_eq_with ..

end Sys2Proof.Machine
end

section
/-! PROOFS. Interleave, fold and leading zeros, bit by bit (R97, R98). -/

namespace Sys2Proof.Machine

open Claim

variable (a b d : Word)

/-! ## Interleaving and its inverse -/

theorem getLsbD_one_shl {m j : Nat} (h : j < 64) : ((1 : Word) <<< m).getLsbD j = (j == m) := by
  have hone : (1 : Word).getLsbD (j - m) = decide (j - m = 0) := (BitVec.getLsbD_one ..).trans (by simp)
  rw [BitVec.getLsbD_shiftLeft, hone, decide_eq_true h, Bool.eq_iff_iff]
  simp only [Bool.true_and, Bool.and_eq_true, Bool.not_eq_true', decide_eq_false_iff_not, decide_eq_true_eq, beq_iff_eq]
  omega

/-- The bit that a step of spread or gather adds: bit m, where c holds. -/
theorem getLsbD_ite_one_shl {c : Prop} [Decidable c] {m j : Nat} (h : j < 64) :
    (if c then (1 : Word) <<< m else 0).getLsbD j = (decide c && j == m) := by
  by_cases hc : c
  · simp only [hc, if_true, decide_true, Bool.true_and, getLsbD_one_shl h]
  · simp only [hc, if_false, decide_false, Bool.false_and]
    exact BitVec.getLsbD_zero

theorem getLsbD_spread {k : Nat} (hk : 0 < k) (n : Nat) {j : Nat} (h : j < 64) :
    (spread k a n).getLsbD j = (j % k == 0 && decide (j / k < n) && a.getLsbD (j / k)) := by
  induction n with
  | zero => simp [spread]
  | succ n ih =>
    rw [spread, BitVec.getLsbD_or, ih, getLsbD_ite_one_shl h]
    by_cases hj : j = k * n
    · subst hj
      simp [hk]
    · have hother : j % k = 0 → (j / k < n ↔ j / k < n + 1) := fun h0 => by
        have hne : j / k ≠ n := fun e => hj (by rw [← e, Nat.mul_div_cancel' (Nat.dvd_of_mod_eq_zero h0)])
        omega
      by_cases h0 : j % k = 0
      · simp only [beq_false_of_ne hj, hother h0, Bool.and_false, Bool.or_false]
      · simp only [beq_false_of_ne hj, beq_false_of_ne h0, Bool.false_and, Bool.and_false, Bool.or_false]

theorem getLsbD_gather (k s n : Nat) {j : Nat} (h : j < 64) : (gather k s a n).getLsbD j = (decide (j < n) && a.getLsbD (k * j + s)) := by
  induction n with
  | zero => simp [gather]
  | succ n ih =>
    have hrange : k * n + s ≤ 63 ∧ a.getLsbD (k * n + s) = true ↔ a.getLsbD (k * n + s) = true :=
      and_iff_right_of_imp fun hbit => Nat.le_of_lt_succ (BitVec.lt_of_getLsbD hbit)
    rw [gather, BitVec.getLsbD_or, ih, getLsbD_ite_one_shl h]
    simp only [hrange, Bool.decide_eq_true]
    rcases Nat.lt_trichotomy j n with hj | rfl | hj
    · simp [hj, Nat.lt_succ_of_lt hj, Nat.ne_of_lt hj]
    · simp
    · simp [Nat.not_lt.mpr (Nat.le_of_lt hj), Nat.not_lt.mpr (Nat.succ_le_of_lt hj), Nat.ne_of_gt hj]

theorem getLsbD_shiftLeft_one {j : Nat} (h : j < 64) : (b <<< 1).getLsbD j = (j != 0 && b.getLsbD (j - 1)) := by
  rw [BitVec.getLsbD_shiftLeft, decide_eq_true h]
  cases j <;> simp

theorem getLsbD_evalBilv2 {j : Nat} (h : j < 64) :
    (evalBilv2 a b).getLsbD j = ((j % 2 == 0 && a.getLsbD (j / 2)) || (j != 0 && b.getLsbD (j - 1))) := by
  have hhalf : j / 2 < 32 := by omega
  rw [evalBilv2, BitVec.getLsbD_or, getLsbD_spread a (by decide) 32 h, getLsbD_shiftLeft_one b h, decide_eq_true hhalf, Bool.and_true]

theorem getLsbD_evalBilv3 {j : Nat} (h : j < 64) :
    (evalBilv3 a b).getLsbD j = ((j % 3 == 0 && decide (j / 3 ≤ 20) && a.getLsbD (j / 3)) || (j != 0 && b.getLsbD (j - 1))) := by
  rw [evalBilv3, BitVec.getLsbD_or, getLsbD_spread a (by decide) 21 h, getLsbD_shiftLeft_one b h]
  simp only [Nat.lt_succ_iff]

theorem getLsbD_evalBdlv2 {j : Nat} (h : j < 64) : (evalBdlv2 a b).getLsbD j = a.getLsbD (2 * j + b.toNat % 64) := by
  rw [evalBdlv2, getLsbD_gather a 2 _ 64 h, decide_eq_true h, Bool.true_and, shAmt]

theorem getLsbD_evalBdlv3 {j : Nat} (h : j < 64) : (evalBdlv3 a b).getLsbD j = a.getLsbD (3 * j + b.toNat % 64) := by
  rw [evalBdlv3, getLsbD_gather a 3 _ 64 h, decide_eq_true h, Bool.true_and, shAmt]

/-! ## Folding -/

/-- The fold of R97 is that of the homes of lines (R55). -/
theorem foldBits_eq_foldGroups (v b n : Nat) : foldBits v b n = foldGroups v b n := by
  induction n generalizing v with
  | zero => rfl
  | succ n ih => rw [foldBits, foldGroups, ih]

/-- A word has no bits from place 64 on. -/
theorem bitParity_word (w k : Nat) {m : Nat} (hm : 64 ≤ m) : bitParity a.toNat w k m = (bitsAt a w k % 2 == 1) := by
  obtain ⟨n, rfl⟩ := Nat.exists_eq_add_of_le hm
  have hhigh : ((List.range n).map (64 + ·)).filter (fun p => p % w == k && a.toNat.testBit p) = [] :=
    List.filter_eq_nil_iff.mpr fun p hp => by
      obtain ⟨i, _, rfl⟩ := List.mem_map.mp hp
      rw [BitVec.testBit_toNat, BitVec.getLsbD_of_ge a _ (Nat.le_add_right 64 i)]
      simp
  rw [bitParity, List.range_add, List.filter_append, hhigh, List.append_nil]
  rfl

theorem getLsbD_foldBits {w j : Nat} (hw : 0 < w) (h : j < 64) :
    (BitVec.ofNat 64 (foldBits a.toNat w 64)).getLsbD j = (decide (j < w) && bitsAt a w j % 2 == 1) := by
  rw [BitVec.getLsbD_ofNat, decide_eq_true h, Bool.true_and, foldBits_eq_foldGroups]
  by_cases hj : j < w
  · rw [foldGroups_testBit _ hj, bitParity_word a w j (Nat.le_mul_of_pos_left 64 hw), decide_eq_true hj, Bool.true_and]
  · rw [Nat.testBit_lt_two_pow ((foldGroups_lt ..).trans_le (Nat.pow_le_pow_right (by decide) (Nat.not_lt.mp hj))), decide_eq_false hj, Bool.false_and]

theorem getLsbD_evalFold {j : Nat} (h : j < 64) :
    (evalFold a b).getLsbD j =
      (let w := if b.toNat % 64 = 0 then 64 else b.toNat % 64
       decide (j < w) && bitsAt a w j % 2 == 1) := by
  refine getLsbD_foldBits a ?_ h
  unfold shAmt
  split <;> omega

/-! ## Leading zeros -/

/-- The leading zeros of a number bound it on both sides. -/
theorem clzN_bounds {n v : Nat} (h0 : v ≠ 0) (h : v < 2 ^ n) : clzN n v < n ∧ 2 ^ (n - 1 - clzN n v) ≤ v ∧ v < 2 ^ (n - clzN n v) := by
  have hlog : v.log2 < n := (Nat.log2_lt h0).mpr h
  have hclz : clzN n v = n - (v.log2 + 1) := by rw [clzN, blen, if_neg h0]
  rw [hclz, show n - 1 - (n - (v.log2 + 1)) = v.log2 by omega, show n - (n - (v.log2 + 1)) = v.log2 + 1 by omega]
  exact ⟨by omega, Nat.log2_self_le h0, Nat.lt_log2_self⟩

theorem evalClzx_of_ne (h : a ≠ b) : (evalClzx a b d).toNat = clzN 64 (a ^^^ b).toNat := by
  have hne : a ^^^ b ≠ 0 := mt BitVec.xor_eq_zero_iff.mp h
  rw [evalClzx, if_pos hne, BitVec.toNat_ofNat, Nat.mod_eq_of_lt]
  exact (Nat.sub_le ..).trans_lt (by decide)

theorem evalClzx_of_eq (h : a = b) : (evalClzx a b d).toNat = 64 + clzN 64 d.toNat := by
  have hle : clzN 64 d.toNat ≤ 64 := Nat.sub_le ..
  have hzero : a ^^^ b = 0 := BitVec.xor_eq_zero_iff.mpr h
  rw [evalClzx, if_neg (not_not.mpr hzero), BitVec.toNat_ofNat, Nat.mod_eq_of_lt (by omega)]

theorem evalClzx_bounds_of_ne (h : a ≠ b) :
    (evalClzx a b d).toNat ≤ 63 ∧ 2 ^ (63 - (evalClzx a b d).toNat) ≤ (a ^^^ b).toNat ∧ (a ^^^ b).toNat < 2 ^ (64 - (evalClzx a b d).toNat) := by
  have hne : (a ^^^ b).toNat ≠ 0 := fun e => h (BitVec.xor_eq_zero_iff.mp (BitVec.eq_of_toNat_eq e))
  obtain ⟨hlt, hlow, hhigh⟩ := clzN_bounds hne (a ^^^ b).isLt
  rw [evalClzx_of_ne a b d h]
  exact ⟨Nat.le_of_lt_succ hlt, hlow, hhigh⟩

theorem evalClzx_bounds_of_eq (h : a = b) :
    64 ≤ (evalClzx a b d).toNat ∧ (evalClzx a b d).toNat ≤ 128 ∧ d.toNat < 2 ^ (128 - (evalClzx a b d).toNat) ∧
      (d ≠ 0 → 2 ^ (127 - (evalClzx a b d).toNat) ≤ d.toNat) := by
  rw [evalClzx_of_eq a b d h]
  by_cases h0 : d = 0
  · subst h0
    exact ⟨by decide, by decide, by decide, fun hne => absurd rfl hne⟩
  · have hne : d.toNat ≠ 0 := fun e => h0 (BitVec.eq_of_toNat_eq e)
    obtain ⟨hlt, hlow, hhigh⟩ := clzN_bounds hne d.isLt
    refine ⟨by omega, by omega, ?_, fun _ => ?_⟩
    · rwa [show 128 - (64 + clzN 64 d.toNat) = 64 - clzN 64 d.toNat by omega]
    · rwa [show 127 - (64 + clzN 64 d.toNat) = 64 - 1 - clzN 64 d.toNat by omega]

/-! ## The statement -/

/-- Settles O6: each instruction writes its value and nothing else; the bits of that value are those of spread, gather and fold, and clzx counts by the logarithm. -/
theorem bitInstructionsRearrangeAndCount : Obligations.BitInstructionsRearrangeAndCount := by
  refine ⟨fun rd rs1 rs2 s => ?bits, fun rd rs1 rs2 s => ?clzx⟩
  case bits =>
    refine ⟨_, _, _, _, _, writesX_of_finish rfl, writesX_of_finish rfl, writesX_of_finish rfl, writesX_of_finish rfl, writesX_of_finish rfl, fun j hj => ?_⟩
    exact ⟨getLsbD_evalBilv2 _ _ hj, getLsbD_evalBilv3 _ _ hj, getLsbD_evalBdlv2 _ _ hj, getLsbD_evalBdlv3 _ _ hj, getLsbD_evalFold _ _ hj⟩
  case clzx => exact ⟨_, writesX_of_finish rfl, evalClzx_bounds_of_ne _ _ _, evalClzx_bounds_of_eq _ _ _⟩

end Sys2Proof.Machine
end

section
/-! PROOFS. Hardware loops: entering, skipping and leaving them (R93, R94). -/

namespace Sys2Proof.Machine

open Claim

variable {i : Instr} {s : State} {n off : Word}

/-! ## loop and loopi -/

theorem badLoopOff_eq_false_iff {q : Seq} : badLoopOff q off = false ↔ loopOffOk q off := by
  unfold badLoopOff loopOffOk
  cases q.latch.form <;> simp

theorem badLoopOff_eq_true_iff {q : Seq} : badLoopOff q off = true ↔ ¬ loopOffOk q off := by
  rw [← badLoopOff_eq_false_iff, Bool.not_eq_false]

/-- Both forms enter a loop with their operands. -/
theorem exec_of_loopOperands (h : loopOperands s i = some (n, off)) : exec i s = finishAt (loopEnter s n off) := by
  cases i
  case loop | loopi =>
    obtain ⟨rfl, rfl⟩ := Prod.mk.inj (Option.some.inj h)
    rfl
  all_goals cases h

theorem loopEnter_of_bad (h : ¬ loopOffOk s.seq off) : loopEnter s n off = s.illegal := if_pos (badLoopOff_eq_true_iff.mpr h)

theorem loopEnter_zero (h : loopOffOk s.seq off) : loopEnter s 0 off = .ok (s.seq.pc + off, true) s := by
  simp [loopEnter, badLoopOff_eq_false_iff.mpr h]

theorem loopEnter_full (h : loopOffOk s.seq off) (hn : n ≠ 0) (hfull : 6 ≤ s.seq.loops.length) : loopEnter s n off = .trap 27 6 s :=
  (if_neg (mt badLoopOff_eq_true_iff.mp (not_not.mpr h))).trans ((if_neg hn).trans (if_pos hfull))

theorem loopEnter_push (h : loopOffOk s.seq off) (hn : n ≠ 0) (hroom : s.seq.loops.length < 6) :
    loopEnter s n off = .ok (s.nextPc, false) (s.upd fun q => { q with loops :=
      { start := s.seePc s.hart s.nextPc, stop := s.seePc s.hart (s.seq.pc + off), count := n, index := 0, mode := s.seq.mode } :: q.loops }) :=
  (if_neg (mt badLoopOff_eq_true_iff.mp (not_not.mpr h))).trans ((if_neg hn).trans (if_neg (Nat.not_le.mpr hroom)))

/-! ## lbrk, lidx and lcnt -/

theorem State.inTrans_of_no_task (h : s.seq.task = none) (a : Word) : s.inTrans s.hart a = false := by
  simp [State.inTrans, State.objOf, h]

theorem State.runPc_of_no_task (h : s.seq.task = none) (a : Word) : s.runPc a = a := by
  simp [State.runPc, State.inTrans_of_no_task h]

section
variable {k : BitVec 5}

theorem exec_lbrk {e : LoopEntry} (hentry : s.seq.loops[k.toNat]? = some e) (hmode : ∀ x ∈ s.seq.loops.take (k.toNat + 1), x.mode = s.seq.mode) :
    exec (.lbrk k) s = .next (({ s with seq := { s.seq with loops := s.seq.loops.drop (k.toNat + 1) } } : State).retire (s.runPc e.stop) true) := by
  have hsame : ((s.seq.loops.take (k.toNat + 1)).any fun x => x.mode != s.seq.mode) = false := by
    simpa using hmode
  show finishAt _ = _
  simp only [hentry, hsame]
  rfl

theorem exec_lbrk_of_short (h : s.seq.loops.length ≤ k.toNat) : exec (.lbrk k) s = .next (s.takeTrap 2 s.seq.latch.bits) := by
  show finishAt _ = _
  simp only [List.getElem?_eq_none h]
  rfl

/-- An entry of another mode among those to leave, or no entry k, is cause 2. -/
theorem exec_lbrk_of_mode (h : ∃ x ∈ s.seq.loops.take (k.toNat + 1), x.mode ≠ s.seq.mode) :
    exec (.lbrk k) s = .next (s.takeTrap 2 s.seq.latch.bits) := by
  have hother : ((s.seq.loops.take (k.toNat + 1)).any fun x => x.mode != s.seq.mode) = true := by
    simpa using h
  show finishAt _ = _
  cases s.seq.loops[k.toNat]? <;> simp only [hother, if_true] <;> rfl

theorem loopRead_of_high (h : 6 ≤ k.toNat) (rd : Reg) (f : LoopEntry → Word) : loopRead s rd k f = s.illegal := if_pos h

end

/-- Settles O7: loop and loopi by the cases of entering a loop, lbrk by the entries that it leaves. -/
theorem loopInstructionsEnterSkipAndLeave : Obligations.LoopInstructionsEnterSkipAndLeave := by
  refine ⟨fun i s n off hi => ?enter, fun n s => ?leave⟩
  case enter =>
    rw [exec_of_loopOperands hi]
    refine ⟨fun hok hn hroom => ?_, fun hok hn => ?_, fun hok hn hfull => ?_, fun hbad => ?_⟩
    · exact ⟨_, congrArg finishAt (loopEnter_push hok hn hroom), _, rfl, rfl⟩
    · subst hn
      exact jumps_of_finishAt ((exec_of_loopOperands hi).trans (congrArg finishAt (loopEnter_zero hok)))
    · exact congrArg finishAt (loopEnter_full hok hn hfull)
    · exact congrArg finishAt (loopEnter_of_bad hbad)
  case leave =>
    refine ⟨fun e he hmode => ⟨_, exec_lbrk he hmode, rfl⟩, fun htask => State.runPc_of_no_task htask, exec_lbrk_of_short, exec_lbrk_of_mode, fun rd hn => ?_⟩
    exact ⟨congrArg finish (loopRead_of_high hn rd _), congrArg finish (loopRead_of_high hn rd _)⟩

end Sys2Proof.Machine
end

section
/-! PROOFS. The end check of hardware loops (R92), and what retirement makes of it. -/

namespace Sys2Proof.Machine

open Claim

/-! ## The end check -/

section
variable {md : Mode} {see next : Word} {trans edge : Bool} {e : LoopEntry} {rest : List LoopEntry}

theorem endCheck_away (h : e.mode ≠ md ∨ see ≠ e.stop) : endCheck md see trans next (e :: rest) edge = ⟨next, e :: rest, edge, none⟩ :=
  if_neg (not_and_or.mpr h)

theorem endCheck_back (hmode : e.mode = md) (hstop : see = e.stop) (hbody : e.start ≠ e.stop) (hmore : e.index.toNat + 1 < e.count.toNat) :
    endCheck md see trans next (e :: rest) edge =
      ⟨if trans then Config.nativePc e.start else e.start, { e with index := e.index + 1 } :: rest, true, if rest = [] then some e.start else none⟩ :=
  (if_pos ⟨hmode, hstop⟩).trans (if_pos ⟨hmore, hbody⟩)

theorem endCheck_pop (hmode : e.mode = md) (hstop : see = e.stop) (hlast : e.count.toNat ≤ e.index.toNat + 1 ∨ e.start = e.stop) :
    endCheck md see trans next (e :: rest) edge = endCheck md see trans next rest true := by
  refine (if_pos ⟨hmode, hstop⟩).trans (if_neg ?_)
  rintro ⟨hmore, hbody⟩
  exact hlast.elim (Nat.not_le.mpr hmore) hbody

/-- That an iteration has ended before is only noted. -/
theorem endCheck_true (l : List LoopEntry) : endCheck md see trans next l true = { endCheck md see trans next l false with edge := true } := by
  induction l with
  | nil => rfl
  | cons e rest ih =>
    unfold endCheck
    split
    · split
      · rfl
      · rw [ih]
    · rfl

end

/-! ## Retirement -/

/-- The object of the running hart's task is told by the task. -/
theorem State.objOf_congr {s t : State} (htask : t.seq.task = s.seq.task) (hobjs : t.objs = s.objs) : t.objOf t.hart = s.objOf s.hart := by
  simp [State.objOf, State.obj?, htask, hobjs]

/-- Control stays in the body that it is in: no task in U mode runs, or one whose object has no translated function. -/
def State.OneBody (s : State) : Prop := s.seq.task = none ∨ s.seq.mode ≠ .u ∨ ∀ o, s.objOf s.hart = some o → o.ndtab = 0

theorem State.functionEntry_pc {s : State} {h : Nat} (hnone : ∀ o, s.objOf h = some o → o.ndtab = 0) (a : Word) : (s.functionEntry h a).2 = a := by
  unfold State.functionEntry
  cases ho : s.objOf h with
  | none => rfl
  | some o => simp only [hnone o ho, State.functionOf]

theorem State.loopSafe_pc {s : State} (hnone : ∀ o, s.objOf s.hart = some o → o.ndtab = 0) (start a : Word) : (s.loopSafe s.hart start a).2 = a := by
  have hobj : (s.safePoint s.hart).objOf s.hart = s.objOf s.hart := by
    rw [safePoint_eq]
    exact State.objOf_congr rfl rfl
  unfold State.loopSafe
  dsimp only
  rw [hobj]
  cases ho : s.objOf s.hart with
  | none => rfl
  | some o => simp only [hnone o ho, State.functionOf]

/-- Where a task's control goes from the end check on: at most CGEN of the running hart changes, and the address where a body is published. -/
def State.afterCheck (s : State) (r : EndCheck) (entry : Prop) [Decidable entry] : State × Word :=
  match r.safe with
  | some start => s.loopSafe s.hart start r.next
  | none => if entry then s.functionEntry s.hart r.next else (s, r.next)

theorem State.afterCheck_state (s : State) (r : EndCheck) (entry : Prop) [Decidable entry] :
    (s.afterCheck r entry).1 = s ∨ (s.afterCheck r entry).1 = s.upd fun q => { q with ctl := { q.ctl with cgen := s.safeGen s.hart } } := by
  unfold State.afterCheck
  split
  · exact .inr (loopSafe_state ..)
  · split
    · exact functionEntry_cases ..
    · exact .inl rfl

theorem State.afterCheck_pc {s : State} (hnone : ∀ o, s.objOf s.hart = some o → o.ndtab = 0) (r : EndCheck) (entry : Prop) [Decidable entry] :
    (s.afterCheck r entry).2 = r.next := by
  unfold State.afterCheck
  split
  · exact State.loopSafe_pc hnone ..
  · split
    · exact State.functionEntry_pc hnone _
    · rfl

/-- Retirement up to the safe points: the end check is done. -/
def State.checked (s : State) (r : EndCheck) : State :=
  { s with seq := { s.seq with pc := r.next, loops := r.loops, atEdge := r.edge, stall := none, since := none, peerGot := [], elems := [], armed := none,
                               priv := { s.seq.priv with minstret := s.seq.priv.minstret + 1 } } }

/-- The end check of an instruction that passes control to `next`. -/
def State.checkAt (s : State) (next : Word) : EndCheck :=
  endCheck s.seq.mode (s.seePc s.hart next) (s.inTrans s.hart next) next s.seq.loops false

theorem retire_eq (s : State) (next : Word) (jump : Bool) :
    let r := s.checkAt next
    let s1 := s.checked r
    let p := s1.afterCheck r (jump ∨ r.next ≠ next)
    s.retire next jump =
      if s.seq.task.isNone ∨ s.seq.mode ≠ .u then s1 else p.1.upd fun q => if p.2 = r.next then q else { q with pc := p.2 }.anyForm := rfl

/-- The loops, the boundary and the pc after retirement are those of the end check. -/
theorem retire_endCheck (s : State) (next : Word) (jump : Bool) :
    (s.retire next jump).seq.loops = (s.checkAt next).loops ∧ (s.retire next jump).seq.atEdge = (s.checkAt next).edge ∧
      (s.OneBody → (s.retire next jump).seq.pc = (s.checkAt next).next) := by
  rw [retire_eq]
  generalize s.checkAt next = r
  split
  · exact ⟨rfl, rfl, fun _ => rfl⟩
  next hrun =>
    rw [not_or, not_not, Option.isNone_iff_eq_none] at hrun
    obtain ⟨htask, hmode⟩ := hrun
    have hnone (hb : s.OneBody) : ∀ o, (s.checked r).objOf (s.checked r).hart = some o → o.ndtab = 0 := by
      rw [State.objOf_congr (s := s) (t := s.checked r) rfl rfl]
      exact (hb.resolve_left htask).resolve_left (not_not.mpr hmode)
    have hpc (hb : s.OneBody) := State.afterCheck_pc (hnone hb) r (jump ∨ r.next ≠ next)
    have hstate := State.afterCheck_state (s.checked r) r (jump ∨ r.next ≠ next)
    generalize (s.checked r).afterCheck r (jump ∨ r.next ≠ next) = p at hpc hstate ⊢
    have hkeep : p.1.seq.loops = r.loops ∧ p.1.seq.atEdge = r.edge ∧ p.1.seq.pc = r.next := by
      rcases hstate with h | h <;> rw [h] <;> exact ⟨rfl, rfl, rfl⟩
    obtain ⟨hloops, hedge, hnext⟩ := hkeep
    by_cases hp : p.2 = r.next
    · simp only [State.upd_seq, if_pos hp]
      exact ⟨hloops, hedge, fun _ => hnext⟩
    · simp only [State.upd_seq, if_neg hp]
      exact ⟨hloops, hedge, fun hb => absurd (hpc hb) hp⟩

/-! ## The statement -/

/-- A hart with other loops open: what the end check knows of its addresses is the same. -/
def State.withLoops (s : State) (l : List LoopEntry) : State := s.upd fun q => { q with loops := l }

@[simp] theorem State.withLoops_objOf (s : State) (l : List LoopEntry) : (s.withLoops l).objOf s.hart = s.objOf s.hart :=
  State.objOf_congr (s := s) (t := s.withLoops l) rfl rfl

theorem State.withLoops_inTrans (s : State) (l : List LoopEntry) (a : Word) : (s.withLoops l).inTrans s.hart a = s.inTrans s.hart a := by
  unfold State.inTrans
  rw [State.withLoops_objOf]

theorem State.withLoops_checkAt (s : State) (l : List LoopEntry) (next : Word) :
    (s.withLoops l).checkAt next = endCheck s.seq.mode (s.seePc s.hart next) (s.inTrans s.hart next) next l false := by
  show endCheck s.seq.mode ((s.withLoops l).seePc s.hart next) ((s.withLoops l).inTrans s.hart next) next l false = _
  rw [State.seePc, State.seePc, State.withLoops_inTrans]

theorem State.OneBody.withLoops {s : State} (h : s.OneBody) (l : List LoopEntry) : (s.withLoops l).OneBody :=
  h.imp_right (Or.imp_right fun hnone o ho => hnone o ((s.withLoops_objOf l).symm.trans ho))

/-- Settles O8: retirement does what the end check says, and the end check is one case of three by the innermost entry. -/
theorem endCheckEndsIterations : Obligations.EndCheckEndsIterations := by
  refine ⟨fun s a htask => ⟨State.seePc_of_no_task htask a, State.inTrans_of_no_task htask a⟩, fun s next jump e rest hl => ?_⟩
  obtain ⟨hloops, hedge, hpc⟩ := retire_endCheck s next jump
  have hcheck : s.checkAt next = endCheck s.seq.mode (s.seePc s.hart next) (s.inTrans s.hart next) next (e :: rest) false := by rw [State.checkAt, hl]
  rw [hcheck] at hloops hedge hpc
  refine ⟨fun haway => ?away, fun hmode hstop hbody hmore => ?back, fun hmode hstop hlast => ?pop⟩
  case away =>
    rw [endCheck_away haway] at hloops hedge hpc
    exact ⟨hloops.trans hl.symm, hedge, hpc⟩
  case back =>
    rw [endCheck_back hmode hstop hbody hmore] at hloops hedge hpc
    exact ⟨hloops, hedge, hpc⟩
  case pop =>
    obtain ⟨uloops, -, upc⟩ := retire_endCheck (s.withLoops rest) next jump
    rw [State.withLoops_checkAt] at uloops upc
    rw [endCheck_pop hmode hstop hlast, endCheck_true] at hloops hedge hpc
    exact ⟨hloops.trans uloops.symm, hedge, fun hb => (hpc hb).trans (upc (State.OneBody.withLoops hb rest)).symm⟩

end Sys2Proof.Machine
end

section
/-! PROOFS. Traps that report an error: EPEND, the erack count and the report (R106). -/

namespace Sys2Proof.Machine

open Claim

variable {s : State} {c : Nat} {v : Word}

/-! ## The causes -/

theorem setsEpend_iff : setsEpend c = true ↔ c = 24 ∨ c = 29 ∨ c = 30 ∨ c = 48 := by
  simp [setsEpend, or_assoc]

theorem takeTrap_of_setsEpend (h : setsEpend c = true) (v : Word) :
    s.takeTrap c v = (s.reportTrap s.hart c (s.seePc s.hart s.seq.pc) v).upd fun q => q.trapTo (s.seePc s.hart s.seq.pc) c v := by
  have hsup : ¬ (c = 28 ∨ c = 49) := by
    have := setsEpend_iff.mp h
    omega
  simp only [State.takeTrap, if_neg hsup, if_pos h]

/-! ## The report -/

/-- A hart that has taken one more such trap. -/
def Seq.counted (q : Seq) : Seq := { q with epend := true, eraCount := BitVec.ofNat 64 (min (q.eraCount.toNat + 1) (2 ^ 64 - 1)) }

/-- The entry of a trap in its partition's log. -/
def State.trapEntry (s : State) (c : Nat) (v : Word) : LogEntry :=
  { type := if c = 30 then 4 else 14, sev := 2, ovr := s.seq.epend, cls := 0, idx := s.hart, addr := v, qid := s.qidOf s.hart,
    data := if c = 30 then leBytes 8 s.hart ++ leBytes 8 v.toNat else leBytes 8 c ++ leBytes 8 s.hart ++ leBytes 8 v.toNat }

/-- The trap counted and in the log. -/
def State.logged (s : State) (c : Nat) (v : Word) : State := (s.upd Seq.counted).logEntry (s.partOf s.hart) (s.trapEntry c v)

theorem State.setSeq_self (s : State) (q : Seq) : s.setSeq s.hart q = s.upd fun _ => q := if_pos rfl

theorem reportTrap_eq (epc : Word) : s.reportTrap s.hart c epc v =
    match s.seq.task with
    | none => s.logged c v
    | some k =>
      if c = 48 then (s.logged c v).modLaunch k.launch fun l => { l with severed := true }
      else (s.logged c v).errRecord k.launch c s.hart (if s.seq.epend then 4 else 0) k.lin epc v (s.info0 k c v) 0 := by
  unfold State.reportTrap
  simp only [State.getSeq_self, State.setSeq_self]
  rfl

theorem State.launchWrite_bareHarts (s : State) (l : Launch) (which : Nat) (va : Word) (bs : List Byte) :
    (s.launchWrite l which va bs).bareHarts = s.bareHarts := by
  have hwritten := State.frontWrite_bareHarts s l.part l.qid (.report which) va bs
  unfold State.launchWrite
  split
  next e => rw [e] at hwritten; exact hwritten
  next e => rw [e] at hwritten; exact (State.logEntry_bareHarts ..).trans hwritten

theorem State.errRecord_bareHarts (s : State) (launch cause hart flags lin : Nat) (epc tval i0 i1 : Word) :
    (s.errRecord launch cause hart flags lin epc tval i0 i1).bareHarts = s.bareHarts := by
  unfold State.errRecord State.errHeader
  split
  · rfl
  · split
    · rfl
    · split
      · exact State.launchWrite_bareHarts ..
      · exact (State.launchWrite_bareHarts ..).trans (State.launchWrite_bareHarts ..)

/-- The report changes no hart but for reservations. -/
theorem reportTrap_bareHarts (epc : Word) : (s.reportTrap s.hart c epc v).bareHarts = (s.upd Seq.counted).bareHarts := by
  have hlogged : (s.logged c v).bareHarts = (s.upd Seq.counted).bareHarts := State.logEntry_bareHarts ..
  rw [reportTrap_eq]
  split
  · exact hlogged
  · split
    · exact hlogged
    · exact (State.errRecord_bareHarts ..).trans hlogged

theorem Seq.trapTo_epend (q : Seq) (epc : Word) : (q.trapTo epc c v).epend = q.epend ∧ (q.trapTo epc c v).eraCount = q.eraCount := by
  unfold Seq.trapTo
  dsimp only
  split <;> exact ⟨rfl, rfl⟩

theorem takeTrap_counts (h : setsEpend c = true) (v : Word) :
    (s.takeTrap c v).seq.epend = true ∧ (s.takeTrap c v).seq.eraCount = BitVec.ofNat 64 (min (s.seq.eraCount.toNat + 1) (2 ^ 64 - 1)) := by
  have hbare : (s.reportTrap s.hart c (s.seePc s.hart s.seq.pc) v).seq.noResv = s.seq.counted.noResv :=
    congrArg (fun b => b.2.1) (reportTrap_bareHarts (s := s) (c := c) (v := v) _)
  obtain ⟨hepend, hcount⟩ := Seq.trapTo_epend (c := c) (v := v) (s.reportTrap s.hart c (s.seePc s.hart s.seq.pc) v).seq (s.seePc s.hart s.seq.pc)
  rw [takeTrap_of_setsEpend h]
  exact ⟨hepend.trans (congrArg Seq.epend hbare :), hcount.trans (congrArg Seq.eraCount hbare :)⟩

/-! ## EPEND in a save area, and at a binding -/

/-- A field past the first one of a layout is a field of the rest. -/
theorem fld_append (n v : Nat) (b : List Byte) (off k : Nat) : fld (leBytes n v ++ b) (n + off) k = fld b off k := by
  rw [fld, List.drop_append, leBytes_length, Nat.add_sub_cancel_left, List.drop_eq_nil_of_le (by simp), List.nil_append, fld]

theorem fld_head (n v : Nat) (b : List Byte) : fld (leBytes n v ++ b) 0 n = v % 2 ^ (8 * n) := by
  rw [fld, List.drop_zero, List.take_append_of_le_length (by simp), List.take_of_length_le (by simp), leNat_leBytes]

theorem b2n_le_one (b : Bool) : b2n b ≤ 1 := by cases b <;> decide

/-- The flags of a context's save area (R303). -/
def State.areaFlags (s : State) (h : Nat) : Nat :=
  b2n ((s.core (coreOf h)).holder == some h) + (match (s.getSeq h).task with | some t => b2n t.hm * 2 + b2n t.pipe.isSome * 8 | none => 0) +
    b2n (s.getSeq h).epend * 4

theorem saveArea_flags (s : State) (h : Nat) : fld (s.saveArea h).bytes 0x0D 1 = s.areaFlags h % 2 ^ 8 := by
  unfold State.saveArea
  simp only [List.append_assoc]
  rw [fld_append 4 _ _ 9, fld_append 4 _ _ 5, fld_append 2 _ _ 3, fld_append 1 _ _ 2, fld_append 1 _ _ 1, fld_append 1 _ _ 0, fld_head]
  rfl

theorem bit2_of_flags {live hm pipe epend : Nat} (hlive : live ≤ 1) (hhm : hm ≤ 1) (hepend : epend ≤ 1) :
    (live + (hm * 2 + pipe * 8) + epend * 4) % 2 ^ 8 / 4 % 2 = epend := by
  omega

theorem saveArea_epend (s : State) (h : Nat) : fld (s.saveArea h).bytes 0x0D 1 / 4 % 2 = b2n (s.getSeq h).epend := by
  have hlive := b2n_le_one ((s.core (coreOf h)).holder == some h)
  have hepend := b2n_le_one (s.getSeq h).epend
  rw [saveArea_flags, State.areaFlags]
  cases (s.getSeq h).task with
  | none => exact bit2_of_flags (hm := 0) (pipe := 0) hlive (by decide) hepend
  | some t => exact bit2_of_flags hlive (b2n_le_one t.hm) hepend

/-- Writing x registers sets no EPEND and counts no trap. -/
theorem foldl_wx_epend (regs : List (Nat × Word)) (q : Seq) :
    (regs.foldl (fun q p => q.wx (BitVec.ofNat 5 p.1) p.2) q).eraCount = q.eraCount ∧
      (regs.foldl (fun q p => q.wx (BitVec.ofNat 5 p.1) p.2) q).epend = q.epend := by
  induction regs generalizing q with
  | nil => exact ⟨rfl, rfl⟩
  | cons p regs ih =>
    obtain ⟨hcount, hepend⟩ := ih (q.wx (BitVec.ofNat 5 p.1) p.2)
    rw [List.foldl_cons, hcount, hepend, Seq.wx_eq]
    exact ⟨rfl, rfl⟩

/-! ## The statement -/

/-- Settles O29: such a trap is its report and then its entry; the area's flags and a new task's sequencer are read off their layout. -/
theorem errorTrapsSetEpendAndErackClearsIt : Obligations.ErrorTrapsSetEpendAndErackClearsIt := by
  intro s
  refine ⟨fun c v h => takeTrap_counts h v, fun c v h => ⟨fun htask => ?_, fun k htask hc => ?_, fun k htask hc => ?_⟩, saveArea_epend s,
    fun _ _ _ _ => ⟨rfl, rfl⟩, fun h l t task => foldl_wx_epend _ _, fun c v h => ?_, fun c => setsEpend_iff, fun rd => completes_of_finish rfl⟩
  · rw [takeTrap_of_setsEpend h, reportTrap_eq, htask]
    rfl
  · rw [takeTrap_of_setsEpend h, reportTrap_eq, htask]
    simp only [if_neg hc]
    rfl
  · rw [takeTrap_of_setsEpend h, reportTrap_eq, htask]
    simp only [if_pos hc]
    rfl
  · rw [takeTrap_of_plain h]
    exact Seq.trapTo_epend _ _

end Sys2Proof.Machine
end

section
/-! PROOFS. migrate (R105), of a halted sequencer that runs no task. -/

namespace Sys2Proof.Machine

open Claim

variable {s e t u : State}

/-! ## The other harts of an instruction that completes -/

theorem Claim.KeepsOthers.getSeq (h : KeepsOthers e t) {k : Nat} (hk : k ≠ e.hart) : t.getSeq k = e.getSeq k := by
  unfold KeepsOthers at h
  rw [h]
  simp only [State.getSeq, if_neg hk]

/-- A register of the running hart that is written leaves the other harts as they are. -/
theorem State.getSeq_setX (s : State) (rd : Reg) (v : Word) {k : Nat} (hk : k ≠ s.hart) : (s.setX rd v).getSeq k = s.getSeq k := by
  have hk' : k ≠ (s.setX rd v).hart := hk
  rw [State.getSeq, State.getSeq, if_neg hk, if_neg hk', State.setX_seqs]

/-- Two effects with which an instruction completes agree on every hart but the running one, up to the registers of that one. -/
theorem getSeq_of_completes {i : Instr} {rd : Reg} {v : Word} (h : Completes i s (e.setX rd v)) (hu : exec i s = finish (.ok () (u.setX rd v))) {k : Nat}
    (hk : k ≠ u.hart) : e.getSeq k = u.getSeq k := by
  obtain ⟨t, ht, hret⟩ := h
  obtain rfl : (u.setX rd v).retire (u.setX rd v).nextPc false = t := Host.Outcome.next.inj (hu.symm.trans ht)
  have hkeeps := (retired_retire (u.setX rd v) (u.setX rd v).nextPc false).others
  have hhart : u.hart = e.hart := (congrArg State.hart hkeeps :).symm.trans (congrArg State.hart hret.others :)
  calc e.getSeq k = (e.setX rd v).getSeq k := (e.getSeq_setX rd v (hhart ▸ hk)).symm
    _ = ((u.setX rd v).retire (u.setX rd v).nextPc false).getSeq k := (hret.others.getSeq (e := e.setX rd v) (hhart ▸ hk)).symm
    _ = (u.setX rd v).getSeq k := hkeeps.getSeq hk
    _ = u.getSeq k := u.getSeq_setX rd v hk

/-! ## migrate -/

theorem exec_migrate_moves {rd rs1 rs2 : Reg} (hmode : s.seq.mode ≠ .u)
    (hnear : (s.x rs1).toNat < 4096 ∧ hartCluster (s.x rs1).toNat = hartCluster s.hart ∧ (s.getSeq (s.x rs1).toNat).run = .halted)
    (hstatus : s.moveStatus (s.x rs1).toNat (s.x rs2).toNat = none) (hdrained : (s.getSeq (s.x rs1).toNat).drained = true)
    (hroom : s.replyRoom (s.x rs1).toNat (s.x rs2).toNat = true) :
    exec (.migrate rd rs1 rs2) s = finish (.ok () ((s.moveContext (s.x rs1).toNat (s.x rs2).toNat).setX rd 0)) := by
  obtain ⟨hcore, hcluster, hhalted⟩ := hnear
  have hfar : ¬ (4096 ≤ (s.x rs1).toNat ∨ hartCluster (s.x rs1).toNat ≠ hartCluster s.hart ∨ (s.getSeq (s.x rs1).toNat).run ≠ .halted) := by
    rintro (h | h | h)
    · exact absurd hcore (Nat.not_lt.mpr h)
    · exact h hcluster
    · exact h hhalted
  show finish _ = _
  simp only [if_neg hmode, if_neg hfar, hstatus, hdrained, hroom]
  rfl

/-- Hart 1 is halted in a loop and runs no task, and hart 0, in M mode, names it in x10. -/
def idleHalted : State :=
  { State.reset.setX 10 1 with
    seqs := [(1, { Seq.reset with run := .halted, loops := [{ start := 0x100, stop := 0x110, count := 3, index := 0, mode := .m }] })] }

/-- As hart 1 has no task, it is free too, and the statement's migrate from hart 1 to hart 1 goes ahead: the context is written there and then freed. -/
theorem idleHalted_migrate_self : (idleHalted.x 10).toNat = 1 ∧ idleHalted.seq.mode ≠ .u ∧ idleHalted.hart = 0 ∧ hartCluster 1 = hartCluster 0 ∧
    (idleHalted.getSeq 1).run = .halted ∧ idleHalted.moveStatus 1 1 = none ∧ (idleHalted.getSeq 1).drained = true ∧ idleHalted.replyRoom 1 1 = true ∧
    (idleHalted.moveContext 1 1).hart = 0 ∧ ((idleHalted.moveContext 1 1).getSeq 1).loops = [] ∧ (idleHalted.getSeq 1).loops ≠ [] := by
  decide +kernel

/-- Refutes O47: a halted sequencer without a task is a free destination for itself, and migrate to itself clears its loops where the statement keeps them. -/
theorem not_tasksEndAndContextsMove : ¬ Obligations.TasksEndAndContextsMove := by
  intro h
  obtain ⟨-, -, -, -, hmigrate, -⟩ := h
  obtain ⟨hx, hmode, hhart, hcluster, hhalted, hstatus, hdrained, hroom, hhart', hfreed, hopen⟩ := idleHalted_migrate_self
  obtain ⟨-, -, hmoves⟩ := hmigrate idleHalted 5 10 10 hmode
  have hexec := exec_migrate_moves (s := idleHalted) (rd := 5) (rs1 := 10) (rs2 := 10) hmode
  rw [hx] at hmoves hexec
  have hnear : 1 < 4096 ∧ hartCluster 1 = hartCluster idleHalted.hart ∧ (idleHalted.getSeq 1).run = .halted := ⟨by decide, hhart ▸ hcluster, hhalted⟩
  obtain ⟨e, hcompletes, -, -, -, -, -, hloops, -⟩ := (hmoves hnear hstatus).2 hdrained hroom
  have hne : 1 ≠ (idleHalted.moveContext 1 1).hart := hhart' ▸ by decide
  have hagree := getSeq_of_completes hcompletes (hexec hnear hstatus hdrained hroom) hne
  exact hopen (hloops.symm.trans ((congrArg Seq.loops hagree).trans hfreed))

end Sys2Proof.Machine
end

section
/-! PROOFS. The number of registers, the unit given up (R114, R124), and the mask stack (R117 to R119). -/

namespace Sys2Proof.Machine

open Claim

variable {s : State} {rd rs1 : Reg} {v : Vec} {r k j : Nat} {entry : MaskEntry} {stack : List MaskEntry}

/-! ## vregcfg and vrelease -/

/-- The vector state that vregcfg leaves for c registers. -/
def Vec.configured (v : Vec) (c draws : Nat) : Vec :=
  { v.setIll with nreg := if c = 8 then 0 else if c = 16 then 1 else 2, fresh := true, regs := Vector.ofFn fun r : Fin 32 => freeReg draws r v.vlen }

theorem Vec.configured_nregs {c : Nat} (hc : c = 8 ∨ c = 16 ∨ c = 32) (v : Vec) (draws : Nat) : (v.configured c draws).nregs = c := by
  obtain rfl | rfl | rfl := hc <;> rfl

theorem Vec.vill_of_vtype (h : v.vtype = 0x8000000000000000) : v.vill = true := by
  rw [Vec.vill, h]
  decide

theorem exec_vregcfg_refused (h : s.seq.vec.released = true ∨ s.seq.vec.mdepth ≠ 0) : exec (.vregcfg rd rs1) s = finishV s.illegal :=
  congrArg finishV (if_pos (by rcases h with h | h <;> simp [h]))

theorem exec_vrelease_refused (h : s.seq.vec.released = true ∨ (s.seq.vec.fresh = true ∧ s.seq.vec.vlen ≠ 0)) :
    exec .vrelease s = finishV s.illegal :=
  congrArg finishV (if_pos (by rcases h with h | ⟨hfresh, hvlen⟩ <;> simp [*]))

section
variable (hcore : s.onCore = true) (hvec : s.vecOn = true) (hstart : s.seq.vec.vstart = 0) (hheld : s.seq.vec.released = false)
include hcore hvec hstart hheld

/-- With the unit held and no mask kept, vregcfg asks only whether it knows the number. -/
theorem exec_vregcfg (hdepth : s.seq.vec.mdepth = 0) :
    exec (.vregcfg rd rs1) s = finishV (
      if (s.x rs1).toNat ≠ 8 ∧ (s.x rs1).toNat ≠ 16 ∧ (s.x rs1).toNat ≠ 32 then .ok (s.vinfoCfg 4108) (s.setX rd 0)
      else
        let s1 := s.updVec fun v => v.configured (s.x rs1).toNat s.draws
        .ok (s1.vinfoCfg 4108) (s1.setX rd (BitVec.ofNat 64 s.seq.vec.nregs))) :=
  congrArg finishV (if_neg (by simp [hcore, hvec, hstart, hheld, hdepth]))

theorem vregcfg_configures (hdepth : s.seq.vec.mdepth = 0) (hc : (s.x rs1).toNat = 8 ∨ (s.x rs1).toNat = 16 ∨ (s.x rs1).toNat = 32) :
    VCompletes (.vregcfg rd rs1) s
      ((s.updVec fun v => v.configured (s.x rs1).toNat s.draws).setX rd (BitVec.ofNat 64 s.seq.vec.nregs)) := by
  have hexec := exec_vregcfg (rd := rd) (rs1 := rs1) hcore hvec hstart hheld hdepth
  rw [if_neg (by omega)] at hexec
  exact vCompletes_of_finishV_ok hexec

theorem vregcfg_answers_zero (hdepth : s.seq.vec.mdepth = 0) (hc : (s.x rs1).toNat ≠ 8 ∧ (s.x rs1).toNat ≠ 16 ∧ (s.x rs1).toNat ≠ 32) :
    VCompletes (.vregcfg rd rs1) s (s.setX rd 0) := by
  have hexec := exec_vregcfg (rd := rd) (rs1 := rs1) hcore hvec hstart hheld hdepth
  rw [if_pos hc] at hexec
  exact vCompletes_of_finishV_ok hexec

theorem vrelease_completes (h : s.seq.vec.fresh = false ∨ s.seq.vec.vlen = 0) :
    VCompletes .vrelease s (s.updVec fun v => { v.dead with released := true }) :=
  vCompletes_of_finishV_ok (congrArg finishV (if_neg (by rcases h with h | h <;> simp [hcore, hvec, hstart, hheld, h])))

end

/-! ## Bits of masks -/

theorem lowMask_getLsbD (n j : Nat) : (lowMask n).getLsbD j = (decide (j < 65536) && decide (j < n)) := by
  rw [lowMask, BitVec.getLsbD_ofNat, Nat.testBit_two_pow_sub_one]

theorem lowMask_getElem (n : Nat) (hj : j < 65536) : (lowMask n)[j] = decide (j < n) := by
  rw [← BitVec.getLsbD_eq_getElem, lowMask_getLsbD, decide_eq_true hj, Bool.true_and]

/-- The bits below n of a mask that is itself k long, put in place of those of another. -/
theorem getLsbD_replaceLow (a b : VBits) (n k j : Nat) :
    ((a &&& ~~~lowMask n) ||| (b &&& lowMask k &&& lowMask n)).getLsbD j =
      if j < n then b.getLsbD j && decide (j < k) else a.getLsbD j := by
  by_cases hj : j < 65536
  · by_cases hn : j < n <;> simp [BitVec.getLsbD_eq_getElem, lowMask_getElem, hj, hn]
  · simp [BitVec.getLsbD_of_ge _ _ (Nat.le_of_not_lt hj)]

theorem Vec.bit_setReg_zero (v : Vec) (b : VBits) (j : Nat) : (v.setReg 0 b).bit 0 j = b.getLsbD j := by
  rw [Vec.bit, Vec.reg_setReg (by decide), if_pos rfl]

/-! ## The vector state after vmpush, vmelse and vmpop -/

/-- The entry of vmpush: v0 as it is, and the elements that the condition leaves out. -/
def Vec.maskEntry (v : Vec) (r : Nat) : MaskEntry :=
  { m := v.reg 0 &&& lowMask v.vlen, e := v.reg 0 &&& ~~~v.reg r &&& lowMask v.vl, vlene := v.vlen, depth := v.mdepth + 1 }

def Vec.pushed (v : Vec) (r : Nat) : Vec :=
  { v.setReg 0 (v.reg 0 &&& (v.reg r ||| ~~~lowMask v.vl)) with mstack := v.maskEntry r :: v.mstack, mdepth := v.mdepth + 1 }

def Vec.elsed (v : Vec) (entry : MaskEntry) : Vec :=
  v.setReg 0 ((v.reg 0 &&& ~~~lowMask v.vl) ||| (entry.e &&& lowMask entry.vlene &&& lowMask v.vl))

def Vec.popped (v : Vec) (entry : MaskEntry) : Vec :=
  { v.setReg 0 ((v.reg 0 &&& ~~~lowMask v.vlen) ||| (entry.m &&& lowMask entry.vlene &&& lowMask v.vlen)) with
    mstack := v.mstack.drop 1, mdepth := v.mdepth - 1 }

theorem Vec.maskEntry_m_getLsbD (v : Vec) (r : Nat) (h : j < v.vlen) : (v.maskEntry r).m.getLsbD j = v.bit 0 j := by
  by_cases hj : j < 65536
  · simp [Vec.maskEntry, Vec.bit, lowMask_getLsbD, hj, h]
  · simp [Vec.bit, BitVec.getLsbD_of_ge _ _ (Nat.le_of_not_lt hj)]

theorem Vec.maskEntry_e_getLsbD (v : Vec) (r : Nat) (h : j < v.vl) : (v.maskEntry r).e.getLsbD j = (v.bit 0 j && !v.bit r j) := by
  by_cases hj : j < 65536
  · simp [Vec.maskEntry, Vec.bit, lowMask_getLsbD, hj, h]
  · simp [Vec.bit, BitVec.getLsbD_of_ge _ _ (Nat.le_of_not_lt hj)]

theorem Vec.pushed_bit (v : Vec) (r j : Nat) : (v.pushed r).bit 0 j = (v.bit 0 j && (v.bit r j || !decide (j < v.vl))) := by
  refine (v.bit_setReg_zero _ j).trans ?_
  by_cases hj : j < 65536
  · simp [Vec.bit, lowMask_getElem, hj]
  · simp [Vec.bit, BitVec.getLsbD_of_ge _ _ (Nat.le_of_not_lt hj)]

theorem Vec.pushed_reg (v : Vec) (r : Nat) (hk : k ≠ 0) : (v.pushed r).reg k = v.reg k :=
  (Vec.reg_setReg (by decide) k _).trans (if_neg hk)

/-- Under the same vl, vmelse leaves the elements that the condition of vmpush left out. -/
theorem Vec.elsed_maskEntry_bit {u : Vec} (hu : u.vl = v.vl) (hvl : v.vl ≤ v.vlen) (hj : j < v.vl) :
    (u.elsed (v.maskEntry r)).bit 0 j = (v.bit 0 j && !v.bit r j) := by
  rw [Vec.elsed, Vec.bit_setReg_zero, getLsbD_replaceLow, hu, if_pos hj, Vec.maskEntry_e_getLsbD v r hj]
  exact Bool.and_eq_left_iff_imp.mpr fun _ => decide_eq_true (Nat.lt_of_lt_of_le hj hvl)

/-- Under the same VLEN, vmpop brings back v0 as it was at vmpush. -/
theorem Vec.popped_maskEntry_bit {u : Vec} (hu : u.vlen = v.vlen) (hj : j < v.vlen) : (u.popped (v.maskEntry r)).bit 0 j = v.bit 0 j := by
  refine (u.bit_setReg_zero _ j).trans ?_
  rw [getLsbD_replaceLow, hu, if_pos hj, Vec.maskEntry_m_getLsbD v r hj]
  exact Bool.and_eq_left_iff_imp.mpr fun _ => decide_eq_true hj

/-- The contents of registers and mask stack do not put the vector state out of order. -/
theorem vReady_of_contents {typed : Bool} (h : VReady s typed) (regs : Vector VBits 32) (stack : List MaskEntry) (depth : Nat) :
    VReady (s.updVec fun v => { v with regs := regs, mstack := stack, mdepth := depth }) typed := h

/-! ## How the mask instructions end -/

theorem vmpush_completes {vs1 : Reg} (hready : VReady s true) (hreg : vs1.toNat < s.seq.vec.nregs) (hdepth : s.seq.vec.mdepth + 1 < 2 ^ 32)
    (hroom : s.seq.vec.mstack.length < 8) : VCompletes (.vmpush vs1) s (s.updVec fun v => v.pushed vs1.toNat) := by
  have hdo : doVmpush s vs1 = s.vguard true true (.ok (s.vinfo 9 4320 true) (s.updVec fun v => v.pushed vs1.toNat)) := by
    have hroom' : ¬ 8 ≤ s.seq.vec.mstack.length := Nat.not_le.mpr hroom
    have hdepth' : ¬ s.seq.vec.mdepth = 2 ^ 32 - 1 := by omega
    simp only [doVmpush, hreg, decide_true, if_neg hdepth', if_neg hroom']
    rfl
  exact vCompletes_of_vguard (congrArg finishV hdo) hready rfl

theorem State.topMask_onChip (hdepth : s.seq.vec.mdepth ≠ 0) (hstack : s.seq.vec.mstack = entry :: stack) (info : VInfo) :
    s.topMask info = .ok (entry, info) s := by
  rw [State.topMask, if_neg hdepth]
  simp only [hstack]

theorem State.topMask_empty (hdepth : s.seq.vec.mdepth = 0) (info : VInfo) : s.topMask info = s.illegal := if_pos hdepth

theorem vmelse_completes (hready : VReady s true) (hdepth : s.seq.vec.mdepth ≠ 0) (hstack : s.seq.vec.mstack = entry :: stack) :
    VCompletes .vmelse s (s.updVec fun v => v.elsed entry) :=
  vCompletes_of_vguard (info := s.vinfo 9 4321 true) rfl hready (by rw [State.topMask_onChip hdepth hstack]; rfl)

theorem vmpop_completes (hready : VReady s true) (hdepth : s.seq.vec.mdepth ≠ 0) (hstack : s.seq.vec.mstack = entry :: stack) :
    VCompletes .vmpop s (s.updVec fun v => v.popped entry) :=
  vCompletes_of_vguard (info := s.vinfo 9 4322 true) rfl hready (by rw [State.topMask_onChip hdepth hstack]; rfl)

theorem vmelse_of_empty (hready : VReady s true) (hdepth : s.seq.vec.mdepth = 0) : exec .vmelse s = .next (s.takeTrap 2 s.seq.latch.bits) :=
  traps_of_vguard rfl hready (by rw [State.topMask_empty hdepth]; rfl)

theorem vmpop_of_empty (hready : VReady s true) (hdepth : s.seq.vec.mdepth = 0) : exec .vmpop s = .next (s.takeTrap 2 s.seq.latch.bits) :=
  traps_of_vguard rfl hready (by rw [State.topMask_empty hdepth]; rfl)

end Sys2Proof.Machine

namespace Sys2Proof.Machine

open Claim

/-- Settles O38: each instruction by its refusals, and then by what it makes of the vector state. -/
theorem vregcfgAndVreleaseReshapeTheUnit : Obligations.VregcfgAndVreleaseReshapeTheUnit := by
  intro s rd rs1 hcore hvec hstart
  refine ⟨fun hheld hdepth hc => ?configures, fun hheld hdepth h8 h16 h32 => ?unknown, fun h => ?refused, fun hheld h => ?releases,
    fun h => ?unreleased⟩
  case configures =>
    exact ⟨_, vregcfg_configures hcore hvec hstart hheld hdepth hc, Vec.configured_nregs hc .., Vec.vill_of_vtype rfl, rfl, rfl, rfl⟩
  case unknown =>
    exact vregcfg_answers_zero hcore hvec hstart hheld hdepth ⟨h8, h16, h32⟩
  case refused =>
    exact traps_of_finishV (exec_vregcfg_refused h)
  case releases =>
    exact ⟨_, vrelease_completes hcore hvec hstart hheld h, rfl, rfl, rfl, rfl, rfl, rfl, Vec.vill_of_vtype rfl⟩
  case unreleased =>
    exact traps_of_finishV (exec_vrelease_refused h)

/-- Settles O39: vmpush leaves its entry on top, whatever the registers then become, and vmelse and vmpop read it there. -/
theorem maskStackPushElsePop : Obligations.MaskStackPushElsePop := by
  intro s vs1 hready
  refine ⟨fun hreg hdepth hroom hvl => ?_, fun hempty => ⟨vmelse_of_empty hready hempty, vmpop_of_empty hready hempty⟩⟩
  have hlater (regs : Vector VBits 32) := vReady_of_contents hready regs (s.seq.vec.maskEntry vs1.toNat :: s.seq.vec.mstack) (s.seq.vec.mdepth + 1)
  refine ⟨_, vmpush_completes hready hreg hdepth hroom, rfl, fun j hj => ?selected, fun j hj => ?kept, fun r hr => Vec.pushed_reg _ _ hr,
    fun e2 he2 => ?elses, fun e2 he2 => ?pops⟩
  case selected =>
    exact (Vec.pushed_bit ..).trans (by simp [hj])
  case kept =>
    exact (Vec.pushed_bit ..).trans (by simp [Nat.not_lt.mpr hj])
  case elses =>
    rw [he2]
    exact ⟨_, vmelse_completes (hlater e2.regs) (Nat.succ_ne_zero _) rfl, fun j hj => Vec.elsed_maskEntry_bit rfl hvl hj⟩
  case pops =>
    rw [he2]
    exact ⟨_, vmpop_completes (hlater e2.regs) (Nat.succ_ne_zero _) rfl, rfl, rfl, fun j hj => Vec.popped_maskEntry_bit rfl hj⟩

end Sys2Proof.Machine
end

section
/-! PROOFS. Stores of located bytes: the bytes that they write and the Bead words that they reckon (R136, R209, R220). -/

namespace Sys2Proof.Machine
open Sys2Proof.Machine.Claim

variable {s t u : State} {may : Nat → Prop} {via : Via} {l : Loc} {ls : List Loc} {bs : List Byte}

/-! ## What a reckoning rests on -/

/-- The partitions, the poison, the Bead words and the parked records, which decide what a reckoning loses. -/
def State.pools (s : State) : List (Nat × Part) × List Nat × List (Nat × Bead) × List (Nat × Nat) :=
  (s.parts, s.coh.poison, s.coh.beads, s.coh.away)

/-- From s to t no poison, no Bead word and no parked record was added, and no byte of memory changed but where it may. -/
structure State.Alters (s t : State) (may : Nat → Prop) : Prop where
  parts : t.parts = s.parts
  poison : t.coh.poison ⊆ s.coh.poison
  beads : t.coh.beads ⊆ s.coh.beads
  away : t.coh.away ⊆ s.coh.away
  bytes : ∀ a, ¬ may a → memGet t.mem a = memGet s.mem a

theorem State.Alters.of_pools (hpools : t.pools = s.pools) (hbytes : ∀ a, ¬ may a → memGet t.mem a = memGet s.mem a) : s.Alters t may := by
  simp only [State.pools, Prod.mk.injEq] at hpools
  obtain ⟨hparts, hpoison, hbeads, haway⟩ := hpools
  exact ⟨hparts, hpoison ▸ List.Subset.refl _, hbeads ▸ List.Subset.refl _, haway ▸ List.Subset.refl _, hbytes⟩

theorem State.Alters.of_mem (hpools : t.pools = s.pools) (hmem : t.mem = s.mem) : s.Alters t may := .of_pools hpools fun _ _ => by rw [hmem]

theorem State.Alters.refl (s : State) : s.Alters s may := .of_mem rfl rfl

theorem State.Alters.trans (h : s.Alters t may) (h' : t.Alters u may) : s.Alters u may :=
  ⟨h'.parts.trans h.parts, List.Subset.trans h'.poison h.poison, List.Subset.trans h'.beads h.beads, List.Subset.trans h'.away h.away,
    fun a ha => (h'.bytes a ha).trans (h.bytes a ha)⟩

theorem State.Alters.mono {more : Nat → Prop} (h : s.Alters t may) (hmore : ∀ a, may a → more a) : s.Alters t more :=
  ⟨h.parts, h.poison, h.beads, h.away, fun a ha => h.bytes a (mt (hmore a) ha)⟩

theorem State.Alters.beadsIn (h : s.Alters t may) (pa n : Nat) : t.beadsIn pa n ⊆ s.beadsIn pa n := by
  intro w hw
  obtain ⟨p, hp, rfl⟩ := List.mem_map.mp hw
  obtain ⟨hmem, hin⟩ := List.mem_filter.mp hp
  exact List.mem_map.mpr ⟨p, List.mem_filter.mpr ⟨h.beads hmem, hin⟩, rfl⟩

theorem State.Alters.partOfHbm (h : s.Alters t may) (pa : Nat) : t.partOfHbm pa = s.partOfHbm pa := by
  rw [State.partOfHbm, h.parts, ← State.partOfHbm]

theorem State.Alters.pool_sound (h : s.Alters t may) {part e : Nat} (hs : s.poisoned (s.poolEntry part e) 2048 = false) :
    t.poisoned (t.poolEntry part e) 2048 = false := by
  have hentry : t.poolEntry part e = s.poolEntry part e := by rw [State.poolEntry, State.part, h.parts, ← State.part, ← State.poolEntry]
  rw [hentry]
  exact List.any_eq_false.mpr fun k hk => List.any_eq_false.mp hs k (h.poison hk)

theorem State.Alters.partialLost (h : s.Alters t may) {part : Nat} {p : Partial} (hs : s.partialLost part p = false) :
    t.partialLost part p = false := by
  unfold State.partialLost at hs ⊢
  split at hs
  · exact h.pool_sound hs
  · rfl

/-- Park pools that are sound stay so where no poison and no record is added. -/
theorem State.Alters.poolSound (h : s.Alters t may) (hs : poolSound s) : poolSound t := by
  obtain ⟨hparts, haway⟩ := hs
  refine ⟨fun b hb p hp => ?_, fun w hw => ?_⟩
  · rw [h.partOfHbm]
    exact h.partialLost (hparts b (h.beads hb) p hp)
  · rw [h.partOfHbm]
    exact h.pool_sound (haway w (h.away hw))

/-! ## Reckoning -/

theorem State.wakeHome_pools (s : State) (home : Nat) : (s.wakeHome home).pools = s.pools := by
  unfold State.wakeHome
  split <;> rfl

theorem State.setXV_pools (s : State) (h : Nat) (fl : BitVec 4) : (s.setXV h fl).pools = s.pools := by simp [State.pools]

theorem State.modLines_pools (s : State) (pa n : Nat) (f : BitVec 32 → DirLine → DirLine) : (s.modLines pa n f).pools = s.pools := by
  unfold State.modLines
  split
  · rfl
  · refine foldl_keeps State.pools (fun _ _ => ?_) _ _
    rfl

/-- From a sound pool a record comes back whole (R222). -/
theorem State.bringBack_alters (hsound : poolSound s) (line : Nat) : s.Alters (s.bringBack line) may := by
  unfold State.bringBack
  split
  · exact .refl s
  next e he =>
    rw [if_pos (hsound.2 (line, e) (mem_of_aget he))]
    exact ⟨rfl, List.Subset.refl _, List.Subset.refl _, List.filter_sublist.subset, fun _ _ => rfl⟩

theorem State.bringLines_alters (hsound : poolSound s) (pa n : Nat) : s.Alters (s.bringLines pa n) may := by
  unfold State.bringLines
  split
  · exact .refl s
  · refine List.foldlRecOn (motive := fun t => s.Alters t may) _ _ (.refl s) fun t ht i _ => ht.trans ?_
    exact State.bringBack_alters (ht.poolSound hsound) _

theorem tagBytes_le (tag : Nat) : tagBytes tag ≤ 8 := by
  unfold tagBytes
  split <;> decide

/-- The bits of a Bead word put at its home: the record goes, and the reservations and copies that the write meets; the slices that hold its partials
wake (R219, R223). -/
def State.homeBead (s : State) (word : Nat) (b : Bead) (bits : Nat) : State :=
  let s1 := { s with mem := if s.isCodePage word then s.mem else memWrite s.mem word (leBytes (tagBytes b.tag) bits),
                     coh := { s.coh with beads := adel s.coh.beads word } }
  let s2 := (s1.breakResv word (tagBytes b.tag) none).modDir (word / 128) fun d => d.invalidate (spanMask word (tagBytes b.tag)) none
  b.parts.foldl (fun st p => if p.parked.isNone then st.wakeHome p.core else st) s2

/-- Where no partial is lost, a reckoning puts a Bead word at its home and does nothing else but for the reader's flags. -/
theorem State.reckonWord_eq {word : Nat} {b : Bead} (hb : aget s.coh.beads word = some b)
    (hlost : b.parts.filter (s.partialLost (s.partOfHbm word)) = []) (reader : Option Nat) : ∃ (bits : Nat) (xf : BitVec 4),
    s.reckonWord word reader = match reader with
      | some h => if xf = 0 then s.homeBead word b bits else (s.homeBead word b bits).setXV h xf
      | none => s.homeBead word b bits := by
  unfold State.reckonWord
  rw [hb]
  dsimp only
  rw [hlost]
  exact ⟨_, _, rfl⟩

theorem State.homeBead_alters (hwf : s.WfMem) (word : Nat) (b : Bead) (bits : Nat) :
    s.Alters (s.homeBead word b bits) fun a => word ≤ a ∧ a < word + 8 := by
  have hmem : (s.homeBead word b bits).mem = if s.isCodePage word then s.mem else memWrite s.mem word (leBytes (tagBytes b.tag) bits) := by
    refine (foldl_mem _ (fun st p => ?_) _ _).trans rfl
    split
    · exact State.wakeHome_mem ..
    · rfl
  have hpools : (s.homeBead word b bits).pools = (s.parts, s.coh.poison, adel s.coh.beads word, s.coh.away) := by
    refine (foldl_keeps State.pools (fun st p => ?_) _ _).trans rfl
    split
    · exact State.wakeHome_pools ..
    · rfl
  obtain ⟨hparts, hpoison, hbeads, haway⟩ : _ ∧ _ ∧ _ ∧ _ := by simpa only [State.pools, Prod.mk.injEq] using hpools
  refine ⟨hparts, hpoison ▸ List.Subset.refl _, hbeads ▸ List.filter_sublist.subset, haway ▸ List.Subset.refl _, fun a ha => ?_⟩
  have hlen := tagBytes_le b.tag
  rw [hmem]
  split
  · rfl
  · exact memGet_memWrite_out _ _ _ _ hwf (by rw [leBytes_length]; omega)

theorem State.reckonWord_alters (hwf : s.WfMem) (hsound : poolSound s) (word : Nat) (reader : Option Nat) :
    s.Alters (s.reckonWord word reader) fun a => word ≤ a ∧ a < word + 8 := by
  cases hb : aget s.coh.beads word with
  | none =>
    rw [State.reckonWord, hb]
    exact .refl s
  | some b =>
    have hlost : b.parts.filter (s.partialLost (s.partOfHbm word)) = [] :=
      List.filter_eq_nil_iff.mpr fun p hp => Bool.eq_false_iff.mp (hsound.1 (word, b) (mem_of_aget hb) p hp)
    obtain ⟨bits, xf, heq⟩ := State.reckonWord_eq hb hlost reader
    rw [heq]
    refine (State.homeBead_alters hwf word b bits).trans ?_
    split
    · split
      · exact .refl _
      · exact .of_mem (State.setXV_pools ..) (State.setXV_mem ..)
    · exact .refl _

/-- The bytes of the Bead words that overlap a range. -/
def State.beadBytes (s : State) (pa n a : Nat) : Prop := ∃ w ∈ s.beadsIn pa n, w ≤ a ∧ a < w + 8

/-- A reckoning of a range changes the Bead words that overlap it alone (R219, R220). -/
theorem State.reckonRange_alters (hwf : s.WfMem) (hsound : poolSound s) (pa n : Nat) (reader : Option Nat) :
    s.Alters (s.reckonRange pa n reader) (s.beadBytes pa n) := by
  have hbrought : s.Alters (s.bringLines pa n) (s.beadBytes pa n) := State.bringLines_alters hsound pa n
  have hwords : (s.reckonRange pa n reader).WfMem ∧ s.Alters (s.reckonRange pa n reader) (s.beadBytes pa n) := by
    refine List.foldlRecOn (motive := fun t => t.WfMem ∧ s.Alters t (s.beadBytes pa n)) _ _ ⟨State.bringLines_wfMem s pa n hwf, hbrought⟩
      fun t ⟨htwf, ht⟩ w hw => ⟨State.reckonWord_wfMem t w reader htwf, ht.trans ?_⟩
    exact (State.reckonWord_alters htwf (ht.poolSound hsound) w reader).mono fun a ha => ⟨w, hbrought.beadsIn pa n hw, ha⟩
  exact hwords.2

/-! ## Writes of located bytes -/

/-- A write at home or at a bank, of no code page and of no core's P line, puts its bytes. -/
theorem State.putBytes_mem_of_memory (hcode : l.t = .hbm → s.isCodePage l.pa = false) (hhome : ¬ (l.t = .hbm ∧ l.kind = .p ∧ via.num < 1024)) :
    (s.putBytes via l bs).mem = memWrite s.mem l.pa bs := by
  have hmem : (if l.t = .hbm then s.wakeHome l.home else s).mem = s.mem := by
    split
    · exact State.wakeHome_mem ..
    · rfl
  unfold State.putBytes
  dsimp only
  rw [if_neg fun c => Bool.eq_false_iff.mp (hcode c.1) c.2.2, if_neg hhome]
  split <;> simp

theorem State.putBytes_pStore (hcode : s.isCodePage l.pa = false) (hp : l.t = .hbm ∧ l.kind = .p ∧ via.num < 1024) :
    s.putBytes via l bs = s.pStore via.num l.pa bs via.hart := by
  unfold State.putBytes
  dsimp only
  rw [if_neg fun c => Bool.eq_false_iff.mp hcode c.2.2, if_pos hp]

theorem State.pWrite_pools (s : State) (core pa : Nat) (bs : List Byte) : (s.pWrite core pa bs).pools = s.pools := by
  induction bs generalizing s pa with
  | nil => rfl
  | cons b bs ih => exact ih _ _

theorem State.clearPoison_alters (s : State) (pa n : Nat) : s.Alters (s.clearPoison pa n) may :=
  ⟨rfl, List.filter_sublist.subset, List.Subset.refl _, List.Subset.refl _, fun _ _ => rfl⟩

theorem State.putBytes_alters (hwf : s.WfMem) (via : Via) (l : Loc) (bs : List Byte) :
    s.Alters (s.putBytes via l bs) fun a => l.pa ≤ a ∧ a < l.pa + bs.length := by
  have hwoken : (if l.t = .hbm then s.wakeHome l.home else s).pools = s.pools := by
    split
    · exact State.wakeHome_pools ..
    · rfl
  unfold State.putBytes
  dsimp only
  generalize (if l.t = .hbm then s.wakeHome l.home else s) = w at hwoken
  have hwritten : s.Alters (({ w with mem := memWrite s.mem l.pa bs } : State).breakResv l.pa bs.length via.hart)
      fun a => l.pa ≤ a ∧ a < l.pa + bs.length :=
    .of_pools hwoken fun a ha => memGet_memWrite_out _ _ _ _ hwf (by omega)
  have hcleared := hwritten.trans (State.clearPoison_alters _ l.pa bs.length)
  split
  · exact .refl s
  · split
    · exact .of_mem (State.pWrite_pools _ via.num l.pa bs) (State.pStore_mem ..)
    · split
      · exact hcleared.trans (.of_mem (State.modLines_pools ..) (State.modLines_mem ..))
      · exact hcleared

theorem State.noteWrite_pools (s : State) (via : Via) (l : Loc) (n : Nat) : (s.noteWrite via l n).pools = s.pools := by
  unfold State.noteWrite
  repeat' split
  all_goals rfl

/-- One piece of a store changes what it touches. -/
theorem State.writeLoc_alters (hwf : s.WfMem) (hsound : poolSound s) (via : Via) (l : Loc) (hlen : bs.length ≤ l.len) :
    s.Alters (s.writeLoc via l bs) (touched s [l]) := by
  unfold State.writeLoc
  split
  · split
    · exact .of_mem (by simp [State.peerSend, State.pools]) (State.peerSend_mem ..)
    · exact .refl s
  · exact .refl s
  · refine .of_mem ?_ (State.inFlight_mem ..)
    unfold State.inFlight
    split <;> rfl
  · have hready : (if l.needsRod then s.reckonRange l.pa l.len none else s).WfMem ∧
        s.Alters (if l.needsRod then s.reckonRange l.pa l.len none else s) (touched s [l]) := by
      split
      · have hreckoned := State.reckonRange_alters hwf hsound l.pa l.len none
        exact ⟨State.reckonRange_wfMem s _ _ _ hwf, hreckoned.mono fun a ha => .inr ⟨l, List.mem_singleton_self l, ha⟩⟩
      · exact ⟨hwf, .refl s⟩
    refine (hready.2.trans ?_).trans (.of_mem (State.noteWrite_pools ..) (State.noteWrite_mem ..))
    exact (State.putBytes_alters hready.1 via l bs).mono fun a ha => .inl ⟨l, List.mem_singleton_self l, ha.1, by omega⟩

theorem State.writeLocs_alters (hwf : s.WfMem) (hsound : poolSound s) (via : Via) (ls : List Loc) (bs : List Byte) :
    s.Alters (s.writeLocs via ls bs) (touched s ls) := by
  induction ls generalizing s bs with
  | nil => exact .refl s
  | cons l ls ih =>
    have hfirst := State.writeLoc_alters hwf hsound via l (bs := bs.take l.len) (List.length_take_le ..)
    refine (hfirst.mono ?_).trans ((ih (State.writeLoc_wfMem s via l _ hwf) (hfirst.poolSound hsound) (bs.drop l.len)).mono ?_)
    · rintro a (⟨k, hk, ha⟩ | ⟨k, hk, ha⟩)
      · exact .inl ⟨k, List.mem_cons.mpr (.inl (List.mem_singleton.mp hk)), ha⟩
      · exact .inr ⟨k, List.mem_cons.mpr (.inl (List.mem_singleton.mp hk)), ha⟩
    · rintro a (⟨k, hk, ha⟩ | ⟨k, hk, w, hw, ha⟩)
      · exact .inl ⟨k, List.mem_cons_of_mem l hk, ha⟩
      · exact .inr ⟨k, List.mem_cons_of_mem l hk, w, hfirst.beadsIn _ _ hw, ha⟩

/-! ## A core's own copy of a P line -/

/-- What a core has written of a P line is found in its copy. -/
theorem State.pWrite_find (s : State) (core pa : Nat) (bs : List Byte) (a : Nat) :
    (s.pWrite core pa bs).coh.plocal.find? (fun p => p.1.1 == core && p.1.2 == a) =
      if pa ≤ a ∧ a < pa + bs.length then some ((core, a), bs.getD (a - pa) 0)
      else s.coh.plocal.find? fun p => p.1.1 == core && p.1.2 == a := by
  induction bs generalizing s pa with
  | nil => exact (if_neg (by simp)).symm
  | cons b bs ih =>
    rw [State.pWrite, ih]
    by_cases ha : pa = a
    · subst ha
      simp
    · have hin : pa ≤ a ∧ a < pa + (b :: bs).length ↔ pa + 1 ≤ a ∧ a < pa + 1 + bs.length := by
        rw [List.length_cons]
        omega
      simp only [hin]
      split
      next hle => rw [show a - pa = a - (pa + 1) + 1 by omega, List.getD_cons_succ]
      next =>
        have hkept (p : (Nat × Nat) × Byte) :
            decide ((!(p.1.1 == core && p.1.2 == pa)) = true ∧ (p.1.1 == core && p.1.2 == a) = true) = (p.1.1 == core && p.1.2 == a) := by
          by_cases hp : p.1.2 = a
          · simp [hp, Ne.symm ha, Bool.beq_eq_decide_eq]
          · simp [hp]
        rw [List.find?_cons_of_neg (by simp [ha]), List.find?_filter]
        exact congrArg (List.find? · s.coh.plocal) (funext hkept)

theorem State.viewBytes_eq {core pa : Nat} {old : Bool} (h : ∀ k, k < bs.length → s.viewByte core (pa + k) old = bs.getD k 0) :
    s.viewBytes core pa old bs.length = bs := by
  induction bs generalizing pa with
  | nil => rfl
  | cons b bs ih =>
    refine List.cons_eq_cons.mpr ⟨h 0 (Nat.succ_pos _), ih fun k hk => ?_⟩
    have hnext := h (k + 1) (Nat.succ_lt_succ hk)
    rwa [List.getD_cons_succ, ← Nat.add_assoc, Nat.add_right_comm] at hnext

theorem State.viewByte_of_own {core pa : Nat} {p : (Nat × Nat) × Byte} (h : s.coh.plocal.find? (fun p => p.1.1 == core && p.1.2 == pa) = some p)
    (old : Bool) : s.viewByte core pa old = p.2 := by
  rw [State.viewByte, h]

/-- A core sees what it has stored to a P line. -/
theorem State.pStore_viewBytes (s : State) (core pa : Nat) (bs : List Byte) (hart : Option Nat) (old : Bool) :
    (s.pStore core pa bs hart).viewBytes core pa old bs.length = bs := by
  refine State.viewBytes_eq fun k hk => ?_
  have hown : (s.pStore core pa bs hart).coh.plocal.find? (fun p => p.1.1 == core && p.1.2 == pa + k) =
      some ((core, pa + k), bs.getD (pa + k - pa) 0) :=
    (State.pWrite_find _ core pa bs (pa + k)).trans (if_pos ⟨Nat.le_add_right pa k, Nat.add_lt_add_left hk pa⟩)
  rw [State.viewByte_of_own hown, Nat.add_sub_cancel_left]

theorem State.noteWrite_viewBytes (s : State) (via : Via) (l : Loc) (n core pa : Nat) (old : Bool) :
    (s.noteWrite via l n).viewBytes core pa old = s.viewBytes core pa old := by
  have hbyte (a : Nat) : (s.noteWrite via l n).viewByte core a old = s.viewByte core a old := by
    unfold State.noteWrite
    repeat' split
    all_goals rfl
  funext k
  induction k generalizing pa with
  | zero => rfl
  | succ k ih => rw [State.viewBytes, State.viewBytes, hbyte, ih]

/-! ## The statement -/

theorem State.isCodePage_of_standing (h : t.standing = s.standing) (pa : Nat) : t.isCodePage pa = s.isCodePage pa := by
  rw [State.isCodePage, State.objs_of_standing h, ← State.isCodePage]

theorem State.seq_of_bareHarts (h : t.bareHarts = s.bareHarts) : t.seq = { s.seq with resv := t.seq.resv } := by
  have hseq : t.seq.noResv = s.seq.noResv := congrArg (fun v => v.2.1) h
  calc t.seq = { t.seq.noResv with resv := t.seq.resv } := rfl
    _ = _ := by rw [hseq]; rfl

/-- A store that completes changes what it touches: beside its pieces it changes the rods alone. -/
theorem State.storeLocs_alters (hwf : s.WfMem) (hsound : poolSound s) (hstore : s.storeLocs via ls bs = .ok () t) : s.Alters t (touched s ls) := by
  obtain ⟨u, hoff, rfl⟩ := State.storeLocs_ok hstore
  have hmem : u.mem = s.mem := (congrArg State.mem hoff :)
  have hbeads : u.beadsIn = s.beadsIn := (congrArg State.beadsIn hoff :)
  have hrods : s.Alters u (touched s ls) := .of_mem (congrArg State.pools hoff :) hmem
  have hwritten := State.writeLocs_alters (s := u) (hwf.of_eq hmem) (hrods.poolSound hsound) via ls bs
  exact hrods.trans (hwritten.mono fun a ha => by rwa [touched, reckoned, hbeads] at ha)

theorem State.storeLocs_bareHarts (hstore : s.storeLocs via ls bs = .ok () t) : t.bareHarts = s.bareHarts := by
  obtain ⟨u, hoff, rfl⟩ := State.storeLocs_ok hstore
  exact (State.writeLocs_bareHarts ..).trans (congrArg State.bareHarts hoff :)

/-- A write to a place in memory. -/
theorem State.writeLoc_memory (hplace : plain l ∨ l.t = .hbm) (bs : List Byte) :
    s.writeLoc via l bs = ((if l.needsRod then s.reckonRange l.pa l.len none else s).putBytes via l bs).noteWrite via l bs.length := by
  unfold State.writeLoc
  unfold plain at hplace
  cases ht : l.t <;> simp [ht] at hplace <;> rfl

/-- A store to one place in memory performs its write once what it overlaps is reckoned. -/
theorem State.storeLocs_single (hlen : bs.length = l.len) (hplace : plain l ∨ l.t = .hbm) (hwf : s.WfMem)
    (hstore : s.storeLocs via [l] bs = .ok () t) : ∃ u : State, t = (u.putBytes via l bs).noteWrite via l bs.length ∧ u.WfMem ∧
      u.isCodePage = t.isCodePage ∧ (l.needsRod = false → u.mem = s.mem) := by
  obtain ⟨v, hoff, rfl⟩ := State.storeLocs_ok hstore
  have hmem : v.mem = s.mem := (congrArg State.mem hoff :)
  have hcode : v.isCodePage = (v.writeLocs via [l] bs).isCodePage := by
    funext pa
    exact (State.isCodePage_of_standing (State.writeLocs_standing v via [l] bs) pa).symm
  have hwrite : v.writeLocs via [l] bs = _ := (congrArg (v.writeLoc via l) (List.take_of_length_le hlen.le)).trans (State.writeLoc_memory hplace bs)
  refine ⟨_, hwrite, ?_, ?_, fun hrod => ?_⟩
  · split
    · exact State.reckonRange_wfMem _ _ _ _ (hwf.of_eq hmem)
    · exact hwf.of_eq hmem
  · rw [← hcode]
    split
    · funext pa
      exact State.isCodePage_of_standing (State.reckonRange_standing ..) pa
    · rfl
  · rw [hrod]
    exact hmem

/-- Settles O13: what the store touches by its pieces in turn, and one piece by the write that it is. -/
theorem storesChangeOnlyTheirBytes : Obligations.StoresChangeOnlyTheirBytes := by
  intro s s1 via ls bytes hwf hsound _ hstore
  refine ⟨(State.storeLocs_alters hwf hsound hstore).bytes, State.seq_of_bareHarts (State.storeLocs_bareHarts hstore), ?home, ?copy⟩
  case home =>
    rintro l rfl hlen hplain hcode
    obtain ⟨u, rfl, huwf, hpages, -⟩ := State.storeLocs_single hlen (.inl hplain) hwf hstore
    have hput : (u.putBytes via l bytes).mem = memWrite u.mem l.pa bytes :=
      State.putBytes_mem_of_memory (fun ht => hpages ▸ hcode ht) fun ⟨ht, hp, _⟩ => by simp [plain, ht, hp] at hplain
    rw [State.noteWrite_mem, hput, ← hlen, memRead_memWrite _ _ _ huwf]
  case copy =>
    rintro l rfl hlen ht hp hcore hcode
    obtain ⟨u, rfl, -, hpages, hmem⟩ := State.storeLocs_single hlen (.inr ht) hwf hstore
    have hput : u.putBytes via l bytes = u.pStore via.num l.pa bytes via.hart := State.putBytes_pStore (hpages ▸ hcode) ⟨ht, hp, hcore⟩
    have hrod : l.needsRod = false := by simp [Loc.needsRod, hp]
    rw [hput, State.noteWrite_mem, State.pStore_mem]
    refine ⟨hmem hrod, ?_⟩
    rw [State.noteWrite_viewBytes, ← hlen, State.pStore_viewBytes]

end Sys2Proof.Machine
end

section
/-! PROOFS. Fences: the waits for peers, the write-back of P lines, and sfence.vma (R73, R136, R142, R146, R232, R327). -/

namespace Sys2Proof.Machine
open Sys2Proof.Machine.Claim

variable {s t : State}

/-! ## How a fence ends -/

theorem waits_of_finish {i : Instr} {r : Res Unit} {w : Stall} (h : exec i s = finish r) (hr : r = .stall w t) : exec i s = .next (t.stalled w) := by
  rw [h, hr]
  rfl

theorem State.releaseSys_of_owes (h : s.peerOwes s.via.party = true) : s.releaseSys = .stall .peer s := if_pos h

theorem State.releaseNear_of_owes (h : 0 < s.redsOut s.via.party) : s.releaseNear = .stall .peer s := if_pos h

/-- A standard fence with an empty set is a hint (R88). -/
theorem exec_fence_empty {pred succ : BitVec 4} (h : pred = 0 ∨ succ = 0) : exec (.fence .fence pred succ) s = finish (.ok () s) :=
  congrArg finish (if_pos h)

/-- One that orders writes before anything is a release at .sys. -/
theorem exec_fence_writes {pred succ : BitVec 4} (hsucc : succ ≠ 0) (hpred : pred.getLsbD 0 = true ∨ pred.getLsbD 2 = true) :
    exec (.fence .fence pred succ) s = finish s.releaseSys := by
  have hnonempty : ¬ (pred = 0 ∨ succ = 0) := by
    rintro (rfl | rfl)
    · simp at hpred
    · exact hsucc rfl
  exact congrArg finish ((if_neg hnonempty).trans (if_pos hpred))

theorem exec_fence_reads {pred succ : BitVec 4} (hpred : pred ≠ 0) (hsucc : succ ≠ 0) (h0 : pred.getLsbD 0 = false) (h2 : pred.getLsbD 2 = false) :
    exec (.fence .fence pred succ) s = finish (.ok () (s.flushP s.hart)) :=
  congrArg finish ((if_neg (not_or.mpr ⟨hpred, hsucc⟩)).trans (if_neg (by rw [h0, h2]; decide)))

/-! ## What a release settles (R318) -/

theorem State.settled_of_sure (h : s.coh.unsure = []) (hart : Nat) : s.settled hart = s := if_pos h

theorem State.settled_eq (s : State) (hart : Nat) : s.settled hart = { s with coh := { s.coh with unsure := (s.settled hart).coh.unsure } } := by
  unfold State.settled
  split <;> rfl

/-! ## P lines written back (R136) -/

theorem State.flushP_of_core {hart : Nat} (h : isSupervisor hart = false) : s.flushP hart = s.pFlush (coreOf hart) fun _ => true :=
  if_neg (Bool.eq_false_iff.mp h)

theorem State.pHome_coh (s : State) (pa : Nat) (b : Byte) : (s.pHome pa b).coh = s.coh := by
  unfold State.pHome
  split <;> rfl

theorem State.pFlush_plocal (s : State) (core : Nat) (sel : Nat → Bool) :
    (s.pFlush core sel).coh.plocal = s.coh.plocal.filter fun p => !(p.1.1 == core && sel p.1.2) :=
  congrArg Coh.plocal (foldl_keeps State.coh (fun st _ => State.pHome_coh st _ _) _ _)

/-- A core that has written back holds no byte of its own. -/
theorem State.flushP_plocal {hart : Nat} (h : isSupervisor hart = false) : ∀ p ∈ (s.flushP hart).coh.plocal, p.1.1 ≠ coreOf hart := by
  intro p hp
  rw [State.flushP_of_core h, State.pFlush_plocal] at hp
  simpa using (List.mem_filter.mp hp).2

/-- What a core sees, but for a copy that may be old, is the byte at home where it has none of its own. -/
theorem State.viewByte_of_home {core : Nat} (h : ∀ p ∈ s.coh.plocal, p.1.1 ≠ core) (pa : Nat) : s.viewByte core pa false = memGet s.mem pa := by
  have hnone : s.coh.plocal.find? (fun p => p.1.1 == core && p.1.2 == pa) = none :=
    List.find?_eq_none.mpr fun p hp => by simp [h p hp]
  rw [State.viewByte, hnone]
  dsimp only
  split <;> rfl

/-! ## sfence.vma (R142) -/

theorem aget_map_where {α : Type} (c : Nat → Prop) [DecidablePred c] (f : α → α) (l : List (Nat × α)) (k : Nat) :
    aget (l.map fun p => if c p.1 then (p.1, f p.2) else p) k = if c k then (aget l k).map f else aget l k := by
  induction l with
  | nil => simp [aget]
  | cons p l ih =>
    rw [List.map_cons]
    by_cases hc : c p.1
    · simp only [if_pos hc, aget, ih]
      by_cases hk : p.1 = k
      · subst hk
        simp [hc]
      · simp [hk]
    · simp only [if_neg hc, aget, ih]
      by_cases hk : p.1 = k
      · subst hk
        simp [hc]
      · simp [hk]

theorem State.cluster_tlbDrop (s : State) (c k : Nat) (sel : TlbEntry → Bool) :
    (s.tlbDrop c sel).cluster k = if k = c then { s.cluster c with tlb := (s.cluster c).tlb.filter fun e => !sel e } else s.cluster k :=
  State.cluster_setCluster s c k _

/-- A core without the entries that a test selects. -/
def Core.tlbDrop (k : Core) (sel : TlbEntry → Bool) : Core :=
  { k with dtlb := k.dtlb.filter fun e => !sel e, itlb := k.itlb.filter fun e => !sel e }

theorem State.core_tlbDrop (s : State) (c k : Nat) (sel : TlbEntry → Bool) :
    (s.tlbDrop c sel).core k = if clusterOf k = c then (s.core k).tlbDrop sel else s.core k := by
  have hmap := aget_map_where (fun j => clusterOf j = c) (fun j => Core.tlbDrop j sel) s.cores k
  refine (congrArg (Option.getD · Core.reset) hmap).trans ?_
  unfold State.core
  split
  · cases aget s.cores k <;> rfl
  · rfl

theorem mem_filter_not {α : Type} {sel : α → Bool} {l : List α} {x : α} : x ∈ l.filter (fun e => !sel e) ↔ x ∈ l ∧ sel x = false := by
  simp [List.mem_filter]

/-- What sfence.vma drops from the TLBs, and that it drops nothing else. -/
theorem State.tlbDrop_drops (s : State) (c : Nat) (sel : TlbEntry → Bool) :
    s.tlbDrop c sel = { s with clusters := (s.tlbDrop c sel).clusters, cores := (s.tlbDrop c sel).cores } ∧
    ((s.tlbDrop c sel).cluster c).lreq = (s.cluster c).lreq ∧ (∀ x, x ∈ ((s.tlbDrop c sel).cluster c).tlb ↔ x ∈ (s.cluster c).tlb ∧ sel x = false) ∧
    (∀ k, clusterOf k = c → ∀ x, (x ∈ ((s.tlbDrop c sel).core k).dtlb ↔ x ∈ (s.core k).dtlb ∧ sel x = false) ∧
      (x ∈ ((s.tlbDrop c sel).core k).itlb ↔ x ∈ (s.core k).itlb ∧ sel x = false)) ∧
    (∀ k, clusterOf k ≠ c → (s.tlbDrop c sel).core k = s.core k) ∧ ∀ k, k ≠ c → (s.tlbDrop c sel).cluster k = s.cluster k := by
  have hown : (s.tlbDrop c sel).cluster c = { s.cluster c with tlb := (s.cluster c).tlb.filter fun e => !sel e } :=
    (State.cluster_tlbDrop s c c sel).trans (if_pos rfl)
  refine ⟨rfl, congrArg (fun k => k.lreq) hown, fun x => ?_, fun k hk x => ?_, fun k hk => ?_, fun k hk => ?_⟩
  · rw [hown]
    exact mem_filter_not
  · rw [State.core_tlbDrop, if_pos hk]
    exact ⟨mem_filter_not, mem_filter_not⟩
  · rw [State.core_tlbDrop, if_neg hk]
  · rw [State.cluster_tlbDrop, if_neg hk]

/-- Where it is allowed, sfence.vma drops its entries and then waits for rows that are held. -/
theorem exec_sfenceVma {rs1 rs2 : Reg} (hallowed : ¬ (s.seq.mode = .u ∨ (s.seq.mode = .s ∧ s.seq.priv.mstatus.getLsbD 20 = true))) :
    let c := hartCluster s.hart
    let asid := if rs2 = 0 then none else some ((s.x rs2).toNat % 65536)
    let e := s.tlbDrop c (sfenceMatch (s.partOf s.hart) (if rs1 = 0 then none else some (s.x rs1)) asid)
    exec (.sfenceVma rs1 rs2) s = finish (if s.rowsHeld c (s.partOf s.hart) asid then .stall .drain e else .ok () e) :=
  congrArg finish (if_neg hallowed)

/-! ## The statement -/

/-- Settles O16: each fence by the release that it is, which completes or waits for a peer; sfence.vma by what it drops. -/
theorem fencesWriteBackAndDropTranslations : Obligations.FencesWriteBackAndDropTranslations := by
  refine ⟨fun s => ?fences, fun s rs1 rs2 => ⟨fun hrefused => traps_of_finish rfl (if_pos hrefused), fun hallowed => ?translations⟩⟩
  case fences =>
    intro owes reds back
    have hsys (h : owes = false) : s.releaseSys = .ok () back := State.releaseSys_of_settled h
    have hsysWaits (h : owes = true) : s.releaseSys = .stall .peer s := State.releaseSys_of_owes h
    have hnear (h : reds = 0) : s.releaseNear = .ok () s := State.releaseNear_of_settled h
    have hnearWaits (h : 0 < reds) : s.releaseNear = .stall .peer s := State.releaseNear_of_owes h
    refine ⟨fun _ _ => completes_of_ok rfl rfl, ?empty, ?writes, ?reads, ?tso, ?tsoWaits, ?writesWait, ?near, ?nearWaits, ?sys, ?sure, ?unsure,
      ?sysWaits, rfl, ?home⟩
    case empty => exact fun _ _ h => completes_of_ok (exec_fence_empty h) rfl
    case writes => exact fun _ _ hsucc hpred h => completes_of_ok (exec_fence_writes hsucc hpred) (hsys h)
    case reads => exact fun _ _ hpred hsucc h0 h2 => completes_of_ok (exec_fence_reads hpred hsucc h0 h2) rfl
    case tso => exact fun _ _ h => completes_of_ok rfl (hsys h)
    case tsoWaits => exact fun _ _ h => waits_of_finish rfl (hsysWaits h)
    case writesWait => exact fun _ _ hpred hsucc h => waits_of_finish (exec_fence_writes hsucc hpred) (hsysWaits h)
    case near => exact fun h => ⟨completes_of_ok rfl (hnear h), completes_of_ok rfl (Res.bind_of_ok (hnear h))⟩
    case nearWaits => exact fun h => ⟨waits_of_finish rfl (hnearWaits h), waits_of_finish rfl (Res.bind_of_stall (hnearWaits h))⟩
    case sys => exact fun h => completes_of_ok rfl (Res.bind_of_ok (hsys h))
    case sure => exact fun h => State.settled_of_sure h s.hart
    case unsure => exact State.settled_eq s s.hart
    case sysWaits => exact fun h => waits_of_finish rfl (Res.bind_of_stall (hsysWaits h))
    case home =>
      intro hcore
      have hnone := State.flushP_plocal (s := s) hcore
      exact ⟨hnone, State.seq_of_bareHarts (State.flushP_bareHarts s s.hart), State.viewByte_of_home hnone⟩
  case translations =>
    exact ⟨_, fun hfree => completes_of_ok (exec_sfenceVma hallowed) (if_neg (Bool.eq_false_iff.mp hfree)),
      fun hheld => waits_of_finish (exec_sfenceVma hallowed) (if_pos hheld), State.tlbDrop_drops ..⟩

end Sys2Proof.Machine
end

section
/-! PROOFS. Stores to the register blocks of agents, and to those of the power controllers (R127, R264 to R269, R336). -/

namespace Sys2Proof.Machine
open Sys2Proof.Machine.Claim

variable {s t u : State} {a off : Nat} {v : Word} {g : Agent}

/-! ## Stores to a block -/

/-- A store that R127 and R264 allow is the store to its register. -/
theorem State.blockStore_allowed (h : mayStore s a off) (v : Word) : s.blockStore a off v =
    match s.agentStore a off v (BitVec.allOnes 64) s.via.mode with
    | .done s1 => s1
    | .full => s.takeTrap 28 (agentBlock a) := if_pos h

theorem State.blockStore_refused (h : ¬ mayStore s a off) (v : Word) :
    s.blockStore a off v = s.takeTrap 7 (agentBlock a + BitVec.ofNat 64 off) := if_neg h

theorem stores_of_done {i : Instr} (hi : exec i s = .next (s.blockStore a off v)) (h : mayStore s a off)
    (hdone : s.agentStore a off v (BitVec.allOnes 64) s.via.mode = .done t) : exec i s = .next t := by
  rw [hi, State.blockStore_allowed h, hdone]

theorem stores_of_full {i : Instr} (hi : exec i s = .next (s.blockStore a off v)) (h : mayStore s a off)
    (hfull : s.agentStore a off v (BitVec.allOnes 64) s.via.mode = .full) : exec i s = .next (s.takeTrap 28 (agentBlock a)) := by
  rw [hi, State.blockStore_allowed h, hfull]

/-- TLBINV keeps EN (R265). -/
theorem exec_agentTlbinv (s : State) (a : Nat) : exec (.agentTlbinv a) s = .next (s.blockStore a 0x008 (if (s.agent a).en then 5 else 4)) := rfl

/-! ## What a store to one register does -/

section
variable (s v) (mode : Mode)

/-- CTRL: TLBINV, and then RESET, EN = 1 or EN = 0 (R265, R268). -/
theorem State.agentStore_ctrl (ha : a % 16 ≠ 15) : s.agentStore a 0x008 v (BitVec.allOnes 64) mode = .done (
    let s1 := if v.getLsbD 2 then s.setAgent a { s.agent a with tlb := [] } else s
    if v.getLsbD 1 then s1.agentReset a
    else if v.getLsbD 0 then (if (s.agent a).en then s1 else s1.agentEnable a)
    else s1.modAgent a fun g => { g with en := false }) := by
  unfold State.agentStore
  rw [if_neg ha, BitVec.and_allOnes]
  dsimp only
  rw [if_neg (by decide)]
  cases v.getLsbD 1 <;> cases v.getLsbD 0 <;> rfl

theorem State.agentStore_notify (ha : a % 16 ≠ 15) : s.agentStore a 0x040 v (BitVec.allOnes 64) mode = s.agentNotify a v.toNat := by
  unfold State.agentStore
  rw [if_neg ha, BitVec.and_allOnes]
  exact if_pos (by decide)

theorem State.agentStore_mdone (ha : a % 16 = 0) : s.agentStore a 0x080 v (BitVec.allOnes 64) mode = .done (s.agentMdone a (v.toNat % 2 ^ 32)) := by
  unfold State.agentStore
  rw [if_neg (by omega), BitVec.and_allOnes]
  exact (if_pos (if_pos ha)).trans (if_pos (by decide))

theorem State.agentStore_plimit (die : Nat) : s.agentStore (16 * die + 15) 0 v (BitVec.allOnes 64) .m = .done (s.setPlimit (v.toNat % 65536)) := by
  unfold State.agentStore
  rw [if_pos (by omega), if_pos ⟨rfl, rfl⟩, BitVec.and_allOnes, BitVec.not_allOnes, BitVec.and_zero, BitVec.zero_or]

end

/-! ## One agent's registers -/

theorem onlyAgent_setAgent (s : State) (a : Nat) (g : Agent) : OnlyAgent s (s.setAgent a g) a :=
  ⟨rfl, fun x hx => (State.agent_setAgent s a x g).trans (if_neg hx)⟩

theorem Claim.OnlyAgent.trans (h : OnlyAgent s t a) (h' : OnlyAgent t u a) : OnlyAgent s u a := by
  obtain ⟨hframe, hothers⟩ := h
  obtain ⟨hframe', hothers'⟩ := h'
  exact ⟨hframe'.trans (congrArg (fun e : State => { e with agents := u.agents }) hframe), fun x hx => (hothers' x hx).trans (hothers x hx)⟩

/-- The agent's registers become g, and nothing else changes. -/
theorem setAgent_sets (s : State) (a : Nat) (g : Agent) : (s.setAgent a g).agent a = g ∧ OnlyAgent s (s.setAgent a g) a :=
  ⟨(State.agent_setAgent s a a g).trans (if_pos rfl), onlyAgent_setAgent s a g⟩

/-- A store whose effect is that the agent's registers become g. -/
theorem sets_of_done {i : Instr} (hi : exec i s = .next (s.blockStore a off v)) (h : mayStore s a off)
    (hdone : s.agentStore a off v (BitVec.allOnes 64) s.via.mode = .done (s.setAgent a g)) :
    ∃ e : State, exec i s = .next e ∧ e.agent a = g ∧ OnlyAgent s e a :=
  ⟨_, stores_of_done hi h hdone, setAgent_sets s a g⟩

/-- TLBINV of an agent that is not enabled leaves it so. -/
theorem invalidate_sets (hen : (s.agent a).en = false) :
    let e := (s.setAgent a { s.agent a with tlb := [] }).modAgent a fun g => { g with en := false }
    e.agent a = { s.agent a with tlb := [] } ∧ OnlyAgent s e a := by
  obtain ⟨hcleared, hother⟩ := setAgent_sets s a { s.agent a with tlb := [] }
  generalize s.setAgent a { s.agent a with tlb := [] } = t at hcleared hother ⊢
  obtain ⟨hoff, hother'⟩ := setAgent_sets t a { t.agent a with en := false }
  refine ⟨hoff.trans ?_, hother.trans hother'⟩
  rw [hcleared, ← hen]

/-- An agent with no interrupted slot and a ring of a legal size is enabled (R268). -/
theorem State.agentEnable_of_unbroken (hbroken : (s.agent a).broken = []) (hmin : 1 ≤ (s.agent a).qsize) (hmax : (s.agent a).qsize ≤ 65536) :
    s.agentEnable a = s.setAgent a { s.agent a with en := true } := by
  unfold State.agentEnable
  dsimp only
  rw [if_neg (by omega), hbroken]
  show s.setAgent a { s.agent a with en := true, broken := [], finished := (s.agent a).broken.foldl (fun l k => aput l k (4, 0)) (s.agent a).finished } = _
  rw [hbroken]
  rfl

theorem State.poisonRange_agents (s : State) (pa n : Nat) : (s.poisonRange pa n).agents = s.agents := by
  refine foldl_keeps State.agents (fun _ _ => ?_) _ _
  rfl

theorem State.releaseRods_agents (s : State) (p : Party) : (s.releaseRods p).agents = s.agents := by
  refine foldl_keeps State.agents (f := fun st g => st.releaseRod g p) (fun st g => ?_) _ s
  unfold State.releaseRod State.passRod
  repeat' split
  all_goals rfl

/-- RESET: the agent stops, in a new incarnation and without work; its ring keeps its place (R268). -/
def Agent.restarted (g : Agent) : Agent :=
  { g with en := false, inc := g.inc + 1, broken := (g.broken ++ g.inProgress).foldl insNat [], finished := [], window := [], draw := none, work := none,
           ready := [] }

theorem State.agentReset_agent (s : State) (a : Nat) : (s.agentReset a).agent a = (s.agent a).restarted := by
  unfold State.agentReset
  extract_lets mine s1 s2 dir coh s3
  have hpoisoned : s1.agents = s.agents := by
    refine foldl_keeps State.agents (fun st r => ?_) _ _
    split
    · split
      · exact State.poisonRange_agents ..
      · rfl
    · rfl
  have hagents : s3.agents = s.agents := (State.releaseRods_agents s1 (.agent a)).trans hpoisoned
  have hagent : s3.agent a = s.agent a := by rw [State.agent, hagents, ← State.agent]
  exact (State.agent_setAgent s3 a a _).trans ((if_pos rfl).trans (congrArg Agent.restarted hagent))

theorem State.agentNotify_takes {k : Nat} (hhead : (s.agent a).qhead ≤ k) (htail : k < (s.agent a).qtail) (hroom : k < (s.agent a).qhead + (s.agent a).qsize)
    (hready : k ∉ (s.agent a).ready) (hbroken : k ∉ (s.agent a).broken) (hwork : k ∉ (s.agent a).inProgress) :
    s.agentNotify a k = .done (s.setAgent a { s.agent a with ready := insNat (s.agent a).ready k }) := by
  unfold State.agentNotify
  dsimp only
  rw [if_neg (by simp [hready, hbroken, hwork]; omega), if_neg (by omega)]

theorem State.agentNotify_refuses {k : Nat} (h : k < (s.agent a).qhead ∨ (s.agent a).qtail ≤ k ∨ k ∈ (s.agent a).ready) :
    s.agentNotify a k = .done (s.setAgent a { s.agent a with ordErr := true }) := by
  refine if_pos ?_
  rcases h with h | h | h
  · exact .inl h
  · exact .inr (.inl h)
  · exact .inr (.inr (.inl (List.contains_iff_mem.mpr h)))

theorem State.agentMdone_idle {m : Nat} (h : (s.agent a).draw = none) : s.agentMdone a m = s.setAgent a { s.agent a with ordErr := true } := by
  simp only [State.agentMdone, h]

/-- The first acknowledgement of a meshlet of the draw (R269). -/
theorem State.agentMdone_acks {m : Nat} {d : DrawSt} (h : (s.agent a).draw = some d) (hlow : d.mbase ≤ m) (hhigh : m < d.mbase + d.nm) (hm : m < 2 ^ 32)
    (hnew : m - d.mbase ∉ d.acked) :
    s.agentMdone a m = s.setAgent a { s.agent a with draw := some { d with acked := insNat d.acked (m - d.mbase) } } := by
  have hi : (m + 2 ^ 32 - d.mbase) % 2 ^ 32 = m - d.mbase := by omega
  simp only [State.agentMdone, h]
  rw [hi, if_neg (by simp [hnew]; omega)]

/-! ## PLIMIT (R336) -/

theorem State.powerOf_setPlimit {d : Nat} (hd : d < 4) (w : Nat) :
    (s.setPlimit w).powerOf d = { s.powerOf d with plimit := max 1600 (min 3200 w) } := by
  unfold State.setPlimit
  interval_cases d <;> simp [State.powerOf_setPower]

/-! ## The statement -/

/-- Settles O54: a store that is allowed does what its register does, and is refused otherwise. -/
theorem agentRegistersAreStored : Obligations.AgentRegistersAreStored := by
  intro s s1 a off die v g
  refine ⟨fun hmay => ⟨stores_of_done rfl hmay, stores_of_full rfl hmay⟩, fun hno => congrArg Host.Outcome.next (State.blockStore_refused hno v),
    fun ha hmay => ⟨?enables, ?disables, ?resets, ?invalidates⟩, fun ha hmay => ⟨?notifies, ?misorders⟩, ?reserves, fun ha hmay => ⟨?idle, ?acks⟩,
    ?limits⟩
  case enables =>
    intro hen hbroken hmin hmax
    refine sets_of_done rfl hmay ((State.agentStore_ctrl s 1 _ ha).trans (congrArg RegStore.done ?_))
    exact (if_neg (Bool.eq_false_iff.mp hen)).trans (State.agentEnable_of_unbroken hbroken hmin hmax)
  case disables => exact sets_of_done rfl hmay (State.agentStore_ctrl s 0 _ ha)
  case resets =>
    have hagent := State.agentReset_agent s a
    refine ⟨s.agentReset a, stores_of_done rfl hmay (State.agentStore_ctrl s 2 _ ha), ?_⟩
    rw [hagent]
    exact ⟨rfl, rfl, rfl, rfl, rfl, rfl, State.agentReset_mem s a⟩
  case invalidates =>
    by_cases hen : (s.agent a).en = true
    · have hexec : exec (.agentTlbinv a) s = .next (s.blockStore a 0x008 5) := by rw [exec_agentTlbinv, if_pos hen]
      exact sets_of_done hexec hmay ((State.agentStore_ctrl s 5 _ ha).trans (congrArg RegStore.done (if_pos hen)))
    · have hexec : exec (.agentTlbinv a) s = .next (s.blockStore a 0x008 4) := by rw [exec_agentTlbinv, if_neg hen]
      exact ⟨_, stores_of_done hexec hmay (State.agentStore_ctrl s 4 _ ha), invalidate_sets (Bool.eq_false_of_not_eq_true hen)⟩
  case notifies =>
    intro hhead htail hroom hready hbroken hwork
    exact sets_of_done rfl hmay ((State.agentStore_notify s v _ ha).trans (State.agentNotify_takes hhead htail hroom hready hbroken hwork))
  case misorders => exact fun h => sets_of_done rfl hmay ((State.agentStore_notify s v _ ha).trans (State.agentNotify_refuses h))
  case reserves => exact fun ha hown => ⟨_, if_pos ⟨ha, hown⟩, setAgent_sets s a _⟩
  case idle => exact fun h => sets_of_done rfl hmay ((State.agentStore_mdone s v _ ha).trans (congrArg RegStore.done (State.agentMdone_idle h)))
  case acks =>
    intro d hdraw hlow hhigh hnew
    refine sets_of_done rfl hmay ((State.agentStore_mdone s v _ ha).trans (congrArg RegStore.done ?_))
    exact State.agentMdone_acks hdraw hlow hhigh (Nat.mod_lt _ (by decide)) hnew
  case limits =>
    intro _ hmode hmay
    refine ⟨s.setPlimit (v.toNat % 65536), stores_of_done rfl hmay ?_, State.setPlimit_mem .., fun d hd => ?_⟩
    · rw [hmode]
      exact State.agentStore_plimit s v die
    · rw [State.powerOf_setPlimit hd]
      exact ⟨rfl, rfl⟩

end Sys2Proof.Machine
end

section
/-! PROOFS. Copy instructions at issue: numbers, tokens and waits (R151 to R161). -/

namespace Sys2Proof.Machine
open Claim

variable {s s1 : State} {rd rs1 rs2 rs3 : Reg} {b : List Byte} {c n : Nat} {v : Word} {i : Instr}

/-! ## Tokens (R155) -/

theorem Seq.pendTok_eq (q : Seq) (r : Reg) (n : Nat) : q.pendTok r n = { q with pend := if r = 0 then q.pend else q.pend ++ [(r, n)] } := by
  unfold Seq.pendTok
  split <;> rfl

/-- Writing a token changes the registers and the tokens pending. -/
theorem Seq.setTok_eq (q : Seq) (r : Reg) (n : Nat) (fail : Bool) :
    q.setTok r n fail = { q with x := (q.setTok r n fail).x, pend := (q.setTok r n fail).pend } := by
  unfold Seq.setTok Seq.wx
  split <;> rfl

theorem Seq.rx_setTok (q : Seq) (r i : Reg) (n : Nat) (fail : Bool) :
    (q.setTok r n fail).rx i = if i = r ∧ r ≠ 0 then BitVec.ofNat 64 (n % 2 ^ 63 + (if fail then 2 ^ 63 else 0)) else q.rx i := by
  rw [← Seq.rx_wx]
  unfold Seq.setTok Seq.wx
  by_cases hr : r = 0
  · rw [if_pos hr, if_pos hr]
  · rw [if_neg hr]
    rfl

/-- A register whose token is written has none pending. -/
theorem Seq.not_mem_pend_setTok (q : Seq) {r : Reg} (hr : r ≠ 0) (n m : Nat) (fail : Bool) : (r, m) ∉ (q.setTok r n fail).pend := by
  unfold Seq.setTok
  rw [if_neg hr]
  simp

/-! ## Issuing an operation -/

/-- A number above all those in use names none of the operations. -/
theorem filter_ne_of_lt {α : Type} {num : α → Nat} {l : List α} (h : ∀ o ∈ l, num o < n) : (l.filter fun o => num o ≠ n) = l :=
  List.filter_eq_self.mpr fun o ho => decide_eq_true (Nat.ne_of_lt (h o ho))

theorem copyIssued_of_issueCopy (s : State) (rd : Reg) (op : CopyOp) : ∃ e, s.issueCopy rd op = .ok () e ∧ CopyIssued s e rd op := by
  refine ⟨_, rfl, rfl, fun hmoves => ?moves, fun hok hempty hops hchains => ?empty⟩
  case moves =>
    have hnot : ¬ (op.failed = none ∧ op.rows * op.rowBytes = 0) := fun h => hmoves.elim (· h.1) (· h.2)
    simp only [State.upd_seq, if_neg hnot, Seq.pendTok_eq]
  case empty =>
    have hboth := And.intro hok hempty
    simp only [State.x, State.upd_seq, if_pos hboth, Seq.pendTok_eq, Seq.copyEnd, if_true]
    refine ⟨?_, ?_, ?_, fun hrd => ⟨?_, fun m => Seq.not_mem_pend_setTok _ hrd _ m _⟩, fun r hr => ?_⟩
    · rw [Seq.setTok_eq]
    · rw [Seq.setTok_eq, List.filter_append, filter_ne_of_lt hops]
      simp
    · rw [Seq.setTok_eq, filter_ne_of_lt hchains]
    · rw [Seq.rx_setTok, if_pos ⟨rfl, hrd⟩]
      rfl
    · rw [Seq.rx_setTok, if_neg fun h => hr h.1]
      rfl

/-! ## The checks before issue (R154, R161; log 29) -/

theorem State.readCmd_aligned (h : v.toNat % n = 0) : s.readCmd v n = s.loadAt s.via v n false := if_neg (not_not.mpr h)

theorem State.readCmd_misaligned (h : v.toNat % n ≠ 0) : s.readCmd v n = .trap 4 v s := if_pos h

/-- Where the engines belong to the hart, the check for one passes. -/
theorem ite_onCore {α : Type} (h : s.onCore = true) (a b : α) : (if (!s.onCore) = true then a else b) = b := if_neg (by simp [h])

theorem ite_offCore {α : Type} (h : s.onCore = false) (a b : α) : (if (!s.onCore) = true then a else b) = a := if_pos (by simp [h])

/-- Every copy instruction waits while 16 operations are not complete. -/
theorem copy_waits (hi : isCopy rd rs1 rs2 rs3 i) (hcore : s.onCore = true) (hfull : s.seq.copy.full = true) :
    exec i s = .next (s.stalled .engine) := by
  obtain rfl | rfl | rfl | rfl | rfl := hi
  case inr.inr.inr.inr => exact waits_of_finish rfl ((ite_onCore hcore ..).trans (if_pos (.inl hfull)))
  all_goals exact waits_of_finish rfl ((ite_onCore hcore ..).trans (if_pos hfull))

theorem cpMma_waits (hcore : s.onCore = true) (hfull : 4 ≤ s.seq.mat.ops.length) : exec (.cpMma rd rs1) s = .next (s.stalled .engine) :=
  waits_of_finish rfl ((ite_onCore hcore ..).trans (if_pos (.inr hfull)))

theorem copy_offCore (hi : isCopy rd rs1 rs2 rs3 i ∨ i = .cpChain rd rs1 rs2) (hcore : s.onCore = false) :
    exec i s = .next (s.takeTrap 2 s.seq.latch.bits) := by
  obtain (rfl | rfl | rfl | rfl | rfl) | rfl := hi
  all_goals exact traps_of_finish rfl (ite_offCore hcore ..)

/-! ## Linear copies and copies of rows (R151, R152) -/

section
variable (hcore : s.onCore = true) (hroom : s.seq.copy.full = false)
include hcore hroom

theorem State.linearCopy_eq (form : Nat) :
    s.linearCopy form rd rs1 rs2 rs3 = s.issueCopy rd (linearOp form (s.x rs1) (s.x rs2) (s.x rs3)) :=
  (ite_onCore hcore ..).trans (if_neg (by simp [hroom]))

theorem linearCopy_issues {form : Nat} (h : exec i s = finish (s.linearCopy form rd rs1 rs2 rs3)) :
    ∃ e, Completes i s e ∧ CopyIssued s e rd (linearOp form (s.x rs1) (s.x rs2) (s.x rs3)) := by
  obtain ⟨e, he, hissued⟩ := copyIssued_of_issueCopy s rd (linearOp form (s.x rs1) (s.x rs2) (s.x rs3))
  exact ⟨e, completes_of_ok h ((State.linearCopy_eq hcore hroom form).trans he), hissued⟩

theorem exec_cp2d : exec (.cp2d rd rs1 rs2 rs3) s =
    finish ((s.readCmd (s.x rs3) 32).bind fun b s1 => s1.issueCopy rd (descOp (s.x rs1) (s.x rs2) b)) :=
  congrArg finish ((ite_onCore hcore ..).trans (if_neg (by simp [hroom])))

theorem cp2d_issues (hread : s.readCmd (s.x rs3) 32 = .ok b s1) :
    ∃ e, Completes (.cp2d rd rs1 rs2 rs3) s e ∧ CopyIssued s1 e rd (descOp (s.x rs1) (s.x rs2) b) := by
  obtain ⟨e, he, hissued⟩ := copyIssued_of_issueCopy s1 rd (descOp (s.x rs1) (s.x rs2) b)
  exact ⟨e, completes_of_ok (exec_cp2d hcore hroom) ((Res.bind_of_ok hread).trans he), hissued⟩

theorem cp2d_traps (hread : s.readCmd (s.x rs3) 32 = .trap c v s1) : exec (.cp2d rd rs1 rs2 rs3) s = .next (s1.takeTrap c v) :=
  traps_of_finish (exec_cp2d hcore hroom) (Res.bind_of_trap hread)

end

/-! ## Copies with a matrix command (R157) -/

/-- What cp.mma does with the descriptor it has read. -/
def State.cpMmaOf (s : State) (rd : Reg) (b : List Byte) : Res Unit :=
  match mmaWord (BitVec.ofNat 32 (fld b 0x18 4)) with
  | none => .trap 2 ((BitVec.ofNat 32 (fld b 0x18 4)).setWidth 64) s
  | some (f, acc) => s.issueCpMma rd b f acc

theorem State.cpMmaOf_none (h : mmaWord (BitVec.ofNat 32 (fld b 0x18 4)) = none) :
    s.cpMmaOf rd b = .trap 2 ((BitVec.ofNat 32 (fld b 0x18 4)).setWidth 64) s := by
  rw [State.cpMmaOf, h]

theorem State.cpMmaOf_some {f : MmaFmt} {acc : BitVec 2} (h : mmaWord (BitVec.ofNat 32 (fld b 0x18 4)) = some (f, acc)) :
    s.cpMmaOf rd b = s.issueCpMma rd b f acc := by
  rw [State.cpMmaOf, h]

/-- cp.mma takes a copy number and a matrix number; each operation names the other, and the matrix operation has the token. -/
theorem State.issueCpMma_issues (s : State) (rd : Reg) (b : List Byte) (f : MmaFmt) (acc : BitVec 2) :
    let nc := s.seq.copy.iss + 1
    let nm := s.seq.mat.iss + 1
    ∃ (op : CopyOp) (m : MatOp), s.issueCpMma rd b f acc = .ok () { s with seq := { s.seq with
        copy := { s.seq.copy with iss := nc, ops := s.seq.copy.ops ++ [op] }, mat := { s.seq.mat with iss := nm, ops := s.seq.mat.ops ++ [m] },
        pend := if rd = 0 then s.seq.pend else s.seq.pend ++ [(rd, nm)] } } ∧
      (op.n = nc ∧ op.follow = some nm ∧ op.dst = fldW b 0x00 ∧ op.src = fldW b 0x08) ∧
      (m.n = nm ∧ m.copyN = some nc ∧ m.kind = .mma f ∧ m.acc = acc ∧ m.a = fldW b 0x20 ∧ m.b = fldW b 0x28 ∧ m.tok = rd) :=
  ⟨_, _, congrArg (fun q => Res.ok () { s with seq := q }) (Seq.pendTok_eq ..), ⟨rfl, rfl, rfl, rfl⟩, ⟨rfl, rfl, rfl, rfl, rfl, rfl, rfl⟩⟩

section
variable (hcore : s.onCore = true) (hroom : s.seq.copy.full = false) (hmat : s.seq.mat.ops.length < 4)
include hcore hroom hmat

theorem exec_cpMma : exec (.cpMma rd rs1) s = finish ((s.readCmd (s.x rs1) 64).bind fun b s1 => s1.cpMmaOf rd b) :=
  congrArg finish ((ite_onCore hcore ..).trans (if_neg (by simp [hroom, hmat])))

theorem cpMma_traps (hread : s.readCmd (s.x rs1) 64 = .trap c v s1) : exec (.cpMma rd rs1) s = .next (s1.takeTrap c v) :=
  traps_of_finish (exec_cpMma hcore hroom hmat) (Res.bind_of_trap hread)

theorem cpMma_ends (hread : s.readCmd (s.x rs1) 64 = .ok b s1) : exec (.cpMma rd rs1) s = finish (s1.cpMmaOf rd b) :=
  (exec_cpMma hcore hroom hmat).trans (congrArg finish (Res.bind_of_ok hread))

end

/-! ## Chains (R159) -/

/-- The chain that cp.chain issues for the entry at a and the pair at p. -/
def State.newChain (s : State) (rd : Reg) (a p : Word) : Chain :=
  { n := s.seq.copy.iss + 1, next := a, pair := p, k := 1, running := [], ended := [], addrs := [], doneK := 0, tail := none, tok := rd,
    issuer := s.issuer s.hart }

def State.issueChain (s : State) (rd : Reg) (a p : Word) : State :=
  s.upd fun q => Seq.pendTok { q with copy := { q.copy with iss := s.seq.copy.iss + 1, chains := q.copy.chains ++ [s.newChain rd a p] } } rd (s.seq.copy.iss + 1)

theorem State.issueChain_eq (s : State) (rd : Reg) (a p : Word) : s.issueChain rd a p =
    { s with seq := { s.seq with
      copy := { s.seq.copy with iss := s.seq.copy.iss + 1, chains := s.seq.copy.chains ++ [s.newChain rd a p] },
      pend := if rd = 0 then s.seq.pend else s.seq.pend ++ [(rd, s.seq.copy.iss + 1)] } } := by
  simp only [State.issueChain, State.upd, Seq.pendTok_eq]

section
variable (hcore : s.onCore = true)
include hcore

theorem cpChain_misaligned_entry (h : (s.x rs1).toNat % 64 ≠ 0) : exec (.cpChain rd rs1 rs2) s = .next (s.takeTrap 4 (s.x rs1)) :=
  traps_of_finish rfl ((ite_onCore hcore ..).trans (if_pos h))

theorem cpChain_misaligned_pair (ha : (s.x rs1).toNat % 64 = 0) (h : (s.x rs2).toNat % 16 ≠ 0) :
    exec (.cpChain rd rs1 rs2) s = .next (s.takeTrap 4 (s.x rs2)) :=
  traps_of_finish rfl ((ite_onCore hcore ..).trans ((if_neg (not_not.mpr ha)).trans (if_pos h)))

variable (ha : (s.x rs1).toNat % 64 = 0) (hp : (s.x rs2).toNat % 16 = 0)
include ha hp

theorem exec_cpChain : exec (.cpChain rd rs1 rs2) s = finish (
    if s.seq.copy.full = true ∨ 2 ≤ s.seq.copy.chains.length then .stall .engine s
    else (s.readCmd (s.x rs2) 16).bind fun _ s1 => .ok () (s1.issueChain rd (s.x rs1) (s.x rs2))) :=
  congrArg finish ((ite_onCore hcore ..).trans ((if_neg (not_not.mpr ha)).trans (if_neg (not_not.mpr hp))))

theorem cpChain_waits (h : ¬ (s.seq.copy.full = false ∧ s.seq.copy.chains.length < 2)) :
    exec (.cpChain rd rs1 rs2) s = .next (s.stalled .engine) := by
  refine waits_of_finish (exec_cpChain hcore ha hp) (if_pos ?_)
  rwa [← Bool.not_eq_false, ← Nat.not_lt, ← not_and_or]

variable (hroom : s.seq.copy.full = false ∧ s.seq.copy.chains.length < 2)
include hroom

theorem exec_cpChain_roomy : exec (.cpChain rd rs1 rs2) s =
    finish ((s.loadAt s.via (s.x rs2) 16 false).bind fun _ s1 => .ok () (s1.issueChain rd (s.x rs1) (s.x rs2))) := by
  rw [exec_cpChain hcore ha hp, if_neg (by simpa using hroom), State.readCmd_aligned hp]

theorem cpChain_issues (hread : s.loadAt s.via (s.x rs2) 16 false = .ok b s1) :
    Completes (.cpChain rd rs1 rs2) s (s1.issueChain rd (s.x rs1) (s.x rs2)) :=
  completes_of_ok (exec_cpChain_roomy hcore ha hp hroom) (Res.bind_of_ok hread)

theorem cpChain_traps (hread : s.loadAt s.via (s.x rs2) 16 false = .trap c v s1) : exec (.cpChain rd rs1 rs2) s = .next (s1.takeTrap c v) :=
  traps_of_finish (exec_cpChain_roomy hcore ha hp hroom) (Res.bind_of_trap hread)

end

/-! ## The statement -/

/-- Settles O41: each form reads its command, if it has one, and issues it under the next number; the checks before that refuse or wait. -/
theorem copiesTakeNumbersAndTokens : Obligations.CopiesTakeNumbersAndTokens := by
  refine ⟨fun s rd rs1 rs2 rs3 hcore hroom => ?linear, fun s s1 rd rs1 rs2 rs3 b c v hcore hroom => ?rows,
    fun s s1 rd rs1 b c v hcore hroom hmat => ?follow, fun s s1 rd rs1 rs2 b c v hcore => ?chain,
    fun s i rd rs1 rs2 rs3 => ⟨copy_waits, cpMma_waits, copy_offCore⟩⟩
  case linear =>
    exact ⟨linearCopy_issues hcore hroom rfl, linearCopy_issues hcore hroom rfl, linearCopy_issues hcore hroom rfl⟩
  case rows =>
    exact ⟨fun ha hread => cp2d_issues hcore hroom ((State.readCmd_aligned ha).trans hread),
      fun ha hread => cp2d_traps hcore hroom ((State.readCmd_aligned ha).trans hread),
      fun ha => cp2d_traps hcore hroom (State.readCmd_misaligned ha)⟩
  case follow =>
    refine ⟨fun ha hread => ?_, fun ha hread => cpMma_traps hcore hroom hmat ((State.readCmd_aligned ha).trans hread),
      fun ha => cpMma_traps hcore hroom hmat (State.readCmd_misaligned ha)⟩
    have hends := cpMma_ends (rd := rd) hcore hroom hmat ((State.readCmd_aligned ha).trans hread)
    refine ⟨fun f acc hw => ?_, fun hw => traps_of_finish hends (State.cpMmaOf_none hw)⟩
    obtain ⟨op, m, hissue, ⟨hn, hfollow, hdst, hsrc⟩, ⟨hnm, hcopy, hkind, hacc, hrowA, hrowB, htok⟩⟩ := s1.issueCpMma_issues rd b f acc
    exact ⟨_, op, m, completes_of_ok hends ((State.cpMmaOf_some hw).trans hissue), rfl, rfl, rfl, rfl, rfl, hn, hfollow, hdst, hsrc, hnm, hcopy,
      hkind, hacc, hrowA, hrowB, htok, rfl, rfl⟩
  case chain =>
    refine ⟨fun ha hp => ⟨fun hroom hread => ?_, cpChain_traps hcore ha hp, cpChain_waits hcore ha hp⟩,
      cpChain_misaligned_entry hcore, cpChain_misaligned_pair hcore⟩
    refine ⟨_, s1.newChain rd (s.x rs1) (s.x rs2), cpChain_issues hcore ha hp hroom hread, ?_⟩
    rw [State.issueChain_eq]
    exact ⟨rfl, rfl, rfl, rfl, rfl, rfl, rfl, rfl, rfl, rfl⟩

end Sys2Proof.Machine
end

section
/-! PROOFS. Timelines (R160 to R162) and streams (R163 to R166). -/

namespace Sys2Proof.Machine
open Claim

variable {s s1 : State} {rd rs1 vd : Reg} {sel : BitVec 5} {b : List Byte} {c n k : Nat} {v : Word} {i : Instr} {t : Stream}

/-! ## tlwait and tlread -/

theorem tlwait_unknown (hk : 2 < sel.toNat) : exec (.tlwait rd rs1 sel) s = .next (s.takeTrap 2 s.seq.latch.bits) :=
  traps_of_finish rfl (if_pos (.inl hk))

section
variable (hcore : s.onCore = true)
include hcore

/-- On a core, a selector of tlwait that names a timeline is accepted. -/
theorem not_tlwait_refused (hk : sel.toNat ≤ 2) : ¬ (2 < sel.toNat ∨ (!s.onCore) = true) := by
  simp [hcore, hk]

variable (hk : sel.toNat ≤ 2)
include hk

theorem tlwait_waits (h : s.seq.tlCount sel.toNat < min (s.x rs1).toNat (s.seq.tlIss sel.toNat)) :
    exec (.tlwait rd rs1 sel) s = .next (s.stalled .timeline) :=
  waits_of_finish rfl ((if_neg (not_tlwait_refused hcore hk)).trans (if_pos h))

variable (hdone : min (s.x rs1).toNat (s.seq.tlIss sel.toNat) ≤ s.seq.tlCount sel.toNat)
include hdone

theorem tlwait_completes
    (hpend : sel.toNat = 1 → ∀ c n, s.seq.mat.pend = some (c, n) → min (s.x rs1).toNat (s.seq.tlIss sel.toNat) < n) :
    Completes (.tlwait rd rs1 sel) s (s.setX rd (BitVec.ofNat 64 (s.seq.tlCount sel.toNat))) := by
  refine completes_of_ok rfl ((if_neg (not_tlwait_refused hcore hk)).trans ((if_neg (Nat.not_lt.mpr hdone)).trans ?_))
  split
  · next c n hp =>
    obtain ⟨hone, hp⟩ := Option.ite_none_right_eq_some.mp hp
    exact if_neg (Nat.not_le.mpr (hpend hone c n hp))
  · rfl

/-- R192: a deferred error at or below the number waited for is taken. -/
theorem tlwait_traps (hone : sel.toNat = 1) (hp : s.seq.mat.pend = some (c, n)) (hn : n ≤ min (s.x rs1).toNat (s.seq.tlIss sel.toNat)) :
    exec (.tlwait rd rs1 sel) s =
      .next (({ s with seq := { s.seq with mat := { s.seq.mat with pend := none } } } : State).takeTrap c (BitVec.ofNat 64 n)) := by
  refine traps_of_finish rfl ((if_neg (not_tlwait_refused hcore hk)).trans ((if_neg (Nat.not_lt.mpr hdone)).trans ?_))
  rw [if_pos hone, hp]
  exact if_pos hn

end

theorem Seq.tlSeen_eq (q : Seq) (k : Nat) : q.tlSeen k = { q with fails := (q.tlSeen k).fails } := by
  unfold Seq.tlSeen
  split
  · rfl
  · split <;> rfl

theorem exec_tlread_some (hcore : s.onCore = true) (h : s.seq.tlValue sel.toNat = some v) :
    exec (.tlread rd sel) s = finish (.ok () ((s.upd fun q => q.tlSeen sel.toNat).setX rd v)) := by
  show execTlread rd sel s = _
  rw [execTlread, if_pos hcore, h]

theorem tlread_unknown (hcore : s.onCore = true) (h : s.seq.tlValue sel.toNat = none) :
    exec (.tlread rd sel) s = .next (s.takeTrap 2 s.seq.latch.bits) := by
  show execTlread rd sel s = _
  rw [execTlread, if_pos hcore, h]
  rfl

/-! ## The four streams of a hart -/

theorem Seq.stream_setStream (hk : k ≤ 3) (q : Seq) (t : Stream) (j : Nat) : (q.setStream k t).stream j = if j = k then t else q.stream j := by
  have hin : k < 4 := Nat.lt_succ_of_le hk
  unfold Seq.stream Seq.setStream
  simp only [Vector.toArray_setIfInBounds, Array.getD_eq_getD_getElem?, Array.getElem?_setIfInBounds]
  by_cases hj : k = j
  · subst hj
    simp [hin]
  · rw [if_neg hj, if_neg (Ne.symm hj)]

theorem Seq.stream_streamEnd (q : Seq) (n j : Nat) : (q.streamEnd n).stream j = q.stream j := rfl

/-- A stream that sstop has stopped (R166). -/
def Stream.stopped (t : Stream) : Stream := { t with queue := [], marker := none, fcause := 0, state := .idle }

theorem Seq.stream_stopStream (hk : k ≤ 3) (q : Seq) (j : Nat) : (q.stopStream k).stream j = if j = k then (q.stream k).stopped else q.stream j := by
  unfold Seq.stopStream
  dsimp only
  split
  · exact (Seq.stream_streamEnd ..).trans (Seq.stream_setStream hk ..)
  · exact Seq.stream_setStream hk ..

theorem Seq.stopStream_eq (q : Seq) (k : Nat) : q.stopStream k = { q with strm := (q.stopStream k).strm } := by
  unfold Seq.stopStream
  dsimp only
  split <;> rfl

/-- The stream t begins at number k under operation n, in place of the one that was there (R163). -/
def Seq.beginStream (q : Seq) (k n : Nat) (t : Stream) : Seq :=
  let q1 := (q.stopStream k).setStream k t
  let q2 : Seq := { q1 with strm := { q1.strm with iss := n } }
  if t.count = 0 then q2.streamEnd n else q2

theorem Seq.beginStream_eq (q : Seq) (k n : Nat) (t : Stream) : q.beginStream k n t = { q with strm := (q.beginStream k n t).strm } := by
  have hstop := q.stopStream_eq k
  unfold Seq.beginStream
  rw [hstop]
  dsimp only
  split <;> rfl

theorem Seq.beginStream_iss (q : Seq) (k n : Nat) (t : Stream) : (q.beginStream k n t).strm.iss = n := by
  unfold Seq.beginStream
  dsimp only
  split <;> rfl

theorem Seq.stream_beginStream (hk : k ≤ 3) (q : Seq) (n : Nat) (t : Stream) (j : Nat) :
    (q.beginStream k n t).stream j = if j = k then t else q.stream j := by
  have hset : ((q.stopStream k).setStream k t).stream j = if j = k then t else q.stream j := by
    rw [Seq.stream_setStream hk, Seq.stream_stopStream hk]
    split <;> rfl
  unfold Seq.beginStream
  dsimp only
  split
  · exact hset
  · exact hset

theorem State.startStream_none (h : streamOf b (s.seq.strm.iss + 1) (s.issuer s.hart) = none) : s.startStream rd k b = s.setX rd 0 := by
  rw [State.startStream, h]

theorem State.startStream_some (h : streamOf b (s.seq.strm.iss + 1) (s.issuer s.hart) = some t) :
    s.startStream rd k b = (s.upd fun q => q.beginStream k (s.seq.strm.iss + 1) t).setX rd (BitVec.ofNat 64 (s.seq.strm.iss + 1)) := by
  rw [State.startStream, h]
  rfl

/-! ## scfg, swait, sresume and sstop -/

theorem stream_unknown (hk : 3 < sel.toNat) (hi : i = .scfg rd rs1 sel ∨ i = .swait rd sel ∨ i = .sresume sel ∨ i = .sstop sel) :
    exec i s = .next (s.takeTrap 2 s.seq.latch.bits) := by
  obtain rfl | rfl | rfl | rfl := hi
  all_goals exact traps_of_finish rfl (if_pos (.inl hk))

section
variable (hcore : s.onCore = true) (hk : sel.toNat ≤ 3)
include hcore hk

/-- On a core, the number of one of the four streams is accepted. -/
theorem not_stream_refused : ¬ (3 < sel.toNat ∨ (!s.onCore) = true) := by
  simp [hcore, hk]

theorem exec_scfg : exec (.scfg rd rs1 sel) s =
    finish ((s.readCmd (s.x rs1) 32).bind fun b s1 => .ok () (s1.startStream rd sel.toNat b)) :=
  congrArg finish (if_neg (not_stream_refused hcore hk))

theorem scfg_completes (ha : (s.x rs1).toNat % 32 = 0) (hread : s.loadAt s.via (s.x rs1) 32 false = .ok b s1) :
    Completes (.scfg rd rs1 sel) s (s1.startStream rd sel.toNat b) :=
  completes_of_ok (exec_scfg hcore hk) (Res.bind_of_ok ((State.readCmd_aligned ha).trans hread))

theorem scfg_misaligned (ha : (s.x rs1).toNat % 32 ≠ 0) : exec (.scfg rd rs1 sel) s = .next (s.takeTrap 4 (s.x rs1)) :=
  traps_of_finish (exec_scfg hcore hk) (Res.bind_of_trap (State.readCmd_misaligned ha))

theorem swait_completes (h : (s.seq.stream sel.toNat).queue ≠ [] ∨ (s.seq.stream sel.toNat).marker.isSome = true ∨ (s.seq.stream sel.toNat).open = false) :
    Completes (.swait rd sel) s (s.setX rd (BitVec.ofNat 64 (s.seq.stream sel.toNat).queue.length)) := by
  refine completes_of_ok rfl ((if_neg (not_stream_refused hcore hk)).trans (if_pos ?_))
  rwa [Bool.not_eq_true']

theorem swait_waits (hqueue : (s.seq.stream sel.toNat).queue = []) (hmarker : (s.seq.stream sel.toNat).marker = none)
    (hopen : (s.seq.stream sel.toNat).open = true) : exec (.swait rd sel) s = .next (s.stalled .stream) :=
  waits_of_finish rfl ((if_neg (not_stream_refused hcore hk)).trans (if_neg (by simp [hqueue, hmarker, hopen])))

theorem sresume_idle (h : (s.seq.stream sel.toNat).state ≠ .faulted) : Completes (.sresume sel) s s :=
  completes_of_ok rfl ((if_neg (not_stream_refused hcore hk)).trans (if_pos h))

theorem sresume_resumes (h : (s.seq.stream sel.toNat).state = .faulted) :
    ∃ e : State, Completes (.sresume sel) s e ∧
      e.seq.stream sel.toNat = { s.seq.stream sel.toNat with queue := [], marker := none, fcause := 0, state := .running } ∧
      e = { s with seq := { s.seq with strm := e.seq.strm, fails := e.seq.fails } } :=
  ⟨_, completes_of_ok rfl ((if_neg (not_stream_refused hcore hk)).trans (if_neg (not_not.mpr h))),
    (Seq.stream_setStream hk ..).trans (if_pos rfl), rfl⟩

theorem sstop_completes : Completes (.sstop sel) s (s.upd fun q => q.stopStream sel.toNat) :=
  completes_of_ok rfl (if_neg (not_stream_refused hcore hk))

end

/-! ## spop (R165) -/

/-- spop in a vector state that is in order. -/
def State.spopRun (s : State) (vd : Reg) (k : Nat) : Res VInfo :=
  let t := s.seq.stream k
  let avail := t.queue.length
  if !t.open then .ok { s.vinfo 10 4341 true with pop := 0 } (s.updVec fun v => { v with vl := 0 })
  else if s.seq.vec.vl ≤ avail ∨ t.marker.isSome ∨ t.next + avail = t.count then
    if avail = 0 ∧ t.marker.isSome then
      .trap 26 (BitVec.ofNat 64 (k * 2 ^ 62 + t.marker.getD 0 % 2 ^ 62))
        (s.upd fun q => { q with fails := q.fails.filter fun f => !(f.eng == 2 && f.n == t.op) })
    else
      let n := min s.seq.vec.vl avail
      let short := t.marker.isSome && decide (n < s.seq.vec.vl)
      let r := (addrRange (fun _ => true) (fun j => t.base + t.stride * BitVec.ofNat 64 (t.next + j)) t.bytes n).getD (0, 0)
      .ok { first := BitVec.ofNat 64 r.1, last := BitVec.ofNat 64 r.2, trunc := short, cls := 10, ord := 4341, masked := false, pop := n }
        (s.popInto vd.toNat k n short)
  else .stall .stream s

theorem exec_spop (hk : sel.toNat ≤ 3) (hsew : s.seq.vec.sew = 8 * (s.seq.stream sel.toNat).bytes)
    (hgrp : (s.seq.vec.grp vd.toNat s.seq.vec.sew).ok s.seq.vec.nregs = true) :
    exec (.spop vd sel) s = finishV (s.vguard true true (s.spopRun vd sel.toNat)) := by
  have hlegal : (decide (sel.toNat ≤ 3 ∧ s.seq.vec.sew = 8 * (s.seq.stream sel.toNat).bytes) &&
      (s.seq.vec.grp vd.toNat s.seq.vec.sew).ok s.seq.vec.nregs) = true := by
    rw [hgrp, Bool.and_true]
    exact decide_eq_true ⟨hk, hsew⟩
  exact congrArg (fun ok => finishV (s.vguard true ok (s.spopRun vd sel.toNat))) hlegal

theorem waits_of_vguard {r : Res VInfo} {typed : Bool} {w : Stall} (h : exec i s = finishV (s.vguard typed true r)) (hready : VReady s typed)
    (hr : r = .stall w s) : exec i s = .next (s.stalled w) := by
  rw [h, State.vguard_ready hready, hr]
  rfl

section
variable (ht : s.seq.stream k = t)
include ht

theorem State.spopRun_closed (hopen : t.open = false) :
    s.spopRun vd k = .ok { s.vinfo 10 4341 true with pop := 0 } (s.updVec fun v => { v with vl := 0 }) :=
  if_pos (by rw [ht, hopen]; rfl)

variable (hopen : t.open = true)
include hopen

theorem State.spopRun_waits (hshort : t.queue.length < s.seq.vec.vl) (hmarker : t.marker = none) (hmore : t.next + t.queue.length ≠ t.count) :
    s.spopRun vd k = .stall .stream s := by
  subst ht
  exact (if_neg (by simp [hopen])).trans (if_neg (by simp [hmarker, hmore, hshort]))

theorem State.spopRun_faulted {j : Nat} (hempty : t.queue = []) (hmarker : t.marker = some j) :
    s.spopRun vd k = .trap 26 (BitVec.ofNat 64 (k * 2 ^ 62 + j % 2 ^ 62))
      (s.upd fun q => { q with fails := q.fails.filter fun f => !(f.eng == 2 && f.n == t.op) }) := by
  subst ht
  refine (if_neg (by simp [hopen])).trans ((if_pos (by simp [hmarker])).trans ((if_pos (by simp [hempty, hmarker])).trans ?_))
  rw [hmarker]
  rfl

theorem State.spopRun_pops (henough : s.seq.vec.vl ≤ t.queue.length ∨ t.marker.isSome = true ∨ t.next + t.queue.length = t.count)
    (hsome : t.queue ≠ [] ∨ t.marker = none) :
    ∃ info, s.spopRun vd k = .ok info
      (s.popInto vd.toNat k (min s.seq.vec.vl t.queue.length) (t.marker.isSome && decide (min s.seq.vec.vl t.queue.length < s.seq.vec.vl))) := by
  subst ht
  have hnone : ¬ ((s.seq.stream k).queue.length = 0 ∧ (s.seq.stream k).marker.isSome = true) := by
    rintro ⟨hempty, hmarker⟩
    rcases hsome with h | h
    · exact h (List.length_eq_zero_iff.mp hempty)
    · simp [h] at hmarker
  exact ⟨_, (if_neg (by simp [hopen])).trans ((if_pos henough).trans (if_neg hnone))⟩

end

/-- The stream after n elements were popped. -/
def Stream.popped (t : Stream) (n : Nat) : Stream :=
  { t with queue := t.queue.drop n, next := t.next + n, state := if t.next + n = t.count then .ended else t.state }

/-- A pop without elements left out, and then LTRUNC where there are some. -/
theorem State.popInto_true (s : State) (vd k n : Nat) : s.popInto vd k n true = (s.popInto vd k n false).xflag xsLTRUNC := rfl

theorem State.popInto_stream (hk : k ≤ 3) (s : State) (vd n : Nat) (short : Bool) :
    (s.popInto vd k n short).seq.stream k = (s.seq.stream k).popped n := by
  have hpop : (s.popInto vd k n false).seq.stream k = (s.seq.stream k).popped n := by
    simp only [State.popInto, Stream.popped, State.upd_seq, Bool.false_eq_true, if_false]
    split
    · exact (Seq.stream_streamEnd ..).trans ((Seq.stream_setStream hk ..).trans (if_pos rfl))
    · exact (Seq.stream_setStream hk ..).trans (if_pos rfl)
  cases short
  · exact hpop
  · exact hpop

theorem foldl_put_vl (vd w : Nat) (l : List (Word × Nat)) (v : Vec) : (l.foldl (fun v p => v.put vd w p.2 p.1.toNat) v).vl = v.vl := by
  induction l generalizing v with
  | nil => rfl
  | cons p l ih => rw [List.foldl_cons, ih, Vec.put_eq]

theorem State.popInto_vl (s : State) (vd k n : Nat) (short : Bool) : (s.popInto vd k n short).seq.vec.vl = n := by
  have hpop : (s.popInto vd k n false).seq.vec.vl = n := by
    simp only [State.popInto, State.updVec, State.upd_seq, Bool.false_eq_true, if_false]
    split
    · exact foldl_put_vl ..
    · exact foldl_put_vl ..
  cases short
  · exact hpop
  · exact hpop

theorem State.popInto_truncated (s : State) (vd k n : Nat) : (s.popInto vd k n true).seq.ctl.xsflags &&& xsLTRUNC = xsLTRUNC := by
  rw [State.popInto_true]
  show (_ ||| xsLTRUNC) &&& xsLTRUNC = xsLTRUNC
  ext j
  rw [BitVec.getElem_and, BitVec.getElem_or]
  exact Bool.and_eq_right_iff_imp.mpr fun hbit => by rw [hbit, Bool.or_true]

/-! ## The access side (R164) -/

@[simp] theorem State.getSeq_dropAsks (s : State) (p : Party) (h : Nat) : (s.dropAsks p).getSeq h = s.getSeq h := by
  unfold State.dropAsks
  split <;> rfl

theorem exec_streamFetch {h : Nat} (ht : (s.getSeq h).stream k = t) (hk : k ≤ 3) (hrun : t.state = .running) (hmore : t.next + t.queue.length < t.count)
    (hroom : t.queue.length < t.room)
    (hread : s.loadAt (s.viaEng h t.issuer false) (t.base + t.stride * BitVec.ofNat 64 (t.next + t.queue.length)) t.bytes false = .ok b s1) :
    exec (.streamFetch h k) s = .next ((s1.dropAsks (s.viaEng h t.issuer false).party).modSeq h fun q =>
      q.setStream k { q.stream k with queue := (q.stream k).queue ++ [BitVec.ofNat 64 (leNat b)] }) := by
  subst ht
  refine (if_neg ?_).trans ?_
  · simp [hrun, hk, hmore, hroom]
  · rw [hread]

/-! ## The statement -/

/-- Settles O42: each instruction by its selector, its waits and what it answers, spop by what the queue and the marker leave it, and the access side by the
element that it reads. -/
theorem timelinesAndStreamsGoOn : Obligations.TimelinesAndStreamsGoOn := by
  intro s s1 rd rs1 vd sel b st hcore k n1 m t
  refine ⟨tlwait_waits hcore, tlwait_completes hcore, fun c n hone hdone hp hn => ?deferred, fun v hv => ?reads, tlwait_unknown,
    tlread_unknown hcore, fun hk ha hread => ⟨fun hst => ?configured, fun hst => ?illFormed⟩, scfg_misaligned hcore,
    fun hk => ⟨swait_completes hcore hk, swait_waits hcore hk, sresume_idle hcore hk, sresume_resumes hcore hk, ?stops⟩,
    fun hk i => stream_unknown hk, fun hready hk hsew hgrp => ?pops, fun h s2 ht hk hrun hmore hroom hread => ?fetches⟩
  case deferred => exact tlwait_traps hcore (by omega) (hdone.trans_eq (congrArg s.seq.tlCount hone).symm) hone hp hn
  case reads => exact ⟨_, completes_of_finish (exec_tlread_some hcore hv), congrArg (fun q => { s with seq := q }) (Seq.tlSeen_eq ..)⟩
  case configured =>
    have hdone := scfg_completes (rd := rd) hcore hk ha hread
    rw [State.startStream_some hst] at hdone
    refine ⟨_, hdone, (Seq.stream_beginStream hk ..).trans (if_pos rfl), Seq.beginStream_iss .., fun j hj => ?_, ?_⟩
    · exact (Seq.stream_beginStream hk ..).trans (if_neg hj)
    · exact congrArg (fun q => { s1 with seq := q }) (Seq.beginStream_eq ..)
  case illFormed =>
    have hdone := scfg_completes (rd := rd) hcore hk ha hread
    rwa [State.startStream_none hst] at hdone
  case stops =>
    have hstream := (Seq.stream_stopStream hk s.seq k).trans (if_pos rfl)
    refine ⟨_, sstop_completes hcore hk, ?_, ?_, ?_, congrArg (fun q => { s with seq := q }) (Seq.stopStream_eq ..)⟩
    · exact congrArg Stream.queue hstream
    · exact congrArg Stream.state hstream
    · exact congrArg Stream.marker hstream
  case pops =>
    have hexec := exec_spop hk hsew hgrp
    refine ⟨fun hopen => vCompletes_of_vguard hexec hready (State.spopRun_closed rfl hopen), fun hopen henough hsome => ?_, fun j hopen hempty hmarker => ?_,
      fun hopen hshort hmarker hmore => waits_of_vguard hexec hready (State.spopRun_waits rfl hopen hshort hmarker hmore)⟩
    · obtain ⟨info, hrun⟩ := State.spopRun_pops (vd := vd) rfl hopen henough hsome
      have hstream := s.popInto_stream hk vd.toNat (min s.seq.vec.vl t.queue.length) (t.marker.isSome && decide (min s.seq.vec.vl t.queue.length < s.seq.vec.vl))
      refine ⟨vCompletes_of_vguard hexec hready hrun, congrArg Stream.queue hstream, congrArg Stream.next hstream, State.popInto_vl ..,
        congrArg Stream.state hstream, fun hmarker hfewer => ?_⟩
      rw [hmarker, decide_eq_true hfewer]
      exact State.popInto_truncated ..
    · exact traps_of_vguard hexec hready (State.spopRun_faulted rfl hopen hempty hmarker)
  case fetches =>
    refine ⟨_, exec_streamFetch ht hk hrun hmore hroom hread, ?_, ?_, fun g hg => ?_⟩
    · rw [State.getSeq_modSeq, if_pos rfl, Seq.stream_setStream hk, if_pos rfl, State.getSeq_dropAsks]
    · simp
    · rw [State.getSeq_modSeq, if_neg hg, State.getSeq_dropAsks]

end Sys2Proof.Machine
end

section
/-! PROOFS. What the engines do: copies and chains (R153 to R161), matrix operations (R180, R188), sampling (R293). -/

namespace Sys2Proof.Machine
open Claim

variable {s s1 s2 : State} {h n k x : Nat} {v : Word} {b d : List Byte} {op : CopyOp} {c : Chain}

/-! ## A copy operation ends -/

section
variable (q : Seq) (n : Nat) (tok : Reg) (writes : Bool) (fail : Option CopyFail)

theorem Seq.copy_setTok (r : Reg) (m : Nat) (f : Bool) : (q.setTok r m f).copy = q.copy := by
  rw [Seq.setTok_eq]

/-- No operation of the number that ended is left. -/
theorem Seq.copyEnd_ops : (q.copyEnd n tok writes fail).copy.ops = q.copy.ops.filter (·.n ≠ n) := by
  unfold Seq.copyEnd
  cases fail <;> cases writes <;> simp [Seq.copy_setTok, Seq.noteFail]

/-- R154: number, cause, address and entry of the failure. -/
theorem Seq.copyEnd_failure (f : CopyFail) : (q.copyEnd n tok true (some f)).copy.failN = n ∧ (q.copyEnd n tok true (some f)).copy.failCause = f.cause ∧
    (q.copyEnd n tok true (some f)).copy.failVa = f.va ∧ (q.copyEnd n tok true (some f)).copy.failEntry = f.entry := by
  simp [Seq.copyEnd, Seq.copy_setTok, Seq.noteFail]

end

/-- R155: bit 63 of a token marks a failure. -/
theorem failToken_getLsbD (n : Nat) : (BitVec.ofNat 64 (n % 2 ^ 63 + 2 ^ 63)).getLsbD 63 = true := by
  rw [BitVec.getLsbD_ofNat, Nat.add_comm, Nat.testBit_two_pow_add_eq, Nat.testBit_lt_two_pow (Nat.mod_lt n (by decide))]
  rfl

theorem Seq.copyEnd_failToken (q : Seq) (n : Nat) {tok : Reg} (htok : tok ≠ 0) (f : CopyFail) :
    ((q.copyEnd n tok true (some f)).rx tok).getLsbD 63 = true := by
  simp only [Seq.copyEnd, if_true]
  rw [Seq.rx_setTok, if_pos ⟨rfl, htok⟩]
  exact failToken_getLsbD n

theorem State.followOn_none (hfollow : op.follow = none) (copied : Bool) : s.followOn h op copied = s := by
  rw [State.followOn, hfollow]

/-- A copy or a chain that fails: the failure is recorded, and the token has bit 63. -/
theorem State.copyEnd_failure {num : Nat} {tok : Reg} {f : CopyFail} {t : State} (ht : t = s.modSeq h fun q => q.copyEnd num tok true (some f)) :
    (t.getSeq h).copy.failN = num ∧ (t.getSeq h).copy.failCause = f.cause ∧ (t.getSeq h).copy.failVa = f.va ∧ (t.getSeq h).copy.failEntry = f.entry ∧
      (tok ≠ 0 → ((t.getSeq h).rx tok).getLsbD 63 = true) := by
  rw [ht, State.getSeq_modSeq, if_pos rfl]
  obtain ⟨hn, hcause, hva, hentry⟩ := (s.getSeq h).copyEnd_failure num tok f
  exact ⟨hn, hcause, hva, hentry, fun htok => Seq.copyEnd_failToken _ num htok f⟩

section
variable (hop : (s.getSeq h).copy.ops.find? (fun o => o.n == n) = some op) (hfollow : op.follow = none)
include hop hfollow

theorem copyComplete_finishes (hrun : s.copyAll h op = .finished s1) :
    exec (.copyComplete h n) s = .next (s1.modSeq h fun q => q.copyEnd n op.tok true none) := by
  show execCopyComplete h n s = _
  simp only [execCopyComplete, hop, hrun, State.followOn_none hfollow, hfollow, Option.isNone_none]

theorem copyComplete_fails (hrun : s.copyAll h op = .failed x v s1) :
    exec (.copyComplete h n) s = .next (s1.modSeq h fun q => q.copyEnd n op.tok true (some ⟨x, v, 0⟩)) := by
  show execCopyComplete h n s = _
  simp only [execCopyComplete, hop, hrun, State.followOn_none hfollow, hfollow, Option.isNone_none]

end

/-! ## The chain engine takes an entry (R159) -/

section
variable (hc : (s.getSeq h).copy.chains.find? (fun c => c.n == n) = some c)
include hc

theorem chainEntryStart_pair_traps (hpair : s.readBytes (s.viaEng h c.issuer true) c.pair 8 = .trap x v s1) :
    exec (.chainEntryStart h n) s = .next ((s1.dropAsks (s.viaEng h c.issuer true).party).endChain h c (some ⟨x, v, c.k⟩)) := by
  show execChainEntryStart h n s = _
  simp only [execChainEntryStart, hc, hpair]

variable (hpair : s.readBytes (s.viaEng h c.issuer true) c.pair 8 = .ok b s1)
include hpair

theorem chainEntryStart_waits (htail : leNat b < c.k) : exec (.chainEntryStart h n) s =
    .next ((s1.dropAsks (s.viaEng h c.issuer true).party).setChain h { c with tail := some (leNat b) }) := by
  show execChainEntryStart h n s = _
  simp only [execChainEntryStart, hc, hpair, if_pos htail]

variable (htail : c.k ≤ leNat b)
include htail

theorem chainEntryStart_takes (hentry : s1.readBytes (s.viaEng h c.issuer true) c.next 64 = .ok d s2) :
    exec (.chainEntryStart h n) s = (s2.dropAsks (s.viaEng h c.issuer true).party).takeEntry h c (chainEntry d c.k) := by
  show execChainEntryStart h n s = _
  simp only [execChainEntryStart, hc, hpair, if_neg (Nat.not_lt.mpr htail), hentry]

theorem chainEntryStart_entry_traps (hentry : s1.readBytes (s.viaEng h c.issuer true) c.next 64 = .trap x v s2) :
    exec (.chainEntryStart h n) s = .next ((s2.dropAsks (s.viaEng h c.issuer true).party).endChain h c (some ⟨x, v, c.k⟩)) := by
  show execChainEntryStart h n s = _
  simp only [execChainEntryStart, hc, hpair, if_neg (Nat.not_lt.mpr htail), hentry]

end

section
variable {kind : Nat} {fence : Bool} {next : Word} (hended : c.ended.contains c.k = false) (hnew : (c.running.any fun e => e.1 == c.k) = false)
include hended hnew

/-- An entry that is neither in progress nor over is not passed by. -/
theorem not_entry_taken : ¬ (c.ended.contains c.k = true ∨ (c.running.any fun e => e.1 == c.k) = true) := by
  rw [hended, hnew]
  simp

theorem State.takeEntry_starts (hkind : kind ≠ 0) (hfence : fence = false ∨ c.running = []) (hroom : c.running.length < 4) :
    s.takeEntry h c (some (kind, fence, op, next)) = .next (s.setChain h
      { c with addrs := c.addrs ++ [(c.k, c.next)], next := next, k := c.k + 1, running := c.running ++ [(c.k, { op with issuer := c.issuer })] }) := by
  have hfree : ¬ ((fence = true ∨ kind = 0) ∧ c.running ≠ []) := by
    rintro ⟨hf | h0, hbusy⟩
    · exact hfence.elim (fun hno => Bool.false_ne_true (hno.symm.trans hf)) hbusy
    · exact hkind h0
  exact (if_neg (not_entry_taken hended hnew)).trans ((if_neg hfree).trans ((if_neg hkind).trans (if_neg (Nat.not_le.mpr hroom))))

theorem State.takeEntry_waits (hbusy : c.running ≠ []) (hwait : fence = true ∨ kind = 0 ∨ 4 ≤ c.running.length) :
    s.takeEntry h c (some (kind, fence, op, next)) = .next s := by
  refine (if_neg (not_entry_taken hended hnew)).trans ?_
  by_cases hfirst : fence = true ∨ kind = 0
  · exact if_pos ⟨hfirst, hbusy⟩
  · obtain ⟨hfence, hkind⟩ := not_or.mp hfirst
    have hfull := (hwait.resolve_left hfence).resolve_left hkind
    exact (if_neg fun hboth => hfirst hboth.1).trans ((if_neg hkind).trans (if_pos hfull))

variable (hkind : kind = 0) (hidle : c.running = [])
include hkind hidle

theorem State.takeEntry_stops (hdone : s.chainDone h c c.k = .ok () s1) :
    s.takeEntry h c (some (kind, fence, op, next)) = .next (s1.endChain h c none) := by
  refine (if_neg (not_entry_taken hended hnew)).trans ((if_neg fun hboth => hboth.2 hidle).trans ((if_pos hkind).trans ?_))
  rw [hdone]

theorem State.takeEntry_stop_traps (hdone : s.chainDone h c c.k = .trap x v s1) :
    s.takeEntry h c (some (kind, fence, op, next)) = .next (s1.endChain h c (some ⟨x, v, c.k⟩)) := by
  refine (if_neg (not_entry_taken hended hnew)).trans ((if_neg fun hboth => hboth.2 hidle).trans ((if_pos hkind).trans ?_))
  rw [hdone]

end

/-! ## An entry of a chain ends -/

/-- The chain after its entry k has ended and DONE is `done`. -/
def Chain.afterEntry (c : Chain) (k done : Nat) (late : List Nat) : Chain :=
  { c with running := c.running.filter (·.1 ≠ k), ended := late, doneK := done, addrs := c.addrs.filter fun e => decide (done < e.1) }

theorem copyComplete_entry (hops : (s.getSeq h).copy.ops.find? (fun o => o.n == n) = none)
    (hc : (s.getSeq h).copy.chains.find? (fun c => c.n == n) = some c)
    (hrun : c.running[(s.draw).1.toNat % c.running.length]? = some (k, op)) : exec (.copyComplete h n) s = (s.draw).2.runEntry h c k op := by
  show execCopyComplete h n s = _
  simp only [execCopyComplete, hops, hc, hrun]

theorem State.runEntry_failed (hrun : s.copyAll h op = .failed x v s1) : s.runEntry h c k op = .next (s1.endChain h c (some ⟨x, v, k⟩)) := by
  rw [State.runEntry, hrun]

theorem State.runEntry_finished (hrun : s.copyAll h op = .finished s1) : s.runEntry h c k op = s1.endEntry h c k op := by
  rw [State.runEntry, hrun]

section
variable {done : Nat} {late : List Nat} (htl : tlComplete c.doneK c.ended k = (done, late))
include htl

theorem State.endEntry_later (hsame : done = c.doneK) : s.endEntry h c k op = .next (s.setChain h (c.afterEntry k done late)) := by
  unfold State.endEntry
  rw [htl]
  exact if_pos hsame

theorem State.endEntry_rises (hrise : done ≠ c.doneK) (hdone : s.chainDone h c done = .ok () s1) :
    s.endEntry h c k op = .next (s1.setChain h (c.afterEntry k done late)) := by
  unfold State.endEntry
  rw [htl]
  exact (if_neg hrise).trans (by simp only [hdone, Chain.afterEntry])

theorem State.endEntry_traps (hrise : done ≠ c.doneK) (hdone : s.chainDone h c done = .trap x v s1) :
    s.endEntry h c k op = .next (s1.endChain h c (some ⟨x, v, k⟩)) := by
  unfold State.endEntry
  rw [htl]
  exact (if_neg hrise).trans (by simp only [hdone])

end

/-! ## The matrix engine (R180, R188) -/

section
variable {m : MatOp}

theorem execMatrixOpComplete_own {rest : List MatOp} (hops : (s.getSeq h).mat.ops = m :: rest) (hcopy : m.copyN = none) (hok : m.failed = false)
    (hown : m.follow = false) : exec (.matrixOpComplete h) s = s.doMat h m := by
  show execMatrixOpComplete h s = _
  simp [execMatrixOpComplete, hops, hcopy, hok, hown]

theorem State.doMat_good (hrun : s.runMat h m = .ended .good s1) :
    s.doMat h m = .next ((s1.dropAsks (s.viaHart h).party).modSeq h fun q => q.matEnd m none) := by
  rw [State.doMat, hrun]
  rfl

theorem Seq.mat_setTok (q : Seq) (r : Reg) (n : Nat) (fail : Bool) : (q.setTok r n fail).mat = q.mat := by
  rw [Seq.setTok_eq]

theorem Seq.matEnd_count (q : Seq) (m : MatOp) : (q.matEnd m none).mat.count = m.n := by
  have hleave (u : MatCtx) (e : Option Nat) : (u.leave e m.n).count = u.count := by
    unfold MatCtx.leave
    split <;> rfl
  exact (congrArg MatCtx.count (Seq.mat_setTok ..)).trans (hleave ..)

theorem Core.accRow_setAccRow_zero (c : Core) {a : Nat} (ha : a < 4) (m j : Nat) :
    (c.setAccRow a m 0).accRow a j = if j = m then 0 else c.accRow a j := by
  unfold Core.accRow Core.setAccRow
  simp only [Vector.toArray_setIfInBounds, Array.getD_eq_getD_getElem?, Array.getElem?_setIfInBounds]
  by_cases hj : m = j
  · subst hj
    simp [ha]
  · simp [ha, hj, Ne.symm hj]

theorem Core.accRow_putRows_zero {a : Nat} (ha : a < 4) (len j m : Nat) (c : Core) :
    (c.putRows a m (List.replicate len 0)).accRow a j = if m ≤ j ∧ j < m + len then 0 else c.accRow a j := by
  induction len generalizing c m with
  | zero => exact (if_neg (by omega)).symm
  | succ len ih =>
    rw [List.replicate_succ, Core.putRows, ih, Core.accRow_setAccRow_zero c ha]
    by_cases hj : j = m
    · rw [if_neg (by omega), if_pos hj, if_pos (by omega)]
    · rw [if_neg hj]
      exact if_congr (by omega) rfl rfl

/-- An accumulator has 64 rows; the model reads 0 beyond them. -/
theorem Core.accRow_of_ge (c : Core) (a : Nat) {j : Nat} (hj : 64 ≤ j) : c.accRow a j = 0 := by
  unfold Core.accRow
  rw [Array.getD_eq_getD_getElem?, Array.getElem?_eq_none (by rwa [Vector.size_toArray])]
  rfl

theorem Core.accRow_withMarks (c : Core) (marks : List (Nat × Nat × Nat)) (a j : Nat) : { c with marks := marks }.accRow a j = c.accRow a j := rfl

/-- What mzero leaves of its core: every row of the accumulator 0, and no mark of poison there. -/
def Core.zeroed (c : Core) (acc : Nat) : Core := { c.putRows acc 0 (List.replicate 64 0) with marks := c.marks.filter fun x => x.1 != acc }

theorem Core.accRow_zeroed (c : Core) (acc : BitVec 2) (j : Nat) : (c.zeroed acc.toNat).accRow acc.toNat j = 0 := by
  rw [Core.zeroed, Core.accRow_withMarks]
  by_cases hj : j < 64
  · rw [Core.accRow_putRows_zero acc.isLt, if_pos ⟨Nat.zero_le j, by omega⟩]
  · exact Core.accRow_of_ge _ _ (Nat.not_lt.mp hj)

end

@[simp] theorem State.dropAsks_cores (s : State) (p : Party) : (s.dropAsks p).cores = s.cores := by
  unfold State.dropAsks
  split <;> rfl

/-- The end of an operation of a hart leaves the cores. -/
theorem State.core_afterEngine (s : State) (p : Party) (f : Seq → Seq) (i : Nat) : ((s.dropAsks p).modSeq h f).core i = s.core i := by
  rw [State.core, State.modSeq_cores, State.dropAsks_cores, State.core]

theorem State.runMat_mzero {m : MatOp} (hkind : m.kind = .mzero) :
    s.runMat h m = .ended .good (s.modCore (coreOf h) fun c => c.zeroed m.acc.toNat) := by
  simp only [State.runMat, hkind, MatRun.of, State.runMzero, Core.zeroed]

theorem State.core_modCore (s : State) (i : Nat) (f : Core → Core) : (s.modCore i f).core i = f (s.core i) :=
  (State.core_setCore s i i _).trans (if_pos rfl)

/-! ## Sampling (R293) -/

section
variable {idx : Nat} {op op1 : TexOp} {tex : Texture} {f : Option (Nat × Word)}

theorem State.texAt_own (htex : (s.getSeq h).tex[idx]? = some op) : s.texAt h idx = some (none, idx, op) := by
  unfold State.texAt
  dsimp only
  rw [htex]

variable (htex : (s.getSeq h).tex[idx]? = some op) (hdesc : textureOf op.desc = some tex)
  (hrun : texRun (s.viaEng h op.issuer false) tex op op.coords s = .ended op1 f s1)
include htex hdesc hrun

theorem texSaComplete_replies (howes : s1.peerOwes (s.viaEng h op.issuer false).party = false) : exec (.texSaComplete h idx) s =
    .next ((s1.modTex h none fun l => l.eraseIdx idx).inject (s1.texReply h (s1.partOfCluster (hartCluster h)) op1 f)) := by
  show execTexSaComplete h idx s = _
  simp only [execTexSaComplete, State.texAt_own htex, hdesc, hrun, if_neg (Bool.eq_false_iff.mp howes)]

theorem texSaComplete_waits (howes : s1.peerOwes (s.viaEng h op.issuer false).party = true) :
    exec (.texSaComplete h idx) s = .next (s1.modTex h none fun l => l.set idx op1) := by
  show execTexSaComplete h idx s = _
  simp only [execTexSaComplete, State.texAt_own htex, hdesc, hrun, if_pos howes]

end

/-! ## The statement -/

/-- Settles O44: each engine by how its run ends, and a chain by what it reads and by the entry that it takes or has performed. -/
theorem enginesCompleteTheirOperations : Obligations.EnginesCompleteTheirOperations := by
  intro s s1 s2 h n idx
  refine ⟨fun op hop hfollow => ⟨fun hrun => ?copied, fun c v hrun => ?copyFailed⟩,
    fun c b hc hpair => ⟨chainEntryStart_waits hc hpair, fun d htail hentry => ?entry, fun x v => chainEntryStart_entry_traps hc hpair⟩,
    fun c x v hc => ⟨chainEntryStart_pair_traps hc, fun k => State.copyEnd_failure rfl, fun k op hops hentry => ?running⟩,
    fun op rest hops hcopy hok hown => ⟨fun hrun => ?performed, fun hkind => ?zeroed⟩,
    fun op tex op1 f htex hdesc hrun => ⟨texSaComplete_replies htex hdesc hrun, texSaComplete_waits htex hdesc hrun⟩⟩
  case copied =>
    have hown := (State.getSeq_modSeq s1 h h fun q => q.copyEnd n op.tok true none).trans (if_pos rfl)
    refine ⟨_, copyComplete_finishes hop hfollow hrun, hown, State.modSeq_mem .., fun g hg => ?_, fun o ho => ?_⟩
    · rw [State.getSeq_modSeq, if_neg hg]
    · rw [hown, Seq.copyEnd_ops] at ho
      exact of_decide_eq_true (List.mem_filter.mp ho).2
  case copyFailed =>
    have hexec := copyComplete_fails hop hfollow hrun
    obtain ⟨hn, hcause, hva, -, htok⟩ := State.copyEnd_failure (s := s1) (h := h) (num := n) (tok := op.tok) (f := ⟨c, v, 0⟩) rfl
    exact ⟨_, hexec, hn, hcause, hva, htok, State.modSeq_mem ..⟩
  case entry =>
    have htakes := chainEntryStart_takes hc hpair htail hentry
    refine ⟨fun hform => by rw [hform] at htakes; exact htakes, fun kind fence op next hform hended hnew => ?_⟩
    rw [hform] at htakes
    exact ⟨fun hkind hfence hroom => htakes.trans (State.takeEntry_starts hended hnew hkind hfence hroom),
      fun hbusy hwait => htakes.trans (State.takeEntry_waits hended hnew hbusy hwait),
      fun hkind hidle s3 hdone => htakes.trans (State.takeEntry_stops hended hnew hkind hidle hdone),
      fun x v s3 hkind hidle hdone => htakes.trans (State.takeEntry_stop_traps hended hnew hkind hidle hdone)⟩
  case running =>
    have hexec := copyComplete_entry hops hc hentry
    refine ⟨fun hrun => hexec.trans (State.runEntry_failed hrun), fun hrun done late htl => ?_⟩
    have hends := hexec.trans (State.runEntry_finished hrun)
    exact ⟨fun hsame => hends.trans (State.endEntry_later htl hsame), fun hrise hdone => hends.trans (State.endEntry_rises htl hrise hdone),
      fun y u hrise hdone => hends.trans (State.endEntry_traps htl hrise hdone)⟩
  case performed =>
    have hexec := (execMatrixOpComplete_own hops hcopy hok hown).trans (State.doMat_good hrun)
    have hseq := State.getSeq_modSeq (s1.dropAsks (s.viaHart h).party) h h fun q => q.matEnd op none
    rw [if_pos rfl, State.getSeq_dropAsks] at hseq
    refine ⟨_, hexec, hseq, ?_, ?_, ?_, fun g hg => ?_⟩
    · rw [hseq, Seq.matEnd_count]
    · rw [State.modSeq_mem, State.dropAsks_mem]
    · rw [State.modSeq_cores, State.dropAsks_cores]
    · rw [State.getSeq_modSeq, if_neg hg, State.getSeq_dropAsks]
  case zeroed =>
    have hexec := (execMatrixOpComplete_own hops hcopy hok hown).trans (State.doMat_good (State.runMat_mzero hkind))
    refine ⟨_, hexec, fun m => ?_, ?_⟩
    · rw [State.core_afterEngine, State.core_modCore, Core.accRow_zeroed]
    · rw [State.modSeq_mem, State.dropAsks_mem, State.modCore_mem]

end Sys2Proof.Machine
end
